-- ==== Sys2Proof/Word.lean ====
section
/-! DEFINITION. The word types of the TN9 (R2, R15, R42, R196, R198): what the manual reads and
writes as bits. Helpers over them stand in Machine/Bits.lean, where a repair can reach them. -/

namespace Sys2Proof

/-- One byte of memory or scratchpad. -/
abbrev Byte := BitVec 8
/-- A 32-bit word: an instruction word (R42), a vector container (R196), an FP32 pattern (R15). -/
abbrev W32 := BitVec 32
/-- A 64-bit word: a general register (R72), a special register, a header word (R95), an address. -/
abbrev W64 := BitVec 64
/-- A vector register: 4,096 bits (R196). -/
abbrev VReg := BitVec 4096
/-- A mask register: 128 bits (R198). -/
abbrev MaskReg := BitVec 128

end Sys2Proof
end

