-- ==== Sys2Proof/Syntax.lean ====
section
/-! DEFINITION. The abstract syntax: one constructor of `Instr` for every row of spec/opcode_table.json.
The 332 encoded rows carry the fields of their word (03 R52, R53); `sw` is the switch marker S (03 R42).
The 94 rows without an encoding name the steps of the device's own agents and of the world outside
(spec/95_what_each_step_holds.md); they carry what such a step needs to know. The types before `Instr` are
the bodies that those steps carry: messages (05 R95), network control (05 R107), steal requests (06 R135),
group arrivals (06 R136), fabric transactions (13 R297), encapsulated units (13 R303) and so on. -/
namespace Sys2Proof

/-- An OMF message (05 R95): four header words, up to 16 inline words or one bulk payload (05 R96), the landing
offset of the bulk descriptor (05 R101) and the source site carried by the receiving I/O die (05 R102). -/
structure Msg where
  w0 : W64
  w1 : W64
  w2 : W64
  w3 : W64
  words : List W64
  bulk : List Byte
  dst : BitVec 19
  ssite : BitVec 16
  deriving DecidableEq, Repr

/-- One packet of a bulk payload on its way to the receiver that pulls it (05 R96, R102): the whole header with its own
PIDX and POFF, and its bytes. -/
structure Packet where
  w0 : W64
  w1 : W64
  w2 : W64
  w3 : W64
  data : List Byte
  deriving DecidableEq, Repr

/-- The three network-control messages (05 R107). -/
inductive CtlKind where
  | admitted | retry | nack
  deriving DecidableEq, Repr

/-- A network-control message for a sending core (05 R107): the core, the source context, incarnation and sequence
number it names, the task, whether a high credit stands behind the message answered, whether that message was a
request, was sent in mode 2, the reason of a NACK and its words 1 and 2, the site that the answer comes from (0 for this
one), and whether it says that the receiver has taken the payload (05 R102; assumption 129). -/
structure Ctl where
  kind : CtlKind
  core : Nat
  ctx : BitVec 4
  inc : BitVec 6
  seq : Nat
  task : BitVec 12
  hi : Bool
  req : Bool
  mode2 : Bool
  reason : Nat
  w1 : W64
  w2 : W64
  site : BitVec 16
  taken : Bool
  deriving DecidableEq, Repr

/-- A steal request, or the answer to it with its records (06 R135). -/
structure Steal where
  thief : Nat
  victim : Nat
  task : BitVec 12
  room : Nat
  recs : List (List W64)
  deriving DecidableEq, Repr

/-- An arrival at a group unit (06 R136, R144): the subgroup code, the op code, the member's rank and value, the
release PC of GARR, and the arriving context for GARRW. -/
structure Arrival where
  task : BitVec 12
  code : Nat
  op : Nat
  rank : Nat
  value : W64
  pc : W64
  wait : Bool
  core : Nat
  ctx : BitVec 4
  inc : BitVec 6
  deriving DecidableEq, Repr

/-- Who made a contribution to a reduction record (12 R282): a copy command of a core of this module, or a module of
the pod with the tags of the transactions that carried it. -/
inductive RedFrom where
  | here (core num : Nat)
  | pod (accel : Nat) (tags : List Nat)
  deriving DecidableEq, Repr

/-- A slice-mode contribution (12 R280, R282): the destination VA, the address space and size class (12 R279), the
shape of the control word, the elements as 64-bit words, and which of them are uncorrectable. On the fabric a transaction
carries at most 256 bytes of it (13 R294): contribution `num` of its source, the elements from `first` on. `behind` names the
transactions of the earlier contributions of its channel to the same record, behind which it is tested (12 R271). -/
structure RedMsg where
  va : W64
  asid : Nat
  sub : Bool
  task : BitVec 12
  nel : Nat
  stype : Nat
  dtype : Nat
  isMax : Bool
  cnt : Nat
  slice : Nat
  data : List W64
  bad : List Nat
  num : Nat
  first : Nat
  behind : List Nat
  src : RedFrom
  deriving DecidableEq, Repr

/-- A multicast line on its way to its members (12 R284, 13 R297, R298): source module, transaction tag, the SWID by which the
switches replicate it, address, in which each member puts its own ACCEL, address space, whether its bytes are uncorrectable, whether it is answered, the bytes still to be written, and whether sectors of it
are written already (08 R180). -/
structure CmcLine where
  src : Nat
  tag : Nat
  swid : Nat
  va : W64
  asid : Nat
  sub : Bool
  poison : Bool
  ack : Bool
  data : List Byte
  begun : Bool
  deriving DecidableEq, Repr

/-- A member's response to a multicast line (13 R300): the multicast it answers, the member, and its reason
(0 positive, 1 NOMAP, 2 POISON). -/
structure CmcResp where
  x : Nat
  member : Nat
  reason : Nat
  deriving DecidableEq, Repr

/-- A token record with its activation row (14 R321, R322): words 0 to 2, the eight probabilities, the region registers of the
issuing core, which give the size class of the row (12 R279), until the row is read, and the row; no row is empty once it has been
read. -/
structure TokRec where
  w0 : W64
  arow : W64
  rrow : W64
  prob : List W32
  spa : List W64
  row : List Byte
  deriving DecidableEq, Repr

/-- A transfer of a send list to an ingress (14 R322): source, destination, task, the FLUSH mark with the core and the
number of the RTFLUSH that formed it, the transaction tag under which its last part crossed the fabric, the parts that have left
(13 R294), and its records. -/
structure Transfer where
  sacc : Nat
  sdie : Nat
  dacc : Nat
  ddie : Nat
  task : BitVec 12
  flush : Option (Nat × Nat)
  tag : Nat
  sent : Nat
  recs : List TokRec
  deriving DecidableEq, Repr

/-- What an endpoint tells of a landing (13 R309; how it travels is not given, assumption 30): the send, the number of the packet
with which it began, the bytes landed, the landing number and the status. -/
structure LandNews where
  sendid : Nat
  seq : Nat
  landed : Nat
  num : Nat
  status : Nat
  deriving DecidableEq, Repr

/-- An encapsulated unit of the scale-out network (13 R303), with the path it travelled, the acknowledgement's echoed
time, the marks of uncorrectable bytes of its body, and the news of landings that an acknowledgement brings. -/
structure UeUnit where
  ty : Nat
  refuse : Bool
  seq : Nat
  ssite : Nat
  dsite : Nat
  sacc : Nat
  dacc : Nat
  rq : Nat
  off : Nat
  total : Nat
  sendid : Nat
  stask : BitVec 12
  data : List Byte
  omf : Option Msg
  bad : Nat
  news : List LandNews
  echo : Nat
  path : Nat
  deriving DecidableEq, Repr

/-- What a UALink transaction asks, or answers (13 R294, R297). A sector write names its transfer and its place in it (R295);
`unit` is a unit of a send to the own site (R309). What is longer than 256 bytes crosses in parts: of a unit the bytes of number
`num` of its source from `first` on; of a transfer part `ix` of the `total` of number `num`, with the bytes of one row from `pos` on,
and the count `n` of its records. -/
inductive FabOp where
  | read (va : W64) (asid : Nat) (sub : Bool) (len : Nat)
  | write (va : W64) (asid : Nat) (sub : Bool) (data : List Byte) (poison : Bool) (xfer ix : Nat)
  | atom (va : W64) (asid : Nat) (sub : Bool) (op : Nat) (wide : Bool) (v : W64) (nv : W64)
  | reduce (va : W64) (asid : Nat) (sub : Bool) (isMax : Bool) (stype : Nat) (data : List W64) (bad : List Nat)
  | slice (r : RedMsg)
  | line (l : CmcLine)
  | omf (m : Msg)
  | tokens (t : Transfer) (num ix total pos n : Nat)
  | unit (u : UeUnit) (num first : Nat)
  | answer (data : List Byte) (v : W64) (status : Nat)
  deriving DecidableEq, Repr

/-- A UALink transaction or its response: the other module, the tag, and the body (13 R297). -/
structure FabTx where
  accel : Nat
  tag : Nat
  op : FabOp
  deriving DecidableEq, Repr

/-- What the physical layer reports of an arriving flit (13 R296). -/
inductive FlitResult where
  | clean
  | corrected (codewords : Nat)
  | replayed
  deriving DecidableEq, Repr

/-- The registers of the register BAR, by offset where the manual gives one (16 R376, R378), else by name, and those of the
management path (15 R353, R359, R364; 16 R383, R385, R389), with the value written; reads of them; and what the host side
does to memory without an instruction: a write of host memory (R377) and poison that a CXL device reports (R381). -/
inductive HostReg where
  | aperture (i : Nat) (va : W64) (asid : Nat)
  | bar (off : Nat) (v : W64)
  | barRead (off : Nat)
  | monRead (die i word : Nat)
  | debugRead (k : Nat)
  | hostMemory (pa : Nat) (data : List Byte)
  | cxlPoison (die pa n : Nat)
  | monCtl (die i : Nat) (v : W64)
  | monMin (die i : Nat) (v : W64)
  | monMax (die i : Nat) (v : W64)
  | monBin (die i b : Nat) (v : W32)
  | eventRing (base : Nat)
  | asidDirectory (die base : Nat)
  | faultRing (die base : Nat) (va : W64) (notify : W64) (pc : W64)
  | moduleId (accel site : Nat)
  | debug (k : Nat) (v : W64)
  | retrainPort (port : Nat)
  | clearJournal
  deriving DecidableEq, Repr

/-- What a drive handle is bound to (16 R380): a namespace with its block size, at a drive with its maximum transfer, both in
bytes; and the die and the physical address at which system firmware keeps its queue pair. -/
structure Namespace where
  block : Nat
  most : Nat
  die : Nat
  queue : Nat
  deriving DecidableEq, Repr

/-- What a FENCE names (08 R189, R190): its scope, 0 CORE, 1 DIE, 2 PKG, 3 SYS, and its kinds, LL, LS, SL and SS from bit 0
up. -/
structure FenceOp where
  scope : BitVec 2
  kinds : BitVec 4
  deriving DecidableEq, Repr

/-- What the world answers to the bring-up steps of 16 R382: the ROM check, the stacks and clusters that fail their test,
the scale-up ports that fail to train at the rate tried, the Ultra Ethernet ports that do not come up, whether a CXL device
trains, whether the firmware launch starts; how the package is fused: the part, whether the decompression engine is fitted,
its identity; the bytes of the boot ROM, of the fuses and of the identity key (R386), and the firmware launch's record. -/
structure BootReport where
  romOk : Bool
  firmwareOk : Bool
  spart : Bool
  decomp : Bool
  stackFails : List Nat
  clusterFails : List Nat
  portFails : List Nat
  ueFails : List Nat
  cxl : Bool
  accel : Nat
  site : Nat
  rom : List Byte
  fuses : List Byte
  identity : List Byte
  record : List W64
  deriving DecidableEq, Repr

/-- One constructor for every row of spec/opcode_table.json, in the table's order. -/
inductive Instr where
  /-- ADD. R82: 64-bit addition modulo 2^64 of two general registers. -/
  | add (sw : Bool) (d : BitVec 4) (a : BitVec 4) (b : BitVec 4)
  /-- ADD_W. R82: 32-bit addition, result sign-extended to 64 bits. -/
  | addW (sw : Bool) (d : BitVec 4) (a : BitVec 4) (b : BitVec 4)
  /-- SUB. R82: 64-bit subtraction modulo 2^64. -/
  | sub (sw : Bool) (d : BitVec 4) (a : BitVec 4) (b : BitVec 4)
  /-- SUB_W. R82: 32-bit subtraction, sign-extended. -/
  | subW (sw : Bool) (d : BitVec 4) (a : BitVec 4) (b : BitVec 4)
  /-- AND. R82: 64-bit bitwise AND. -/
  | and (sw : Bool) (d : BitVec 4) (a : BitVec 4) (b : BitVec 4)
  /-- AND_W. R82: 32-bit bitwise AND, sign-extended. -/
  | andW (sw : Bool) (d : BitVec 4) (a : BitVec 4) (b : BitVec 4)
  /-- OR. R82: 64-bit bitwise OR. -/
  | or (sw : Bool) (d : BitVec 4) (a : BitVec 4) (b : BitVec 4)
  /-- OR_W. R82: 32-bit bitwise OR, sign-extended. -/
  | orW (sw : Bool) (d : BitVec 4) (a : BitVec 4) (b : BitVec 4)
  /-- XOR. R82: 64-bit bitwise XOR. -/
  | xor (sw : Bool) (d : BitVec 4) (a : BitVec 4) (b : BitVec 4)
  /-- XOR_W. R82: 32-bit bitwise XOR, sign-extended. -/
  | xorW (sw : Bool) (d : BitVec 4) (a : BitVec 4) (b : BitVec 4)
  /-- ANDN. R82: 64-bit A AND NOT B. -/
  | andn (sw : Bool) (d : BitVec 4) (a : BitVec 4) (b : BitVec 4)
  /-- ANDN_W. R82: 32-bit A AND NOT B, sign-extended. -/
  | andnW (sw : Bool) (d : BitVec 4) (a : BitVec 4) (b : BitVec 4)
  /-- SHL. R82: 64-bit left shift by B mod 64, zero fill. -/
  | shl (sw : Bool) (d : BitVec 4) (a : BitVec 4) (b : BitVec 4)
  /-- SHL_W. R82: 32-bit left shift by B mod 32, sign-extended. -/
  | shlW (sw : Bool) (d : BitVec 4) (a : BitVec 4) (b : BitVec 4)
  /-- SHR. R82: 64-bit logical right shift. -/
  | shr (sw : Bool) (d : BitVec 4) (a : BitVec 4) (b : BitVec 4)
  /-- SHR_W. R82: 32-bit logical right shift, sign-extended. -/
  | shrW (sw : Bool) (d : BitVec 4) (a : BitVec 4) (b : BitVec 4)
  /-- SAR. R82: 64-bit arithmetic right shift. -/
  | sar (sw : Bool) (d : BitVec 4) (a : BitVec 4) (b : BitVec 4)
  /-- SAR_W. R82: 32-bit arithmetic right shift, sign-extended. -/
  | sarW (sw : Bool) (d : BitVec 4) (a : BitVec 4) (b : BitVec 4)
  /-- MIN. R82: 64-bit signed minimum. -/
  | min (sw : Bool) (d : BitVec 4) (a : BitVec 4) (b : BitVec 4)
  /-- MIN_W. R82: 32-bit signed minimum, sign-extended. -/
  | minW (sw : Bool) (d : BitVec 4) (a : BitVec 4) (b : BitVec 4)
  /-- MAX. R82: 64-bit signed maximum. -/
  | max (sw : Bool) (d : BitVec 4) (a : BitVec 4) (b : BitVec 4)
  /-- MAX_W. R82: 32-bit signed maximum, sign-extended. -/
  | maxW (sw : Bool) (d : BitVec 4) (a : BitVec 4) (b : BitVec 4)
  /-- MINU. R82: 64-bit unsigned minimum. -/
  | minu (sw : Bool) (d : BitVec 4) (a : BitVec 4) (b : BitVec 4)
  /-- MINU_W. R82: 32-bit unsigned minimum, sign-extended. -/
  | minuW (sw : Bool) (d : BitVec 4) (a : BitVec 4) (b : BitVec 4)
  /-- MAXU. R82: 64-bit unsigned maximum. -/
  | maxu (sw : Bool) (d : BitVec 4) (a : BitVec 4) (b : BitVec 4)
  /-- MAXU_W. R82: 32-bit unsigned maximum, sign-extended. -/
  | maxuW (sw : Bool) (d : BitVec 4) (a : BitVec 4) (b : BitVec 4)
  /-- MUL. R82: Low 64 bits of the product. -/
  | mul (sw : Bool) (d : BitVec 4) (a : BitVec 4) (b : BitVec 4)
  /-- MUL_W. R82: Low 32 bits of the product, sign-extended. -/
  | mulW (sw : Bool) (d : BitVec 4) (a : BitVec 4) (b : BitVec 4)
  /-- MULH. R82: High 64 bits of the signed 128-bit product. -/
  | mulh (sw : Bool) (d : BitVec 4) (a : BitVec 4) (b : BitVec 4)
  /-- MULH_W. R82: High 32 bits of the signed 64-bit product, sign-extended. -/
  | mulhW (sw : Bool) (d : BitVec 4) (a : BitVec 4) (b : BitVec 4)
  /-- MULHU. R82: High 64 bits of the unsigned product. -/
  | mulhu (sw : Bool) (d : BitVec 4) (a : BitVec 4) (b : BitVec 4)
  /-- MULHU_W. R82: High 32 bits of the unsigned product, sign-extended. -/
  | mulhuW (sw : Bool) (d : BitVec 4) (a : BitVec 4) (b : BitVec 4)
  /-- DIV. R82: 64-bit signed quotient towards zero, with defined division by zero and overflow. -/
  | div (sw : Bool) (d : BitVec 4) (a : BitVec 4) (b : BitVec 4)
  /-- DIV_W. R82: 32-bit signed quotient, sign-extended. -/
  | divW (sw : Bool) (d : BitVec 4) (a : BitVec 4) (b : BitVec 4)
  /-- DIVU. R82: 64-bit unsigned quotient; B = 0 gives all ones. -/
  | divu (sw : Bool) (d : BitVec 4) (a : BitVec 4) (b : BitVec 4)
  /-- DIVU_W. R82: 32-bit unsigned quotient, sign-extended. -/
  | divuW (sw : Bool) (d : BitVec 4) (a : BitVec 4) (b : BitVec 4)
  /-- REM. R82: 64-bit signed remainder with the sign of A. -/
  | rem (sw : Bool) (d : BitVec 4) (a : BitVec 4) (b : BitVec 4)
  /-- REM_W. R82: 32-bit signed remainder, sign-extended. -/
  | remW (sw : Bool) (d : BitVec 4) (a : BitVec 4) (b : BitVec 4)
  /-- REMU. R82: 64-bit unsigned remainder; B = 0 gives A. -/
  | remu (sw : Bool) (d : BitVec 4) (a : BitVec 4) (b : BitVec 4)
  /-- REMU_W. R82: 32-bit unsigned remainder, sign-extended. -/
  | remuW (sw : Bool) (d : BitVec 4) (a : BitVec 4) (b : BitVec 4)
  /-- SLT. R82: 1 if A < B signed, else 0 (64-bit). -/
  | slt (sw : Bool) (d : BitVec 4) (a : BitVec 4) (b : BitVec 4)
  /-- SLT_W. R82: 1 if A < B signed, else 0 (32-bit). -/
  | sltW (sw : Bool) (d : BitVec 4) (a : BitVec 4) (b : BitVec 4)
  /-- SLTU. R82: 1 if A < B unsigned, else 0 (64-bit). -/
  | sltu (sw : Bool) (d : BitVec 4) (a : BitVec 4) (b : BitVec 4)
  /-- SLTU_W. R82: 1 if A < B unsigned, else 0 (32-bit). -/
  | sltuW (sw : Bool) (d : BitVec 4) (a : BitVec 4) (b : BitVec 4)
  /-- SEQ. R82: 1 if A = B, else 0 (64-bit). -/
  | seq (sw : Bool) (d : BitVec 4) (a : BitVec 4) (b : BitVec 4)
  /-- SEQ_W. R82: 1 if A = B, else 0 (32-bit). -/
  | seqW (sw : Bool) (d : BitVec 4) (a : BitVec 4) (b : BitVec 4)
  /-- CLZ. R82: Count of leading zero bits of A (64-bit). -/
  | clz (sw : Bool) (d : BitVec 4) (a : BitVec 4)
  /-- CLZ_W. R82: Count of leading zero bits of A (32-bit). -/
  | clzW (sw : Bool) (d : BitVec 4) (a : BitVec 4)
  /-- CTZ. R82: Count of trailing zero bits of A (64-bit). -/
  | ctz (sw : Bool) (d : BitVec 4) (a : BitVec 4)
  /-- CTZ_W. R82: Count of trailing zero bits of A (32-bit). -/
  | ctzW (sw : Bool) (d : BitVec 4) (a : BitVec 4)
  /-- POPC. R82: Count of one bits of A (64-bit). -/
  | popc (sw : Bool) (d : BitVec 4) (a : BitVec 4)
  /-- POPC_W. R82: Count of one bits of A (32-bit). -/
  | popcW (sw : Bool) (d : BitVec 4) (a : BitVec 4)
  /-- SEL. R82: Selects A if wc is nonzero, else B (64-bit). -/
  | sel (sw : Bool) (d : BitVec 4) (a : BitVec 4) (b : BitVec 4) (c : BitVec 4)
  /-- SEL_W. R82: Selects A if the low 32 bits of wc are nonzero, else B (32-bit). -/
  | selW (sw : Bool) (d : BitVec 4) (a : BitVec 4) (b : BitVec 4) (c : BitVec 4)
  /-- ADDI. R83: Adds a sign-extended immediate. -/
  | addi (sw : Bool) (d : BitVec 4) (a : BitVec 4) (imm : BitVec 13)
  /-- ANDI. R83: Bitwise AND with an immediate. -/
  | andi (sw : Bool) (d : BitVec 4) (a : BitVec 4) (imm : BitVec 13)
  /-- ORI. R83: Bitwise OR with an immediate. -/
  | ori (sw : Bool) (d : BitVec 4) (a : BitVec 4) (imm : BitVec 13)
  /-- XORI. R83: Bitwise XOR with an immediate. -/
  | xori (sw : Bool) (d : BitVec 4) (a : BitVec 4) (imm : BitVec 13)
  /-- SHLI. R83: Left shift by an immediate 0-63. -/
  | shli (sw : Bool) (d : BitVec 4) (a : BitVec 4) (imm : BitVec 13)
  /-- SHRI. R83: Logical right shift by an immediate 0-63. -/
  | shri (sw : Bool) (d : BitVec 4) (a : BitVec 4) (imm : BitVec 13)
  /-- SARI. R83: Arithmetic right shift by an immediate 0-63. -/
  | sari (sw : Bool) (d : BitVec 4) (a : BitVec 4) (imm : BitVec 13)
  /-- SLTI. R83: 1 if A < immediate, signed. -/
  | slti (sw : Bool) (d : BitVec 4) (a : BitVec 4) (imm : BitVec 13)
  /-- SLTUI. R83: 1 if A < sign-extended immediate, unsigned. -/
  | sltui (sw : Bool) (d : BitVec 4) (a : BitVec 4) (imm : BitVec 13)
  /-- SEQI. R83: 1 if A equals the immediate. -/
  | seqi (sw : Bool) (d : BitVec 4) (a : BitVec 4) (imm : BitVec 13)
  /-- MULI. R83: Low 64 bits of A times the immediate. -/
  | muli (sw : Bool) (d : BitVec 4) (a : BitVec 4) (imm : BitVec 13)
  /-- LIM. R84: Loads a sign-extended immediate, extendable by HX.IMM. -/
  | lim (sw : Bool) (d : BitVec 4) (imm : BitVec 21)
  /-- LIMT. R85: Writes an immediate into bits [63:43], keeping bits [42:0]. -/
  | limt (sw : Bool) (d : BitVec 4) (imm : BitVec 21)
  /-- LEA. R86: Computes wa + (wb << sh). -/
  | lea (sw : Bool) (d : BitVec 4) (a : BitVec 4) (b : BitVec 4) (h : BitVec 5)
  /-- BFX. R87: Extracts a zero-extended bit field. -/
  | bfx (sw : Bool) (d : BitVec 4) (a : BitVec 4) (l : BitVec 6) (p : BitVec 6)
  /-- BFX_S. R87: Extracts a sign-extended bit field. -/
  | bfxS (sw : Bool) (d : BitVec 4) (a : BitVec 4) (l : BitVec 6) (p : BitVec 6)
  /-- BFI. R87: Inserts the low bits of wa into a field of wd. -/
  | bfi (sw : Bool) (d : BitVec 4) (a : BitVec 4) (l : BitVec 6) (p : BitVec 6)
  /-- BEQ. R88: Branches when A = B; closes the group. -/
  | beq (sw : Bool) (a : BitVec 4) (b : BitVec 4) (o : BitVec 14)
  /-- BNE. R88: Branches when A differs from B. -/
  | bne (sw : Bool) (a : BitVec 4) (b : BitVec 4) (o : BitVec 14)
  /-- BLT. R88: Branches when A < B signed. -/
  | blt (sw : Bool) (a : BitVec 4) (b : BitVec 4) (o : BitVec 14)
  /-- BGE. R88: Branches when A >= B signed. -/
  | bge (sw : Bool) (a : BitVec 4) (b : BitVec 4) (o : BitVec 14)
  /-- BLTU. R88: Branches when A < B unsigned. -/
  | bltu (sw : Bool) (a : BitVec 4) (b : BitVec 4) (o : BitVec 14)
  /-- BGEU. R88: Branches when A >= B unsigned. -/
  | bgeu (sw : Bool) (a : BitVec 4) (b : BitVec 4) (o : BitVec 14)
  /-- BEQZ. R88: Branches when A = 0. -/
  | beqz (sw : Bool) (a : BitVec 4) (o : BitVec 14)
  /-- BNEZ. R88: Branches when A is nonzero. -/
  | bnez (sw : Bool) (a : BitVec 4) (o : BitVec 14)
  /-- B. R89: Unconditional relative jump. -/
  | jump (sw : Bool) (o : BitVec 25)
  /-- CALL. R74: Relative call: delivers the group, raises the window depth, writes the return PC to the callee's w15, or raises SPILL. -/
  | call (sw : Bool) (o : BitVec 25)
  /-- NOP. R90: Does nothing; with S only closes a group. -/
  | nop (sw : Bool)
  /-- END. R90: Closes the group, waits for its results and retires the activation, returning context and resources. -/
  | endAct (sw : Bool)
  /-- JR. R90: Jumps to the address in wa. -/
  | jr (sw : Bool) (a : BitVec 4)
  /-- CALLR. R74: Calls the address in wa under the window rules. -/
  | callr (sw : Bool) (a : BitVec 4)
  /-- RET. R75: Returns to w15, lowering the window depth, or raises FILL. -/
  | ret (sw : Bool)
  /-- MFS. R91: Reads a special register into wd. -/
  | mfs (sw : Bool) (d : BitVec 4) (r : BitVec 8)
  /-- MTS. R91: Writes a special register at the group's close, for every register without a row of its own. -/
  | mts (sw : Bool) (d : BitVec 4) (r : BitVec 8)
  /-- HX_IMM. R61: Hint word that extends the immediate of the next instruction. -/
  | hxImm (v : BitVec 21)
  /-- HX_RND. R60: Hint word that replaces the rounding mode of the next instruction. -/
  | hxRnd (m : BitVec 3)
  /-- HX_REUSE. R60: Hint word asking the reuse cache to keep marked operands. -/
  | hxReuse (k : BitVec 3)
  /-- HX_NT. R60: Non-temporal hint for the next memory instruction. -/
  | hxNt
  /-- HX_PRI. R60: Sets the priority bit of the message the next instruction posts. -/
  | hxPri (p : BitVec 1)
  /-- SEND. R118: Checks and posts an inline activation message, releasing earlier global stores at PKG scope. -/
  | send (sw : Bool) (d : BitVec 4) (a : BitVec 4) (b : BitVec 4) (n : BitVec 5)
  /-- SEND_RQ. R118: Posts an inline request that takes a window credit and expects a reply. -/
  | sendRq (sw : Bool) (d : BitVec 4) (a : BitVec 4) (b : BitVec 4) (n : BitVec 5)
  /-- SENDB. R118: Posts an activation message with a bulk payload snapshotted from scratchpad. -/
  | sendb (sw : Bool) (d : BitVec 4) (a : BitVec 4) (b : BitVec 4)
  /-- SENDB_RQ. R118: Posts a bulk request that expects a reply. -/
  | sendbRq (sw : Bool) (d : BitVec 4) (a : BitVec 4) (b : BitVec 4)
  /-- REPLY. R119: Posts an inline high-priority reply to the requester, parking if outbound storage is full. -/
  | reply (sw : Bool) (b : BitVec 4) (n : BitVec 5)
  /-- REPLYB. R119: Posts a bulk reply to the requester. -/
  | replyb (sw : Bool) (b : BitVec 4)
  /-- MIGR. R121: Moves the activation to the home core of an address as a continuation message. -/
  | migr (a : BitVec 4)
  /-- MIGRX. R121: Moves the activation to an explicit destination as a continuation. -/
  | migrx (d : BitVec 4)
  /-- RECVW. R120: Waits for and consumes the oldest held context-addressed message, writing its words and RSTAT. -/
  | recvw (sw : Bool) (d : BitVec 4)
  /-- HOMEXY. R122: Writes the destination word of the home core of an address. -/
  | homexy (sw : Bool) (d : BitVec 4) (a : BitVec 4)
  /-- EVARM. R140: Posts an arm operation with a target to an event. -/
  | evarm (sw : Bool) (a : BitVec 4) (b : BitVec 4)
  /-- EVSEND. R141: Registers a deferred activation message as a waiter on an event. -/
  | evsend (sw : Bool) (d : BitVec 4) (a : BitVec 4) (b : BitVec 4) (e : BitVec 4)
  /-- EVREAD. R140: Reads word 0 of an event entry, parking until the reply. -/
  | evread (sw : Bool) (d : BitVec 4) (a : BitVec 4)
  /-- PUSHW. R142: Pushes a four-word record onto the top of the core's deque. -/
  | pushw (sw : Bool) (b : BitVec 4)
  /-- POPW. R142: Pops the top record of the deque, or zeros when empty. -/
  | popw (sw : Bool) (d : BitVec 4)
  /-- STEAL. R143: Sends a steal request to the next eligible neighbour. -/
  | steal (sw : Bool)
  /-- DQLEN. R142: Writes the deque status word. -/
  | dqlen (sw : Bool) (d : BitVec 4)
  /-- LAUNCH. R146: Submits a launch record, parks until it is accepted or refused, and writes the status. -/
  | launch (sw : Bool) (d : BitVec 4) (a : BitVec 4)
  /-- KILL. R147: Ends the launch of a task on the module, discarding its messages and state. -/
  | kill (sw : Bool) (a : BitVec 4)
  /-- EVSIG. R140: Posts a signal adding an immediate to an event's count. -/
  | evsig (sw : Bool) (a : BitVec 4) (imm : BitVec 13)
  /-- SGRP. R145: Writes the code, rank and size of the subgroup at a level. -/
  | sgrp (sw : Bool) (d : BitVec 4) (l : BitVec 13)
  /-- GARR_AND. R144: Arrives at a subgroup round with a bitwise AND; release starts a handler. -/
  | garrAnd (sw : Bool) (d : BitVec 4) (a : BitVec 4) (k : BitVec 11)
  /-- GARR_OR. R144: Arrives at a subgroup round with a bitwise OR. -/
  | garrOr (sw : Bool) (d : BitVec 4) (a : BitVec 4) (k : BitVec 11)
  /-- GARR_ADD. R144: Arrives at a subgroup round with integer ADD. -/
  | garrAdd (sw : Bool) (d : BitVec 4) (a : BitVec 4) (k : BitVec 11)
  /-- GARR_MAXU. R144: Arrives at a subgroup round with unsigned maximum. -/
  | garrMaxu (sw : Bool) (d : BitVec 4) (a : BitVec 4) (k : BitVec 11)
  /-- GARR_FMAX. R144: Arrives at a subgroup round with FP32 maximum. -/
  | garrFmax (sw : Bool) (d : BitVec 4) (a : BitVec 4) (k : BitVec 11)
  /-- GARR_FMIN. R144: Arrives at a subgroup round with FP32 minimum. -/
  | garrFmin (sw : Bool) (d : BitVec 4) (a : BitVec 4) (k : BitVec 11)
  /-- GARRW_AND. R144: Arrives with AND and parks until the release. -/
  | garrwAnd (sw : Bool) (d : BitVec 4) (a : BitVec 4) (k : BitVec 11)
  /-- GARRW_OR. R144: Arrives with OR and parks until the release. -/
  | garrwOr (sw : Bool) (d : BitVec 4) (a : BitVec 4) (k : BitVec 11)
  /-- GARRW_ADD. R144: Arrives with ADD and parks until the release. -/
  | garrwAdd (sw : Bool) (d : BitVec 4) (a : BitVec 4) (k : BitVec 11)
  /-- GARRW_MAXU. R144: Arrives with MAXU and parks until the release. -/
  | garrwMaxu (sw : Bool) (d : BitVec 4) (a : BitVec 4) (k : BitVec 11)
  /-- GARRW_FMAX. R144: Arrives with FMAX and parks until the release. -/
  | garrwFmax (sw : Bool) (d : BitVec 4) (a : BitVec 4) (k : BitVec 11)
  /-- GARRW_FMIN. R144: Arrives with FMIN and parks until the release. -/
  | garrwFmin (sw : Bool) (d : BitVec 4) (a : BitVec 4) (k : BitVec 11)
  /-- LDG_B. R159: Global byte load, sign-extended. -/
  | ldgB (sw : Bool) (d : BitVec 4) (a : BitVec 4) (imm : BitVec 13)
  /-- LDG_BU. R159: Global byte load, zero-extended. -/
  | ldgBu (sw : Bool) (d : BitVec 4) (a : BitVec 4) (imm : BitVec 13)
  /-- LDG_H. R159: Global halfword load, sign-extended. -/
  | ldgH (sw : Bool) (d : BitVec 4) (a : BitVec 4) (imm : BitVec 13)
  /-- LDG_HU. R159: Global halfword load, zero-extended. -/
  | ldgHu (sw : Bool) (d : BitVec 4) (a : BitVec 4) (imm : BitVec 13)
  /-- LDG_W. R159: Global word load, sign-extended. -/
  | ldgW (sw : Bool) (d : BitVec 4) (a : BitVec 4) (imm : BitVec 13)
  /-- LDG_WU. R159: Global word load, zero-extended. -/
  | ldgWu (sw : Bool) (d : BitVec 4) (a : BitVec 4) (imm : BitVec 13)
  /-- LDG_D. R159: Global doubleword load. -/
  | ldgD (sw : Bool) (d : BitVec 4) (a : BitVec 4) (imm : BitVec 13)
  /-- LDG_ACQ. R176: Global doubleword load with acquire at PKG scope. -/
  | ldgAcq (sw : Bool) (d : BitVec 4) (a : BitVec 4) (imm : BitVec 13)
  /-- STG_B. R159: Global byte store. -/
  | stgB (sw : Bool) (d : BitVec 4) (a : BitVec 4) (imm : BitVec 13)
  /-- STG_H. R159: Global halfword store. -/
  | stgH (sw : Bool) (d : BitVec 4) (a : BitVec 4) (imm : BitVec 13)
  /-- STG_W. R159: Global word store. -/
  | stgW (sw : Bool) (d : BitVec 4) (a : BitVec 4) (imm : BitVec 13)
  /-- STG_D. R159: Global doubleword store. -/
  | stgD (sw : Bool) (d : BitVec 4) (a : BitVec 4) (imm : BitVec 13)
  /-- STG_REL. R176: Global doubleword store with release at PKG scope. -/
  | stgRel (sw : Bool) (d : BitVec 4) (a : BitVec 4) (imm : BitVec 13)
  /-- LDG_ACQ_W. R176: Global word load, sign-extended, with acquire. -/
  | ldgAcqW (sw : Bool) (d : BitVec 4) (a : BitVec 4) (imm : BitVec 13)
  /-- STG_REL_W. R176: Global word store with release. -/
  | stgRelW (sw : Bool) (d : BitVec 4) (a : BitVec 4) (imm : BitVec 13)
  /-- PREF. R160: Asks the memory agent to bring a line into the memory-side cache; never traps on the address. -/
  | pref (sw : Bool) (a : BitVec 4) (imm : BitVec 13)
  /-- LDL_B. R159: Scratchpad byte load, sign-extended. -/
  | ldlB (sw : Bool) (d : BitVec 4) (a : BitVec 4) (imm : BitVec 13)
  /-- LDL_BU. R159: Scratchpad byte load, zero-extended. -/
  | ldlBu (sw : Bool) (d : BitVec 4) (a : BitVec 4) (imm : BitVec 13)
  /-- LDL_H. R159: Scratchpad halfword load, sign-extended. -/
  | ldlH (sw : Bool) (d : BitVec 4) (a : BitVec 4) (imm : BitVec 13)
  /-- LDL_HU. R159: Scratchpad halfword load, zero-extended. -/
  | ldlHu (sw : Bool) (d : BitVec 4) (a : BitVec 4) (imm : BitVec 13)
  /-- LDL_W. R159: Scratchpad word load, sign-extended. -/
  | ldlW (sw : Bool) (d : BitVec 4) (a : BitVec 4) (imm : BitVec 13)
  /-- LDL_WU. R159: Scratchpad word load, zero-extended. -/
  | ldlWu (sw : Bool) (d : BitVec 4) (a : BitVec 4) (imm : BitVec 13)
  /-- LDL_D. R159: Scratchpad doubleword load. -/
  | ldlD (sw : Bool) (d : BitVec 4) (a : BitVec 4) (imm : BitVec 13)
  /-- STL_B. R159: Scratchpad byte store. -/
  | stlB (sw : Bool) (d : BitVec 4) (a : BitVec 4) (imm : BitVec 13)
  /-- STL_H. R159: Scratchpad halfword store. -/
  | stlH (sw : Bool) (d : BitVec 4) (a : BitVec 4) (imm : BitVec 13)
  /-- STL_W. R159: Scratchpad word store. -/
  | stlW (sw : Bool) (d : BitVec 4) (a : BitVec 4) (imm : BitVec 13)
  /-- STL_D. R159: Scratchpad doubleword store. -/
  | stlD (sw : Bool) (d : BitVec 4) (a : BitVec 4) (imm : BitVec 13)
  /-- VLDG. R161: Loads 512 bytes from global memory into the active lanes of a vector register. -/
  | vldg (sw : Bool) (v : BitVec 5) (g : BitVec 4) (m : BitVec 3) (o : BitVec 8)
  /-- VSTG. R161: Stores the active lanes of a vector register to global memory. -/
  | vstg (sw : Bool) (v : BitVec 5) (g : BitVec 4) (m : BitVec 3) (o : BitVec 8)
  /-- VLDL. R161: Loads 512 bytes from scratchpad into active lanes. -/
  | vldl (sw : Bool) (v : BitVec 5) (g : BitVec 4) (m : BitVec 3) (o : BitVec 8)
  /-- VSTL. R161: Stores active lanes to scratchpad. -/
  | vstl (sw : Bool) (v : BitVec 5) (g : BitVec 4) (m : BitVec 3) (o : BitVec 8)
  /-- VLDLS. R162: Strided scratchpad load of 128 words. -/
  | vldls (sw : Bool) (v : BitVec 5) (a : BitVec 4) (g : BitVec 4) (m : BitVec 3)
  /-- VSTLS. R162: Strided scratchpad store of 128 words. -/
  | vstls (sw : Bool) (v : BitVec 5) (a : BitVec 4) (g : BitVec 4) (m : BitVec 3)
  /-- TLDG_F32. R156: Typed load decoding a page's elements and scales to FP32. -/
  | tldgF32 (sw : Bool) (v : BitVec 5) (g : BitVec 4)
  /-- TLDG_BF16. R156: Typed load decoding a page's elements and scales to BF16. -/
  | tldgBf16 (sw : Bool) (v : BitVec 5) (g : BitVec 4)
  /-- TSTG_F32. R157: Typed store encoding FP32 lanes into the page format with shared scales. -/
  | tstgF32 (sw : Bool) (v : BitVec 5) (g : BitVec 4)
  /-- TSTG_BF16. R157: Typed store encoding BF16 lanes into the page format. -/
  | tstgBf16 (sw : Bool) (v : BitVec 5) (g : BitVec 4)
  /-- BMOV_G2L. R165: One iteration of a block move from global memory to scratchpad, reissued until the count is zero. -/
  | bmovG2l (d : BitVec 4) (a : BitVec 4) (b : BitVec 4)
  /-- BMOV_L2G. R165: One iteration of a block move from scratchpad to global memory. -/
  | bmovL2g (d : BitVec 4) (a : BitVec 4) (b : BitVec 4)
  /-- BFILL_G. R165: One iteration of a global pattern fill. -/
  | bfillG (d : BitVec 4) (a : BitVec 4) (b : BitVec 4)
  /-- BFILL_L. R165: One iteration of a scratchpad pattern fill. -/
  | bfillL (d : BitVec 4) (a : BitVec 4) (b : BitVec 4)
  /-- AMOG_ADD. R168: Global atomic add returning the old value. -/
  | amogAdd (sw : Bool) (d : BitVec 4) (a : BitVec 4) (b : BitVec 4) (z : BitVec 1)
  /-- AMOG_AND. R168: Global atomic AND. -/
  | amogAnd (sw : Bool) (d : BitVec 4) (a : BitVec 4) (b : BitVec 4) (z : BitVec 1)
  /-- AMOG_OR. R168: Global atomic OR. -/
  | amogOr (sw : Bool) (d : BitVec 4) (a : BitVec 4) (b : BitVec 4) (z : BitVec 1)
  /-- AMOG_XOR. R168: Global atomic XOR. -/
  | amogXor (sw : Bool) (d : BitVec 4) (a : BitVec 4) (b : BitVec 4) (z : BitVec 1)
  /-- AMOG_MIN. R168: Global atomic signed minimum. -/
  | amogMin (sw : Bool) (d : BitVec 4) (a : BitVec 4) (b : BitVec 4) (z : BitVec 1)
  /-- AMOG_MAX. R168: Global atomic signed maximum. -/
  | amogMax (sw : Bool) (d : BitVec 4) (a : BitVec 4) (b : BitVec 4) (z : BitVec 1)
  /-- AMOG_MINU. R168: Global atomic unsigned minimum. -/
  | amogMinu (sw : Bool) (d : BitVec 4) (a : BitVec 4) (b : BitVec 4) (z : BitVec 1)
  /-- AMOG_MAXU. R168: Global atomic unsigned maximum. -/
  | amogMaxu (sw : Bool) (d : BitVec 4) (a : BitVec 4) (b : BitVec 4) (z : BitVec 1)
  /-- AMOG_SWAP. R168: Global atomic swap. -/
  | amogSwap (sw : Bool) (d : BitVec 4) (a : BitVec 4) (b : BitVec 4) (z : BitVec 1)
  /-- AMOG_FADD. R168: Global atomic FP32 add with RNE. -/
  | amogFadd (sw : Bool) (d : BitVec 4) (a : BitVec 4) (b : BitVec 4)
  /-- AMOL_ADD. R168: Scratchpad atomic add. -/
  | amolAdd (sw : Bool) (d : BitVec 4) (a : BitVec 4) (b : BitVec 4) (z : BitVec 1)
  /-- AMOL_AND. R168: Scratchpad atomic AND. -/
  | amolAnd (sw : Bool) (d : BitVec 4) (a : BitVec 4) (b : BitVec 4) (z : BitVec 1)
  /-- AMOL_OR. R168: Scratchpad atomic OR. -/
  | amolOr (sw : Bool) (d : BitVec 4) (a : BitVec 4) (b : BitVec 4) (z : BitVec 1)
  /-- AMOL_XOR. R168: Scratchpad atomic XOR. -/
  | amolXor (sw : Bool) (d : BitVec 4) (a : BitVec 4) (b : BitVec 4) (z : BitVec 1)
  /-- AMOL_MIN. R168: Scratchpad atomic signed minimum. -/
  | amolMin (sw : Bool) (d : BitVec 4) (a : BitVec 4) (b : BitVec 4) (z : BitVec 1)
  /-- AMOL_MAX. R168: Scratchpad atomic signed maximum. -/
  | amolMax (sw : Bool) (d : BitVec 4) (a : BitVec 4) (b : BitVec 4) (z : BitVec 1)
  /-- AMOL_MINU. R168: Scratchpad atomic unsigned minimum. -/
  | amolMinu (sw : Bool) (d : BitVec 4) (a : BitVec 4) (b : BitVec 4) (z : BitVec 1)
  /-- AMOL_MAXU. R168: Scratchpad atomic unsigned maximum. -/
  | amolMaxu (sw : Bool) (d : BitVec 4) (a : BitVec 4) (b : BitVec 4) (z : BitVec 1)
  /-- AMOL_SWAP. R168: Scratchpad atomic swap. -/
  | amolSwap (sw : Bool) (d : BitVec 4) (a : BitVec 4) (b : BitVec 4) (z : BitVec 1)
  /-- AMOL_FADD. R168: Scratchpad atomic FP32 add. -/
  | amolFadd (sw : Bool) (d : BitVec 4) (a : BitVec 4) (b : BitVec 4)
  /-- CASG. R168: Global compare-and-swap against wd, storing wb. -/
  | casg (sw : Bool) (d : BitVec 4) (a : BitVec 4) (b : BitVec 4) (z : BitVec 1)
  /-- CASL. R168: Scratchpad compare-and-swap. -/
  | casl (sw : Bool) (d : BitVec 4) (a : BitVec 4) (b : BitVec 4) (z : BitVec 1)
  /-- WAITW_G. R170: Waits until a global doubleword meets a condition, registering a watch; acquire at the satisfying read. -/
  | waitwG (sw : Bool) (d : BitVec 4) (a : BitVec 4) (b : BitVec 4) (c : BitVec 2)
  /-- WAITW_L. R170: Waits until a scratchpad doubleword meets a condition. -/
  | waitwL (sw : Bool) (d : BitVec 4) (a : BitVec 4) (b : BitVec 4) (c : BitVec 2)
  /-- BINIT. R194: Initialises a stage barrier with expected arrivals. -/
  | binit (sw : Bool) (a : BitVec 4) (b : BitVec 4)
  /-- BEXPECT. R185: Adds expected bytes to a barrier and tests for completion. -/
  | bexpect (sw : Bool) (a : BitVec 4) (b : BitVec 4)
  /-- BARRIVE. R185: Releases and arrives at a barrier, possibly completing its phase. -/
  | barrive (sw : Bool) (a : BitVec 4)
  /-- BWAIT. R194: Parks until the barrier's DONE reaches a target, then acquires. -/
  | bwait (sw : Bool) (a : BitVec 4) (b : BitVec 4)
  /-- BTEST. R194: Reads DONE without waiting and acquires covered phases. -/
  | btest (sw : Bool) (d : BitVec 4) (a : BitVec 4)
  /-- FENCE. R190: Orders the context's global accesses of the kinds in the mask at a scope. -/
  | fence (sw : Bool) (p : FenceOp) (u : Unit)
  /-- TLWAIT. R192: Parks until a timeline watermark reaches a target, then acquires at SYS scope. -/
  | tlwait (sw : Bool) (a : BitVec 4) (imm : BitVec 2)
  /-- TLREAD. R193: Reads a timeline watermark and acquires the commands it covers. -/
  | tlread (sw : Bool) (d : BitVec 4) (imm : BitVec 2)
  /-- VADD. R203: Element-wise floating-point addition rounded once. -/
  | vadd (sw : Bool) (v : BitVec 5) (a : BitVec 5) (b : BitVec 5) (m : BitVec 3) (t : BitVec 2)
  /-- VSUB. R203: Element-wise floating-point subtraction. -/
  | vsub (sw : Bool) (v : BitVec 5) (a : BitVec 5) (b : BitVec 5) (m : BitVec 3) (t : BitVec 2)
  /-- VMUL. R203: Element-wise floating-point multiplication. -/
  | vmul (sw : Bool) (v : BitVec 5) (a : BitVec 5) (b : BitVec 5) (m : BitVec 3) (t : BitVec 2)
  /-- VDIV. R205: Element-wise floating-point division. -/
  | vdiv (sw : Bool) (v : BitVec 5) (a : BitVec 5) (b : BitVec 5) (m : BitVec 3) (t : BitVec 2)
  /-- VMIN. R204: Element-wise minimum ignoring a single NaN. -/
  | vmin (sw : Bool) (v : BitVec 5) (a : BitVec 5) (b : BitVec 5) (m : BitVec 3) (t : BitVec 2)
  /-- VMAX. R204: Element-wise maximum ignoring a single NaN. -/
  | vmax (sw : Bool) (v : BitVec 5) (a : BitVec 5) (b : BitVec 5) (m : BitVec 3) (t : BitVec 2)
  /-- VFMA. R203: Fused a times b plus d, rounded once. -/
  | vfma (sw : Bool) (v : BitVec 5) (a : BitVec 5) (b : BitVec 5) (m : BitVec 3) (t : BitVec 2)
  /-- VFMS. R203: Fused a times b minus d. -/
  | vfms (sw : Bool) (v : BitVec 5) (a : BitVec 5) (b : BitVec 5) (m : BitVec 3) (t : BitVec 2)
  /-- VFNMA. R203: Fused d minus a times b. -/
  | vfnma (sw : Bool) (v : BitVec 5) (a : BitVec 5) (b : BitVec 5) (m : BitVec 3) (t : BitVec 2)
  /-- VABS. R202: Clears the sign bit of each element. -/
  | vabs (sw : Bool) (v : BitVec 5) (a : BitVec 5) (m : BitVec 3) (t : BitVec 2)
  /-- VNEG. R202: Inverts the sign bit of each element. -/
  | vneg (sw : Bool) (v : BitVec 5) (a : BitVec 5) (m : BitVec 3) (t : BitVec 2)
  /-- VSQRT. R205: Correctly rounded square root. -/
  | vsqrt (sw : Bool) (v : BitVec 5) (a : BitVec 5) (m : BitVec 3) (t : BitVec 2)
  /-- VEXP2. R205: Correctly rounded 2 to the power a. -/
  | vexp2 (sw : Bool) (v : BitVec 5) (a : BitVec 5) (m : BitVec 3) (t : BitVec 2)
  /-- VLOG2. R205: Correctly rounded base-2 logarithm. -/
  | vlog2 (sw : Bool) (v : BitVec 5) (a : BitVec 5) (m : BitVec 3) (t : BitVec 2)
  /-- VIADD. R206: Element-wise wrapping integer addition. -/
  | viadd (sw : Bool) (v : BitVec 5) (a : BitVec 5) (b : BitVec 5) (m : BitVec 3) (w : BitVec 2)
  /-- VISUB. R206: Element-wise wrapping integer subtraction. -/
  | visub (sw : Bool) (v : BitVec 5) (a : BitVec 5) (b : BitVec 5) (m : BitVec 3) (w : BitVec 2)
  /-- VIMUL. R206: Low half of the signed double-width product. -/
  | vimul (sw : Bool) (v : BitVec 5) (a : BitVec 5) (b : BitVec 5) (m : BitVec 3) (w : BitVec 2)
  /-- VIMULH. R206: High half of the signed double-width product. -/
  | vimulh (sw : Bool) (v : BitVec 5) (a : BitVec 5) (b : BitVec 5) (m : BitVec 3) (w : BitVec 2)
  /-- VIMIN. R206: Element-wise signed minimum. -/
  | vimin (sw : Bool) (v : BitVec 5) (a : BitVec 5) (b : BitVec 5) (m : BitVec 3) (w : BitVec 2)
  /-- VIMAX. R206: Element-wise signed maximum. -/
  | vimax (sw : Bool) (v : BitVec 5) (a : BitVec 5) (b : BitVec 5) (m : BitVec 3) (w : BitVec 2)
  /-- VAND. R206: Element-wise bitwise AND. -/
  | vand (sw : Bool) (v : BitVec 5) (a : BitVec 5) (b : BitVec 5) (m : BitVec 3) (w : BitVec 2)
  /-- VOR. R206: Element-wise bitwise OR. -/
  | vor (sw : Bool) (v : BitVec 5) (a : BitVec 5) (b : BitVec 5) (m : BitVec 3) (w : BitVec 2)
  /-- VXOR. R206: Element-wise bitwise XOR. -/
  | vxor (sw : Bool) (v : BitVec 5) (a : BitVec 5) (b : BitVec 5) (m : BitVec 3) (w : BitVec 2)
  /-- VSHL. R206: Element-wise left shift. -/
  | vshl (sw : Bool) (v : BitVec 5) (a : BitVec 5) (b : BitVec 5) (m : BitVec 3) (w : BitVec 2)
  /-- VSHR. R206: Element-wise logical right shift. -/
  | vshr (sw : Bool) (v : BitVec 5) (a : BitVec 5) (b : BitVec 5) (m : BitVec 3) (w : BitVec 2)
  /-- VSAR. R206: Element-wise arithmetic right shift. -/
  | vsar (sw : Bool) (v : BitVec 5) (a : BitVec 5) (b : BitVec 5) (m : BitVec 3) (w : BitVec 2)
  /-- VIDOT4. R206: Accumulates four signed INT8 products into each 32-bit element. -/
  | vidot4 (sw : Bool) (v : BitVec 5) (a : BitVec 5) (b : BitVec 5) (m : BitVec 3)
  /-- VCVT. R207: Converts elements between formats, selecting a part. -/
  | vcvt (sw : Bool) (v : BitVec 5) (a : BitVec 5) (c : BitVec 4) (m : BitVec 3) (e : BitVec 4) (p : BitVec 2)
  /-- VQUANT. R211: Quantises FP32 lanes into a format, choosing shared block scales and writing them to wg. -/
  | vquant (sw : Bool) (v : BitVec 5) (a : BitVec 5) (g : BitVec 4) (m : BitVec 3) (f : BitVec 4) (e : BitVec 2) (p : BitVec 2)
  /-- VQUANT_FIX. R211: Quantises FP32 lanes with block scales read from wg. -/
  | vquantFix (sw : Bool) (v : BitVec 5) (a : BitVec 5) (g : BitVec 4) (m : BitVec 3) (f : BitVec 4) (e : BitVec 2) (p : BitVec 2)
  /-- VDEQ. R212: Dequantises elements with block scales to FP32. -/
  | vdeq (sw : Bool) (v : BitVec 5) (a : BitVec 5) (g : BitVec 4) (m : BitVec 3) (f : BitVec 4) (e : BitVec 2) (p : BitVec 2)
  /-- MAND. R216: Bitwise AND of two mask registers. -/
  | mand (sw : Bool) (d : BitVec 3) (a : BitVec 3) (b : BitVec 3)
  /-- MOR. R216: Bitwise OR of two mask registers. -/
  | mor (sw : Bool) (d : BitVec 3) (a : BitVec 3) (b : BitVec 3)
  /-- MNOT. R216: Bitwise NOT of a mask register. -/
  | mnot (sw : Bool) (d : BitVec 3) (a : BitVec 3)
  /-- VSELM. R216: Selects whole containers from two registers by mask. -/
  | vselm (sw : Bool) (v : BitVec 5) (a : BitVec 5) (b : BitVec 5) (m : BitVec 3)
  /-- VPERM. R216: Permutes containers of va by indices in vb. -/
  | vperm (sw : Bool) (v : BitVec 5) (a : BitVec 5) (b : BitVec 5) (m : BitVec 3)
  /-- VRED_ADD. R217: Pairwise-tree sum reduction into element 0. -/
  | vredAdd (sw : Bool) (v : BitVec 5) (a : BitVec 5) (m : BitVec 3) (t : BitVec 2)
  /-- VRED_MAX. R217: Maximum reduction into element 0. -/
  | vredMax (sw : Bool) (v : BitVec 5) (a : BitVec 5) (m : BitVec 3) (t : BitVec 2)
  /-- VRED_MIN. R217: Minimum reduction into element 0. -/
  | vredMin (sw : Bool) (v : BitVec 5) (a : BitVec 5) (m : BitVec 3) (t : BitVec 2)
  /-- VSCAN_ADD. R36: Sequential inclusive prefix sum written to every element. -/
  | vscanAdd (sw : Bool) (v : BitVec 5) (a : BitVec 5) (m : BitVec 3) (t : BitVec 2)
  /-- VCMP. R215: Compares containers and writes every bit of a mask. -/
  | vcmp (sw : Bool) (d : BitVec 3) (a : BitVec 5) (b : BitVec 5) (m : BitVec 3) (y : BitVec 3) (c : BitVec 3)
  /-- MPOP. R219: Counts bits set in both ma and m. -/
  | mpop (sw : Bool) (a : BitVec 3) (g : BitVec 4) (m : BitVec 3)
  /-- VBCST. R219: Broadcasts the low 32 bits of wg to active elements. -/
  | vbcst (sw : Bool) (v : BitVec 5) (g : BitVec 4) (m : BitVec 3)
  /-- VBCST_H. R219: Broadcasts the low 16 bits of wg. -/
  | vbcstH (sw : Bool) (v : BitVec 5) (g : BitVec 4) (m : BitVec 3)
  /-- VBCST_B. R219: Broadcasts the low 8 bits of wg. -/
  | vbcstB (sw : Bool) (v : BitVec 5) (g : BitVec 4) (m : BitVec 3)
  /-- VSLIDE. R219: Shifts lanes by a signed amount, filling with +0. -/
  | vslide (sw : Bool) (v : BitVec 5) (a : BitVec 5) (g : BitVec 4) (m : BitVec 3)
  /-- VIOTA. R219: Writes a start value plus the count of active lanes below. -/
  | viota (sw : Bool) (v : BitVec 5) (g : BitVec 4) (m : BitVec 3)
  /-- VGATHL. R220: Gathers scratchpad words at base plus per-lane offsets. -/
  | vgathl (sw : Bool) (v : BitVec 5) (a : BitVec 5) (g : BitVec 4) (m : BitVec 3)
  /-- VSCATL. R220: Scatters containers to scratchpad words at base plus offsets. -/
  | vscatl (sw : Bool) (v : BitVec 5) (a : BitVec 5) (g : BitVec 4) (m : BitVec 3)
  /-- VDIST_IP. R222: Accumulates inner products of a query with candidate rows. -/
  | vdistIp (sw : Bool) (v : BitVec 5) (a : BitVec 5) (g : BitVec 4) (m : BitVec 3)
  /-- VDIST_L2. R222: Accumulates negated squared distances to candidate rows. -/
  | vdistL2 (sw : Bool) (v : BitVec 5) (a : BitVec 5) (g : BitVec 4) (m : BitVec 3)
  /-- VDIST_COS. R223: Writes the inner product divided by the candidate norm. -/
  | vdistCos (sw : Bool) (v : BitVec 5) (a : BitVec 5) (g : BitVec 4) (m : BitVec 3)
  /-- VBMAX. R213: Writes the maximum magnitude of each block. -/
  | vbmax (sw : Bool) (v : BitVec 5) (a : BitVec 5) (m : BitVec 3) (e : BitVec 2)
  /-- VSCALE. R213: Writes the shared-scale bytes chosen from block amax values. -/
  | vscale (sw : Bool) (a : BitVec 5) (g : BitVec 4) (f : BitVec 4) (e : BitVec 2)
  /-- VINS. R219: Inserts the low 32 bits of wg into one lane. -/
  | vins (sw : Bool) (v : BitVec 5) (l : BitVec 5) (g : BitVec 4) (k : BitVec 2)
  /-- VEXT. R219: Extracts one lane into wg, zero-extended. -/
  | vext (sw : Bool) (v : BitVec 5) (l : BitVec 5) (g : BitVec 4) (k : BitVec 2)
  /-- RLINS. R238: Offers one pair per active container with consecutive indices to a list. -/
  | rlins (sw : Bool) (l : BitVec 2) (a : BitVec 5) (b : BitVec 4) (m : BitVec 3)
  /-- RLINSX. R238: Offers pairs with indices taken from vb. -/
  | rlinsx (sw : Bool) (l : BitVec 2) (a : BitVec 5) (b : BitVec 5) (m : BitVec 3)
  /-- RLPRUNE. R243: Writes a mask of candidates whose bound can still enter the list, counting skips. -/
  | rlprune (sw : Bool) (d : BitVec 3) (a : BitVec 5) (l : BitVec 2) (m : BitVec 3)
  /-- RLMERGE. R239: Offers the entries of one list to another and adds counts. -/
  | rlmerge (sw : Bool) (l : BitVec 2) (k : BitVec 2)
  /-- RLCLR. R237: Empties a list keeping its capacity. -/
  | rlclr (sw : Bool) (l : BitVec 2)
  /-- RLINIT. R237: Initialises a list with capacity k. -/
  | rlinit (sw : Bool) (k : BitVec 7) (l : BitVec 2)
  /-- RLTHR. R241: Writes the list's threshold pair. -/
  | rlthr (sw : Bool) (d : BitVec 4) (l : BitVec 2)
  /-- RLLEN. R241: Writes word 0 of the list's image. -/
  | rllen (sw : Bool) (d : BitVec 4) (l : BitVec 2)
  /-- RLGET. R241: Writes the entry at a rank. -/
  | rlget (sw : Bool) (d : BitVec 4) (a : BitVec 4) (l : BitVec 2)
  /-- RLST. R240: Stores the list image to scratchpad. -/
  | rlst (sw : Bool) (a : BitVec 4) (l : BitVec 2)
  /-- RLLD. R240: Loads and checks a list image from scratchpad. -/
  | rlld (sw : Bool) (a : BitVec 4) (l : BitVec 2)
  /-- RLSEND. R244: Sends the list image as the bulk payload of an activation message. -/
  | rlsend (sw : Bool) (d : BitVec 4) (a : BitVec 4) (l : BitVec 2)
  /-- RLFLOOR. R242: Sets the list floor and removes entries below it. -/
  | rlfloor (sw : Bool) (a : BitVec 4) (l : BitVec 2)
  /-- MMA. R254: Posts a tile step command to the matrix engine queue, taking a MAT number. -/
  | mma (sw : Bool) (d : BitVec 4) (a : BitVec 4) (b : BitVec 4) (c : BitVec 4) (q : BitVec 1) (h : BitVec 1) (f : BitVec 1) (n : BitVec 2)
  /-- MMAG. R254: Posts a tile step with a gathered operand. -/
  | mmag (sw : Bool) (d : BitVec 4) (a : BitVec 4) (b : BitVec 4) (c : BitVec 4) (q : BitVec 1) (h : BitVec 1) (f : BitVec 1) (n : BitVec 2)
  /-- MMR. R254: Posts a read-out of a slot's cells to a scratchpad tile. -/
  | mmr (sw : Bool) (d : BitVec 4) (a : BitVec 4) (c : BitVec 4) (z : BitVec 1) (k : BitVec 1) (n : BitVec 2)
  /-- MMRL. R254: Posts a read-out of a ranked slot's row lists. -/
  | mmrl (sw : Bool) (d : BitVec 4) (a : BitVec 4) (c : BitVec 4) (z : BitVec 1) (k : BitVec 1) (n : BitVec 2)
  /-- MMZ. R265: Posts a command that resets a slot to its zero state. -/
  | mmz (sw : Bool) (n : BitVec 2)
  /-- MMRANK. R265: Posts a command that puts a slot into ranked mode with K. -/
  | mmrank (sw : Bool) (k : BitVec 4) (n : BitVec 2)
  /-- TILEXY. R262: Writes the core's tile row, column and inside flag. -/
  | tilexy (sw : Bool) (d : BitVec 4)
  /-- EDGEM. R262: Writes the row and column edge masks. -/
  | edgem (sw : Bool) (d : BitVec 4)
  /-- SETE. R266: Writes a tensor-scale register. -/
  | sete (sw : Bool) (a : BitVec 4) (e : BitVec 3)
  /-- GETE. R266: Reads a tensor-scale register. -/
  | gete (sw : Bool) (d : BitVec 4) (e : BitVec 3)
  /-- CPY_G2L. R270: Posts a copy from global memory to scratchpad, optionally decoding. -/
  | cpyG2l (sw : Bool) (d : BitVec 4) (a : BitVec 4) (b : BitVec 4) (c : BitVec 4)
  /-- CPY_L2G. R270: Posts a copy from scratchpad to global memory. -/
  | cpyL2g (sw : Bool) (d : BitVec 4) (a : BitVec 4) (b : BitVec 4) (c : BitVec 4)
  /-- CPY_G2G. R270: Posts a copy within global memory. -/
  | cpyG2g (sw : Bool) (d : BitVec 4) (a : BitVec 4) (b : BitVec 4) (c : BitVec 4)
  /-- CPYR_L. R278: Posts a remote read into scratchpad. -/
  | cpyrL (sw : Bool) (d : BitVec 4) (a : BitVec 4) (b : BitVec 4) (c : BitVec 4)
  /-- CPYR_G. R278: Posts a remote read into local global memory. -/
  | cpyrG (sw : Bool) (d : BitVec 4) (a : BitVec 4) (b : BitVec 4) (c : BitVec 4)
  /-- CPYW_L. R278: Posts a remote write from scratchpad. -/
  | cpywL (sw : Bool) (d : BitVec 4) (a : BitVec 4) (b : BitVec 4) (c : BitVec 4)
  /-- CPYW_G. R278: Posts a remote write from local global memory. -/
  | cpywG (sw : Bool) (d : BitVec 4) (a : BitVec 4) (b : BitVec 4) (c : BitVec 4)
  /-- CRED_ADD. R281: Posts an arrival-mode remote add reduction. -/
  | credAdd (sw : Bool) (d : BitVec 4) (a : BitVec 4) (b : BitVec 4) (c : BitVec 4)
  /-- CRED_MAX. R281: Posts an arrival-mode remote maximum reduction. -/
  | credMax (sw : Bool) (d : BitVec 4) (a : BitVec 4) (b : BitVec 4) (c : BitVec 4)
  /-- CRED_ADD_SLICE. R282: Posts a slice-mode add contribution. -/
  | credAddSlice (sw : Bool) (d : BitVec 4) (a : BitVec 4) (b : BitVec 4) (c : BitVec 4)
  /-- CRED_MAX_SLICE. R282: Posts a slice-mode maximum contribution. -/
  | credMaxSlice (sw : Bool) (d : BitVec 4) (a : BitVec 4) (b : BitVec 4) (c : BitVec 4)
  /-- CATOM_ADD. R283: Posts a remote atomic add. -/
  | catomAdd (sw : Bool) (d : BitVec 4) (a : BitVec 4) (b : BitVec 4) (c : BitVec 4) (z : BitVec 1)
  /-- CATOM_AND. R283: Posts a remote atomic AND. -/
  | catomAnd (sw : Bool) (d : BitVec 4) (a : BitVec 4) (b : BitVec 4) (c : BitVec 4) (z : BitVec 1)
  /-- CATOM_OR. R283: Posts a remote atomic OR. -/
  | catomOr (sw : Bool) (d : BitVec 4) (a : BitVec 4) (b : BitVec 4) (c : BitVec 4) (z : BitVec 1)
  /-- CATOM_XOR. R283: Posts a remote atomic XOR. -/
  | catomXor (sw : Bool) (d : BitVec 4) (a : BitVec 4) (b : BitVec 4) (c : BitVec 4) (z : BitVec 1)
  /-- CATOM_MIN. R283: Posts a remote atomic signed minimum. -/
  | catomMin (sw : Bool) (d : BitVec 4) (a : BitVec 4) (b : BitVec 4) (c : BitVec 4) (z : BitVec 1)
  /-- CATOM_MAX. R283: Posts a remote atomic signed maximum. -/
  | catomMax (sw : Bool) (d : BitVec 4) (a : BitVec 4) (b : BitVec 4) (c : BitVec 4) (z : BitVec 1)
  /-- CATOM_MINU. R283: Posts a remote atomic unsigned minimum. -/
  | catomMinu (sw : Bool) (d : BitVec 4) (a : BitVec 4) (b : BitVec 4) (c : BitVec 4) (z : BitVec 1)
  /-- CATOM_MAXU. R283: Posts a remote atomic unsigned maximum. -/
  | catomMaxu (sw : Bool) (d : BitVec 4) (a : BitVec 4) (b : BitVec 4) (c : BitVec 4) (z : BitVec 1)
  /-- CATOM_SWAP. R283: Posts a remote atomic swap. -/
  | catomSwap (sw : Bool) (d : BitVec 4) (a : BitVec 4) (b : BitVec 4) (c : BitVec 4) (z : BitVec 1)
  /-- CATOM_FADD. R283: Posts a remote atomic FP32 add. -/
  | catomFadd (sw : Bool) (d : BitVec 4) (a : BitVec 4) (b : BitVec 4) (c : BitVec 4)
  /-- CATOM_CAS. R283: Posts a remote compare-and-swap with expected wb and new wb+1. -/
  | catomCas (sw : Bool) (d : BitVec 4) (a : BitVec 4) (b : BitVec 4) (c : BitVec 4) (z : BitVec 1)
  /-- CMC. R284: Posts a multicast of one scratchpad line to every member of a group. -/
  | cmc (sw : Bool) (d : BitVec 4) (a : BitVec 4) (b : BitVec 4) (c : BitVec 4)
  /-- CSTOR_L. R285: Posts a drive read into scratchpad. -/
  | cstorL (sw : Bool) (d : BitVec 4) (a : BitVec 4) (b : BitVec 4) (c : BitVec 4)
  /-- CSTOR_G. R285: Posts a drive read into global memory. -/
  | cstorG (sw : Bool) (d : BitVec 4) (a : BitVec 4) (b : BitVec 4) (c : BitVec 4)
  /-- CDEC. R287: Posts a prefix-code decompression of a stream into scratchpad. -/
  | cdec (sw : Bool) (d : BitVec 4) (a : BitVec 4) (b : BitVec 4) (c : BitVec 4)
  /-- CDTAB. R286: Posts the load of a prefix-code table into a channel slot. -/
  | cdtab (sw : Bool) (d : BitVec 4) (a : BitVec 4) (c : BitVec 4)
  /-- SCHADV. R290: Raises the stage counter and posts due schedule entries. -/
  | schadv (sw : Bool) (imm : BitVec 13)
  /-- SCHRD. R290: Writes the STAGE register. -/
  | schrd (sw : Bool) (d : BitVec 4)
  /-- CSEAL. R291: Seals the current COPY batch, parking if 64 are unfinished. -/
  | cseal (sw : Bool) (d : BitVec 4)
  /-- CWAITN. R291: Parks until at most imm sealed batches remain open, then acquires. -/
  | cwaitn (sw : Bool) (imm : BitVec 13)
  /-- NSEND_G. R309: Posts a send from global memory to a remote receive queue. -/
  | nsendG (sw : Bool) (d : BitVec 4) (a : BitVec 4) (b : BitVec 4) (c : BitVec 4)
  /-- NSEND_L. R309: Posts a send from scratchpad to a remote receive queue. -/
  | nsendL (sw : Bool) (d : BitVec 4) (a : BitVec 4) (b : BitVec 4) (c : BitVec 4)
  /-- NPOST. R310: Posts a receive buffer to a queue, binding it if unbound. -/
  | npost (sw : Bool) (a : BitVec 4) (c : BitVec 4) (r : BitVec 8)
  /-- NRQSTAT. R312: Writes the state of a receive queue. -/
  | nrqstat (sw : Bool) (d : BitVec 4) (r : BitVec 8)
  /-- GRPSET. R313: Writes a checked group-table entry from a scratchpad image. -/
  | grpset (sw : Bool) (d : BitVec 4) (a : BitVec 4)
  /-- GRPSET_OWN. R313: Sets the owner ASID of a group entry at system level. -/
  | grpsetOwn (sw : Bool) (d : BitVec 4) (a : BitVec 4)
  /-- GRPGET. R313: Reads word 0 of a group entry and one member bit. -/
  | grpget (sw : Bool) (d : BitVec 4) (a : BitVec 4)
  /-- RTGATE. R339: Posts a token's gate row to the source routing engine. -/
  | rtgate (sw : Bool) (a : BitVec 4) (b : BitVec 4)
  /-- RTFLUSH. R339: Posts a flush forming transfers from every non-empty send list. -/
  | rtflush (sw : Bool)
  /-- RTCFG. R340: Reads and checks a routing configuration and ERT, configuring the die's routing engine. -/
  | rtcfg (sw : Bool) (a : BitVec 4)
  /-- RTBUF. R343: Releases a handed-out buffer and moves waiting placements in. -/
  | rtbuf (sw : Bool) (d : BitVec 4)
  /-- ERTSET. R341: Sets HOME, prefetches, evicts or clears FREQ of an ERT entry. -/
  | ertset (sw : Bool) (a : BitVec 4) (b : BitVec 4)
  /-- ERTPIN. R341: Pins an ERT entry, prefetching it if absent. -/
  | ertpin (sw : Bool) (a : BitVec 4)
  /-- ERTUNPIN. R341: Unpins an ERT entry and retries the slot request FIFO. -/
  | ertunpin (sw : Bool) (a : BitVec 4)
  /-- ERTQ. R342: Reads an ERT entry or an ingress counter. -/
  | ertq (sw : Bool) (d : BitVec 4) (a : BitVec 4)
  /-- SYSC. R368: Raises SYSCALL with the immediate in TRAPV. -/
  | sysc (sw : Bool) (imm : BitVec 13)
  /-- BRK. R368: Raises BREAK with the immediate in TRAPV. -/
  | brk (sw : Bool) (imm : BitVec 13)
  /-- TRET. R369: Leaves a trap handler, restoring level and w12-w15 and issuing at TRAPPC. -/
  | tret
  /-- TLBGEN. R370: Raises an ASID's generation on all Retorts and waits for older accesses to drain. -/
  | tlbgen (sw : Bool) (a : BitVec 4)
  /-- TLBPROBE. R371: Walks an address without faulting and writes the leaf entry. -/
  | tlbprobe (sw : Bool) (d : BitVec 4) (a : BitVec 4)
  /-- FLTRES. R372: Resolves an open fault as present or failed and frees its record. -/
  | fltres (sw : Bool) (a : BitVec 4)
  /-- CTXSAVE. R373: Writes the frame of a stopped context of the core. -/
  | ctxsave (sw : Bool) (a : BitVec 4)
  /-- CTXREST. R373: Loads a frame into a stopped context of the core. -/
  | ctxrest (sw : Bool) (a : BitVec 4)
  /-- GROUP_CLOSE. R45: The last outstanding result of a group returns; register writes become visible and the next group issues. -/
  | groupClose (k c : Nat)
  /-- VECTOR_PIPE_GRANT. R199: A vector pipe grants a ready queue head in round robin and executes it. -/
  | vectorPipeGrant (k : Nat)
  /-- ADMISSION. R104: An arriving message is admitted to an on-chip entry or overflow slot, held, or bounced with RETRY. -/
  | admission (x : Nat)
  /-- PLACED_OFFER. R99: A placed message reaching a core is accepted or walks on towards the hint. -/
  | placedOffer (x : Nat)
  /-- IO_DIE_INGRESS. R108: A message from another module enters the mesh at the I/O die; forbidden classes are discarded. -/
  | ioDieIngress (m : Msg)
  /-- BULK_PACKET_ARRIVAL. R102: A pulled bulk packet lands at its offset in the receiver's scratchpad; `x` is the source site that
  travels with it. -/
  | bulkPacketArrival (k : Nat) (x : BitVec 16) (p : Packet)
  /-- REASSEMBLY_TIMEOUT. R102: A payload incomplete 2^20 clk after its pull is discarded and NACK TIMEOUT sent. -/
  | reassemblyTimeout (k x : Nat)
  /-- ADMIT. R107: Network control that returns the sender's high credit. -/
  | admitMsg (t : Ctl)
  /-- RETRY. R107: Network control that makes the sender offer the message again later. -/
  | retry (t : Ctl)
  /-- NACK. R107: Network control reporting a dropped message, returning credit or setting SSTAT.LOST. -/
  | nack (t : Ctl)
  /-- OUTBOUND_OFFER. R105: The interface offers a posted or bounced message from outbound storage to its target. -/
  | outboundOffer (k x : Nat)
  /-- ENTRY_WORD_FILL. R109: A fill of the entry-word cache completes or faults. -/
  | entryWordFill (k task : Nat) (pc : W64)
  /-- DISPATCH. R110: On admission or freed resources the dispatcher chooses a message that can start. -/
  | dispatch (k : Nat)
  /-- WATCHDOG. R363: CYC reaches the cycle limit; the activation is killed in mid-group. -/
  | watchdog (k c : Nat)
  /-- HOST_LAUNCH_SUBMIT. R146: The host submits a launch record through Fjokokai. -/
  | hostLaunchSubmit (va : W64) (asid : Nat)
  /-- SEED_SEND. R128: The launch controller reads and sends the next seed once the previous one is admitted. -/
  | seedSend (task : Nat)
  /-- AUTOEND. R127: A launch with AUTOEND becomes quiescent and ends. -/
  | autoend (task : Nat)
  /-- HOST_KILL. R147: The host ends a launch through Fjokokai. -/
  | hostKill (task : Nat)
  /-- SCRATCHPAD_SAVE. R131: A claimed region is saved lazily when the claiming launch first uses it. -/
  | scratchpadSave (k task : Nat)
  /-- SCRATCHPAD_RESTORE. R131: A saved region is restored before the victim's next dispatch. -/
  | scratchpadRestore (k task : Nat)
  /-- EVENT_OP. R133: The event unit applies an arm, signal, send or read operation. -/
  | eventOp (x : Nat)
  /-- STEAL_REQUEST. R135: A steal request arrives at the victim, which yields records from its bottom. -/
  | stealRequest (t : Steal)
  /-- STEAL_ANSWER. R135: A steal answer lands at the thief's bottom and releases the reservation. -/
  | stealAnswer (t : Steal)
  /-- GROUP_ARRIVAL. R136: A member's arrival joins its round at the group unit. -/
  | groupArrival (t : Arrival)
  /-- STORE_BUFFER_DRAIN. R174: A global store leaves the core's store buffer and becomes visible. -/
  | storeBufferDrain (k x : Nat)
  /-- MEMORY_AGENT_REQUEST. R168: A memory agent performs a global read, write or atomic. -/
  | memoryAgentRequest (x : Nat)
  /-- WATCH_PERIODIC. R170: Every 4,096 clk the agent re-evaluates a watch. -/
  | watchPeriodic (k c : Nat)
  /-- WAITW_TIMEOUT. R170: WTO elapses and WAITW returns the last value. -/
  | waitwTimeout (k c : Nat)
  /-- RECVW_TIMEOUT. R120: WTO elapses and RECVW completes with KIND 3. -/
  | recvwTimeout (k c : Nat)
  /-- WALK_COMPLETE. R356: A Retort walk ends, translating the request or faulting. -/
  | walkComplete (die x : Nat)
  /-- CONTEXT_RESTORE. R362: A restorable parked context is loaded when its slot and vector registers are free. -/
  | contextRestore (k x : Nat)
  /-- TILE_STEP. R257: The matrix engine issues the head MMA or MMAG of a core, stepping the slot or skipping it. -/
  | tileStep (k : Nat)
  /-- MATRIX_READOUT. R258: The engine executes an MMR, scaling, quantising and writing cells. -/
  | matrixReadout (k : Nat)
  /-- MATRIX_LIST_READOUT. R259: The engine executes an MMRL, writing each row's list image. -/
  | matrixListReadout (k : Nat)
  /-- SLOT_RESET. R265: The engine executes MMZ or MMRANK in queue order. -/
  | slotReset (k : Nat)
  /-- GATHER_LATCH_FILL. R252: The gather unit finishes collecting gathered rows into the operand latch. -/
  | gatherLatchFill (k : Nat)
  /-- GB_TILE_ARRIVAL. R253: A .GB tile arrives, or ends its command with BADFMT or FAULT. -/
  | gbTileArrival (k : Nat)
  /-- COMPLETION_ACTIONS. R182: An engine command completes; signal, credit and reply are performed in order. -/
  | completionActions (k eng num : Nat)
  /-- COPY_EXECUTE. R277: A channel executes a CPY, moving or decoding bytes in sectors. -/
  | copyExecute (k : Nat)
  /-- REMOTE_COPY_EXECUTE. R278: A channel executes CPYR or CPYW over the fabric. -/
  | remoteCopyExecute (k : Nat)
  /-- CRED_EXECUTE. R280: A channel sends a reduction's elements to the destination memory agent. -/
  | credExecute (k : Nat)
  /-- REDUCTION_CONTRIBUTION. R282: A slice-mode contribution reaches a reduction record; the record may close and write. -/
  | reductionContribution (t : RedMsg)
  /-- CATOM_EXECUTE. R283: A channel performs a remote atomic and writes the old value. -/
  | catomExecute (k : Nat)
  /-- CMC_EXECUTE. R284: The line is read and the group looked up at the source I/O die. -/
  | cmcExecute (k : Nat)
  /-- MULTICAST_MEMBER_WRITE. R284: A member writes the line or answers negatively. -/
  | multicastMemberWrite (t : CmcLine)
  /-- MULTICAST_RESPONSE. R300: A member response reaches the source I/O die; the last one writes the acknowledgement. -/
  | multicastResponse (t : CmcResp)
  /-- MULTICAST_RESPONSE_TIMEOUT. R300: A member silent for 2^22 clk is counted negative with TIMEOUT. -/
  | multicastResponseTimeout (x : Nat)
  /-- CSTOR_EXECUTE. R285: A channel submits NVMe reads for a CSTOR. -/
  | cstorExecute (k : Nat)
  /-- NVME_COMPLETION. R285: The drive posts a completion, finishing or failing the read. -/
  | nvmeCompletion (x status : Nat) (data : List Byte)
  /-- CDTAB_EXECUTE. R286: A channel loads and checks a prefix-code table. -/
  | cdtabExecute (k : Nat)
  /-- CDEC_EXECUTE. R287: A channel decodes a chunked stream into scratchpad. -/
  | cdecExecute (k : Nat)
  /-- REMOTE_TRANSACTION. R297: A UALink transaction reaches its destination; repeated tags return the stored response. -/
  | remoteTransaction (t : FabTx)
  /-- TRANSACTION_REISSUE. R297: A transaction on a downed port or without response in 2^20 clk is issued again. -/
  | transactionReissue (x : Nat)
  /-- FABRIC_UNREACHABLE. R297: No response in 2^22 clk ends the command with REMOTEERR. -/
  | fabricUnreachable (x : Nat)
  /-- FLIT_ARRIVAL. R296: A flit arrives; FEC corrects it or it is replayed, raising the health score. -/
  | flitArrival (port : Nat) (r : FlitResult)
  /-- HEALTH_AGEING. R296: Every 2^24 clk each lane's health score is halved. -/
  | healthAgeing
  /-- PORT_RETRAIN_COMPLETE. R296: A retrained port comes back up or stays down. -/
  | portRetrainComplete (port : Nat) (ok : Bool)
  /-- NET_SEND_EXECUTE. R309: The network endpoint sends a send's data packets to the peer. -/
  | netSendExecute (k : Nat)
  /-- UE_OMF_PACKET. R303: A type 0 unit delivers an OMF packet into the mesh. -/
  | ueOmfPacket (u : UeUnit)
  /-- UE_SEND_DATA. R304: A type 1 packet is sequenced and lands in a posted buffer. -/
  | ueSendData (u : UeUnit)
  /-- UE_ACKNOWLEDGEMENT. R306: An acknowledgement retires packets and adjusts the path window. -/
  | ueAcknowledgement (u : UeUnit)
  /-- UE_RECEIVER_NOT_READY. R306: The receiver has no buffer; the sender will reoffer later. -/
  | ueReceiverNotReady (u : UeUnit)
  /-- UE_CLOSE. R305: A close arrives and is answered, dropping or keeping peer state. -/
  | ueClose (u : UeUnit)
  /-- UE_CLOSE_ANSWER. R305: A close answer arrives; on acceptance the peer entry is reused. -/
  | ueCloseAnswer (u : UeUnit)
  /-- UE_RETRANSMIT. R306: A packet unacknowledged past the timeout is resent, or its send ends. -/
  | ueRetransmit (x : Nat)
  /-- UE_RNR_REOFFER. R306: 4,096 clk after receiver-not-ready the send is offered again. -/
  | ueRnrReoffer (x : Nat)
  /-- UE_NOBUF_TIMEOUT. R306: A send without a buffer for 2^24 clk ends with NOBUF. -/
  | ueNobufTimeout (x : Nat)
  /-- ROUTE_GATE_EXECUTE. R321: The source engine chooses groups and appends token records to send lists. -/
  | routeGateExecute (k : Nat)
  /-- SEND_LIST_TIMEOUT. R322: LT clk after its oldest record a send list forms a transfer. -/
  | sendListTimeout (die x : Nat)
  /-- ROUTE_FLUSH_EXECUTE. R339: Every non-empty send list forms a transfer with the FLUSH mark. -/
  | routeFlushExecute (k : Nat)
  /-- INGRESS_TRANSFER. R323: The ingress takes a transfer's records, selecting winners and placing them. -/
  | ingressTransfer (die : Nat)
  /-- BUFFER_TIMEOUT. R327: BT clk after its first placement a filling buffer is handed out with TIMEOUT. -/
  | bufferTimeout (die e : Nat)
  /-- FETCH_COMPLETE. R329: Expert weights are resident; parked placements drain. -/
  | fetchComplete (die e : Nat)
  /-- FETCH_FAIL. R329: A failed fetch frees the slot and hands out parked placements with FFAIL. -/
  | fetchFail (die e : Nat)
  /-- FREQ_AGEING. R332: Every 2^AGE placements every FREQ is halved. -/
  | freqAgeing (die : Nat)
  /-- DBG_HALT. R365: Writing HALT stops issue and dispatch of non-firmware launches on the core. -/
  | dbgHalt (k : Nat)
  /-- DBG_DRAIN. R366: Writing DRAIN stops starts of a task on the core. -/
  | dbgDrain (k task : Nat)
  /-- DRAIN_COMPLETE. R366: The drained task has nothing running; its region is saved and freed. -/
  | drainComplete (k : Nat)
  /-- HOST_APERTURE_ACCESS. R376: A host read or write through an aperture is translated and performed. -/
  | hostApertureAccess (ap off : Nat) (write : Bool) (data : List Byte)
  /-- WATCH_TABLE_ARM. R379: A host write arming a watch entry translates it and places the watch. -/
  | watchTableArm (x : Nat) (w2 : W64)
  /-- HOST_REGISTER_WRITE. R376: A host write to a register BAR register without a row of its own. -/
  | hostRegisterWrite (r : HostReg)
  /-- DRIVE_GRANT. R380: Fjokokai binds a drive handle to an NVMe namespace. -/
  | driveGrant (h : Nat) (block : Namespace)
  /-- DRIVE_REVOKE. R380: Fjokokai revokes a drive handle. -/
  | driveRevoke (h : Nat)
  /-- DEVICE_RESET. R4: A device reset sets every field to its reset value. -/
  | deviceReset
  /-- POWER_ON. R382: The Billet stage runs the bring-up steps with journal records. -/
  | powerOn (r : BootReport)
  /-- RECOVERY_IMAGE_WRITE. R384: An image written to the recovery mailbox is verified, stored and the device restarted. -/
  | recoveryImageWrite (image : List Byte) (r : BootReport)
  /-- SPDM_GET_MEASUREMENTS. R386: An SPDM request returns SHA3-512 measurement digests. -/
  | spdmGetMeasurements (x : Nat)
  /-- THERMAL_LIMIT. R390: The hotspot reaches its limit; the die throttles issue and reports the event. -/
  | thermalLimit (die : Nat)
  /-- MONITOR_SAMPLE. R389: A monitor captures a sample into MIN, MAX and its bins. -/
  | monitorSample (die x value : Nat)
  /-- ILLEGAL_WORD. R57: A word with major 0x00, a reserved major, an unassigned function code, a nonzero reserved field or an ill-formed HX run issues and raises ILLEGAL. -/
  | illegalWord (w : W32) (held : Bool)
  /-- LINK_LOSS. R297: A scale-up port loses its link or switch, goes down and is dropped from the port hash, and its outstanding transactions are reissued on live ports. -/
  | linkLoss (port : Nat)
  /-- SWITCH_TIER_DEPARTURE. R300: For an ACKMODE NONE multicast, every copy has left the switch tier, and the acknowledgement is written and the completion actions run. -/
  | switchTierDeparture (x : Nat)
  /-- TEMPERATURE_FALLS_BACK. R390: The hotspot temperature falls back below its limit and the die stops inserting idle issue clk. -/
  | temperatureFallsBack (die : Nat)
  /-- POWER_LOSS. R383: Power is lost during bring-up, leaving a step whose begin record has no end record in the journal. -/
  | powerLoss (step : Nat)
  deriving DecidableEq, Repr

end Sys2Proof
end

