-- ==== Sys2Proof/WellFormed.lean ====
section
/-! DEFINITION. Well-formed instructions: the limits that R53 and the entries of the class chapters set on the
fields of a word. A word whose fields break them raises ILLEGAL at issue (03 R57), so the decoder refuses it
by name. The rows without an encoding carry no field of a word and are well-formed as they stand. -/
namespace Sys2Proof

/-- The special-register numbers that some chapter assigns (04 R92, 05 R123, 15 R347; every other raises
ILLEGAL, 04 R91). -/
def srAssigned (n : Nat) : Bool :=
  n ≤ 0x10 || (0x20 ≤ n && n ≤ 0x23) || (0x30 ≤ n && n ≤ 0x34) || n == 0x40 || n == 0x41 || n == 0x50 ||
  (0x60 ≤ n && n ≤ 0x64) || n == 0x70 || n == 0x71 || n == 0x80 || n == 0x90 || (0xA0 ≤ n && n ≤ 0xAE)

/-- 05 R116: n is at most 16, b + n at most 16, and b is reserved with n = 0. -/
def wordsFit (b : BitVec 4) (n : BitVec 5) : Bool :=
  n.toNat ≤ 16 && b.toNat + n.toNat ≤ 16 && (n != 0 || b == 0)

/-- The elements of a register in the format of a code (02 R23, 09 R196): 128, 256 or 512. -/
def fmtCount (c : Nat) : Nat :=
  if c == 1 || c == 8 then 128 else if c == 2 || c == 3 then 256 else 512

/-- 09 R207: both codes are 1 to 8, and the part lies below the ratio of the element counts. -/
def vcvtFits (cs cd p : Nat) : Bool :=
  1 ≤ cs && cs ≤ 8 && 1 ≤ cd && cd ≤ 8 &&
  p < max (fmtCount cs) (fmtCount cd) / min (fmtCount cs) (fmtCount cd)

/-- 02 R23, R25: the block geometries that a format code allows. -/
def geomAllowed (fmt geom : Nat) : Bool :=
  fmt ≤ 8 && (geom == 0 || (fmt == 2 || fmt == 3 || fmt == 4 || fmt == 5 || fmt == 7))

/-- 09 R209: fmt is 2 to 7 with a geometry that R23 allows. -/
def quantFits (f e : Nat) : Bool := 2 ≤ f && f ≤ 7 && geomAllowed f e

/-- 09 R209: the part is below 4 for an 8-bit format, below 2 for a 16-bit format. -/
def partFits (f p : Nat) : Bool := if f == 2 || f == 3 then p < 2 else p < 4

/-- 03 R53: the first register of a pair is even. -/
def evenReg (c : BitVec 4) : Bool := c.toNat % 2 == 0

/-- The limits of the entry of each row. -/
def Instr.wf (i : Instr) : Bool :=
  match i with
  | .add _ _ _ _ => true
  | .addW _ _ _ _ => true
  | .sub _ _ _ _ => true
  | .subW _ _ _ _ => true
  | .and _ _ _ _ => true
  | .andW _ _ _ _ => true
  | .or _ _ _ _ => true
  | .orW _ _ _ _ => true
  | .xor _ _ _ _ => true
  | .xorW _ _ _ _ => true
  | .andn _ _ _ _ => true
  | .andnW _ _ _ _ => true
  | .shl _ _ _ _ => true
  | .shlW _ _ _ _ => true
  | .shr _ _ _ _ => true
  | .shrW _ _ _ _ => true
  | .sar _ _ _ _ => true
  | .sarW _ _ _ _ => true
  | .min _ _ _ _ => true
  | .minW _ _ _ _ => true
  | .max _ _ _ _ => true
  | .maxW _ _ _ _ => true
  | .minu _ _ _ _ => true
  | .minuW _ _ _ _ => true
  | .maxu _ _ _ _ => true
  | .maxuW _ _ _ _ => true
  | .mul _ _ _ _ => true
  | .mulW _ _ _ _ => true
  | .mulh _ _ _ _ => true
  | .mulhW _ _ _ _ => true
  | .mulhu _ _ _ _ => true
  | .mulhuW _ _ _ _ => true
  | .div _ _ _ _ => true
  | .divW _ _ _ _ => true
  | .divu _ _ _ _ => true
  | .divuW _ _ _ _ => true
  | .rem _ _ _ _ => true
  | .remW _ _ _ _ => true
  | .remu _ _ _ _ => true
  | .remuW _ _ _ _ => true
  | .slt _ _ _ _ => true
  | .sltW _ _ _ _ => true
  | .sltu _ _ _ _ => true
  | .sltuW _ _ _ _ => true
  | .seq _ _ _ _ => true
  | .seqW _ _ _ _ => true
  | .clz _ _ _ => true
  | .clzW _ _ _ => true
  | .ctz _ _ _ => true
  | .ctzW _ _ _ => true
  | .popc _ _ _ => true
  | .popcW _ _ _ => true
  | .sel _ _ _ _ _ => true
  | .selW _ _ _ _ _ => true
  | .addi _ _ _ _ => true
  | .andi _ _ _ _ => true
  | .ori _ _ _ _ => true
  | .xori _ _ _ _ => true
  | .shli _ _ _ imm => decide (imm.toNat < 64)
  | .shri _ _ _ imm => decide (imm.toNat < 64)
  | .sari _ _ _ imm => decide (imm.toNat < 64)
  | .slti _ _ _ _ => true
  | .sltui _ _ _ _ => true
  | .seqi _ _ _ _ => true
  | .muli _ _ _ _ => true
  | .lim _ _ _ => true
  | .limt _ _ _ => true
  | .lea _ _ _ _ _ => true
  | .bfx _ _ _ l p => decide (p.toNat + l.toNat + 1 ≤ 64)
  | .bfxS _ _ _ l p => decide (p.toNat + l.toNat + 1 ≤ 64)
  | .bfi _ _ _ l p => decide (p.toNat + l.toNat + 1 ≤ 64)
  | .beq _ _ _ _ => true
  | .bne _ _ _ _ => true
  | .blt _ _ _ _ => true
  | .bge _ _ _ _ => true
  | .bltu _ _ _ _ => true
  | .bgeu _ _ _ _ => true
  | .beqz _ _ _ => true
  | .bnez _ _ _ => true
  | .jump _ _ => true
  | .call _ _ => true
  | .nop _ => true
  | .endAct _ => true
  | .jr _ _ => true
  | .callr _ _ => true
  | .ret _ => true
  | .mfs _ _ r => decide (srAssigned r.toNat)
  | .mts _ _ r => decide (srAssigned r.toNat)
  | .hxImm _ => true
  | .hxRnd m => decide (m.toNat ≤ 4)
  | .hxReuse _ => true
  | .hxNt => true
  | .hxPri _ => true
  | .send _ _ _ b n => decide (wordsFit b n)
  | .sendRq _ _ _ b n => decide (wordsFit b n)
  | .sendb _ _ _ _ => true
  | .sendbRq _ _ _ _ => true
  | .reply _ b n => decide (wordsFit b n)
  | .replyb _ _ => true
  | .migr _ => true
  | .migrx _ => true
  | .recvw _ _ => true
  | .homexy _ _ _ => true
  | .evarm _ _ _ => true
  | .evsend _ _ _ b _ => decide (b.toNat ≤ 8)
  | .evread _ _ _ => true
  | .pushw _ b => decide (b.toNat ≤ 12)
  | .popw _ d => decide (d.toNat ≤ 12)
  | .steal _ => true
  | .dqlen _ _ => true
  | .launch _ _ _ => true
  | .kill _ _ => true
  | .evsig _ _ _ => true
  | .sgrp _ _ l => decide (l.toNat ≤ 11)
  | .garrAnd _ _ _ _ => true
  | .garrOr _ _ _ _ => true
  | .garrAdd _ _ _ _ => true
  | .garrMaxu _ _ _ _ => true
  | .garrFmax _ _ _ _ => true
  | .garrFmin _ _ _ _ => true
  | .garrwAnd _ _ _ _ => true
  | .garrwOr _ _ _ _ => true
  | .garrwAdd _ _ _ _ => true
  | .garrwMaxu _ _ _ _ => true
  | .garrwFmax _ _ _ _ => true
  | .garrwFmin _ _ _ _ => true
  | .ldgB _ _ _ _ => true
  | .ldgBu _ _ _ _ => true
  | .ldgH _ _ _ _ => true
  | .ldgHu _ _ _ _ => true
  | .ldgW _ _ _ _ => true
  | .ldgWu _ _ _ _ => true
  | .ldgD _ _ _ _ => true
  | .ldgAcq _ _ _ _ => true
  | .stgB _ _ _ _ => true
  | .stgH _ _ _ _ => true
  | .stgW _ _ _ _ => true
  | .stgD _ _ _ _ => true
  | .stgRel _ _ _ _ => true
  | .ldgAcqW _ _ _ _ => true
  | .stgRelW _ _ _ _ => true
  | .pref _ _ _ => true
  | .ldlB _ _ _ _ => true
  | .ldlBu _ _ _ _ => true
  | .ldlH _ _ _ _ => true
  | .ldlHu _ _ _ _ => true
  | .ldlW _ _ _ _ => true
  | .ldlWu _ _ _ _ => true
  | .ldlD _ _ _ _ => true
  | .stlB _ _ _ _ => true
  | .stlH _ _ _ _ => true
  | .stlW _ _ _ _ => true
  | .stlD _ _ _ _ => true
  | .vldg _ _ _ _ _ => true
  | .vstg _ _ _ _ _ => true
  | .vldl _ _ _ _ _ => true
  | .vstl _ _ _ _ _ => true
  | .vldls _ _ _ _ _ => true
  | .vstls _ _ _ _ _ => true
  | .tldgF32 _ _ _ => true
  | .tldgBf16 _ _ _ => true
  | .tstgF32 _ _ _ => true
  | .tstgBf16 _ _ _ => true
  | .bmovG2l d a b => decide (d ≠ a ∧ d ≠ b ∧ a ≠ b)
  | .bmovL2g d a b => decide (d ≠ a ∧ d ≠ b ∧ a ≠ b)
  | .bfillG d a b => decide (d ≠ a ∧ d ≠ b ∧ a ≠ b)
  | .bfillL d a b => decide (d ≠ a ∧ d ≠ b ∧ a ≠ b)
  | .amogAdd _ _ _ _ _ => true
  | .amogAnd _ _ _ _ _ => true
  | .amogOr _ _ _ _ _ => true
  | .amogXor _ _ _ _ _ => true
  | .amogMin _ _ _ _ _ => true
  | .amogMax _ _ _ _ _ => true
  | .amogMinu _ _ _ _ _ => true
  | .amogMaxu _ _ _ _ _ => true
  | .amogSwap _ _ _ _ _ => true
  | .amogFadd _ _ _ _ => true
  | .amolAdd _ _ _ _ _ => true
  | .amolAnd _ _ _ _ _ => true
  | .amolOr _ _ _ _ _ => true
  | .amolXor _ _ _ _ _ => true
  | .amolMin _ _ _ _ _ => true
  | .amolMax _ _ _ _ _ => true
  | .amolMinu _ _ _ _ _ => true
  | .amolMaxu _ _ _ _ _ => true
  | .amolSwap _ _ _ _ _ => true
  | .amolFadd _ _ _ _ => true
  | .casg _ _ _ _ _ => true
  | .casl _ _ _ _ _ => true
  | .waitwG _ _ _ _ _ => true
  | .waitwL _ _ _ _ _ => true
  | .binit _ _ _ => true
  | .bexpect _ _ _ => true
  | .barrive _ _ => true
  | .bwait _ _ _ => true
  | .btest _ _ _ => true
  | .fence _ p _ => decide (p.kinds ≠ 0)
  | .tlwait _ _ _ => true
  | .tlread _ _ _ => true
  | .vadd _ _ _ _ _ t => decide (t.toNat < 3)
  | .vsub _ _ _ _ _ t => decide (t.toNat < 3)
  | .vmul _ _ _ _ _ t => decide (t.toNat < 3)
  | .vdiv _ _ _ _ _ t => decide (t.toNat < 3)
  | .vmin _ _ _ _ _ t => decide (t.toNat < 3)
  | .vmax _ _ _ _ _ t => decide (t.toNat < 3)
  | .vfma _ _ _ _ _ t => decide (t.toNat < 3)
  | .vfms _ _ _ _ _ t => decide (t.toNat < 3)
  | .vfnma _ _ _ _ _ t => decide (t.toNat < 3)
  | .vabs _ _ _ _ t => decide (t.toNat < 3)
  | .vneg _ _ _ _ t => decide (t.toNat < 3)
  | .vsqrt _ _ _ _ t => decide (t.toNat < 3)
  | .vexp2 _ _ _ _ t => decide (t.toNat < 3)
  | .vlog2 _ _ _ _ t => decide (t.toNat < 3)
  | .viadd _ _ _ _ _ w => decide (w.toNat < 3)
  | .visub _ _ _ _ _ w => decide (w.toNat < 3)
  | .vimul _ _ _ _ _ w => decide (w.toNat < 3)
  | .vimulh _ _ _ _ _ w => decide (w.toNat < 3)
  | .vimin _ _ _ _ _ w => decide (w.toNat < 3)
  | .vimax _ _ _ _ _ w => decide (w.toNat < 3)
  | .vand _ _ _ _ _ w => decide (w.toNat < 3)
  | .vor _ _ _ _ _ w => decide (w.toNat < 3)
  | .vxor _ _ _ _ _ w => decide (w.toNat < 3)
  | .vshl _ _ _ _ _ w => decide (w.toNat < 3)
  | .vshr _ _ _ _ _ w => decide (w.toNat < 3)
  | .vsar _ _ _ _ _ w => decide (w.toNat < 3)
  | .vidot4 _ _ _ _ _ => true
  | .vcvt _ _ _ c _ e p => decide (vcvtFits c.toNat e.toNat p.toNat)
  | .vquant _ _ _ g _ f e p => decide (quantFits f.toNat e.toNat ∧ partFits f.toNat p.toNat ∧ (e = 0 → g = 0))
  | .vquantFix _ _ _ g _ f e p => decide (quantFits f.toNat e.toNat ∧ partFits f.toNat p.toNat ∧ (e = 0 → g = 0))
  | .vdeq _ _ _ g _ f e p => decide (quantFits f.toNat e.toNat ∧ partFits f.toNat p.toNat ∧ (e = 0 → g = 0))
  | .mand _ d _ _ => decide (d ≠ 0)
  | .mor _ d _ _ => decide (d ≠ 0)
  | .mnot _ d _ => decide (d ≠ 0)
  | .vselm _ _ _ _ _ => true
  | .vperm _ _ _ _ _ => true
  | .vredAdd _ _ _ _ t => decide (t.toNat < 3)
  | .vredMax _ _ _ _ t => decide (t.toNat < 3)
  | .vredMin _ _ _ _ t => decide (t.toNat < 3)
  | .vscanAdd _ _ _ _ t => decide (t.toNat < 3)
  | .vcmp _ d _ _ _ y c => decide (d ≠ 0 ∧ y.toNat ≤ 5 ∧ c.toNat ≤ 6 ∧ (c.toNat = 6 → y.toNat ≤ 2))
  | .mpop _ _ _ _ => true
  | .vbcst _ _ _ _ => true
  | .vbcstH _ _ _ _ => true
  | .vbcstB _ _ _ _ => true
  | .vslide _ _ _ _ _ => true
  | .viota _ _ _ _ => true
  | .vgathl _ _ _ _ _ => true
  | .vscatl _ _ _ _ _ => true
  | .vdistIp _ _ _ _ _ => true
  | .vdistL2 _ _ _ _ _ => true
  | .vdistCos _ _ _ _ _ => true
  | .vbmax _ _ _ _ e => decide (e ≠ 0)
  | .vscale _ _ _ f e => decide (quantFits f.toNat e.toNat ∧ e ≠ 0)
  | .vins _ _ _ _ _ => true
  | .vext _ _ _ _ _ => true
  | .rlins _ _ _ _ _ => true
  | .rlinsx _ _ _ _ _ => true
  | .rlprune _ d _ _ _ => decide (d ≠ 0)
  | .rlmerge _ l k => decide (k ≠ l)
  | .rlclr _ _ => true
  | .rlinit _ k _ => decide (1 ≤ k.toNat ∧ k.toNat ≤ 64)
  | .rlthr _ _ _ => true
  | .rllen _ _ _ => true
  | .rlget _ _ _ _ => true
  | .rlst _ _ _ => true
  | .rlld _ _ _ => true
  | .rlsend _ _ a _ => decide (a.toNat < 15)
  | .rlfloor _ _ _ => true
  | .mma _ _ _ b c _ h f _ => decide (evenReg c ∧ (f = 1 ∨ h = 1 → b.toNat < 15))
  | .mmag _ _ _ b c _ h f _ => decide (evenReg c ∧ (f = 1 ∨ h = 1 → b.toNat < 15))
  | .mmr _ _ _ c _ _ _ => decide (evenReg c)
  | .mmrl _ _ _ c _ _ _ => decide (evenReg c)
  | .mmz _ _ => true
  | .mmrank _ _ _ => true
  | .tilexy _ _ => true
  | .edgem _ _ => true
  | .sete _ _ _ => true
  | .gete _ _ _ => true
  | .cpyG2l _ _ _ _ c => decide (evenReg c)
  | .cpyL2g _ _ _ _ c => decide (evenReg c)
  | .cpyG2g _ _ _ _ c => decide (evenReg c)
  | .cpyrL _ _ _ _ c => decide (evenReg c)
  | .cpyrG _ _ _ _ c => decide (evenReg c)
  | .cpywL _ _ _ _ c => decide (evenReg c)
  | .cpywG _ _ _ _ c => decide (evenReg c)
  | .credAdd _ _ _ _ c => decide (evenReg c)
  | .credMax _ _ _ _ c => decide (evenReg c)
  | .credAddSlice _ _ _ _ c => decide (evenReg c)
  | .credMaxSlice _ _ _ _ c => decide (evenReg c)
  | .catomAdd _ _ _ _ c _ => decide (evenReg c)
  | .catomAnd _ _ _ _ c _ => decide (evenReg c)
  | .catomOr _ _ _ _ c _ => decide (evenReg c)
  | .catomXor _ _ _ _ c _ => decide (evenReg c)
  | .catomMin _ _ _ _ c _ => decide (evenReg c)
  | .catomMax _ _ _ _ c _ => decide (evenReg c)
  | .catomMinu _ _ _ _ c _ => decide (evenReg c)
  | .catomMaxu _ _ _ _ c _ => decide (evenReg c)
  | .catomSwap _ _ _ _ c _ => decide (evenReg c)
  | .catomFadd _ _ _ _ c => decide (evenReg c)
  | .catomCas _ _ _ b c _ => decide (evenReg c ∧ b.toNat < 15)
  | .cmc _ _ _ _ c => decide (evenReg c)
  | .cstorL _ _ _ _ c => decide (evenReg c)
  | .cstorG _ _ _ _ c => decide (evenReg c)
  | .cdec _ _ _ _ c => decide (evenReg c)
  | .cdtab _ _ _ c => decide (evenReg c)
  | .schadv _ _ => true
  | .schrd _ _ => true
  | .cseal _ _ => true
  | .cwaitn _ imm => decide (imm.toNat ≤ 64)
  | .nsendG _ _ _ _ c => decide (evenReg c)
  | .nsendL _ _ _ _ c => decide (evenReg c)
  | .npost _ a c _ => decide (evenReg a ∧ evenReg c)
  | .nrqstat _ _ _ => true
  | .grpset _ _ _ => true
  | .grpsetOwn _ _ _ => true
  | .grpget _ _ _ => true
  | .rtgate _ _ _ => true
  | .rtflush _ => true
  | .rtcfg _ _ => true
  | .rtbuf _ _ => true
  | .ertset _ _ _ => true
  | .ertpin _ _ => true
  | .ertunpin _ _ => true
  | .ertq _ _ _ => true
  | .sysc _ _ => true
  | .brk _ _ => true
  | .tret => true
  | .tlbgen _ _ => true
  | .tlbprobe _ _ _ => true
  | .fltres _ _ => true
  | .ctxsave _ _ => true
  | .ctxrest _ _ => true
  | .groupClose _ _ => true
  | .vectorPipeGrant _ => true
  | .admission _ => true
  | .placedOffer _ => true
  | .ioDieIngress _ => true
  | .bulkPacketArrival _ _ _ => true
  | .reassemblyTimeout _ _ => true
  | .admitMsg _ => true
  | .retry _ => true
  | .nack _ => true
  | .outboundOffer _ _ => true
  | .entryWordFill _ _ _ => true
  | .dispatch _ => true
  | .watchdog _ _ => true
  | .hostLaunchSubmit _ _ => true
  | .seedSend _ => true
  | .autoend _ => true
  | .hostKill _ => true
  | .scratchpadSave _ _ => true
  | .scratchpadRestore _ _ => true
  | .eventOp _ => true
  | .stealRequest _ => true
  | .stealAnswer _ => true
  | .groupArrival _ => true
  | .storeBufferDrain _ _ => true
  | .memoryAgentRequest _ => true
  | .watchPeriodic _ _ => true
  | .waitwTimeout _ _ => true
  | .recvwTimeout _ _ => true
  | .walkComplete _ _ => true
  | .contextRestore _ _ => true
  | .tileStep _ => true
  | .matrixReadout _ => true
  | .matrixListReadout _ => true
  | .slotReset _ => true
  | .gatherLatchFill _ => true
  | .gbTileArrival _ => true
  | .completionActions _ _ _ => true
  | .copyExecute _ => true
  | .remoteCopyExecute _ => true
  | .credExecute _ => true
  | .reductionContribution _ => true
  | .catomExecute _ => true
  | .cmcExecute _ => true
  | .multicastMemberWrite _ => true
  | .multicastResponse _ => true
  | .multicastResponseTimeout _ => true
  | .cstorExecute _ => true
  | .nvmeCompletion _ _ _ => true
  | .cdtabExecute _ => true
  | .cdecExecute _ => true
  | .remoteTransaction _ => true
  | .transactionReissue _ => true
  | .fabricUnreachable _ => true
  | .flitArrival _ _ => true
  | .healthAgeing => true
  | .portRetrainComplete _ _ => true
  | .netSendExecute _ => true
  | .ueOmfPacket _ => true
  | .ueSendData _ => true
  | .ueAcknowledgement _ => true
  | .ueReceiverNotReady _ => true
  | .ueClose _ => true
  | .ueCloseAnswer _ => true
  | .ueRetransmit _ => true
  | .ueRnrReoffer _ => true
  | .ueNobufTimeout _ => true
  | .routeGateExecute _ => true
  | .sendListTimeout _ _ => true
  | .routeFlushExecute _ => true
  | .ingressTransfer _ => true
  | .bufferTimeout _ _ => true
  | .fetchComplete _ _ => true
  | .fetchFail _ _ => true
  | .freqAgeing _ => true
  | .dbgHalt _ => true
  | .dbgDrain _ _ => true
  | .drainComplete _ => true
  | .hostApertureAccess _ _ _ _ => true
  | .watchTableArm _ _ => true
  | .hostRegisterWrite _ => true
  | .driveGrant _ _ => true
  | .driveRevoke _ => true
  | .deviceReset => true
  | .powerOn _ => true
  | .recoveryImageWrite _ _ => true
  | .spdmGetMeasurements _ => true
  | .thermalLimit _ => true
  | .monitorSample _ _ _ => true
  | .illegalWord _ _ => true
  | .linkLoss _ => true
  | .switchTierDeparture _ => true
  | .temperatureFallsBack _ => true
  | .powerLoss _ => true

end Sys2Proof
end

