-- ==== Sys2Proof/Decode.lean ====
section
/-! DEFINITION. The decoder, total on any word and any bytes and refusing by name (03 R42, R52, R53, R57), and after
it the encoder, both written from the encoding tables of the class chapters. A word is read as a number; `seg`
is the field of a given width at a given bit. The decoder is marked noncomputable for one reason only: Lean's code
generator numbers no more than 244 constructors that hold fields, and the table has 426 rows; the kernel evaluates it
as any other definition. -/
namespace Sys2Proof

/-- Why a word is no instruction (03 R57): a reserved major or major 0, an unassigned function code, a nonzero
reserved field, a field outside the limits of its entry, or fewer than four bytes. -/
inductive DecodeErr where
  | reservedMajor | unassigned | reservedField | fieldLimit | truncated
  deriving DecidableEq, Repr

/-- The number in the field of width `n` whose lowest bit is `lo` (00 R2). -/
def seg (w lo n : Nat) : Nat := w / 2 ^ lo % 2 ^ n

/-- A field as bits. -/
def fld (w lo n : Nat) : BitVec n := BitVec.ofNat n (w / 2 ^ lo)

/-- A one-bit field as a truth value (the switch marker S of 03 R42). -/
def flag (w lo : Nat) : Bool := seg w lo 1 == 1

/-- A row whose reserved fields are checked by `ok`. -/
def leaf (ok : Bool) (i : Instr) : Except DecodeErr Instr :=
  if ok then (if i.wf then .ok i else .error .fieldLimit) else .error .reservedField

/-- Major 0x01: ADD, SUB, AND, OR, XOR, ANDN …. -/
noncomputable def decMajor01 (w : Nat) : Except DecodeErr Instr :=
  match seg w 5 8 with
  | 0 => leaf (seg w 0 5 == 0) (.add (flag w 31) (fld w 21 4) (fld w 17 4) (fld w 13 4))
  | 1 => leaf (seg w 0 5 == 0) (.sub (flag w 31) (fld w 21 4) (fld w 17 4) (fld w 13 4))
  | 2 => leaf (seg w 0 5 == 0) (.and (flag w 31) (fld w 21 4) (fld w 17 4) (fld w 13 4))
  | 3 => leaf (seg w 0 5 == 0) (.or (flag w 31) (fld w 21 4) (fld w 17 4) (fld w 13 4))
  | 4 => leaf (seg w 0 5 == 0) (.xor (flag w 31) (fld w 21 4) (fld w 17 4) (fld w 13 4))
  | 5 => leaf (seg w 0 5 == 0) (.andn (flag w 31) (fld w 21 4) (fld w 17 4) (fld w 13 4))
  | 6 => leaf (seg w 0 5 == 0) (.shl (flag w 31) (fld w 21 4) (fld w 17 4) (fld w 13 4))
  | 7 => leaf (seg w 0 5 == 0) (.shr (flag w 31) (fld w 21 4) (fld w 17 4) (fld w 13 4))
  | 8 => leaf (seg w 0 5 == 0) (.sar (flag w 31) (fld w 21 4) (fld w 17 4) (fld w 13 4))
  | 9 => leaf (seg w 0 5 == 0) (.min (flag w 31) (fld w 21 4) (fld w 17 4) (fld w 13 4))
  | 10 => leaf (seg w 0 5 == 0) (.max (flag w 31) (fld w 21 4) (fld w 17 4) (fld w 13 4))
  | 11 => leaf (seg w 0 5 == 0) (.minu (flag w 31) (fld w 21 4) (fld w 17 4) (fld w 13 4))
  | 12 => leaf (seg w 0 5 == 0) (.maxu (flag w 31) (fld w 21 4) (fld w 17 4) (fld w 13 4))
  | 13 => leaf (seg w 0 5 == 0) (.mul (flag w 31) (fld w 21 4) (fld w 17 4) (fld w 13 4))
  | 14 => leaf (seg w 0 5 == 0) (.mulh (flag w 31) (fld w 21 4) (fld w 17 4) (fld w 13 4))
  | 15 => leaf (seg w 0 5 == 0) (.mulhu (flag w 31) (fld w 21 4) (fld w 17 4) (fld w 13 4))
  | 16 => leaf (seg w 0 5 == 0) (.div (flag w 31) (fld w 21 4) (fld w 17 4) (fld w 13 4))
  | 17 => leaf (seg w 0 5 == 0) (.divu (flag w 31) (fld w 21 4) (fld w 17 4) (fld w 13 4))
  | 18 => leaf (seg w 0 5 == 0) (.rem (flag w 31) (fld w 21 4) (fld w 17 4) (fld w 13 4))
  | 19 => leaf (seg w 0 5 == 0) (.remu (flag w 31) (fld w 21 4) (fld w 17 4) (fld w 13 4))
  | 20 => leaf (seg w 0 5 == 0) (.slt (flag w 31) (fld w 21 4) (fld w 17 4) (fld w 13 4))
  | 21 => leaf (seg w 0 5 == 0) (.sltu (flag w 31) (fld w 21 4) (fld w 17 4) (fld w 13 4))
  | 22 => leaf (seg w 0 5 == 0) (.seq (flag w 31) (fld w 21 4) (fld w 17 4) (fld w 13 4))
  | 23 => leaf (seg w 13 4 == 0 && seg w 0 5 == 0) (.clz (flag w 31) (fld w 21 4) (fld w 17 4))
  | 24 => leaf (seg w 13 4 == 0 && seg w 0 5 == 0) (.ctz (flag w 31) (fld w 21 4) (fld w 17 4))
  | 25 => leaf (seg w 13 4 == 0 && seg w 0 5 == 0) (.popc (flag w 31) (fld w 21 4) (fld w 17 4))
  | 26 => leaf (seg w 4 1 == 0) (.sel (flag w 31) (fld w 21 4) (fld w 17 4) (fld w 13 4) (fld w 0 4))
  | _ => .error .unassigned

/-- Major 0x02: ADD_W, SUB_W, AND_W, OR_W, XOR_W, ANDN_W …. -/
noncomputable def decMajor02 (w : Nat) : Except DecodeErr Instr :=
  match seg w 5 8 with
  | 0 => leaf (seg w 0 5 == 0) (.addW (flag w 31) (fld w 21 4) (fld w 17 4) (fld w 13 4))
  | 1 => leaf (seg w 0 5 == 0) (.subW (flag w 31) (fld w 21 4) (fld w 17 4) (fld w 13 4))
  | 2 => leaf (seg w 0 5 == 0) (.andW (flag w 31) (fld w 21 4) (fld w 17 4) (fld w 13 4))
  | 3 => leaf (seg w 0 5 == 0) (.orW (flag w 31) (fld w 21 4) (fld w 17 4) (fld w 13 4))
  | 4 => leaf (seg w 0 5 == 0) (.xorW (flag w 31) (fld w 21 4) (fld w 17 4) (fld w 13 4))
  | 5 => leaf (seg w 0 5 == 0) (.andnW (flag w 31) (fld w 21 4) (fld w 17 4) (fld w 13 4))
  | 6 => leaf (seg w 0 5 == 0) (.shlW (flag w 31) (fld w 21 4) (fld w 17 4) (fld w 13 4))
  | 7 => leaf (seg w 0 5 == 0) (.shrW (flag w 31) (fld w 21 4) (fld w 17 4) (fld w 13 4))
  | 8 => leaf (seg w 0 5 == 0) (.sarW (flag w 31) (fld w 21 4) (fld w 17 4) (fld w 13 4))
  | 9 => leaf (seg w 0 5 == 0) (.minW (flag w 31) (fld w 21 4) (fld w 17 4) (fld w 13 4))
  | 10 => leaf (seg w 0 5 == 0) (.maxW (flag w 31) (fld w 21 4) (fld w 17 4) (fld w 13 4))
  | 11 => leaf (seg w 0 5 == 0) (.minuW (flag w 31) (fld w 21 4) (fld w 17 4) (fld w 13 4))
  | 12 => leaf (seg w 0 5 == 0) (.maxuW (flag w 31) (fld w 21 4) (fld w 17 4) (fld w 13 4))
  | 13 => leaf (seg w 0 5 == 0) (.mulW (flag w 31) (fld w 21 4) (fld w 17 4) (fld w 13 4))
  | 14 => leaf (seg w 0 5 == 0) (.mulhW (flag w 31) (fld w 21 4) (fld w 17 4) (fld w 13 4))
  | 15 => leaf (seg w 0 5 == 0) (.mulhuW (flag w 31) (fld w 21 4) (fld w 17 4) (fld w 13 4))
  | 16 => leaf (seg w 0 5 == 0) (.divW (flag w 31) (fld w 21 4) (fld w 17 4) (fld w 13 4))
  | 17 => leaf (seg w 0 5 == 0) (.divuW (flag w 31) (fld w 21 4) (fld w 17 4) (fld w 13 4))
  | 18 => leaf (seg w 0 5 == 0) (.remW (flag w 31) (fld w 21 4) (fld w 17 4) (fld w 13 4))
  | 19 => leaf (seg w 0 5 == 0) (.remuW (flag w 31) (fld w 21 4) (fld w 17 4) (fld w 13 4))
  | 20 => leaf (seg w 0 5 == 0) (.sltW (flag w 31) (fld w 21 4) (fld w 17 4) (fld w 13 4))
  | 21 => leaf (seg w 0 5 == 0) (.sltuW (flag w 31) (fld w 21 4) (fld w 17 4) (fld w 13 4))
  | 22 => leaf (seg w 0 5 == 0) (.seqW (flag w 31) (fld w 21 4) (fld w 17 4) (fld w 13 4))
  | 23 => leaf (seg w 13 4 == 0 && seg w 0 5 == 0) (.clzW (flag w 31) (fld w 21 4) (fld w 17 4))
  | 24 => leaf (seg w 13 4 == 0 && seg w 0 5 == 0) (.ctzW (flag w 31) (fld w 21 4) (fld w 17 4))
  | 25 => leaf (seg w 13 4 == 0 && seg w 0 5 == 0) (.popcW (flag w 31) (fld w 21 4) (fld w 17 4))
  | 26 => leaf (seg w 4 1 == 0) (.selW (flag w 31) (fld w 21 4) (fld w 17 4) (fld w 13 4) (fld w 0 4))
  | _ => .error .unassigned

/-- Major 0x03: ADDI, ANDI, ORI, XORI, SHLI, SHRI …. -/
noncomputable def decMajor03 (w : Nat) : Except DecodeErr Instr :=
  match seg w 13 4 with
  | 0 => leaf true (.addi (flag w 31) (fld w 21 4) (fld w 17 4) (fld w 0 13))
  | 1 => leaf true (.andi (flag w 31) (fld w 21 4) (fld w 17 4) (fld w 0 13))
  | 2 => leaf true (.ori (flag w 31) (fld w 21 4) (fld w 17 4) (fld w 0 13))
  | 3 => leaf true (.xori (flag w 31) (fld w 21 4) (fld w 17 4) (fld w 0 13))
  | 4 => leaf true (.shli (flag w 31) (fld w 21 4) (fld w 17 4) (fld w 0 13))
  | 5 => leaf true (.shri (flag w 31) (fld w 21 4) (fld w 17 4) (fld w 0 13))
  | 6 => leaf true (.sari (flag w 31) (fld w 21 4) (fld w 17 4) (fld w 0 13))
  | 7 => leaf true (.slti (flag w 31) (fld w 21 4) (fld w 17 4) (fld w 0 13))
  | 8 => leaf true (.sltui (flag w 31) (fld w 21 4) (fld w 17 4) (fld w 0 13))
  | 9 => leaf true (.seqi (flag w 31) (fld w 21 4) (fld w 17 4) (fld w 0 13))
  | 10 => leaf true (.muli (flag w 31) (fld w 21 4) (fld w 17 4) (fld w 0 13))
  | _ => .error .unassigned

/-- Major 0x04: LIM. -/
noncomputable def decMajor04 (w : Nat) : Except DecodeErr Instr :=
  leaf true (.lim (flag w 31) (fld w 21 4) (fld w 0 21))

/-- Major 0x05: LIMT. -/
noncomputable def decMajor05 (w : Nat) : Except DecodeErr Instr :=
  leaf true (.limt (flag w 31) (fld w 21 4) (fld w 0 21))

/-- Major 0x06: LEA. -/
noncomputable def decMajor06 (w : Nat) : Except DecodeErr Instr :=
  match seg w 5 8 with
  | 0 => leaf true (.lea (flag w 31) (fld w 21 4) (fld w 17 4) (fld w 13 4) (fld w 0 5))
  | _ => .error .unassigned

/-- Major 0x07: BFX, BFX_S, BFI. -/
noncomputable def decMajor07 (w : Nat) : Except DecodeErr Instr :=
  match seg w 13 4 with
  | 0 => leaf (seg w 12 1 == 0) (.bfx (flag w 31) (fld w 21 4) (fld w 17 4) (fld w 6 6) (fld w 0 6))
  | 1 => leaf (seg w 12 1 == 0) (.bfxS (flag w 31) (fld w 21 4) (fld w 17 4) (fld w 6 6) (fld w 0 6))
  | 2 => leaf (seg w 12 1 == 0) (.bfi (flag w 31) (fld w 21 4) (fld w 17 4) (fld w 6 6) (fld w 0 6))
  | _ => .error .unassigned

/-- Major 0x08: BEQ, BNE, BLT, BGE, BLTU, BGEU …. -/
noncomputable def decMajor08 (w : Nat) : Except DecodeErr Instr :=
  match seg w 22 3 with
  | 0 => leaf true (.beq (flag w 31) (fld w 18 4) (fld w 14 4) (fld w 0 14))
  | 1 => leaf true (.bne (flag w 31) (fld w 18 4) (fld w 14 4) (fld w 0 14))
  | 2 => leaf true (.blt (flag w 31) (fld w 18 4) (fld w 14 4) (fld w 0 14))
  | 3 => leaf true (.bge (flag w 31) (fld w 18 4) (fld w 14 4) (fld w 0 14))
  | 4 => leaf true (.bltu (flag w 31) (fld w 18 4) (fld w 14 4) (fld w 0 14))
  | 5 => leaf true (.bgeu (flag w 31) (fld w 18 4) (fld w 14 4) (fld w 0 14))
  | 6 => leaf (seg w 14 4 == 0) (.beqz (flag w 31) (fld w 18 4) (fld w 0 14))
  | 7 => leaf (seg w 14 4 == 0) (.bnez (flag w 31) (fld w 18 4) (fld w 0 14))
  | _ => .error .unassigned

/-- Major 0x09: B. -/
noncomputable def decMajor09 (w : Nat) : Except DecodeErr Instr :=
  leaf true (.jump (flag w 31) (fld w 0 25))

/-- Major 0x0A: CALL. -/
noncomputable def decMajor0A (w : Nat) : Except DecodeErr Instr :=
  leaf true (.call (flag w 31) (fld w 0 25))

/-- Major 0x0B: NOP, END, JR, CALLR, RET. -/
noncomputable def decMajor0B (w : Nat) : Except DecodeErr Instr :=
  match seg w 5 8 with
  | 0 => leaf (seg w 13 12 == 0 && seg w 0 5 == 0) (.nop (flag w 31))
  | 1 => leaf (seg w 13 12 == 0 && seg w 0 5 == 0) (.endAct (flag w 31))
  | 2 => leaf (seg w 21 4 == 0 && seg w 13 4 == 0 && seg w 0 5 == 0) (.jr (flag w 31) (fld w 17 4))
  | 3 => leaf (seg w 21 4 == 0 && seg w 13 4 == 0 && seg w 0 5 == 0) (.callr (flag w 31) (fld w 17 4))
  | 4 => leaf (seg w 13 12 == 0 && seg w 0 5 == 0) (.ret (flag w 31))
  | _ => .error .unassigned

/-- Major 0x0C: MFS, MTS. -/
noncomputable def decMajor0C (w : Nat) : Except DecodeErr Instr :=
  match seg w 0 13 with
  | 0 => leaf true (.mfs (flag w 31) (fld w 21 4) (fld w 13 8))
  | 1 => leaf true (.mts (flag w 31) (fld w 21 4) (fld w 13 8))
  | _ => .error .unassigned

/-- Major 0x10: SEND, SEND_RQ, SENDB, SENDB_RQ. -/
noncomputable def decMajor10 (w : Nat) : Except DecodeErr Instr :=
  match seg w 0 8 with
  | 0 => leaf true (.send (flag w 31) (fld w 21 4) (fld w 17 4) (fld w 13 4) (fld w 8 5))
  | 1 => leaf true (.sendRq (flag w 31) (fld w 21 4) (fld w 17 4) (fld w 13 4) (fld w 8 5))
  | 2 => leaf (seg w 8 5 == 0) (.sendb (flag w 31) (fld w 21 4) (fld w 17 4) (fld w 13 4))
  | 3 => leaf (seg w 8 5 == 0) (.sendbRq (flag w 31) (fld w 21 4) (fld w 17 4) (fld w 13 4))
  | _ => .error .unassigned

/-- Major 0x11: REPLY, REPLYB. -/
noncomputable def decMajor11 (w : Nat) : Except DecodeErr Instr :=
  match seg w 0 8 with
  | 0 => leaf (seg w 17 8 == 0) (.reply (flag w 31) (fld w 13 4) (fld w 8 5))
  | 1 => leaf (seg w 17 8 == 0 && seg w 8 5 == 0) (.replyb (flag w 31) (fld w 13 4))
  | _ => .error .unassigned

/-- Major 0x12: MIGR, MIGRX. -/
noncomputable def decMajor12 (w : Nat) : Except DecodeErr Instr :=
  match seg w 0 8 with
  | 0 => leaf (seg w 31 1 == 1 && seg w 21 4 == 0 && seg w 8 9 == 0) (.migr (fld w 17 4))
  | 1 => leaf (seg w 31 1 == 1 && seg w 8 13 == 0) (.migrx (fld w 21 4))
  | _ => .error .unassigned

/-- Major 0x13: RECVW, HOMEXY. -/
noncomputable def decMajor13 (w : Nat) : Except DecodeErr Instr :=
  match seg w 0 8 with
  | 0 => leaf (seg w 8 13 == 0) (.recvw (flag w 31) (fld w 21 4))
  | 1 => leaf (seg w 8 9 == 0) (.homexy (flag w 31) (fld w 21 4) (fld w 17 4))
  | _ => .error .unassigned

/-- Major 0x14: EVARM, EVSEND, EVREAD, PUSHW, POPW, STEAL …. -/
noncomputable def decMajor14 (w : Nat) : Except DecodeErr Instr :=
  match seg w 5 8 with
  | 0 => leaf (seg w 21 4 == 0 && seg w 0 5 == 0) (.evarm (flag w 31) (fld w 17 4) (fld w 13 4))
  | 1 => leaf (seg w 4 1 == 0) (.evsend (flag w 31) (fld w 21 4) (fld w 17 4) (fld w 13 4) (fld w 0 4))
  | 2 => leaf (seg w 13 4 == 0 && seg w 0 5 == 0) (.evread (flag w 31) (fld w 21 4) (fld w 17 4))
  | 8 => leaf (seg w 17 8 == 0 && seg w 0 5 == 0) (.pushw (flag w 31) (fld w 13 4))
  | 9 => leaf (seg w 13 8 == 0 && seg w 0 5 == 0) (.popw (flag w 31) (fld w 21 4))
  | 10 => leaf (seg w 13 12 == 0 && seg w 0 5 == 0) (.steal (flag w 31))
  | 11 => leaf (seg w 13 8 == 0 && seg w 0 5 == 0) (.dqlen (flag w 31) (fld w 21 4))
  | 16 => leaf (seg w 13 4 == 0 && seg w 0 5 == 0) (.launch (flag w 31) (fld w 21 4) (fld w 17 4))
  | 17 => leaf (seg w 21 4 == 0 && seg w 13 4 == 0 && seg w 0 5 == 0) (.kill (flag w 31) (fld w 17 4))
  | _ => .error .unassigned

/-- Major 0x15: EVSIG, SGRP. -/
noncomputable def decMajor15 (w : Nat) : Except DecodeErr Instr :=
  match seg w 13 4 with
  | 0 => leaf (seg w 21 4 == 0) (.evsig (flag w 31) (fld w 17 4) (fld w 0 13))
  | 1 => leaf (seg w 17 4 == 0) (.sgrp (flag w 31) (fld w 21 4) (fld w 0 13))
  | _ => .error .unassigned

/-- Major 0x16: GARR_AND, GARR_OR, GARR_ADD, GARR_MAXU, GARR_FMAX, GARR_FMIN. -/
noncomputable def decMajor16 (w : Nat) : Except DecodeErr Instr :=
  match seg w 13 4 with
  | 0 => leaf (seg w 11 2 == 0) (.garrAnd (flag w 31) (fld w 21 4) (fld w 17 4) (fld w 0 11))
  | 1 => leaf (seg w 11 2 == 0) (.garrOr (flag w 31) (fld w 21 4) (fld w 17 4) (fld w 0 11))
  | 2 => leaf (seg w 11 2 == 0) (.garrAdd (flag w 31) (fld w 21 4) (fld w 17 4) (fld w 0 11))
  | 3 => leaf (seg w 11 2 == 0) (.garrMaxu (flag w 31) (fld w 21 4) (fld w 17 4) (fld w 0 11))
  | 4 => leaf (seg w 11 2 == 0) (.garrFmax (flag w 31) (fld w 21 4) (fld w 17 4) (fld w 0 11))
  | 5 => leaf (seg w 11 2 == 0) (.garrFmin (flag w 31) (fld w 21 4) (fld w 17 4) (fld w 0 11))
  | _ => .error .unassigned

/-- Major 0x17: GARRW_AND, GARRW_OR, GARRW_ADD, GARRW_MAXU, GARRW_FMAX, GARRW_FMIN. -/
noncomputable def decMajor17 (w : Nat) : Except DecodeErr Instr :=
  match seg w 13 4 with
  | 0 => leaf (seg w 11 2 == 0) (.garrwAnd (flag w 31) (fld w 21 4) (fld w 17 4) (fld w 0 11))
  | 1 => leaf (seg w 11 2 == 0) (.garrwOr (flag w 31) (fld w 21 4) (fld w 17 4) (fld w 0 11))
  | 2 => leaf (seg w 11 2 == 0) (.garrwAdd (flag w 31) (fld w 21 4) (fld w 17 4) (fld w 0 11))
  | 3 => leaf (seg w 11 2 == 0) (.garrwMaxu (flag w 31) (fld w 21 4) (fld w 17 4) (fld w 0 11))
  | 4 => leaf (seg w 11 2 == 0) (.garrwFmax (flag w 31) (fld w 21 4) (fld w 17 4) (fld w 0 11))
  | 5 => leaf (seg w 11 2 == 0) (.garrwFmin (flag w 31) (fld w 21 4) (fld w 17 4) (fld w 0 11))
  | _ => .error .unassigned

/-- Major 0x18: LDG_B, LDG_BU, LDG_H, LDG_HU, LDG_W, LDG_WU …. -/
noncomputable def decMajor18 (w : Nat) : Except DecodeErr Instr :=
  match seg w 13 4 with
  | 0 => leaf true (.ldgB (flag w 31) (fld w 21 4) (fld w 17 4) (fld w 0 13))
  | 1 => leaf true (.ldgBu (flag w 31) (fld w 21 4) (fld w 17 4) (fld w 0 13))
  | 2 => leaf true (.ldgH (flag w 31) (fld w 21 4) (fld w 17 4) (fld w 0 13))
  | 3 => leaf true (.ldgHu (flag w 31) (fld w 21 4) (fld w 17 4) (fld w 0 13))
  | 4 => leaf true (.ldgW (flag w 31) (fld w 21 4) (fld w 17 4) (fld w 0 13))
  | 5 => leaf true (.ldgWu (flag w 31) (fld w 21 4) (fld w 17 4) (fld w 0 13))
  | 6 => leaf true (.ldgD (flag w 31) (fld w 21 4) (fld w 17 4) (fld w 0 13))
  | 7 => leaf true (.ldgAcq (flag w 31) (fld w 21 4) (fld w 17 4) (fld w 0 13))
  | 8 => leaf true (.stgB (flag w 31) (fld w 21 4) (fld w 17 4) (fld w 0 13))
  | 9 => leaf true (.stgH (flag w 31) (fld w 21 4) (fld w 17 4) (fld w 0 13))
  | 10 => leaf true (.stgW (flag w 31) (fld w 21 4) (fld w 17 4) (fld w 0 13))
  | 11 => leaf true (.stgD (flag w 31) (fld w 21 4) (fld w 17 4) (fld w 0 13))
  | 12 => leaf true (.stgRel (flag w 31) (fld w 21 4) (fld w 17 4) (fld w 0 13))
  | 13 => leaf true (.ldgAcqW (flag w 31) (fld w 21 4) (fld w 17 4) (fld w 0 13))
  | 14 => leaf true (.stgRelW (flag w 31) (fld w 21 4) (fld w 17 4) (fld w 0 13))
  | 15 => leaf (seg w 21 4 == 0) (.pref (flag w 31) (fld w 17 4) (fld w 0 13))
  | _ => .error .unassigned

/-- Major 0x19: LDL_B, LDL_BU, LDL_H, LDL_HU, LDL_W, LDL_WU …. -/
noncomputable def decMajor19 (w : Nat) : Except DecodeErr Instr :=
  match seg w 13 4 with
  | 0 => leaf true (.ldlB (flag w 31) (fld w 21 4) (fld w 17 4) (fld w 0 13))
  | 1 => leaf true (.ldlBu (flag w 31) (fld w 21 4) (fld w 17 4) (fld w 0 13))
  | 2 => leaf true (.ldlH (flag w 31) (fld w 21 4) (fld w 17 4) (fld w 0 13))
  | 3 => leaf true (.ldlHu (flag w 31) (fld w 21 4) (fld w 17 4) (fld w 0 13))
  | 4 => leaf true (.ldlW (flag w 31) (fld w 21 4) (fld w 17 4) (fld w 0 13))
  | 5 => leaf true (.ldlWu (flag w 31) (fld w 21 4) (fld w 17 4) (fld w 0 13))
  | 6 => leaf true (.ldlD (flag w 31) (fld w 21 4) (fld w 17 4) (fld w 0 13))
  | 8 => leaf true (.stlB (flag w 31) (fld w 21 4) (fld w 17 4) (fld w 0 13))
  | 9 => leaf true (.stlH (flag w 31) (fld w 21 4) (fld w 17 4) (fld w 0 13))
  | 10 => leaf true (.stlW (flag w 31) (fld w 21 4) (fld w 17 4) (fld w 0 13))
  | 11 => leaf true (.stlD (flag w 31) (fld w 21 4) (fld w 17 4) (fld w 0 13))
  | _ => .error .unassigned

/-- Major 0x1A: VLDG, VSTG, VLDL, VSTL. -/
noncomputable def decMajor1A (w : Nat) : Except DecodeErr Instr :=
  match seg w 8 5 with
  | 0 => leaf true (.vldg (flag w 31) (fld w 20 5) (fld w 16 4) (fld w 13 3) (fld w 0 8))
  | 1 => leaf true (.vstg (flag w 31) (fld w 20 5) (fld w 16 4) (fld w 13 3) (fld w 0 8))
  | 2 => leaf true (.vldl (flag w 31) (fld w 20 5) (fld w 16 4) (fld w 13 3) (fld w 0 8))
  | 3 => leaf true (.vstl (flag w 31) (fld w 20 5) (fld w 16 4) (fld w 13 3) (fld w 0 8))
  | _ => .error .unassigned

/-- Major 0x1B: VLDLS, VSTLS, TLDG_F32, TLDG_BF16, TSTG_F32, TSTG_BF16. -/
noncomputable def decMajor1B (w : Nat) : Except DecodeErr Instr :=
  match seg w 0 8 with
  | 0 => leaf (seg w 19 1 == 0) (.vldls (flag w 31) (fld w 20 5) (fld w 15 4) (fld w 11 4) (fld w 8 3))
  | 1 => leaf (seg w 19 1 == 0) (.vstls (flag w 31) (fld w 20 5) (fld w 15 4) (fld w 11 4) (fld w 8 3))
  | 2 => leaf (seg w 15 5 == 0 && seg w 8 3 == 0) (.tldgF32 (flag w 31) (fld w 20 5) (fld w 11 4))
  | 3 => leaf (seg w 15 5 == 0 && seg w 8 3 == 0) (.tldgBf16 (flag w 31) (fld w 20 5) (fld w 11 4))
  | 4 => leaf (seg w 15 5 == 0 && seg w 8 3 == 0) (.tstgF32 (flag w 31) (fld w 20 5) (fld w 11 4))
  | 5 => leaf (seg w 15 5 == 0 && seg w 8 3 == 0) (.tstgBf16 (flag w 31) (fld w 20 5) (fld w 11 4))
  | _ => .error .unassigned

/-- Major 0x1C: BMOV_G2L, BMOV_L2G, BFILL_G, BFILL_L. -/
noncomputable def decMajor1C (w : Nat) : Except DecodeErr Instr :=
  match seg w 5 8 with
  | 0 => leaf (seg w 31 1 == 1 && seg w 0 5 == 0) (.bmovG2l (fld w 21 4) (fld w 17 4) (fld w 13 4))
  | 1 => leaf (seg w 31 1 == 1 && seg w 0 5 == 0) (.bmovL2g (fld w 21 4) (fld w 17 4) (fld w 13 4))
  | 2 => leaf (seg w 31 1 == 1 && seg w 0 5 == 0) (.bfillG (fld w 21 4) (fld w 17 4) (fld w 13 4))
  | 3 => leaf (seg w 31 1 == 1 && seg w 0 5 == 0) (.bfillL (fld w 21 4) (fld w 17 4) (fld w 13 4))
  | _ => .error .unassigned

/-- Major 0x1D: AMOG_ADD, AMOG_AND, AMOG_OR, AMOG_XOR, AMOG_MIN, AMOG_MAX …. -/
noncomputable def decMajor1D (w : Nat) : Except DecodeErr Instr :=
  match seg w 10 3 with
  | 0 =>
    match seg w 5 4 with
    | 0 => leaf (seg w 0 5 == 0) (.amogAdd (flag w 31) (fld w 21 4) (fld w 17 4) (fld w 13 4) (fld w 9 1))
    | 1 => leaf (seg w 0 5 == 0) (.amogAnd (flag w 31) (fld w 21 4) (fld w 17 4) (fld w 13 4) (fld w 9 1))
    | 2 => leaf (seg w 0 5 == 0) (.amogOr (flag w 31) (fld w 21 4) (fld w 17 4) (fld w 13 4) (fld w 9 1))
    | 3 => leaf (seg w 0 5 == 0) (.amogXor (flag w 31) (fld w 21 4) (fld w 17 4) (fld w 13 4) (fld w 9 1))
    | 4 => leaf (seg w 0 5 == 0) (.amogMin (flag w 31) (fld w 21 4) (fld w 17 4) (fld w 13 4) (fld w 9 1))
    | 5 => leaf (seg w 0 5 == 0) (.amogMax (flag w 31) (fld w 21 4) (fld w 17 4) (fld w 13 4) (fld w 9 1))
    | 6 => leaf (seg w 0 5 == 0) (.amogMinu (flag w 31) (fld w 21 4) (fld w 17 4) (fld w 13 4) (fld w 9 1))
    | 7 => leaf (seg w 0 5 == 0) (.amogMaxu (flag w 31) (fld w 21 4) (fld w 17 4) (fld w 13 4) (fld w 9 1))
    | 8 => leaf (seg w 0 5 == 0) (.amogSwap (flag w 31) (fld w 21 4) (fld w 17 4) (fld w 13 4) (fld w 9 1))
    | 9 => leaf (seg w 9 1 == 0 && seg w 0 5 == 0) (.amogFadd (flag w 31) (fld w 21 4) (fld w 17 4) (fld w 13 4))
    | _ => .error .unassigned
  | 2 =>
    match seg w 5 4 with
    | 0 => leaf (seg w 0 5 == 0) (.amolAdd (flag w 31) (fld w 21 4) (fld w 17 4) (fld w 13 4) (fld w 9 1))
    | 1 => leaf (seg w 0 5 == 0) (.amolAnd (flag w 31) (fld w 21 4) (fld w 17 4) (fld w 13 4) (fld w 9 1))
    | 2 => leaf (seg w 0 5 == 0) (.amolOr (flag w 31) (fld w 21 4) (fld w 17 4) (fld w 13 4) (fld w 9 1))
    | 3 => leaf (seg w 0 5 == 0) (.amolXor (flag w 31) (fld w 21 4) (fld w 17 4) (fld w 13 4) (fld w 9 1))
    | 4 => leaf (seg w 0 5 == 0) (.amolMin (flag w 31) (fld w 21 4) (fld w 17 4) (fld w 13 4) (fld w 9 1))
    | 5 => leaf (seg w 0 5 == 0) (.amolMax (flag w 31) (fld w 21 4) (fld w 17 4) (fld w 13 4) (fld w 9 1))
    | 6 => leaf (seg w 0 5 == 0) (.amolMinu (flag w 31) (fld w 21 4) (fld w 17 4) (fld w 13 4) (fld w 9 1))
    | 7 => leaf (seg w 0 5 == 0) (.amolMaxu (flag w 31) (fld w 21 4) (fld w 17 4) (fld w 13 4) (fld w 9 1))
    | 8 => leaf (seg w 0 5 == 0) (.amolSwap (flag w 31) (fld w 21 4) (fld w 17 4) (fld w 13 4) (fld w 9 1))
    | 9 => leaf (seg w 9 1 == 0 && seg w 0 5 == 0) (.amolFadd (flag w 31) (fld w 21 4) (fld w 17 4) (fld w 13 4))
    | _ => .error .unassigned
  | 4 => leaf (seg w 0 9 == 0) (.casg (flag w 31) (fld w 21 4) (fld w 17 4) (fld w 13 4) (fld w 9 1))
  | 5 => leaf (seg w 0 9 == 0) (.casl (flag w 31) (fld w 21 4) (fld w 17 4) (fld w 13 4) (fld w 9 1))
  | 6 => leaf (seg w 7 3 == 0 && seg w 0 5 == 0) (.waitwG (flag w 31) (fld w 21 4) (fld w 17 4) (fld w 13 4) (fld w 5 2))
  | 7 => leaf (seg w 7 3 == 0 && seg w 0 5 == 0) (.waitwL (flag w 31) (fld w 21 4) (fld w 17 4) (fld w 13 4) (fld w 5 2))
  | _ => .error .unassigned

/-- Major 0x1E: BINIT, BEXPECT, BARRIVE, BWAIT, BTEST. -/
noncomputable def decMajor1E (w : Nat) : Except DecodeErr Instr :=
  match seg w 5 8 with
  | 0 => leaf (seg w 21 4 == 0 && seg w 0 5 == 0) (.binit (flag w 31) (fld w 17 4) (fld w 13 4))
  | 1 => leaf (seg w 21 4 == 0 && seg w 0 5 == 0) (.bexpect (flag w 31) (fld w 17 4) (fld w 13 4))
  | 2 => leaf (seg w 21 4 == 0 && seg w 13 4 == 0 && seg w 0 5 == 0) (.barrive (flag w 31) (fld w 17 4))
  | 3 => leaf (seg w 21 4 == 0 && seg w 0 5 == 0) (.bwait (flag w 31) (fld w 17 4) (fld w 13 4))
  | 4 => leaf (seg w 13 4 == 0 && seg w 0 5 == 0) (.btest (flag w 31) (fld w 21 4) (fld w 17 4))
  | _ => .error .unassigned

/-- Major 0x1F: FENCE, TLWAIT, TLREAD. -/
noncomputable def decMajor1F (w : Nat) : Except DecodeErr Instr :=
  match seg w 7 6 with
  | 0 => leaf (seg w 13 12 == 0 && seg w 4 1 == 0) (.fence (flag w 31) { scope := fld w 5 2, kinds := fld w 0 4 } ())
  | 1 =>
    match seg w 5 2 with
    | 0 => leaf (seg w 21 4 == 0 && seg w 13 4 == 0 && seg w 2 3 == 0) (.tlwait (flag w 31) (fld w 17 4) (fld w 0 2))
    | 1 => leaf (seg w 13 8 == 0 && seg w 2 3 == 0) (.tlread (flag w 31) (fld w 21 4) (fld w 0 2))
    | _ => .error .unassigned
  | _ => .error .unassigned

/-- Major 0x20: VADD, VSUB, VMUL, VDIV, VMIN, VMAX …. -/
noncomputable def decMajor20 (w : Nat) : Except DecodeErr Instr :=
  match seg w 0 5 with
  | 0 => leaf true (.vadd (flag w 31) (fld w 20 5) (fld w 15 5) (fld w 10 5) (fld w 7 3) (fld w 5 2))
  | 1 => leaf true (.vsub (flag w 31) (fld w 20 5) (fld w 15 5) (fld w 10 5) (fld w 7 3) (fld w 5 2))
  | 2 => leaf true (.vmul (flag w 31) (fld w 20 5) (fld w 15 5) (fld w 10 5) (fld w 7 3) (fld w 5 2))
  | 3 => leaf true (.vdiv (flag w 31) (fld w 20 5) (fld w 15 5) (fld w 10 5) (fld w 7 3) (fld w 5 2))
  | 4 => leaf true (.vmin (flag w 31) (fld w 20 5) (fld w 15 5) (fld w 10 5) (fld w 7 3) (fld w 5 2))
  | 5 => leaf true (.vmax (flag w 31) (fld w 20 5) (fld w 15 5) (fld w 10 5) (fld w 7 3) (fld w 5 2))
  | 6 => leaf true (.vfma (flag w 31) (fld w 20 5) (fld w 15 5) (fld w 10 5) (fld w 7 3) (fld w 5 2))
  | 7 => leaf true (.vfms (flag w 31) (fld w 20 5) (fld w 15 5) (fld w 10 5) (fld w 7 3) (fld w 5 2))
  | 8 => leaf true (.vfnma (flag w 31) (fld w 20 5) (fld w 15 5) (fld w 10 5) (fld w 7 3) (fld w 5 2))
  | 9 => leaf (seg w 10 5 == 0) (.vabs (flag w 31) (fld w 20 5) (fld w 15 5) (fld w 7 3) (fld w 5 2))
  | 10 => leaf (seg w 10 5 == 0) (.vneg (flag w 31) (fld w 20 5) (fld w 15 5) (fld w 7 3) (fld w 5 2))
  | 11 => leaf (seg w 10 5 == 0) (.vsqrt (flag w 31) (fld w 20 5) (fld w 15 5) (fld w 7 3) (fld w 5 2))
  | 12 => leaf (seg w 10 5 == 0) (.vexp2 (flag w 31) (fld w 20 5) (fld w 15 5) (fld w 7 3) (fld w 5 2))
  | 13 => leaf (seg w 10 5 == 0) (.vlog2 (flag w 31) (fld w 20 5) (fld w 15 5) (fld w 7 3) (fld w 5 2))
  | _ => .error .unassigned

/-- Major 0x21: VIADD, VISUB, VIMUL, VIMULH, VIMIN, VIMAX …. -/
noncomputable def decMajor21 (w : Nat) : Except DecodeErr Instr :=
  match seg w 0 5 with
  | 0 => leaf true (.viadd (flag w 31) (fld w 20 5) (fld w 15 5) (fld w 10 5) (fld w 7 3) (fld w 5 2))
  | 1 => leaf true (.visub (flag w 31) (fld w 20 5) (fld w 15 5) (fld w 10 5) (fld w 7 3) (fld w 5 2))
  | 2 => leaf true (.vimul (flag w 31) (fld w 20 5) (fld w 15 5) (fld w 10 5) (fld w 7 3) (fld w 5 2))
  | 3 => leaf true (.vimulh (flag w 31) (fld w 20 5) (fld w 15 5) (fld w 10 5) (fld w 7 3) (fld w 5 2))
  | 4 => leaf true (.vimin (flag w 31) (fld w 20 5) (fld w 15 5) (fld w 10 5) (fld w 7 3) (fld w 5 2))
  | 5 => leaf true (.vimax (flag w 31) (fld w 20 5) (fld w 15 5) (fld w 10 5) (fld w 7 3) (fld w 5 2))
  | 6 => leaf true (.vand (flag w 31) (fld w 20 5) (fld w 15 5) (fld w 10 5) (fld w 7 3) (fld w 5 2))
  | 7 => leaf true (.vor (flag w 31) (fld w 20 5) (fld w 15 5) (fld w 10 5) (fld w 7 3) (fld w 5 2))
  | 8 => leaf true (.vxor (flag w 31) (fld w 20 5) (fld w 15 5) (fld w 10 5) (fld w 7 3) (fld w 5 2))
  | 9 => leaf true (.vshl (flag w 31) (fld w 20 5) (fld w 15 5) (fld w 10 5) (fld w 7 3) (fld w 5 2))
  | 10 => leaf true (.vshr (flag w 31) (fld w 20 5) (fld w 15 5) (fld w 10 5) (fld w 7 3) (fld w 5 2))
  | 11 => leaf true (.vsar (flag w 31) (fld w 20 5) (fld w 15 5) (fld w 10 5) (fld w 7 3) (fld w 5 2))
  | 12 => leaf (seg w 5 2 == 0) (.vidot4 (flag w 31) (fld w 20 5) (fld w 15 5) (fld w 10 5) (fld w 7 3))
  | _ => .error .unassigned

/-- Major 0x22: VCVT. -/
noncomputable def decMajor22 (w : Nat) : Except DecodeErr Instr :=
  leaf (seg w 14 1 == 0 && seg w 0 1 == 0) (.vcvt (flag w 31) (fld w 20 5) (fld w 15 5) (fld w 10 4) (fld w 7 3) (fld w 3 4) (fld w 1 2))

/-- Major 0x23: VQUANT. -/
noncomputable def decMajor23 (w : Nat) : Except DecodeErr Instr :=
  leaf true (.vquant (flag w 31) (fld w 20 5) (fld w 15 5) (fld w 11 4) (fld w 8 3) (fld w 4 4) (fld w 2 2) (fld w 0 2))

/-- Major 0x24: VQUANT_FIX. -/
noncomputable def decMajor24 (w : Nat) : Except DecodeErr Instr :=
  leaf true (.vquantFix (flag w 31) (fld w 20 5) (fld w 15 5) (fld w 11 4) (fld w 8 3) (fld w 4 4) (fld w 2 2) (fld w 0 2))

/-- Major 0x25: VDEQ. -/
noncomputable def decMajor25 (w : Nat) : Except DecodeErr Instr :=
  leaf true (.vdeq (flag w 31) (fld w 20 5) (fld w 15 5) (fld w 11 4) (fld w 8 3) (fld w 4 4) (fld w 2 2) (fld w 0 2))

/-- Major 0x26: MAND, MOR, MNOT, VSELM, VPERM, VRED_ADD …. -/
noncomputable def decMajor26 (w : Nat) : Except DecodeErr Instr :=
  match seg w 6 1 with
  | 0 =>
    match seg w 2 4 with
    | 0 =>
      match seg w 0 2 with
      | 0 => leaf (seg w 23 2 == 0 && seg w 18 2 == 0 && seg w 13 2 == 0 && seg w 7 3 == 0) (.mand (flag w 31) (fld w 20 3) (fld w 15 3) (fld w 10 3))
      | 1 => leaf (seg w 23 2 == 0 && seg w 18 2 == 0 && seg w 13 2 == 0 && seg w 7 3 == 0) (.mor (flag w 31) (fld w 20 3) (fld w 15 3) (fld w 10 3))
      | 2 => leaf (seg w 23 2 == 0 && seg w 18 2 == 0 && seg w 7 8 == 0) (.mnot (flag w 31) (fld w 20 3) (fld w 15 3))
      | 3 => leaf true (.vselm (flag w 31) (fld w 20 5) (fld w 15 5) (fld w 10 5) (fld w 7 3))
      | _ => .error .unassigned
    | 1 => leaf (seg w 0 2 == 0) (.vperm (flag w 31) (fld w 20 5) (fld w 15 5) (fld w 10 5) (fld w 7 3))
    | 2 => leaf (seg w 10 5 == 0) (.vredAdd (flag w 31) (fld w 20 5) (fld w 15 5) (fld w 7 3) (fld w 0 2))
    | 3 => leaf (seg w 10 5 == 0) (.vredMax (flag w 31) (fld w 20 5) (fld w 15 5) (fld w 7 3) (fld w 0 2))
    | 4 => leaf (seg w 10 5 == 0) (.vredMin (flag w 31) (fld w 20 5) (fld w 15 5) (fld w 7 3) (fld w 0 2))
    | 5 => leaf (seg w 10 5 == 0) (.vscanAdd (flag w 31) (fld w 20 5) (fld w 15 5) (fld w 7 3) (fld w 0 2))
    | _ => .error .unassigned
  | 1 => leaf (seg w 23 2 == 0) (.vcmp (flag w 31) (fld w 20 3) (fld w 15 5) (fld w 10 5) (fld w 7 3) (fld w 3 3) (fld w 0 3))
  | _ => .error .unassigned

/-- Major 0x27: MPOP, VBCST, VBCST_H, VBCST_B, VSLIDE, VIOTA …. -/
noncomputable def decMajor27 (w : Nat) : Except DecodeErr Instr :=
  match seg w 6 2 with
  | 0 =>
    match seg w 2 4 with
    | 0 =>
      match seg w 0 2 with
      | 0 => leaf (seg w 18 7 == 0) (.mpop (flag w 31) (fld w 15 3) (fld w 11 4) (fld w 8 3))
      | 1 => leaf (seg w 15 5 == 0) (.vbcst (flag w 31) (fld w 20 5) (fld w 11 4) (fld w 8 3))
      | 2 => leaf (seg w 15 5 == 0) (.vbcstH (flag w 31) (fld w 20 5) (fld w 11 4) (fld w 8 3))
      | 3 => leaf (seg w 15 5 == 0) (.vbcstB (flag w 31) (fld w 20 5) (fld w 11 4) (fld w 8 3))
      | _ => .error .unassigned
    | 1 =>
      match seg w 0 2 with
      | 0 => leaf true (.vslide (flag w 31) (fld w 20 5) (fld w 15 5) (fld w 11 4) (fld w 8 3))
      | 1 => leaf (seg w 15 5 == 0) (.viota (flag w 31) (fld w 20 5) (fld w 11 4) (fld w 8 3))
      | 2 => leaf true (.vgathl (flag w 31) (fld w 20 5) (fld w 15 5) (fld w 11 4) (fld w 8 3))
      | 3 => leaf true (.vscatl (flag w 31) (fld w 20 5) (fld w 15 5) (fld w 11 4) (fld w 8 3))
      | _ => .error .unassigned
    | 2 =>
      match seg w 0 2 with
      | 0 => leaf true (.vdistIp (flag w 31) (fld w 20 5) (fld w 15 5) (fld w 11 4) (fld w 8 3))
      | 1 => leaf true (.vdistL2 (flag w 31) (fld w 20 5) (fld w 15 5) (fld w 11 4) (fld w 8 3))
      | 2 => leaf true (.vdistCos (flag w 31) (fld w 20 5) (fld w 15 5) (fld w 11 4) (fld w 8 3))
      | _ => .error .unassigned
    | 3 => leaf (seg w 11 4 == 0) (.vbmax (flag w 31) (fld w 20 5) (fld w 15 5) (fld w 8 3) (fld w 0 2))
    | _ => .error .unassigned
  | 1 => leaf (seg w 20 5 == 0 && seg w 8 3 == 0) (.vscale (flag w 31) (fld w 15 5) (fld w 11 4) (fld w 2 4) (fld w 0 2))
  | 2 =>
    match seg w 2 4 with
    | 0 => leaf (seg w 8 3 == 0) (.vins (flag w 31) (fld w 20 5) (fld w 15 5) (fld w 11 4) (fld w 0 2))
    | 1 => leaf (seg w 8 3 == 0) (.vext (flag w 31) (fld w 20 5) (fld w 15 5) (fld w 11 4) (fld w 0 2))
    | _ => .error .unassigned
  | _ => .error .unassigned

/-- Major 0x28: RLINS, RLINSX, RLPRUNE, RLMERGE, RLCLR. -/
noncomputable def decMajor28 (w : Nat) : Except DecodeErr Instr :=
  match seg w 0 7 with
  | 0 => leaf (seg w 22 3 == 0 && seg w 14 1 == 0) (.rlins (flag w 31) (fld w 20 2) (fld w 15 5) (fld w 10 4) (fld w 7 3))
  | 1 => leaf (seg w 22 3 == 0) (.rlinsx (flag w 31) (fld w 20 2) (fld w 15 5) (fld w 10 5) (fld w 7 3))
  | 2 => leaf (seg w 23 2 == 0 && seg w 12 3 == 0) (.rlprune (flag w 31) (fld w 20 3) (fld w 15 5) (fld w 10 2) (fld w 7 3))
  | 3 => leaf (seg w 22 3 == 0 && seg w 17 3 == 0 && seg w 7 8 == 0) (.rlmerge (flag w 31) (fld w 20 2) (fld w 15 2))
  | 4 => leaf (seg w 22 3 == 0 && seg w 7 13 == 0) (.rlclr (flag w 31) (fld w 20 2))
  | _ => .error .unassigned

/-- Major 0x29: RLINIT, RLTHR, RLLEN, RLGET, RLST, RLLD …. -/
noncomputable def decMajor29 (w : Nat) : Except DecodeErr Instr :=
  match seg w 13 4 with
  | 0 => leaf (seg w 17 8 == 0 && seg w 9 4 == 0) (.rlinit (flag w 31) (fld w 2 7) (fld w 0 2))
  | 1 => leaf (seg w 17 4 == 0 && seg w 2 11 == 0) (.rlthr (flag w 31) (fld w 21 4) (fld w 0 2))
  | 2 => leaf (seg w 17 4 == 0 && seg w 2 11 == 0) (.rllen (flag w 31) (fld w 21 4) (fld w 0 2))
  | 3 => leaf (seg w 2 11 == 0) (.rlget (flag w 31) (fld w 21 4) (fld w 17 4) (fld w 0 2))
  | 4 => leaf (seg w 21 4 == 0 && seg w 2 11 == 0) (.rlst (flag w 31) (fld w 17 4) (fld w 0 2))
  | 5 => leaf (seg w 21 4 == 0 && seg w 2 11 == 0) (.rlld (flag w 31) (fld w 17 4) (fld w 0 2))
  | 6 => leaf (seg w 2 11 == 0) (.rlsend (flag w 31) (fld w 21 4) (fld w 17 4) (fld w 0 2))
  | 7 => leaf (seg w 21 4 == 0 && seg w 2 11 == 0) (.rlfloor (flag w 31) (fld w 17 4) (fld w 0 2))
  | _ => .error .unassigned

/-- Major 0x2C: MMA, MMAG. -/
noncomputable def decMajor2C (w : Nat) : Except DecodeErr Instr :=
  match seg w 2 1 with
  | 0 => leaf (seg w 6 3 == 0) (.mma (flag w 31) (fld w 21 4) (fld w 17 4) (fld w 13 4) (fld w 9 4) (fld w 5 1) (fld w 4 1) (fld w 3 1) (fld w 0 2))
  | 1 => leaf (seg w 6 3 == 0) (.mmag (flag w 31) (fld w 21 4) (fld w 17 4) (fld w 13 4) (fld w 9 4) (fld w 5 1) (fld w 4 1) (fld w 3 1) (fld w 0 2))
  | _ => .error .unassigned

/-- Major 0x2D: MMR, MMRL. -/
noncomputable def decMajor2D (w : Nat) : Except DecodeErr Instr :=
  match seg w 2 1 with
  | 0 => leaf (seg w 13 4 == 0 && seg w 5 4 == 0) (.mmr (flag w 31) (fld w 21 4) (fld w 17 4) (fld w 9 4) (fld w 4 1) (fld w 3 1) (fld w 0 2))
  | 1 => leaf (seg w 13 4 == 0 && seg w 5 4 == 0) (.mmrl (flag w 31) (fld w 21 4) (fld w 17 4) (fld w 9 4) (fld w 4 1) (fld w 3 1) (fld w 0 2))
  | _ => .error .unassigned

/-- Major 0x2E: MMZ, MMRANK. -/
noncomputable def decMajor2E (w : Nat) : Except DecodeErr Instr :=
  match seg w 2 1 with
  | 0 => leaf (seg w 3 22 == 0) (.mmz (flag w 31) (fld w 0 2))
  | 1 => leaf (seg w 7 18 == 0) (.mmrank (flag w 31) (fld w 3 4) (fld w 0 2))
  | _ => .error .unassigned

/-- Major 0x2F: TILEXY, EDGEM, SETE, GETE. -/
noncomputable def decMajor2F (w : Nat) : Except DecodeErr Instr :=
  match seg w 5 8 with
  | 0 => leaf (seg w 13 8 == 0 && seg w 0 5 == 0) (.tilexy (flag w 31) (fld w 21 4))
  | 1 => leaf (seg w 13 8 == 0 && seg w 0 5 == 0) (.edgem (flag w 31) (fld w 21 4))
  | 2 => leaf (seg w 21 4 == 0 && seg w 13 4 == 0 && seg w 3 2 == 0) (.sete (flag w 31) (fld w 17 4) (fld w 0 3))
  | 3 => leaf (seg w 13 8 == 0 && seg w 3 2 == 0) (.gete (flag w 31) (fld w 21 4) (fld w 0 3))
  | _ => .error .unassigned

/-- Major 0x32: CPY_G2L, CPY_L2G, CPY_G2G, CPYR_L, CPYR_G, CPYW_L …. -/
noncomputable def decMajor32 (w : Nat) : Except DecodeErr Instr :=
  match seg w 0 9 with
  | 0 => leaf true (.cpyG2l (flag w 31) (fld w 21 4) (fld w 17 4) (fld w 13 4) (fld w 9 4))
  | 1 => leaf true (.cpyL2g (flag w 31) (fld w 21 4) (fld w 17 4) (fld w 13 4) (fld w 9 4))
  | 2 => leaf true (.cpyG2g (flag w 31) (fld w 21 4) (fld w 17 4) (fld w 13 4) (fld w 9 4))
  | 4 => leaf true (.cpyrL (flag w 31) (fld w 21 4) (fld w 17 4) (fld w 13 4) (fld w 9 4))
  | 5 => leaf true (.cpyrG (flag w 31) (fld w 21 4) (fld w 17 4) (fld w 13 4) (fld w 9 4))
  | 6 => leaf true (.cpywL (flag w 31) (fld w 21 4) (fld w 17 4) (fld w 13 4) (fld w 9 4))
  | 7 => leaf true (.cpywG (flag w 31) (fld w 21 4) (fld w 17 4) (fld w 13 4) (fld w 9 4))
  | _ => .error .unassigned

/-- Major 0x33: CRED_ADD, CRED_MAX, CRED_ADD_SLICE, CRED_MAX_SLICE. -/
noncomputable def decMajor33 (w : Nat) : Except DecodeErr Instr :=
  match seg w 0 9 with
  | 0 => leaf true (.credAdd (flag w 31) (fld w 21 4) (fld w 17 4) (fld w 13 4) (fld w 9 4))
  | 1 => leaf true (.credMax (flag w 31) (fld w 21 4) (fld w 17 4) (fld w 13 4) (fld w 9 4))
  | 2 => leaf true (.credAddSlice (flag w 31) (fld w 21 4) (fld w 17 4) (fld w 13 4) (fld w 9 4))
  | 3 => leaf true (.credMaxSlice (flag w 31) (fld w 21 4) (fld w 17 4) (fld w 13 4) (fld w 9 4))
  | _ => .error .unassigned

/-- Major 0x34: CATOM_ADD, CATOM_AND, CATOM_OR, CATOM_XOR, CATOM_MIN, CATOM_MAX …. -/
noncomputable def decMajor34 (w : Nat) : Except DecodeErr Instr :=
  match seg w 0 4 with
  | 0 => leaf (seg w 5 4 == 0) (.catomAdd (flag w 31) (fld w 21 4) (fld w 17 4) (fld w 13 4) (fld w 9 4) (fld w 4 1))
  | 1 => leaf (seg w 5 4 == 0) (.catomAnd (flag w 31) (fld w 21 4) (fld w 17 4) (fld w 13 4) (fld w 9 4) (fld w 4 1))
  | 2 => leaf (seg w 5 4 == 0) (.catomOr (flag w 31) (fld w 21 4) (fld w 17 4) (fld w 13 4) (fld w 9 4) (fld w 4 1))
  | 3 => leaf (seg w 5 4 == 0) (.catomXor (flag w 31) (fld w 21 4) (fld w 17 4) (fld w 13 4) (fld w 9 4) (fld w 4 1))
  | 4 => leaf (seg w 5 4 == 0) (.catomMin (flag w 31) (fld w 21 4) (fld w 17 4) (fld w 13 4) (fld w 9 4) (fld w 4 1))
  | 5 => leaf (seg w 5 4 == 0) (.catomMax (flag w 31) (fld w 21 4) (fld w 17 4) (fld w 13 4) (fld w 9 4) (fld w 4 1))
  | 6 => leaf (seg w 5 4 == 0) (.catomMinu (flag w 31) (fld w 21 4) (fld w 17 4) (fld w 13 4) (fld w 9 4) (fld w 4 1))
  | 7 => leaf (seg w 5 4 == 0) (.catomMaxu (flag w 31) (fld w 21 4) (fld w 17 4) (fld w 13 4) (fld w 9 4) (fld w 4 1))
  | 8 => leaf (seg w 5 4 == 0) (.catomSwap (flag w 31) (fld w 21 4) (fld w 17 4) (fld w 13 4) (fld w 9 4) (fld w 4 1))
  | 9 => leaf (seg w 4 5 == 0) (.catomFadd (flag w 31) (fld w 21 4) (fld w 17 4) (fld w 13 4) (fld w 9 4))
  | 10 => leaf (seg w 5 4 == 0) (.catomCas (flag w 31) (fld w 21 4) (fld w 17 4) (fld w 13 4) (fld w 9 4) (fld w 4 1))
  | _ => .error .unassigned

/-- Major 0x35: CMC, CSTOR_L, CSTOR_G. -/
noncomputable def decMajor35 (w : Nat) : Except DecodeErr Instr :=
  match seg w 0 9 with
  | 0 => leaf true (.cmc (flag w 31) (fld w 21 4) (fld w 17 4) (fld w 13 4) (fld w 9 4))
  | 1 => leaf true (.cstorL (flag w 31) (fld w 21 4) (fld w 17 4) (fld w 13 4) (fld w 9 4))
  | 2 => leaf true (.cstorG (flag w 31) (fld w 21 4) (fld w 17 4) (fld w 13 4) (fld w 9 4))
  | _ => .error .unassigned

/-- Major 0x36: CDEC, CDTAB. -/
noncomputable def decMajor36 (w : Nat) : Except DecodeErr Instr :=
  match seg w 0 9 with
  | 0 => leaf true (.cdec (flag w 31) (fld w 21 4) (fld w 17 4) (fld w 13 4) (fld w 9 4))
  | 1 => leaf (seg w 13 4 == 0) (.cdtab (flag w 31) (fld w 21 4) (fld w 17 4) (fld w 9 4))
  | _ => .error .unassigned

/-- Major 0x37: SCHADV, SCHRD, CSEAL, CWAITN. -/
noncomputable def decMajor37 (w : Nat) : Except DecodeErr Instr :=
  match seg w 13 4 with
  | 0 => leaf (seg w 17 8 == 0) (.schadv (flag w 31) (fld w 0 13))
  | 1 => leaf (seg w 17 4 == 0 && seg w 0 13 == 0) (.schrd (flag w 31) (fld w 21 4))
  | 2 => leaf (seg w 17 4 == 0 && seg w 0 13 == 0) (.cseal (flag w 31) (fld w 21 4))
  | 3 => leaf (seg w 17 8 == 0) (.cwaitn (flag w 31) (fld w 0 13))
  | _ => .error .unassigned

/-- Major 0x38: NSEND_G, NSEND_L. -/
noncomputable def decMajor38 (w : Nat) : Except DecodeErr Instr :=
  match seg w 0 9 with
  | 0 => leaf true (.nsendG (flag w 31) (fld w 21 4) (fld w 17 4) (fld w 13 4) (fld w 9 4))
  | 1 => leaf true (.nsendL (flag w 31) (fld w 21 4) (fld w 17 4) (fld w 13 4) (fld w 9 4))
  | _ => .error .unassigned

/-- Major 0x39: NPOST. -/
noncomputable def decMajor39 (w : Nat) : Except DecodeErr Instr :=
  leaf (seg w 21 4 == 0 && seg w 13 4 == 0 && seg w 8 1 == 0) (.npost (flag w 31) (fld w 17 4) (fld w 9 4) (fld w 0 8))

/-- Major 0x3A: NRQSTAT, GRPSET, GRPSET_OWN, GRPGET. -/
noncomputable def decMajor3A (w : Nat) : Except DecodeErr Instr :=
  match seg w 13 4 with
  | 0 => leaf (seg w 17 4 == 0 && seg w 8 5 == 0) (.nrqstat (flag w 31) (fld w 21 4) (fld w 0 8))
  | 1 => leaf (seg w 0 13 == 0) (.grpset (flag w 31) (fld w 21 4) (fld w 17 4))
  | 2 => leaf (seg w 0 13 == 0) (.grpsetOwn (flag w 31) (fld w 21 4) (fld w 17 4))
  | 3 => leaf (seg w 0 13 == 0) (.grpget (flag w 31) (fld w 21 4) (fld w 17 4))
  | _ => .error .unassigned

/-- Major 0x3B: RTGATE, RTFLUSH, RTCFG, RTBUF. -/
noncomputable def decMajor3B (w : Nat) : Except DecodeErr Instr :=
  match seg w 5 8 with
  | 0 => leaf (seg w 21 4 == 0 && seg w 0 5 == 0) (.rtgate (flag w 31) (fld w 17 4) (fld w 13 4))
  | 1 => leaf (seg w 13 12 == 0 && seg w 0 5 == 0) (.rtflush (flag w 31))
  | 2 => leaf (seg w 21 4 == 0 && seg w 13 4 == 0 && seg w 0 5 == 0) (.rtcfg (flag w 31) (fld w 17 4))
  | 3 => leaf (seg w 13 8 == 0 && seg w 0 5 == 0) (.rtbuf (flag w 31) (fld w 21 4))
  | _ => .error .unassigned

/-- Major 0x3C: ERTSET, ERTPIN, ERTUNPIN, ERTQ. -/
noncomputable def decMajor3C (w : Nat) : Except DecodeErr Instr :=
  match seg w 5 8 with
  | 0 => leaf (seg w 21 4 == 0 && seg w 0 5 == 0) (.ertset (flag w 31) (fld w 17 4) (fld w 13 4))
  | 1 => leaf (seg w 21 4 == 0 && seg w 13 4 == 0 && seg w 0 5 == 0) (.ertpin (flag w 31) (fld w 17 4))
  | 2 => leaf (seg w 21 4 == 0 && seg w 13 4 == 0 && seg w 0 5 == 0) (.ertunpin (flag w 31) (fld w 17 4))
  | 3 => leaf (seg w 13 4 == 0 && seg w 0 5 == 0) (.ertq (flag w 31) (fld w 21 4) (fld w 17 4))
  | _ => .error .unassigned

/-- Major 0x3D: SYSC, BRK, TRET. -/
noncomputable def decMajor3D (w : Nat) : Except DecodeErr Instr :=
  match seg w 13 4 with
  | 0 => leaf (seg w 17 8 == 0) (.sysc (flag w 31) (fld w 0 13))
  | 1 => leaf (seg w 17 8 == 0) (.brk (flag w 31) (fld w 0 13))
  | 2 => leaf (seg w 31 1 == 1 && seg w 17 8 == 0 && seg w 0 13 == 0) .tret
  | _ => .error .unassigned

/-- Major 0x3E: TLBGEN, TLBPROBE, FLTRES, CTXSAVE, CTXREST. -/
noncomputable def decMajor3E (w : Nat) : Except DecodeErr Instr :=
  match seg w 5 8 with
  | 0 => leaf (seg w 21 4 == 0 && seg w 13 4 == 0 && seg w 0 5 == 0) (.tlbgen (flag w 31) (fld w 17 4))
  | 1 => leaf (seg w 13 4 == 0 && seg w 0 5 == 0) (.tlbprobe (flag w 31) (fld w 21 4) (fld w 17 4))
  | 2 => leaf (seg w 21 4 == 0 && seg w 13 4 == 0 && seg w 0 5 == 0) (.fltres (flag w 31) (fld w 17 4))
  | 3 => leaf (seg w 21 4 == 0 && seg w 13 4 == 0 && seg w 0 5 == 0) (.ctxsave (flag w 31) (fld w 17 4))
  | 4 => leaf (seg w 21 4 == 0 && seg w 13 4 == 0 && seg w 0 5 == 0) (.ctxrest (flag w 31) (fld w 17 4))
  | _ => .error .unassigned

/-- Major 0x3F: HX_IMM, HX_RND, HX_REUSE, HX_NT, HX_PRI. -/
noncomputable def decMajor3F (w : Nat) : Except DecodeErr Instr :=
  match seg w 21 4 with
  | 0 => leaf (seg w 31 1 == 0) (.hxImm (fld w 0 21))
  | 1 => leaf (seg w 31 1 == 0 && seg w 3 18 == 0) (.hxRnd (fld w 0 3))
  | 2 => leaf (seg w 31 1 == 0 && seg w 3 18 == 0) (.hxReuse (fld w 0 3))
  | 3 => leaf (seg w 31 1 == 0 && seg w 0 21 == 1) .hxNt
  | 4 => leaf (seg w 31 1 == 0 && seg w 1 20 == 0) (.hxPri (fld w 0 1))
  | _ => .error .unassigned

/-- The instruction in a word read as a number. -/
noncomputable def decodeNat (w : Nat) : Except DecodeErr Instr :=
  match seg w 25 6 with
  | 1 => decMajor01 w
  | 2 => decMajor02 w
  | 3 => decMajor03 w
  | 4 => decMajor04 w
  | 5 => decMajor05 w
  | 6 => decMajor06 w
  | 7 => decMajor07 w
  | 8 => decMajor08 w
  | 9 => decMajor09 w
  | 10 => decMajor0A w
  | 11 => decMajor0B w
  | 12 => decMajor0C w
  | 16 => decMajor10 w
  | 17 => decMajor11 w
  | 18 => decMajor12 w
  | 19 => decMajor13 w
  | 20 => decMajor14 w
  | 21 => decMajor15 w
  | 22 => decMajor16 w
  | 23 => decMajor17 w
  | 24 => decMajor18 w
  | 25 => decMajor19 w
  | 26 => decMajor1A w
  | 27 => decMajor1B w
  | 28 => decMajor1C w
  | 29 => decMajor1D w
  | 30 => decMajor1E w
  | 31 => decMajor1F w
  | 32 => decMajor20 w
  | 33 => decMajor21 w
  | 34 => decMajor22 w
  | 35 => decMajor23 w
  | 36 => decMajor24 w
  | 37 => decMajor25 w
  | 38 => decMajor26 w
  | 39 => decMajor27 w
  | 40 => decMajor28 w
  | 41 => decMajor29 w
  | 44 => decMajor2C w
  | 45 => decMajor2D w
  | 46 => decMajor2E w
  | 47 => decMajor2F w
  | 50 => decMajor32 w
  | 51 => decMajor33 w
  | 52 => decMajor34 w
  | 53 => decMajor35 w
  | 54 => decMajor36 w
  | 55 => decMajor37 w
  | 56 => decMajor38 w
  | 57 => decMajor39 w
  | 58 => decMajor3A w
  | 59 => decMajor3B w
  | 60 => decMajor3C w
  | 61 => decMajor3D w
  | 62 => decMajor3E w
  | 63 => decMajor3F w
  | _ => .error .reservedMajor

/-- The instruction in a word (03 R42). -/
noncomputable def decode (w : W32) : Except DecodeErr Instr := decodeNat w.toNat

/-- The number held by little-endian bytes (00 R2). -/
def leNat : List Byte → Nat
  | [] => 0
  | b :: bs => b.toNat + 256 * leNat bs

/-- The instruction at the head of a run of bytes, with the rest (03 R42: one word, stored little-endian). -/
noncomputable def decodeBytes (bs : List Byte) : Except DecodeErr (Instr × List Byte) :=
  match bs with
  | a :: b :: c :: d :: rest => (decodeNat (leNat [a, b, c, d])).map (fun i => (i, rest))
  | _ => .error .truncated

/-- The `n` lowest bytes of a number, little-endian. -/
def natLe : Nat → Nat → List Byte
  | 0, _ => []
  | n + 1, v => BitVec.ofNat 8 v :: natLe n (v / 256)

/-- The instruction that the decoder reads from an instruction whose bits are `w`, numbered as the opcode table
numbers them. Every word of this hardware has 32 bits. -/
noncomputable def decodeTableWord (nbits w : Nat) : Option Instr :=
  match decodeBytes (natLe 4 (w % 2 ^ nbits)) with
  | .ok (i, _) => some i
  | .error _ => none

/-- The switch marker as a number. -/
def b2n (b : Bool) : Nat := if b then 1 else 0

/-- The rows that have an encoding: every one but the steps of the agents. -/
def Instr.encoded (i : Instr) : Bool :=
  match i with
  | .add _ _ _ _ => true
  | .addW _ _ _ _ => true
  | .sub _ _ _ _ => true
  | .subW _ _ _ _ => true
  | .and _ _ _ _ => true
  | .andW _ _ _ _ => true
  | .or _ _ _ _ => true
  | .orW _ _ _ _ => true
  | .xor _ _ _ _ => true
  | .xorW _ _ _ _ => true
  | .andn _ _ _ _ => true
  | .andnW _ _ _ _ => true
  | .shl _ _ _ _ => true
  | .shlW _ _ _ _ => true
  | .shr _ _ _ _ => true
  | .shrW _ _ _ _ => true
  | .sar _ _ _ _ => true
  | .sarW _ _ _ _ => true
  | .min _ _ _ _ => true
  | .minW _ _ _ _ => true
  | .max _ _ _ _ => true
  | .maxW _ _ _ _ => true
  | .minu _ _ _ _ => true
  | .minuW _ _ _ _ => true
  | .maxu _ _ _ _ => true
  | .maxuW _ _ _ _ => true
  | .mul _ _ _ _ => true
  | .mulW _ _ _ _ => true
  | .mulh _ _ _ _ => true
  | .mulhW _ _ _ _ => true
  | .mulhu _ _ _ _ => true
  | .mulhuW _ _ _ _ => true
  | .div _ _ _ _ => true
  | .divW _ _ _ _ => true
  | .divu _ _ _ _ => true
  | .divuW _ _ _ _ => true
  | .rem _ _ _ _ => true
  | .remW _ _ _ _ => true
  | .remu _ _ _ _ => true
  | .remuW _ _ _ _ => true
  | .slt _ _ _ _ => true
  | .sltW _ _ _ _ => true
  | .sltu _ _ _ _ => true
  | .sltuW _ _ _ _ => true
  | .seq _ _ _ _ => true
  | .seqW _ _ _ _ => true
  | .clz _ _ _ => true
  | .clzW _ _ _ => true
  | .ctz _ _ _ => true
  | .ctzW _ _ _ => true
  | .popc _ _ _ => true
  | .popcW _ _ _ => true
  | .sel _ _ _ _ _ => true
  | .selW _ _ _ _ _ => true
  | .addi _ _ _ _ => true
  | .andi _ _ _ _ => true
  | .ori _ _ _ _ => true
  | .xori _ _ _ _ => true
  | .shli _ _ _ _ => true
  | .shri _ _ _ _ => true
  | .sari _ _ _ _ => true
  | .slti _ _ _ _ => true
  | .sltui _ _ _ _ => true
  | .seqi _ _ _ _ => true
  | .muli _ _ _ _ => true
  | .lim _ _ _ => true
  | .limt _ _ _ => true
  | .lea _ _ _ _ _ => true
  | .bfx _ _ _ _ _ => true
  | .bfxS _ _ _ _ _ => true
  | .bfi _ _ _ _ _ => true
  | .beq _ _ _ _ => true
  | .bne _ _ _ _ => true
  | .blt _ _ _ _ => true
  | .bge _ _ _ _ => true
  | .bltu _ _ _ _ => true
  | .bgeu _ _ _ _ => true
  | .beqz _ _ _ => true
  | .bnez _ _ _ => true
  | .jump _ _ => true
  | .call _ _ => true
  | .nop _ => true
  | .endAct _ => true
  | .jr _ _ => true
  | .callr _ _ => true
  | .ret _ => true
  | .mfs _ _ _ => true
  | .mts _ _ _ => true
  | .hxImm _ => true
  | .hxRnd _ => true
  | .hxReuse _ => true
  | .hxNt => true
  | .hxPri _ => true
  | .send _ _ _ _ _ => true
  | .sendRq _ _ _ _ _ => true
  | .sendb _ _ _ _ => true
  | .sendbRq _ _ _ _ => true
  | .reply _ _ _ => true
  | .replyb _ _ => true
  | .migr _ => true
  | .migrx _ => true
  | .recvw _ _ => true
  | .homexy _ _ _ => true
  | .evarm _ _ _ => true
  | .evsend _ _ _ _ _ => true
  | .evread _ _ _ => true
  | .pushw _ _ => true
  | .popw _ _ => true
  | .steal _ => true
  | .dqlen _ _ => true
  | .launch _ _ _ => true
  | .kill _ _ => true
  | .evsig _ _ _ => true
  | .sgrp _ _ _ => true
  | .garrAnd _ _ _ _ => true
  | .garrOr _ _ _ _ => true
  | .garrAdd _ _ _ _ => true
  | .garrMaxu _ _ _ _ => true
  | .garrFmax _ _ _ _ => true
  | .garrFmin _ _ _ _ => true
  | .garrwAnd _ _ _ _ => true
  | .garrwOr _ _ _ _ => true
  | .garrwAdd _ _ _ _ => true
  | .garrwMaxu _ _ _ _ => true
  | .garrwFmax _ _ _ _ => true
  | .garrwFmin _ _ _ _ => true
  | .ldgB _ _ _ _ => true
  | .ldgBu _ _ _ _ => true
  | .ldgH _ _ _ _ => true
  | .ldgHu _ _ _ _ => true
  | .ldgW _ _ _ _ => true
  | .ldgWu _ _ _ _ => true
  | .ldgD _ _ _ _ => true
  | .ldgAcq _ _ _ _ => true
  | .stgB _ _ _ _ => true
  | .stgH _ _ _ _ => true
  | .stgW _ _ _ _ => true
  | .stgD _ _ _ _ => true
  | .stgRel _ _ _ _ => true
  | .ldgAcqW _ _ _ _ => true
  | .stgRelW _ _ _ _ => true
  | .pref _ _ _ => true
  | .ldlB _ _ _ _ => true
  | .ldlBu _ _ _ _ => true
  | .ldlH _ _ _ _ => true
  | .ldlHu _ _ _ _ => true
  | .ldlW _ _ _ _ => true
  | .ldlWu _ _ _ _ => true
  | .ldlD _ _ _ _ => true
  | .stlB _ _ _ _ => true
  | .stlH _ _ _ _ => true
  | .stlW _ _ _ _ => true
  | .stlD _ _ _ _ => true
  | .vldg _ _ _ _ _ => true
  | .vstg _ _ _ _ _ => true
  | .vldl _ _ _ _ _ => true
  | .vstl _ _ _ _ _ => true
  | .vldls _ _ _ _ _ => true
  | .vstls _ _ _ _ _ => true
  | .tldgF32 _ _ _ => true
  | .tldgBf16 _ _ _ => true
  | .tstgF32 _ _ _ => true
  | .tstgBf16 _ _ _ => true
  | .bmovG2l _ _ _ => true
  | .bmovL2g _ _ _ => true
  | .bfillG _ _ _ => true
  | .bfillL _ _ _ => true
  | .amogAdd _ _ _ _ _ => true
  | .amogAnd _ _ _ _ _ => true
  | .amogOr _ _ _ _ _ => true
  | .amogXor _ _ _ _ _ => true
  | .amogMin _ _ _ _ _ => true
  | .amogMax _ _ _ _ _ => true
  | .amogMinu _ _ _ _ _ => true
  | .amogMaxu _ _ _ _ _ => true
  | .amogSwap _ _ _ _ _ => true
  | .amogFadd _ _ _ _ => true
  | .amolAdd _ _ _ _ _ => true
  | .amolAnd _ _ _ _ _ => true
  | .amolOr _ _ _ _ _ => true
  | .amolXor _ _ _ _ _ => true
  | .amolMin _ _ _ _ _ => true
  | .amolMax _ _ _ _ _ => true
  | .amolMinu _ _ _ _ _ => true
  | .amolMaxu _ _ _ _ _ => true
  | .amolSwap _ _ _ _ _ => true
  | .amolFadd _ _ _ _ => true
  | .casg _ _ _ _ _ => true
  | .casl _ _ _ _ _ => true
  | .waitwG _ _ _ _ _ => true
  | .waitwL _ _ _ _ _ => true
  | .binit _ _ _ => true
  | .bexpect _ _ _ => true
  | .barrive _ _ => true
  | .bwait _ _ _ => true
  | .btest _ _ _ => true
  | .fence _ _ _ => true
  | .tlwait _ _ _ => true
  | .tlread _ _ _ => true
  | .vadd _ _ _ _ _ _ => true
  | .vsub _ _ _ _ _ _ => true
  | .vmul _ _ _ _ _ _ => true
  | .vdiv _ _ _ _ _ _ => true
  | .vmin _ _ _ _ _ _ => true
  | .vmax _ _ _ _ _ _ => true
  | .vfma _ _ _ _ _ _ => true
  | .vfms _ _ _ _ _ _ => true
  | .vfnma _ _ _ _ _ _ => true
  | .vabs _ _ _ _ _ => true
  | .vneg _ _ _ _ _ => true
  | .vsqrt _ _ _ _ _ => true
  | .vexp2 _ _ _ _ _ => true
  | .vlog2 _ _ _ _ _ => true
  | .viadd _ _ _ _ _ _ => true
  | .visub _ _ _ _ _ _ => true
  | .vimul _ _ _ _ _ _ => true
  | .vimulh _ _ _ _ _ _ => true
  | .vimin _ _ _ _ _ _ => true
  | .vimax _ _ _ _ _ _ => true
  | .vand _ _ _ _ _ _ => true
  | .vor _ _ _ _ _ _ => true
  | .vxor _ _ _ _ _ _ => true
  | .vshl _ _ _ _ _ _ => true
  | .vshr _ _ _ _ _ _ => true
  | .vsar _ _ _ _ _ _ => true
  | .vidot4 _ _ _ _ _ => true
  | .vcvt _ _ _ _ _ _ _ => true
  | .vquant _ _ _ _ _ _ _ _ => true
  | .vquantFix _ _ _ _ _ _ _ _ => true
  | .vdeq _ _ _ _ _ _ _ _ => true
  | .mand _ _ _ _ => true
  | .mor _ _ _ _ => true
  | .mnot _ _ _ => true
  | .vselm _ _ _ _ _ => true
  | .vperm _ _ _ _ _ => true
  | .vredAdd _ _ _ _ _ => true
  | .vredMax _ _ _ _ _ => true
  | .vredMin _ _ _ _ _ => true
  | .vscanAdd _ _ _ _ _ => true
  | .vcmp _ _ _ _ _ _ _ => true
  | .mpop _ _ _ _ => true
  | .vbcst _ _ _ _ => true
  | .vbcstH _ _ _ _ => true
  | .vbcstB _ _ _ _ => true
  | .vslide _ _ _ _ _ => true
  | .viota _ _ _ _ => true
  | .vgathl _ _ _ _ _ => true
  | .vscatl _ _ _ _ _ => true
  | .vdistIp _ _ _ _ _ => true
  | .vdistL2 _ _ _ _ _ => true
  | .vdistCos _ _ _ _ _ => true
  | .vbmax _ _ _ _ _ => true
  | .vscale _ _ _ _ _ => true
  | .vins _ _ _ _ _ => true
  | .vext _ _ _ _ _ => true
  | .rlins _ _ _ _ _ => true
  | .rlinsx _ _ _ _ _ => true
  | .rlprune _ _ _ _ _ => true
  | .rlmerge _ _ _ => true
  | .rlclr _ _ => true
  | .rlinit _ _ _ => true
  | .rlthr _ _ _ => true
  | .rllen _ _ _ => true
  | .rlget _ _ _ _ => true
  | .rlst _ _ _ => true
  | .rlld _ _ _ => true
  | .rlsend _ _ _ _ => true
  | .rlfloor _ _ _ => true
  | .mma _ _ _ _ _ _ _ _ _ => true
  | .mmag _ _ _ _ _ _ _ _ _ => true
  | .mmr _ _ _ _ _ _ _ => true
  | .mmrl _ _ _ _ _ _ _ => true
  | .mmz _ _ => true
  | .mmrank _ _ _ => true
  | .tilexy _ _ => true
  | .edgem _ _ => true
  | .sete _ _ _ => true
  | .gete _ _ _ => true
  | .cpyG2l _ _ _ _ _ => true
  | .cpyL2g _ _ _ _ _ => true
  | .cpyG2g _ _ _ _ _ => true
  | .cpyrL _ _ _ _ _ => true
  | .cpyrG _ _ _ _ _ => true
  | .cpywL _ _ _ _ _ => true
  | .cpywG _ _ _ _ _ => true
  | .credAdd _ _ _ _ _ => true
  | .credMax _ _ _ _ _ => true
  | .credAddSlice _ _ _ _ _ => true
  | .credMaxSlice _ _ _ _ _ => true
  | .catomAdd _ _ _ _ _ _ => true
  | .catomAnd _ _ _ _ _ _ => true
  | .catomOr _ _ _ _ _ _ => true
  | .catomXor _ _ _ _ _ _ => true
  | .catomMin _ _ _ _ _ _ => true
  | .catomMax _ _ _ _ _ _ => true
  | .catomMinu _ _ _ _ _ _ => true
  | .catomMaxu _ _ _ _ _ _ => true
  | .catomSwap _ _ _ _ _ _ => true
  | .catomFadd _ _ _ _ _ => true
  | .catomCas _ _ _ _ _ _ => true
  | .cmc _ _ _ _ _ => true
  | .cstorL _ _ _ _ _ => true
  | .cstorG _ _ _ _ _ => true
  | .cdec _ _ _ _ _ => true
  | .cdtab _ _ _ _ => true
  | .schadv _ _ => true
  | .schrd _ _ => true
  | .cseal _ _ => true
  | .cwaitn _ _ => true
  | .nsendG _ _ _ _ _ => true
  | .nsendL _ _ _ _ _ => true
  | .npost _ _ _ _ => true
  | .nrqstat _ _ _ => true
  | .grpset _ _ _ => true
  | .grpsetOwn _ _ _ => true
  | .grpget _ _ _ => true
  | .rtgate _ _ _ => true
  | .rtflush _ => true
  | .rtcfg _ _ => true
  | .rtbuf _ _ => true
  | .ertset _ _ _ => true
  | .ertpin _ _ => true
  | .ertunpin _ _ => true
  | .ertq _ _ _ => true
  | .sysc _ _ => true
  | .brk _ _ => true
  | .tret => true
  | .tlbgen _ _ => true
  | .tlbprobe _ _ _ => true
  | .fltres _ _ => true
  | .ctxsave _ _ => true
  | .ctxrest _ _ => true
  | .groupClose _ _ => false
  | .vectorPipeGrant _ => false
  | .admission _ => false
  | .placedOffer _ => false
  | .ioDieIngress _ => false
  | .bulkPacketArrival _ _ _ => false
  | .reassemblyTimeout _ _ => false
  | .admitMsg _ => false
  | .retry _ => false
  | .nack _ => false
  | .outboundOffer _ _ => false
  | .entryWordFill _ _ _ => false
  | .dispatch _ => false
  | .watchdog _ _ => false
  | .hostLaunchSubmit _ _ => false
  | .seedSend _ => false
  | .autoend _ => false
  | .hostKill _ => false
  | .scratchpadSave _ _ => false
  | .scratchpadRestore _ _ => false
  | .eventOp _ => false
  | .stealRequest _ => false
  | .stealAnswer _ => false
  | .groupArrival _ => false
  | .storeBufferDrain _ _ => false
  | .memoryAgentRequest _ => false
  | .watchPeriodic _ _ => false
  | .waitwTimeout _ _ => false
  | .recvwTimeout _ _ => false
  | .walkComplete _ _ => false
  | .contextRestore _ _ => false
  | .tileStep _ => false
  | .matrixReadout _ => false
  | .matrixListReadout _ => false
  | .slotReset _ => false
  | .gatherLatchFill _ => false
  | .gbTileArrival _ => false
  | .completionActions _ _ _ => false
  | .copyExecute _ => false
  | .remoteCopyExecute _ => false
  | .credExecute _ => false
  | .reductionContribution _ => false
  | .catomExecute _ => false
  | .cmcExecute _ => false
  | .multicastMemberWrite _ => false
  | .multicastResponse _ => false
  | .multicastResponseTimeout _ => false
  | .cstorExecute _ => false
  | .nvmeCompletion _ _ _ => false
  | .cdtabExecute _ => false
  | .cdecExecute _ => false
  | .remoteTransaction _ => false
  | .transactionReissue _ => false
  | .fabricUnreachable _ => false
  | .flitArrival _ _ => false
  | .healthAgeing => false
  | .portRetrainComplete _ _ => false
  | .netSendExecute _ => false
  | .ueOmfPacket _ => false
  | .ueSendData _ => false
  | .ueAcknowledgement _ => false
  | .ueReceiverNotReady _ => false
  | .ueClose _ => false
  | .ueCloseAnswer _ => false
  | .ueRetransmit _ => false
  | .ueRnrReoffer _ => false
  | .ueNobufTimeout _ => false
  | .routeGateExecute _ => false
  | .sendListTimeout _ _ => false
  | .routeFlushExecute _ => false
  | .ingressTransfer _ => false
  | .bufferTimeout _ _ => false
  | .fetchComplete _ _ => false
  | .fetchFail _ _ => false
  | .freqAgeing _ => false
  | .dbgHalt _ => false
  | .dbgDrain _ _ => false
  | .drainComplete _ => false
  | .hostApertureAccess _ _ _ _ => false
  | .watchTableArm _ _ => false
  | .hostRegisterWrite _ => false
  | .driveGrant _ _ => false
  | .driveRevoke _ => false
  | .deviceReset => false
  | .powerOn _ => false
  | .recoveryImageWrite _ _ => false
  | .spdmGetMeasurements _ => false
  | .thermalLimit _ => false
  | .monitorSample _ _ _ => false
  | .illegalWord _ _ => false
  | .linkLoss _ => false
  | .switchTierDeparture _ => false
  | .temperatureFallsBack _ => false
  | .powerLoss _ => false

/-! The word of each row as a number, from its fields (03 R52, R53 and the tables of the class chapters). -/
def encAdd (sw : Bool) (d : BitVec 4) (a : BitVec 4) (b : BitVec 4) : Nat := b2n sw * 2147483648 + d.toNat * 2097152 + a.toNat * 131072 + b.toNat * 8192 + 33554432
def encAddW (sw : Bool) (d : BitVec 4) (a : BitVec 4) (b : BitVec 4) : Nat := b2n sw * 2147483648 + d.toNat * 2097152 + a.toNat * 131072 + b.toNat * 8192 + 67108864
def encSub (sw : Bool) (d : BitVec 4) (a : BitVec 4) (b : BitVec 4) : Nat := b2n sw * 2147483648 + d.toNat * 2097152 + a.toNat * 131072 + b.toNat * 8192 + 33554464
def encSubW (sw : Bool) (d : BitVec 4) (a : BitVec 4) (b : BitVec 4) : Nat := b2n sw * 2147483648 + d.toNat * 2097152 + a.toNat * 131072 + b.toNat * 8192 + 67108896
def encAnd (sw : Bool) (d : BitVec 4) (a : BitVec 4) (b : BitVec 4) : Nat := b2n sw * 2147483648 + d.toNat * 2097152 + a.toNat * 131072 + b.toNat * 8192 + 33554496
def encAndW (sw : Bool) (d : BitVec 4) (a : BitVec 4) (b : BitVec 4) : Nat := b2n sw * 2147483648 + d.toNat * 2097152 + a.toNat * 131072 + b.toNat * 8192 + 67108928
def encOr (sw : Bool) (d : BitVec 4) (a : BitVec 4) (b : BitVec 4) : Nat := b2n sw * 2147483648 + d.toNat * 2097152 + a.toNat * 131072 + b.toNat * 8192 + 33554528
def encOrW (sw : Bool) (d : BitVec 4) (a : BitVec 4) (b : BitVec 4) : Nat := b2n sw * 2147483648 + d.toNat * 2097152 + a.toNat * 131072 + b.toNat * 8192 + 67108960
def encXor (sw : Bool) (d : BitVec 4) (a : BitVec 4) (b : BitVec 4) : Nat := b2n sw * 2147483648 + d.toNat * 2097152 + a.toNat * 131072 + b.toNat * 8192 + 33554560
def encXorW (sw : Bool) (d : BitVec 4) (a : BitVec 4) (b : BitVec 4) : Nat := b2n sw * 2147483648 + d.toNat * 2097152 + a.toNat * 131072 + b.toNat * 8192 + 67108992
def encAndn (sw : Bool) (d : BitVec 4) (a : BitVec 4) (b : BitVec 4) : Nat := b2n sw * 2147483648 + d.toNat * 2097152 + a.toNat * 131072 + b.toNat * 8192 + 33554592
def encAndnW (sw : Bool) (d : BitVec 4) (a : BitVec 4) (b : BitVec 4) : Nat := b2n sw * 2147483648 + d.toNat * 2097152 + a.toNat * 131072 + b.toNat * 8192 + 67109024
def encShl (sw : Bool) (d : BitVec 4) (a : BitVec 4) (b : BitVec 4) : Nat := b2n sw * 2147483648 + d.toNat * 2097152 + a.toNat * 131072 + b.toNat * 8192 + 33554624
def encShlW (sw : Bool) (d : BitVec 4) (a : BitVec 4) (b : BitVec 4) : Nat := b2n sw * 2147483648 + d.toNat * 2097152 + a.toNat * 131072 + b.toNat * 8192 + 67109056
def encShr (sw : Bool) (d : BitVec 4) (a : BitVec 4) (b : BitVec 4) : Nat := b2n sw * 2147483648 + d.toNat * 2097152 + a.toNat * 131072 + b.toNat * 8192 + 33554656
def encShrW (sw : Bool) (d : BitVec 4) (a : BitVec 4) (b : BitVec 4) : Nat := b2n sw * 2147483648 + d.toNat * 2097152 + a.toNat * 131072 + b.toNat * 8192 + 67109088
def encSar (sw : Bool) (d : BitVec 4) (a : BitVec 4) (b : BitVec 4) : Nat := b2n sw * 2147483648 + d.toNat * 2097152 + a.toNat * 131072 + b.toNat * 8192 + 33554688
def encSarW (sw : Bool) (d : BitVec 4) (a : BitVec 4) (b : BitVec 4) : Nat := b2n sw * 2147483648 + d.toNat * 2097152 + a.toNat * 131072 + b.toNat * 8192 + 67109120
def encMin (sw : Bool) (d : BitVec 4) (a : BitVec 4) (b : BitVec 4) : Nat := b2n sw * 2147483648 + d.toNat * 2097152 + a.toNat * 131072 + b.toNat * 8192 + 33554720
def encMinW (sw : Bool) (d : BitVec 4) (a : BitVec 4) (b : BitVec 4) : Nat := b2n sw * 2147483648 + d.toNat * 2097152 + a.toNat * 131072 + b.toNat * 8192 + 67109152
def encMax (sw : Bool) (d : BitVec 4) (a : BitVec 4) (b : BitVec 4) : Nat := b2n sw * 2147483648 + d.toNat * 2097152 + a.toNat * 131072 + b.toNat * 8192 + 33554752
def encMaxW (sw : Bool) (d : BitVec 4) (a : BitVec 4) (b : BitVec 4) : Nat := b2n sw * 2147483648 + d.toNat * 2097152 + a.toNat * 131072 + b.toNat * 8192 + 67109184
def encMinu (sw : Bool) (d : BitVec 4) (a : BitVec 4) (b : BitVec 4) : Nat := b2n sw * 2147483648 + d.toNat * 2097152 + a.toNat * 131072 + b.toNat * 8192 + 33554784
def encMinuW (sw : Bool) (d : BitVec 4) (a : BitVec 4) (b : BitVec 4) : Nat := b2n sw * 2147483648 + d.toNat * 2097152 + a.toNat * 131072 + b.toNat * 8192 + 67109216
def encMaxu (sw : Bool) (d : BitVec 4) (a : BitVec 4) (b : BitVec 4) : Nat := b2n sw * 2147483648 + d.toNat * 2097152 + a.toNat * 131072 + b.toNat * 8192 + 33554816
def encMaxuW (sw : Bool) (d : BitVec 4) (a : BitVec 4) (b : BitVec 4) : Nat := b2n sw * 2147483648 + d.toNat * 2097152 + a.toNat * 131072 + b.toNat * 8192 + 67109248
def encMul (sw : Bool) (d : BitVec 4) (a : BitVec 4) (b : BitVec 4) : Nat := b2n sw * 2147483648 + d.toNat * 2097152 + a.toNat * 131072 + b.toNat * 8192 + 33554848
def encMulW (sw : Bool) (d : BitVec 4) (a : BitVec 4) (b : BitVec 4) : Nat := b2n sw * 2147483648 + d.toNat * 2097152 + a.toNat * 131072 + b.toNat * 8192 + 67109280
def encMulh (sw : Bool) (d : BitVec 4) (a : BitVec 4) (b : BitVec 4) : Nat := b2n sw * 2147483648 + d.toNat * 2097152 + a.toNat * 131072 + b.toNat * 8192 + 33554880
def encMulhW (sw : Bool) (d : BitVec 4) (a : BitVec 4) (b : BitVec 4) : Nat := b2n sw * 2147483648 + d.toNat * 2097152 + a.toNat * 131072 + b.toNat * 8192 + 67109312
def encMulhu (sw : Bool) (d : BitVec 4) (a : BitVec 4) (b : BitVec 4) : Nat := b2n sw * 2147483648 + d.toNat * 2097152 + a.toNat * 131072 + b.toNat * 8192 + 33554912
def encMulhuW (sw : Bool) (d : BitVec 4) (a : BitVec 4) (b : BitVec 4) : Nat := b2n sw * 2147483648 + d.toNat * 2097152 + a.toNat * 131072 + b.toNat * 8192 + 67109344
def encDiv (sw : Bool) (d : BitVec 4) (a : BitVec 4) (b : BitVec 4) : Nat := b2n sw * 2147483648 + d.toNat * 2097152 + a.toNat * 131072 + b.toNat * 8192 + 33554944
def encDivW (sw : Bool) (d : BitVec 4) (a : BitVec 4) (b : BitVec 4) : Nat := b2n sw * 2147483648 + d.toNat * 2097152 + a.toNat * 131072 + b.toNat * 8192 + 67109376
def encDivu (sw : Bool) (d : BitVec 4) (a : BitVec 4) (b : BitVec 4) : Nat := b2n sw * 2147483648 + d.toNat * 2097152 + a.toNat * 131072 + b.toNat * 8192 + 33554976
def encDivuW (sw : Bool) (d : BitVec 4) (a : BitVec 4) (b : BitVec 4) : Nat := b2n sw * 2147483648 + d.toNat * 2097152 + a.toNat * 131072 + b.toNat * 8192 + 67109408
def encRem (sw : Bool) (d : BitVec 4) (a : BitVec 4) (b : BitVec 4) : Nat := b2n sw * 2147483648 + d.toNat * 2097152 + a.toNat * 131072 + b.toNat * 8192 + 33555008
def encRemW (sw : Bool) (d : BitVec 4) (a : BitVec 4) (b : BitVec 4) : Nat := b2n sw * 2147483648 + d.toNat * 2097152 + a.toNat * 131072 + b.toNat * 8192 + 67109440
def encRemu (sw : Bool) (d : BitVec 4) (a : BitVec 4) (b : BitVec 4) : Nat := b2n sw * 2147483648 + d.toNat * 2097152 + a.toNat * 131072 + b.toNat * 8192 + 33555040
def encRemuW (sw : Bool) (d : BitVec 4) (a : BitVec 4) (b : BitVec 4) : Nat := b2n sw * 2147483648 + d.toNat * 2097152 + a.toNat * 131072 + b.toNat * 8192 + 67109472
def encSlt (sw : Bool) (d : BitVec 4) (a : BitVec 4) (b : BitVec 4) : Nat := b2n sw * 2147483648 + d.toNat * 2097152 + a.toNat * 131072 + b.toNat * 8192 + 33555072
def encSltW (sw : Bool) (d : BitVec 4) (a : BitVec 4) (b : BitVec 4) : Nat := b2n sw * 2147483648 + d.toNat * 2097152 + a.toNat * 131072 + b.toNat * 8192 + 67109504
def encSltu (sw : Bool) (d : BitVec 4) (a : BitVec 4) (b : BitVec 4) : Nat := b2n sw * 2147483648 + d.toNat * 2097152 + a.toNat * 131072 + b.toNat * 8192 + 33555104
def encSltuW (sw : Bool) (d : BitVec 4) (a : BitVec 4) (b : BitVec 4) : Nat := b2n sw * 2147483648 + d.toNat * 2097152 + a.toNat * 131072 + b.toNat * 8192 + 67109536
def encSeq (sw : Bool) (d : BitVec 4) (a : BitVec 4) (b : BitVec 4) : Nat := b2n sw * 2147483648 + d.toNat * 2097152 + a.toNat * 131072 + b.toNat * 8192 + 33555136
def encSeqW (sw : Bool) (d : BitVec 4) (a : BitVec 4) (b : BitVec 4) : Nat := b2n sw * 2147483648 + d.toNat * 2097152 + a.toNat * 131072 + b.toNat * 8192 + 67109568
def encClz (sw : Bool) (d : BitVec 4) (a : BitVec 4) : Nat := b2n sw * 2147483648 + d.toNat * 2097152 + a.toNat * 131072 + 33555168
def encClzW (sw : Bool) (d : BitVec 4) (a : BitVec 4) : Nat := b2n sw * 2147483648 + d.toNat * 2097152 + a.toNat * 131072 + 67109600
def encCtz (sw : Bool) (d : BitVec 4) (a : BitVec 4) : Nat := b2n sw * 2147483648 + d.toNat * 2097152 + a.toNat * 131072 + 33555200
def encCtzW (sw : Bool) (d : BitVec 4) (a : BitVec 4) : Nat := b2n sw * 2147483648 + d.toNat * 2097152 + a.toNat * 131072 + 67109632
def encPopc (sw : Bool) (d : BitVec 4) (a : BitVec 4) : Nat := b2n sw * 2147483648 + d.toNat * 2097152 + a.toNat * 131072 + 33555232
def encPopcW (sw : Bool) (d : BitVec 4) (a : BitVec 4) : Nat := b2n sw * 2147483648 + d.toNat * 2097152 + a.toNat * 131072 + 67109664
def encSel (sw : Bool) (d : BitVec 4) (a : BitVec 4) (b : BitVec 4) (c : BitVec 4) : Nat := b2n sw * 2147483648 + d.toNat * 2097152 + a.toNat * 131072 + b.toNat * 8192 + c.toNat + 33555264
def encSelW (sw : Bool) (d : BitVec 4) (a : BitVec 4) (b : BitVec 4) (c : BitVec 4) : Nat := b2n sw * 2147483648 + d.toNat * 2097152 + a.toNat * 131072 + b.toNat * 8192 + c.toNat + 67109696
def encAddi (sw : Bool) (d : BitVec 4) (a : BitVec 4) (imm : BitVec 13) : Nat := b2n sw * 2147483648 + d.toNat * 2097152 + a.toNat * 131072 + imm.toNat + 100663296
def encAndi (sw : Bool) (d : BitVec 4) (a : BitVec 4) (imm : BitVec 13) : Nat := b2n sw * 2147483648 + d.toNat * 2097152 + a.toNat * 131072 + imm.toNat + 100671488
def encOri (sw : Bool) (d : BitVec 4) (a : BitVec 4) (imm : BitVec 13) : Nat := b2n sw * 2147483648 + d.toNat * 2097152 + a.toNat * 131072 + imm.toNat + 100679680
def encXori (sw : Bool) (d : BitVec 4) (a : BitVec 4) (imm : BitVec 13) : Nat := b2n sw * 2147483648 + d.toNat * 2097152 + a.toNat * 131072 + imm.toNat + 100687872
def encShli (sw : Bool) (d : BitVec 4) (a : BitVec 4) (imm : BitVec 13) : Nat := b2n sw * 2147483648 + d.toNat * 2097152 + a.toNat * 131072 + imm.toNat + 100696064
def encShri (sw : Bool) (d : BitVec 4) (a : BitVec 4) (imm : BitVec 13) : Nat := b2n sw * 2147483648 + d.toNat * 2097152 + a.toNat * 131072 + imm.toNat + 100704256
def encSari (sw : Bool) (d : BitVec 4) (a : BitVec 4) (imm : BitVec 13) : Nat := b2n sw * 2147483648 + d.toNat * 2097152 + a.toNat * 131072 + imm.toNat + 100712448
def encSlti (sw : Bool) (d : BitVec 4) (a : BitVec 4) (imm : BitVec 13) : Nat := b2n sw * 2147483648 + d.toNat * 2097152 + a.toNat * 131072 + imm.toNat + 100720640
def encSltui (sw : Bool) (d : BitVec 4) (a : BitVec 4) (imm : BitVec 13) : Nat := b2n sw * 2147483648 + d.toNat * 2097152 + a.toNat * 131072 + imm.toNat + 100728832
def encSeqi (sw : Bool) (d : BitVec 4) (a : BitVec 4) (imm : BitVec 13) : Nat := b2n sw * 2147483648 + d.toNat * 2097152 + a.toNat * 131072 + imm.toNat + 100737024
def encMuli (sw : Bool) (d : BitVec 4) (a : BitVec 4) (imm : BitVec 13) : Nat := b2n sw * 2147483648 + d.toNat * 2097152 + a.toNat * 131072 + imm.toNat + 100745216
def encLim (sw : Bool) (d : BitVec 4) (imm : BitVec 21) : Nat := b2n sw * 2147483648 + d.toNat * 2097152 + imm.toNat + 134217728
def encLimt (sw : Bool) (d : BitVec 4) (imm : BitVec 21) : Nat := b2n sw * 2147483648 + d.toNat * 2097152 + imm.toNat + 167772160
def encLea (sw : Bool) (d : BitVec 4) (a : BitVec 4) (b : BitVec 4) (h : BitVec 5) : Nat := b2n sw * 2147483648 + d.toNat * 2097152 + a.toNat * 131072 + b.toNat * 8192 + h.toNat + 201326592
def encBfx (sw : Bool) (d : BitVec 4) (a : BitVec 4) (l : BitVec 6) (p : BitVec 6) : Nat := b2n sw * 2147483648 + d.toNat * 2097152 + a.toNat * 131072 + l.toNat * 64 + p.toNat + 234881024
def encBfxS (sw : Bool) (d : BitVec 4) (a : BitVec 4) (l : BitVec 6) (p : BitVec 6) : Nat := b2n sw * 2147483648 + d.toNat * 2097152 + a.toNat * 131072 + l.toNat * 64 + p.toNat + 234889216
def encBfi (sw : Bool) (d : BitVec 4) (a : BitVec 4) (l : BitVec 6) (p : BitVec 6) : Nat := b2n sw * 2147483648 + d.toNat * 2097152 + a.toNat * 131072 + l.toNat * 64 + p.toNat + 234897408
def encBeq (sw : Bool) (a : BitVec 4) (b : BitVec 4) (o : BitVec 14) : Nat := b2n sw * 2147483648 + a.toNat * 262144 + b.toNat * 16384 + o.toNat + 268435456
def encBne (sw : Bool) (a : BitVec 4) (b : BitVec 4) (o : BitVec 14) : Nat := b2n sw * 2147483648 + a.toNat * 262144 + b.toNat * 16384 + o.toNat + 272629760
def encBlt (sw : Bool) (a : BitVec 4) (b : BitVec 4) (o : BitVec 14) : Nat := b2n sw * 2147483648 + a.toNat * 262144 + b.toNat * 16384 + o.toNat + 276824064
def encBge (sw : Bool) (a : BitVec 4) (b : BitVec 4) (o : BitVec 14) : Nat := b2n sw * 2147483648 + a.toNat * 262144 + b.toNat * 16384 + o.toNat + 281018368
def encBltu (sw : Bool) (a : BitVec 4) (b : BitVec 4) (o : BitVec 14) : Nat := b2n sw * 2147483648 + a.toNat * 262144 + b.toNat * 16384 + o.toNat + 285212672
def encBgeu (sw : Bool) (a : BitVec 4) (b : BitVec 4) (o : BitVec 14) : Nat := b2n sw * 2147483648 + a.toNat * 262144 + b.toNat * 16384 + o.toNat + 289406976
def encBeqz (sw : Bool) (a : BitVec 4) (o : BitVec 14) : Nat := b2n sw * 2147483648 + a.toNat * 262144 + o.toNat + 293601280
def encBnez (sw : Bool) (a : BitVec 4) (o : BitVec 14) : Nat := b2n sw * 2147483648 + a.toNat * 262144 + o.toNat + 297795584
def encJump (sw : Bool) (o : BitVec 25) : Nat := b2n sw * 2147483648 + o.toNat + 301989888
def encCall (sw : Bool) (o : BitVec 25) : Nat := b2n sw * 2147483648 + o.toNat + 335544320
def encNop (sw : Bool) : Nat := b2n sw * 2147483648 + 369098752
def encEndAct (sw : Bool) : Nat := b2n sw * 2147483648 + 369098784
def encJr (sw : Bool) (a : BitVec 4) : Nat := b2n sw * 2147483648 + a.toNat * 131072 + 369098816
def encCallr (sw : Bool) (a : BitVec 4) : Nat := b2n sw * 2147483648 + a.toNat * 131072 + 369098848
def encRet (sw : Bool) : Nat := b2n sw * 2147483648 + 369098880
def encMfs (sw : Bool) (d : BitVec 4) (r : BitVec 8) : Nat := b2n sw * 2147483648 + d.toNat * 2097152 + r.toNat * 8192 + 402653184
def encMts (sw : Bool) (d : BitVec 4) (r : BitVec 8) : Nat := b2n sw * 2147483648 + d.toNat * 2097152 + r.toNat * 8192 + 402653185
def encHxImm (v : BitVec 21) : Nat := v.toNat + 2113929216
def encHxRnd (m : BitVec 3) : Nat := m.toNat + 2116026368
def encHxReuse (k : BitVec 3) : Nat := k.toNat + 2118123520
def encHxNt : Nat := 2120220673
def encHxPri (p : BitVec 1) : Nat := p.toNat + 2122317824
def encSend (sw : Bool) (d : BitVec 4) (a : BitVec 4) (b : BitVec 4) (n : BitVec 5) : Nat := b2n sw * 2147483648 + d.toNat * 2097152 + a.toNat * 131072 + b.toNat * 8192 + n.toNat * 256 + 536870912
def encSendRq (sw : Bool) (d : BitVec 4) (a : BitVec 4) (b : BitVec 4) (n : BitVec 5) : Nat := b2n sw * 2147483648 + d.toNat * 2097152 + a.toNat * 131072 + b.toNat * 8192 + n.toNat * 256 + 536870913
def encSendb (sw : Bool) (d : BitVec 4) (a : BitVec 4) (b : BitVec 4) : Nat := b2n sw * 2147483648 + d.toNat * 2097152 + a.toNat * 131072 + b.toNat * 8192 + 536870914
def encSendbRq (sw : Bool) (d : BitVec 4) (a : BitVec 4) (b : BitVec 4) : Nat := b2n sw * 2147483648 + d.toNat * 2097152 + a.toNat * 131072 + b.toNat * 8192 + 536870915
def encReply (sw : Bool) (b : BitVec 4) (n : BitVec 5) : Nat := b2n sw * 2147483648 + b.toNat * 8192 + n.toNat * 256 + 570425344
def encReplyb (sw : Bool) (b : BitVec 4) : Nat := b2n sw * 2147483648 + b.toNat * 8192 + 570425345
def encMigr (a : BitVec 4) : Nat := a.toNat * 131072 + 2751463424
def encMigrx (d : BitVec 4) : Nat := d.toNat * 2097152 + 2751463425
def encRecvw (sw : Bool) (d : BitVec 4) : Nat := b2n sw * 2147483648 + d.toNat * 2097152 + 637534208
def encHomexy (sw : Bool) (d : BitVec 4) (a : BitVec 4) : Nat := b2n sw * 2147483648 + d.toNat * 2097152 + a.toNat * 131072 + 637534209
def encEvarm (sw : Bool) (a : BitVec 4) (b : BitVec 4) : Nat := b2n sw * 2147483648 + a.toNat * 131072 + b.toNat * 8192 + 671088640
def encEvsend (sw : Bool) (d : BitVec 4) (a : BitVec 4) (b : BitVec 4) (e : BitVec 4) : Nat := b2n sw * 2147483648 + d.toNat * 2097152 + a.toNat * 131072 + b.toNat * 8192 + e.toNat + 671088672
def encEvread (sw : Bool) (d : BitVec 4) (a : BitVec 4) : Nat := b2n sw * 2147483648 + d.toNat * 2097152 + a.toNat * 131072 + 671088704
def encPushw (sw : Bool) (b : BitVec 4) : Nat := b2n sw * 2147483648 + b.toNat * 8192 + 671088896
def encPopw (sw : Bool) (d : BitVec 4) : Nat := b2n sw * 2147483648 + d.toNat * 2097152 + 671088928
def encSteal (sw : Bool) : Nat := b2n sw * 2147483648 + 671088960
def encDqlen (sw : Bool) (d : BitVec 4) : Nat := b2n sw * 2147483648 + d.toNat * 2097152 + 671088992
def encLaunch (sw : Bool) (d : BitVec 4) (a : BitVec 4) : Nat := b2n sw * 2147483648 + d.toNat * 2097152 + a.toNat * 131072 + 671089152
def encKill (sw : Bool) (a : BitVec 4) : Nat := b2n sw * 2147483648 + a.toNat * 131072 + 671089184
def encEvsig (sw : Bool) (a : BitVec 4) (imm : BitVec 13) : Nat := b2n sw * 2147483648 + a.toNat * 131072 + imm.toNat + 704643072
def encSgrp (sw : Bool) (d : BitVec 4) (l : BitVec 13) : Nat := b2n sw * 2147483648 + d.toNat * 2097152 + l.toNat + 704651264
def encGarrAnd (sw : Bool) (d : BitVec 4) (a : BitVec 4) (k : BitVec 11) : Nat := b2n sw * 2147483648 + d.toNat * 2097152 + a.toNat * 131072 + k.toNat + 738197504
def encGarrOr (sw : Bool) (d : BitVec 4) (a : BitVec 4) (k : BitVec 11) : Nat := b2n sw * 2147483648 + d.toNat * 2097152 + a.toNat * 131072 + k.toNat + 738205696
def encGarrAdd (sw : Bool) (d : BitVec 4) (a : BitVec 4) (k : BitVec 11) : Nat := b2n sw * 2147483648 + d.toNat * 2097152 + a.toNat * 131072 + k.toNat + 738213888
def encGarrMaxu (sw : Bool) (d : BitVec 4) (a : BitVec 4) (k : BitVec 11) : Nat := b2n sw * 2147483648 + d.toNat * 2097152 + a.toNat * 131072 + k.toNat + 738222080
def encGarrFmax (sw : Bool) (d : BitVec 4) (a : BitVec 4) (k : BitVec 11) : Nat := b2n sw * 2147483648 + d.toNat * 2097152 + a.toNat * 131072 + k.toNat + 738230272
def encGarrFmin (sw : Bool) (d : BitVec 4) (a : BitVec 4) (k : BitVec 11) : Nat := b2n sw * 2147483648 + d.toNat * 2097152 + a.toNat * 131072 + k.toNat + 738238464
def encGarrwAnd (sw : Bool) (d : BitVec 4) (a : BitVec 4) (k : BitVec 11) : Nat := b2n sw * 2147483648 + d.toNat * 2097152 + a.toNat * 131072 + k.toNat + 771751936
def encGarrwOr (sw : Bool) (d : BitVec 4) (a : BitVec 4) (k : BitVec 11) : Nat := b2n sw * 2147483648 + d.toNat * 2097152 + a.toNat * 131072 + k.toNat + 771760128
def encGarrwAdd (sw : Bool) (d : BitVec 4) (a : BitVec 4) (k : BitVec 11) : Nat := b2n sw * 2147483648 + d.toNat * 2097152 + a.toNat * 131072 + k.toNat + 771768320
def encGarrwMaxu (sw : Bool) (d : BitVec 4) (a : BitVec 4) (k : BitVec 11) : Nat := b2n sw * 2147483648 + d.toNat * 2097152 + a.toNat * 131072 + k.toNat + 771776512
def encGarrwFmax (sw : Bool) (d : BitVec 4) (a : BitVec 4) (k : BitVec 11) : Nat := b2n sw * 2147483648 + d.toNat * 2097152 + a.toNat * 131072 + k.toNat + 771784704
def encGarrwFmin (sw : Bool) (d : BitVec 4) (a : BitVec 4) (k : BitVec 11) : Nat := b2n sw * 2147483648 + d.toNat * 2097152 + a.toNat * 131072 + k.toNat + 771792896
def encLdgB (sw : Bool) (d : BitVec 4) (a : BitVec 4) (imm : BitVec 13) : Nat := b2n sw * 2147483648 + d.toNat * 2097152 + a.toNat * 131072 + imm.toNat + 805306368
def encLdgBu (sw : Bool) (d : BitVec 4) (a : BitVec 4) (imm : BitVec 13) : Nat := b2n sw * 2147483648 + d.toNat * 2097152 + a.toNat * 131072 + imm.toNat + 805314560
def encLdgH (sw : Bool) (d : BitVec 4) (a : BitVec 4) (imm : BitVec 13) : Nat := b2n sw * 2147483648 + d.toNat * 2097152 + a.toNat * 131072 + imm.toNat + 805322752
def encLdgHu (sw : Bool) (d : BitVec 4) (a : BitVec 4) (imm : BitVec 13) : Nat := b2n sw * 2147483648 + d.toNat * 2097152 + a.toNat * 131072 + imm.toNat + 805330944
def encLdgW (sw : Bool) (d : BitVec 4) (a : BitVec 4) (imm : BitVec 13) : Nat := b2n sw * 2147483648 + d.toNat * 2097152 + a.toNat * 131072 + imm.toNat + 805339136
def encLdgWu (sw : Bool) (d : BitVec 4) (a : BitVec 4) (imm : BitVec 13) : Nat := b2n sw * 2147483648 + d.toNat * 2097152 + a.toNat * 131072 + imm.toNat + 805347328
def encLdgD (sw : Bool) (d : BitVec 4) (a : BitVec 4) (imm : BitVec 13) : Nat := b2n sw * 2147483648 + d.toNat * 2097152 + a.toNat * 131072 + imm.toNat + 805355520
def encLdgAcq (sw : Bool) (d : BitVec 4) (a : BitVec 4) (imm : BitVec 13) : Nat := b2n sw * 2147483648 + d.toNat * 2097152 + a.toNat * 131072 + imm.toNat + 805363712
def encStgB (sw : Bool) (d : BitVec 4) (a : BitVec 4) (imm : BitVec 13) : Nat := b2n sw * 2147483648 + d.toNat * 2097152 + a.toNat * 131072 + imm.toNat + 805371904
def encStgH (sw : Bool) (d : BitVec 4) (a : BitVec 4) (imm : BitVec 13) : Nat := b2n sw * 2147483648 + d.toNat * 2097152 + a.toNat * 131072 + imm.toNat + 805380096
def encStgW (sw : Bool) (d : BitVec 4) (a : BitVec 4) (imm : BitVec 13) : Nat := b2n sw * 2147483648 + d.toNat * 2097152 + a.toNat * 131072 + imm.toNat + 805388288
def encStgD (sw : Bool) (d : BitVec 4) (a : BitVec 4) (imm : BitVec 13) : Nat := b2n sw * 2147483648 + d.toNat * 2097152 + a.toNat * 131072 + imm.toNat + 805396480
def encStgRel (sw : Bool) (d : BitVec 4) (a : BitVec 4) (imm : BitVec 13) : Nat := b2n sw * 2147483648 + d.toNat * 2097152 + a.toNat * 131072 + imm.toNat + 805404672
def encLdgAcqW (sw : Bool) (d : BitVec 4) (a : BitVec 4) (imm : BitVec 13) : Nat := b2n sw * 2147483648 + d.toNat * 2097152 + a.toNat * 131072 + imm.toNat + 805412864
def encStgRelW (sw : Bool) (d : BitVec 4) (a : BitVec 4) (imm : BitVec 13) : Nat := b2n sw * 2147483648 + d.toNat * 2097152 + a.toNat * 131072 + imm.toNat + 805421056
def encPref (sw : Bool) (a : BitVec 4) (imm : BitVec 13) : Nat := b2n sw * 2147483648 + a.toNat * 131072 + imm.toNat + 805429248
def encLdlB (sw : Bool) (d : BitVec 4) (a : BitVec 4) (imm : BitVec 13) : Nat := b2n sw * 2147483648 + d.toNat * 2097152 + a.toNat * 131072 + imm.toNat + 838860800
def encLdlBu (sw : Bool) (d : BitVec 4) (a : BitVec 4) (imm : BitVec 13) : Nat := b2n sw * 2147483648 + d.toNat * 2097152 + a.toNat * 131072 + imm.toNat + 838868992
def encLdlH (sw : Bool) (d : BitVec 4) (a : BitVec 4) (imm : BitVec 13) : Nat := b2n sw * 2147483648 + d.toNat * 2097152 + a.toNat * 131072 + imm.toNat + 838877184
def encLdlHu (sw : Bool) (d : BitVec 4) (a : BitVec 4) (imm : BitVec 13) : Nat := b2n sw * 2147483648 + d.toNat * 2097152 + a.toNat * 131072 + imm.toNat + 838885376
def encLdlW (sw : Bool) (d : BitVec 4) (a : BitVec 4) (imm : BitVec 13) : Nat := b2n sw * 2147483648 + d.toNat * 2097152 + a.toNat * 131072 + imm.toNat + 838893568
def encLdlWu (sw : Bool) (d : BitVec 4) (a : BitVec 4) (imm : BitVec 13) : Nat := b2n sw * 2147483648 + d.toNat * 2097152 + a.toNat * 131072 + imm.toNat + 838901760
def encLdlD (sw : Bool) (d : BitVec 4) (a : BitVec 4) (imm : BitVec 13) : Nat := b2n sw * 2147483648 + d.toNat * 2097152 + a.toNat * 131072 + imm.toNat + 838909952
def encStlB (sw : Bool) (d : BitVec 4) (a : BitVec 4) (imm : BitVec 13) : Nat := b2n sw * 2147483648 + d.toNat * 2097152 + a.toNat * 131072 + imm.toNat + 838926336
def encStlH (sw : Bool) (d : BitVec 4) (a : BitVec 4) (imm : BitVec 13) : Nat := b2n sw * 2147483648 + d.toNat * 2097152 + a.toNat * 131072 + imm.toNat + 838934528
def encStlW (sw : Bool) (d : BitVec 4) (a : BitVec 4) (imm : BitVec 13) : Nat := b2n sw * 2147483648 + d.toNat * 2097152 + a.toNat * 131072 + imm.toNat + 838942720
def encStlD (sw : Bool) (d : BitVec 4) (a : BitVec 4) (imm : BitVec 13) : Nat := b2n sw * 2147483648 + d.toNat * 2097152 + a.toNat * 131072 + imm.toNat + 838950912
def encVldg (sw : Bool) (v : BitVec 5) (g : BitVec 4) (m : BitVec 3) (o : BitVec 8) : Nat := b2n sw * 2147483648 + v.toNat * 1048576 + g.toNat * 65536 + m.toNat * 8192 + o.toNat + 872415232
def encVstg (sw : Bool) (v : BitVec 5) (g : BitVec 4) (m : BitVec 3) (o : BitVec 8) : Nat := b2n sw * 2147483648 + v.toNat * 1048576 + g.toNat * 65536 + m.toNat * 8192 + o.toNat + 872415488
def encVldl (sw : Bool) (v : BitVec 5) (g : BitVec 4) (m : BitVec 3) (o : BitVec 8) : Nat := b2n sw * 2147483648 + v.toNat * 1048576 + g.toNat * 65536 + m.toNat * 8192 + o.toNat + 872415744
def encVstl (sw : Bool) (v : BitVec 5) (g : BitVec 4) (m : BitVec 3) (o : BitVec 8) : Nat := b2n sw * 2147483648 + v.toNat * 1048576 + g.toNat * 65536 + m.toNat * 8192 + o.toNat + 872416000
def encVldls (sw : Bool) (v : BitVec 5) (a : BitVec 4) (g : BitVec 4) (m : BitVec 3) : Nat := b2n sw * 2147483648 + v.toNat * 1048576 + a.toNat * 32768 + g.toNat * 2048 + m.toNat * 256 + 905969664
def encVstls (sw : Bool) (v : BitVec 5) (a : BitVec 4) (g : BitVec 4) (m : BitVec 3) : Nat := b2n sw * 2147483648 + v.toNat * 1048576 + a.toNat * 32768 + g.toNat * 2048 + m.toNat * 256 + 905969665
def encTldgF32 (sw : Bool) (v : BitVec 5) (g : BitVec 4) : Nat := b2n sw * 2147483648 + v.toNat * 1048576 + g.toNat * 2048 + 905969666
def encTldgBf16 (sw : Bool) (v : BitVec 5) (g : BitVec 4) : Nat := b2n sw * 2147483648 + v.toNat * 1048576 + g.toNat * 2048 + 905969667
def encTstgF32 (sw : Bool) (v : BitVec 5) (g : BitVec 4) : Nat := b2n sw * 2147483648 + v.toNat * 1048576 + g.toNat * 2048 + 905969668
def encTstgBf16 (sw : Bool) (v : BitVec 5) (g : BitVec 4) : Nat := b2n sw * 2147483648 + v.toNat * 1048576 + g.toNat * 2048 + 905969669
def encBmovG2l (d : BitVec 4) (a : BitVec 4) (b : BitVec 4) : Nat := d.toNat * 2097152 + a.toNat * 131072 + b.toNat * 8192 + 3087007744
def encBmovL2g (d : BitVec 4) (a : BitVec 4) (b : BitVec 4) : Nat := d.toNat * 2097152 + a.toNat * 131072 + b.toNat * 8192 + 3087007776
def encBfillG (d : BitVec 4) (a : BitVec 4) (b : BitVec 4) : Nat := d.toNat * 2097152 + a.toNat * 131072 + b.toNat * 8192 + 3087007808
def encBfillL (d : BitVec 4) (a : BitVec 4) (b : BitVec 4) : Nat := d.toNat * 2097152 + a.toNat * 131072 + b.toNat * 8192 + 3087007840
def encAmogAdd (sw : Bool) (d : BitVec 4) (a : BitVec 4) (b : BitVec 4) (z : BitVec 1) : Nat := b2n sw * 2147483648 + d.toNat * 2097152 + a.toNat * 131072 + b.toNat * 8192 + z.toNat * 512 + 973078528
def encAmogAnd (sw : Bool) (d : BitVec 4) (a : BitVec 4) (b : BitVec 4) (z : BitVec 1) : Nat := b2n sw * 2147483648 + d.toNat * 2097152 + a.toNat * 131072 + b.toNat * 8192 + z.toNat * 512 + 973078560
def encAmogOr (sw : Bool) (d : BitVec 4) (a : BitVec 4) (b : BitVec 4) (z : BitVec 1) : Nat := b2n sw * 2147483648 + d.toNat * 2097152 + a.toNat * 131072 + b.toNat * 8192 + z.toNat * 512 + 973078592
def encAmogXor (sw : Bool) (d : BitVec 4) (a : BitVec 4) (b : BitVec 4) (z : BitVec 1) : Nat := b2n sw * 2147483648 + d.toNat * 2097152 + a.toNat * 131072 + b.toNat * 8192 + z.toNat * 512 + 973078624
def encAmogMin (sw : Bool) (d : BitVec 4) (a : BitVec 4) (b : BitVec 4) (z : BitVec 1) : Nat := b2n sw * 2147483648 + d.toNat * 2097152 + a.toNat * 131072 + b.toNat * 8192 + z.toNat * 512 + 973078656
def encAmogMax (sw : Bool) (d : BitVec 4) (a : BitVec 4) (b : BitVec 4) (z : BitVec 1) : Nat := b2n sw * 2147483648 + d.toNat * 2097152 + a.toNat * 131072 + b.toNat * 8192 + z.toNat * 512 + 973078688
def encAmogMinu (sw : Bool) (d : BitVec 4) (a : BitVec 4) (b : BitVec 4) (z : BitVec 1) : Nat := b2n sw * 2147483648 + d.toNat * 2097152 + a.toNat * 131072 + b.toNat * 8192 + z.toNat * 512 + 973078720
def encAmogMaxu (sw : Bool) (d : BitVec 4) (a : BitVec 4) (b : BitVec 4) (z : BitVec 1) : Nat := b2n sw * 2147483648 + d.toNat * 2097152 + a.toNat * 131072 + b.toNat * 8192 + z.toNat * 512 + 973078752
def encAmogSwap (sw : Bool) (d : BitVec 4) (a : BitVec 4) (b : BitVec 4) (z : BitVec 1) : Nat := b2n sw * 2147483648 + d.toNat * 2097152 + a.toNat * 131072 + b.toNat * 8192 + z.toNat * 512 + 973078784
def encAmogFadd (sw : Bool) (d : BitVec 4) (a : BitVec 4) (b : BitVec 4) : Nat := b2n sw * 2147483648 + d.toNat * 2097152 + a.toNat * 131072 + b.toNat * 8192 + 973078816
def encAmolAdd (sw : Bool) (d : BitVec 4) (a : BitVec 4) (b : BitVec 4) (z : BitVec 1) : Nat := b2n sw * 2147483648 + d.toNat * 2097152 + a.toNat * 131072 + b.toNat * 8192 + z.toNat * 512 + 973080576
def encAmolAnd (sw : Bool) (d : BitVec 4) (a : BitVec 4) (b : BitVec 4) (z : BitVec 1) : Nat := b2n sw * 2147483648 + d.toNat * 2097152 + a.toNat * 131072 + b.toNat * 8192 + z.toNat * 512 + 973080608
def encAmolOr (sw : Bool) (d : BitVec 4) (a : BitVec 4) (b : BitVec 4) (z : BitVec 1) : Nat := b2n sw * 2147483648 + d.toNat * 2097152 + a.toNat * 131072 + b.toNat * 8192 + z.toNat * 512 + 973080640
def encAmolXor (sw : Bool) (d : BitVec 4) (a : BitVec 4) (b : BitVec 4) (z : BitVec 1) : Nat := b2n sw * 2147483648 + d.toNat * 2097152 + a.toNat * 131072 + b.toNat * 8192 + z.toNat * 512 + 973080672
def encAmolMin (sw : Bool) (d : BitVec 4) (a : BitVec 4) (b : BitVec 4) (z : BitVec 1) : Nat := b2n sw * 2147483648 + d.toNat * 2097152 + a.toNat * 131072 + b.toNat * 8192 + z.toNat * 512 + 973080704
def encAmolMax (sw : Bool) (d : BitVec 4) (a : BitVec 4) (b : BitVec 4) (z : BitVec 1) : Nat := b2n sw * 2147483648 + d.toNat * 2097152 + a.toNat * 131072 + b.toNat * 8192 + z.toNat * 512 + 973080736
def encAmolMinu (sw : Bool) (d : BitVec 4) (a : BitVec 4) (b : BitVec 4) (z : BitVec 1) : Nat := b2n sw * 2147483648 + d.toNat * 2097152 + a.toNat * 131072 + b.toNat * 8192 + z.toNat * 512 + 973080768
def encAmolMaxu (sw : Bool) (d : BitVec 4) (a : BitVec 4) (b : BitVec 4) (z : BitVec 1) : Nat := b2n sw * 2147483648 + d.toNat * 2097152 + a.toNat * 131072 + b.toNat * 8192 + z.toNat * 512 + 973080800
def encAmolSwap (sw : Bool) (d : BitVec 4) (a : BitVec 4) (b : BitVec 4) (z : BitVec 1) : Nat := b2n sw * 2147483648 + d.toNat * 2097152 + a.toNat * 131072 + b.toNat * 8192 + z.toNat * 512 + 973080832
def encAmolFadd (sw : Bool) (d : BitVec 4) (a : BitVec 4) (b : BitVec 4) : Nat := b2n sw * 2147483648 + d.toNat * 2097152 + a.toNat * 131072 + b.toNat * 8192 + 973080864
def encCasg (sw : Bool) (d : BitVec 4) (a : BitVec 4) (b : BitVec 4) (z : BitVec 1) : Nat := b2n sw * 2147483648 + d.toNat * 2097152 + a.toNat * 131072 + b.toNat * 8192 + z.toNat * 512 + 973082624
def encCasl (sw : Bool) (d : BitVec 4) (a : BitVec 4) (b : BitVec 4) (z : BitVec 1) : Nat := b2n sw * 2147483648 + d.toNat * 2097152 + a.toNat * 131072 + b.toNat * 8192 + z.toNat * 512 + 973083648
def encWaitwG (sw : Bool) (d : BitVec 4) (a : BitVec 4) (b : BitVec 4) (c : BitVec 2) : Nat := b2n sw * 2147483648 + d.toNat * 2097152 + a.toNat * 131072 + b.toNat * 8192 + c.toNat * 32 + 973084672
def encWaitwL (sw : Bool) (d : BitVec 4) (a : BitVec 4) (b : BitVec 4) (c : BitVec 2) : Nat := b2n sw * 2147483648 + d.toNat * 2097152 + a.toNat * 131072 + b.toNat * 8192 + c.toNat * 32 + 973085696
def encBinit (sw : Bool) (a : BitVec 4) (b : BitVec 4) : Nat := b2n sw * 2147483648 + a.toNat * 131072 + b.toNat * 8192 + 1006632960
def encBexpect (sw : Bool) (a : BitVec 4) (b : BitVec 4) : Nat := b2n sw * 2147483648 + a.toNat * 131072 + b.toNat * 8192 + 1006632992
def encBarrive (sw : Bool) (a : BitVec 4) : Nat := b2n sw * 2147483648 + a.toNat * 131072 + 1006633024
def encBwait (sw : Bool) (a : BitVec 4) (b : BitVec 4) : Nat := b2n sw * 2147483648 + a.toNat * 131072 + b.toNat * 8192 + 1006633056
def encBtest (sw : Bool) (d : BitVec 4) (a : BitVec 4) : Nat := b2n sw * 2147483648 + d.toNat * 2097152 + a.toNat * 131072 + 1006633088
def encFence (sw : Bool) (p : BitVec 2) (k : BitVec 4) : Nat := b2n sw * 2147483648 + p.toNat * 32 + k.toNat + 1040187392
def encTlwait (sw : Bool) (a : BitVec 4) (imm : BitVec 2) : Nat := b2n sw * 2147483648 + a.toNat * 131072 + imm.toNat + 1040187520
def encTlread (sw : Bool) (d : BitVec 4) (imm : BitVec 2) : Nat := b2n sw * 2147483648 + d.toNat * 2097152 + imm.toNat + 1040187552
def encVadd (sw : Bool) (v : BitVec 5) (a : BitVec 5) (b : BitVec 5) (m : BitVec 3) (t : BitVec 2) : Nat := b2n sw * 2147483648 + v.toNat * 1048576 + a.toNat * 32768 + b.toNat * 1024 + m.toNat * 128 + t.toNat * 32 + 1073741824
def encVsub (sw : Bool) (v : BitVec 5) (a : BitVec 5) (b : BitVec 5) (m : BitVec 3) (t : BitVec 2) : Nat := b2n sw * 2147483648 + v.toNat * 1048576 + a.toNat * 32768 + b.toNat * 1024 + m.toNat * 128 + t.toNat * 32 + 1073741825
def encVmul (sw : Bool) (v : BitVec 5) (a : BitVec 5) (b : BitVec 5) (m : BitVec 3) (t : BitVec 2) : Nat := b2n sw * 2147483648 + v.toNat * 1048576 + a.toNat * 32768 + b.toNat * 1024 + m.toNat * 128 + t.toNat * 32 + 1073741826
def encVdiv (sw : Bool) (v : BitVec 5) (a : BitVec 5) (b : BitVec 5) (m : BitVec 3) (t : BitVec 2) : Nat := b2n sw * 2147483648 + v.toNat * 1048576 + a.toNat * 32768 + b.toNat * 1024 + m.toNat * 128 + t.toNat * 32 + 1073741827
def encVmin (sw : Bool) (v : BitVec 5) (a : BitVec 5) (b : BitVec 5) (m : BitVec 3) (t : BitVec 2) : Nat := b2n sw * 2147483648 + v.toNat * 1048576 + a.toNat * 32768 + b.toNat * 1024 + m.toNat * 128 + t.toNat * 32 + 1073741828
def encVmax (sw : Bool) (v : BitVec 5) (a : BitVec 5) (b : BitVec 5) (m : BitVec 3) (t : BitVec 2) : Nat := b2n sw * 2147483648 + v.toNat * 1048576 + a.toNat * 32768 + b.toNat * 1024 + m.toNat * 128 + t.toNat * 32 + 1073741829
def encVfma (sw : Bool) (v : BitVec 5) (a : BitVec 5) (b : BitVec 5) (m : BitVec 3) (t : BitVec 2) : Nat := b2n sw * 2147483648 + v.toNat * 1048576 + a.toNat * 32768 + b.toNat * 1024 + m.toNat * 128 + t.toNat * 32 + 1073741830
def encVfms (sw : Bool) (v : BitVec 5) (a : BitVec 5) (b : BitVec 5) (m : BitVec 3) (t : BitVec 2) : Nat := b2n sw * 2147483648 + v.toNat * 1048576 + a.toNat * 32768 + b.toNat * 1024 + m.toNat * 128 + t.toNat * 32 + 1073741831
def encVfnma (sw : Bool) (v : BitVec 5) (a : BitVec 5) (b : BitVec 5) (m : BitVec 3) (t : BitVec 2) : Nat := b2n sw * 2147483648 + v.toNat * 1048576 + a.toNat * 32768 + b.toNat * 1024 + m.toNat * 128 + t.toNat * 32 + 1073741832
def encVabs (sw : Bool) (v : BitVec 5) (a : BitVec 5) (m : BitVec 3) (t : BitVec 2) : Nat := b2n sw * 2147483648 + v.toNat * 1048576 + a.toNat * 32768 + m.toNat * 128 + t.toNat * 32 + 1073741833
def encVneg (sw : Bool) (v : BitVec 5) (a : BitVec 5) (m : BitVec 3) (t : BitVec 2) : Nat := b2n sw * 2147483648 + v.toNat * 1048576 + a.toNat * 32768 + m.toNat * 128 + t.toNat * 32 + 1073741834
def encVsqrt (sw : Bool) (v : BitVec 5) (a : BitVec 5) (m : BitVec 3) (t : BitVec 2) : Nat := b2n sw * 2147483648 + v.toNat * 1048576 + a.toNat * 32768 + m.toNat * 128 + t.toNat * 32 + 1073741835
def encVexp2 (sw : Bool) (v : BitVec 5) (a : BitVec 5) (m : BitVec 3) (t : BitVec 2) : Nat := b2n sw * 2147483648 + v.toNat * 1048576 + a.toNat * 32768 + m.toNat * 128 + t.toNat * 32 + 1073741836
def encVlog2 (sw : Bool) (v : BitVec 5) (a : BitVec 5) (m : BitVec 3) (t : BitVec 2) : Nat := b2n sw * 2147483648 + v.toNat * 1048576 + a.toNat * 32768 + m.toNat * 128 + t.toNat * 32 + 1073741837
def encViadd (sw : Bool) (v : BitVec 5) (a : BitVec 5) (b : BitVec 5) (m : BitVec 3) (w : BitVec 2) : Nat := b2n sw * 2147483648 + v.toNat * 1048576 + a.toNat * 32768 + b.toNat * 1024 + m.toNat * 128 + w.toNat * 32 + 1107296256
def encVisub (sw : Bool) (v : BitVec 5) (a : BitVec 5) (b : BitVec 5) (m : BitVec 3) (w : BitVec 2) : Nat := b2n sw * 2147483648 + v.toNat * 1048576 + a.toNat * 32768 + b.toNat * 1024 + m.toNat * 128 + w.toNat * 32 + 1107296257
def encVimul (sw : Bool) (v : BitVec 5) (a : BitVec 5) (b : BitVec 5) (m : BitVec 3) (w : BitVec 2) : Nat := b2n sw * 2147483648 + v.toNat * 1048576 + a.toNat * 32768 + b.toNat * 1024 + m.toNat * 128 + w.toNat * 32 + 1107296258
def encVimulh (sw : Bool) (v : BitVec 5) (a : BitVec 5) (b : BitVec 5) (m : BitVec 3) (w : BitVec 2) : Nat := b2n sw * 2147483648 + v.toNat * 1048576 + a.toNat * 32768 + b.toNat * 1024 + m.toNat * 128 + w.toNat * 32 + 1107296259
def encVimin (sw : Bool) (v : BitVec 5) (a : BitVec 5) (b : BitVec 5) (m : BitVec 3) (w : BitVec 2) : Nat := b2n sw * 2147483648 + v.toNat * 1048576 + a.toNat * 32768 + b.toNat * 1024 + m.toNat * 128 + w.toNat * 32 + 1107296260
def encVimax (sw : Bool) (v : BitVec 5) (a : BitVec 5) (b : BitVec 5) (m : BitVec 3) (w : BitVec 2) : Nat := b2n sw * 2147483648 + v.toNat * 1048576 + a.toNat * 32768 + b.toNat * 1024 + m.toNat * 128 + w.toNat * 32 + 1107296261
def encVand (sw : Bool) (v : BitVec 5) (a : BitVec 5) (b : BitVec 5) (m : BitVec 3) (w : BitVec 2) : Nat := b2n sw * 2147483648 + v.toNat * 1048576 + a.toNat * 32768 + b.toNat * 1024 + m.toNat * 128 + w.toNat * 32 + 1107296262
def encVor (sw : Bool) (v : BitVec 5) (a : BitVec 5) (b : BitVec 5) (m : BitVec 3) (w : BitVec 2) : Nat := b2n sw * 2147483648 + v.toNat * 1048576 + a.toNat * 32768 + b.toNat * 1024 + m.toNat * 128 + w.toNat * 32 + 1107296263
def encVxor (sw : Bool) (v : BitVec 5) (a : BitVec 5) (b : BitVec 5) (m : BitVec 3) (w : BitVec 2) : Nat := b2n sw * 2147483648 + v.toNat * 1048576 + a.toNat * 32768 + b.toNat * 1024 + m.toNat * 128 + w.toNat * 32 + 1107296264
def encVshl (sw : Bool) (v : BitVec 5) (a : BitVec 5) (b : BitVec 5) (m : BitVec 3) (w : BitVec 2) : Nat := b2n sw * 2147483648 + v.toNat * 1048576 + a.toNat * 32768 + b.toNat * 1024 + m.toNat * 128 + w.toNat * 32 + 1107296265
def encVshr (sw : Bool) (v : BitVec 5) (a : BitVec 5) (b : BitVec 5) (m : BitVec 3) (w : BitVec 2) : Nat := b2n sw * 2147483648 + v.toNat * 1048576 + a.toNat * 32768 + b.toNat * 1024 + m.toNat * 128 + w.toNat * 32 + 1107296266
def encVsar (sw : Bool) (v : BitVec 5) (a : BitVec 5) (b : BitVec 5) (m : BitVec 3) (w : BitVec 2) : Nat := b2n sw * 2147483648 + v.toNat * 1048576 + a.toNat * 32768 + b.toNat * 1024 + m.toNat * 128 + w.toNat * 32 + 1107296267
def encVidot4 (sw : Bool) (v : BitVec 5) (a : BitVec 5) (b : BitVec 5) (m : BitVec 3) : Nat := b2n sw * 2147483648 + v.toNat * 1048576 + a.toNat * 32768 + b.toNat * 1024 + m.toNat * 128 + 1107296268
def encVcvt (sw : Bool) (v : BitVec 5) (a : BitVec 5) (c : BitVec 4) (m : BitVec 3) (e : BitVec 4) (p : BitVec 2) : Nat := b2n sw * 2147483648 + v.toNat * 1048576 + a.toNat * 32768 + c.toNat * 1024 + m.toNat * 128 + e.toNat * 8 + p.toNat * 2 + 1140850688
def encVquant (sw : Bool) (v : BitVec 5) (a : BitVec 5) (g : BitVec 4) (m : BitVec 3) (f : BitVec 4) (e : BitVec 2) (p : BitVec 2) : Nat := b2n sw * 2147483648 + v.toNat * 1048576 + a.toNat * 32768 + g.toNat * 2048 + m.toNat * 256 + f.toNat * 16 + e.toNat * 4 + p.toNat + 1174405120
def encVquantFix (sw : Bool) (v : BitVec 5) (a : BitVec 5) (g : BitVec 4) (m : BitVec 3) (f : BitVec 4) (e : BitVec 2) (p : BitVec 2) : Nat := b2n sw * 2147483648 + v.toNat * 1048576 + a.toNat * 32768 + g.toNat * 2048 + m.toNat * 256 + f.toNat * 16 + e.toNat * 4 + p.toNat + 1207959552
def encVdeq (sw : Bool) (v : BitVec 5) (a : BitVec 5) (g : BitVec 4) (m : BitVec 3) (f : BitVec 4) (e : BitVec 2) (p : BitVec 2) : Nat := b2n sw * 2147483648 + v.toNat * 1048576 + a.toNat * 32768 + g.toNat * 2048 + m.toNat * 256 + f.toNat * 16 + e.toNat * 4 + p.toNat + 1241513984
def encMand (sw : Bool) (d : BitVec 3) (a : BitVec 3) (b : BitVec 3) : Nat := b2n sw * 2147483648 + d.toNat * 1048576 + a.toNat * 32768 + b.toNat * 1024 + 1275068416
def encMor (sw : Bool) (d : BitVec 3) (a : BitVec 3) (b : BitVec 3) : Nat := b2n sw * 2147483648 + d.toNat * 1048576 + a.toNat * 32768 + b.toNat * 1024 + 1275068417
def encMnot (sw : Bool) (d : BitVec 3) (a : BitVec 3) : Nat := b2n sw * 2147483648 + d.toNat * 1048576 + a.toNat * 32768 + 1275068418
def encVselm (sw : Bool) (v : BitVec 5) (a : BitVec 5) (b : BitVec 5) (m : BitVec 3) : Nat := b2n sw * 2147483648 + v.toNat * 1048576 + a.toNat * 32768 + b.toNat * 1024 + m.toNat * 128 + 1275068419
def encVperm (sw : Bool) (v : BitVec 5) (a : BitVec 5) (b : BitVec 5) (m : BitVec 3) : Nat := b2n sw * 2147483648 + v.toNat * 1048576 + a.toNat * 32768 + b.toNat * 1024 + m.toNat * 128 + 1275068420
def encVredAdd (sw : Bool) (v : BitVec 5) (a : BitVec 5) (m : BitVec 3) (t : BitVec 2) : Nat := b2n sw * 2147483648 + v.toNat * 1048576 + a.toNat * 32768 + m.toNat * 128 + t.toNat + 1275068424
def encVredMax (sw : Bool) (v : BitVec 5) (a : BitVec 5) (m : BitVec 3) (t : BitVec 2) : Nat := b2n sw * 2147483648 + v.toNat * 1048576 + a.toNat * 32768 + m.toNat * 128 + t.toNat + 1275068428
def encVredMin (sw : Bool) (v : BitVec 5) (a : BitVec 5) (m : BitVec 3) (t : BitVec 2) : Nat := b2n sw * 2147483648 + v.toNat * 1048576 + a.toNat * 32768 + m.toNat * 128 + t.toNat + 1275068432
def encVscanAdd (sw : Bool) (v : BitVec 5) (a : BitVec 5) (m : BitVec 3) (t : BitVec 2) : Nat := b2n sw * 2147483648 + v.toNat * 1048576 + a.toNat * 32768 + m.toNat * 128 + t.toNat + 1275068436
def encVcmp (sw : Bool) (d : BitVec 3) (a : BitVec 5) (b : BitVec 5) (m : BitVec 3) (y : BitVec 3) (c : BitVec 3) : Nat := b2n sw * 2147483648 + d.toNat * 1048576 + a.toNat * 32768 + b.toNat * 1024 + m.toNat * 128 + y.toNat * 8 + c.toNat + 1275068480
def encMpop (sw : Bool) (a : BitVec 3) (g : BitVec 4) (m : BitVec 3) : Nat := b2n sw * 2147483648 + a.toNat * 32768 + g.toNat * 2048 + m.toNat * 256 + 1308622848
def encVbcst (sw : Bool) (v : BitVec 5) (g : BitVec 4) (m : BitVec 3) : Nat := b2n sw * 2147483648 + v.toNat * 1048576 + g.toNat * 2048 + m.toNat * 256 + 1308622849
def encVbcstH (sw : Bool) (v : BitVec 5) (g : BitVec 4) (m : BitVec 3) : Nat := b2n sw * 2147483648 + v.toNat * 1048576 + g.toNat * 2048 + m.toNat * 256 + 1308622850
def encVbcstB (sw : Bool) (v : BitVec 5) (g : BitVec 4) (m : BitVec 3) : Nat := b2n sw * 2147483648 + v.toNat * 1048576 + g.toNat * 2048 + m.toNat * 256 + 1308622851
def encVslide (sw : Bool) (v : BitVec 5) (a : BitVec 5) (g : BitVec 4) (m : BitVec 3) : Nat := b2n sw * 2147483648 + v.toNat * 1048576 + a.toNat * 32768 + g.toNat * 2048 + m.toNat * 256 + 1308622852
def encViota (sw : Bool) (v : BitVec 5) (g : BitVec 4) (m : BitVec 3) : Nat := b2n sw * 2147483648 + v.toNat * 1048576 + g.toNat * 2048 + m.toNat * 256 + 1308622853
def encVgathl (sw : Bool) (v : BitVec 5) (a : BitVec 5) (g : BitVec 4) (m : BitVec 3) : Nat := b2n sw * 2147483648 + v.toNat * 1048576 + a.toNat * 32768 + g.toNat * 2048 + m.toNat * 256 + 1308622854
def encVscatl (sw : Bool) (v : BitVec 5) (a : BitVec 5) (g : BitVec 4) (m : BitVec 3) : Nat := b2n sw * 2147483648 + v.toNat * 1048576 + a.toNat * 32768 + g.toNat * 2048 + m.toNat * 256 + 1308622855
def encVdistIp (sw : Bool) (v : BitVec 5) (a : BitVec 5) (g : BitVec 4) (m : BitVec 3) : Nat := b2n sw * 2147483648 + v.toNat * 1048576 + a.toNat * 32768 + g.toNat * 2048 + m.toNat * 256 + 1308622856
def encVdistL2 (sw : Bool) (v : BitVec 5) (a : BitVec 5) (g : BitVec 4) (m : BitVec 3) : Nat := b2n sw * 2147483648 + v.toNat * 1048576 + a.toNat * 32768 + g.toNat * 2048 + m.toNat * 256 + 1308622857
def encVdistCos (sw : Bool) (v : BitVec 5) (a : BitVec 5) (g : BitVec 4) (m : BitVec 3) : Nat := b2n sw * 2147483648 + v.toNat * 1048576 + a.toNat * 32768 + g.toNat * 2048 + m.toNat * 256 + 1308622858
def encVbmax (sw : Bool) (v : BitVec 5) (a : BitVec 5) (m : BitVec 3) (e : BitVec 2) : Nat := b2n sw * 2147483648 + v.toNat * 1048576 + a.toNat * 32768 + m.toNat * 256 + e.toNat + 1308622860
def encVscale (sw : Bool) (a : BitVec 5) (g : BitVec 4) (f : BitVec 4) (e : BitVec 2) : Nat := b2n sw * 2147483648 + a.toNat * 32768 + g.toNat * 2048 + f.toNat * 4 + e.toNat + 1308622912
def encVins (sw : Bool) (v : BitVec 5) (l : BitVec 5) (g : BitVec 4) (k : BitVec 2) : Nat := b2n sw * 2147483648 + v.toNat * 1048576 + l.toNat * 32768 + g.toNat * 2048 + k.toNat + 1308622976
def encVext (sw : Bool) (v : BitVec 5) (l : BitVec 5) (g : BitVec 4) (k : BitVec 2) : Nat := b2n sw * 2147483648 + v.toNat * 1048576 + l.toNat * 32768 + g.toNat * 2048 + k.toNat + 1308622980
def encRlins (sw : Bool) (l : BitVec 2) (a : BitVec 5) (b : BitVec 4) (m : BitVec 3) : Nat := b2n sw * 2147483648 + l.toNat * 1048576 + a.toNat * 32768 + b.toNat * 1024 + m.toNat * 128 + 1342177280
def encRlinsx (sw : Bool) (l : BitVec 2) (a : BitVec 5) (b : BitVec 5) (m : BitVec 3) : Nat := b2n sw * 2147483648 + l.toNat * 1048576 + a.toNat * 32768 + b.toNat * 1024 + m.toNat * 128 + 1342177281
def encRlprune (sw : Bool) (d : BitVec 3) (a : BitVec 5) (l : BitVec 2) (m : BitVec 3) : Nat := b2n sw * 2147483648 + d.toNat * 1048576 + a.toNat * 32768 + l.toNat * 1024 + m.toNat * 128 + 1342177282
def encRlmerge (sw : Bool) (l : BitVec 2) (k : BitVec 2) : Nat := b2n sw * 2147483648 + l.toNat * 1048576 + k.toNat * 32768 + 1342177283
def encRlclr (sw : Bool) (l : BitVec 2) : Nat := b2n sw * 2147483648 + l.toNat * 1048576 + 1342177284
def encRlinit (sw : Bool) (k : BitVec 7) (l : BitVec 2) : Nat := b2n sw * 2147483648 + k.toNat * 4 + l.toNat + 1375731712
def encRlthr (sw : Bool) (d : BitVec 4) (l : BitVec 2) : Nat := b2n sw * 2147483648 + d.toNat * 2097152 + l.toNat + 1375739904
def encRllen (sw : Bool) (d : BitVec 4) (l : BitVec 2) : Nat := b2n sw * 2147483648 + d.toNat * 2097152 + l.toNat + 1375748096
def encRlget (sw : Bool) (d : BitVec 4) (a : BitVec 4) (l : BitVec 2) : Nat := b2n sw * 2147483648 + d.toNat * 2097152 + a.toNat * 131072 + l.toNat + 1375756288
def encRlst (sw : Bool) (a : BitVec 4) (l : BitVec 2) : Nat := b2n sw * 2147483648 + a.toNat * 131072 + l.toNat + 1375764480
def encRlld (sw : Bool) (a : BitVec 4) (l : BitVec 2) : Nat := b2n sw * 2147483648 + a.toNat * 131072 + l.toNat + 1375772672
def encRlsend (sw : Bool) (d : BitVec 4) (a : BitVec 4) (l : BitVec 2) : Nat := b2n sw * 2147483648 + d.toNat * 2097152 + a.toNat * 131072 + l.toNat + 1375780864
def encRlfloor (sw : Bool) (a : BitVec 4) (l : BitVec 2) : Nat := b2n sw * 2147483648 + a.toNat * 131072 + l.toNat + 1375789056
def encMma (sw : Bool) (d : BitVec 4) (a : BitVec 4) (b : BitVec 4) (c : BitVec 4) (q : BitVec 1) (h : BitVec 1) (f : BitVec 1) (n : BitVec 2) : Nat := b2n sw * 2147483648 + d.toNat * 2097152 + a.toNat * 131072 + b.toNat * 8192 + c.toNat * 512 + q.toNat * 32 + h.toNat * 16 + f.toNat * 8 + n.toNat + 1476395008
def encMmag (sw : Bool) (d : BitVec 4) (a : BitVec 4) (b : BitVec 4) (c : BitVec 4) (q : BitVec 1) (h : BitVec 1) (f : BitVec 1) (n : BitVec 2) : Nat := b2n sw * 2147483648 + d.toNat * 2097152 + a.toNat * 131072 + b.toNat * 8192 + c.toNat * 512 + q.toNat * 32 + h.toNat * 16 + f.toNat * 8 + n.toNat + 1476395012
def encMmr (sw : Bool) (d : BitVec 4) (a : BitVec 4) (c : BitVec 4) (z : BitVec 1) (k : BitVec 1) (n : BitVec 2) : Nat := b2n sw * 2147483648 + d.toNat * 2097152 + a.toNat * 131072 + c.toNat * 512 + z.toNat * 16 + k.toNat * 8 + n.toNat + 1509949440
def encMmrl (sw : Bool) (d : BitVec 4) (a : BitVec 4) (c : BitVec 4) (z : BitVec 1) (k : BitVec 1) (n : BitVec 2) : Nat := b2n sw * 2147483648 + d.toNat * 2097152 + a.toNat * 131072 + c.toNat * 512 + z.toNat * 16 + k.toNat * 8 + n.toNat + 1509949444
def encMmz (sw : Bool) (n : BitVec 2) : Nat := b2n sw * 2147483648 + n.toNat + 1543503872
def encMmrank (sw : Bool) (k : BitVec 4) (n : BitVec 2) : Nat := b2n sw * 2147483648 + k.toNat * 8 + n.toNat + 1543503876
def encTilexy (sw : Bool) (d : BitVec 4) : Nat := b2n sw * 2147483648 + d.toNat * 2097152 + 1577058304
def encEdgem (sw : Bool) (d : BitVec 4) : Nat := b2n sw * 2147483648 + d.toNat * 2097152 + 1577058336
def encSete (sw : Bool) (a : BitVec 4) (e : BitVec 3) : Nat := b2n sw * 2147483648 + a.toNat * 131072 + e.toNat + 1577058368
def encGete (sw : Bool) (d : BitVec 4) (e : BitVec 3) : Nat := b2n sw * 2147483648 + d.toNat * 2097152 + e.toNat + 1577058400
def encCpyG2l (sw : Bool) (d : BitVec 4) (a : BitVec 4) (b : BitVec 4) (c : BitVec 4) : Nat := b2n sw * 2147483648 + d.toNat * 2097152 + a.toNat * 131072 + b.toNat * 8192 + c.toNat * 512 + 1677721600
def encCpyL2g (sw : Bool) (d : BitVec 4) (a : BitVec 4) (b : BitVec 4) (c : BitVec 4) : Nat := b2n sw * 2147483648 + d.toNat * 2097152 + a.toNat * 131072 + b.toNat * 8192 + c.toNat * 512 + 1677721601
def encCpyG2g (sw : Bool) (d : BitVec 4) (a : BitVec 4) (b : BitVec 4) (c : BitVec 4) : Nat := b2n sw * 2147483648 + d.toNat * 2097152 + a.toNat * 131072 + b.toNat * 8192 + c.toNat * 512 + 1677721602
def encCpyrL (sw : Bool) (d : BitVec 4) (a : BitVec 4) (b : BitVec 4) (c : BitVec 4) : Nat := b2n sw * 2147483648 + d.toNat * 2097152 + a.toNat * 131072 + b.toNat * 8192 + c.toNat * 512 + 1677721604
def encCpyrG (sw : Bool) (d : BitVec 4) (a : BitVec 4) (b : BitVec 4) (c : BitVec 4) : Nat := b2n sw * 2147483648 + d.toNat * 2097152 + a.toNat * 131072 + b.toNat * 8192 + c.toNat * 512 + 1677721605
def encCpywL (sw : Bool) (d : BitVec 4) (a : BitVec 4) (b : BitVec 4) (c : BitVec 4) : Nat := b2n sw * 2147483648 + d.toNat * 2097152 + a.toNat * 131072 + b.toNat * 8192 + c.toNat * 512 + 1677721606
def encCpywG (sw : Bool) (d : BitVec 4) (a : BitVec 4) (b : BitVec 4) (c : BitVec 4) : Nat := b2n sw * 2147483648 + d.toNat * 2097152 + a.toNat * 131072 + b.toNat * 8192 + c.toNat * 512 + 1677721607
def encCredAdd (sw : Bool) (d : BitVec 4) (a : BitVec 4) (b : BitVec 4) (c : BitVec 4) : Nat := b2n sw * 2147483648 + d.toNat * 2097152 + a.toNat * 131072 + b.toNat * 8192 + c.toNat * 512 + 1711276032
def encCredMax (sw : Bool) (d : BitVec 4) (a : BitVec 4) (b : BitVec 4) (c : BitVec 4) : Nat := b2n sw * 2147483648 + d.toNat * 2097152 + a.toNat * 131072 + b.toNat * 8192 + c.toNat * 512 + 1711276033
def encCredAddSlice (sw : Bool) (d : BitVec 4) (a : BitVec 4) (b : BitVec 4) (c : BitVec 4) : Nat := b2n sw * 2147483648 + d.toNat * 2097152 + a.toNat * 131072 + b.toNat * 8192 + c.toNat * 512 + 1711276034
def encCredMaxSlice (sw : Bool) (d : BitVec 4) (a : BitVec 4) (b : BitVec 4) (c : BitVec 4) : Nat := b2n sw * 2147483648 + d.toNat * 2097152 + a.toNat * 131072 + b.toNat * 8192 + c.toNat * 512 + 1711276035
def encCatomAdd (sw : Bool) (d : BitVec 4) (a : BitVec 4) (b : BitVec 4) (c : BitVec 4) (z : BitVec 1) : Nat := b2n sw * 2147483648 + d.toNat * 2097152 + a.toNat * 131072 + b.toNat * 8192 + c.toNat * 512 + z.toNat * 16 + 1744830464
def encCatomAnd (sw : Bool) (d : BitVec 4) (a : BitVec 4) (b : BitVec 4) (c : BitVec 4) (z : BitVec 1) : Nat := b2n sw * 2147483648 + d.toNat * 2097152 + a.toNat * 131072 + b.toNat * 8192 + c.toNat * 512 + z.toNat * 16 + 1744830465
def encCatomOr (sw : Bool) (d : BitVec 4) (a : BitVec 4) (b : BitVec 4) (c : BitVec 4) (z : BitVec 1) : Nat := b2n sw * 2147483648 + d.toNat * 2097152 + a.toNat * 131072 + b.toNat * 8192 + c.toNat * 512 + z.toNat * 16 + 1744830466
def encCatomXor (sw : Bool) (d : BitVec 4) (a : BitVec 4) (b : BitVec 4) (c : BitVec 4) (z : BitVec 1) : Nat := b2n sw * 2147483648 + d.toNat * 2097152 + a.toNat * 131072 + b.toNat * 8192 + c.toNat * 512 + z.toNat * 16 + 1744830467
def encCatomMin (sw : Bool) (d : BitVec 4) (a : BitVec 4) (b : BitVec 4) (c : BitVec 4) (z : BitVec 1) : Nat := b2n sw * 2147483648 + d.toNat * 2097152 + a.toNat * 131072 + b.toNat * 8192 + c.toNat * 512 + z.toNat * 16 + 1744830468
def encCatomMax (sw : Bool) (d : BitVec 4) (a : BitVec 4) (b : BitVec 4) (c : BitVec 4) (z : BitVec 1) : Nat := b2n sw * 2147483648 + d.toNat * 2097152 + a.toNat * 131072 + b.toNat * 8192 + c.toNat * 512 + z.toNat * 16 + 1744830469
def encCatomMinu (sw : Bool) (d : BitVec 4) (a : BitVec 4) (b : BitVec 4) (c : BitVec 4) (z : BitVec 1) : Nat := b2n sw * 2147483648 + d.toNat * 2097152 + a.toNat * 131072 + b.toNat * 8192 + c.toNat * 512 + z.toNat * 16 + 1744830470
def encCatomMaxu (sw : Bool) (d : BitVec 4) (a : BitVec 4) (b : BitVec 4) (c : BitVec 4) (z : BitVec 1) : Nat := b2n sw * 2147483648 + d.toNat * 2097152 + a.toNat * 131072 + b.toNat * 8192 + c.toNat * 512 + z.toNat * 16 + 1744830471
def encCatomSwap (sw : Bool) (d : BitVec 4) (a : BitVec 4) (b : BitVec 4) (c : BitVec 4) (z : BitVec 1) : Nat := b2n sw * 2147483648 + d.toNat * 2097152 + a.toNat * 131072 + b.toNat * 8192 + c.toNat * 512 + z.toNat * 16 + 1744830472
def encCatomFadd (sw : Bool) (d : BitVec 4) (a : BitVec 4) (b : BitVec 4) (c : BitVec 4) : Nat := b2n sw * 2147483648 + d.toNat * 2097152 + a.toNat * 131072 + b.toNat * 8192 + c.toNat * 512 + 1744830473
def encCatomCas (sw : Bool) (d : BitVec 4) (a : BitVec 4) (b : BitVec 4) (c : BitVec 4) (z : BitVec 1) : Nat := b2n sw * 2147483648 + d.toNat * 2097152 + a.toNat * 131072 + b.toNat * 8192 + c.toNat * 512 + z.toNat * 16 + 1744830474
def encCmc (sw : Bool) (d : BitVec 4) (a : BitVec 4) (b : BitVec 4) (c : BitVec 4) : Nat := b2n sw * 2147483648 + d.toNat * 2097152 + a.toNat * 131072 + b.toNat * 8192 + c.toNat * 512 + 1778384896
def encCstorL (sw : Bool) (d : BitVec 4) (a : BitVec 4) (b : BitVec 4) (c : BitVec 4) : Nat := b2n sw * 2147483648 + d.toNat * 2097152 + a.toNat * 131072 + b.toNat * 8192 + c.toNat * 512 + 1778384897
def encCstorG (sw : Bool) (d : BitVec 4) (a : BitVec 4) (b : BitVec 4) (c : BitVec 4) : Nat := b2n sw * 2147483648 + d.toNat * 2097152 + a.toNat * 131072 + b.toNat * 8192 + c.toNat * 512 + 1778384898
def encCdec (sw : Bool) (d : BitVec 4) (a : BitVec 4) (b : BitVec 4) (c : BitVec 4) : Nat := b2n sw * 2147483648 + d.toNat * 2097152 + a.toNat * 131072 + b.toNat * 8192 + c.toNat * 512 + 1811939328
def encCdtab (sw : Bool) (d : BitVec 4) (a : BitVec 4) (c : BitVec 4) : Nat := b2n sw * 2147483648 + d.toNat * 2097152 + a.toNat * 131072 + c.toNat * 512 + 1811939329
def encSchadv (sw : Bool) (imm : BitVec 13) : Nat := b2n sw * 2147483648 + imm.toNat + 1845493760
def encSchrd (sw : Bool) (d : BitVec 4) : Nat := b2n sw * 2147483648 + d.toNat * 2097152 + 1845501952
def encCseal (sw : Bool) (d : BitVec 4) : Nat := b2n sw * 2147483648 + d.toNat * 2097152 + 1845510144
def encCwaitn (sw : Bool) (imm : BitVec 13) : Nat := b2n sw * 2147483648 + imm.toNat + 1845518336
def encNsendG (sw : Bool) (d : BitVec 4) (a : BitVec 4) (b : BitVec 4) (c : BitVec 4) : Nat := b2n sw * 2147483648 + d.toNat * 2097152 + a.toNat * 131072 + b.toNat * 8192 + c.toNat * 512 + 1879048192
def encNsendL (sw : Bool) (d : BitVec 4) (a : BitVec 4) (b : BitVec 4) (c : BitVec 4) : Nat := b2n sw * 2147483648 + d.toNat * 2097152 + a.toNat * 131072 + b.toNat * 8192 + c.toNat * 512 + 1879048193
def encNpost (sw : Bool) (a : BitVec 4) (c : BitVec 4) (r : BitVec 8) : Nat := b2n sw * 2147483648 + a.toNat * 131072 + c.toNat * 512 + r.toNat + 1912602624
def encNrqstat (sw : Bool) (d : BitVec 4) (r : BitVec 8) : Nat := b2n sw * 2147483648 + d.toNat * 2097152 + r.toNat + 1946157056
def encGrpset (sw : Bool) (d : BitVec 4) (a : BitVec 4) : Nat := b2n sw * 2147483648 + d.toNat * 2097152 + a.toNat * 131072 + 1946165248
def encGrpsetOwn (sw : Bool) (d : BitVec 4) (a : BitVec 4) : Nat := b2n sw * 2147483648 + d.toNat * 2097152 + a.toNat * 131072 + 1946173440
def encGrpget (sw : Bool) (d : BitVec 4) (a : BitVec 4) : Nat := b2n sw * 2147483648 + d.toNat * 2097152 + a.toNat * 131072 + 1946181632
def encRtgate (sw : Bool) (a : BitVec 4) (b : BitVec 4) : Nat := b2n sw * 2147483648 + a.toNat * 131072 + b.toNat * 8192 + 1979711488
def encRtflush (sw : Bool) : Nat := b2n sw * 2147483648 + 1979711520
def encRtcfg (sw : Bool) (a : BitVec 4) : Nat := b2n sw * 2147483648 + a.toNat * 131072 + 1979711552
def encRtbuf (sw : Bool) (d : BitVec 4) : Nat := b2n sw * 2147483648 + d.toNat * 2097152 + 1979711584
def encErtset (sw : Bool) (a : BitVec 4) (b : BitVec 4) : Nat := b2n sw * 2147483648 + a.toNat * 131072 + b.toNat * 8192 + 2013265920
def encErtpin (sw : Bool) (a : BitVec 4) : Nat := b2n sw * 2147483648 + a.toNat * 131072 + 2013265952
def encErtunpin (sw : Bool) (a : BitVec 4) : Nat := b2n sw * 2147483648 + a.toNat * 131072 + 2013265984
def encErtq (sw : Bool) (d : BitVec 4) (a : BitVec 4) : Nat := b2n sw * 2147483648 + d.toNat * 2097152 + a.toNat * 131072 + 2013266016
def encSysc (sw : Bool) (imm : BitVec 13) : Nat := b2n sw * 2147483648 + imm.toNat + 2046820352
def encBrk (sw : Bool) (imm : BitVec 13) : Nat := b2n sw * 2147483648 + imm.toNat + 2046828544
def encTret : Nat := 4194320384
def encTlbgen (sw : Bool) (a : BitVec 4) : Nat := b2n sw * 2147483648 + a.toNat * 131072 + 2080374784
def encTlbprobe (sw : Bool) (d : BitVec 4) (a : BitVec 4) : Nat := b2n sw * 2147483648 + d.toNat * 2097152 + a.toNat * 131072 + 2080374816
def encFltres (sw : Bool) (a : BitVec 4) : Nat := b2n sw * 2147483648 + a.toNat * 131072 + 2080374848
def encCtxsave (sw : Bool) (a : BitVec 4) : Nat := b2n sw * 2147483648 + a.toNat * 131072 + 2080374880
def encCtxrest (sw : Bool) (a : BitVec 4) : Nat := b2n sw * 2147483648 + a.toNat * 131072 + 2080374912

/-- The word of an encoded instruction, as a number; the steps of the agents have none and get 0, which is no
instruction (03 R57). -/
def encodeNat (i : Instr) : Nat :=
  match i with
  | .add sw d a b => encAdd sw d a b
  | .addW sw d a b => encAddW sw d a b
  | .sub sw d a b => encSub sw d a b
  | .subW sw d a b => encSubW sw d a b
  | .and sw d a b => encAnd sw d a b
  | .andW sw d a b => encAndW sw d a b
  | .or sw d a b => encOr sw d a b
  | .orW sw d a b => encOrW sw d a b
  | .xor sw d a b => encXor sw d a b
  | .xorW sw d a b => encXorW sw d a b
  | .andn sw d a b => encAndn sw d a b
  | .andnW sw d a b => encAndnW sw d a b
  | .shl sw d a b => encShl sw d a b
  | .shlW sw d a b => encShlW sw d a b
  | .shr sw d a b => encShr sw d a b
  | .shrW sw d a b => encShrW sw d a b
  | .sar sw d a b => encSar sw d a b
  | .sarW sw d a b => encSarW sw d a b
  | .min sw d a b => encMin sw d a b
  | .minW sw d a b => encMinW sw d a b
  | .max sw d a b => encMax sw d a b
  | .maxW sw d a b => encMaxW sw d a b
  | .minu sw d a b => encMinu sw d a b
  | .minuW sw d a b => encMinuW sw d a b
  | .maxu sw d a b => encMaxu sw d a b
  | .maxuW sw d a b => encMaxuW sw d a b
  | .mul sw d a b => encMul sw d a b
  | .mulW sw d a b => encMulW sw d a b
  | .mulh sw d a b => encMulh sw d a b
  | .mulhW sw d a b => encMulhW sw d a b
  | .mulhu sw d a b => encMulhu sw d a b
  | .mulhuW sw d a b => encMulhuW sw d a b
  | .div sw d a b => encDiv sw d a b
  | .divW sw d a b => encDivW sw d a b
  | .divu sw d a b => encDivu sw d a b
  | .divuW sw d a b => encDivuW sw d a b
  | .rem sw d a b => encRem sw d a b
  | .remW sw d a b => encRemW sw d a b
  | .remu sw d a b => encRemu sw d a b
  | .remuW sw d a b => encRemuW sw d a b
  | .slt sw d a b => encSlt sw d a b
  | .sltW sw d a b => encSltW sw d a b
  | .sltu sw d a b => encSltu sw d a b
  | .sltuW sw d a b => encSltuW sw d a b
  | .seq sw d a b => encSeq sw d a b
  | .seqW sw d a b => encSeqW sw d a b
  | .clz sw d a => encClz sw d a
  | .clzW sw d a => encClzW sw d a
  | .ctz sw d a => encCtz sw d a
  | .ctzW sw d a => encCtzW sw d a
  | .popc sw d a => encPopc sw d a
  | .popcW sw d a => encPopcW sw d a
  | .sel sw d a b c => encSel sw d a b c
  | .selW sw d a b c => encSelW sw d a b c
  | .addi sw d a imm => encAddi sw d a imm
  | .andi sw d a imm => encAndi sw d a imm
  | .ori sw d a imm => encOri sw d a imm
  | .xori sw d a imm => encXori sw d a imm
  | .shli sw d a imm => encShli sw d a imm
  | .shri sw d a imm => encShri sw d a imm
  | .sari sw d a imm => encSari sw d a imm
  | .slti sw d a imm => encSlti sw d a imm
  | .sltui sw d a imm => encSltui sw d a imm
  | .seqi sw d a imm => encSeqi sw d a imm
  | .muli sw d a imm => encMuli sw d a imm
  | .lim sw d imm => encLim sw d imm
  | .limt sw d imm => encLimt sw d imm
  | .lea sw d a b h => encLea sw d a b h
  | .bfx sw d a l p => encBfx sw d a l p
  | .bfxS sw d a l p => encBfxS sw d a l p
  | .bfi sw d a l p => encBfi sw d a l p
  | .beq sw a b o => encBeq sw a b o
  | .bne sw a b o => encBne sw a b o
  | .blt sw a b o => encBlt sw a b o
  | .bge sw a b o => encBge sw a b o
  | .bltu sw a b o => encBltu sw a b o
  | .bgeu sw a b o => encBgeu sw a b o
  | .beqz sw a o => encBeqz sw a o
  | .bnez sw a o => encBnez sw a o
  | .jump sw o => encJump sw o
  | .call sw o => encCall sw o
  | .nop sw => encNop sw
  | .endAct sw => encEndAct sw
  | .jr sw a => encJr sw a
  | .callr sw a => encCallr sw a
  | .ret sw => encRet sw
  | .mfs sw d r => encMfs sw d r
  | .mts sw d r => encMts sw d r
  | .hxImm v => encHxImm v
  | .hxRnd m => encHxRnd m
  | .hxReuse k => encHxReuse k
  | .hxNt => encHxNt
  | .hxPri p => encHxPri p
  | .send sw d a b n => encSend sw d a b n
  | .sendRq sw d a b n => encSendRq sw d a b n
  | .sendb sw d a b => encSendb sw d a b
  | .sendbRq sw d a b => encSendbRq sw d a b
  | .reply sw b n => encReply sw b n
  | .replyb sw b => encReplyb sw b
  | .migr a => encMigr a
  | .migrx d => encMigrx d
  | .recvw sw d => encRecvw sw d
  | .homexy sw d a => encHomexy sw d a
  | .evarm sw a b => encEvarm sw a b
  | .evsend sw d a b e => encEvsend sw d a b e
  | .evread sw d a => encEvread sw d a
  | .pushw sw b => encPushw sw b
  | .popw sw d => encPopw sw d
  | .steal sw => encSteal sw
  | .dqlen sw d => encDqlen sw d
  | .launch sw d a => encLaunch sw d a
  | .kill sw a => encKill sw a
  | .evsig sw a imm => encEvsig sw a imm
  | .sgrp sw d l => encSgrp sw d l
  | .garrAnd sw d a k => encGarrAnd sw d a k
  | .garrOr sw d a k => encGarrOr sw d a k
  | .garrAdd sw d a k => encGarrAdd sw d a k
  | .garrMaxu sw d a k => encGarrMaxu sw d a k
  | .garrFmax sw d a k => encGarrFmax sw d a k
  | .garrFmin sw d a k => encGarrFmin sw d a k
  | .garrwAnd sw d a k => encGarrwAnd sw d a k
  | .garrwOr sw d a k => encGarrwOr sw d a k
  | .garrwAdd sw d a k => encGarrwAdd sw d a k
  | .garrwMaxu sw d a k => encGarrwMaxu sw d a k
  | .garrwFmax sw d a k => encGarrwFmax sw d a k
  | .garrwFmin sw d a k => encGarrwFmin sw d a k
  | .ldgB sw d a imm => encLdgB sw d a imm
  | .ldgBu sw d a imm => encLdgBu sw d a imm
  | .ldgH sw d a imm => encLdgH sw d a imm
  | .ldgHu sw d a imm => encLdgHu sw d a imm
  | .ldgW sw d a imm => encLdgW sw d a imm
  | .ldgWu sw d a imm => encLdgWu sw d a imm
  | .ldgD sw d a imm => encLdgD sw d a imm
  | .ldgAcq sw d a imm => encLdgAcq sw d a imm
  | .stgB sw d a imm => encStgB sw d a imm
  | .stgH sw d a imm => encStgH sw d a imm
  | .stgW sw d a imm => encStgW sw d a imm
  | .stgD sw d a imm => encStgD sw d a imm
  | .stgRel sw d a imm => encStgRel sw d a imm
  | .ldgAcqW sw d a imm => encLdgAcqW sw d a imm
  | .stgRelW sw d a imm => encStgRelW sw d a imm
  | .pref sw a imm => encPref sw a imm
  | .ldlB sw d a imm => encLdlB sw d a imm
  | .ldlBu sw d a imm => encLdlBu sw d a imm
  | .ldlH sw d a imm => encLdlH sw d a imm
  | .ldlHu sw d a imm => encLdlHu sw d a imm
  | .ldlW sw d a imm => encLdlW sw d a imm
  | .ldlWu sw d a imm => encLdlWu sw d a imm
  | .ldlD sw d a imm => encLdlD sw d a imm
  | .stlB sw d a imm => encStlB sw d a imm
  | .stlH sw d a imm => encStlH sw d a imm
  | .stlW sw d a imm => encStlW sw d a imm
  | .stlD sw d a imm => encStlD sw d a imm
  | .vldg sw v g m o => encVldg sw v g m o
  | .vstg sw v g m o => encVstg sw v g m o
  | .vldl sw v g m o => encVldl sw v g m o
  | .vstl sw v g m o => encVstl sw v g m o
  | .vldls sw v a g m => encVldls sw v a g m
  | .vstls sw v a g m => encVstls sw v a g m
  | .tldgF32 sw v g => encTldgF32 sw v g
  | .tldgBf16 sw v g => encTldgBf16 sw v g
  | .tstgF32 sw v g => encTstgF32 sw v g
  | .tstgBf16 sw v g => encTstgBf16 sw v g
  | .bmovG2l d a b => encBmovG2l d a b
  | .bmovL2g d a b => encBmovL2g d a b
  | .bfillG d a b => encBfillG d a b
  | .bfillL d a b => encBfillL d a b
  | .amogAdd sw d a b z => encAmogAdd sw d a b z
  | .amogAnd sw d a b z => encAmogAnd sw d a b z
  | .amogOr sw d a b z => encAmogOr sw d a b z
  | .amogXor sw d a b z => encAmogXor sw d a b z
  | .amogMin sw d a b z => encAmogMin sw d a b z
  | .amogMax sw d a b z => encAmogMax sw d a b z
  | .amogMinu sw d a b z => encAmogMinu sw d a b z
  | .amogMaxu sw d a b z => encAmogMaxu sw d a b z
  | .amogSwap sw d a b z => encAmogSwap sw d a b z
  | .amogFadd sw d a b => encAmogFadd sw d a b
  | .amolAdd sw d a b z => encAmolAdd sw d a b z
  | .amolAnd sw d a b z => encAmolAnd sw d a b z
  | .amolOr sw d a b z => encAmolOr sw d a b z
  | .amolXor sw d a b z => encAmolXor sw d a b z
  | .amolMin sw d a b z => encAmolMin sw d a b z
  | .amolMax sw d a b z => encAmolMax sw d a b z
  | .amolMinu sw d a b z => encAmolMinu sw d a b z
  | .amolMaxu sw d a b z => encAmolMaxu sw d a b z
  | .amolSwap sw d a b z => encAmolSwap sw d a b z
  | .amolFadd sw d a b => encAmolFadd sw d a b
  | .casg sw d a b z => encCasg sw d a b z
  | .casl sw d a b z => encCasl sw d a b z
  | .waitwG sw d a b c => encWaitwG sw d a b c
  | .waitwL sw d a b c => encWaitwL sw d a b c
  | .binit sw a b => encBinit sw a b
  | .bexpect sw a b => encBexpect sw a b
  | .barrive sw a => encBarrive sw a
  | .bwait sw a b => encBwait sw a b
  | .btest sw d a => encBtest sw d a
  | .fence sw p _ => encFence sw p.scope p.kinds
  | .tlwait sw a imm => encTlwait sw a imm
  | .tlread sw d imm => encTlread sw d imm
  | .vadd sw v a b m t => encVadd sw v a b m t
  | .vsub sw v a b m t => encVsub sw v a b m t
  | .vmul sw v a b m t => encVmul sw v a b m t
  | .vdiv sw v a b m t => encVdiv sw v a b m t
  | .vmin sw v a b m t => encVmin sw v a b m t
  | .vmax sw v a b m t => encVmax sw v a b m t
  | .vfma sw v a b m t => encVfma sw v a b m t
  | .vfms sw v a b m t => encVfms sw v a b m t
  | .vfnma sw v a b m t => encVfnma sw v a b m t
  | .vabs sw v a m t => encVabs sw v a m t
  | .vneg sw v a m t => encVneg sw v a m t
  | .vsqrt sw v a m t => encVsqrt sw v a m t
  | .vexp2 sw v a m t => encVexp2 sw v a m t
  | .vlog2 sw v a m t => encVlog2 sw v a m t
  | .viadd sw v a b m w => encViadd sw v a b m w
  | .visub sw v a b m w => encVisub sw v a b m w
  | .vimul sw v a b m w => encVimul sw v a b m w
  | .vimulh sw v a b m w => encVimulh sw v a b m w
  | .vimin sw v a b m w => encVimin sw v a b m w
  | .vimax sw v a b m w => encVimax sw v a b m w
  | .vand sw v a b m w => encVand sw v a b m w
  | .vor sw v a b m w => encVor sw v a b m w
  | .vxor sw v a b m w => encVxor sw v a b m w
  | .vshl sw v a b m w => encVshl sw v a b m w
  | .vshr sw v a b m w => encVshr sw v a b m w
  | .vsar sw v a b m w => encVsar sw v a b m w
  | .vidot4 sw v a b m => encVidot4 sw v a b m
  | .vcvt sw v a c m e p => encVcvt sw v a c m e p
  | .vquant sw v a g m f e p => encVquant sw v a g m f e p
  | .vquantFix sw v a g m f e p => encVquantFix sw v a g m f e p
  | .vdeq sw v a g m f e p => encVdeq sw v a g m f e p
  | .mand sw d a b => encMand sw d a b
  | .mor sw d a b => encMor sw d a b
  | .mnot sw d a => encMnot sw d a
  | .vselm sw v a b m => encVselm sw v a b m
  | .vperm sw v a b m => encVperm sw v a b m
  | .vredAdd sw v a m t => encVredAdd sw v a m t
  | .vredMax sw v a m t => encVredMax sw v a m t
  | .vredMin sw v a m t => encVredMin sw v a m t
  | .vscanAdd sw v a m t => encVscanAdd sw v a m t
  | .vcmp sw d a b m y c => encVcmp sw d a b m y c
  | .mpop sw a g m => encMpop sw a g m
  | .vbcst sw v g m => encVbcst sw v g m
  | .vbcstH sw v g m => encVbcstH sw v g m
  | .vbcstB sw v g m => encVbcstB sw v g m
  | .vslide sw v a g m => encVslide sw v a g m
  | .viota sw v g m => encViota sw v g m
  | .vgathl sw v a g m => encVgathl sw v a g m
  | .vscatl sw v a g m => encVscatl sw v a g m
  | .vdistIp sw v a g m => encVdistIp sw v a g m
  | .vdistL2 sw v a g m => encVdistL2 sw v a g m
  | .vdistCos sw v a g m => encVdistCos sw v a g m
  | .vbmax sw v a m e => encVbmax sw v a m e
  | .vscale sw a g f e => encVscale sw a g f e
  | .vins sw v l g k => encVins sw v l g k
  | .vext sw v l g k => encVext sw v l g k
  | .rlins sw l a b m => encRlins sw l a b m
  | .rlinsx sw l a b m => encRlinsx sw l a b m
  | .rlprune sw d a l m => encRlprune sw d a l m
  | .rlmerge sw l k => encRlmerge sw l k
  | .rlclr sw l => encRlclr sw l
  | .rlinit sw k l => encRlinit sw k l
  | .rlthr sw d l => encRlthr sw d l
  | .rllen sw d l => encRllen sw d l
  | .rlget sw d a l => encRlget sw d a l
  | .rlst sw a l => encRlst sw a l
  | .rlld sw a l => encRlld sw a l
  | .rlsend sw d a l => encRlsend sw d a l
  | .rlfloor sw a l => encRlfloor sw a l
  | .mma sw d a b c q h f n => encMma sw d a b c q h f n
  | .mmag sw d a b c q h f n => encMmag sw d a b c q h f n
  | .mmr sw d a c z k n => encMmr sw d a c z k n
  | .mmrl sw d a c z k n => encMmrl sw d a c z k n
  | .mmz sw n => encMmz sw n
  | .mmrank sw k n => encMmrank sw k n
  | .tilexy sw d => encTilexy sw d
  | .edgem sw d => encEdgem sw d
  | .sete sw a e => encSete sw a e
  | .gete sw d e => encGete sw d e
  | .cpyG2l sw d a b c => encCpyG2l sw d a b c
  | .cpyL2g sw d a b c => encCpyL2g sw d a b c
  | .cpyG2g sw d a b c => encCpyG2g sw d a b c
  | .cpyrL sw d a b c => encCpyrL sw d a b c
  | .cpyrG sw d a b c => encCpyrG sw d a b c
  | .cpywL sw d a b c => encCpywL sw d a b c
  | .cpywG sw d a b c => encCpywG sw d a b c
  | .credAdd sw d a b c => encCredAdd sw d a b c
  | .credMax sw d a b c => encCredMax sw d a b c
  | .credAddSlice sw d a b c => encCredAddSlice sw d a b c
  | .credMaxSlice sw d a b c => encCredMaxSlice sw d a b c
  | .catomAdd sw d a b c z => encCatomAdd sw d a b c z
  | .catomAnd sw d a b c z => encCatomAnd sw d a b c z
  | .catomOr sw d a b c z => encCatomOr sw d a b c z
  | .catomXor sw d a b c z => encCatomXor sw d a b c z
  | .catomMin sw d a b c z => encCatomMin sw d a b c z
  | .catomMax sw d a b c z => encCatomMax sw d a b c z
  | .catomMinu sw d a b c z => encCatomMinu sw d a b c z
  | .catomMaxu sw d a b c z => encCatomMaxu sw d a b c z
  | .catomSwap sw d a b c z => encCatomSwap sw d a b c z
  | .catomFadd sw d a b c => encCatomFadd sw d a b c
  | .catomCas sw d a b c z => encCatomCas sw d a b c z
  | .cmc sw d a b c => encCmc sw d a b c
  | .cstorL sw d a b c => encCstorL sw d a b c
  | .cstorG sw d a b c => encCstorG sw d a b c
  | .cdec sw d a b c => encCdec sw d a b c
  | .cdtab sw d a c => encCdtab sw d a c
  | .schadv sw imm => encSchadv sw imm
  | .schrd sw d => encSchrd sw d
  | .cseal sw d => encCseal sw d
  | .cwaitn sw imm => encCwaitn sw imm
  | .nsendG sw d a b c => encNsendG sw d a b c
  | .nsendL sw d a b c => encNsendL sw d a b c
  | .npost sw a c r => encNpost sw a c r
  | .nrqstat sw d r => encNrqstat sw d r
  | .grpset sw d a => encGrpset sw d a
  | .grpsetOwn sw d a => encGrpsetOwn sw d a
  | .grpget sw d a => encGrpget sw d a
  | .rtgate sw a b => encRtgate sw a b
  | .rtflush sw => encRtflush sw
  | .rtcfg sw a => encRtcfg sw a
  | .rtbuf sw d => encRtbuf sw d
  | .ertset sw a b => encErtset sw a b
  | .ertpin sw a => encErtpin sw a
  | .ertunpin sw a => encErtunpin sw a
  | .ertq sw d a => encErtq sw d a
  | .sysc sw imm => encSysc sw imm
  | .brk sw imm => encBrk sw imm
  | .tret => encTret
  | .tlbgen sw a => encTlbgen sw a
  | .tlbprobe sw d a => encTlbprobe sw d a
  | .fltres sw a => encFltres sw a
  | .ctxsave sw a => encCtxsave sw a
  | .ctxrest sw a => encCtxrest sw a
  | .groupClose _ _ => 0
  | .vectorPipeGrant _ => 0
  | .admission _ => 0
  | .placedOffer _ => 0
  | .ioDieIngress _ => 0
  | .bulkPacketArrival _ _ _ => 0
  | .reassemblyTimeout _ _ => 0
  | .admitMsg _ => 0
  | .retry _ => 0
  | .nack _ => 0
  | .outboundOffer _ _ => 0
  | .entryWordFill _ _ _ => 0
  | .dispatch _ => 0
  | .watchdog _ _ => 0
  | .hostLaunchSubmit _ _ => 0
  | .seedSend _ => 0
  | .autoend _ => 0
  | .hostKill _ => 0
  | .scratchpadSave _ _ => 0
  | .scratchpadRestore _ _ => 0
  | .eventOp _ => 0
  | .stealRequest _ => 0
  | .stealAnswer _ => 0
  | .groupArrival _ => 0
  | .storeBufferDrain _ _ => 0
  | .memoryAgentRequest _ => 0
  | .watchPeriodic _ _ => 0
  | .waitwTimeout _ _ => 0
  | .recvwTimeout _ _ => 0
  | .walkComplete _ _ => 0
  | .contextRestore _ _ => 0
  | .tileStep _ => 0
  | .matrixReadout _ => 0
  | .matrixListReadout _ => 0
  | .slotReset _ => 0
  | .gatherLatchFill _ => 0
  | .gbTileArrival _ => 0
  | .completionActions _ _ _ => 0
  | .copyExecute _ => 0
  | .remoteCopyExecute _ => 0
  | .credExecute _ => 0
  | .reductionContribution _ => 0
  | .catomExecute _ => 0
  | .cmcExecute _ => 0
  | .multicastMemberWrite _ => 0
  | .multicastResponse _ => 0
  | .multicastResponseTimeout _ => 0
  | .cstorExecute _ => 0
  | .nvmeCompletion _ _ _ => 0
  | .cdtabExecute _ => 0
  | .cdecExecute _ => 0
  | .remoteTransaction _ => 0
  | .transactionReissue _ => 0
  | .fabricUnreachable _ => 0
  | .flitArrival _ _ => 0
  | .healthAgeing => 0
  | .portRetrainComplete _ _ => 0
  | .netSendExecute _ => 0
  | .ueOmfPacket _ => 0
  | .ueSendData _ => 0
  | .ueAcknowledgement _ => 0
  | .ueReceiverNotReady _ => 0
  | .ueClose _ => 0
  | .ueCloseAnswer _ => 0
  | .ueRetransmit _ => 0
  | .ueRnrReoffer _ => 0
  | .ueNobufTimeout _ => 0
  | .routeGateExecute _ => 0
  | .sendListTimeout _ _ => 0
  | .routeFlushExecute _ => 0
  | .ingressTransfer _ => 0
  | .bufferTimeout _ _ => 0
  | .fetchComplete _ _ => 0
  | .fetchFail _ _ => 0
  | .freqAgeing _ => 0
  | .dbgHalt _ => 0
  | .dbgDrain _ _ => 0
  | .drainComplete _ => 0
  | .hostApertureAccess _ _ _ _ => 0
  | .watchTableArm _ _ => 0
  | .hostRegisterWrite _ => 0
  | .driveGrant _ _ => 0
  | .driveRevoke _ => 0
  | .deviceReset => 0
  | .powerOn _ => 0
  | .recoveryImageWrite _ _ => 0
  | .spdmGetMeasurements _ => 0
  | .thermalLimit _ => 0
  | .monitorSample _ _ _ => 0
  | .illegalWord _ _ => 0
  | .linkLoss _ => 0
  | .switchTierDeparture _ => 0
  | .temperatureFallsBack _ => 0
  | .powerLoss _ => 0

/-- The word of an encoded instruction (03 R52). -/
def encode (i : Instr) : W32 := BitVec.ofNat 32 (encodeNat i)

end Sys2Proof
end

