-- ==== Sys2Proof/Config.lean ====
section
/-! DEFINITION. What an implementation fixes, and the free values. Every constant here is opaque: it has no body, so no
proof can see what it is, and a statement about it holds whatever it is. -/
namespace Sys2Proof.Config

/-- Which of several agents that could move does so, as a function of the step counter of State (assumption 1). The
manual orders agents only by the rules of 08 R172 to R194; every other order is left open. -/
opaque choose : Nat → Nat

/-- For how many steps an agent that can move may be passed over: the promises of 06 R137 leave none waiting for ever, and give no
number (assumption 1). -/
opaque patience : Nat

/-- Whether a fetch of a word that was stored to after it was fetched sees the old word (03 R44 leaves it unspecified;
assumption 2). -/
opaque staleFetch : Nat → Bool

/-- Which word leaves a full instruction cache (01 R10 gives its size and no replacement; assumption 2). -/
opaque victim : Nat → Nat

/-- Whether a firmware image carries an ML-DSA-87 signature of its digest that is good under the key whose digest the fuses hold
(16 R382), of fuses, digest and image: the places of signature and key in the image and of the digest in the fuses are not given
(assumption 3). -/
opaque imageSigned : List Byte → List Byte → List Byte → Bool

/-- The ML-DSA-87 signature with which an identity key answers for a measurement (16 R386), of key, index, digest and the number of
the answer: the layout of the message that is signed is not given (assumption 3). -/
opaque identitySignature : List Byte → Nat → List Byte → Nat → List Byte

/-- For how many clk loads may still have read before a store of another die became visible, by its number (08 R175;
assumption 52). -/
opaque staleFor : Nat → Nat

/-- How many further sectors of a copy a channel moves before another agent acts (12 R271 leaves the interleaving of
channels open; assumption 4). -/
opaque burst : Nat → Nat

/-- The port that the hash of 13 R295 chooses, from the destination accelerator and bits [50:8] of the address; the
hash itself is not given (assumption 5). -/
opaque portHash : Nat → Nat → Nat

/-- A byte whose value the manual does not give: of a record in the host event ring (assumption 27). -/
opaque freeByte : Nat → BitVec 8

/-- The place in the host event ring of the n-th record (16 R385 gives no length of the ring; assumption 27). -/
opaque eventPlace : Nat → Nat

end Sys2Proof.Config
end

