-- ==== Sys2Proof/Machine/State.lean ====
section
/-! DEFINITION. The state of one TN9 module as plain data, the reasons a step can stop, and the state after reset.
One context and its core stand in focus (`ctx`, `core`); the other contexts of a core and the other cores stand in
sparse lists, an unlisted one being as reset leaves it. Reset values are those of the manual's Reset columns; a value
that the manual does not give is named in notes/assumptions and in INVENTORY.md. -/
namespace Sys2Proof.Machine

/-! ## Registers of a context -/

/-- A ranked-list register (10 R228, R229): K, FLOOR, NANS, SKIPS and the entries in rank order. -/
structure RList where
  k : Nat
  floor : W32
  nans : Nat
  skips : Nat
  ents : List (W32 × W32)
  deriving DecidableEq, Repr

/-- A list as every grant leaves it (10 R228). -/
def RList.fresh : RList := { k := 0, floor := 0xFF800000, nans := 0, skips := 0, ents := [] }

/-- A register write of the open group, held until the group closes (03 R46). `slast` is a status of SSTAT (05 R117),
`sreg` a write by MTS, `stk` one by MTS of STKDAT (15 R347). -/
inductive RegWrite where
  | gpr (r : BitVec 4) (v : W64)
  | vec (r : BitVec 5) (v : VReg)
  | mask (r : BitVec 3) (v : MaskReg)
  | rlist (r : BitVec 2) (v : RList)
  | ereg (r : BitVec 3) (v : W32)
  | sreg (r : Nat) (v : W64)
  | stk (n : BitVec 6) (v : W64)
  | slast (code : Nat)
  | rstat (v : W64)
  | rhdr (w2 w3 : W64)
  | rladm (n : Nat)
  | rtlast (n : Nat)
  deriving DecidableEq, Repr

/-- What the closing instruction of a group does once the results are in (03 R45, R48). -/
inductive CloseAct where
  | next
  | go (pc : W64)
  | call (pc ret : W64)
  | ret (pc : W64)
  | tret (pc : W64)
  | retire
  | migr (x : Bool) (r : BitVec 4) (pri : Option Bool)
  deriving DecidableEq, Repr

/-- An agent other than a context whose access a walk or an open fault can hold (12 R274, 11 R253, 15 R357, R425; 16 R376,
R379). -/
inductive HoldKey where
  | cmd (core eng num : Nat)
  | entry (core : Nat) (pc : W64) (task : BitVec 12)
  | seed (task : BitVec 12)
  | hint (task : BitVec 12)
  | submit (va : W64) (asid : Nat)
  | launch (core ctx : Nat)
  | err (task : BitVec 12)
  | event (num : Nat)
  | inbox (core : Nat) (task : BitVec 12)
  | slot (core : Nat) (task : BitVec 12)
  | out (core num : Nat)
  | transfer (die x : Nat)
  | fetch (die e : Nat)
  | place (die : Nat)
  | region (core : Nat) (task : BitVec 12)
  | fabric (accel tag : Nat)
  | red (va : W64) (task : BitVec 12)
  | unit (site accel seq : Nat)
  | line (src tag : Nat)
  | aperture (i : Nat)
  | watch (i : Nat)
  deriving DecidableEq, Repr

/-- What a context that has released its issue slot waits for (05 R105, R120; 06 R137; 07 R170; 08 R190 to R194;
12 R270, R290, R291). -/
inductive Wait where
  | recvw (d : BitVec 4) (sw : Bool)
  | word (glob : Bool) (addr : Nat)
  | barrier (off : Nat) (target : W64)
  | timeline (id : Nat) (n : W64)
  | stores (ns : List Nat)
  | allStores
  | queue (eng : Nat)
  | outRoom
  | vecQueue
  | batches (n : Nat)
  | eventRead (d : BitVec 4) (sw : Bool)
  | round (d : BitVec 4) (sw : Bool)
  | stopped (c : Nat)
  | held (key : HoldKey)
  deriving DecidableEq, Repr

/-- A translation request (15 R352, R356): the address, its ASID and size class, the access types, and whether it is
made at user level. -/
structure Req where
  va : W64
  asid : Nat
  sub : Bool
  rd : Bool
  wr : Bool
  fetch : Bool
  user : Bool
  deriving DecidableEq, Repr

/-- The status of a hardware context (06 R137, 15 R360). -/
inductive CtxSt where
  | free
  | pulling (x : Nat)
  | ready
  | waiting (w : Wait)
  | closing (a : CloseAct)
  | walking (q : Req)
  | parked (die fid : Nat)
  deriving DecidableEq, Repr

/-- The message registers of an activation (05 R123). -/
structure MsgRegs where
  hdr0 : W64
  hdr2 : W64
  hdr3 : W64
  hbuf : W64
  hstat : W64
  sstat : W64
  rstat : W64
  rhdr2 : W64
  rhdr3 : W64
  rfall : W64
  deriving DecidableEq, Repr

/-- The trap and privilege registers of a context (15 R347). -/
structure TrapRegs where
  level : Bool
  intrap : Bool
  prev : Bool
  trapc : W64
  trappc : W64
  trapv : W64
  tsave : Vector W64 4
  stkix : BitVec 6
  asid : BitVec 16
  deriving DecidableEq, Repr

/-- A hardware context (01 R10): the register stack and window (04 R72 to R79), the declared registers (03 R55,
09 R197, 10 R228, 11 R249), the special registers, the open group (03 R45), and what it waits for. For the order of its
accesses (08 R175, R190): `fresh` and `freshSys` are the clk of its latest acquires at PKG and at SYS scope, `saw` the stores of
its core that a load of it has returned from the buffer, and `scope` that at which a fence has made its later stores releases
(08 R191). -/
structure Ctx where
  num : BitVec 4
  status : CtxSt
  task : BitVec 12
  cls : BitVec 2
  rank : Nat
  inc : BitVec 6
  pc : W64
  run : List W32
  gcount : Nat
  pend : List RegWrite
  pendFp : BitVec 6
  pendRl : BitVec 4
  stack : Vector W64 64
  depth : Nat
  sb : Nat
  nv : Nat
  nl : Nat
  na : Nat
  vregs : Vector VReg 32
  masks : Vector MaskReg 8
  lists : Vector RList 4
  eregs : Vector W32 8
  slots : List Nat
  entry : W64
  msg : MsgRegs
  trap : TrapRegs
  wto : W64
  fpflags : BitVec 6
  fprnd : BitVec 3
  rlstat : W64
  rtstat : W64
  limit : Nat
  start : Int
  spbase : Nat
  logspad : Nat
  seq : Nat
  rqOwed : Nat
  m2wait : Nat
  since : Option Nat
  got : Option W64
  fva : Option W64
  xfail : Option W64
  fresh : Nat
  freshSys : Nat
  saw : List Nat
  scope : Nat
  deriving DecidableEq, Repr

/-! ## Messages, queues and commands of a core -/

/-- Where an admitted message is stored: an on-chip entry, or an overflow slot of the inbound region (05 R103). -/
inductive Store where
  | chip
  | region (slot : Nat)
  deriving DecidableEq, Repr

/-- What kind of inbound message this is for the accounts of 05 R104 and R106. -/
inductive Owed where
  | none
  | request
  | reply
  deriving DecidableEq, Repr

/-- An admitted message (05 R104): its place, its passes (05 R110), the marks of HSTAT, what
is owed for it, and the buffer that it hands out (14 R327). -/
structure QMsg where
  msg : Msg
  store : Store
  skipped : Nat
  demoted : Bool
  stale : Bool
  owed : Owed
  route : Option (Nat × Nat)
  stamp : Nat
  deriving DecidableEq, Repr

/-- A message held for an activation (05 R113). -/
structure Held where
  task : BitVec 12
  ctx : BitVec 4
  inc : BitVec 6
  q : QMsg
  deriving DecidableEq, Repr

/-- The state of a posted message in outbound storage (05 R105): `unwritten` while its slot in the outbound region has
not been written (15 R425), `sending` while some of its packets have left the module and others wait for a window, `taken` while a receiver has still
to pull its payload (05 R102). -/
inductive OutSt where
  | unwritten
  | ready
  | offered
  | sending (admitted : Bool)
  | bounced (since : Nat)
  | taken
  deriving DecidableEq, Repr

/-- A message in outbound storage (05 R102, R103, R105): its number, sender, message, slots (none for an on-chip
entry), the store of its core that it releases, its own sequence number, its state, the copies still to be taken, and the packets
that have left the module (05 R96). -/
structure OutEnt where
  num : Nat
  task : BitVec 12
  ctx : BitVec 4
  inc : BitVec 6
  msg : Msg
  slots : List Nat
  after : List Nat
  seq : Nat
  st : OutSt
  left : Nat
  sent : Nat
  deriving DecidableEq, Repr

/-- A bulk payload being pulled (05 R102). -/
structure Pull where
  num : Nat
  q : QMsg
  ctx : BitVec 4
  inc : BitVec 6
  reply : Bool
  since : Nat
  got : List Nat
  deriving DecidableEq, Repr

/-- What an engine command does, with the operands it snapshotted at post (11 R256, 12 R271, 13 R309, 14 R339). -/
inductive CmdOp where
  | mma (gather gb fin bnd : Bool) (slot : Nat) (a b b1 : W64) (ea eb : W32)
  | mmr (clip z : Bool) (slot : Nat) (a : W64) (ed : W32) (edge : W64)
  | mmrl (clip z : Bool) (slot : Nat) (a : W64) (edge : W64)
  | mmz (slot : Nat)
  | mmrank (slot k : Nat)
  | cpy (kind : Nat) (dst src ctl : W64)
  | cpyr (glob : Bool) (dst src ctl : W64)
  | cpyw (glob : Bool) (dst src ctl : W64)
  | cred (isMax slice : Bool) (dst src ctl : W64)
  | catom (op : Nat) (wide : Bool) (off : W64) (va v nv : W64)
  | cmc (dst src ctl : W64)
  | cstor (glob : Bool) (dst lba ctl : W64)
  | cdec (dst src ctl : W64)
  | cdtab (slot : Nat) (off : W64)
  | nsend (glob : Bool) (dst src ctl : W64)
  | rtgate (row token : W64)
  | rtflush
  deriving DecidableEq, Repr

/-- The progress of a command: queued, waiting for an agent outside its engine, or executed and awaiting its
completion actions (08 R182). -/
inductive CmdSt where
  | queued
  | away (x : Nat)
  | done
  deriving DecidableEq, Repr

/-- A row of an operand as the matrix engine holds it (11 R252, R260): its index, its elements with their scales, and the
depth of each substitution. -/
structure RowRead where
  ix : Nat
  row : List (Nat × Nat)
  bad : List Nat
  deriving DecidableEq, Repr

/-- The operand latch of the gather unit (11 R252): K, and the rows of A and of B that were gathered. -/
structure Latch where
  kd : Nat
  as : List RowRead
  bs : List RowRead
  deriving DecidableEq, Repr

/-- A posted engine command (08 R178, R181, R256; 12 R271): its timeline number, operation, completion pair, issuer,
address space and size-class bounds (12 R279), region of scratchpad, wait barrier with the DONE it snapshotted, the
stores it releases, the rows gathered for it (11 R252), the number of its transfer on the fabric (13 R295), the status and the
words of its reply, and its progress. -/
structure Cmd where
  num : Nat
  op : CmdOp
  wc : W64
  wc1 : W64
  ctx : BitVec 4
  inc : BitVec 6
  task : BitVec 12
  asid : Nat
  user : Bool
  spa : List W64
  spbase : Nat
  logspad : Nat
  wait : Option (Nat × W64)
  after : List Nat
  latch : Option Latch
  xfer : Nat
  status : W64
  credit : Nat
  w2 : W64
  w3 : W64
  done : Nat
  st : CmdSt
  deriving DecidableEq, Repr

/-- A timeline (08 R178): the highest number assigned, the watermark, and the numbers complete above it. -/
structure Timeline where
  issued : Nat
  mark : Nat
  above : List Nat
  deriving DecidableEq, Repr

/-- An accumulator slot (11 R247): the nonzero cells by index 32 i + j, the type, the two factors of TSC, ranked state
and skip mark, whether an activation holds it, and the cells that are uncorrectable (11 R260). -/
structure Slot where
  held : Bool
  cells : List (Nat × W32)
  int : Bool
  tscA : W32
  tscB : W32
  ranked : Bool
  lists : List RList
  mark : Bool
  bad : List Nat
  deriving DecidableEq, Repr

/-- A launch resident on a core (05 R104, R106, R110; 06 R130, R131; 11 R261, R267; 12 R290). Its region is in place
unless `saved`, and `signals` then are the signal words of commands that it holds (08 R182), by doubleword; a `blank` one has never
been in place and reads zero when it comes there (06 R128). -/
structure Resident where
  task : BitVec 12
  base : Nat
  logspad : Nat
  saved : Bool
  blank : Bool
  drained : Bool
  signals : List Nat
  owe : Nat
  low : List QMsg
  high : List QMsg
  cur : Nat
  turns : Nat
  hcount : Nat
  force : Bool
  reserved : Option (Option Nat)
  stage : Nat
  posted : Nat
  postedIdx : Nat
  mwt : BitVec 4
  skips : W32
  geomA : W64
  geomB : W64
  deriving DecidableEq, Repr

/-- The work deque of a core (06 R135, R142, R143): owner, records from the top, outstanding steal and the launch that
made it, rotation. -/
structure Deque where
  task : BitVec 12
  recs : List (List W64)
  pend : Bool
  thief : BitVec 12
  room : Nat
  last : Nat
  dir : Nat
  deriving DecidableEq, Repr

/-- A global store on its way to memory (08 R174, R175): its number, the activation that made it, its bytes by physical
address, the stores of its core that go before it (08 R176), the scope at which it is a release (08 R176, R191; 0 for none);
`rmw` marks the write of an atomic on host memory (07 R168). -/
structure StoreEnt where
  num : Nat
  core : Nat
  ctx : BitVec 4
  inc : BitVec 6
  task : BitVec 12
  die : Nat
  cells : List Host.Cell
  needs : List Nat
  scope : Nat
  rmw : Bool
  deriving DecidableEq, Repr

/-- What the cores of a die still see where a store of another die has been performed (08 R173, R175): the store, the die, the
bytes before it of every aligned doubleword that it touches, and the clk at which the store became visible there; a load may
have read before. A `core` of 2^11 stands for a write of another module or of the host, which only an acquire at SYS scope
orders (08 R172). -/
structure Lag where
  core : Nat
  num : Nat
  die : Nat
  cells : List Host.Cell
  seen : Option Nat
  deriving DecidableEq, Repr

/-- A watch of WAITW (07 R170): the context, the doubleword, the condition, the clk from which its memory agent evaluates it
again, and the value that satisfied it. -/
structure Watch where
  core : Nat
  ctx : BitVec 4
  addr : Nat
  cc : BitVec 2
  arg : W64
  next : Nat
  hit : Option W64
  deriving DecidableEq, Repr

/-- An activation parked in a frame of the park area (15 R360). -/
structure Parked where
  frame : Nat
  ctx : BitVec 4
  inc : BitVec 6
  task : BitVec 12
  die : Nat
  fid : Nat
  fails : Bool
  ready : Bool
  since : Nat
  saved : Ctx
  deriving DecidableEq, Repr

/-- The per-core special registers (05 R123; 15 R347, R352, R364; 11 R260). -/
structure CoreRegs where
  stalecnt : W32
  tvec : W64
  parkb : W64
  spalo : W64
  spahi : W64
  spblo : W64
  spbhi : W64
  halt : Bool
  drain : Bool
  drained : Bool
  dtask : BitVec 12
  merr : W64
  lastst : BitVec 6
  deriving DecidableEq, Repr

/-- The decompression tables of a channel (12 R286): code lengths 1 to 16 and the symbols. -/
structure Table where
  counts : List Nat
  symbols : List Byte
  deriving DecidableEq, Repr

/-- A copy in a core's part of the operand-reuse cache (09 R200): source slot, context, whether the register is a general
one, the register (for a general register its entry in the stack), and the value read. -/
structure Kept where
  slot : Nat
  ctx : BitVec 4
  gen : Bool
  reg : Nat
  val : VReg
  deriving DecidableEq, Repr

/-- Vector registers of an activation that has retired while vector results were outstanding for them (09 R197). -/
structure VHeld where
  ctx : BitVec 4
  inc : BitVec 6
  nv : Nat
  deriving DecidableEq, Repr

/-- A core (01 R10): its contexts other than the one in focus, scratchpad, residents, queues, buffers and engines'
queues, timelines (08 R178), slots (11 R247), sealed batches (12 R291), the doublewords of scratchpad that hold the signal word
of a command (08 R182), and special registers. -/
structure Core where
  id : Nat
  ctxs : List (Nat × Ctx)
  rr : Nat
  spad : List Host.Cell
  spoison : List Nat
  res : List Resident
  turn : Vector Nat 4
  held : List Held
  answers : List QMsg
  out : List OutEnt
  outNum : Nat
  reserve : List (Nat × BitVec 12)
  pulls : List Pull
  ecache : List (Nat × W64 × W64)
  icache : List (Nat × W32)
  vecq : List (BitVec 4 × BitVec 6)
  vheld : List VHeld
  reuse : List Kept
  tls : Vector Timeline 4
  matq : List Cmd
  copyq : List Cmd
  netq : List Cmd
  routeq : List Cmd
  slots : Vector Slot 4
  tabs : Vector (Option Table) 4
  sealed : Nat
  batches : List Nat
  stores : List StoreEnt
  storeNum : Nat
  signals : List Nat
  watches : List Watch
  deque : Deque
  parked : List Parked
  regs : CoreRegs
  deriving DecidableEq, Repr

/-! ## The module -/

/-- A launch (06 R126, R128; record fields of 03 R70), with its seeds, error records (15 R351) and copy schedule
(12 R288) as the launch controller holds them;
`doomed` is the fault or data error of a region access that ends the launch (15 R425); an
`ending` launch waits only for its engine operations to land (06 R147); `setup` once its event tables are zeroed; `hinting` while
the fetch at image, a hint, is still to be made. -/
structure Launch where
  task : BitVec 12
  cls : BitVec 2
  ox : Nat
  oy : Nat
  logw : Nat
  logh : Nat
  limit : Nat
  image : W64
  logspad : Nat
  lowq : Nat
  window : Nat
  inbase : W64
  inlog : Nat
  outlog : Nat
  stack : W64
  events : W64
  eventlog : Nat
  seeds : W64
  seedn : Nat
  errq : W64
  asid : Nat
  autoend : Bool
  firmware : Bool
  order : Nat
  seedNext : Nat
  seedWait : Bool
  errSeq : Nat
  errPend : List (List W64)
  sched : List (List W64)
  doomed : Option (Nat × W64)
  ending : Bool
  setup : Bool
  hinting : Bool
  deriving DecidableEq, Repr

/-- Who holds the storage of a message in the mesh: a core's outbound entry, a launch's seed, or the unit that formed
it, which keeps it until it is admitted (06 R128; 14 R327; 15 R359, R425). -/
inductive Origin where
  | out (core num : Nat)
  | seed (task : BitVec 12)
  | route (die e : Nat)
  | steal
  | unit
  | outside
  deriving DecidableEq, Repr

/-- A message in the mesh: its number, message, the core it has reached, whether it still walks (05 R99), its hint,
who holds it, whether a window credit of the receiver stands behind it (05 R104), the store it releases, the time
before which it is not offered again, and whether it has been offered and waits for the walk of its overflow slot. -/
structure Flight where
  num : Nat
  msg : Msg
  at_ : Nat
  walks : Bool
  hint : Nat
  org : Origin
  owed : Bool
  hold : Nat
  arrived : Bool
  deriving DecidableEq, Repr

/-- The packets that have come of a bulk message of another module (05 R96, R102): the key of the source (R102), LEN and
PCNT of the first packet that came, the payloads by packet index, and whether the message has been discarded. -/
structure Part where
  ssite : Nat
  key : Nat
  len : Nat
  pcnt : Nat
  got : List (Nat × List Byte)
  closed : Bool
  deriving DecidableEq, Repr

/-- A cached leaf (15 R357). -/
structure TlbEnt where
  asid : Nat
  gen : Nat
  sub : Bool
  die : Nat
  page : Nat
  leaf : W64
  deriving DecidableEq, Repr

/-- A cached directory entry by its address (15 R357). -/
structure DirEnt where
  asid : Nat
  gen : Nat
  sub : Bool
  pa : Nat
  word : W64
  deriving DecidableEq, Repr

/-- Who makes a request, for a fault record (15 R359): core, die, context, incarnation, unit, and whether an engine. -/
structure Requester where
  core : Nat
  die : Nat
  ctx : Nat
  inc : Nat
  unit : Nat
  engine : Bool
  deriving DecidableEq, Repr

/-- Who waits for a walk: a context, whose status holds its request, or an agent with its request; a `quiet` one opens no
fault (12 R284; 16 R376, R379). -/
inductive Walker where
  | ctx (core : Nat) (c : BitVec 4)
  | agent (key : HoldKey) (w : Requester) (q : Req) (quiet : Bool)
  deriving DecidableEq, Repr

/-- A pending walk (15 R357): its number, its first request, and those that wait for it. -/
structure Walk where
  num : Nat
  req : Req
  gen : Nat
  since : Nat
  who : List Walker
  deriving DecidableEq, Repr

/-- An open fault (15 R359), with the core whose access opened it. -/
structure OpenFault where
  idx : Nat
  fid : Nat
  asid : Nat
  gen : Nat
  sub : Bool
  page : Nat
  since : Nat
  core : Nat
  deriving DecidableEq, Repr

/-- A Retort (15 R353 to R359): the directory and ring that system firmware places, the generations, the cached leaves and
directory entries, walks, open faults, the times each record was taken, and the walks whose faults wait for a record, in
arrival order. -/
structure Retort where
  dir : Nat
  gens : List (Nat × Nat)
  cache : List TlbEnt
  dirs : List DirEnt
  walks : List Walk
  walkNum : Nat
  ring : Nat
  ringVa : W64
  notify : W64
  notifyPc : W64
  faults : List OpenFault
  uses : List (Nat × Nat)
  faultq : List Nat
  deriving DecidableEq, Repr

/-- A held agent: whether it still waits for a walk, else its fault, the address, and once the walk or FLTRES has ended the
wait, whether the access failed (15 R357, R362). -/
structure Hold where
  key : HoldKey
  walking : Bool
  die : Nat
  fid : Nat
  va : W64
  ended : Option Bool
  deriving DecidableEq, Repr

/-- An operation on its way to an event unit (06 R133, R140, R141). -/
inductive EvOp where
  | arm (t : Nat)
  | sig (v : Nat)
  | send (m : Msg) (slot : Option Nat)
  | read
  deriving DecidableEq, Repr

/-- An event operation with its issuer and the store it releases. -/
structure EvReq where
  num : Nat
  task : BitVec 12
  id : Nat
  core : Nat
  ctx : BitVec 4
  inc : BitVec 6
  after : List Nat
  op : EvOp
  deriving DecidableEq, Repr

/-- A registered waiter of an event beyond what its entry shows: the message as registered and its core's reserved
slot (06 R132, R141). -/
structure Waiter where
  task : BitVec 12
  id : Nat
  core : Nat
  ctx : BitVec 4
  inc : BitVec 6
  msg : Msg
  slot : Option Nat
  deriving DecidableEq, Repr

/-- A round of a group barrier that is open (06 R136). -/
structure Round where
  task : BitVec 12
  code : Nat
  num : Nat
  arr : List Arrival
  deriving DecidableEq, Repr

/-- A reduction record of a memory agent (12 R282): its key, its shape (that of the first contribution), and the
contributions held. -/
structure RedRec where
  va : W64
  task : BitVec 12
  first : RedMsg
  parts : List RedMsg
  deriving DecidableEq, Repr

/-- An entry of the group table (13 R298, R299). -/
structure GroupEnt where
  words : List W64
  owner : Nat
  deriving DecidableEq, Repr

/-- A multicast whose responses are being collected (13 R300). -/
structure Multicast where
  num : Nat
  core : Nat
  cmd : Nat
  group : Nat
  members : List Nat
  noAck : Bool
  pos : List Nat
  neg : List (Nat × Nat)
  since : Nat
  deriving DecidableEq, Repr

/-- A transaction outstanding on the fabric (13 R297): tag, destination, body, port, times, and the command it serves
with the bytes it stands for. -/
structure Tx where
  tag : Nat
  accel : Nat
  op : FabOp
  port : Nat
  since : Nat
  first : Nat
  core : Nat
  eng : Nat
  cmd : Nat
  off : Nat
  deriving DecidableEq, Repr

/-- A scale-up port (13 R294, R296, R297): health score, rate index (0 for 200, 1 for 100, 2 for 50 Gb/s), the rate at which it
was up last, and whether it is up, retraining or down. -/
structure Port where
  score : Nat
  rate : Nat
  was : Nat
  up : Bool
  retrain : Bool
  deriving DecidableEq, Repr

/-- A packet sent to a peer and not yet acknowledged (13 R304, R306). -/
structure Unacked where
  seq : Nat
  pkt : UeUnit
  sent : Nat
  tries : Nat
  core : Nat
  cmd : Nat
  deriving DecidableEq, Repr

/-- A peer of the network endpoint (13 R304 to R306): its next send number, h, the numbers received above h, the packets
not acknowledged, the clk of the latest traffic, an outstanding close, the windows of its paths in units of 1/256, the
smoothed and the least round trip, and the clk at which a window last shrank. -/
structure Peer where
  site : Nat
  accel : Nat
  next : Nat
  h : Nat
  got : List Nat
  unacked : List Unacked
  used : Nat
  closing : Option (Nat × Nat)
  wins : List Nat
  rtt : Nat
  least : Nat
  cut : Nat
  deriving DecidableEq, Repr

/-- A posted receive buffer, with the numbers of the stores that its post releases (13 R310, 08 R176). -/
structure RecvBuf where
  va : W64
  len : Nat
  ptask : Nat
  wc : W64
  wc1 : W64
  core : Nat
  ctx : BitVec 4
  inc : BitVec 6
  task : BitVec 12
  asid : Nat
  user : Bool
  spa : List W64
  spbase : Nat
  logspad : Nat
  after : List Nat
  deriving DecidableEq, Repr

/-- A send that has reached a queue (13 R307, R311): its buffer (none when it was denied), the bytes up to which it has been
dealt with, how many of them were lost to a fault of the buffer, and once it is over its landing number. -/
structure Landing where
  site : Nat
  accel : Nat
  sendid : Nat
  buf : Option RecvBuf
  rq : Nat
  stask : BitVec 12
  total : Nat
  upTo : Nat
  lost : Nat
  packets : Nat
  seq : Nat
  ended : Option Nat
  deriving DecidableEq, Repr

/-- A receive queue (13 R307, R312). -/
structure RecvQueue where
  bound : Option (BitVec 12)
  bufs : List RecvBuf
  landNum : Nat
  deriving DecidableEq, Repr

/-- A send of this module that waits for a buffer at its receiver, or for acknowledgements (13 R306, R309). -/
structure Sending where
  core : Nat
  cmd : Nat
  site : Nat
  accel : Nat
  id : Nat
  seq : Nat
  left : Nat
  rnr : Option Nat
  first : Option Nat
  landNum : Nat
  landed : Nat
  trunc : Bool
  fault : Bool
  deriving DecidableEq, Repr

/-- The buffer of an expert (14 R326 to R328): round, placements, whether handed out and to which activation, the
time of its first placement, and the flags of its placements. -/
structure ExpBuf where
  round : Nat
  count : Nat
  out : Bool
  holder : Option (Nat × BitVec 4 × BitVec 6)
  since : Nat
  flags : W64
  deriving DecidableEq, Repr

/-- The wait queue of an expert (14 R319, R326): head position, and for each placement its weight entry. -/
structure WaitQ where
  head : Nat
  ents : List (W64 × TokRec)
  deriving DecidableEq, Repr

/-- A send list (14 R322): destination module and die, records with their row VA, and the time the oldest entered. -/
structure SendList where
  accel : Nat
  die : Nat
  recs : List TokRec
  since : Nat
  deriving DecidableEq, Repr

/-- The configuration of a routing engine (14 R318): the sixteen words as read, the launch, and what RTCFG derived:
the valid group map and the homed experts in ascending order. -/
structure RouteCfg where
  words : List W64
  task : BitVec 12
  asid : Nat
  gmap : List Nat
  homed : List Nat
  deriving DecidableEq, Repr

/-- A fetch in flight when its launch ended (14 R344). -/
structure OldFetch where
  e : Nat
  home : W64
  cfg : RouteCfg
  l : Launch
  deriving DecidableEq, Repr

/-- A routing engine with its ingress and ERT machinery (14 R317 to R344): the HOME with which each fetch started, the
placement that waits for room in a full wait queue, with its expert and whether it parks (R326), the parked placements that a
failed fetch has still to hand out, and the releases that wait for a fault (15 R425). -/
structure Route where
  cfg : Option RouteCfg
  lists : List SendList
  outgoing : List Transfer
  incoming : List Transfer
  intake : Option (Transfer × Nat × Nat × List Nat)
  paused : Option (Nat × (W64 × TokRec) × Bool)
  bufs : List (Nat × ExpBuf)
  waitq : List (Nat × WaitQ)
  requests : List Nat
  fetching : List (Nat × W64)
  failing : List (Nat × Nat)
  pend : List Nat
  old : List OldFetch
  aged : Nat
  agings : Nat
  counters : Vector W64 8
  deriving DecidableEq, Repr

/-- An entry of the host watch table (16 R378), with the physical doubleword while it is armed. -/
structure HostWatch where
  w0 : W64
  w1 : W64
  w2 : W64
  w3 : W64
  place : Option Nat
  arg : W64
  caddr : W64
  deriving DecidableEq, Repr

/-- A latency monitor (16 R389). -/
structure Monitor where
  ctl : W64
  mmin : W64
  mmax : W64
  bins : List (Nat × W32)
  deriving DecidableEq, Repr

/-- An aperture (16 R376). -/
structure Aperture where
  va : W64
  asid : Nat
  deriving DecidableEq, Repr

/-- A granted drive handle (16 R380): the block size of its namespace, the drive's maximum transfer in bytes, the place of its
queue pair in HBM, and the tail of its submission queue and the head of its completion queue, which the doorbells tell the drive. -/
structure Drive where
  handle : Nat
  block : Nat
  most : Nat
  die : Nat
  queue : Nat
  tail : Nat
  head : Nat
  deriving DecidableEq, Repr

/-- A read of a drive (12 R285; 14 R331; 16 R380): its place in the bytes of its command, whether it has entered the submission
queue, and for an expert fetch the bytes that its earlier reads have brought. -/
structure DriveRead where
  num : Nat
  handle : Nat
  lba : Nat
  bytes : Nat
  off : Nat
  sent : Bool
  core : Nat
  cmd : Nat
  die : Nat
  expert : Option Nat
  pre : List Byte
  deriving DecidableEq, Repr

/-- A record of the boot journal (16 R383): step, attempt, variant, and its result (none for a begin record). -/
structure JournalRec where
  step : Nat
  attempt : Nat
  variant : Nat
  ok : Option Bool
  deriving DecidableEq, Repr

/-- The fences and lower rates of the non-volatile store (16 R382, R383): the fenced clusters, the rate indices of stacks
and of scale-up ports (a stack of 3 has fenced its die; a port of 3 stays down), the Ultra Ethernet ports and the CXL tier
left out. -/
structure Defects where
  clusters : List (Nat × Nat)
  hbm : List (Nat × Nat)
  ports : List (Nat × Nat)
  ue : List Nat
  cxl : Bool
  deriving DecidableEq, Repr

/-- A sample that a monitor is to capture (16 R389). -/
structure Sample where
  die : Nat
  mon : Nat
  src : Nat
  value : Nat
  deriving DecidableEq, Repr

/-- What is reported to the host (16 R385). -/
inductive HostReport where
  | fenced (x y : Nat)
  | rate (port rate : Nat)
  | stackRate (stack rate : Nat)
  | portState (port : Nat) (up : Bool)
  | uePort (port : Nat) (up : Bool)
  | apertureFault (i : Nat)
  | thermal (die : Nat)
  deriving DecidableEq, Repr

/-- The host attachment and housekeeping (16 R376 to R390): `reports` are those for which the host event ring is not placed
yet, `defects` stand in the non-volatile store with the journal and the image. -/
structure HostSide where
  apertures : Vector Aperture 16
  watches : List (Nat × HostWatch)
  monitors : List (Nat × Monitor)
  samples : List Sample
  eventRing : Nat
  eventNum : Nat
  reports : List HostReport
  msix : List Nat
  journal : List JournalRec
  journalAt : Nat
  defects : Defects
  recovery : Bool
  running : Bool
  image : List Byte
  rom : List Byte
  fuses : List Byte
  identity : List Byte
  stackRates : List (Nat × Nat)
  ueDown : List Nat
  drives : List Drive
  reads : List DriveRead
  readNum : Nat
  hot : List Nat
  deriving DecidableEq, Repr

/-- What has left the module for the world outside it. -/
inductive Egress where
  | report (r : HostReport)
  | fabric (port : Nat) (t : FabTx)
  | unit (words : List W64) (u : UeUnit)
  | control (accel site : Nat) (c : Ctl)
  | hostRead (data : List Byte)
  | hostStatus (code : Nat)
  | driveRead (handle lba bytes : Nat)
  | doorbell (handle : Nat) (completion : Bool) (index : Nat)
  | digest (index : Nat) (data signature : List Byte)
  | i3c (step : Nat)
  deriving DecidableEq, Repr

/-- The sector writes of a transfer of another module (13 R295): its source and number there, the sectors performed, and
whether one of them has been refused. -/
structure Xfer where
  accel : Nat
  num : Nat
  next : Nat
  refused : Bool
  deriving DecidableEq, Repr

/-- The scale-up fabric and the multicasts (13 R294 to R301); `pieces` are the parts of what crosses in several transactions that
wait for the others. -/
structure Fabric where
  ports : List (Nat × Port)
  txs : List Tx
  tag : Nat
  seen : List (Nat × Nat × FabOp)
  casts : List Multicast
  lines : List CmcLine
  resps : List CmcResp
  castNum : Nat
  aged : Nat
  groups : List (Nat × GroupEnt)
  xfer : Nat
  xfers : List Xfer
  pieces : List FabTx
  deriving DecidableEq, Repr

/-- The network endpoint (13 R302 to R312). -/
structure Net where
  peers : List Peer
  sends : List Sending
  sendId : Nat
  queues : List (Nat × RecvQueue)
  landings : List Landing
  dropped : Nat
  deriving DecidableEq, Repr

/-- The arbiter of a cluster's matrix engine (11 R255): the core whose turn it is, the commands that it has issued in
the turn, and the core of weight 0 that issued last. -/
structure Arb where
  cur : Nat
  used : Nat
  zero : Nat
  deriving DecidableEq, Repr

/-- What can happen in a step: an input lands, an agent moves, a core issues, or nothing. -/
inductive Choice where
  | input (n : Nat) (i : Instr)
  | agent (i : Instr)
  | core (k : Nat)
  | idle
  deriving DecidableEq, Repr

/-- The state of one module, with one context and its core in focus. `freeNum` numbers the free values drawn
(the model's own field, not the manual's; assumption 1), `lag` and `hidden` the stores not yet visible on
a die and in SYS scope (08 R175, R177), `pipes` the place in its quad of the core that each vector pipe
granted last (09 R199), `tails` the launches that have ended with error records still to
be written (15 R425), `tick` counts steps, `waits` says since which step each choice that `step` has passed over has been there (06
R137; the model's own field), `clk` the arithmetic clock. -/
structure State where
  ctx : Ctx
  core : Core
  cores : List (Nat × Core)
  mem : List Host.Cell
  poison : List Nat
  launches : List Launch
  tails : List Launch
  orderNum : Nat
  flights : List Flight
  flightNum : Nat
  ctls : List Ctl
  retorts : Vector Retort 6
  holds : List Hold
  evq : List EvReq
  evNum : Nat
  waiters : List Waiter
  arrivals : List Arrival
  rounds : List Round
  roundNum : List (BitVec 12 × Nat × Nat)
  steals : List Steal
  parts : List Part
  transit : List StoreEnt
  lag : List Lag
  hidden : List Lag
  watches : List Watch
  reds : List RedRec
  redq : List RedMsg
  fab : Fabric
  net : Net
  routes : Vector Route 4
  host : HostSide
  accel : BitVec 10
  site : BitVec 16
  feat : W64
  fenced : List (Nat × Nat)
  arb : List (Nat × Arb)
  pipes : List (Nat × Nat)
  inputs : List Instr
  egress : List Egress
  clk : Nat
  tick : Nat
  waits : List (Choice × Nat)
  freeNum : Nat
  deriving DecidableEq, Repr

/-! ## Stops -/

/-- The reasons a step can stop with a fault. -/
inductive Fault where
  /-- Raised by the step of an agent that is asked for in a state in which the manual gives it no such step (no such
  message, command or timer). `step` never asks for one. Safe: the model stops where the hardware does nothing. -/
  | notEnabled (what : String)
  deriving DecidableEq, Repr

/-- The reasons a step can refuse. -/
inductive Refusal where
  /-- Raised by the arm of an instruction that has no meaning yet, by its mnemonic. Safe. -/
  | notModelled (mnemonic : String)
  deriving DecidableEq, Repr

/-! ## Reset -/

/-- The message registers after reset (05 R123). -/
def MsgRegs.reset : MsgRegs :=
  { hdr0 := 0, hdr2 := 0, hdr3 := 0, hbuf := 0, hstat := 0, sstat := 0, rstat := 0, rhdr2 := 0, rhdr3 := 0,
    rfall := 0 }

/-- The trap registers after reset (15 R347). -/
def TrapRegs.reset : TrapRegs :=
  { level := false, intrap := false, prev := false, trapc := 0, trappc := 0, trapv := 0,
    tsave := Vector.replicate 4 0, stkix := 0, asid := 0 }

/-- Context `n` after reset: free, every register at the value of its Reset column (04 R79, R93; 05 R123; 07 R169;
10 R228, R245; 11 R249; 14 R337; 15 R347); PC and the register stack hold 0 (assumption 7). -/
def Ctx.reset (n : BitVec 4) : Ctx :=
  { num := n, status := .free, task := 0, cls := 0, rank := 0, inc := 0, pc := 0, run := [], gcount := 0, pend := [],
    pendFp := 0, pendRl := 0, stack := Vector.replicate 64 0, depth := 0, sb := 0, nv := 0, nl := 0, na := 0,
    vregs := Vector.replicate 32 0, masks := Vector.replicate 8 0, lists := Vector.replicate 4 RList.fresh,
    eregs := Vector.replicate 8 0x3F800000, slots := [], entry := 0, msg := MsgRegs.reset, trap := TrapRegs.reset,
    wto := 0, fpflags := 0, fprnd := 0, rlstat := 0, rtstat := 0, limit := 0, start := 0, spbase := 0,
    logspad := 19, seq := 0, rqOwed := 0, m2wait := 0, since := none, got := none, fva := none, xfail := none,
    fresh := 0, freshSys := 0, saw := [], scope := 0 }

/-- The per-core registers after reset. -/
def CoreRegs.reset : CoreRegs :=
  { stalecnt := 0, tvec := 0, parkb := 0, spalo := 0, spahi := 0, spblo := 0, spbhi := 0, halt := false,
    drain := false, drained := false, dtask := 0, merr := 0, lastst := 0 }

/-- A slot in the state after MMZ (11 R247). -/
def Slot.reset : Slot :=
  { held := false, cells := [], int := false, tscA := 0x3F800000, tscB := 0x3F800000, ranked := false, lists := [],
    mark := false, bad := [] }

/-- Core `k` after reset; its number is x + 64 y. DESIGN CHOICE: the round robin of issue (04 R94) stands behind context 0
and the steal rotation (06 R143) at north (assumption 7). -/
def Core.reset (k : Nat) : Core :=
  { id := k, ctxs := [], rr := 0, spad := [], spoison := [], res := [], turn := Vector.replicate 4 0, held := [], answers := [], out := [], outNum := 0,
    reserve := [], pulls := [], ecache := [], icache := [], vecq := [], vheld := [], reuse := [],
    tls := Vector.replicate 4 { issued := 0, mark := 0, above := [] }, matq := [], copyq := [], netq := [],
    routeq := [], slots := Vector.replicate 4 Slot.reset, tabs := Vector.replicate 4 none, sealed := 0, batches := [],
    stores := [], storeNum := 0, signals := [], watches := [],
    deque := { task := 0, recs := [], pend := false, thief := 0, room := 0, last := 0, dir := 0 }, parked := [],
    regs := CoreRegs.reset }

/-- A Retort after reset (15 R358: every generation 0, every reuse count 0). -/
def Retort.reset : Retort :=
  { dir := 0, gens := [], cache := [], dirs := [], walks := [], walkNum := 0, ring := 0, ringVa := 0, notify := 0, notifyPc := 0,
    faults := [], uses := [], faultq := [] }

/-- A routing engine after reset: unconfigured. -/
def Route.reset : Route :=
  { cfg := none, lists := [], outgoing := [], incoming := [], intake := none, paused := none, bufs := [], waitq := [], requests := [],
    fetching := [], failing := [], pend := [], old := [], aged := 0, agings := 0, counters := Vector.replicate 8 0 }

/-- The host side after reset: nothing set, nothing granted, the device not yet brought up by POWER_ON. -/
def HostSide.reset : HostSide :=
  { apertures := Vector.replicate 16 { va := 0, asid := 0 }, watches := [], monitors := [], samples := [], eventRing := 0,
    eventNum := 0, reports := [], msix := [], journal := [], journalAt := 0,
    defects := { clusters := [], hbm := [], ports := [], ue := [], cxl := false }, recovery := false, running := true,
    image := [], rom := [], fuses := [], identity := [], stackRates := [], ueDown := [], drives := [], reads := [], readNum := 0, hot := [] }

/-- FEAT of a TN9-X with every unit present, 8 stacks, no fenced cluster, 64 and 8 ports trained (16 R387;
assumption 8). -/
def featFull : W64 := 0x8800080F

/-- The machine right after a device reset: no launch, every context free, every queue empty, memory listing nothing,
every field at its reset value. -/
def State.reset : State :=
  { ctx := Ctx.reset 0, core := Core.reset 0, cores := [], mem := [], poison := [], launches := [], tails := [], orderNum := 0,
    flights := [], flightNum := 0, ctls := [], retorts := Vector.replicate 6 Retort.reset, holds := [], evq := [],
    evNum := 0, waiters := [], arrivals := [], rounds := [], roundNum := [], steals := [], parts := [],
    transit := [], lag := [], hidden := [], watches := [], reds := [], redq := [],
    fab := { ports := [], txs := [], tag := 0, seen := [], casts := [], lines := [], resps := [], castNum := 0,
             aged := 0, groups := [], xfer := 0, xfers := [], pieces := [] },
    net := { peers := [], sends := [], sendId := 0, queues := [], landings := [], dropped := 0 },
    routes := Vector.replicate 4 Route.reset, host := HostSide.reset, accel := 0, site := 0, feat := featFull,
    fenced := [], arb := [], pipes := [], inputs := [], egress := [], clk := 0, tick := 0, waits := [], freeNum := 0 }

end Sys2Proof.Machine
end

