-- ==== Sys2Proof/Machine/Bits.lean ====
section
/-! DEFINITION. Bit fields, sign extension, byte order (00 R2) and keyed lists: the plain helpers of every meaning. -/
namespace Sys2Proof.Machine

/-- The number in bits [lo + n - 1 : lo] of a 64-bit word (00 R2). -/
def bits (v : W64) (lo n : Nat) : Nat := v.toNat / 2 ^ lo % 2 ^ n

/-- Bit `i` of a 64-bit word. -/
def bit (v : W64) (i : Nat) : Bool := v.getLsbD i

/-- A number as a 64-bit word, modulo 2^64. -/
def w64 (n : Nat) : W64 := BitVec.ofNat 64 n

/-- A number as a 32-bit word, modulo 2^32. -/
def w32 (n : Nat) : W32 := BitVec.ofNat 32 n

/-- The low `n` bits of a number read as signed, as an integer. -/
def sInt (v n : Nat) : Int :=
  if v % 2 ^ n < 2 ^ (n - 1) then (v % 2 ^ n : Nat) else ((v % 2 ^ n : Nat) : Int) - (2 ^ n : Nat)

/-- The low `n` bits of a number sign-extended to 64 bits. -/
def sext (v n : Nat) : W64 := BitVec.ofInt 64 (sInt v n)

/-- One bit as a number. -/
def toBit (b : Bool) : Nat := if b then 1 else 0

/-- A word with the `n` bits from `lo` replaced by the low bits of `x`. -/
def setBits (v : W64) (lo n x : Nat) : W64 :=
  w64 (v.toNat - bits v lo n * 2 ^ lo + x % 2 ^ n * 2 ^ lo)

/-- The number held by little-endian bytes (00 R2). -/
def ofBytes : List Byte → Nat
  | [] => 0
  | b :: bs => b.toNat + 256 * ofBytes bs

/-- The `n` lowest bytes of a number, little-endian (00 R2). -/
def toBytes : Nat → Nat → List Byte
  | 0, _ => []
  | n + 1, v => BitVec.ofNat 8 v :: toBytes n (v / 256)

/-- The little-endian 64-bit words of a run of bytes. -/
def wordsOf (n : Nat) (bs : List Byte) : List W64 :=
  match n with
  | 0 => []
  | n + 1 => w64 (ofBytes (bs.take 8)) :: wordsOf n (bs.drop 8)

/-- The bytes of 64-bit words. -/
def bytesOf (ws : List W64) : List Byte := ws.flatMap (fun w => toBytes 8 w.toNat)

/-- Word `n` of a record, 0 beyond its end. -/
def wordAt (ws : List W64) (n : Nat) : W64 := ws.getD n 0

/-! ## Keyed lists: sorted by key, one entry a key -/

/-- The entry at a key. -/
def alGet? {α : Type} : List (Nat × α) → Nat → Option α
  | [], _ => none
  | (k, v) :: r, i => if k == i then some v else alGet? r i

/-- The entry at a key, or what an unlisted key holds. -/
def alGet {α : Type} (l : List (Nat × α)) (i : Nat) (d : α) : α := (alGet? l i).getD d

/-- Set the entry at a key. -/
def alPut {α : Type} : List (Nat × α) → Nat → α → List (Nat × α)
  | [], i, v => [(i, v)]
  | (k, x) :: r, i, v => if i < k then (i, v) :: (k, x) :: r else if i == k then (i, v) :: r else (k, x) :: alPut r i v

/-- Remove the entry at a key. -/
def alDel {α : Type} (l : List (Nat × α)) (i : Nat) : List (Nat × α) := l.filter (fun p => p.1 != i)

/-- The lowest number that is not in a list. -/
def lowestFree (used : List Nat) : Nat :=
  ((List.range (used.length + 1)).find? (fun n => !used.contains n)).getD used.length

/-- Replace the first entry that meets a test. -/
def replaceFirst {α : Type} (p : α → Bool) (f : α → α) : List α → List α
  | [] => []
  | x :: r => if p x then f x :: r else x :: replaceFirst p f r

/-- Insert a number into an ascending list without repeats. -/
def setInsert (n : Nat) : List Nat → List Nat
  | [] => [n]
  | x :: r => if n < x then n :: x :: r else if n == x then x :: r else x :: setInsert n r

/-- The smallest number `k` with 2^k at least `n`. -/
def log2Up (n : Nat) : Nat := if n ≤ 1 then 0 else Nat.log2 (n - 1) + 1

/-- Saturating addition on an unsigned field of `n` bits. -/
def satAdd (n a b : Nat) : Nat := min (a + b) (2 ^ n - 1)

/-- Whether a 64-bit word is zero in every bit of the ranges (lo, width). -/
def zeroIn (v : W64) (rs : List (Nat × Nat)) : Bool := rs.all (fun p => bits v p.1 p.2 == 0)

end Sys2Proof.Machine
end

