-- ==== Sys2Proof/Machine/Mem.lean ====
section
/-! DEFINITION. Memory: a list of (address, byte) pairs with strictly rising addresses and no entry equal to what an
unlisted address reads as, which is 0 (assumption 9). A global location has the key DIE × 2^51 + LOCAL of its
physical address (07 R150, 15 R353); a scratchpad byte has its physical offset. -/
namespace Sys2Proof.Machine

/-- What an address that nothing has written reads as. -/
def unlisted : Byte := 0

/-- The byte at an address. -/
def memGet : List Host.Cell → Nat → Byte
  | [], _ => unlisted
  | (c, x) :: r, a => if c == a then x else memGet r a

/-- Put a listed byte in its place. -/
def memInsert : List Host.Cell → Nat → Byte → List Host.Cell
  | [], a, b => [(a, b)]
  | (c, x) :: r, a, b =>
    if a < c then (a, b) :: (c, x) :: r
    else if a == c then (a, b) :: r
    else (c, x) :: memInsert r a b

/-- Write one byte, keeping the canonical form. -/
def memPut (m : List Host.Cell) (a : Nat) (b : Byte) : List Host.Cell :=
  if b == unlisted then m.filter (fun c => c.1 != a) else memInsert m a b

/-- The `n` bytes from an address upward. -/
def memRead (m : List Host.Cell) (a n : Nat) : List Byte := (List.range n).map (fun i => memGet m (a + i))

/-- Write bytes from an address upward. -/
def memWrite (m : List Host.Cell) (a : Nat) : List Byte → List Host.Cell
  | [] => m
  | b :: bs => memWrite (memPut m a b) (a + 1) bs

/-- Write a list of cells in order. -/
def memWriteCells (m : List Host.Cell) (cs : List Host.Cell) : List Host.Cell :=
  cs.foldl (fun acc c => memPut acc c.1 c.2) m

/-- The canonical form: strictly rising addresses, no entry equal to what an unlisted address reads as. -/
def Memory.wf : List Host.Cell → Bool
  | [] => true
  | [(_, x)] => x != unlisted
  | (a, x) :: (b, y) :: r => a < b && x != unlisted && Memory.wf ((b, y) :: r)

/-- The key of a physical location. -/
def physKey (die loc : Nat) : Nat := die * 2 ^ 51 + loc

/-- The die of a key. -/
def keyDie (key : Nat) : Nat := key / 2 ^ 51

/-- Remove the poison marks of `n` bytes from a key (07 R153: a write replaces what was there). -/
def clearPoison (p : List Nat) (a n : Nat) : List Nat := p.filter (fun k => k < a || a + n ≤ k)

/-- Whether one of `n` bytes from a key is marked. -/
def anyPoison (p : List Nat) (a n : Nat) : Bool := p.any (fun k => a ≤ k && k < a + n)

end Sys2Proof.Machine
end

