-- ==== Sys2Proof/Machine/Regs.lean ====
section
/-! DEFINITION. The registers of the context in focus: reads as they stood before the group (03 R46), writes held for
its close, the special registers (04 R91, R92) and the delivery of a group's writes (03 R46, R49). -/
namespace Sys2Proof.Machine

/-! ## Geometry of the part -/

/-- x and y of core `k` (01 R9; the number is x + 64 y). -/
def coreX (k : Nat) : Nat := k % 64
/-- The row of core `k`. -/
def coreY (k : Nat) : Nat := k / 64
/-- The number of core (x, y). -/
def coreAt (x y : Nat) : Nat := x + 64 * y
/-- The die of core `k` (01 R9). -/
def coreDie (k : Nat) : Nat := coreX k / 32 + 2 * (coreY k / 16)
/-- The cluster of core `k` (01 R9). -/
def coreCluster (k : Nat) : Nat × Nat := (coreX k / 4, coreY k / 2)
/-- The quad of core `k` within its cluster (01 R9), which names its vector unit (01 R11). -/
def coreQuad (k : Nat) : Nat := coreX k / 2 % 2
/-- The four cores that share the vector unit of core `k` (01 R11), row by row. -/
def quadCores (k : Nat) : List Nat :=
  let x := coreX k / 4 * 4 + 2 * coreQuad k
  let y := coreY k / 2 * 2
  [coreAt x y, coreAt (x + 1) y, coreAt x (y + 1), coreAt (x + 1) (y + 1)]
/-- The number of a pipe, 0 or 1, of the vector unit of core `k`. -/
def pipeNo (k p : Nat) : Nat := 4 * (coreX k / 4 + 16 * (coreY k / 2)) + 2 * coreQuad k + p

/-- Whether the part is a TN9-S (00 R1; 16 R387 SPART). -/
def spart (s : State) : Bool := bit s.feat 4
/-- Rows of the mesh (00 R1). -/
def meshRows (s : State) : Nat := if spart s then 16 else 32
/-- Whether a cluster is fenced (16 R382). -/
def coreFenced (s : State) (k : Nat) : Bool := s.fenced.contains (coreCluster k)

/-! ## Launches and residents -/

/-- The launch of a task that runs on the module. -/
def launchOf (s : State) (task : BitVec 12) : Option Launch := s.launches.find? (fun l => l.task == task)

/-- Replace the launch of a task. -/
def setLaunch (s : State) (l : Launch) : State :=
  { s with launches := replaceFirst (fun x => x.task == l.task) (fun _ => l) s.launches }

/-- Whether core `k` lies in the rectangle of a launch (06 R126). -/
def inRect (l : Launch) (k : Nat) : Bool :=
  l.ox ≤ coreX k && coreX k < l.ox + 2 ^ l.logw && l.oy ≤ coreY k && coreY k < l.oy + 2 ^ l.logh

/-- The row-major rank of core `k` in the rectangle of a launch (05 R103). -/
def rankIn (l : Launch) (k : Nat) : Nat := (coreX k - l.ox) + 2 ^ l.logw * (coreY k - l.oy)

/-- The cores of a launch in rank order. -/
def launchCores (l : Launch) : List Nat :=
  (List.range (2 ^ l.logw * 2 ^ l.logh)).map (fun q => coreAt (l.ox + q % 2 ^ l.logw) (l.oy + q / 2 ^ l.logw))

/-- The share of a launch on a core. -/
def resOf (c : Core) (task : BitVec 12) : Option Resident := c.res.find? (fun r => r.task == task)

/-- Change the share of a launch on a core. -/
def Core.updRes (c : Core) (task : BitVec 12) (f : Resident → Resident) : Core :=
  { c with res := replaceFirst (fun r => r.task == task) f c.res }

/-- Change the share of the launch on the core in focus. -/
def updRes (task : BitVec 12) (f : Resident → Resident) (s : State) : State :=
  { s with core := s.core.updRes task f }

/-- Whether the task is the firmware launch (15 R346). -/
def isFirmware (s : State) (task : BitVec 12) : Bool := (launchOf s task).any (fun l => l.firmware)

/-! ## General registers -/

/-- The physical entry that window register `r` names at depth `d` (04 R72). -/
def winIx (d r : Nat) : Fin 64 := ⟨(8 * d + r) % 64, Nat.mod_lt _ (by decide)⟩

/-- Window register `r` of a context. -/
def Ctx.reg (c : Ctx) (r : BitVec 4) : W64 := c.stack.get (winIx c.depth r.toNat)

/-- Set window register `r` of a context. -/
def Ctx.setReg (c : Ctx) (r : BitVec 4) (v : W64) : Ctx :=
  { c with stack := c.stack.set (winIx c.depth r.toNat) v (winIx c.depth r.toNat).isLt }

/-- read_w(n) of 00 R5: the register as it stood before the group. -/
def readW (s : State) (r : BitVec 4) : W64 := s.ctx.reg r

/-- Register `r + j` of the window, for the instructions that read a run of registers. -/
def readWn (s : State) (r : BitVec 4) (j : Nat) : W64 := s.ctx.reg (BitVec.ofNat 4 (r.toNat + j))

/-- A vector register as it stood before the group (03 R46). -/
def readV (s : State) (r : BitVec 5) : VReg := s.ctx.vregs.get ⟨r.toNat, r.isLt⟩

/-- A mask register as it stood before the group; m0 reads as all ones (03 R54). -/
def readM (s : State) (r : BitVec 3) : MaskReg := if r == 0 then BitVec.allOnes 128 else s.ctx.masks.get ⟨r.toNat, r.isLt⟩

/-- A list register as it stood before the group. -/
def readL (s : State) (r : BitVec 2) : RList := s.ctx.lists.get ⟨r.toNat, r.isLt⟩

/-- A tensor-scale register as it stood before the group (11 R249). -/
def readE (s : State) (r : BitVec 3) : W32 := s.ctx.eregs.get ⟨r.toNat, r.isLt⟩

/-- Hold a register write for the close of the group (03 R46). -/
def put (w : RegWrite) (s : State) : State := { s with ctx := { s.ctx with pend := s.ctx.pend ++ [w] } }

/-- write_w(n, v) of 00 R5. -/
def writeW (r : BitVec 4) (v : W64) (s : State) : State := put (.gpr r v) s

/-- Hold flags for FPFLAGS (02 R30). -/
def flagFp (f : BitVec 6) (s : State) : State := { s with ctx := { s.ctx with pendFp := s.ctx.pendFp ||| f } }

/-- Hold bits for RLSTAT (10 R245). -/
def flagRl (f : BitVec 4) (s : State) : State := { s with ctx := { s.ctx with pendRl := s.ctx.pendRl ||| f } }

/-! ## Status words -/

/-- SSTAT after a status (05 R117, R123): LAST, and the sticky bit of a failing one. -/
def sstatAfter (v : W64) (code : Nat) : W64 :=
  setBits v 0 3 code ||| (if code == 0 then 0 else w64 (2 ^ (code + 3)))

/-- 04 R93: the clk that the watchdog has counted; a context parked in place stopped counting when it parked. -/
def cycOf (s : State) (c : Ctx) : Nat :=
  match c.status with
  | .parked _ _ => (((c.since.getD s.clk : Nat) : Int) - c.start).toNat
  | _ => ((s.clk : Int) - c.start).toNat

/-- 05 R123, R104: low messages of the core, on chip and in overflow. -/
def lowCount (c : Core) (chip : Bool) : Nat :=
  (c.res.flatMap (fun r => r.low)).countP (fun q => (q.store == .chip) == chip)

/-- High messages of the core, held ones and steal answers included, on chip and in overflow. -/
def highCount (c : Core) (chip : Bool) : Nat :=
  (c.res.flatMap (fun r => r.high)).countP (fun q => (q.store == .chip) == chip) +
    (c.held.countP (fun h => (h.q.store == .chip) == chip)) + c.pulls.countP (fun u => u.reply && (u.q.store == .chip) == chip) +
    c.answers.countP (fun q => (q.store == .chip) == chip)

/-- 15 R365: whether a context is at a group boundary. -/
def atBoundary (c : Ctx) : Bool :=
  match c.status with
  | .free => true
  | .parked _ _ => true
  | .closing _ => false
  | _ => c.gcount == 0 && c.run.isEmpty && c.pend.isEmpty

/-- Every context of the core in focus that is not free. -/
def liveCtxs (s : State) : List Ctx :=
  (s.ctx :: s.core.ctxs.map (fun p => p.2)).filter (fun c => c.status != .free)

/-- 15 R364, R365: HALTED. -/
def haltedBit (s : State) : Bool :=
  s.core.regs.halt && (liveCtxs s).all (fun c => isFirmware s c.task || atBoundary c)

/-- The words of an instruction cache of 64 KiB (01 R10). -/
def icacheWords : Nat := 16384

/-- Whether two scratchpad regions of a core overlap. -/
def overlaps (b1 l1 b2 l2 : Nat) : Bool := b1 < b2 + 2 ^ l2 && b2 < b1 + 2 ^ l1

/-- Every command of the core in focus that has not completed. -/
def coreCmds (c : Core) : List Cmd := c.matq ++ c.copyq ++ c.netq ++ c.routeq

/-- 15 R364: INFLIGHT. -/
def inflight (s : State) : Nat :=
  if s.core.regs.halt then (coreCmds s.core).countP (fun q => !isFirmware s q.task) else 0

/-- 15 R364: DBG as it reads. -/
def dbgWord (s : State) : W64 :=
  w64 (toBit s.core.regs.halt + toBit (haltedBit s) * 2 + toBit s.core.regs.drain * 4 + toBit s.core.regs.drained * 8 +
    s.core.regs.dtask.toNat * 2 ^ 16 + inflight s * 2 ^ 32)

/-- 05 R123: MYXY. -/
def myxy (s : State) : W64 :=
  let k := s.core.id
  w64 (coreX k + coreY k * 2 ^ 6 + coreDie k * 2 ^ 11 + s.accel.toNat * 2 ^ 14 + s.site.toNat * 2 ^ 24)

/-- The scale-up ports that are up (13 R295, R296, R314); a port that no entry lists is up at 200 Gb/s. -/
def upPorts (s : State) : List Nat :=
  (List.range 64).filter (fun p => (alGet? s.fab.ports p).all (fun x => x.up))

/-- 13 R314: NSTAT. -/
def nstat (s : State) : W64 :=
  w64 (s.core.netq.length + (upPorts s).length * 2 ^ 8 + bits s.feat 28 4 * 2 ^ 16 + s.core.regs.lastst.toNat * 2 ^ 24)

/-- 04 R79: WDEPTH. -/
def wdepth (c : Ctx) : W64 := w64 (c.depth + c.sb * 2 ^ 8)

/-- 15 R347: PRIV. -/
def privWord (t : TrapRegs) : W64 := w64 (toBit t.level + toBit t.intrap * 2 + toBit t.prev * 4)

/-! ## Scratchpad of a launch (07 R149), and the wait barrier of a command -/

/-- The physical offset of a scratchpad operand: it wraps modulo 2^logspad within the launch's region. -/
def spOff (base logspad : Nat) (a : Nat) : Nat := base + a % 2 ^ logspad

/-- The bytes of an access; each byte wraps on its own. -/
def spadRead (c : Core) (base logspad a n : Nat) : List Byte :=
  (List.range n).map (fun i => memGet c.spad (spOff base logspad (a + i)))

/-- Whether the wait barrier of a command has completed (08 R187). -/
def barrierOver (c : Core) (q : Cmd) : Bool :=
  match q.wait with
  | none => true
  | some (off, done) => (done + 1).toNat ≤ (w64 (ofBytes (spadRead c q.spbase q.logspad (off + 8) 8))).toNat

/-- 11 R267: MSTAT, with the share of the issuing launch. -/
def mstat (s : State) (r : Option Resident) : W64 :=
  let waits := (s.core.matq.find? (fun q => q.st != .done)).any (fun q => !barrierOver s.core q)
  w64 ((r.map (fun x => x.skips.toNat)).getD 0 + s.core.matq.length * 2 ^ 32 + toBit waits * 2 ^ 40)

/-- The value that MFS returns (04 R91): the value before the group of what MTS writes, the value now of what hardware
changes. -/
def srRead (s : State) (n : Nat) : W64 :=
  let c := s.ctx
  let g := s.core.regs
  let res := resOf s.core c.task
  match n with
  | 0x00 => myxy s
  | 0x01 => w64 (c.num.toNat + c.inc.toNat * 16)
  | 0x02 => w64 (c.task.toNat + c.cls.toNat * 2 ^ 12 + c.rank * 2 ^ 16)
  | 0x03 => c.msg.hdr0
  | 0x04 => c.msg.hdr2
  | 0x05 => c.msg.hdr3
  | 0x06 => c.msg.hbuf
  | 0x07 => c.msg.hstat
  | 0x08 => w64 (lowCount s.core true + lowCount s.core false * 2 ^ 16)
  | 0x09 => w64 (highCount s.core true + highCount s.core false * 2 ^ 16)
  | 0x0A => c.msg.sstat
  | 0x0B => w64 ((s.core.out.countP (fun e => e.slots.isEmpty)) +
      ((s.core.out.map (fun e => e.slots.length)).sum + s.core.reserve.length) * 2 ^ 8 +
      ((res.map (fun r => r.owe)).getD 0) * 2 ^ 40)
  | 0x0C => g.stalecnt.setWidth 64
  | 0x0D => c.msg.rstat
  | 0x0E => c.msg.rhdr2
  | 0x0F => c.msg.rhdr3
  | 0x10 => c.msg.rfall
  | 0x20 => w64 (8 * c.depth)
  | 0x21 => wdepth c
  | 0x22 => w64 (cycOf s c)
  | 0x23 => w64 c.limit
  | 0x30 => c.wto
  | 0x31 => g.spalo
  | 0x32 => g.spahi
  | 0x33 => g.spblo
  | 0x34 => g.spbhi
  | 0x40 => c.fpflags.setWidth 64
  | 0x41 => c.fprnd.setWidth 64
  | 0x50 => c.rlstat
  | 0x60 => (res.map (fun r => r.geomA)).getD 0
  | 0x61 => (res.map (fun r => r.geomB)).getD 0
  | 0x62 => (res.map (fun r => r.mwt.setWidth 64)).getD 1
  | 0x63 => g.merr
  | 0x64 => mstat s res
  | 0x70 => (res.map (fun r => w64 (r.stage + r.posted * 2 ^ 32))).getD 0
  | 0x71 => w64 (s.core.sealed % 2 ^ 32 + s.core.batches.length * 2 ^ 32)
  | 0x80 => nstat s
  | 0x90 => c.rtstat
  | 0xA0 => c.trap.trapc
  | 0xA1 => c.trap.trappc
  | 0xA2 => c.trap.trapv
  | 0xA3 => g.tvec
  | 0xA4 => c.trap.asid.setWidth 64
  | 0xA5 => privWord c.trap
  | 0xA6 => dbgWord s
  | 0xA7 => s.feat
  | 0xA8 => c.trap.tsave.get 0
  | 0xA9 => c.trap.tsave.get 1
  | 0xAA => c.trap.tsave.get 2
  | 0xAB => c.trap.tsave.get 3
  | 0xAC => c.trap.stkix.setWidth 64
  | 0xAD => c.stack.get ⟨c.trap.stkix.toNat, c.trap.stkix.isLt⟩
  | 0xAE => g.parkb
  | _ => 0

/-- 04 R92, 15 R346, R347: whether MFS or MTS of the register raises PRIV at user level. -/
def srSystemOnly (n : Nat) : Bool := (0xA0 ≤ n && n ≤ 0xA3) || n == 0xA6 || (0xA8 ≤ n && n ≤ 0xAE)

/-- 04 R79: WDEPTH as MTS at system level leaves it. -/
def setWdepth (c : Ctx) (v : W64) : Ctx :=
  let d := bits v 0 5
  let b := bits v 8 5
  if b ≤ d && d ≤ 22 && b ≤ 16 then { c with depth := d, sb := b } else c

/-- 11 R260: MERR after a write of ones to its W1C bits. -/
def merrAfter (m v : W64) : W64 :=
  let m1 := m &&& ~~~(v &&& 7)
  if bits m1 0 2 == 0 then setBits m1 32 32 0 else m1

/-- 15 R364, R366: DBG after a write of HALT, DRAIN and DTASK; DRAINED speaks of the task that DTASK names, so it falls
with DRAIN and with a change of the task. -/
def dbgAfter (g : CoreRegs) (halt drain : Bool) (task : BitVec 12) : CoreRegs :=
  { g with halt := halt, drain := drain, drained := g.drained && drain && g.dtask == task, dtask := task }

/-- The effect of MTS on a register (04 R91, R92): Z and RO fields are left alone, W1C bits follow 00 R3, and a
register that is RO at user level is unchanged there; `sys` is the level at which the MTS issued. -/
def srWrite (sys : Bool) (s : State) (n : Nat) (v : W64) : State :=
  let c := s.ctx
  let g := s.core.regs
  let setC (x : Ctx) : State := { s with ctx := x }
  let setG (x : CoreRegs) : State := { s with core := { s.core with regs := x } }
  let setM (x : MsgRegs) : State := setC { c with msg := x }
  let setT (x : TrapRegs) : State := setC { c with trap := x }
  match n with
  | 0x0A => setM { c.msg with sstat := c.msg.sstat &&& ~~~(v &&& 0x3F0) }
  | 0x0C => if sys then setG { g with stalecnt := v.setWidth 32 } else s
  | 0x10 => setM { c.msg with rfall := v }
  | 0x21 => if sys then setC (setWdepth c v) else s
  | 0x30 => setC { c with wto := v &&& 0xFFFFFFFF }
  | 0x31 => if sys then setG { g with spalo := v &&& 0x003FFFFFFFFFFC00 } else s
  | 0x32 => if sys then setG { g with spahi := v &&& 0x003FFFFFFFFFFC00 } else s
  | 0x33 => if sys then setG { g with spblo := v &&& 0x003FFFFFFFFFFC00 } else s
  | 0x34 => if sys then setG { g with spbhi := v &&& 0x003FFFFFFFFFFC00 } else s
  | 0x40 => setC { c with fpflags := v.setWidth 6 }
  | 0x41 => if bits v 0 3 ≤ 4 then setC { c with fprnd := v.setWidth 3 } else s
  | 0x50 => setC { c with rlstat := setBits c.rlstat 0 4 (bits v 0 4) }
  | 0x60 => if sys then updRes c.task (fun r => { r with geomA := v }) s else s
  | 0x61 => if sys then updRes c.task (fun r => { r with geomB := v &&& 0xFFFFFFFF }) s else s
  | 0x62 => updRes c.task (fun r => { r with mwt := v.setWidth 4 }) s
  | 0x63 => setG { g with merr := merrAfter g.merr v }
  | 0x64 => updRes c.task (fun r => { r with skips := v.setWidth 32 }) s
  | 0x90 => setC { c with rtstat := c.rtstat &&& ~~~(v &&& 0x3F0) }
  | 0xA0 => setT { c.trap with trapc := v &&& 0xFF }
  | 0xA1 => setT { c.trap with trappc := v }
  | 0xA2 => setT { c.trap with trapv := v }
  | 0xA3 => setG { g with tvec := v &&& ~~~3 }
  | 0xA4 => if sys then setT { c.trap with asid := v.setWidth 16 } else s
  | 0xA5 => if sys then setT { c.trap with level := bit v 0, intrap := bit v 1, prev := bit v 2 } else s
  | 0xA6 => setG (dbgAfter g (bit v 0) (bit v 2) (BitVec.ofNat 12 (bits v 16 12)))
  | 0xA8 => setT { c.trap with tsave := c.trap.tsave.set 0 v }
  | 0xA9 => setT { c.trap with tsave := c.trap.tsave.set 1 v }
  | 0xAA => setT { c.trap with tsave := c.trap.tsave.set 2 v }
  | 0xAB => setT { c.trap with tsave := c.trap.tsave.set 3 v }
  | 0xAC => setT { c.trap with stkix := v.setWidth 6 }
  | 0xAE => setG { g with parkb := v &&& 0x0007FFFFFFFFFC00 }
  | _ => s

/-- Drop the copies of registers of context `c` from the operand-reuse cache (09 R200). -/
def forget (c : BitVec 4) (gen : Bool) (which : Nat → Bool) (s : State) : State :=
  { s with core := { s.core with reuse := s.core.reuse.filter (fun p => !(p.ctx == c && p.gen == gen && which p.reg)) } }

/-- One held write becomes visible (03 R46), `sys` being the level before the group; a write drops the copies of its
register from the operand-reuse cache (09 R200). DESIGN CHOICE: a write of w0 to w15 behind an MTS of WDEPTH in the same group lands in
the window that the MTS leaves, since writes are delivered in program order (assumption 121). -/
def applyWrite (sys : Bool) (s : State) (w : RegWrite) : State :=
  let c := s.ctx
  let setC (x : Ctx) : State := { s with ctx := x }
  match w with
  | .gpr r v => forget c.num true (fun e => e == (winIx c.depth r.toNat).val) (setC (c.setReg r v))
  | .vec r v => forget c.num false (fun e => e == r.toNat) (setC { c with vregs := c.vregs.set r.toNat v r.isLt })
  | .mask r v => setC { c with masks := c.masks.set r.toNat v r.isLt }
  | .rlist r v => setC { c with lists := c.lists.set r.toNat v r.isLt }
  | .ereg r v => setC { c with eregs := c.eregs.set r.toNat v r.isLt }
  | .sreg n v => srWrite sys s n v
  | .stk n v => forget c.num true (fun e => e == n.toNat) (setC { c with stack := c.stack.set n.toNat v n.isLt })
  | .slast code => setC { c with msg := { c.msg with sstat := sstatAfter c.msg.sstat code } }
  | .rstat v => setC { c with msg := { c.msg with rstat := v } }
  | .rhdr w2 w3 => setC { c with msg := { c.msg with rhdr2 := w2, rhdr3 := w3 } }
  | .rladm n => setC { c with rlstat := setBits c.rlstat 16 8 n }
  | .rtlast n => setC { c with rtstat := setBits c.rtstat 0 3 n }

/-- The flags of a group are ORed in after its writes (02 R30, 10 R245). -/
def applyFlags (s : State) : State :=
  { s with ctx := { s.ctx with fpflags := s.ctx.fpflags ||| s.ctx.pendFp,
                               rlstat := s.ctx.rlstat ||| s.ctx.pendRl.setWidth 64, pendFp := 0, pendRl := 0 } }

/-- Deliver the writes of the group in program order (03 R46, R49), at the level that the group ran at (04 R91). -/
def deliver (s : State) : State :=
  applyFlags (s.ctx.pend.foldl (applyWrite s.ctx.trap.level) { s with ctx := { s.ctx with pend := [] } })

/-! ## The end of an instruction -/

/-- The address of the instruction: that of the first word of its HX run (03 R63). -/
def instrPc (c : Ctx) : W64 := c.pc - w64 (4 * c.run.length)

/-- The context goes on after an instruction: the next word, and the group closes at the marker S or at its 16th
instruction (03 R45). -/
def Ctx.advance (sw : Bool) (c : Ctx) : Ctx :=
  { c with pc := c.pc + 4, run := [], since := none, got := none,
           gcount := if sw || c.gcount + 1 ≥ 16 then 0 else c.gcount + 1,
           status := if sw || c.gcount + 1 ≥ 16 then .closing .next else .ready }

/-- An instruction with its marker completes. -/
def finish (sw : Bool) (s : State) : State := { s with ctx := s.ctx.advance sw }

/-- An instruction closes its group with an action (03 R45, R48). -/
def close (a : CloseAct) (s : State) : State :=
  { s with ctx := { s.ctx with run := [], since := none, got := none, gcount := 0, status := .closing a } }

/-- park(reason) of 00 R5: the context releases its issue slot; the instruction is taken up again when the reason is
satisfied. The clk of the first park is kept for WTO (07 R169). -/
def wait (w : Wait) (s : State) : State :=
  { s with ctx := { s.ctx with status := .waiting w, since := some (s.ctx.since.getD s.clk) } }

/-- The clk that the context has waited in this instruction. -/
def waited (s : State) : Nat := s.clk - s.ctx.since.getD s.clk

/-- 07 R169, R170: whether the timeout of the context has run out. -/
def timedOut (s : State) : Bool := s.ctx.wto != 0 && s.ctx.wto.toNat ≤ waited s

end Sys2Proof.Machine
end

