-- ==== Sys2Proof/Machine/Xlate.lean ====
section
/-! DEFINITION. Global addresses (07 R150), translation (15 R352 to R358), the store buffer and its forwarding (08 R174,
R175), and the writes that the memory agents perform, with the watches they re-evaluate (07 R170, 16 R379). -/
namespace Sys2Proof.Machine

/-! ## Addresses -/

/-- ACCEL of a global address (07 R150). -/
def vaAccel (va : W64) : Nat := bits va 54 10
/-- DIE of a global address. -/
def vaDie (va : W64) : Nat := bits va 51 3
/-- LOCAL of a global address. -/
def vaLoc (va : W64) : Nat := bits va 0 51

/-- Whether an access that names this die takes the FAULT path without a walk (07 R150). -/
def dieAbsent (s : State) (d : Nat) : Bool :=
  d == 7 || (spart s && (d == 2 || d == 3)) || (!bit s.feat 3 && (d == 4 || d == 5))

/-- The Retort that translates a die: die 6 is translated by that of die 4 (15 R353). -/
def retortIx (d : Nat) : Fin 6 := if d == 6 then 4 else ⟨d % 6, Nat.mod_lt _ (by decide)⟩

/-- The die whose HBM holds the tables and the fault ring of a Retort (15 R353, R359). -/
def tableDie (r : Nat) : Nat := if r == 4 then 0 else if r == 5 then 1 else r

/-- The Retort of a die. -/
def retortOf (s : State) (d : Nat) : Retort := s.retorts.get (retortIx d)

/-- Change the Retort of a die. -/
def setRetort (s : State) (d : Nat) (r : Retort) : State :=
  { s with retorts := s.retorts.set (retortIx d).val r (retortIx d).isLt }

/-- The generation of an ASID (15 R358). -/
def genOf (r : Retort) (asid : Nat) : Nat := alGet r.gens asid 0

/-- 15 R352: the size class of an address under the region registers (SPALO, SPAHI, SPBLO, SPBHI). -/
def inSub (spa : List W64) (va : W64) : Bool :=
  let a := bits va 10 44
  let b (i : Nat) := bits (wordAt spa i) 10 44
  (b 0 ≤ a && a < b 1) || (b 2 ≤ a && a < b 3)

/-- The region registers of a core. -/
def coreSpa (c : Core) : List W64 := [c.regs.spalo, c.regs.spahi, c.regs.spblo, c.regs.spbhi]

/-- The number of the page or sub-page of a die-local address (15 R354). -/
def pageNo (sub : Bool) (loc : Nat) : Nat := if sub then loc / 2 ^ 10 else loc / 2 ^ 21

/-! ## Table walks -/

/-- An entry of a table: the next table, not present, or invalid (15 R355). -/
inductive Dirent where
  | next (pa : Nat)
  | absent
  | bad
  deriving DecidableEq, Repr

/-- A directory entry (15 R355); `wide` when it names a 16 KiB table. -/
def dirent (v : W64) (wide : Bool) : Dirent :=
  if !bit v 0 then .absent
  else if bit v 1 || bits v 2 11 != 0 || bits v 48 16 != 0 || (wide && bit v 13) then .bad
  else .next (bits v 13 35 * 2 ^ 13)

/-- 15 R355, R25: whether a leaf with V = 1 keeps every rule of its format. -/
def leafValid (sub : Bool) (v : W64) : Bool :=
  bit v 1 && bits v 50 4 == 0 && (sub || bits v 10 11 == 0) && geomAllowed (bits v 6 4) (bits v 48 2)

/-- What a walk reaches: a leaf as stored, a directory entry with V = 0, or an invalid entry. -/
inductive Leaf where
  | entry (v : W64)
  | absent
  | bad
  deriving DecidableEq, Repr

/-- An 8-byte table entry, as it stands in memory. -/
def tableWord (s : State) (die pa : Nat) : W64 := w64 (ofBytes (memRead s.mem (physKey die pa) 8))

/-- A directory entry as a walk finds it: cached with its tags, or in memory (15 R357). -/
def dirWord (s : State) (asid : Nat) (sub : Bool) (va : W64) (pa : Nat) : W64 :=
  let r := retortOf s (vaDie va)
  match r.dirs.find? (fun e => e.asid == asid && e.gen == genOf r asid && e.sub == sub && e.pa == pa) with
  | some e => e.word
  | none => tableWord s (tableDie (retortIx (vaDie va)).val) pa

/-- The bytes of memory behind a die: two HBM4 stacks of 64 GiB (01 R13), 1,024 GB of CXL memory (16 R381), and whatever the
host has. DESIGN CHOICE (assumption 118): a GB of the CXL tier is 2^30 bytes, since 00 R2 sets GB apart from GiB without a size. -/
def memSize (die : Nat) : Nat := if die < 4 then 2 ^ 37 else if die < 6 then 2 ^ 40 else 2 ^ 51

/-- One directory level of a walk; a table that lies outside its memory is taken for an invalid entry (assumption 118). -/
def walkDir (room : Nat) (w : W64) (wide : Bool) (k : Nat → Leaf) : Leaf :=
  match dirent w wide with
  | .absent => .absent
  | .bad => .bad
  | .next t => if t < room then k t else .bad

/-- The leaf that a walk reaches; a present one of a page outside the memory of its die is taken for an invalid entry
(assumption 118). -/
def walkEntry (die : Nat) (sub : Bool) (v : W64) : Leaf :=
  if bit v 0 && memSize die ≤ (if sub then bits v 10 38 * 2 ^ 10 else bits v 21 27 * 2 ^ 21) then .bad else .entry v

/-- 15 R353, R354: the walk of an address through the tree of its size class. -/
def walkLeaf (s : State) (asid : Nat) (sub : Bool) (va : W64) : Leaf :=
  let td := tableDie (retortIx (vaDie va)).val
  let a := w64 (vaLoc va)
  let dir := dirWord s asid sub va
  let room := memSize td
  walkDir room (dir ((retortOf s (vaDie va)).dir + 32 * asid + (if sub then 8 else 0))) false fun t1 =>
  walkDir room (dir (t1 + 8 * bits a 41 10)) false fun t2 =>
  walkDir room (dir (t2 + 8 * bits a 31 10)) false fun t3 =>
  if sub then
    walkDir room (dir (t3 + 8 * bits a 21 10)) true fun t4 => walkEntry (vaDie va) sub (tableWord s td (t4 + 8 * bits a 10 11))
  else walkEntry (vaDie va) sub (tableWord s td (t3 + 8 * bits a 21 10))

/-- The directory entries that a walk passes, with their addresses, as far as it gets: `steps` are the index of each
level's entry and whether the level is the wide one. -/
def walkPath (dir : Nat → W64) : Nat → List (Nat × Bool) → List (Nat × W64)
  | _, [] => []
  | base, (ix, wide) :: r =>
    let pa := base + 8 * ix
    match dirent (dir pa) wide with
    | .next t => (pa, dir pa) :: walkPath dir t r
    | _ => []

/-- The directory entries of the walk of an address. -/
def walkDirs (s : State) (asid : Nat) (sub : Bool) (va : W64) : List (Nat × W64) :=
  let a := w64 (vaLoc va)
  walkPath (dirWord s asid sub va) ((retortOf s (vaDie va)).dir + 32 * asid)
    ([(if sub then 1 else 0, false), (bits a 41 10, false), (bits a 31 10, false)] ++ (if sub then [(bits a 21 10, true)] else []))

/-- 15 R356: the fault that a present, valid leaf gives a request, in the order of the rule. -/
def permFault (q : Req) (leaf : W64) : Option Nat :=
  if q.user && bit leaf 5 then some 4
  else if q.rd && !bit leaf 2 then some 1
  else if q.wr && !bit leaf 3 then some 2
  else if q.fetch && !bit leaf 4 then some 3
  else none

/-- The key of the location that a leaf maps an address to (15 R354). -/
def leafKey (sub : Bool) (leaf : W64) (va : W64) : Nat :=
  physKey (vaDie va)
    (if sub then bits leaf 10 38 * 2 ^ 10 + vaLoc va % 2 ^ 10 else bits leaf 21 27 * 2 ^ 21 + vaLoc va % 2 ^ 21)

/-- The result of a translation by an agent: the location and its leaf, a miss that waits for a walk, or the FAULT path. -/
inductive XRes where
  | ok (key : Nat) (leaf : W64)
  | miss
  | invalid
  deriving DecidableEq, Repr

/-- The cached leaf of a request, tagged with ASID, current generation and size class (15 R357, R358). -/
def cachedLeaf (s : State) (q : Req) : Option W64 :=
  let r := retortOf s (vaDie q.va)
  let g := genOf r q.asid
  let p := pageNo q.sub (vaLoc q.va)
  (r.cache.find? (fun e => e.asid == q.asid && e.gen == g && e.sub == q.sub && e.die == vaDie q.va && e.page == p)).map
    (fun e => e.leaf)

/-- A cached translation that allows the access. -/
def cachedKey (s : State) (q : Req) : Option Nat :=
  match cachedLeaf s q with
  | some v => if (permFault q v).isNone then some (leafKey q.sub v q.va) else none
  | none => none

/-- The translation of a device agent's request: a cached leaf that allows it, or a miss (15 R357). -/
def xlate (s : State) (q : Req) : XRes :=
  if dieAbsent s (vaDie q.va) then .invalid
  else match cachedLeaf s q with
    | some v => if (permFault q v).isNone then .ok (leafKey q.sub v q.va) v else .miss
    | none => .miss

/-! ## Requests of the context in focus -/

/-- The request of the context for data (15 R346, R347, R352). -/
def dataReq (s : State) (va : W64) (rd wr : Bool) : Req :=
  { va := va, asid := s.ctx.trap.asid.toNat, sub := inSub (coreSpa s.core) va, rd := rd, wr := wr, fetch := false,
    user := !s.ctx.trap.level }

/-- The request of the context for an instruction: at system level in ASID 0 (15 R346). -/
def fetchReq (s : State) (va : W64) : Req :=
  { va := va, asid := if s.ctx.trap.level then 0 else s.ctx.trap.asid.toNat, sub := inSub (coreSpa s.core) va,
    rd := false, wr := false, fetch := true, user := !s.ctx.trap.level }

/-- The keys of a list of addresses, all from cached leaves, or the first request that misses. -/
def ctxKeys (s : State) (rd wr : Bool) : List W64 → Except Req (List Nat)
  | [] => .ok []
  | va :: r =>
    match cachedKey s (dataReq s va rd wr) with
    | none => .error (dataReq s va rd wr)
    | some k => (ctxKeys s rd wr r).map (fun ks => k :: ks)

/-- 15 R357: a request joins a pending walk of the same ASID, generation, size class and leaf that carries fewer than 64
requests, or starts one. -/
def joinWalk (who : Walker) (q : Req) (s : State) : State :=
  let r := retortOf s (vaDie q.va)
  let g := genOf r q.asid
  let same (w : Walk) : Bool :=
    w.req.asid == q.asid && w.gen == g && w.req.sub == q.sub && vaDie w.req.va == vaDie q.va &&
      pageNo q.sub (vaLoc w.req.va) == pageNo q.sub (vaLoc q.va) && w.who.length < 64
  setRetort s (vaDie q.va)
    (if r.walks.any same then { r with walks := replaceFirst same (fun w => { w with who := w.who ++ [who] }) r.walks }
     else { r with walks := r.walks ++ [{ num := r.walkNum, req := q, gen := g, since := s.clk, who := [who] }],
                   walkNum := r.walkNum + 1 })

/-- The context in focus waits for a walk. -/
def startWalk (q : Req) (s : State) : State :=
  let s' := joinWalk (.ctx s.core.id s.ctx.num) q s
  { s' with ctx := { s'.ctx with status := .walking q } }

/-! ## Conditions and watches -/

/-- The conditions of WAITW and of the watch table: EQ, NE, GE, LT, signed (07 R170, 16 R378). -/
def condHolds (cc : Nat) (v arg : W64) : Bool :=
  match cc with
  | 0 => v == arg
  | 1 => v != arg
  | 2 => BitVec.sle arg v
  | _ => BitVec.slt v arg

/-- The doubleword at a key, as memory stands. -/
def dwordAt (s : State) (key : Nat) : W64 := w64 (ofBytes (memRead s.mem key 8))

/-- The watches of contexts on a doubleword that a write touched are re-evaluated (07 R170). -/
def wakeWatches (mem : List Host.Cell) (keys : List Nat) (w : Watch) : Watch :=
  if w.hit.isNone && keys.any (fun k => k / 8 == w.addr / 8) then
    let v := w64 (ofBytes (memRead mem w.addr 8))
    if condHolds w.cc.toNat v w.arg then { w with hit := some v } else w
  else w

/-- The aligned doublewords that keys lie in. -/
def granules (keys : List Nat) : List Nat := keys.foldr (fun k gs => setInsert (k / 8) gs) []

/-- Whether a lag shows older bytes of one of these doublewords. -/
def Lag.meets (gs : List Nat) (e : Lag) : Bool := e.cells.any (fun c => gs.contains (c.1 / 8))

/-- The lags that stay when the stores of some become seen where they are not: what is seen there of a location is one prefix of
its coherence order (08 R173), so that with a store all earlier ones to a doubleword of it are seen. -/
def dropLags (hit : Lag → Bool) (ls : List Lag) : List Lag :=
  (ls.foldr (fun e (a : List Lag × List (Nat × Nat)) =>
    if hit e || e.cells.any (fun c => a.2.contains (e.die, c.1 / 8))
    then (a.1, a.2 ++ e.cells.map (fun c => (e.die, c.1 / 8))) else (e :: a.1, a.2)) ([], [])).1

/-- Write cells to memory, for every agent to see: the bytes, the poison marks (07 R153) and the contexts' watches. -/
def writeCells (s : State) (cs : List Host.Cell) : State :=
  let mem := memWriteCells s.mem cs
  let keys := cs.map (fun c => c.1)
  { s with mem := mem, poison := s.poison.filter (fun k => !keys.contains k),
           watches := s.watches.map (wakeWatches mem keys), lag := dropLags (Lag.meets (granules keys)) s.lag,
           hidden := dropLags (Lag.meets (granules keys)) s.hidden }

/-- 16 R379: a watch entry fires: ARMED := 0, FIRES + 1, the completion word to CADDR, then the MSI-X vector. -/
def fireHostWatch (s : State) (i : Nat) (w : HostWatch) (v : W64) : State :=
  let fires := (bits w.w2 16 32 + 1) % 2 ^ 32
  let w' := { w with w2 := setBits (setBits w.w2 2 1 0) 16 32 fires, place := none }
  let word := w64 (fires + i * 2 ^ 32 + bits v 0 23 * 2 ^ 40 + 2 ^ 63)
  let s1 := { s with host := { s.host with watches := alPut s.host.watches i w' } }
  let base := physKey 6 w.caddr.toNat
  let s2 := writeCells s1 ((toBytes 8 word.toNat).mapIdx (fun j b => (base + j, b)))
  { s2 with host := { s2.host with msix := s2.host.msix ++ [bits w.w2 4 11] } }

/-- One armed entry is evaluated against memory (16 R379). -/
def evalHostWatch (s : State) (p : Nat × HostWatch) : State :=
  match p.2.place with
  | none => s
  | some key => if condHolds (bits p.2.w2 0 2) (dwordAt s key) p.2.arg then fireHostWatch s p.1 p.2 (dwordAt s key) else s

/-- A write is performed at the memory of its die: the bytes, then the watches on the doublewords it touched. -/
def perform (s : State) (cs : List Host.Cell) : State :=
  let s1 := writeCells s cs
  let hit (p : Nat × HostWatch) : Bool :=
    match p.2.place with
    | none => false
    | some key => cs.any (fun c => c.1 / 8 == key / 8)
  (s1.host.watches.filter hit).foldl evalHostWatch s1

/-- Bytes from a key upward, as cells. -/
def cellsAt (key : Nat) (bs : List Byte) : List Host.Cell := bs.mapIdx (fun i b => (key + i, b))

/-- Mark bytes as poisoned (07 R153). -/
def poisonCells (s : State) (keys : List Nat) : State :=
  { s with poison := keys.foldl (fun p k => setInsert k p) s.poison }

/-! ## The global memory as the agents see it (08 R173 to R177) -/

/-- The stores of a core that have not been performed, oldest first: in transit to another die, then in the store
buffer (08 R174, R175). -/
def storesOf (s : State) (c : Core) : List StoreEnt := s.transit.filter (fun e => e.core == c.id) ++ c.stores

/-- The cells of the outstanding stores of the core in focus. -/
def pendingCells (s : State) : List Host.Cell := (storesOf s s.core).flatMap (fun e => e.cells)

/-- The `core` of a lag that a write of another module or of the host has left. -/
def outsider : Nat := 2 ^ 11

/-- The byte that a lag shows at a key to the context in focus: while the store is not visible on its die, and to a load that
may have read before it became visible there. Loads of a core's own die are not reordered against stores of the module
(08 R174, R175); those of another module or of the host are behind an acquire at SYS scope only (08 R172). -/
def lagByte (s : State) (key : Nat) (e : Lag) : Option Byte :=
  let far := e.core == outsider
  let shown := e.die == coreDie s.core.id && (match e.seen with
    | none => true
    | some t => (if far then s.ctx.freshSys else s.ctx.fresh) < t && (far || keyDie key != e.die) &&
        s.clk < t + Config.staleFor e.num)
  if shown then (e.cells.find? (fun c => c.1 == key)).map (fun c => c.2) else none

/-- The byte that a load of the core returns: the youngest store of its own core, or memory as its die sees it (08 R173 to
R175). -/
def viewByte (s : State) (key : Nat) : Byte :=
  match (pendingCells s).reverse.find? (fun c => c.1 == key) with
  | some c => c.2
  | none => (s.lag.findSome? (lagByte s key)).getD (memGet s.mem key)

/-- `n` bytes from a key as a load of the core returns them. -/
def viewBytes (s : State) (key n : Nat) : List Byte := (List.range n).map (fun i => viewByte s (key + i))

/-- 07 R153: whether a load of these bytes meets uncorrectable data. -/
def viewPoison (s : State) (key n : Nat) : Bool :=
  s.poison.any (fun k => key ≤ k && k < key + n && !(pendingCells s).any (fun c => c.1 == k))

/-- The byte that the host and other modules read (08 R177). -/
def sysByte (s : State) (key : Nat) : Byte :=
  (s.hidden.findSome? (fun e => (e.cells.find? (fun c => c.1 == key)).map (fun c => c.2))).getD (memGet s.mem key)

/-- A load has returned bytes: the context remembers which stores of its core it has seen in the buffer. -/
def sawAt (ks : List Nat) (s : State) : State :=
  let hit (e : StoreEnt) : Bool := s.ctx.saw.contains e.num || e.cells.any (fun c => ks.contains c.1)
  { s with ctx := { s.ctx with saw := ((storesOf s s.core).filter hit).map (fun e => e.num) } }

/-- The context acquires at PKG scope: its later loads are performed behind this moment (08 R176). -/
def acquire (s : State) : State := { s with ctx := { s.ctx with fresh := s.clk } }

/-- The context acquires at SYS scope. -/
def acquireSys (s : State) : State := { s with ctx := { s.ctx with fresh := s.clk, freshSys := s.clk } }

/-- The numbers of the outstanding stores of an activation. -/
def ctxOut (s : State) (c : Core) (x : Ctx) : List Nat :=
  ((storesOf s c).filter (fun e => e.ctx == x.num && e.inc == x.inc)).map (fun e => e.num)

/-- The numbers of the outstanding stores of the context in focus. -/
def mineOut (s : State) : List Nat := ctxOut s s.core s.ctx

/-- The numbers of the outstanding stores that a load of the context in focus has returned. -/
def sawOut (s : State) : List Nat := ((storesOf s s.core).filter (fun e => s.ctx.saw.contains e.num)).map (fun e => e.num)

/-- The numbers of all outstanding stores of a core. -/
def allOut (s : State) (c : Core) : List Nat := (storesOf s c).map (fun e => e.num)

/-- Whether none of these stores of a core is outstanding. -/
def storesDone (s : State) (c : Core) (ns : List Nat) : Bool := (storesOf s c).all (fun e => !ns.contains e.num)

/-- A store of the context in focus enters the store buffer of its core (08 R174), behind the stores `ns` at a scope. -/
def bufferStore (ns : List Nat) (scope : Nat) (cs : List Host.Cell) (s : State) : State :=
  match cs with
  | [] => s
  | c :: _ =>
    { s with core := { s.core with
        stores := s.core.stores ++ [{ num := s.core.storeNum, core := s.core.id, ctx := s.ctx.num, inc := s.ctx.inc, task := s.ctx.task,
                                      die := keyDie c.1, cells := cs, needs := ns, scope := scope, rmw := false }],
        storeNum := s.core.storeNum + 1 } }

/-- A global store enters the store buffer. -/
def storeGlobal (cs : List Host.Cell) (s : State) : State := bufferStore [] s.ctx.scope cs s

/-! ## Visibility on other dies and in SYS scope (08 R175 to R177) -/

/-- A store that is not visible on a die yet. -/
def unseenOn (s : State) (d core num : Nat) : Bool := s.lag.any (fun e => e.core == core && e.num == num && e.die == d && e.seen.isNone)

/-- A core releases at PKG scope: what its die sees becomes visible on every die (08 R176, R190). -/
def releaseFrom (k : Nat) (s : State) : State :=
  { s with lag := s.lag.map (fun e => if e.seen.isNone && !unseenOn s (coreDie k) e.core e.num then { e with seen := some s.clk } else e) }

/-- A core releases at SYS scope: what its die sees becomes visible on every die, to the host and to other modules, with every
earlier write to the same locations (08 R177, R190). -/
def publish (k : Nat) (s : State) : State :=
  releaseFrom k { s with hidden := dropLags (fun e => !unseenOn s (coreDie k) e.core e.num) s.hidden }

/-- Whether a store may be performed: those before which it goes are done (08 R176). -/
def mayPerform (s : State) (c : Core) (e : StoreEnt) : Bool := storesDone s c e.needs

/-- Lags that nobody can see any more go. -/
def pruneLag (s : State) : List Lag :=
  s.lag.filter (fun e => match e.seen with
    | none => true
    | some t => s.clk < t + Config.staleFor e.num)

/-- The bytes of doublewords as memory holds them. -/
def granuleCells (s : State) (gs : List Nat) : List Host.Cell :=
  gs.flatMap (fun g => (List.range 8).map (fun i => (8 * g + i, memGet s.mem (8 * g + i))))

/-- A store takes its place in the coherence order (08 R173) at the memory of its die. The cores of its issuer's die see it at
once; those of each other die, that of the memory among them, when it comes there; the host and other modules from a release at
SYS scope on, which it can be itself (08 R174 to R177, R191). -/
def performStore (e : StoreEnt) (s : State) : State :=
  let s0 := if 2 ≤ e.scope then releaseFrom e.core s else s
  let gs := granules (e.cells.map (fun c => c.1))
  let olds := granuleCells s0 gs
  let mine := coreDie e.core
  let lagOf (d : Nat) : Lag := { core := e.core, num := e.num, die := d, cells := olds, seen := none }
  let s1 := perform s0 e.cells
  { s1 with lag := dropLags (fun x => x.die == mine && x.meets gs) (pruneLag s0) ++ ([0, 1, 2, 3].filter (fun d => d != mine)).map lagOf,
            hidden := if 3 ≤ e.scope then dropLags (Lag.meets gs) s0.hidden else s0.hidden ++ [lagOf 4] }

/-- A write of another module or of the host is performed: a load that no acquire at SYS scope has put behind it may still
have read before (08 R172, R175; 19 R410). -/
def performOutside (cs : List Host.Cell) (s : State) : State :=
  let olds := granuleCells s (granules (cs.map (fun c => c.1)))
  let lagOf (d : Nat) : Lag := { core := outsider, num := s.tick, die := d, cells := olds, seen := some s.clk }
  let s1 := perform s cs
  { s1 with lag := pruneLag s1 ++ [0, 1, 2, 3].map lagOf }

/-- An atomic writes: at once, or on host memory in a transaction of the I/O die behind its read, between which only the host
may write (07 R168). No core counts the transaction among its stores. -/
def performAtomic (cs : List Host.Cell) (s : State) : State :=
  if cs.any (fun c => keyDie c.1 == 6) then
    { s with transit := s.transit ++ [{ num := 0, core := 2 ^ 11, ctx := 0, inc := 0, task := 0, die := 6, cells := cs, needs := [],
                                        scope := 0, rmw := true }] }
  else perform s cs

/-- A core has seen the newest bytes at keys: its die shows no older ones any more (08 R173). -/
def seeAt (ks : List Nat) (s : State) : State :=
  { s with lag := dropLags (fun e => e.die == coreDie s.core.id && e.meets (granules ks)) s.lag }

/-! ## Scratchpad of the context's launch (07 R149) -/

/-- A scratchpad wait is woken by any write to its doubleword (07 R170). -/
def wakeSpad (spad : List Host.Cell) (keys : List Nat) (w : Watch) : Watch :=
  wakeWatches spad keys w

/-- Write scratchpad bytes of a core; each byte wraps on its own. -/
def Core.spadWrite (c : Core) (base logspad a : Nat) (bs : List Byte) : Core :=
  let cells := bs.mapIdx (fun i b => (spOff base logspad (a + i), b))
  let spad := memWriteCells c.spad cells
  let keys := cells.map (fun x => x.1)
  { c with spad := spad, spoison := c.spoison.filter (fun k => !keys.contains k),
           signals := c.signals.filter (fun g => !keys.any (fun k => k / 8 == g)),
           watches := c.watches.map (wakeSpad spad keys) }

/-- Read scratchpad of the context. -/
def spRead (s : State) (a : W64) (n : Nat) : List Byte := spadRead s.core s.ctx.spbase s.ctx.logspad a.toNat n

/-- Write scratchpad of the context. -/
def spWrite (a : W64) (bs : List Byte) (s : State) : State :=
  { s with core := s.core.spadWrite s.ctx.spbase s.ctx.logspad a.toNat bs }

/-- A scratchpad read that finds the signal word of a command acquires every effect of the command (08 R182). -/
def observe (a : W64) (n : Nat) (s : State) : State :=
  if (List.range n).any (fun i => s.core.signals.contains (spOff s.ctx.spbase s.ctx.logspad (a.toNat + i) / 8)) then acquireSys s else s

/-- Whether a scratchpad read meets uncorrectable data (07 R153). -/
def spPoison (s : State) (a : W64) (n : Nat) : Bool :=
  (List.range n).any (fun i => s.core.spoison.contains (spOff s.ctx.spbase s.ctx.logspad (a.toNat + i)))

end Sys2Proof.Machine
end

