-- ==== Sys2Proof/Machine/Post.lean ====
section
/-! DEFINITION. Messages: header words (05 R95, R424), the agents of other cores, window credits (05 R106), serviceable
faults of the device's agents (15 R359, R425), error records (15 R351), outbound storage (05 R103, R105), network
control (05 R107) and the admission of messages (05 R104, R113, R114). -/
namespace Sys2Proof.Machine

/-! ## Cores and contexts by number -/

/-- Bring context `c` of the core in focus into focus. -/
def focusCtx (c : Nat) (s : State) : State :=
  if s.ctx.num.toNat == c then s
  else
    let x := alGet s.core.ctxs c (Ctx.reset (BitVec.ofNat 4 c))
    { s with ctx := x, core := { s.core with ctxs := alPut (alDel s.core.ctxs c) s.ctx.num.toNat s.ctx } }

/-- Bring core `k` into focus, with one of its contexts. -/
def focusCore (k : Nat) (s : State) : State :=
  if s.core.id == k then s
  else
    let old := { s.core with ctxs := alPut s.core.ctxs s.ctx.num.toNat s.ctx }
    let new := alGet s.cores k (Core.reset k)
    let x := alGet new.ctxs 0 (Ctx.reset 0)
    { s with cores := alPut (alDel s.cores k) old.id old, core := { new with ctxs := alDel new.ctxs 0 }, ctx := x }

/-- Bring context `c` of core `k` into focus. -/
def focus (k c : Nat) (s : State) : State := focusCtx c (focusCore k s)

/-- Core `k`, without the context in focus. -/
def coreOf (s : State) (k : Nat) : Core := if s.core.id == k then s.core else alGet s.cores k (Core.reset k)

/-- Change core `k`. -/
def updCore (k : Nat) (f : Core → Core) (s : State) : State :=
  if s.core.id == k then { s with core := f s.core }
  else { s with cores := alPut s.cores k (f (alGet s.cores k (Core.reset k))) }

/-- Context `c` of core `k`. -/
def ctxOf (s : State) (k c : Nat) : Ctx :=
  if s.core.id == k && s.ctx.num.toNat == c then s.ctx
  else alGet (coreOf s k).ctxs c (Ctx.reset (BitVec.ofNat 4 c))

/-- Change context `c` of core `k`. -/
def updCtx (k c : Nat) (f : Ctx → Ctx) (s : State) : State :=
  if s.core.id == k && s.ctx.num.toNat == c then { s with ctx := f s.ctx }
  else updCore k (fun x => { x with ctxs := alPut x.ctxs c (f (alGet x.ctxs c (Ctx.reset (BitVec.ofNat 4 c)))) }) s

/-- The sixteen contexts of core `k`. -/
def ctxsOf (s : State) (k : Nat) : List Ctx := (List.range 16).map (ctxOf s k)

/-- The share of a launch on core `k`. -/
def resAt (s : State) (k : Nat) (task : BitVec 12) : Option Resident := resOf (coreOf s k) task

/-! ### Monitors (16 R389) -/

/-- The number of a monitor: sixteen for each die. -/
def monNo (die i : Nat) : Nat := 16 * die + i

/-- A monitor. -/
def monAt (s : State) (n : Nat) : Monitor := alGet s.host.monitors n { ctl := 0x3FF00, mmin := BitVec.allOnes 64, mmax := 0, bins := [] }

/-- The row-major number of a core within its die. -/
def coreInDie (k : Nat) : Nat := coreX k % 32 + 32 * (coreY k % 16)

/-- Whether a monitor of a die takes a sample of a source for a core. -/
def monTakes (m : Monitor) (src die : Nat) (core : Option Nat) : Bool :=
  bit m.ctl 4 && bits m.ctl 0 4 == src &&
    (bits m.ctl 8 10 == 0x3FF || core.any (fun k => coreDie k == die && coreInDie k == bits m.ctl 8 10))

/-- A sample of a source on a die waits for the monitors that take it. -/
def sample (src die : Nat) (core : Option Nat) (v : Nat) (s : State) : State :=
  if s.host.monitors.isEmpty then s
  else
    let new := ((List.range 16).filter (fun i => monTakes (monAt s (monNo die i)) src die core)).map (fun i =>
      ({ die := die, mon := i, src := src, value := v } : Sample))
    { s with host := { s.host with samples := s.host.samples ++ new } }

/-- Count a message dropped at core `k` (05 R123 STALECNT). -/
def countStale (k : Nat) (s : State) : State :=
  updCore k (fun c => { c with regs := { c.regs with stalecnt := c.regs.stalecnt + 1 } }) s

/-- Give back `n` credits of a launch on core `k` (05 R106). -/
def credit (k : Nat) (task : BitVec 12) (n : Nat) (s : State) : State :=
  updCore k (fun c => c.updRes task (fun r => { r with owe := r.owe - n })) s

/-! ## Header words (05 R95) -/

def mClass (w : W64) : Nat := bits w 61 3
def mPri (w : W64) : Bool := bit w 60
def mMode (w : W64) : Nat := bits w 57 3
def mRadius (w : W64) : Nat := bits w 54 3
def mSite (w : W64) : Nat := bits w 38 16
def mAccel (w : W64) : Nat := bits w 28 10
def mDie (w : W64) : Nat := bits w 25 3
def mX (w : W64) : Nat := bits w 19 6
def mY (w : W64) : Nat := bits w 14 5
def mUnit (w : W64) : Nat := bits w 10 4
def mCtx (w : W64) : Nat := bits w 6 4
def mInc (w : W64) : Nat := bits w 0 6
/-- The subgroup code of mode 4 (05 R97). -/
def mCode (w : W64) : Nat := bits w 14 11
/-- The core that word 0 names. -/
def mCore (w : W64) : Nat := coreAt (mX w) (mY w)

def hTask (w : W64) : BitVec 12 := BitVec.ofNat 12 (bits w 52 12)
def hAcc (w : W64) : Nat := bits w 42 10
def hX (w : W64) : Nat := bits w 33 6
def hY (w : W64) : Nat := bits w 28 5
def hCtx (w : W64) : Nat := bits w 24 4
def hInc (w : W64) : Nat := bits w 18 6
def hSeq (w : W64) : Nat := bits w 8 10
def hPidx (w : W64) : Nat := bits w 4 4
def hPcnt (w : W64) : Nat := bits w 0 4
/-- The core of word 2's source fields. -/
def hCore (w : W64) : Nat := coreAt (hX w) (hY w)

def hLen (w : W64) : Nat := bits w 51 13
def hPoff (w : W64) : Nat := bits w 39 12
def hInl (w : W64) : Nat := bits w 34 5
def hAck (w : W64) : Bool := bit w 33
def hBulk (w : W64) : Bool := bit w 32
/-- FALL as a signed offset. -/
def hFall (w : W64) : W64 := sext (bits w 0 32) 32

/-- A destination word from its fields (05 R95). -/
def destWord (cls : Nat) (pri : Bool) (mode site accel die x y unit ctx inc : Nat) : W64 :=
  w64 (cls * 2 ^ 61 + toBit pri * 2 ^ 60 + mode * 2 ^ 57 + site * 2 ^ 38 + accel * 2 ^ 28 + die * 2 ^ 25 + x * 2 ^ 19 +
    y * 2 ^ 14 + unit * 2 ^ 10 + ctx * 2 ^ 6 + inc)

/-- The word of a core of this module in a mode. -/
def coreWord (s : State) (cls : Nat) (pri : Bool) (mode k ctx inc : Nat) : W64 :=
  destWord cls pri mode 0 s.accel.toNat (coreDie k) (coreX k) (coreY k) 0 ctx inc

/-- Packets of a payload of `n` bytes: one, or one for each 256 bytes of a bulk payload (05 R96). -/
def packets (bulk : Bool) (n : Nat) : Nat := if bulk then (n + 255) / 256 else 1

/-- Header word 2 from its fields (05 R95). -/
def hdr2 (s : State) (task : BitVec 12) (die x y ctx inc seq pcnt : Nat) : W64 :=
  w64 (task.toNat * 2 ^ 52 + s.accel.toNat * 2 ^ 42 + die * 2 ^ 39 + x * 2 ^ 33 + y * 2 ^ 28 + ctx * 2 ^ 24 +
    inc % 64 * 2 ^ 18 + seq % 1024 * 2 ^ 8 + pcnt)

/-- Header word 2 with a core as the source. -/
def hdr2Core (s : State) (task : BitVec 12) (k ctx inc seq pcnt : Nat) : W64 :=
  hdr2 s task (coreDie k) (coreX k) (coreY k) ctx inc seq pcnt

/-- Header word 3 from its fields (05 R95). -/
def hdr3 (len inl : Nat) (ack bulk : Bool) (fall : Nat) : W64 :=
  w64 (len * 2 ^ 51 + inl * 2 ^ 34 + toBit ack * 2 ^ 33 + toBit bulk * 2 ^ 32 + fall % 2 ^ 32)

/-- A message of inline words formed by the device: no ACK, no FALL. -/
def unitMsg (w0 pc w2 : W64) (words : List W64) : Msg :=
  { w0 := w0, w1 := pc, w2 := w2, w3 := hdr3 (8 * words.length) words.length false false 0, words := words,
    bulk := [], dst := 0, ssite := 0 }

/-- 05 R106: a request. -/
def isRequest (m : Msg) : Bool :=
  mClass m.w0 == 0 && hAck m.w3 && (mMode m.w0 == 0 || mMode m.w0 == 1 || mMode m.w0 == 3 || mMode m.w0 == 4)

/-- Whether a message is the continuation of a migrated activation (05 R121). -/
def isCont (m : Msg) : Bool := mClass m.w0 == 0 && mUnit m.w0 == 7

/-- The fallback VA that a reply to a request carries (05 R119, R107). FALL of a continuation locates its entry word
(05 R95), so no fallback remains (assumption 12). -/
def fallVa (m : Msg) : W64 := if isCont m || bits m.w3 0 32 == 0 then 0 else m.w1 + hFall m.w3

/-- The key of a reassembly beside its source site (05 R102): accelerator, die, x, y, context and MSGID of word 2. -/
def mKey (w2 : W64) : Nat := bits w2 8 44

/-- The locality bin of a low message (05 R110). -/
def binOf (m : Msg) : Nat :=
  let w := wordAt m.words 0
  if m.words.isEmpty then 0 else (bits w 12 3 ^^^ bits w 15 3) ^^^ bits w 18 3

/-- Whether an activation still holds its context, running or parked (05 R107, R113; 15 R360). -/
def isLive (s : State) (k c inc : Nat) (task : BitVec 12) : Bool :=
  let x := ctxOf s k c
  (x.status != .free && x.inc.toNat == inc && x.task == task) ||
    (coreOf s k).parked.any (fun p => p.ctx.toNat == c && p.inc.toNat == inc && p.task == task)

/-- Change an activation, in its slot or in its frame. -/
def updActivation (k c inc : Nat) (f : Ctx → Ctx) (s : State) : State :=
  let x := ctxOf s k c
  if x.status != .free && x.inc.toNat == inc then updCtx k c f s
  else
    let upd (p : Parked) : Parked := if p.ctx.toNat == c && p.inc.toNat == inc then { p with saved := f p.saved } else p
    updCore k (fun core => { core with parked := core.parked.map upd }) s

/-! ## The mesh and network control -/

/-- Put a message into the mesh: exact from the start at its target, or walking from `from_` (05 R99). A placed message
that no core sends starts at its hint (assumption 11). -/
def fly (m : Msg) (from_ target : Nat) (org : Origin) (owed : Bool) (s : State) : State :=
  let walks := mMode m.w0 == 1
  { s with flights := s.flights ++ [{ num := s.flightNum, msg := m, at_ := if walks then from_ else target,
                                      walks := walks, hint := target, org := org, owed := owed, hold := 0,
                                      arrived := false }],
           flightNum := s.flightNum + 1 }

/-- Send network control to the core of a task (05 R107), which may belong to another module; that module learns the site
that it comes from. -/
def sendCtl (accel site : Nat) (t : Ctl) (s : State) : State :=
  if accel == s.accel.toNat && (site == 0 || site == s.site.toNat) then { s with ctls := s.ctls ++ [t] }
  else { s with egress := s.egress ++ [.control accel site { t with site := if site == 0 then 0 else s.site }] }

/-- NACK to the source of a message (05 R107): to the requesting context when it answers a request. The source fields
of its word 2 name the answering core (assumption 10). -/
def sendNack (k : Nat) (m : Msg) (hi : Bool) (reason : Nat) (s : State) : State :=
  sendCtl (hAcc m.w2) m.ssite.toNat
    { kind := .nack, core := hCore m.w2, ctx := BitVec.ofNat 4 (hCtx m.w2), inc := BitVec.ofNat 6 (hInc m.w2),
      seq := hSeq m.w2, task := hTask m.w2, hi := hi, req := isRequest m, mode2 := mMode m.w0 == 2, reason := reason,
      w1 := if isRequest m then fallVa m else 0, w2 := hdr2Core s (hTask m.w2) k 0 0 0 0, site := 0, taken := false } s

/-- The outbound entry that stands behind a message in the mesh. -/
def outEntry (s : State) (org : Origin) : Option OutEnt :=
  match org with
  | .out k n => (coreOf s k).out.find? (fun e => e.num == n)
  | _ => none

/-- Whether no other copy of a message is still in the mesh. -/
def lastCopy (f : Flight) (s : State) : Bool := !s.flights.any (fun g => g.org == f.org && g.num != f.num)

/-- ADMIT or RETRY to the sender of a message in the mesh. A message of a unit or a seed needs none. DESIGN CHOICE: the one
credit of a high group send returns with the answer to its last copy (05 R106; assumption 130). ADMIT for a mode-2 message
comes at its consumption (05 R113). -/
def answerSender (kind : CtlKind) (f : Flight) (s : State) : State :=
  let hi := mPri f.msg.w0 && mClass f.msg.w0 == 0 && mMode f.msg.w0 != 2 && (mMode f.msg.w0 != 4 || lastCopy f s)
  let ctl (k ctx inc seq : Nat) : Ctl :=
    { kind := kind, core := k, ctx := BitVec.ofNat 4 ctx, inc := BitVec.ofNat 6 inc, seq := seq,
      task := hTask f.msg.w2, hi := hi, req := isRequest f.msg, mode2 := false, reason := 0, w1 := 0, w2 := 0, site := 0,
      taken := false }
  match f.org with
  | .out k _ => match outEntry s f.org with
    | some e => { s with ctls := s.ctls ++ [ctl k e.ctx.toNat e.inc.toNat e.seq] }
    | none => s
  | .outside => sendCtl (hAcc f.msg.w2) f.msg.ssite.toNat
      (ctl (hCore f.msg.w2) (hCtx f.msg.w2) (hInc f.msg.w2) (hSeq f.msg.w2)) s
  | _ => s

/-- One copy of an outbound message has been taken: the last one frees the entry and its slots (05 R103). -/
def takeOut (k num : Nat) (s : State) : State :=
  updCore k (fun c =>
    { c with out := c.out.filterMap (fun e =>
        if e.num == num then (if e.left ≤ 1 then none else some { e with left := e.left - 1 }) else some e) }) s

/-- A message in the mesh has been admitted or discarded: its sender's storage frees, but a bulk payload stays until
the receivers have taken it (05 R102), and awaits admission until its last copy has been admitted; a seed's successor
may go. -/
def released (f : Flight) (payload : Bool) (s : State) : State :=
  let s1 := { s with flights := s.flights.filter (fun g => g.num != f.num) }
  match f.org with
  | .out k n =>
    if payload && !s1.flights.any (fun g => g.org == f.org) then
      updCore k (fun c => { c with out := c.out.map (fun e => if e.num == n then { e with st := .taken } else e) }) s1
    else if payload then s1
    else takeOut k n s1
  | .seed t =>
    let left := s1.flights.any (fun g => g.org == .seed t)
    { s1 with launches := s1.launches.map (fun l => if l.task == t then { l with seedWait := left } else l) }
  | _ => s1

/-! ### Bulk messages of other modules (05 R96, R102) -/

/-- Whether a message comes from another module. -/
def isForeign (s : State) (m : Msg) : Bool := hAcc m.w2 != s.accel.toNat || m.ssite != 0

/-- What has come of a bulk message of another module. -/
def partOf (s : State) (m : Msg) : Option Part := s.parts.find? (fun p => p.ssite == m.ssite.toNat && p.key == mKey m.w2)

/-- Forget a bulk message of another module, or what is left of it. -/
def dropPart (m : Msg) (s : State) : State :=
  { s with parts := s.parts.filter (fun p => !(p.ssite == m.ssite.toNat && p.key == mKey m.w2)) }

/-- A bulk message of another module is over: what has still to come of it is discarded. -/
def closePart (m : Msg) (s : State) : State :=
  match partOf s m with
  | none => s
  | some p => if p.got.length == p.pcnt + 1 then dropPart m s
    else { s with parts := s.parts.map (fun q => if q == p then { q with closed := true } else q) }

/-- The receiver has taken or discarded a bulk payload: a copy of the sender's storage frees (05 R102). A sender on
another module is told so. DESIGN CHOICE: ADMIT carries that news (assumption 129). -/
def payloadTaken (m : Msg) (s : State) : State :=
  if !hBulk m.w3 then s
  else if isForeign s m then
    sendCtl (hAcc m.w2) m.ssite.toNat
      { kind := .admitted, core := hCore m.w2, ctx := BitVec.ofNat 4 (hCtx m.w2), inc := BitVec.ofNat 6 (hInc m.w2),
        seq := hSeq m.w2, task := hTask m.w2, hi := false, req := false, mode2 := false, reason := 0, w1 := 0, w2 := 0,
        site := 0, taken := true } (closePart m s)
  else
    match (coreOf s (hCore m.w2)).out.find? (fun e => (e.st == .taken || e.st == .offered) && e.ctx.toNat == hCtx m.w2 &&
        e.inc.toNat == hInc m.w2 && e.seq == hSeq m.w2) with
    | some e => takeOut (hCore m.w2) e.num s
    | none => s

/-! ## Serviceable faults (15 R359) -/

/-- The open fault that a request joins. -/
def joinable (r : Retort) (q : Req) : Option OpenFault :=
  r.faults.find? (fun f => f.asid == q.asid && f.gen == genOf r q.asid && f.sub == q.sub &&
    f.page == pageNo q.sub (vaLoc q.va))

/-- Whether the fault of a walk can be joined or opened: it is open already, or a record is free and no earlier walk
waits for one (15 R359). -/
def canFault (s : State) (q : Req) (walk : Nat) : Bool :=
  let r := retortOf s (vaDie q.va)
  (joinable r q).isSome || (r.faults.length < 4096 && r.faultq.head?.all (fun n => n == walk))

/-- The 32 bytes of a fault record (15 R359). -/
def faultRecord (q : Req) (gen fid kind : Nat) (w : Requester) : List W64 :=
  [q.va,
   w64 (q.asid + fid * 2 ^ 16 + kind * 2 ^ 32 + toBit q.sub * 2 ^ 35 + toBit w.engine * 2 ^ 36),
   w64 (coreX w.core + coreY w.core * 2 ^ 6 + w.die * 2 ^ 11 + w.ctx * 2 ^ 14 + w.inc * 2 ^ 18 + w.unit * 2 ^ 24),
   w64 (gen % 2 ^ 32)]

/-- The core that stands for a die where a record names one. -/
def dieCore (d : Nat) : Nat := coreAt (32 * (d % 2)) (16 * (d / 2 % 2))

/-- Open a fault or join one: the record and the notification. The answer is the FID. -/
def openFault (q : Req) (kind : Nat) (w : Requester) (s : State) : Nat × State :=
  let d := vaDie q.va
  let r := retortOf s d
  match joinable r q with
  | some f => (f.fid, s)
  | none =>
    let idx := lowestFree (r.faults.map (fun f => f.idx))
    let uses := alGet r.uses idx 0
    let fid := idx + uses % 16 * 2 ^ 12
    let g := genOf r q.asid
    let f : OpenFault := { idx := idx, fid := fid, asid := q.asid, gen := g, sub := q.sub,
                           page := pageNo q.sub (vaLoc q.va), since := s.clk, core := w.core }
    let s1 := setRetort s d { r with faults := r.faults ++ [f], uses := alPut r.uses idx ((uses + 1) % 16) }
    let base := physKey (tableDie (retortIx d).val) (r.ring + 32 * idx)
    let s2 := perform s1 (cellsAt base (bytesOf (faultRecord q g fid kind w)))
    let task := ((s2.launches.find? (fun l => l.firmware)).map (fun l => l.task)).getD 0
    let w0 := setBits (setBits r.notify 60 1 1) 61 3 0
    let w2 := hdr2 s2 task (retortIx d).val 0 0 0 (fid / 2 ^ 10) fid 0
    let m := unitMsg w0 r.notifyPc w2 [r.ringVa + w64 (32 * idx), w64 (fid + (retortIx d).val * 2 ^ 16)]
    (fid, fly m (mCore w0) (mCore w0) .unit false s2)

/-- The hold of an agent. -/
def holdOf (s : State) (k : HoldKey) : Option Hold := s.holds.find? (fun h => h.key == k)

/-- Whether an access of an agent is in its walk. -/
def walkingOn (s : State) (k : HoldKey) : Bool := (holdOf s k).any (fun h => h.walking && h.ended.isNone)

/-- Whether an agent is held on an open fault. -/
def heldOn (s : State) (k : HoldKey) : Bool := (holdOf s k).any (fun h => h.ended.isNone)

/-- Remove the hold of an agent. -/
def unhold (k : HoldKey) (s : State) : State := { s with holds := s.holds.filter (fun h => h.key != k) }

/-- Whether the access on which an agent was held has failed. -/
def holdFailed (s : State) (k : HoldKey) : Bool := (holdOf s k).any (fun h => h.ended == some true)

/-- An access of an agent misses: the agent is held until a walk has ended, and on a fault that the walk opens until FLTRES
has resolved it (12 R274; 15 R357, R425). -/
def agentWalk (key : HoldKey) (w : Requester) (quiet : Bool) (q : Req) (s : State) : State :=
  let s1 := joinWalk (.agent key w q quiet) q s
  { s1 with holds := s1.holds ++ [{ key := key, walking := true, die := vaDie q.va, fid := 0, va := q.va, ended := none }] }

/-- An agent of a core, or of a die where no core is concerned, as an engine of a unit. -/
def engineOf (k unit : Nat) : Requester := { core := k, die := coreDie k, ctx := 0, inc := 0, unit := unit, engine := true }

/-! ## Accesses of the device's agents to launch regions (15 R425) -/

/-- The pieces of an access that lie in one sub-page each. -/
def piecesGo : Nat → W64 → Nat → List (W64 × Nat)
  | 0, _, _ => []
  | f + 1, va, n =>
    let room := 1024 - bits va 0 10
    if n == 0 then [] else if n ≤ room then [(va, n)] else (va, room) :: piecesGo f (va + w64 room) (n - room)

/-- The pieces of an access of `n` bytes. -/
def pieces (va : W64) (n : Nat) : List (W64 × Nat) := piecesGo (n / 1024 + 2) va n

/-- The keys of a run of bytes, or the request that does not translate and why. -/
def rangeKeys (s : State) (mk : W64 → Req) : List (W64 × Nat) → Except (Req × XRes) (List Nat)
  | [] => .ok []
  | (va, n) :: r =>
    match xlate s (mk va) with
    | .ok key _ => (rangeKeys s mk r).map (fun ks => (List.range n).map (fun i => key + i) ++ ks)
    | x => .error (mk va, x)

/-- The request of a device agent for a launch: in the launch's ASID, at user level, with the region registers of the
core concerned, or the page class (15 R425). -/
def regionReq (s : State) (l : Launch) (core : Option Nat) (rd wr : Bool) (va : W64) : Req :=
  { va := va, asid := l.asid, sub := core.any (fun k => inSub (coreSpa (coreOf s k)) va), rd := rd, wr := wr,
    fetch := false, user := true }

/-- The launch is to end on an unrecoverable fault or data error (15 R425). -/
def doom (task : BitVec 12) (code : Nat) (va : W64) (s : State) : State :=
  { s with launches := s.launches.map (fun l =>
      if l.task == task && l.doomed.isNone then { l with doomed := some (code, va) } else l) }

/-- Why an access to a launch region did not go through. -/
inductive RegErr where
  | miss (q : Req)
  | lost (code : Nat) (va : W64)
  deriving DecidableEq, Repr

/-- A run of region accesses of one device agent: it goes through whole, or stops at its first fault. -/
abbrev RegM (α : Type) := StateT State (Except RegErr) α

/-- The keys of a region access. -/
def rKeys (l : Launch) (core : Option Nat) (va : W64) (n : Nat) (rd wr : Bool) : RegM (List Nat) := fun s =>
  match rangeKeys s (regionReq s l core rd wr) (pieces va n) with
  | .ok ks => .ok (ks, s)
  | .error (q, .miss) => .error (.miss q)
  | .error (q, _) => .error (.lost 0x0F q.va)

/-- Read a launch region. -/
def rRead (l : Launch) (core : Option Nat) (va : W64) (n : Nat) : RegM (List Byte) := do
  let ks ← rKeys l core va n true false
  let s ← get
  if ks.any (fun k => s.poison.contains k) then throw (.lost 0x07 va) else pure (ks.map (memGet s.mem))

/-- Read one word of a launch region. -/
def rWord (l : Launch) (core : Option Nat) (va : W64) : RegM W64 := do
  let bs ← rRead l core va 8
  pure (w64 (ofBytes bs))

/-- Write a launch region. -/
def rWrite (l : Launch) (core : Option Nat) (va : W64) (bs : List Byte) : RegM Unit := do
  let ks ← rKeys l core va bs.length false true
  modify (fun s => perform s (ks.zip bs))

/-- Run region accesses of an agent: a miss holds the agent and leaves everything as it was, an unrecoverable fault or a
data error dooms the launch. -/
def runRegion {α : Type} (key : HoldKey) (l : Launch) (core : Option Nat) (unit : Nat) (m : RegM α) (s : State) :
    State × Option α :=
  if heldOn s key then (s, none)
  else
    let failed := (holdOf s key).filter (fun h => h.ended == some true)
    let s0 := unhold key s
    if failed.isSome then (doom l.task 0x0F ((failed.map (fun h => h.va)).getD 0) s0, none)
    else match m s0 with
      | .ok (a, s1) => (s1, some a)
      | .error (.lost code va) => (doom l.task code va s0, none)
      | .error (.miss q) => (agentWalk key (engineOf (core.getD (dieCore (vaDie q.va))) unit) false q s0, none)

/-- Write a launch region; false when the write waits or has doomed the launch. -/
def regionWrite (key : HoldKey) (l : Launch) (core : Option Nat) (unit : Nat) (va : W64) (bs : List Byte)
    (s : State) : State × Bool :=
  let r := runRegion key l core unit (rWrite l core va bs) s
  (r.1, r.2.isSome)

/-! ## Error records (15 R351) -/

/-- Write the waiting error records of a launch, oldest first, as far as they can be written. -/
def flushErrGo : Nat → BitVec 12 → State → State
  | 0, _, s => s
  | f + 1, task, s =>
    match launchOf s task with
    | none => s
    | some l =>
      match l.errPend with
      | [] => s
      | ws :: rest =>
        match regionWrite (.err task) l none 0 (l.errq + w64 (64 * ((bits (wordAt ws 7) 0 32 - 1) % 1024))) (bytesOf ws) s with
        | (s1, true) => flushErrGo f task (setLaunch s1 { l with errPend := rest })
        | (s1, false) =>
          if (launchOf s1 task).any (fun x => x.doomed.isSome) then
            { s1 with launches := s1.launches.map (fun x => if x.task == task then { x with errPend := rest } else x) }
          else s1

/-- Write what waits. -/
def flushErr (task : BitVec 12) (s : State) : State :=
  flushErrGo (((launchOf s task).map (fun l => l.errPend.length)).getD 0) task s

/-- The place of an error record in the queue of its launch. -/
def errVa (l : Launch) (ws : List W64) : W64 := l.errq + w64 (64 * ((bits (wordAt ws 7) 0 32 - 1) % 1024))

/-- Whether the error queue of a launch that has ended cannot take a record: FLTRES has failed its access, or the fault is
not serviceable. -/
def errLost (l : Launch) (va : W64) (s : State) : Bool :=
  (holdOf s (.err l.task)).any (fun h => h.ended == some true) ||
  (match rangeKeys s (regionReq s l none false true) (pieces va 64) with
   | .error (_, .miss) => false
   | .error _ => true
   | .ok _ => false)

/-- Write the records that a launch left behind at its end, oldest first; one that cannot be taken is lost (15 R425). -/
def tailGo (l : Launch) : List (List W64) → State → State × List (List W64)
  | [], s => (s, [])
  | ws :: rest, s =>
    if errLost l (errVa l ws) s then tailGo l rest (unhold (.err l.task) s)
    else match regionWrite (.err l.task) l none 0 (errVa l ws) (bytesOf ws) s with
      | (s1, true) => tailGo l rest s1
      | (s1, false) => (s1, ws :: rest)

/-- Write what waits of the launches that have ended. -/
def flushTails (s : State) : State :=
  s.tails.foldl (fun s l =>
    let r := tailGo l l.errPend s
    { r.1 with tails := r.1.tails ++ (if r.2.isEmpty then [] else [{ l with errPend := r.2 }]) }) { s with tails := [] }

/-- Who an error record names. -/
structure ErrWho where
  x : Nat
  y : Nat
  die : Nat
  ctx : Nat
  inc : Nat
  deriving DecidableEq, Repr

/-- An event of a core. -/
def errCore (k ctx inc : Nat) : ErrWho := { x := coreX k, y := coreY k, die := coreDie k, ctx := ctx, inc := inc }

/-- An event of the launch controller (15 R351). -/
def errCtl : ErrWho := { x := 0, y := 0, die := 4, ctx := 0, inc := 0 }

/-- The words of an error record. -/
def errWords (task : BitVec 12) (seq code : Nat) (dbl ret : Bool) (who : ErrWho) (pc v h0 h2 : W64) (cyc : Nat) :
    List W64 :=
  [w64 (code + toBit dbl * 2 ^ 8 + toBit ret * 2 ^ 9 + task.toNat * 2 ^ 16),
   w64 (who.x + who.y * 2 ^ 6 + who.die * 2 ^ 11 + who.ctx * 2 ^ 14 + who.inc * 2 ^ 18),
   pc, v, h0, h2, w64 cyc, w64 seq]

/-- Write an error record into the queue of a launch; the sequence number skips 0. -/
def errRecord (task : BitVec 12) (code : Nat) (dbl ret : Bool) (who : ErrWho) (pc v h0 h2 : W64) (cyc : Nat)
    (s : State) : State :=
  match launchOf s task with
  | none => s
  | some l =>
    let seq := if (l.errSeq + 1) % 2 ^ 32 == 0 then 1 else (l.errSeq + 1) % 2 ^ 32
    flushErr task (setLaunch s { l with errSeq := seq, errPend :=
      l.errPend ++ [errWords task seq code dbl ret who pc v h0 h2 cyc] })

/-! ## Outbound storage (05 R103, R105) -/

/-- The reply window of a launch. -/
def windowOf (s : State) (task : BitVec 12) : Nat := ((launchOf s task).map (fun l => l.window)).getD 0

/-- On-chip outbound entries in use on a core, and those of low messages. -/
def outChip (c : Core) : Nat := c.out.countP (fun e => e.slots.isEmpty)
def outChipLow (c : Core) : Nat := c.out.countP (fun e => e.slots.isEmpty && !mPri e.msg.w0)

/-- Whether an on-chip entry is usable. -/
def outChipFree (c : Core) (pri : Bool) : Bool := outChip c < 32 && (pri || outChipLow c < 24)

/-- The slots of the outbound region of a launch that are in use on a core. -/
def outSlotsUsed (c : Core) (task : BitVec 12) : List Nat :=
  ((c.out.filter (fun e => e.task == task)).flatMap (fun e => e.slots)) ++
    ((c.reserve.filter (fun p => p.2 == task)).map (fun p => p.1))

/-- The `n` lowest-numbered free slots out of `total`. -/
def freeSlots (used : List Nat) (total n : Nat) : Option (List Nat) :=
  let fr := (List.range (used.length + n)).filter (fun i => !used.contains i && i < total)
  if n ≤ fr.length then some (fr.take n) else none

/-- Slots that a message with a bulk payload of `blen` bytes takes. -/
def slotsFor (blen : Nat) : Nat := 1 + (blen + 159) / 160

/-- Where a message of a launch goes in outbound storage: on chip (no slots), in the region, or nowhere. -/
def outRoom (s : State) (c : Core) (task : BitVec 12) (pri : Bool) (blen : Nat) : Option (List Nat) :=
  if outChipFree c pri then some []
  else (launchOf s task).bind (fun l => freeSlots (outSlotsUsed c task) (2 ^ l.outlog / 160) (slotsFor blen))

/-- The VA of an outbound slot of core `k` (05 R103). -/
def outSlotVa (l : Launch) (k slot : Nat) : W64 :=
  l.inbase + w64 (2 ^ (l.logw + l.logh) * 2 ^ l.inlog + rankIn l k * 2 ^ l.outlog + 160 * slot)

/-- The 160 bytes of a slot: header, inline words, zeros. -/
def slotBytes (m : Msg) : List Byte :=
  (bytesOf [m.w0, m.w1, m.w2, m.w3] ++ bytesOf m.words ++ List.replicate 128 0).take 160

/-- The message that stands in the 160 bytes of a slot; what the slot does not hold stays with the interface. -/
def slotMsg (m : Msg) (bs : List Byte) : Msg :=
  let ws := wordsOf 20 bs
  { m with w0 := wordAt ws 0, w1 := wordAt ws 1, w2 := wordAt ws 2, w3 := wordAt ws 3,
           words := (ws.drop 4).take (hInl (wordAt ws 3)) }

/-- The bytes of the slots of a message, with their addresses. -/
def outImage (l : Launch) (k : Nat) (slots : List Nat) (m : Msg) : List (W64 × List Byte) :=
  match slots with
  | [] => []
  | s0 :: rest => (outSlotVa l k s0, slotBytes m) ::
      rest.mapIdx (fun i sl => (outSlotVa l k sl, (m.bulk.drop (160 * i)).take 160))

/-- Read an outbound message back from its slots. -/
def readImage (l : Launch) (k s0 : Nat) (rest : List Nat) (m : Msg) : RegM Msg := do
  let bs ← rRead l (some k) (outSlotVa l k s0) 160
  let bulk ← readGo rest
  pure { slotMsg m bs with bulk := bulk.take m.bulk.length }
where
  /-- The payload of the further slots. -/
  readGo : List Nat → RegM (List Byte)
    | [] => pure []
    | sl :: r => do
      let bs ← rRead l (some k) (outSlotVa l k sl) 160
      let more ← readGo r
      pure (bs ++ more)

/-- Write the slots of an outbound message, one after another. -/
def writeImage (key : HoldKey) (l : Launch) (k : Nat) : List (W64 × List Byte) → State → State × Bool
  | [], s => (s, true)
  | (va, bs) :: r, s =>
    match regionWrite key l (some k) 0 va bs s with
    | (s1, true) => writeImage key l k r s1
    | (s1, false) => (s1, false)

/-- The cores of a subgroup: its rectangle relative to the launch (06 R129), by the bits of the code below its top. -/
def splitGo : Nat → Nat → (Nat × Nat × Nat × Nat) → Option (Nat × Nat × Nat × Nat)
  | 0, _, r => some r
  | n + 1, code, (x, y, a, b) =>
    let up := code / 2 ^ n % 2
    if a == 0 && b == 0 then none
    else if a ≥ b then splitGo n code (x + up * 2 ^ (a - 1), y, a - 1, b)
    else splitGo n code (x, y + up * 2 ^ (b - 1), a, b - 1)

/-- The rectangle (x, y, log width, log height) of a subgroup code, relative to the launch. -/
def subRect (l : Launch) (code : Nat) : Option (Nat × Nat × Nat × Nat) :=
  if code == 0 || code > 2047 then none else splitGo (Nat.log2 code) code (0, 0, l.logw, l.logh)

/-- The members of a subgroup in rank order (06 R129). -/
def subCores (l : Launch) (code : Nat) : List Nat :=
  match subRect l code with
  | none => []
  | some (x, y, a, b) => (List.range (2 ^ a * 2 ^ b)).map (fun q => coreAt (l.ox + x + q % 2 ^ a) (l.oy + y + q / 2 ^ a))

/-- The targets of an outbound message: one core, or the members of a group (05 R97). -/
def targetsOf (s : State) (task : BitVec 12) (w0 : W64) : List Nat :=
  if mMode w0 == 4 then ((launchOf s task).map (fun l => subCores l (mCode w0))).getD [] else [mCore w0]

/-- Whether a message leaves the module, and how (05 R100). -/
def leavesSite (s : State) (w0 : W64) : Bool := mSite w0 != 0 && mSite w0 != s.site.toNat
def leavesPod (s : State) (w0 : W64) : Bool := mMode w0 != 4 && mAccel w0 != s.accel.toNat

/-- The next number of an outbound entry and the sequence number of the sending context (05 R95 MSGID). -/
def nextSeq (c : Ctx) : Nat := c.seq % 1024

/-- Post a message of the activation `c` of core `k` into outbound storage with the slots found for it, and write the
slots. -/
def postOut (k : Nat) (c : Ctx) (slots : List Nat) (m : Msg) (s : State) : State :=
  let core := coreOf s k
  let n := (targetsOf s c.task m.w0).length
  let e : OutEnt := { num := core.outNum, task := c.task, ctx := c.num, inc := c.inc, msg := m, slots := slots,
                      after := ctxOut s core c, seq := nextSeq c, st := if slots.isEmpty then .ready else .unwritten,
                      left := max n 1, sent := 0 }
  let s1 := updCore k (fun x => { x with out := x.out ++ [e], outNum := x.outNum + 1 }) s
  let s2 := updActivation k c.num.toNat c.inc.toNat (fun x => { x with seq := x.seq + 1 }) s1
  match slots, launchOf s2 c.task with
  | _ :: _, some l =>
    match writeImage (.out k e.num) l k (outImage l k slots m) s2 with
    | (s3, true) => updCore k (fun x => { x with out := x.out.map (fun y => if y.num == e.num then { y with st := .ready } else y) }) s3
    | (s3, false) => s3
  | _, _ => s2

/-! ## Admission (05 R104, R113, R114) -/

/-- The VA of an inbound overflow slot (05 R103): high slots first. -/
def inSlotVa (l : Launch) (k : Nat) (high : Bool) (slot : Nat) : W64 :=
  l.inbase + w64 (rankIn l k * 2 ^ l.inlog + (if high then 0 else 160 * l.window) + 160 * slot)

/-- The overflow slots of one side that a launch has in use on a core. -/
def overUsed (c : Core) (task : BitVec 12) (high : Bool) : List Nat :=
  let get (q : QMsg) : Option Nat := match q.store with
    | .region n => some n
    | .chip => none
  let res := resOf c task
  if high then
    ((res.map (fun r => r.high)).getD []).filterMap get ++
      ((c.held.filter (fun h => h.task == task)).filterMap (fun h => get h.q)) ++
      ((c.pulls.filter (fun u => u.reply && hTask u.q.msg.w2 == task)).filterMap (fun u => get u.q)) ++
      ((c.answers.filter (fun q => hTask q.msg.w2 == task)).filterMap get)
  else ((res.map (fun r => r.low)).getD []).filterMap get

/-- Where an arriving message is stored, on which side, and whether it is demoted; none: RETRY. -/
def storeFor (c : Core) (l : Launch) (owed high mode2 : Bool) : Option (Store × Bool × Bool) :=
  let lowChip := ((resOf c l.task).map (fun r => r.low.countP (fun q => q.store == .chip))).getD 0
  let lowPlace : Option Store :=
    if lowChip < l.lowq && lowCount c true < 1024 then some .chip
    else (freeSlots (overUsed c l.task false) ((2 ^ l.inlog - 160 * l.window) / 160) 1).bind (fun x => x.head?.map .region)
  if high || owed then
    if highCount c true < 32 then some (.chip, true, false)
    else if owed then (freeSlots (overUsed c l.task true) l.window 1).bind (fun x => x.head?.map (fun n => (.region n, true, false)))
    else if mode2 then none
    else lowPlace.map (fun p => (p, false, true))
  else lowPlace.map (fun p => (p, false, false))

/-- Store a message: an overflow slot is written through the launch's address space; false: RETRY (15 R425). -/
def storeWrite (l : Launch) (k : Nat) (place : Store) (high : Bool) (m : Msg) (s : State) : State × Bool :=
  match place with
  | .chip => (s, true)
  | .region n => regionWrite (.inbox k l.task) l (some k) 0 (inSlotVa l k high n) (slotBytes m) s

/-- Read a stored message, from its overflow slot when it stands there; none while the read waits or when it has doomed
the launch (15 R425). -/
def storeRead (l : Launch) (k : Nat) (high : Bool) (q : QMsg) (s : State) : State × Option Msg :=
  match q.store with
  | .chip => (s, some q.msg)
  | .region n =>
    let r := runRegion (.slot k l.task) l (some k) 0 (rRead l (some k) (inSlotVa l k high n) 160) s
    (r.1, r.2.map (slotMsg q.msg))

/-- An owed or credited message leaves the queues of core `k`: its credit returns (05 R106). -/
def returnOwed (k : Nat) (q : QMsg) (s : State) : State :=
  if q.owed == .none then s else credit k (hTask q.msg.w2) 1 s

/-- Discard an inbound message: its payload frees at the sender, its credit returns, and a NACK goes out when it
carries ACK. A mode-2 message has had no ADMIT before, so that its NACK returns the credit. -/
def discard (k : Nat) (q : QMsg) (reason : Nat) (s : State) : State :=
  let s1 := returnOwed k q (payloadTaken q.msg s)
  if mClass q.msg.w0 != 4 && hAck q.msg.w3 then sendNack k q.msg (mMode q.msg.w0 == 2) reason s1 else s1

/-- Put a message at the end of the high FIFO or the low queue of its launch. -/
def enqueue (k : Nat) (task : BitVec 12) (high : Bool) (q : QMsg) (s : State) : State :=
  updCore k (fun c => c.updRes task (fun r => if high then { r with high := r.high ++ [q] } else { r with low := r.low ++ [q] })) s

/-- ADMIT for a mode-2 message, when RECVW consumes it or a fallback activation starts on it (05 R107, R113, R114). -/
def admitMode2 (m : Msg) (s : State) : State :=
  if mClass m.w0 == 0 && mMode m.w0 == 2 then
    sendCtl (hAcc m.w2) m.ssite.toNat
      { kind := .admitted, core := hCore m.w2, ctx := BitVec.ofNat 4 (hCtx m.w2), inc := BitVec.ofNat 6 (hInc m.w2),
        seq := hSeq m.w2, task := hTask m.w2, hi := true, req := false, mode2 := true, reason := 0, w1 := 0, w2 := 0,
        site := 0, taken := false } s
  else s

/-- The payload of a message that starts an activation is taken: a fallback activation on a mode-2 message has started, and ADMIT goes
out for it, if it has a payload only now (05 R102, R113, R114). -/
def startedTaken (q : QMsg) (s : State) : State := (if q.stale then admitMode2 q.msg else id) (payloadTaken q.msg s)

/-- The stale path (05 R114); what is dropped is answered STALE, or KILLED at the end of its launch (06 R147). -/
def stalePath (k : Nat) (reason : Nat) (q : QMsg) (s : State) : State :=
  let task := hTask q.msg.w2
  if (resAt s k task).isSome && q.msg.w1 != 0 then
    enqueue k task true { q with stale := true } s
  else discard k q reason (countStale k s)

/-- A context-addressed message is held for its activation, or takes the stale path (05 R113). -/
def holdOrStale (k : Nat) (q : QMsg) (s : State) : State :=
  let c := mCtx q.msg.w0
  let inc := mInc q.msg.w0
  let task := hTask q.msg.w2
  if isLive s k c inc task then
    updCore k (fun x => { x with held := x.held ++
      [{ task := task, ctx := BitVec.ofNat 4 c, inc := BitVec.ofNat 6 inc, q := q }] }) s
  else stalePath k 1 q s

/-- What is owed for an inbound message (05 R106): an answer to a request, another answer, or nothing. -/
def owedKind (f : Flight) : Owed :=
  if mClass f.msg.w0 == 4 then .request
  else if mClass f.msg.w0 == 2 then (if mMode f.msg.w0 == 2 && f.org != .unit then .request else .reply)
  else .none

/-- A message of the mesh finds no storage, or its slot cannot be written: RETRY to its sender, in whose storage it
waits 256 clk (05 R105). -/
def bounce (f : Flight) (s : State) : State :=
  let again (s : State) : State :=
    { s with flights := s.flights.map (fun g => if g.num == f.num then { g with hold := s.clk + 256, arrived := false } else g) }
  let back (s : State) : State := answerSender .retry f { s with flights := s.flights.filter (fun g => g.num != f.num) }
  match f.org with
  | .out _ _ => if mMode f.msg.w0 == 4 then again s else back s
  | .outside => dropPart f.msg (back s)
  | _ => again s

/-- A message for a core that runs no launch of its task is dropped (05 R100): NACK NOTASK when it carries ACK. DESIGN
CHOICE: one in mode 2 gets the STALE of 05 R114 instead (assumption 131). The NACK of a continuation goes to its
requester, so that its sender gets ADMIT for the credit (05 R106). -/
def dropFlight (k : Nat) (f : Flight) (s : State) : State :=
  let m := f.msg
  let hi := mPri m.w0 && mClass m.w0 == 0
  let nack := mClass m.w0 != 4 && hAck m.w3
  let s1 := if nack then sendNack k m (hi && !isCont m) (if mMode m.w0 == 2 then 1 else 2) s else s
  let s2 := if (!nack || isCont m) && (hi || f.org == .outside) then answerSender .admitted f s1 else s1
  released f false (countStale k (if f.org == .outside then payloadTaken m s2 else s2))

/-- An admitted message takes its place: at its activation, with the steal answers, or in a queue. -/
def settle (k : Nat) (f : Flight) (high : Bool) (q : QMsg) (s : State) : State :=
  if f.org == .steal then updCore k (fun c => { c with answers := c.answers ++ [q] }) s
  else if mMode f.msg.w0 == 2 then holdOrStale k q s
  else enqueue k (hTask f.msg.w2) high q s

/-- A message for whose slot there is room, but whose slot cannot be written yet: it waits at the core for the walk, and gets RETRY on
a fault (15 R425). -/
def slotNotYet (k : Nat) (f : Flight) (s : State) : State :=
  if walkingOn s (.inbox k (hTask f.msg.w2)) then
    { s with flights := s.flights.map (fun g => if g.num == f.num then { g with walks := false, arrived := true } else g) }
  else bounce f s

/-- A message of the mesh is offered to the storage of core `k` (05 R104). -/
def admitFlight (k : Nat) (f : Flight) (s : State) : State :=
  let m := f.msg
  let task := hTask m.w2
  let hi := mPri m.w0 && mClass m.w0 == 0
  let owed := owedKind f
  match launchOf s task, resAt s k task with
  | some l, some _ =>
    match storeFor (coreOf s k) l (owed != .none) hi (mMode m.w0 == 2) with
    | none => bounce f s
    | some (place, high, demoted) =>
      match storeWrite l k place high m s with
      | (s1, false) => slotNotYet k f s1
      | (s1, true) =>
        let q : QMsg := { msg := m, store := place, skipped := 0, demoted := demoted, stale := false, owed := owed,
                          route := (match f.org with
                            | .route d e => some (d, e)
                            | _ => none),
                          stamp := s.clk }
        let s2 := if f.org == .outside || (hi && mMode m.w0 != 2) then answerSender .admitted f s1 else s1
        settle k f high q (released f (hBulk m.w3) s2)
  | _, _ => dropFlight k f s

end Sys2Proof.Machine
end

