-- ==== Sys2Proof/Machine/Ingress.lean ====
section
/-! DEFINITION. The home core of an address (05 R98) and the ingress of a routing engine: buffers, wait queues, the
expert residency table and its slots (14 R325 to R331). Every event of a die's ingress is one run of `RegM`. -/
namespace Sys2Proof.Machine

/-- The die that is home to an address (05 R98); none: no home. -/
def homeDie (s : State) (g : W64) : Option Nat :=
  let d := vaDie g
  if d == 7 || (spart s && (d == 2 || d == 3)) then none
  else if d == 4 || d == 6 then some 0
  else if d == 5 then some 1
  else some d

/-- The home core of a global address (05 R98). -/
def homeCore (s : State) (g : W64) : Option Nat :=
  (homeDie s g).map (fun d =>
    let c := bits g 10 6 ^^^ bits g 16 6
    let k := bits g 22 3
    coreAt (32 * (d % 2) + 4 * (c % 8) + k % 4) (16 * (d / 2) + 2 * (c / 8) + k / 4))

/-! ## The configuration (14 R318, R319) -/

/-- What an event of an ingress works on: the die, its configuration and the launch. -/
structure Ing where
  d : Nat
  cfg : RouteCfg
  l : Launch
  deriving DecidableEq, Repr

def cfgW (c : RouteCfg) (n : Nat) : W64 := wordAt c.words n
def cfgTopg (c : RouteCfg) : Nat := bits (cfgW c 0) 10 4
def cfgTope (c : RouteCfg) : Nat := bits (cfgW c 0) 14 3
/-- C, the capacity of a buffer. -/
def cfgC (c : RouteCfg) : Nat := 2 ^ bits (cfgW c 0) 17 4
def cfgNodiv (c : RouteCfg) : Bool := bit (cfgW c 0) 21
def cfgDec (c : RouteCfg) : Bool := bit (cfgW c 0) 22
def cfgWq (c : RouteCfg) : Nat := 2 ^ bits (cfgW c 0) 28 4
/-- ROWB. -/
def cfgRow (c : RouteCfg) : Nat := 64 * bits (cfgW c 1) 0 10
def cfgSlots (c : RouteCfg) : Nat := bits (cfgW c 1) 19 13
/-- SLOTB. -/
def cfgSlotB (c : RouteCfg) : Nat := 4096 * bits (cfgW c 1) 32 32
/-- The local index of an expert homed on the die. -/
def localIx (c : RouteCfg) (e : Nat) : Nat := c.homed.idxOf e
/-- The VA of an expert's ERT entry. -/
def ertVa (c : RouteCfg) (e : Nat) : W64 := cfgW c 6 + w64 (16 * localIx c e)
/-- The VA of an expert's buffer. -/
def bufVa (c : RouteCfg) (e : Nat) : W64 := cfgW c 8 + w64 (localIx c e * (cfgC c * (72 + cfgRow c)))
/-- The VA of a place of an expert's wait queue. -/
def wqVa (c : RouteCfg) (e pos : Nat) : W64 :=
  cfgW c 9 + w64 ((localIx c e * cfgWq c + pos % cfgWq c) * (64 + cfgRow c))
/-- The VA of a slot of the pool. -/
def slotVa (c : RouteCfg) (slot : Nat) : W64 := cfgW c 7 + w64 (slot * cfgSlotB c)

/-- The routing engine of a die. -/
def routeOf (s : State) (d : Nat) : Route := s.routes.get ⟨d % 4, Nat.mod_lt _ (by decide)⟩
/-- Change the routing engine of a die. -/
def updRoute (d : Nat) (f : Route → Route) (s : State) : State :=
  { s with routes := s.routes.set (d % 4) (f (routeOf s d)) (Nat.mod_lt _ (by decide)) }

/-- The configured launch of a die. -/
def ingOf (s : State) (d : Nat) : Option Ing :=
  (routeOf s d).cfg.bind (fun cfg => (launchOf s cfg.task).map (fun l => { d := d % 4, cfg := cfg, l := l }))

/-- An empty buffer of a round. -/
def ExpBuf.empty (round : Nat) : ExpBuf := { round := round, count := 0, out := false, holder := none, since := 0, flags := 0 }

/-- The buffer of an expert. -/
def bufOf (r : Route) (e : Nat) : ExpBuf := alGet r.bufs e (ExpBuf.empty 0)
/-- The wait queue of an expert. -/
def wqOf (r : Route) (e : Nat) : WaitQ := alGet r.waitq e { head := 0, ents := [] }

/-- The words of a token record (14 R321). -/
def recWords (t : TokRec) : List W64 :=
  let pair (i : Nat) : W64 := w64 ((t.prob.getD (2 * i) 0).toNat + (t.prob.getD (2 * i + 1) 0).toNat * 2 ^ 32)
  [t.w0, t.arow, t.rrow, 0, pair 0, pair 1, pair 2, pair 3]

/-! ## The table (14 R325) -/

def ertState (w : W64) : Nat := bits w 16 2
def ertPinned (w : W64) : Bool := bit w 18
def ertSlot (w : W64) : Nat := bits w 20 12
def ertFreq (w : W64) : Nat := bits w 32 16
def ertRef (w : W64) : Bool := bits w 48 16 != 0

/-- Read word 0 of an expert's entry. -/
def ertRead (x : Ing) (e : Nat) : RegM W64 := rWord x.l none (ertVa x.cfg e)
/-- Write word 0 of an expert's entry. -/
def ertWrite (x : Ing) (e : Nat) (w : W64) : RegM Unit := rWrite x.l none (ertVa x.cfg e) (toBytes 8 w.toNat)
/-- Raise FREQ, saturating, or lower it again. -/
def ertAddFreq (x : Ing) (e n : Nat) : RegM Unit := do
  let w ← ertRead x e
  ertWrite x e (setBits w 32 16 (satAdd 16 (ertFreq w) n))

/-- Count an event of the ingress (14 R338). -/
def countRoute (x : Ing) (i : Fin 8) : RegM Unit :=
  modify (updRoute x.d (fun r => { r with counters := r.counters.set i (r.counters.get i + 1) }))

/-- REF follows the state, the buffer and the wait queue; the answer says whether it fell to 0. -/
def fixRef (x : Ing) (e : Nat) : RegM Bool := do
  let w ← ertRead x e
  let s ← get
  let r := routeOf s x.d
  let b := bufOf r e
  let ref := ertState w != 0 && (b.count > 0 || b.out || !(wqOf r e).ents.isEmpty)
  if ref == ertRef w then pure false
  else do
    ertWrite x e (setBits w 48 16 (toBit ref))
    pure (!ref)

/-! ## Slots (14 R329, R330) -/

/-- The entries of the homed experts. -/
def ertAll (x : Ing) : List Nat → RegM (List (Nat × W64))
  | [] => pure []
  | e :: es => do
    let w ← ertRead x e
    let rest ← ertAll x es
    pure ((e, w) :: rest)

/-- The victim: resident, not pinned, REF 0, lowest FREQ, then lowest slot. -/
def victimOf (ents : List (Nat × W64)) : Option (Nat × W64) :=
  let ok := ents.filter (fun p => ertState p.2 == 2 && !ertPinned p.2 && !ertRef p.2)
  let better (a b : Nat × W64) : Bool := ertFreq a.2 < ertFreq b.2 || (ertFreq a.2 == ertFreq b.2 && ertSlot a.2 < ertSlot b.2)
  match ok with
  | [] => none
  | p :: ps => some (ps.foldl (fun b a => if better a b then a else b) p)

/-! ## Drives (16 R380) -/

/-- Bytes of which the manual gives the place but not the contents: free values. -/
def freeCells (key n : Nat) (s : State) : State :=
  perform { s with freeNum := s.freeNum + n } (cellsAt key ((List.range n).map (fun i => Config.freeByte (s.freeNum + i))))

/-- The drive of a handle. -/
def driveOf (s : State) (h : Nat) : Option Drive := s.host.drives.find? (fun d => d.handle == h)

/-- Change a drive. -/
def setDrive (d : Drive) (s : State) : State :=
  { s with host := { s.host with drives := s.host.drives.map (fun x => if x.handle == d.handle then d else x) } }

/-- The bytes of one read: at most the drive's maximum transfer. -/
def driveMost (d : Drive) : Nat := max 1 (d.most / d.block) * d.block

/-- The reads that `n` bytes from byte `off` on are split into, in LBA order, as `r` says of whom; `x` numbers the first. -/
def splitReads (d : Drive) (r : DriveRead) : Nat → Nat → Nat → Nat → List DriveRead
  | 0, _, _, _ => []
  | f + 1, x, off, n =>
    let m := min n (driveMost d)
    if n == 0 then [] else { r with num := x, lba := r.lba + off / d.block, bytes := m, off := off } :: splitReads d r f (x + 1) (off + m) (n - m)

/-- A read enters the submission queue, 64 bytes for each of its 256 entries, and the doorbell tells the drive of it. -/
def submitRead (r : DriveRead) (s : State) : State :=
  let s1 := { s with host := { s.host with reads := s.host.reads.map (fun x => if x.num == r.num then { x with sent := true } else x) },
                     egress := s.egress ++ [.driveRead r.handle r.lba r.bytes] }
  match driveOf s r.handle with
  | none => s1
  | some d =>
    let tail := (d.tail + 1) % 256
    let s2 := setDrive { d with tail := tail } (freeCells (physKey d.die (d.queue + 64 * d.tail)) 64 s1)
    { s2 with egress := s2.egress ++ [.doorbell d.handle false tail] }

/-- The reads of a drive enter its submission queue as far as its 256 entries go, of which one stays empty. -/
def pumpDrive (h : Nat) : Nat → State → State
  | 0, s => s
  | n + 1, s =>
    if 255 ≤ (s.host.reads.filter (fun r => r.handle == h && r.sent)).length then s
    else match s.host.reads.find? (fun r => r.handle == h && !r.sent) with
      | some r => pumpDrive h n (submitRead r s)
      | none => s

/-- `n` bytes from byte `off` on are to be read, as `r` says of whom. -/
def queueReads (d : Drive) (r : DriveRead) (off n : Nat) (s : State) : State :=
  let rs := splitReads d r n s.host.readNum off n
  pumpDrive d.handle 255 { s with host := { s.host with reads := s.host.reads ++ rs, readNum := s.host.readNum + rs.length } }

/-- An entry of the completion queue, 16 bytes behind the submission queue, is taken, and the doorbell tells the drive of it. -/
def takeCompletion (h : Nat) (s : State) : State :=
  match driveOf s h with
  | none => s
  | some d =>
    let head := (d.head + 1) % 256
    let s1 := setDrive { d with head := head } (freeCells (physKey d.die (d.queue + 64 * 256 + 16 * d.head)) 16 s)
    { s1 with egress := s1.egress ++ [.doorbell d.handle true head] }

/-- A fetch from a drive submits its reads when it starts, as CSTOR does; a stream to decode is read chunk by chunk as far as it
goes. A handle that is not granted submits nothing (14 R331, 16 R380). -/
def startRead (x : Ing) (e : Nat) (home : W64) (s : State) : State :=
  match if bit home 63 then driveOf s (bits (cfgW x.cfg 0) 35 6) else none with
  | none => s
  | some d =>
    let r : DriveRead := { num := 0, handle := d.handle, lba := bits home 0 48, bytes := 0, off := 0, sent := false, core := 0, cmd := 0,
                           die := x.d, expert := some e, pre := [] }
    queueReads d r 0 (if cfgDec x.cfg then 4096 else cfgSlotB x.cfg) s

/-- The head of the request FIFO gets a slot, if there is one: its fetch starts from HOME as it now stands. -/
def grantHead (x : Ing) : RegM Bool := do
  let s ← get
  match (routeOf s x.d).requests with
  | [] => pure false
  | e :: rest => do
    let ents ← ertAll x x.cfg.homed
    let held := (ents.filter (fun p => ertState p.2 != 0)).map (fun p => ertSlot p.2)
    let free := lowestFree held
    let slot ← (if free < cfgSlots x.cfg then pure (some free)
      else match victimOf ents with
        | none => pure none
        | some (v, w) => do
          ertWrite x v (setBits (setBits w 16 2 0) 20 12 0)
          countRoute x 5
          pure (some (ertSlot w)))
    match slot with
    | none => pure false
    | some n => do
      let w ← ertRead x e
      let home ← rWord x.l none (ertVa x.cfg e + 8)
      ertWrite x e (setBits (setBits w 16 2 1) 20 12 n)
      countRoute x 4
      modify (fun s => startRead x e home
        (updRoute x.d (fun r => { r with requests := rest, fetching := r.fetching ++ [(e, home)] }) s))
      let _ ← fixRef x e
      pure true

/-- Retry the FIFO from its head as long as a request is granted. -/
def retryRequests (x : Ing) : Nat → RegM Unit
  | 0 => pure ()
  | n + 1 => do
    let ok ← grantHead x
    if ok then retryRequests x n else pure ()

/-- Retry as many requests as stand in the FIFO. -/
def retryAll (x : Ing) : RegM Unit := do
  let s ← get
  retryRequests x (routeOf s x.d).requests.length

/-- A request for a slot (14 R330), unless one is made already. -/
def requestSlot (x : Ing) (e : Nat) : RegM Unit := do
  let s ← get
  if (routeOf s x.d).requests.contains e then pure ()
  else do
    modify (updRoute x.d (fun r => { r with requests := r.requests ++ [e] }))
    retryAll x

/-- REF is brought up to date; a fall retries the requests. -/
def settleRef (x : Ing) (e : Nat) : RegM Unit := do
  let fell ← fixRef x e
  if fell then retryAll x else pure ()

/-! ## Buffers (14 R326 to R328) -/

/-- The hint of a hand-out: the home core of an address, clamped into the launch rectangle (14 R327). -/
def clampHint (s : State) (l : Launch) (va : W64) : Nat :=
  let h := (homeCore s va).getD (coreAt l.ox l.oy)
  coreAt (max l.ox (min (coreX h) (l.ox + 2 ^ l.logw - 1))) (max l.oy (min (coreY h) (l.oy + 2 ^ l.logh - 1)))

/-- Hand out the buffer of an expert (14 R327). -/
def handOut (x : Ing) (e : Nat) (flush timeout ffail : Bool) : RegM Unit := do
  let w ← ertRead x e
  let s ← get
  let b := bufOf (routeOf s x.d) e
  let slot := if ffail then 0 else slotVa x.cfg (ertSlot w)
  let hint := clampHint s x.l (if ffail then bufVa x.cfg e else slot)
  let w0 := setBits (coreWord s 0 false 1 hint 0 0) 54 3 (bits (cfgW x.cfg 0) 32 3)
  let status := w64 (toBit flush + toBit timeout * 2 + toBit ffail * 4 + toBit (b.count == cfgC x.cfg) * 8)
  let m := unitMsg w0 (cfgW x.cfg 10) (hdr2 s x.l.task x.d 0 0 0 0 b.round 0)
    [bufVa x.cfg e, w64 (e + b.round % 2 ^ 32 * 2 ^ 16), w64 b.count, slot, status]
  modify (fun s => fly m hint hint (.route x.d e) false
    (updRoute x.d (fun r => { r with bufs := alPut r.bufs e { b with out := true } }) s))

/-- The record flags DIV, WAIT, PARK and ZSUM as the weight entry and the copied record carry them (14 R321, R327). -/
def placeFlags (ent : W64 × TokRec) (dv wait park : Bool) : W64 × TokRec :=
  let we := setBits (setBits (setBits ent.1 35 1 (toBit dv)) 36 1 (toBit wait)) 37 1 (toBit park)
  let w0 := setBits (setBits (setBits (setBits ent.2.w0 57 1 (toBit dv)) 58 1 (toBit wait)) 59 1 (toBit park)) 60 1
    (bits ent.1 38 1)
  (we, { ent.2 with w0 := w0 })

/-- Whether a full buffer goes out at once: one of a failed fetch, or of an expert that is resident. The weights of any other are
still on their way, and its buffer goes out when the fetch ends (14 R327, R335 case 6; assumption 136). -/
def goesOut (x : Ing) (e : Nat) (ffail : Bool) : RegM Bool := do
  let w ← ertRead x e
  pure (ffail || ertState w == 2)

/-- put(e) of 14 R326. -/
def putBuf (x : Ing) (e : Nat) (ent : W64 × TokRec) (ffail : Bool) : RegM Unit := do
  let s ← get
  let b := bufOf (routeOf s x.d) e
  let base := bufVa x.cfg e
  rWrite x.l none (base + w64 (64 * b.count)) (bytesOf (recWords ent.2))
  rWrite x.l none (base + w64 (64 * cfgC x.cfg + 8 * b.count)) (toBytes 8 ent.1.toNat)
  rWrite x.l none (base + w64 (72 * cfgC x.cfg + cfgRow x.cfg * b.count)) (ent.2.row.take (cfgRow x.cfg))
  let b' := { b with count := b.count + 1, since := if b.count == 0 then s.clk else b.since, flags := b.flags ||| ent.2.w0 }
  modify (updRoute x.d (fun r => { r with bufs := alPut r.bufs e b' }))
  let _ ← fixRef x e
  let now ← goesOut x e ffail
  if b'.count == cfgC x.cfg && now then handOut x e false false ffail else pure ()

/-- Append a placement to a wait queue (14 R326). -/
def appendWq (x : Ing) (e : Nat) (ent : W64 × TokRec) : RegM Unit := do
  let s ← get
  let q := wqOf (routeOf s x.d) e
  rWrite x.l none (wqVa x.cfg e (q.head + q.ents.length)) (bytesOf (recWords ent.2) ++ ent.2.row.take (cfgRow x.cfg))
  modify (updRoute x.d (fun r => { r with waitq := alPut r.waitq e { q with ents := q.ents ++ [ent] } }))
  let _ ← fixRef x e

/-- Move up to `n` placements from the head of the wait queue into the buffer while it is filling. -/
def moveIn (x : Ing) (e : Nat) (ffail : Bool) : Nat → RegM Nat
  | 0 => pure 0
  | n + 1 => do
    let s ← get
    let r := routeOf s x.d
    let q := wqOf r e
    if (bufOf r e).out || cfgC x.cfg ≤ (bufOf r e).count then pure 0
    else match q.ents with
      | [] => pure 0
      | ent :: rest => do
        modify (updRoute x.d (fun r => { r with waitq := alPut r.waitq e { head := (q.head + 1) % cfgWq x.cfg, ents := rest } }))
        putBuf x e ent ffail
        let k ← moveIn x e ffail n
        pure (k + 1)

/-- The wait queue of an expert drains into its buffer: parked placements of a failed fetch are handed out in buffers
of their own (14 R329), others as R328 states. -/
def drainWq (x : Ing) (e : Nat) : RegM Nat := do
  let s ← get
  let r := routeOf s x.d
  let left := alGet r.failing e 0
  if left > 0 then do
    let k ← moveIn x e true (min left (cfgC x.cfg))
    modify (updRoute x.d (fun r => { r with failing := if left - k == 0 then alDel r.failing e else alPut r.failing e (left - k) }))
    let s ← get
    let b := bufOf (routeOf s x.d) e
    if !b.out && b.count > 0 then handOut x e false false true else pure ()
    pure k
  else moveIn x e false (wqOf r e).ents.length

/-- The release of a buffer (14 R328); the answer is the number of placements moved into the new round. -/
def releaseBuf (x : Ing) (e : Nat) : RegM Nat := do
  modify (updRoute x.d (fun r => { r with bufs := alPut r.bufs e (ExpBuf.empty (((bufOf r e).round + 1) % 2 ^ 32)) }))
  let k ← drainWq x e
  settleRef x e
  pure k

/-- wq_append of 14 R326: while the wait queue is full the placement, with its flags decided, holds the intake; false then. -/
def appendNow (x : Ing) (e : Nat) (ent : W64 × TokRec) (park : Bool) : RegM Bool := do
  let s ← get
  if (wqOf (routeOf s x.d) e).ents.length ≥ cfgWq x.cfg then do
    modify (updRoute x.d (fun r => { r with paused := some (e, ent, park) }))
    pure false
  else do
    modify (updRoute x.d (fun r => { r with paused := none }))
    appendWq x e (placeFlags ent false (!park) park)
    countRoute x (if park then 3 else 2)
    let w ← ertRead x e
    if park && ertState w == 0 then requestSlot x e else pure ()
    pure true

/-- place(e, j) of 14 R326 with the alternate of rank j; false when the wait queue is full and intake pauses. -/
def place (x : Ing) (e : Nat) (alt : Option Nat) (ent : W64 × TokRec) : RegM Bool := do
  let s ← get
  let r := routeOf s x.d
  let w ← ertRead x e
  let freq := satAdd 16 (ertFreq w) 1
  ertWrite x e (setBits w 32 16 freq)
  if ertState w != 2 then appendNow x e ent true
  else if !(bufOf r e).out then do
    putBuf x e (placeFlags ent false false false) false
    pure true
  else do
    let altW ← (match alt with
      | none => pure 0
      | some a => ertRead x a)
    match alt with
    | some a =>
      if !cfgNodiv x.cfg && ertState altW == 2 && !(bufOf r a).out then do
        ertAddFreq x a 1
        ertWrite x e (setBits w 32 16 (freq - 1))
        putBuf x a (placeFlags ent true false false) false
        countRoute x 1
        pure true
      else appendNow x e ent false
    | none => appendNow x e ent false

/-- The releases of a die that waited for a fault, oldest first (15 R425). -/
def flushReleases (d : Nat) : Nat → State → State
  | 0, s => s
  | n + 1, s =>
    match ingOf s d, (routeOf s d).pend with
    | some x, e :: rest =>
      match runRegion (.place x.d) x.l none 3 (releaseBuf x e) s with
      | (s1, some _) => flushReleases d n (updRoute d (fun r => { r with pend := rest }) s1)
      | (s1, none) => s1
    | _, _ => s

/-! ## The fetch at the start of a launch (06 R128) -/

/-- The locations of the 4 KiB at image, in the launch's ASID; or the request that does not translate and why. -/
def hintKeys (s : State) (l : Launch) : Except (Req × XRes) (List Nat) :=
  rangeKeys s (fun va => { va := va, asid := l.asid, sub := false, rd := false, wr := false, fetch := true, user := !l.firmware })
    (pieces l.image 4096)

/-- The words at these locations. -/
def hintWords (s : State) (ks : List Nat) : List (Nat × W32) :=
  (List.range 1024).map (fun i => (ks.getD (4 * i) 0, w32 (ofBytes (((ks.drop (4 * i)).take 4).map (memGet s.mem)))))

/-- A core fetches words that its instruction cache does not hold. -/
def takeWords (ws : List (Nat × W32)) (c : Core) : Core :=
  { c with icache := (c.icache ++ ws.filter (fun w => !c.icache.any (fun x => x.1 == w.1))).take icacheWords }

/-- The hint of a launch is over. -/
def endHint (task : BitVec 12) (s : State) : State :=
  unhold (.hint task) { s with launches := s.launches.map (fun l => if l.task == task then { l with hinting := false } else l) }

/-- The hint goes on: the words come into the instruction cache of every core of the launch, or it waits for a walk; one that meets a
fault is dropped. -/
def fillHint (task : BitVec 12) (s : State) : State :=
  let key : HoldKey := .hint task
  match (launchOf s task).filter (fun l => l.hinting && !heldOn s key) with
  | none => s
  | some l =>
    if holdFailed s key then endHint task s
    else match hintKeys s l with
      | .ok ks => (launchCores l).foldl (fun t k => updCore k (takeWords (hintWords s ks)) t) (endHint task s)
      | .error (q, .miss) => agentWalk key { engineOf 0 0 with die := 4 } true q (unhold key s)
      | .error _ => endHint task s

/-- What waits for launch regions goes on: the releases, the error records and the hints (15 R425). -/
def flushWaiting (s : State) : State :=
  let s1 := [0, 1, 2, 3].foldl (fun s d => flushReleases d (routeOf s d).pend.length s) s
  s1.launches.foldl (fun s l => fillHint l.task (flushErr l.task s)) (flushTails s1)

/-- Release a buffer of a die, now or when an open fault is resolved. -/
def releaseLater (d e : Nat) (s : State) : State :=
  let s1 := updRoute d (fun r => { r with pend := r.pend ++ [e],
                                          bufs := alPut r.bufs e { bufOf r e with holder := none } }) s
  flushReleases d (routeOf s1 d).pend.length s1

/-- The buffers handed to an activation that retires or migrates are released (14 R328). -/
def releaseHeld (k : Nat) (c : BitVec 4) (inc : BitVec 6) (s : State) : State :=
  let held := [0, 1, 2, 3].flatMap (fun d => ((routeOf s d).bufs.filter (fun p => p.2.holder == some (k, c, inc))).map
    (fun p => (d, p.1)))
  held.foldl (fun s p => releaseLater p.1 p.2 s) s

/-- The end of the configured launch on its dies (14 R344). Fetches in flight end with their entries as they are. -/
def unconfigure (task : BitVec 12) (s : State) : State :=
  [0, 1, 2, 3].foldl (fun s d =>
    if (routeOf s d).cfg.any (fun c => c.task == task) then
      let old : List OldFetch := match ingOf s d with
        | some x => (routeOf s d).fetching.map (fun p => { e := p.1, home := p.2, cfg := x.cfg, l := x.l })
        | none => []
      let mine (h : Hold) : Bool := match h.key with
        | .transfer k _ => k == d
        | .place k => k == d
        | _ => false
      updRoute d (fun r => { Route.reset with counters := r.counters, incoming := r.incoming, old := r.old ++ old })
        { s with holds := s.holds.filter (fun h => !mine h),
                 fab := { s.fab with txs := s.fab.txs.filter (fun t => !(t.eng == 4 && t.core == d)) } }
    else s) s

end Sys2Proof.Machine
end

