-- ==== Sys2Proof/Machine/Retire.lean ====
section
/-! DEFINITION. The end of an activation (05 R112) and of a launch (06 R147). -/
namespace Sys2Proof.Machine

/-! ## The fabric's way out -/

/-- The port of a transaction (13 R295). -/
def portOf (s : State) (accel : Nat) (va : W64) : Nat :=
  let ps := upPorts s
  ps.getD (Config.portHash accel (bits va 8 43) % max ps.length 1) 0

/-- Send a transaction or an answer to another module; without a live port it is lost (13 R297). -/
def toFabric (accel tag : Nat) (va : W64) (op : FabOp) (s : State) : State :=
  if (upPorts s).isEmpty then s
  else { s with egress := s.egress ++ [.fabric (portOf s accel va) { accel := accel, tag := tag, op := op }] }

/-! ## Commands of the engines by number -/

/-- The queue of an engine: 0 matrix, 1 copy, 2 network, 3 routing (08 R178). -/
def Core.queue (c : Core) (eng : Nat) : List Cmd :=
  match eng with
  | 0 => c.matq
  | 1 => c.copyq
  | 2 => c.netq
  | _ => c.routeq

/-- Replace the queue of an engine. -/
def Core.setQueue (c : Core) (eng : Nat) (q : List Cmd) : Core :=
  match eng with
  | 0 => { c with matq := q }
  | 1 => { c with copyq := q }
  | 2 => { c with netq := q }
  | _ => { c with routeq := q }

/-- Change a command. -/
def updCmd (k eng num : Nat) (f : Cmd → Cmd) (s : State) : State :=
  updCore k (fun c => c.setQueue eng ((c.queue eng).map (fun q => if q.num == num then f q else q))) s

/-- A command ends with a status word and awaits its completion actions. -/
def endCmd (k eng num : Nat) (status : W64) (s : State) : State :=
  updCmd k eng num (fun q => { q with status := q.status ||| status, st := .done }) s

/-- The response to a transaction is remembered among the last 4,096 of its source (13 R297). -/
def remember (accel tag : Nat) (op : FabOp) (s : State) : State :=
  let mine := s.fab.seen.filter (fun p => p.1 == accel)
  let rest := s.fab.seen.filter (fun p => p.1 != accel)
  { s with fab := { s.fab with seen := rest ++ mine.drop (mine.length - 4095) ++ [(accel, tag, op)] } }

/-- Answer a transaction that takes effect at most once. -/
def answerOnce (accel tag : Nat) (va : W64) (op : FabOp) (s : State) : State :=
  toFabric accel tag va op (remember accel tag op s)

/-- A held contribution to a reduction record is answered (12 R282). -/
def answerRed (f : RedFrom) (status : W64) (va : W64) (s : State) : State :=
  match f with
  | .here k num => endCmd k 1 num status s
  | .pod accel tags => tags.foldl (fun s t => answerOnce accel t va (.answer [] 0 status.toNat) s) s

/-! ## Retirement (05 R112) -/

/-- How an activation ends: at its END, killed, killed with its launch (06 R147), or migrated (05 R121). -/
inductive EndKind where
  | ended
  | killed
  | stopped
  | migrated
  deriving DecidableEq, Repr

/-- A context as retirement leaves it: free, with nothing declared; the incarnation stays for R111. -/
def Ctx.freed (x : Ctx) : Ctx :=
  { x with status := .free, run := [], gcount := 0, pend := [], pendFp := 0, pendRl := 0, nv := 0, nl := 0, na := 0,
           slots := [], since := none, got := none, fva := none, xfail := none }

/-- The vector registers of an activation that retires with vector results outstanding return behind them (09 R197). -/
def leftRegs (c : Core) (x : Ctx) : List VHeld :=
  if c.vecq.contains (x.num, x.inc) && x.nv != 0 then [{ ctx := x.num, inc := x.inc, nv := x.nv }] else []

/-- The messages held for an activation take the stale path, oldest first (05 R112, R114); one that RECVW is pulling is the oldest, for
it is consumed only when its payload has landed (05 R102). -/
def staleHeld (k : Nat) (c : BitVec 4) (inc : BitVec 6) (e : EndKind) (s : State) : State :=
  let mine (h : Held) : Bool := h.ctx == c && h.inc == inc
  let pulled (u : Pull) : Bool := u.ctx == c && u.inc == inc
  let us := (coreOf s k).pulls.filter pulled
  let qs := (us.filter (fun u => u.reply)).map (fun u => u.q) ++ ((coreOf s k).held.filter mine).map (fun h => h.q)
  let s1 := updCore k (fun x => { x with held := x.held.filter (fun h => !mine h), pulls := x.pulls.filter (fun u => !pulled u) }) s
  let s2 := (us.filter (fun u => !u.reply)).foldl (fun s u => startedTaken u.q s) s1
  qs.foldl (fun s q => stalePath k (if e == .stopped then 6 else 1) q s) s2

/-- The fallback VA of the request that started an activation (05 R119): its word 1 + FALL. In a continuation FALL
locates the entry word (05 R95), so no fallback remains (assumption 12). -/
def replyFall (x : Ctx) : W64 :=
  if bit x.msg.hstat 6 || bits x.msg.hdr3 0 32 == 0 then 0 else x.entry + hFall x.msg.hdr3

/-- The NACK for a reply still owed (05 R112). -/
def owedNack (k : Nat) (x : Ctx) (e : EndKind) (s : State) : State :=
  if e != .migrated && bit x.msg.hstat 2 && !bit x.msg.hstat 3 then
    let w2 := x.msg.hdr2
    sendCtl (hAcc w2) (bits x.msg.hstat 16 16)
      { kind := .nack, core := hCore w2, ctx := BitVec.ofNat 4 (hCtx w2), inc := BitVec.ofNat 6 (hInc w2),
        seq := hSeq w2, task := hTask w2, hi := false, req := true, mode2 := false,
        reason := if e == .ended then 4 else 6, w1 := replyFall x, w2 := hdr2Core s (hTask w2) k 0 0 0 0, site := 0,
        taken := false } s
  else s

/-- The slots of an activation return to the pool. -/
def freeSlotsOf (ns : List Nat) (c : Core) : Core :=
  { c with slots := ns.foldl (fun v n => v.set (n % 4) { v.get ⟨n % 4, Nat.mod_lt _ (by decide)⟩ with held := false }
      (Nat.mod_lt _ (by decide))) c.slots }

/-- Retire the activation `x` of core `k` that is not in its slot any more or leaves it now: what is common to a slot
and a frame. -/
def retireRest (k : Nat) (x : Ctx) (e : EndKind) (s : State) : State :=
  owedNack k x e (staleHeld k x.num x.inc e (releaseHeld k x.num x.inc (updCore k (freeSlotsOf x.slots) s)))

/-- Retire the activation in context `c` of core `k` (05 R112). -/
def retire (k c : Nat) (e : EndKind) (s : State) : State :=
  let x := ctxOf s k c
  if x.status == .free then s
  else
    let s1 := updCtx k c Ctx.freed s
    let s2 := updCore k (fun core => { core with vheld := core.vheld ++ leftRegs core x,
                                                 reuse := core.reuse.filter (fun p => p.ctx.toNat != c),
                                                 watches := core.watches.filter (fun w => w.ctx.toNat != c) }) s1
    retireRest k x e (unhold (.launch k c) { s2 with watches := s2.watches.filter (fun w => !(w.core == k && w.ctx.toNat == c)) })

/-- Write the error record of an event of an activation (15 R351). -/
def errOfCtx (k : Nat) (x : Ctx) (code : Nat) (dbl ret : Bool) (pc v : W64) (s : State) : State :=
  errRecord x.task code dbl ret (errCore k x.num.toNat x.inc.toNat) pc v x.msg.hdr0 x.msg.hdr2 (cycOf s x) s

/-! ## The end of a launch (06 R147) -/

/-- Retire every activation of a launch on core `k`, in slots and in frames. -/
def killActs (k : Nat) (task : BitVec 12) (s : State) : State :=
  let s1 := (List.range 16).foldl (fun s c =>
    let x := ctxOf s k c
    if x.status != .free && x.task == task then retire k c .stopped s else s) s
  let frames := (coreOf s1 k).parked.filter (fun p => p.task == task)
  let s2 := updCore k (fun c => { c with parked := c.parked.filter (fun p => p.task != task) }) s1
  frames.foldl (fun s p => retireRest k p.saved .stopped s) s2

/-- A deque without the records and the outstanding steal of a launch. -/
def Deque.without (task : BitVec 12) (q : Deque) : Deque :=
  let q1 := if q.task == task then { q with recs := [] } else q
  if q.pend && q.thief == task then { q1 with pend := false, room := 0 } else q1

/-- Retire what runs of a launch on core `k`, discard what the launch holds there, the fallback activations that retirement has queued
among it, and drop the launch from the core (06 R147). -/
def clearCore (k : Nat) (task : BitVec 12) (s : State) : State :=
  let s1 := killActs k task s
  let c := coreOf s1 k
  let qs := ((resOf c task).map (fun r => r.low ++ r.high)).getD []
  let gone := (c.out.filter (fun e => e.task == task)).map (fun e => e.num)
  let s2 := qs.foldl (fun s q => discard k q 6 s) s1
  let s3 := updCore k (fun c =>
    { c with res := c.res.filter (fun r => r.task != task), out := c.out.filter (fun e => e.task != task), reserve := c.reserve.filter (fun p => p.2 != task),
             answers := c.answers.filter (fun q => hTask q.msg.w2 != task), deque := c.deque.without task }) s2
  let lost (f : Flight) : Bool := match f.org with
    | .out k' n => k' == k && gone.contains n
    | _ => false
  { s3 with flights := s3.flights.filter (fun f => !lost f) }

/-- Whether engine operations of a launch have still to land on some core. -/
def cmdsLeft (s : State) (l : Launch) : Bool :=
  (launchCores l).any (fun k => (coreCmds (coreOf s k)).any (fun q => q.task == l.task))

/-- The launch is over: its doom, if one there was, and ENDED go into its error queue, and it leaves the module;
records that wait for a fault wait on (15 R425). -/
def finishLaunch (task : BitVec 12) (s : State) : State :=
  match launchOf s task with
  | none => s
  | some l =>
    let s1 := match l.doomed with
      | some (code, va) => errRecord task code false false errCtl 0 va 0 0 0 { s with
          launches := s.launches.map (fun x => if x.task == task then { x with doomed := none } else x) }
      | none => s
    let s2 := errRecord task 0x13 false false errCtl 0 0 0 0 0 s1
    let left := (s2.launches.find? (fun x => x.task == task)).filter (fun x => !x.errPend.isEmpty)
    { s2 with launches := s2.launches.filter (fun x => x.task != task), tails := s2.tails ++ left.toList,
              holds := s2.holds.filter (fun h => match h.key with
                | .err t => t != task || left.isSome
                | .seed t => t != task
                | .hint t => t != task
                | .entry _ _ t => t != task
                | .inbox _ t => t != task
                | .slot _ t => t != task
                | .region _ t => t != task
                | .red _ t => t != task
                | _ => true) }

/-- The records of a launch at the memory agents are discarded: held contributions end with ABORTED (12 R282). -/
def abortReds (task : BitVec 12) (s : State) : State :=
  let mine := s.reds.filter (fun r => r.task == task)
  let s1 := { s with reds := s.reds.filter (fun r => r.task != task) }
  (mine.flatMap (fun r => r.parts)).foldl (fun s p => answerRed p.src 0x8000 p.va s) s1

/-- The receive queues bound to a launch are discarded, and each credit that a buffer holds is returned (13 R307). -/
def dropQueues (task : BitVec 12) (s : State) : State :=
  let mine := s.net.queues.filter (fun p => p.2.bound == some task)
  let s1 := { s with net := { s.net with
    queues := s.net.queues.map (fun p => if p.2.bound == some task then (p.1, { bound := none, bufs := [], landNum := p.2.landNum }) else p),
    landings := s.net.landings.filter (fun x => x.ended.isSome || !x.buf.any (fun b => b.task == task)) } }
  let bufs := mine.flatMap (fun p => p.2.bufs) ++
    ((s.net.landings.filter (fun x => x.ended.isNone)).filterMap (fun x => x.buf)).filter (fun b => b.task == task)
  bufs.foldl (fun s b => if bit b.wc 2 then credit b.core b.task 1 s else s) s1

/-- Whether the device forms the messages of an origin itself: what of them is in the mesh goes with its launch. -/
def formedHere (o : Origin) : Bool :=
  match o with
  | .out _ _ => false
  | .outside => false
  | _ => true

/-- End the launch of a task on this module (06 R147, 14 R344). -/
def endLaunch (task : BitVec 12) (s : State) : State :=
  match launchOf s task with
  | none => s
  | some l =>
    if l.ending then s
    else
      let s1 := (launchCores l).foldl (fun s k => clearCore k task s) s
      let s2 := abortReds task (dropQueues task (unconfigure task s1))
      let s3 := { s2 with
        evq := s2.evq.filter (fun e => e.task != task), waiters := s2.waiters.filter (fun w => w.task != task),
        arrivals := s2.arrivals.filter (fun a => a.task != task), rounds := s2.rounds.filter (fun r => r.task != task),
        roundNum := s2.roundNum.filter (fun p => p.1 != task), steals := s2.steals.filter (fun t => t.task != task),
        launches := s2.launches.map (fun x => if x.task == task then { x with ending := true, seedWait := false } else x),
        flights := s2.flights.filter (fun f => !(hTask f.msg.w2 == task && formedHere f.org)) }
      if cmdsLeft s3 l then s3 else finishLaunch task s3

end Sys2Proof.Machine
end

