-- ==== Sys2Proof/Machine/Operands.lean ====
section
/-! DEFINITION. Operand forms: the HX run of an instruction (03 R60 to R63), immediates and their extension (03 R61),
bit fields (04 R87) and the operations of the register and immediate ALU (04 R82). -/
namespace Sys2Proof.Machine

/-! ## HX runs -/

/-- What a run of HX words asks for: the values of HX.IMM in order, the rounding mode, the sources to keep, HX.NT, and
the priority. -/
structure Hx where
  imms : List Nat
  rnd : Option Nat
  reuse : Nat
  nt : Bool
  pri : Option Bool
  deriving DecidableEq, Repr

/-- One HX word (03 R60). -/
def hxAdd (h : Hx) (w : W32) : Hx :=
  let v := w.toNat % 2 ^ 21
  match w.toNat / 2 ^ 21 % 16 with
  | 0 => { h with imms := h.imms ++ [v] }
  | 1 => { h with rnd := some (v % 8) }
  | 2 => { h with reuse := v % 8 }
  | 3 => { h with nt := true }
  | 4 => { h with pri := some (v % 2 == 1) }
  | _ => h

/-- The run before the instruction of the context in focus. -/
def hxOf (s : State) : Hx := s.ctx.run.foldl hxAdd { imms := [], rnd := none, reuse := 0, nt := false, pri := none }

/-- A field of width `f` with the HX.IMM values before it: the operand and its width, at most 64 (03 R61). -/
def extended (imms : List Nat) (f v : Nat) : Nat × Nat :=
  match imms with
  | [] => (v, f)
  | [h] => (h * 2 ^ f + v, min 64 (f + 21))
  | h1 :: h2 :: _ => (h1 * 2 ^ (f + 21) + h2 * 2 ^ f + v, min 64 (f + 42))

/-- A signed immediate of the instruction in focus. -/
def immS (s : State) (f v : Nat) : W64 :=
  let p := extended (hxOf s).imms f v
  sext p.1 p.2

/-- An unsigned immediate. -/
def immU (s : State) (f v : Nat) : W64 := w64 (extended (hxOf s).imms f v).1

/-- The rounding mode of an instruction that rounds (02 R27, R28; 03 R60). -/
def rndOf (s : State) : Nat := (hxOf s).rnd.getD s.ctx.fprnd.toNat

/-- The destination word of a message with HX.PRI (05 R118). -/
def withPri (s : State) (w : W64) : W64 :=
  match (hxOf s).pri with
  | some p => setBits w 60 1 (toBit p)
  | none => w

/-! ## ALU (04 R82) -/

/-- The operations of the two ALU majors. -/
inductive AluOp where
  | add | sub | and | or | xor | andn | shl | shr | sar | min | max | minu | maxu | mul | mulh | mulhu
  | div | divu | rem | remu | slt | sltu | seq
  deriving DecidableEq, Repr

/-- Counts of leading zeros, trailing zeros and ones among `n` bits. -/
def clzOf (n v : Nat) : Nat := if v == 0 then n else n - 1 - Nat.log2 v
def ctzGo : Nat → Nat → Nat
  | 0, _ => 0
  | n + 1, v => if v % 2 == 1 then 0 else 1 + ctzGo n (v / 2)
def ctzOf (n v : Nat) : Nat := ctzGo n v
def popcOf : Nat → Nat → Nat
  | 0, _ => 0
  | n + 1, v => v % 2 + popcOf n (v / 2)

/-- An operation on `n`-bit operands `a` and `b`, as a number below 2^n (04 R82). -/
def alu (n : Nat) (op : AluOp) (a b : Nat) : Nat :=
  let m : Nat := 2 ^ n
  let x := sInt a n
  let y := sInt b n
  let low (i : Int) : Nat := (i % (m : Int)).toNat
  match op with
  | .add => (a + b) % m
  | .sub => (a + m - b) % m
  | .and => a &&& b
  | .or => a ||| b
  | .xor => a ^^^ b
  | .andn => a &&& (m - 1 - b)
  | .shl => a * 2 ^ (b % n) % m
  | .shr => a / 2 ^ (b % n)
  | .sar => low (x / (2 ^ (b % n) : Nat))
  | .min => if x ≤ y then a else b
  | .max => if x ≤ y then b else a
  | .minu => if a ≤ b then a else b
  | .maxu => if a ≤ b then b else a
  | .mul => a * b % m
  | .mulh => low (x * y / (m : Int))
  | .mulhu => a * b / m
  | .div => if b == 0 then m - 1 else low (Int.tdiv x y)
  | .divu => if b == 0 then m - 1 else a / b
  | .rem => if b == 0 then a else low (Int.tmod x y)
  | .remu => if b == 0 then a else a % b
  | .slt => toBit (x < y)
  | .sltu => toBit (a < b)
  | .seq => toBit (a == b)

/-- The 64-bit form. -/
def alu64 (op : AluOp) (a b : W64) : W64 := w64 (alu 64 op a.toNat b.toNat)

/-- The .W form: the low 32 bits, the result sign-extended (04 R81). -/
def alu32 (op : AluOp) (a b : W64) : W64 := sext (alu 32 op (bits a 0 32) (bits b 0 32)) 32

/-- `OP wd, wa, wb` and `OPI wd, wa, imm`. -/
def aluReg (op : AluOp) (sw : Bool) (d a b : BitVec 4) (s : State) : State :=
  finish sw (writeW d (alu64 op (readW s a) (readW s b)) s)
def aluRegW (op : AluOp) (sw : Bool) (d a b : BitVec 4) (s : State) : State :=
  finish sw (writeW d (alu32 op (readW s a) (readW s b)) s)
def aluImm (op : AluOp) (sw : Bool) (d a : BitVec 4) (imm : BitVec 13) (s : State) : State :=
  finish sw (writeW d (alu64 op (readW s a) (immS s 13 imm.toNat)) s)

/-- One operand: CLZ, CTZ and POPC. -/
def countReg (f : Nat → Nat → Nat) (sw : Bool) (d a : BitVec 4) (s : State) : State :=
  finish sw (writeW d (w64 (f 64 (readW s a).toNat)) s)
def countRegW (f : Nat → Nat → Nat) (sw : Bool) (d a : BitVec 4) (s : State) : State :=
  finish sw (writeW d (sext (f 32 (bits (readW s a) 0 32)) 32) s)

/-! ## Bit fields (04 R87) -/

/-- The field of `len` bits at `pos`. -/
def bfield (v : W64) (pos len : Nat) : Nat := bits v pos len

/-- BFI: the low `len` bits of `x` in place of the field of `v`. -/
def binsert (v x : W64) (pos len : Nat) : W64 := setBits v pos len (bits x 0 len)

end Sys2Proof.Machine
end

