-- ==== Sys2Proof/Machine/Ops.lean ====
section
/-! DEFINITION. The named operations that the meanings share: taking a trap and returning from one (15 R348, R369), the
checks of 03 R59 in their order, global accesses of a context (07 R150, 15 R352 to R357), control transfers (03 R43,
R48) and the fetch of a word (03 R43, R44). -/
namespace Sys2Proof.Machine

/-- What a meaning answers. -/
abbrev Out := Host.Outcome State Fault Refusal

/-! ## Traps (15 R348) -/

/-- w12 to w15 of the window are exchanged with TSAVE0 to TSAVE3 (15 R348, R369). -/
def swapSaved (c : Ctx) : Ctx :=
  let old (j : Nat) : W64 := c.reg (BitVec.ofNat 4 (12 + j))
  let t := c.trap.tsave
  { (((c.setReg 12 (t.get 0)).setReg 13 (t.get 1)).setReg 14 (t.get 2)).setReg 15 (t.get 3) with
    trap := { c.trap with tsave := #v[old 0, old 1, old 2, old 3] } }

/-- The copies of w12 to w15 go with the exchange (09 R200). -/
def forgetSaved (s : State) : State :=
  forget s.ctx.num true (fun e => [12, 13, 14, 15].any (fun j => (winIx s.ctx.depth j).val == e)) s

/-- Trap entry of a context that is not in a trap and whose core has a vector. -/
def enterTrap (cause : Nat) (value pc vec : W64) (c : Ctx) : Ctx :=
  let c1 := { c with trap := { c.trap with trapc := w64 cause, trappc := pc, trapv := value, prev := c.trap.level,
                                           level := true, intrap := true } }
  { swapSaved c1 with pc := vec, run := [], gcount := 0, since := none, got := none, fva := none, xfail := none,
                      status := .ready }

/-- A trap is taken by the context in focus at the address `pc`, the writes before it having been delivered: entry,
or a double trap, which kills the activation (15 R348). -/
def trapAt (cause : Nat) (value pc : W64) (s : State) : State :=
  if s.ctx.trap.intrap || s.core.regs.tvec == 0 then
    let x := s.ctx
    let k := s.core.id
    errOfCtx k x cause true true pc value (retire k x.num.toNat .killed s)
  else { forgetSaved s with ctx := enterTrap cause value pc s.core.regs.tvec s.ctx }

/-- An instruction of the context in focus raises a trap: the group's earlier writes are delivered first (03 R49). -/
def raise (cause : Nat) (value : W64) (s : State) : State :=
  let pc := instrPc s.ctx
  trapAt cause value pc (deliver s)

/-- The return from a trap at the close of TRET's group (15 R369). -/
def trapReturn (pc : W64) (c : Ctx) : Ctx :=
  let c1 := swapSaved c
  { c1 with pc := pc, run := [], gcount := 0, status := .ready,
            trap := { c1.trap with level := c1.trap.prev, intrap := false } }

/-- The messages held for an activation, oldest first (05 R113): group releases for GARRW, or all others. -/
def heldFor (c : Core) (x : Ctx) (release : Bool) : List Held :=
  c.held.filter (fun h => h.ctx == x.num && h.inc == x.inc && ((h.q.owed == .reply) == release))

/-! ## Checks at issue (03 R59) -/

/-- The word of an instruction, as TRAPV receives it (15 R349). -/
def insn (n : Nat) : W64 := w64 n

/-- Check 1: an operand or word that the entry refuses raises ILLEGAL. -/
def legal (ok : Bool) (value : W64) (k : State → State) (s : State) : State := if ok then k s else raise 0x01 value s
/-- Check 2: a unit that the part lacks raises ABSENT (03 R58). -/
def present (ok : Bool) (word : W64) (k : State → State) (s : State) : State := if ok then k s else raise 0x09 word s
/-- Check 3: a privileged instruction raises PRIV at user level (15 R346). -/
def system (word : W64) (k : State → State) (s : State) : State := if s.ctx.trap.level then k s else raise 0x02 word s
/-- Check 4: a register at or above its declared count raises RESOURCE (03 R55). -/
def declared (ok : Bool) (word : W64) (k : State → State) (s : State) : State := if ok then k s else raise 0x0E word s
/-- Check 6: a value that is not a multiple of `n` raises MISALIGN. -/
def aligned (v : W64) (n : Nat) (k : State → State) (s : State) : State := if v.toNat % n == 0 then k s else raise 0x03 v s
/-- Check 7: a core access that names another accelerator raises REMOTE. -/
def onModule (va : W64) (k : State → State) (s : State) : State := if vaAccel va == s.accel.toNat then k s else raise 0x04 va s
/-- Check 9: uncorrectable data raises DATAERR with the address or offset. -/
def clean (bad : Bool) (va : W64) (k : State → State) (s : State) : State := if bad then raise 0x07 va s else k s

/-! ## Global accesses of the context in focus -/

/-- The keys of the bytes of an access, or the first request that no cached leaf allows. -/
def pieceKeys (s : State) (rd wr : Bool) : List (W64 × Nat) → Except Req (List Nat)
  | [] => .ok []
  | (va, n) :: r =>
    match cachedKey s (dataReq s va rd wr) with
    | none => .error (dataReq s va rd wr)
    | some key => (pieceKeys s rd wr r).map (fun ks => (List.range n).map (fun i => key + i) ++ ks)

/-- A request that misses: the FAULT path at once for an absent die, otherwise a walk (07 R150, 15 R357). -/
def miss (q : Req) (s : State) : State := if dieAbsent s (vaDie q.va) then raise 0x0F q.va s else startWalk q s

/-- Checks 7 and 8 of an access, then the access with the keys of its bytes. -/
def access (va : W64) (n : Nat) (rd wr : Bool) (k : List Nat → State → State) (s : State) : State :=
  onModule va (fun s =>
    match pieceKeys s rd wr (pieces va n) with
    | .ok ks => k ks (if rd then sawAt ks s else s)
    | .error q => miss q s) s

/-- The bytes at keys, as a load of the core returns them. -/
def viewAt (s : State) (ks : List Nat) : List Byte := ks.map (viewByte s)

/-- Whether one of the bytes at these keys is uncorrectable for the core. -/
def poisonAt (s : State) (ks : List Nat) : Bool := ks.any (fun k => viewPoison s k 1)

/-- A load: checks 7 to 9, then the bytes. -/
def loadBytes (va : W64) (n : Nat) (k : List Byte → State → State) (s : State) : State :=
  access va n true false (fun ks s => clean (poisonAt s ks) va (k (viewAt s ks)) s) s

/-- A store: checks 7 and 8, then the bytes enter the store buffer. -/
def storeBytes (va : W64) (bs : List Byte) (k : State → State) (s : State) : State :=
  access va bs.length false true (fun ks s => k (storeGlobal (ks.zip bs) s)) s

/-! ## Control transfers (03 R43, R45, R48) -/

/-- A control-transfer instruction that is not taken closes its group and goes on behind itself. -/
def fallThrough (s : State) : State := close (.go (s.ctx.pc + 4)) s

/-- A taken transfer: its target is checked at the transferring instruction, then the group closes. -/
def transfer (target : W64) (a : CloseAct) (s : State) : State :=
  aligned target 4 (fun s => onModule target (close a) s) s

/-! ## Fetch (03 R43, R44) -/

/-- What a fetch gives: a word, a walk to wait for, or a trap. -/
inductive Fetched where
  | word (w : W32)
  | miss (q : Req)
  | trap (cause : Nat)
  deriving DecidableEq, Repr

/-- The word at a key as the instruction cache gives it: a cached word that memory no longer holds may be seen or not
(03 R44; assumption 2). -/
def cachedWord (s : State) (key : Nat) : W32 :=
  let now := w32 (ofBytes (memRead s.mem key 4))
  match alGet? s.core.icache key with
  | some w => if w == now then w else if Config.staleFetch s.freeNum then w else now
  | none => now

/-- Fetch the word at the pc of the context in focus. DESIGN CHOICE: a pc that names another module without a control
transfer (the word behind the last of the module, the return of TRET) raises REMOTE at the fetch with TRAPV that pc
(assumption 123). -/
def fetchAt (s : State) (va : W64) : Fetched :=
  if vaAccel va != s.accel.toNat then .trap 0x04
  else if dieAbsent s (vaDie va) then .trap 0x0F
  else match cachedKey s (fetchReq s va) with
    | none => .miss (fetchReq s va)
    | some key => if anyPoison s.poison key 4 then .trap 0x07 else .word (cachedWord s key)

/-- The cache with room for the word of a key: where it is full, a word that the manual does not name leaves it (assumption 2). -/
def icacheRoom (s : State) (key : Nat) : List (Nat × W32) :=
  if (alGet? s.core.icache key).isSome || s.core.icache.length < icacheWords then s.core.icache
  else s.core.icache.eraseIdx (Config.victim s.freeNum % icacheWords)

/-- The instruction cache keeps what was fetched, and a free value drawn is used up. -/
def keepWord (s : State) (va : W64) (w : W32) : State :=
  match cachedKey s (fetchReq s va) with
  | none => s
  | some key =>
    let now := w32 (ofBytes (memRead s.mem key 4))
    let drew := match alGet? s.core.icache key with
      | some x => x != now
      | none => icacheWords ≤ s.core.icache.length
    { s with core := { s.core with icache := alPut (icacheRoom s key) key w }, freeNum := s.freeNum + toBit drew }

end Sys2Proof.Machine
end

