-- ==== Sys2Proof/Machine/Scalar.lean ====
section
/-! DEFINITION. Scalar, address and control instructions (04 R80 to R93) and the HX words (03 R60 to R63). -/
namespace Sys2Proof.Machine

/-! ## Register ALU (04 R81, R82) -/

/-- ADD wd, wa, wb (04 R82). -/
def execAdd (sw : Bool) (d a b : BitVec 4) (s : State) : Out := .next (aluReg .add sw d a b s)
/-- ADD.W wd, wa, wb (04 R81, R82). -/
def execAddW (sw : Bool) (d a b : BitVec 4) (s : State) : Out := .next (aluRegW .add sw d a b s)
/-- SUB wd, wa, wb (04 R82). -/
def execSub (sw : Bool) (d a b : BitVec 4) (s : State) : Out := .next (aluReg .sub sw d a b s)
/-- SUB.W wd, wa, wb (04 R81, R82). -/
def execSubW (sw : Bool) (d a b : BitVec 4) (s : State) : Out := .next (aluRegW .sub sw d a b s)
/-- AND wd, wa, wb (04 R82). -/
def execAnd (sw : Bool) (d a b : BitVec 4) (s : State) : Out := .next (aluReg .and sw d a b s)
/-- AND.W wd, wa, wb (04 R81, R82). -/
def execAndW (sw : Bool) (d a b : BitVec 4) (s : State) : Out := .next (aluRegW .and sw d a b s)
/-- OR wd, wa, wb (04 R82). -/
def execOr (sw : Bool) (d a b : BitVec 4) (s : State) : Out := .next (aluReg .or sw d a b s)
/-- OR.W wd, wa, wb (04 R81, R82). -/
def execOrW (sw : Bool) (d a b : BitVec 4) (s : State) : Out := .next (aluRegW .or sw d a b s)
/-- XOR wd, wa, wb (04 R82). -/
def execXor (sw : Bool) (d a b : BitVec 4) (s : State) : Out := .next (aluReg .xor sw d a b s)
/-- XOR.W wd, wa, wb (04 R81, R82). -/
def execXorW (sw : Bool) (d a b : BitVec 4) (s : State) : Out := .next (aluRegW .xor sw d a b s)
/-- ANDN wd, wa, wb (04 R82). -/
def execAndn (sw : Bool) (d a b : BitVec 4) (s : State) : Out := .next (aluReg .andn sw d a b s)
/-- ANDN.W wd, wa, wb (04 R81, R82). -/
def execAndnW (sw : Bool) (d a b : BitVec 4) (s : State) : Out := .next (aluRegW .andn sw d a b s)
/-- SHL wd, wa, wb (04 R82). -/
def execShl (sw : Bool) (d a b : BitVec 4) (s : State) : Out := .next (aluReg .shl sw d a b s)
/-- SHL.W wd, wa, wb (04 R81, R82). -/
def execShlW (sw : Bool) (d a b : BitVec 4) (s : State) : Out := .next (aluRegW .shl sw d a b s)
/-- SHR wd, wa, wb (04 R82). -/
def execShr (sw : Bool) (d a b : BitVec 4) (s : State) : Out := .next (aluReg .shr sw d a b s)
/-- SHR.W wd, wa, wb (04 R81, R82). -/
def execShrW (sw : Bool) (d a b : BitVec 4) (s : State) : Out := .next (aluRegW .shr sw d a b s)
/-- SAR wd, wa, wb (04 R82). -/
def execSar (sw : Bool) (d a b : BitVec 4) (s : State) : Out := .next (aluReg .sar sw d a b s)
/-- SAR.W wd, wa, wb (04 R81, R82). -/
def execSarW (sw : Bool) (d a b : BitVec 4) (s : State) : Out := .next (aluRegW .sar sw d a b s)
/-- MIN wd, wa, wb (04 R82). -/
def execMin (sw : Bool) (d a b : BitVec 4) (s : State) : Out := .next (aluReg .min sw d a b s)
/-- MIN.W wd, wa, wb (04 R81, R82). -/
def execMinW (sw : Bool) (d a b : BitVec 4) (s : State) : Out := .next (aluRegW .min sw d a b s)
/-- MAX wd, wa, wb (04 R82). -/
def execMax (sw : Bool) (d a b : BitVec 4) (s : State) : Out := .next (aluReg .max sw d a b s)
/-- MAX.W wd, wa, wb (04 R81, R82). -/
def execMaxW (sw : Bool) (d a b : BitVec 4) (s : State) : Out := .next (aluRegW .max sw d a b s)
/-- MINU wd, wa, wb (04 R82). -/
def execMinu (sw : Bool) (d a b : BitVec 4) (s : State) : Out := .next (aluReg .minu sw d a b s)
/-- MINU.W wd, wa, wb (04 R81, R82). -/
def execMinuW (sw : Bool) (d a b : BitVec 4) (s : State) : Out := .next (aluRegW .minu sw d a b s)
/-- MAXU wd, wa, wb (04 R82). -/
def execMaxu (sw : Bool) (d a b : BitVec 4) (s : State) : Out := .next (aluReg .maxu sw d a b s)
/-- MAXU.W wd, wa, wb (04 R81, R82). -/
def execMaxuW (sw : Bool) (d a b : BitVec 4) (s : State) : Out := .next (aluRegW .maxu sw d a b s)
/-- MUL wd, wa, wb (04 R82). -/
def execMul (sw : Bool) (d a b : BitVec 4) (s : State) : Out := .next (aluReg .mul sw d a b s)
/-- MUL.W wd, wa, wb (04 R81, R82). -/
def execMulW (sw : Bool) (d a b : BitVec 4) (s : State) : Out := .next (aluRegW .mul sw d a b s)
/-- MULH wd, wa, wb (04 R82). -/
def execMulh (sw : Bool) (d a b : BitVec 4) (s : State) : Out := .next (aluReg .mulh sw d a b s)
/-- MULH.W wd, wa, wb (04 R81, R82). -/
def execMulhW (sw : Bool) (d a b : BitVec 4) (s : State) : Out := .next (aluRegW .mulh sw d a b s)
/-- MULHU wd, wa, wb (04 R82). -/
def execMulhu (sw : Bool) (d a b : BitVec 4) (s : State) : Out := .next (aluReg .mulhu sw d a b s)
/-- MULHU.W wd, wa, wb (04 R81, R82). -/
def execMulhuW (sw : Bool) (d a b : BitVec 4) (s : State) : Out := .next (aluRegW .mulhu sw d a b s)
/-- DIV wd, wa, wb (04 R82). -/
def execDiv (sw : Bool) (d a b : BitVec 4) (s : State) : Out := .next (aluReg .div sw d a b s)
/-- DIV.W wd, wa, wb (04 R81, R82). -/
def execDivW (sw : Bool) (d a b : BitVec 4) (s : State) : Out := .next (aluRegW .div sw d a b s)
/-- DIVU wd, wa, wb (04 R82). -/
def execDivu (sw : Bool) (d a b : BitVec 4) (s : State) : Out := .next (aluReg .divu sw d a b s)
/-- DIVU.W wd, wa, wb (04 R81, R82). -/
def execDivuW (sw : Bool) (d a b : BitVec 4) (s : State) : Out := .next (aluRegW .divu sw d a b s)
/-- REM wd, wa, wb (04 R82). -/
def execRem (sw : Bool) (d a b : BitVec 4) (s : State) : Out := .next (aluReg .rem sw d a b s)
/-- REM.W wd, wa, wb (04 R81, R82). -/
def execRemW (sw : Bool) (d a b : BitVec 4) (s : State) : Out := .next (aluRegW .rem sw d a b s)
/-- REMU wd, wa, wb (04 R82). -/
def execRemu (sw : Bool) (d a b : BitVec 4) (s : State) : Out := .next (aluReg .remu sw d a b s)
/-- REMU.W wd, wa, wb (04 R81, R82). -/
def execRemuW (sw : Bool) (d a b : BitVec 4) (s : State) : Out := .next (aluRegW .remu sw d a b s)
/-- SLT wd, wa, wb (04 R82). -/
def execSlt (sw : Bool) (d a b : BitVec 4) (s : State) : Out := .next (aluReg .slt sw d a b s)
/-- SLT.W wd, wa, wb (04 R81, R82). -/
def execSltW (sw : Bool) (d a b : BitVec 4) (s : State) : Out := .next (aluRegW .slt sw d a b s)
/-- SLTU wd, wa, wb (04 R82). -/
def execSltu (sw : Bool) (d a b : BitVec 4) (s : State) : Out := .next (aluReg .sltu sw d a b s)
/-- SLTU.W wd, wa, wb (04 R81, R82). -/
def execSltuW (sw : Bool) (d a b : BitVec 4) (s : State) : Out := .next (aluRegW .sltu sw d a b s)
/-- SEQ wd, wa, wb (04 R82). -/
def execSeq (sw : Bool) (d a b : BitVec 4) (s : State) : Out := .next (aluReg .seq sw d a b s)
/-- SEQ.W wd, wa, wb (04 R81, R82). -/
def execSeqW (sw : Bool) (d a b : BitVec 4) (s : State) : Out := .next (aluRegW .seq sw d a b s)
/-- CLZ wd, wa (04 R82). -/
def execClz (sw : Bool) (d a : BitVec 4) (s : State) : Out := .next (countReg clzOf sw d a s)
/-- CLZ.W wd, wa. -/
def execClzW (sw : Bool) (d a : BitVec 4) (s : State) : Out := .next (countRegW clzOf sw d a s)
/-- CTZ wd, wa (04 R82). -/
def execCtz (sw : Bool) (d a : BitVec 4) (s : State) : Out := .next (countReg ctzOf sw d a s)
/-- CTZ.W wd, wa. -/
def execCtzW (sw : Bool) (d a : BitVec 4) (s : State) : Out := .next (countRegW ctzOf sw d a s)
/-- POPC wd, wa (04 R82). -/
def execPopc (sw : Bool) (d a : BitVec 4) (s : State) : Out := .next (countReg popcOf sw d a s)
/-- POPC.W wd, wa. -/
def execPopcW (sw : Bool) (d a : BitVec 4) (s : State) : Out := .next (countRegW popcOf sw d a s)
/-- SEL wd, wa, wb, wc (04 R82). -/
def execSel (sw : Bool) (d a b c : BitVec 4) (s : State) : Out :=
  .next (finish sw (writeW d (if readW s c != 0 then readW s a else readW s b) s))
/-- SEL.W wd, wa, wb, wc: the low halves, sign-extended. -/
def execSelW (sw : Bool) (d a b c : BitVec 4) (s : State) : Out :=
  .next (finish sw (writeW d (sext (bits (if bits (readW s c) 0 32 != 0 then readW s a else readW s b) 0 32) 32) s))

/-! ## Immediates and constants (04 R83 to R85) -/

/-- ADDI wd, wa, imm (04 R83). -/
def execAddi (sw : Bool) (d a : BitVec 4) (imm : BitVec 13) (s : State) : Out := .next (aluImm .add sw d a imm s)
/-- ANDI wd, wa, imm (04 R83). -/
def execAndi (sw : Bool) (d a : BitVec 4) (imm : BitVec 13) (s : State) : Out := .next (aluImm .and sw d a imm s)
/-- ORI wd, wa, imm (04 R83). -/
def execOri (sw : Bool) (d a : BitVec 4) (imm : BitVec 13) (s : State) : Out := .next (aluImm .or sw d a imm s)
/-- XORI wd, wa, imm (04 R83). -/
def execXori (sw : Bool) (d a : BitVec 4) (imm : BitVec 13) (s : State) : Out := .next (aluImm .xor sw d a imm s)
/-- SLTI wd, wa, imm (04 R83). -/
def execSlti (sw : Bool) (d a : BitVec 4) (imm : BitVec 13) (s : State) : Out := .next (aluImm .slt sw d a imm s)
/-- SLTUI wd, wa, imm (04 R83). -/
def execSltui (sw : Bool) (d a : BitVec 4) (imm : BitVec 13) (s : State) : Out := .next (aluImm .sltu sw d a imm s)
/-- SEQI wd, wa, imm (04 R83). -/
def execSeqi (sw : Bool) (d a : BitVec 4) (imm : BitVec 13) (s : State) : Out := .next (aluImm .seq sw d a imm s)
/-- MULI wd, wa, imm (04 R83). -/
def execMuli (sw : Bool) (d a : BitVec 4) (imm : BitVec 13) (s : State) : Out := .next (aluImm .mul sw d a imm s)

/-- A shift by an immediate: outside 0 to 63 after any extension it raises ILLEGAL (04 R83). -/
def shiftImm (op : AluOp) (word : Nat) (sw : Bool) (d a : BitVec 4) (imm : BitVec 13) (s : State) : State :=
  legal ((immS s 13 imm.toNat).toNat < 64) (insn word) (aluImm op sw d a imm) s

/-- SHLI wd, wa, imm (04 R83). -/
def execShli (sw : Bool) (d a : BitVec 4) (imm : BitVec 13) (s : State) : Out :=
  .next (shiftImm .shl (encShli sw d a imm) sw d a imm s)
/-- SHRI wd, wa, imm (04 R83). -/
def execShri (sw : Bool) (d a : BitVec 4) (imm : BitVec 13) (s : State) : Out :=
  .next (shiftImm .shr (encShri sw d a imm) sw d a imm s)
/-- SARI wd, wa, imm (04 R83). -/
def execSari (sw : Bool) (d a : BitVec 4) (imm : BitVec 13) (s : State) : Out :=
  .next (shiftImm .sar (encSari sw d a imm) sw d a imm s)

/-- LIM wd, imm (04 R84). -/
def execLim (sw : Bool) (d : BitVec 4) (imm : BitVec 21) (s : State) : Out :=
  .next (finish sw (writeW d (immS s 21 imm.toNat) s))
/-- LIMT wd, imm: bits [63:43] of wd (04 R85). -/
def execLimt (sw : Bool) (d : BitVec 4) (imm : BitVec 21) (s : State) : Out :=
  .next (finish sw (writeW d (setBits (readW s d) 43 21 imm.toNat) s))

/-! ## Address arithmetic and bit fields (04 R86, R87) -/

/-- LEA wd, wa, wb, sh (04 R86). -/
def execLea (sw : Bool) (d a b : BitVec 4) (h : BitVec 5) (s : State) : Out :=
  .next (finish sw (writeW d (readW s a + readW s b <<< h.toNat) s))

/-- The limits of BFX and BFI: pos + len at most 64, and no bit above bit 12 after extension (04 R87). -/
def bfOk (s : State) (l p : BitVec 6) : Bool := p.toNat + l.toNat + 1 ≤ 64 && (hxOf s).imms.all (fun h => h == 0)

/-- BFX wd, wa, pos, len (04 R87). -/
def execBfx (sw : Bool) (d a : BitVec 4) (l p : BitVec 6) (s : State) : Out :=
  .next (legal (bfOk s l p) (insn (encBfx sw d a l p))
    (fun s => finish sw (writeW d (w64 (bfield (readW s a) p.toNat (l.toNat + 1))) s)) s)
/-- BFX.S wd, wa, pos, len (04 R87). -/
def execBfxS (sw : Bool) (d a : BitVec 4) (l p : BitVec 6) (s : State) : Out :=
  .next (legal (bfOk s l p) (insn (encBfxS sw d a l p))
    (fun s => finish sw (writeW d (sext (bfield (readW s a) p.toNat (l.toNat + 1)) (l.toNat + 1)) s)) s)
/-- BFI wd, wa, pos, len (04 R87). -/
def execBfi (sw : Bool) (d a : BitVec 4) (l p : BitVec 6) (s : State) : Out :=
  .next (legal (bfOk s l p) (insn (encBfi sw d a l p))
    (fun s => finish sw (writeW d (binsert (readW s d) (readW s a) p.toNat (l.toNat + 1)) s)) s)

/-! ## Branches, calls and returns (04 R74 to R77, R88 to R90) -/

/-- The target of a branch: its address + 4 × the extended offset (04 R88, R89). -/
def branchTarget (s : State) (f v : Nat) : W64 := s.ctx.pc + (immS s f v) * 4

/-- A conditional branch closes its group, taken or not (03 R45). -/
def branch (taken : Bool) (o : BitVec 14) (s : State) : State :=
  if taken then transfer (branchTarget s 14 o.toNat) (.go (branchTarget s 14 o.toNat)) s else fallThrough s

/-- BEQ wa, wb, label (04 R88). -/
def execBeq (a b : BitVec 4) (o : BitVec 14) (s : State) : Out := .next (branch (readW s a == readW s b) o s)
/-- BNE wa, wb, label (04 R88). -/
def execBne (a b : BitVec 4) (o : BitVec 14) (s : State) : Out := .next (branch (readW s a != readW s b) o s)
/-- BLT wa, wb, label (04 R88). -/
def execBlt (a b : BitVec 4) (o : BitVec 14) (s : State) : Out := .next (branch (BitVec.slt (readW s a) (readW s b)) o s)
/-- BGE wa, wb, label (04 R88). -/
def execBge (a b : BitVec 4) (o : BitVec 14) (s : State) : Out := .next (branch (!BitVec.slt (readW s a) (readW s b)) o s)
/-- BLTU wa, wb, label (04 R88). -/
def execBltu (a b : BitVec 4) (o : BitVec 14) (s : State) : Out := .next (branch (decide (readW s a < readW s b)) o s)
/-- BGEU wa, wb, label (04 R88). -/
def execBgeu (a b : BitVec 4) (o : BitVec 14) (s : State) : Out := .next (branch (!decide (readW s a < readW s b)) o s)
/-- BEQZ wa, label (04 R88). -/
def execBeqz (a : BitVec 4) (o : BitVec 14) (s : State) : Out := .next (branch (readW s a == 0) o s)
/-- BNEZ wa, label (04 R88). -/
def execBnez (a : BitVec 4) (o : BitVec 14) (s : State) : Out := .next (branch (readW s a != 0) o s)
/-- B label (04 R89). -/
def execJump (o : BitVec 25) (s : State) : Out :=
  .next (transfer (branchTarget s 25 o.toNat) (.go (branchTarget s 25 o.toNat)) s)

/-- A call: SPILL before any effect (04 R76), then the checks of its target, then the close with the return PC. -/
def callTo (target : W64) (s : State) : State :=
  if s.ctx.depth + 3 > 8 + s.ctx.sb then raise 0x05 (if s.ctx.sb == 16 then 1 else 0) s
  else transfer target (.call target (s.ctx.pc + 4)) s

/-- CALL label (04 R74, R89). -/
def execCall (o : BitVec 25) (s : State) : Out := .next (callTo (branchTarget s 25 o.toNat) s)
/-- CALLR wa (04 R74, R90). -/
def execCallr (a : BitVec 4) (s : State) : Out := .next (callTo (readW s a) s)
/-- JR wa (04 R90). -/
def execJr (a : BitVec 4) (s : State) : Out := .next (transfer (readW s a) (.go (readW s a)) s)
/-- RET: FILL before any effect (04 R77), then the return to w15 (04 R75). -/
def execRet (s : State) : Out :=
  .next (if s.ctx.depth == 0 then raise 0x06 1 s
    else if s.ctx.sb == s.ctx.depth then raise 0x06 0 s
    else transfer (readW s 15) (.ret (readW s 15)) s)
/-- NOP (04 R90). -/
def execNop (sw : Bool) (s : State) : Out := .next (finish sw s)
/-- END: the group closes and the activation retires at the close (04 R90, 05 R112, 15 R350). -/
def execEndAct (s : State) : Out := .next (close .retire s)

/-! ## Special registers (04 R91, R92) -/

/-- MFS wd, NAME: PRIV where user level has no access (04 R92, 15 R346). -/
def execMfs (sw : Bool) (d : BitVec 4) (r : BitVec 8) (s : State) : Out :=
  let go (s : State) : State := finish sw (writeW d (srRead s r.toNat) s)
  .next (if srSystemOnly r.toNat then system (insn (encMfs sw d r)) go s else go s)
/-- MTS NAME, wa: the write takes effect at the close of the group; STKDAT writes the entry that STKIX names before the
group (15 R347). -/
def execMts (sw : Bool) (d : BitVec 4) (r : BitVec 8) (s : State) : Out :=
  let w (s : State) : RegWrite := if r == 0xAD then .stk s.ctx.trap.stkix (readW s d) else .sreg r.toNat (readW s d)
  let go (s : State) : State := finish sw (put (w s) s)
  .next (if srSystemOnly r.toNat then system (insn (encMts sw d r)) go s else go s)

/-! ## HX words: each is gathered into the run of the instruction behind it (03 R60 to R63) -/

/-- A word joins the run. -/
def gather (w : Nat) (s : State) : State :=
  { s with ctx := { s.ctx with pc := s.ctx.pc + 4, run := s.ctx.run ++ [w32 w] } }

/-- HX.IMM (03 R61). -/
def execHxImm (v : BitVec 21) (s : State) : Out := .next (gather (encHxImm v) s)
/-- HX.RND. -/
def execHxRnd (m : BitVec 3) (s : State) : Out := .next (gather (encHxRnd m) s)
/-- HX.REUSE: it never changes a result (03 R60). -/
def execHxReuse (k : BitVec 3) (s : State) : Out := .next (gather (encHxReuse k) s)
/-- HX.NT: it never changes a result or an ordering (03 R60). -/
def execHxNt (s : State) : Out := .next (gather encHxNt s)
/-- HX.PRI. -/
def execHxPri (p : BitVec 1) (s : State) : Out := .next (gather (encHxPri p) s)

end Sys2Proof.Machine
end

