-- ==== Sys2Proof/Machine/Float.lean ====
section
/-! DEFINITION. Number formats and exact arithmetic (02 R15 to R25): a value is decoded exactly, computed exactly, and
rounded once into its destination format. -/
namespace Sys2Proof.Machine

/-- An exact value: NaN, an infinity, or ±m × 2^e (a zero keeps its sign). -/
inductive Fp where
  | nan
  | inf (neg : Bool)
  | fin (neg : Bool) (m : Nat) (e : Int)
  deriving DecidableEq, Repr

/-- A floating-point format of 02 R15: fraction bits, exponent bits, bias, whether it has infinities, the encodings of
its largest finite value and of its canonical NaN. -/
structure Fmt where
  fbits : Nat
  ebits : Nat
  bias : Nat
  hasInf : Bool
  maxEnc : Nat
  nanEnc : Nat
  deriving DecidableEq, Repr

def fp32 : Fmt := { fbits := 23, ebits := 8, bias := 127, hasInf := true, maxEnc := 0x7F7FFFFF, nanEnc := 0x7FC00000 }
def bf16 : Fmt := { fbits := 7, ebits := 8, bias := 127, hasInf := true, maxEnc := 0x7F7F, nanEnc := 0x7FC0 }
def fp16 : Fmt := { fbits := 10, ebits := 5, bias := 15, hasInf := true, maxEnc := 0x7BFF, nanEnc := 0x7E00 }
def e4m3 : Fmt := { fbits := 3, ebits := 4, bias := 7, hasInf := false, maxEnc := 0x7E, nanEnc := 0x7F }
def e5m2 : Fmt := { fbits := 2, ebits := 5, bias := 15, hasInf := true, maxEnc := 0x7B, nanEnc := 0x7E }

/-- The format of a code of 02 R23 that names a floating-point format. -/
def fmtOf (code : Nat) : Fmt :=
  match code with
  | 2 => bf16
  | 3 => fp16
  | 4 => e4m3
  | 5 => e5m2
  | _ => fp32

/-- Bits of a format. -/
def Fmt.width (f : Fmt) : Nat := 1 + f.ebits + f.fbits

/-- The encoding of the sign. -/
def signEnc (f : Fmt) (neg : Bool) : Nat := if neg then 2 ^ (f.ebits + f.fbits) else 0

/-- The encoding of +∞. -/
def infEnc (f : Fmt) : Nat := (2 ^ f.ebits - 1) * 2 ^ f.fbits

/-- The value of an encoding (02 R15). -/
def decodeFp (f : Fmt) (n : Nat) : Fp :=
  let neg := n / 2 ^ (f.ebits + f.fbits) % 2 == 1
  let e := n / 2 ^ f.fbits % 2 ^ f.ebits
  let m := n % 2 ^ f.fbits
  let top := 2 ^ f.ebits - 1
  if e == top && f.hasInf then (if m == 0 then .inf neg else .nan)
  else if e == top && m == 2 ^ f.fbits - 1 then .nan
  else if e == 0 then .fin neg m (1 - (f.bias : Int) - f.fbits)
  else .fin neg (2 ^ f.fbits + m) ((e : Int) - f.bias - f.fbits)

/-! ## Flags (02 R29) -/

def fNV : BitVec 6 := 1
def fDZ : BitVec 6 := 2
def fOF : BitVec 6 := 4
def fUF : BitVec 6 := 8
def fNX : BitVec 6 := 16
def fND : BitVec 6 := 32

/-! ## Rounding (02 R17, R18, R27) -/

/-- Whether a discarded part rounds the magnitude up: the kept integer's parity, the part against half a unit. -/
def roundsUp (mode : Nat) (neg odd : Bool) (rest half : Nat) : Bool :=
  match mode with
  | 0 => rest > half || (rest == half && odd)
  | 1 => false
  | 2 => neg && rest != 0
  | 3 => !neg && rest != 0
  | _ => rest ≥ half && rest != 0

/-- m × 2^e as a multiple of 2^q, and whether the value changed. -/
def roundTo (mode : Nat) (neg : Bool) (m : Nat) (e q : Int) : Nat × Bool :=
  if q ≤ e then (m * 2 ^ (e - q).toNat, false)
  else
    let d := (q - e).toNat
    let k := m / 2 ^ d
    let rest := m % 2 ^ d
    (if roundsUp mode neg (k % 2 == 1) rest (2 ^ (d - 1)) then k + 1 else k, rest != 0)

/-- Overflow to infinity or to the largest finite value (02 R18). -/
def overflowEnc (f : Fmt) (mode : Nat) (neg : Bool) : Nat :=
  if !f.hasInf then f.maxEnc
  else match mode with
    | 1 => f.maxEnc
    | 2 => if neg then infEnc f else f.maxEnc
    | 3 => if neg then f.maxEnc else infEnc f
    | _ => infEnc f

/-- round(x, mode) into a format: the encoding and the flags. -/
def roundFp (f : Fmt) (mode : Nat) (x : Fp) : Nat × BitVec 6 :=
  match x with
  | .nan => (f.nanEnc, 0)
  | .inf neg => if f.hasInf then (signEnc f neg + infEnc f, 0) else (signEnc f neg + f.maxEnc, fOF)
  | .fin neg 0 _ => (signEnc f neg, 0)
  | .fin neg m e =>
    let emin : Int := 1 - (f.bias : Int)
    let l : Int := (Nat.log2 m : Int) + e
    let q := max l emin - f.fbits
    let (r, nx) := roundTo mode neg m e q
    let enc := (q - (emin - f.fbits)).toNat * 2 ^ f.fbits + r
    if enc > f.maxEnc then (signEnc f neg + overflowEnc f mode neg, fOF ||| fNX)
    else
      let full := (roundTo mode neg m e (l - f.fbits)).1
      let tiny := l < emin - 1 || (l == emin - 1 && full < 2 ^ (f.fbits + 1))
      (signEnc f neg + enc, (if nx then fNX else 0) ||| (if nx && tiny then fUF else 0))

/-- Round into FP32. -/
def round32 (mode : Nat) (x : Fp) : W32 × BitVec 6 :=
  let r := roundFp fp32 mode x
  (w32 r.1, r.2)

/-- The exact value of an FP32 pattern. -/
def dec32 (w : W32) : Fp := decodeFp fp32 w.toNat

/-! ## Exact operations -/

/-- ±m × 2^e as an integer multiple of 2^q, q ≤ e. -/
def scaledInt (neg : Bool) (m : Nat) (e q : Int) : Int :=
  let v : Int := (m * 2 ^ (e - q).toNat : Nat)
  if neg then -v else v

/-- A signed multiple of 2^q as an exact value; `zneg` is the sign of a zero. -/
def ofScaled (zneg : Bool) (v : Int) (q : Int) : Fp := if v == 0 then .fin zneg 0 q else .fin (v < 0) v.natAbs q

/-- The exact sum, with the sign of an exact zero as IEEE 754 gives it for the mode, and NV for ∞ − ∞. -/
def addFp (mode : Nat) (x y : Fp) : Fp × BitVec 6 :=
  match x, y with
  | .nan, _ => (.nan, 0)
  | _, .nan => (.nan, 0)
  | .inf a, .inf b => if a == b then (.inf a, 0) else (.nan, fNV)
  | .inf a, _ => (.inf a, 0)
  | _, .inf b => (.inf b, 0)
  | .fin a m e, .fin b n g =>
    let q := min e g
    let zneg := if m == 0 && n == 0 && a == b then a else mode == 2
    (ofScaled zneg (scaledInt a m e q + scaledInt b n g q) q, 0)

/-- The value with its sign changed. -/
def negFp (x : Fp) : Fp :=
  match x with
  | .nan => .nan
  | .inf a => .inf (!a)
  | .fin a m e => .fin (!a) m e

/-- The exact product, with NV for ∞ × 0. -/
def mulFp (x y : Fp) : Fp × BitVec 6 :=
  match x, y with
  | .nan, _ => (.nan, 0)
  | _, .nan => (.nan, 0)
  | .inf a, .inf b => (.inf (a != b), 0)
  | .inf a, .fin b n _ => if n == 0 then (.nan, fNV) else (.inf (a != b), 0)
  | .fin a m _, .inf b => if m == 0 then (.nan, fNV) else (.inf (a != b), 0)
  | .fin a m e, .fin b n g => (.fin (a != b) (m * n) (e + g), 0)

/-- One of the two copies that a T2P8 element makes of an operand: shifted by the term's code, +0 for an absent term
(02 R22). -/
def t2p8Copy (x : Fp) (t : Nat) : Fp :=
  match x with
  | .fin a m e => if t == 15 then .fin false 0 0 else .fin (a != decide (8 ≤ t)) m (e - (t % 8 : Nat))
  | y => y

/-- A quotient or root that is not a multiple of a power of two, as a value with 64 further bits and a sticky bit: it
rounds into every format as the exact value does. -/
def sticky (neg : Bool) (q : Nat) (rest : Bool) (e : Int) : Fp := .fin neg (2 * q + toBit rest) (e - 1)

/-- The quotient, with NV for 0/0 and ∞/∞ and DZ for a finite nonzero value over zero. -/
def divFp (x y : Fp) : Fp × BitVec 6 :=
  match x, y with
  | .nan, _ => (.nan, 0)
  | _, .nan => (.nan, 0)
  | .inf _, .inf _ => (.nan, fNV)
  | .inf a, .fin b _ _ => (.inf (a != b), 0)
  | .fin a _ e, .inf b => (.fin (a != b) 0 e, 0)
  | .fin a m e, .fin b n g =>
    if n == 0 then (if m == 0 then (.nan, fNV) else (.inf (a != b), fDZ))
    else
      let k := 64 + Nat.log2 n + 1
      let num := m * 2 ^ k
      if m == 0 then (.fin (a != b) 0 0, 0) else (sticky (a != b) (num / n) (num % n != 0) (e - g - k), 0)

/-- The integer square root by bits, from the highest down. -/
def isqrtGo : Nat → Nat → Nat → Nat
  | 0, _, r => r
  | n + 1, v, r => if (r + 2 ^ n) * (r + 2 ^ n) ≤ v then isqrtGo n v (r + 2 ^ n) else isqrtGo n v r

/-- The largest r with r² ≤ v. -/
def isqrt (v : Nat) : Nat := isqrtGo (Nat.log2 v / 2 + 1) v 0

/-- The square root, with NV for a negative number other than −0. -/
def sqrtFp (x : Fp) : Fp × BitVec 6 :=
  match x with
  | .nan => (.nan, 0)
  | .inf a => if a then (.nan, fNV) else (.inf false, 0)
  | .fin a m e =>
    if m == 0 then (.fin a 0 e, 0)
    else if a then (.nan, fNV)
    else
      let k : Nat := 130 + (e % 2).toNat
      let v := m * 2 ^ k
      let r := isqrt v
      (sticky false r (r * r != v) ((e - k) / 2), 0)

/-- Multiplication by an E8M0 scale: exact, NaN for 0xFF (02 R20). -/
def scaleFp (x : Fp) (e8 : Nat) : Fp :=
  if e8 == 255 then .nan
  else match x with
    | .fin a m e => .fin a m (e + (e8 : Int) - 127)
    | y => y

/-! ## Elements by format code (02 R19, R21, R23) -/

/-- T × 128 of a four-bit term (02 R21). -/
def termT2p8 (t : Nat) : Int :=
  let v : Int := if t == 15 then 0 else (2 ^ (7 - t % 8) : Nat)
  if t ≥ 8 then -v else v

/-- A T2P8 byte in units of 2^−7 (02 R21). -/
def t2p8Of (b : Nat) : Int := termT2p8 (b / 16 % 16) + termT2p8 (b % 16)

/-- Bits of an element of a format code. -/
def fmtBits (code : Nat) : Nat := if code == 1 || code == 8 then 32 else if code == 2 || code == 3 then 16 else 8

/-- The exact value of an element of a format code. -/
def decodeElem (code n : Nat) : Fp :=
  match code with
  | 6 => ofScaled false (sInt n 8) 0
  | 8 => ofScaled false (sInt n 32) 0
  | 7 => ofScaled false (t2p8Of n) (-7)
  | c => decodeFp (fmtOf c) n

/-- The exact product of two elements; beside a T2P8 element the product is the sum of its two copies (02 R22). -/
def mulElem (fa fb a b : Nat) : Fp × BitVec 6 :=
  let x := decodeElem fa a
  match fb, x with
  | 7, .fin _ _ _ => addFp 0 (t2p8Copy x (b / 16 % 16)) (t2p8Copy x (b % 16))
  | _, _ => mulFp x (decodeElem fb b)

/-- Conversion to an integer of `n` bits (02 R19): rounded, judged, saturated. -/
def toIntFp (n mode : Nat) (x : Fp) : Nat × BitVec 6 :=
  let hi : Int := (2 ^ (n - 1) - 1 : Nat)
  let lo : Int := -((2 ^ (n - 1) : Nat) : Int)
  let enc (i : Int) : Nat := (i % ((2 ^ n : Nat) : Int)).toNat
  match x with
  | .nan => (0, fNV)
  | .inf neg => (enc (if neg then lo else hi), fNV)
  | .fin neg m e =>
    let (r, nx) := roundTo mode neg m e 0
    let v : Int := if neg then -(r : Int) else r
    if v > hi then (enc hi, fNV) else if v < lo then (enc lo, fNV) else (enc v, if nx then fNX else 0)

/-- The magnitude of a value in units of 2^−9, rounded so that comparisons with T2P8 values and their midpoints are
exact: an odd last bit stands for a remainder. -/
def magT2p8 (m : Nat) (e : Int) : Nat :=
  let r := roundTo 1 false m e (-12)
  2 * r.1 + toBit r.2

/-- The magnitudes of the T2P8 values of a sign in units of 2^−7, ascending, 0 among them: a term of −1 is absent, so
that the two signs differ (02 R21). -/
def t2p8Mags (neg : Bool) : List Nat :=
  ((List.range 256).filter (fun b => if neg then t2p8Of b ≤ 0 else 0 ≤ t2p8Of b)).foldl
    (fun acc b => setInsert (t2p8Of b).natAbs acc) []

/-- The lowest byte that encodes a value in units of 2^−7 (07 R157). -/
def t2p8Enc (v : Int) : Nat :=
  ((List.range 256).find? (fun b => t2p8Of b == v)).getD 8

/-- Conversion to T2P8 (07 R157): the nearest value, ties to the smaller magnitude under RNE and RNA, directed modes by
their direction, saturation at ±2, 0x08 for zero and for NaN. -/
def toT2p8 (mode : Nat) (x : Fp) : Nat × BitVec 6 :=
  match x with
  | .nan => (0x08, fNV)
  | .inf neg => (if neg then 0x88 else 0x00, fOF)
  | .fin neg m e =>
    let v := magT2p8 m e
    let u (k : Nat) : Nat := k * 64
    if v > u 256 then (if neg then 0x88 else 0x00, fOF ||| fNX)
    else
      let lo := ((t2p8Mags neg).filter (fun k => u k ≤ v)).getLastD 0
      let hi := ((t2p8Mags neg).filter (fun k => v ≤ u k)).headD 256
      let up := match mode with
        | 1 => false
        | 2 => neg
        | 3 => !neg
        | _ => 2 * v > u lo + u hi
      let k := if lo == hi then lo else if up then hi else lo
      let r : Int := if neg then -(k : Int) else k
      (if k == 0 then 0x08 else t2p8Enc r, if lo == hi then 0 else fNX)

/-- round(x, mode) into the format of a code (02 R18, R19; 07 R157). -/
def encodeElem (code mode : Nat) (x : Fp) : Nat × BitVec 6 :=
  match code with
  | 6 => toIntFp 8 mode x
  | 8 => toIntFp 32 mode x
  | 7 => toT2p8 mode x
  | c => roundFp (fmtOf c) mode x

/-! ## Order -/

/-- Whether an FP32 pattern is a NaN. -/
def isNan32 (w : W32) : Bool := w.toNat % 2 ^ 31 > 0x7F800000

/-- An order key of FP32 patterns that are no NaN: −0 just below +0. -/
def key32 (w : W32) : Int :=
  let m : Int := (w.toNat % 2 ^ 31 : Nat)
  if w.toNat ≥ 2 ^ 31 then -m - 1 else m

/-- The same with −0 equal to +0. -/
def keyEq32 (w : W32) : Int :=
  let m : Int := (w.toNat % 2 ^ 31 : Nat)
  if w.toNat ≥ 2 ^ 31 then -m else m

/-- The combine of 02 R37: a NaN is ignored beside a number; ND tells that one was. -/
def maxmin32 (isMax : Bool) (a b : W32) : W32 × BitVec 6 :=
  if isNan32 a then (if isNan32 b then (0x7FC00000, 0) else (b, fND))
  else if isNan32 b then (a, fND)
  else if isMax then (if key32 a < key32 b then b else a, 0)
  else (if key32 b < key32 a then b else a, 0)

/-- FP32 addition in a mode. -/
def add32 (mode : Nat) (a b : W32) : W32 × BitVec 6 :=
  let s := addFp mode (dec32 a) (dec32 b)
  let r := round32 mode s.1
  (r.1, s.2 ||| r.2)

end Sys2Proof.Machine
end

