-- ==== Sys2Proof/Machine/Lanes.lean ====
section
/-! DEFINITION. The elements of a vector register (09 R196, R198), the issue of a vector instruction into the dispatch
queue (09 R199, R200), block geometry (02 R23, R24) and the shared-scale rule (09 R210). -/
namespace Sys2Proof.Machine

/-! ## Elements (09 R196) -/

/-- Element `i` of width `w` bits. -/
def elem (v : VReg) (w i : Nat) : Nat := v.toNat / 2 ^ (w * i) % 2 ^ w

/-- The number with the elements of a list at width `w`, element 0 lowest. -/
def packElems (w : Nat) : List Nat → Nat
  | [] => 0
  | x :: r => x % 2 ^ w + 2 ^ w * packElems w r

/-- A register from its elements of width `w`. -/
def ofElems (w : Nat) (xs : List Nat) : VReg := BitVec.ofNat 4096 (packElems w xs)

/-- Elements of a register at a width. -/
def lanesOf (w : Nat) : Nat := 4096 / w

/-- Whether the container of element `i` of width `w` is active (09 R198). -/
def active (m : MaskReg) (w i : Nat) : Bool := m.getLsbD (w * i / 32)

/-- A mask from its bits. -/
def ofMask (f : Nat → Bool) : MaskReg :=
  BitVec.ofNat 128 (packElems 1 ((List.range 128).map (fun j => toBit (f j))))

/-- A register whose elements follow `f`; where `f` gives none the old element stays. The flags of all are joined. -/
def buildLanes (w : Nat) (old : VReg) (f : Nat → Option (Nat × BitVec 6)) : VReg × BitVec 6 :=
  let xs := (List.range (lanesOf w)).map f
  (ofElems w (xs.mapIdx (fun i o => (o.map (fun p => p.1)).getD (elem old w i))),
   xs.foldl (fun a o => a ||| ((o.map (fun p => p.2)).getD 0)) 0)

/-- The same for results without flags. -/
def buildPlain (w : Nat) (old : VReg) (f : Nat → Option Nat) : VReg :=
  (buildLanes w old (fun i => (f i).map (fun x => (x, 0)))).1

/-- The bytes of a register (09 R196). -/
def vregBytes (v : VReg) : List Byte := toBytes 512 v.toNat

/-- A register from its bytes. -/
def vregOf (bs : List Byte) : VReg := BitVec.ofNat 4096 (ofBytes bs)

/-! ## Block geometry (02 R24, R26) -/

/-- Elements of a block. -/
def blockSize (geom : Nat) : Nat := if geom == 1 then 16 else if geom == 2 then 32 else 64

/-- emax of 09 R210, by format code. -/
def emaxOf (fmt : Nat) : Int :=
  match fmt with
  | 2 => 127
  | 3 => 15
  | 4 => 8
  | 5 => 15
  | _ => 1

/-- floor(log2 |x|) of a finite nonzero value; an infinity counts as greater than any. -/
def expOf (x : Fp) : Option Int :=
  match x with
  | .nan => none
  | .inf _ => some 100000
  | .fin _ m e => if m == 0 then none else some ((Nat.log2 m : Int) + e)

/-- The shared-scale rule over the values of a block (09 R210). -/
def sharedScale (fmt : Nat) (xs : List Fp) : Nat :=
  match (xs.filterMap expOf).max? with
  | none => 127
  | some l => if l ≥ 100000 then 254 else (min (max (l - emaxOf fmt + 127) 0) 254).toNat

/-- Division by an E8M0 scale: exact, NaN for 0xFF. -/
def unscaleFp (x : Fp) (e8 : Nat) : Fp :=
  if e8 == 255 then .nan
  else match x with
    | .fin a m e => .fin a m (e - ((e8 : Int) - 127))
    | y => y

/-! ## Issue into the vector unit (09 R199, R200) -/

/-- What a source slot reads: a vector register, the general register of a VG form, or vd where the mask leaves some of its
elements unchanged. -/
inductive Src where
  | v (r : BitVec 5)
  | g (r : BitVec 4)
  | rest (r : BitVec 5) (m : BitVec 3)
  deriving DecidableEq, Repr

/-- Whether the slot is read: vd is not where every element of it is written. -/
def srcRead (s : State) : Src → Bool
  | .rest _ m => readM s m != BitVec.allOnes 128
  | _ => true

/-- The copy of a source. -/
def keptOf (s : State) (slot : Nat) : Src → Kept
  | .g r => { slot := slot, ctx := s.ctx.num, gen := true, reg := (winIx s.ctx.depth r.toNat).val, val := (readW s r).setWidth 4096 }
  | .v r => { slot := slot, ctx := s.ctx.num, gen := false, reg := r.toNat, val := readV s r }
  | .rest r _ => { slot := slot, ctx := s.ctx.num, gen := false, reg := r.toNat, val := readV s r }

/-- The copies that HX.REUSE asks to keep, of the sources by slot. -/
def keepSlots (s : State) (srcs : List (Nat × Src)) : List Kept :=
  (srcs.filter (fun p => (hxOf s).reuse / 2 ^ (p.1 - 1) % 2 == 1 && srcRead s p.2)).map (fun p => keptOf s p.1 p.2)

/-- A vector instruction enters the core's dispatch queue; it waits while the queue holds 8. `srcs` are its register
sources by reuse slot. -/
def vecIssue (srcs : List (Nat × Src)) (k : State → State) (s : State) : State :=
  if s.core.vecq.length ≥ 8 then wait .vecQueue s
  else k { s with core := { s.core with vecq := s.core.vecq ++ [(s.ctx.num, s.ctx.inc)], reuse := keepSlots s srcs } }

/-- Whether every vector register named is declared (03 R55). -/
def vecDeclared (s : State) (vs : List (BitVec 5)) : Bool := vs.all (fun v => v.toNat < s.ctx.nv)

/-- Hold a vector result and its flags. -/
def writeV (v : BitVec 5) (r : VReg × BitVec 6) (s : State) : State := flagFp r.2 (put (.vec v r.1) s)

end Sys2Proof.Machine
end

