-- ==== Sys2Proof/Machine/Frame.lean ====
section
/-! DEFINITION. The frame of a parked or saved context (15 R361): its bytes, and what loading it restores. -/
namespace Sys2Proof.Machine

/-- The status word at +0x208. -/
def frameStatus (x : Ctx) (valid : Bool) : W64 :=
  w64 (x.num.toNat + x.inc.toNat * 2 ^ 4 + toBit valid * 2 ^ 10 + x.nv * 2 ^ 11 + x.nl * 2 ^ 17 + x.na * 2 ^ 20 +
    x.task.toNat * 2 ^ 23)

/-- The words from +0x200 to +0x2E8. -/
def frameWords (s : State) (x : Ctx) : List W64 :=
  [x.pc, frameStatus x true, wdepth x, x.fpflags.setWidth 64, x.fprnd.setWidth 64, x.wto, w64 (cycOf s x), w64 x.limit,
   x.msg.hdr0, x.msg.hdr2, x.msg.hdr3, x.msg.hstat, x.msg.hbuf, x.msg.rstat, x.msg.rhdr2, x.msg.rhdr3, x.msg.rfall,
   x.rlstat, x.rtstat, x.msg.sstat, privWord x.trap, x.trap.trapc, x.trap.trappc, x.trap.trapv] ++ x.trap.tsave.toList ++
  [x.trap.asid.setWidth 64, x.trap.stkix.setWidth 64]

/-- The 1 KiB of general state. -/
def frameState (s : State) (x : Ctx) : List Byte :=
  (bytesOf x.stack.toList ++ bytesOf (frameWords s x) ++ x.eregs.toList.flatMap (fun (e : W32) => toBytes 4 e.toNat) ++
    (x.masks.toList.drop 1).flatMap (fun (m : MaskReg) => toBytes 16 m.toNat) ++ List.replicate 128 0).take 1024

/-- Bytes of a frame: the general state and the declared vector registers. -/
def frameBytes (s : State) (x : Ctx) : List Byte :=
  frameState s x ++ (x.vregs.toList.take x.nv).flatMap vregBytes

/-- The length of a frame. -/
def frameLen (x : Ctx) : Nat := 1024 + 512 * x.nv

/-- A 64-bit word of a frame. -/
def frameAt (bs : List Byte) (off : Nat) : W64 := w64 (ofBytes ((bs.drop off).take 8))

/-- Vectors of a frame from its numbered parts. -/
def frameVec {α : Type} (n : Nat) (f : Nat → α) : Vector α n := Vector.ofFn (fun i : Fin n => f i.val)

/-- The message registers that a frame holds; Z fields read zero whatever the frame says (00 R3, 05 R123). -/
def frameMsg (bs : List Byte) : MsgRegs :=
  { hdr0 := frameAt bs 0x240, hdr2 := frameAt bs 0x248, hdr3 := frameAt bs 0x250,
    hstat := frameAt bs 0x258 &&& 0xFFFF007F, hbuf := frameAt bs 0x260 &&& 0xFFFFFFFF,
    rstat := frameAt bs 0x268 &&& 0x1F3, rhdr2 := frameAt bs 0x270, rhdr3 := frameAt bs 0x278,
    rfall := frameAt bs 0x280, sstat := frameAt bs 0x298 &&& 0xF03F7 }

/-- The trap registers that a frame holds, without their Z fields (00 R3, 15 R347). -/
def frameTrap (bs : List Byte) : TrapRegs :=
  let p := frameAt bs 0x2A0
  { level := bit p 0, intrap := bit p 1, prev := bit p 2, trapc := frameAt bs 0x2A8 &&& 0xFF, trappc := frameAt bs 0x2B0,
    trapv := frameAt bs 0x2B8, tsave := frameVec 4 (fun i => frameAt bs (0x2C0 + 8 * i)),
    asid := (frameAt bs 0x2E0).setWidth 16, stkix := (frameAt bs 0x2E8).setWidth 6 }

/-- A context with what a frame holds in place of its own, without Z fields (00 R3) and with FPRND kept where the frame's
code is reserved, as an MTS keeps it (02 R29); lists, slots and credits are not in a frame (15 R360). A context parked
in place goes on parked, its count of clk standing (15 R363). -/
def loadFrame (s : State) (bs : List Byte) (x : Ctx) : Ctx :=
  let c := { x with
    stack := frameVec 64 (fun i => frameAt bs (8 * i)), pc := frameAt bs 0x200, fpflags := (frameAt bs 0x218).setWidth 6,
    fprnd := if bits (frameAt bs 0x220) 0 3 ≤ 4 then (frameAt bs 0x220).setWidth 3 else x.fprnd,
    wto := frameAt bs 0x228 &&& 0xFFFFFFFF,
    start := (s.clk : Int) - ((frameAt bs 0x230).toNat : Int), limit := bits (frameAt bs 0x238) 0 5, msg := frameMsg bs,
    rlstat := frameAt bs 0x288 &&& 0xFF000F, rtstat := frameAt bs 0x290 &&& 0x3F7, trap := frameTrap bs,
    eregs := frameVec 8 (fun i => w32 (ofBytes ((bs.drop (0x2F0 + 4 * i)).take 4))),
    masks := frameVec 8 (fun i => if i == 0 then x.masks.get 0 else BitVec.ofNat 128 (ofBytes ((bs.drop (0x310 + 16 * (i - 1))).take 16))),
    vregs := frameVec 32 (fun i => if i < x.nv then vregOf ((bs.drop (1024 + 512 * i)).take 512) else x.vregs.get ⟨i % 32, Nat.mod_lt _ (by decide)⟩),
    run := [], gcount := 0, pend := [], pendFp := 0, pendRl := 0, got := none,
    since := match x.status with
      | .parked _ _ => some s.clk
      | _ => none }
  setWdepth c (frameAt bs 0x210)

/-- The frame names the same activation with the same resources: CONTEXT, INC, VREGS, LISTS, ACC and TASK agree
(15 R373); VALID and the zero field are not compared (assumption 17). -/
def frameMatches (bs : List Byte) (x : Ctx) : Bool :=
  (frameAt bs 0x208 ^^^ frameStatus x true) &&& 0x7FFFFFBFF == 0

end Sys2Proof.Machine
end

