-- ==== Sys2Proof/Machine/Message.lean ====
section
/-! DEFINITION. Message instructions (05 R97 to R101, R116 to R122). -/
namespace Sys2Proof.Machine

/-! ## Destinations (05 R97, R98, R100) -/

/-- A core named by X, Y and DIE exists on the part, and DIE is its die (05 R97). -/
def coreNamed (s : State) (w : W64) : Bool :=
  mDie w < 4 && mY w < meshRows s && mDie w == coreDie (mCore w)

/-- Whether a message for this site and accelerator. -/
def here (s : State) (w : W64) : Bool := mAccel w == s.accel.toNat && (mSite w == 0 || mSite w == s.site.toNat)

/-- dest_ok of 05 R118: class, mode, fields and PC, for `n` inline words, a request or a bulk payload. `w0` is the first
payload word, `l` the sender's launch. -/
def destOk (s : State) (l : Launch) (w pc : W64) (n : Nat) (rq bulk : Bool) (w0 : W64) : Bool :=
  mClass w == 0 && pc.toNat % 8 == 0 &&
  (!spart s || mMode w == 4 || mSite w == 0 || mSite w == s.site.toNat) &&
  (match mMode w with
   | 0 => mUnit w == 0 && coreNamed s w
   | 1 => mUnit w == 0 && coreNamed s w && (!here s w || inRect l (mCore w))
   | 2 => !rq && coreNamed s w
   | 3 => n ≥ 1 && !bulk && (homeCore s w0).isSome
   | 4 => !rq && mDie w == 0
   | _ => false)

/-- The fields that a mode reads; those that it ignores are delivered as zero (05 R97). -/
def destClean (w : W64) : W64 :=
  let keep (rs : List (Nat × Nat)) : W64 := rs.foldl (fun acc p => setBits acc p.1 p.2 (bits w p.1 p.2)) 0
  match mMode w with
  | 0 => keep [(57, 4), (38, 16), (14, 24)]
  | 1 => keep [(54, 7), (38, 16), (14, 24)]
  | 2 => keep [(57, 4), (38, 16), (14, 24), (0, 10)]
  | 3 => keep [(57, 4), (38, 16)]
  | _ => keep [(57, 4), (14, 11)]

/-- fill_home of 05 R118: ACCEL, DIE, X and Y of the home core of the first payload word. -/
def fillHome (s : State) (w g : W64) : W64 :=
  match homeCore s g with
  | none => w
  | some k => setBits (setBits (setBits (setBits w 28 10 (vaAccel g)) 25 3 (coreDie k)) 19 6 (coreX k)) 14 5 (coreY k)

/-- A code that names no subgroup of the launch (06 R129). -/
def noSubgroup (l : Launch) (code : Nat) : Bool := (subRect l code).isNone

/-! ## Posting -/

/-- Status codes of SSTAT.LAST (05 R117). -/
def stOk : Nat := 0
def stFull : Nat := 1
def stBaddest : Nat := 2
def stWindow : Nat := 3
def stNosrc : Nat := 4
def stBadarg : Nat := 5

/-- The instruction completes with a status. -/
def status (sw : Bool) (code : Nat) (s : State) : State := finish sw (put (.slast code) s)

/-- SRC, BLEN and DST of a bulk descriptor (05 R101). -/
def descSrc (d : W64) : W64 := w64 (bits d 0 19)
def descLen (d : W64) : Nat := bits d 19 13
def descDst (d : W64) : Nat := bits d 32 19
def descOk (d : W64) : Bool := bits d 51 13 == 0 && 1 ≤ descLen d && descLen d ≤ 4096

/-- Whether a 64-bit difference fits 32 signed bits. -/
def fits32 (v : W64) : Bool := sext (bits v 0 32) 32 == v

/-- The launch of the context in focus. A context always belongs to one; the default stands for none. -/
def myLaunch (s : State) : Launch :=
  (launchOf s s.ctx.task).getD
    { task := s.ctx.task, cls := 0, ox := 0, oy := 0, logw := 0, logh := 0, limit := 30, image := 0, logspad := 10, lowq := 1,
      window := 0, inbase := 0, inlog := 0, outlog := 0, stack := 0, events := 0, eventlog := 0, seeds := 0, seedn := 0,
      errq := 0, asid := 0, autoend := false, firmware := false, order := 0, seedNext := 0, seedWait := false, errSeq := 0,
      errPend := [], sched := [], doomed := none, ending := false, setup := true, hinting := false }

/-- The share of the launch of the context in focus. -/
def myOwe (s : State) : Nat := ((resOf s.core s.ctx.task).map (fun r => r.owe)).getD 0

/-- Take window credits (05 R106). -/
def takeCredit (n : Nat) (s : State) : State := updRes s.ctx.task (fun r => { r with owe := r.owe + n }) s

/-- Header word 2 of a message of the context in focus (05 R95). -/
def myHdr2 (s : State) (pcnt : Nat) : W64 :=
  hdr2Core s s.ctx.task s.core.id s.ctx.num.toNat s.ctx.inc.toNat (nextSeq s.ctx) pcnt

/-- A message of the context in focus: inline words or a bulk payload with its landing offset. -/
def myMsg (s : State) (w0 w1 : W64) (words : List W64) (payload : Option (List Byte × Nat)) (ack : Bool) (fall : Nat) : Msg :=
  match payload with
  | none => { w0 := w0, w1 := w1, w2 := myHdr2 s 0, w3 := hdr3 (8 * words.length) words.length ack false fall,
              words := words, bulk := [], dst := 0, ssite := 0 }
  | some (bs, dst) => { w0 := w0, w1 := w1, w2 := myHdr2 s (packets true bs.length - 1), w3 := hdr3 bs.length 0 ack true fall,
                        words := [], bulk := bs, dst := BitVec.ofNat 19 dst, ssite := 0 }

/-- The `n` payload registers from `b` (05 R116). -/
def payload (s : State) (b : BitVec 4) (n : Nat) : List W64 := (List.range n).map (readWn s b)

/-- The context in focus posts a message for which slots were found. -/
def postMine (slots : List Nat) (m : Msg) (s : State) : State :=
  let k := s.core.id
  let c := s.ctx.num.toNat
  focus k c (postOut k s.ctx slots m s)

/-- The tail of 05 R118: credits, outbound room, the post, and the status. -/
def sendMsg (sw : Bool) (rq : Bool) (w0 pc : W64) (words : List W64) (payload : Option (List Byte × Nat)) (fall : Nat)
    (s : State) : State :=
  let pri := mPri w0
  let cr := toBit rq + toBit pri
  if myOwe s + cr > (myLaunch s).window then status sw stWindow s
  else match outRoom s s.core s.ctx.task pri ((payload.map (fun p => p.1.length)).getD 0) with
    | none => status sw stFull s
    | some slots =>
      let m2 := mMode w0 == 2
      let s1 := postMine slots (myMsg s w0 pc words payload (rq || m2) fall) s
      let s2 := takeCredit cr s1
      status sw stOk { s2 with ctx := { s2.ctx with rqOwed := s2.ctx.rqOwed + toBit rq, m2wait := s2.ctx.m2wait + toBit m2 } }

/-- FALL of a request: RFALL − PC, 0 for none; none when it is 0 or does not fit (05 R118). -/
def fallOf (s : State) (rq : Bool) (pc : W64) : Option Nat :=
  let f := s.ctx.msg.rfall - pc
  if rq && s.ctx.msg.rfall != 0 then (if f == 0 || !fits32 f then none else some (bits f 0 32)) else some 0

/-- SEND and SENDB with their .RQ forms (05 R118). -/
def sendForm (sw rq bulk : Bool) (d a b : BitVec 4) (n : Nat) (s : State) : State :=
  let pc := readW s a
  let w := withPri s (readW s d)
  let w := if mMode w == 2 then setBits w 60 1 1 else w
  let l := myLaunch s
  if mMode w == 4 && noSubgroup l (mCode w) then raise 0x0C (w64 (mCode w)) s
  else if !destOk s l w pc n rq bulk (readW s b) then status sw stBaddest s
  else
    let w0 := if mMode w == 3 then fillHome s (destClean w) (readW s b) else destClean w
    let desc := readW s b
    if bulk && !descOk desc then status sw stBadarg s
    else match fallOf s rq pc with
      | none => status sw stBadarg s
      | some fall =>
        if bulk then sendMsg sw rq w0 pc [] (some (spRead s (descSrc desc) (descLen desc), descDst desc)) fall s
        else sendMsg sw rq w0 pc (payload s b n) none fall s

/-- SEND wd, wa, wb, n (05 R118). -/
def execSend (sw : Bool) (d a b : BitVec 4) (n : BitVec 5) (s : State) : Out := .next (sendForm sw false false d a b n.toNat s)
/-- SEND.RQ (05 R118). -/
def execSendRq (sw : Bool) (d a b : BitVec 4) (n : BitVec 5) (s : State) : Out := .next (sendForm sw true false d a b n.toNat s)
/-- SENDB wd, wa, wb (05 R118). -/
def execSendb (sw : Bool) (d a b : BitVec 4) (s : State) : Out := .next (sendForm sw false true d a b 0 s)
/-- SENDB.RQ (05 R118). -/
def execSendbRq (sw : Bool) (d a b : BitVec 4) (s : State) : Out := .next (sendForm sw true true d a b 0 s)

/-! ## Replies (05 R119) -/

/-- The destination of a reply, from HDRW2 and HSTAT.SITE. -/
def replyDest (c : Ctx) : W64 :=
  let w := c.msg.hdr2
  destWord 2 true 2 (bits c.msg.hstat 16 16) (hAcc w) (bits w 39 3) (hX w) (hY w) 0 (hCtx w) (hInc w)

/-- REPLY and REPLYB: NOSRC, BADARG, a wait for outbound room, or the post (05 R119). -/
def replyForm (sw bulk : Bool) (b : BitVec 4) (n : Nat) (s : State) : State :=
  if !bit s.ctx.msg.hstat 2 || bit s.ctx.msg.hstat 3 then status sw stNosrc s
  else
    let desc := readW s b
    if bulk && !descOk desc then status sw stBadarg s
    else
      let pl := if bulk then some (spRead s (descSrc desc) (descLen desc), descDst desc) else none
      match outRoom s s.core s.ctx.task true (if bulk then descLen desc else 0) with
      | none => wait .outRoom s
      | some slots =>
        let m := myMsg s (replyDest s.ctx) (replyFall s.ctx) (if bulk then [] else payload s b n) pl false 0
        let s1 := postMine slots m s
        status sw stOk { s1 with ctx := { s1.ctx with msg := { s1.ctx.msg with hstat := setBits s1.ctx.msg.hstat 3 1 1 } } }

/-- REPLY wb, n (05 R119). -/
def execReply (sw : Bool) (b : BitVec 4) (n : BitVec 5) (s : State) : Out := .next (replyForm sw false b n.toNat s)
/-- REPLYB wb (05 R119). -/
def execReplyb (sw : Bool) (b : BitVec 4) (s : State) : Out := .next (replyForm sw true b 0 s)

/-! ## RECVW (05 R120) -/

/-- The registers that a consumed message of INL words fills from `d`. -/
def putWords (d : BitVec 4) (ws : List W64) (s : State) : State :=
  (ws.zipIdx.filter (fun p => d.toNat + p.2 ≤ 15)).foldl (fun s p => writeW (BitVec.ofNat 4 (d.toNat + p.2)) p.1 s) s

/-- RSTAT after a consumed message: KIND 1, or 2 with the reason of a NACK, and TRUNC. -/
def rstatOf (d : BitVec 4) (m : Msg) : W64 :=
  w64 ((if mClass m.w0 == 4 then 2 + m.dst.toNat % 16 * 16 else 1) + toBit (d.toNat + hInl m.w3 > 16) * 2 ^ 8)

/-- The consumption of a held message whose payload, if any, has landed: its credit returns and RECVW completes. -/
def consume (d : BitVec 4) (sw : Bool) (h : Held) (s : State) : State :=
  let m := h.q.msg
  let s1 := { s with core := { s.core with held := s.core.held.filter (fun x => x != h) } }
  let k := s1.core.id
  let c := s1.ctx.num.toNat
  let s2 := focus k c (admitMode2 m (returnOwed k h.q s1))
  let s3 := acquireSys { s2 with ctx := { s2.ctx with rqOwed := s2.ctx.rqOwed - toBit (h.q.owed == .request) } }
  finish sw (put (.rhdr m.w2 m.w3) (put (.rstat (rstatOf d m)) (putWords d m.words s3)))

/-- The oldest held message, read from its place (15 R425): the pull of a bulk reply, or its consumption. -/
def takeHeld (d : BitVec 4) (sw : Bool) (h : Held) (s : State) : State :=
  if hBulk h.q.msg.w3 then
    wait (.recvw d sw) { s with core := { s.core with
      held := s.core.held.filter (fun x => x != h),
      pulls := s.core.pulls ++ [{ num := s.core.outNum, q := h.q, ctx := s.ctx.num, inc := s.ctx.inc, reply := true,
                                  since := s.clk, got := [] }],
      outNum := s.core.outNum + 1 } }
  else consume d sw h s

/-- RECVW wd: nothing awaited, a wait, or the oldest held message; a message in overflow is read from its slot first. -/
def execRecvw (sw : Bool) (d : BitVec 4) (s : State) : Out :=
  .next (match heldFor s.core s.ctx false with
    | [] =>
      if s.ctx.rqOwed == 0 && s.ctx.m2wait == 0 then finish sw (put (.rstat 0) s)
      else wait (.recvw d sw) s
    | h :: _ =>
      if h.q.store == .chip then takeHeld d sw h s
      else
        match storeRead (myLaunch s) s.core.id true h.q s with
        | (s1, some m) => takeHeld d sw { h with q := { h.q with msg := m } } { s1 with core := { s1.core with
            held := replaceFirst (fun x => x == h) (fun _ => { h with q := { h.q with msg := m } }) s1.core.held } }
        | (s1, none) => wait (.recvw d sw) s1)

/-! ## Migration (05 R121) -/

/-- MIGR and MIGRX close their group and post at its close; depth other than 0 raises MIGRDEPTH before any effect. -/
def migrate (x : Bool) (r : BitVec 4) (s : State) : State :=
  if s.ctx.depth != 0 then raise 0x0D (wdepth s.ctx) s else close (.migr x r (hxOf s).pri) s

/-- MIGR wa (05 R121). -/
def execMigr (a : BitVec 4) (s : State) : Out := .next (migrate false a s)
/-- MIGRX wd (05 R121). -/
def execMigrx (d : BitVec 4) (s : State) : Out := .next (migrate true d s)

/-- HOMEXY wd, wa (05 R122). -/
def execHomexy (sw : Bool) (d a : BitVec 4) (s : State) : Out :=
  let g := readW s a
  let w := match homeCore s g with
    | none => 0
    | some k => destWord 0 false 0 0 (vaAccel g) (coreDie k) (coreX k) (coreY k) 0 0 0
  .next (finish sw (writeW d w s))

end Sys2Proof.Machine
end

