-- ==== Sys2Proof/Machine/Engine.lean ====
section
/-! DEFINITION. Engine commands: completion descriptors (08 R181), the post with its timeline number (08 R178; 12 R270,
R271), the completion actions (08 R182), stage barriers (08 R184, R185) and the copy schedule (12 R276, R287 to R290). -/
namespace Sys2Proof.Machine

/-! ## Completion descriptors (08 R181) -/

def wcCredit (wc : W64) : Bool := bit wc 0
def wcSignal (wc : W64) : Bool := bit wc 1
def wcReply (wc : W64) : Bool := bit wc 2
def wcBoff (wc : W64) : Nat := bits wc 4 19
def wcSoff (wc : W64) : Nat := bits wc 23 19

/-- No reserved bit is set. -/
def wcLegal (wc : W64) : Bool := zeroIn wc [(3, 1), (42, 22)]

/-- The checks of a descriptor at issue. -/
def wcChecked (wc : W64) (k : State → State) (s : State) : State :=
  legal (wcLegal wc) wc (fun s => aligned (w64 (wcBoff wc)) 16 (fun s => aligned (w64 (wcSoff wc)) 8 k s) s) s

/-! ## The post -/

/-- Timelines by the number of 08 R192: 0 COPY, 1 MAT, 2 NET, 3 ROUTE; engines by unit: 0 matrix, 1 copy. -/
def tlIx (eng : Nat) : Fin 4 := match eng with
  | 0 => 1
  | 1 => 0
  | 2 => 2
  | _ => 3

/-- The next number of an engine's timeline on a core. -/
def nextNum (c : Core) (eng : Nat) : Nat := (c.tls.get (tlIx eng)).issued + 1

/-- A command of the context in focus, with what it snapshots at post (12 R271, R279). -/
def mkCmd (s : State) (op : CmdOp) (wc wc1 : W64) (credit num : Nat) (wait : Option (Nat × W64)) : Cmd :=
  { num := num, op := op, wc := wc, wc1 := wc1, ctx := s.ctx.num, inc := s.ctx.inc, task := s.ctx.task,
    asid := s.ctx.trap.asid.toNat, user := !s.ctx.trap.level, spa := coreSpa s.core, spbase := s.ctx.spbase,
    logspad := s.ctx.logspad, wait := wait, after := ctxOut s s.core s.ctx, latch := none, xfer := 0, status := 0, credit := credit,
    w2 := 0, w3 := 0, done := 0, st := .queued }

/-- A command enters its engine's queue and takes its number. -/
def pushCmd (k eng : Nat) (q : Cmd) (s : State) : State :=
  updCore k (fun c =>
    let t := c.tls.get (tlIx eng)
    { c.setQueue eng (c.queue eng ++ [q]) with tls := c.tls.set (tlIx eng).val { t with issued := q.num } (tlIx eng).isLt }) s

/-- The post of 12 R270: the window, the wait for a queue entry, the number to wd, the status. -/
def postEngine (sw : Bool) (d : BitVec 4) (eng : Nat) (op : CmdOp) (wc wc1 : W64) (credit : Nat)
    (barrier : Option (Nat × W64)) (s : State) : State :=
  if wcReply wc && myOwe s + 1 > (myLaunch s).window then status sw stWindow (writeW d 0 s)
  else if (s.core.queue eng).length ≥ 16 then wait (.queue eng) s
  else
    let num := nextNum s.core eng
    let s1 := pushCmd s.core.id eng (mkCmd s op wc wc1 credit num barrier) s
    let s2 := if wcReply wc then takeCredit 1 s1 else s1
    status sw stOk (writeW d (w64 num) s2)

/-! ## Stage barriers (08 R184, R185) -/

def pendOf (w : W64) : Nat := bits w 0 24
def arrOf (w : W64) : Nat := bits w 24 16

/-- A phase completes when ARR and PEND are both 0: PHASE, ARR and DONE (08 R185). -/
def barrierTest (w done : W64) : W64 × W64 :=
  if arrOf w == 0 && pendOf w == 0 then (setBits (setBits w 56 1 (1 - bits w 56 1)) 24 16 (bits w 40 16), done + 1)
  else (w, done)

/-- An operation on the barrier at an offset of a launch's region on a core: `f` changes word 0, then the test. -/
def barrierOp (base logspad off : Nat) (f : W64 → W64) (c : Core) : Core :=
  let w := f (w64 (ofBytes (spadRead c base logspad off 8)))
  let done := w64 (ofBytes (spadRead c base logspad (off + 8) 8))
  let r := barrierTest w done
  let c1 := if r.2 == done then c else c.spadWrite base logspad (off + 8) (toBytes 8 r.2.toNat)
  c1.spadWrite base logspad off (toBytes 8 r.1.toNat)

/-- expect v and credit v (08 R185). -/
def bExpect (v : Nat) (w : W64) : W64 := setBits w 0 24 (pendOf w + v)
def bCredit (v : Nat) (w : W64) : W64 := setBits w 0 24 (pendOf w + 2 ^ 24 - v % 2 ^ 24)
/-- arrive. -/
def bArrive (w : W64) : W64 := if arrOf w == 0 then w else setBits w 24 16 (arrOf w - 1)

/-! ## Completion (08 R178, R182) -/

/-- The watermark advances over a complete prefix. -/
def advanceGo : Nat → Timeline → Timeline
  | 0, t => t
  | n + 1, t =>
    if t.above.contains (t.mark + 1) then
      advanceGo n { t with mark := t.mark + 1, above := t.above.filter (fun x => x != t.mark + 1) }
    else t

/-- Number `n` of a timeline is complete. -/
def Timeline.complete (t : Timeline) (n : Nat) : Timeline :=
  advanceGo (t.above.length + 1) { t with above := setInsert n t.above }

/-- The signal word of a completion is written (08 R182): a read that finds it acquires the effects. -/
def writeSignal (base logspad off : Nat) (v : W64) (c : Core) : Core :=
  let c1 := c.spadWrite base logspad off (toBytes 8 v.toNat)
  { c1 with signals := setInsert (spOff base logspad off / 8) c1.signals }

/-- The completion actions of a command of core `k`: signal, credit, reply, in this order; then its queue entry frees,
the watermark advances and batches finish (12 R291). A reply of a launch that has ended is discarded (06 R147). -/
def completeCmd (k eng : Nat) (q : Cmd) (s : State) : State :=
  let sig := if wcReply q.wc then w64 q.num else q.wc1
  let s1 := if wcSignal q.wc then
      updCore k (writeSignal q.spbase q.logspad (wcSoff q.wc) sig) s else s
  let s2 := if wcCredit q.wc then updCore k (barrierOp q.spbase q.logspad (wcBoff q.wc) (bCredit q.credit)) s1 else s1
  let s3 := if wcReply q.wc && (resAt s2 k q.task).isSome then
      fly (unitMsg (coreWord s2 2 true 0 k 0 0) q.wc1 (hdr2Core s2 q.task k q.ctx.toNat q.inc.toNat q.num 0)
        [w64 q.num, q.status, q.w2, q.w3]) k k .unit true s2
    else s2
  updCore k (fun c =>
    let t := (c.tls.get (tlIx eng)).complete q.num
    let c1 := c.setQueue eng ((c.queue eng).filter (fun x => x.num != q.num))
    { c1 with tls := c1.tls.set (tlIx eng).val t (tlIx eng).isLt,
              batches := if eng == 1 then c1.batches.filter (fun n => t.mark < n) else c1.batches,
              regs := if eng == 2 then { c1.regs with lastst := q.status.setWidth 6 } else c1.regs }) s3

/-! ## Control words of the copy engine (12 R276, R287) -/

def ctlLen (ctl : W64) : Nat := bits ctl 0 27
def ctlDec (ctl : W64) : Nat := bits ctl 27 3
/-- The output element size of a decoding copy. -/
def decSize (dec : Nat) : Nat := if dec == 1 then 4 else if dec == 2 then 2 else 1

/-- The control word of CPY, CPYR and CPYW; `kind` 0 is CPY.G2L. -/
def cpyCtlOk (kind : Nat) (ctl : W64) : Bool :=
  bits ctl 30 34 == 0 && ctlDec ctl ≤ 2 && (ctlDec ctl == 0 || kind == 0) && ctlLen ctl % decSize (ctlDec ctl) == 0

/-- The control word of CDEC: LEN from 1 to 2^19, and the slot. -/
def cdecCtlOk (ctl : W64) : Bool := bits ctl 22 42 == 0 && 1 ≤ bits ctl 0 20 && bits ctl 0 20 ≤ 2 ^ 19

/-- Whether FEAT reports the decompression engine (16 R387). -/
def hasDecomp (s : State) : Bool := bit s.feat 1

/-! ## The copy schedule (12 R288 to R290) -/

def schRank (e : List W64) : Nat := bits (wordAt e 0) 0 11
def schAll (e : List W64) : Bool := bit (wordAt e 0) 11
def schStage (e : List W64) : Nat := bits (wordAt e 0) 16 16
def schOp (e : List W64) : Nat := bits (wordAt e 0) 32 3

/-- Whether an entry applies to the core of rank `q`. -/
def schFor (q : Nat) (e : List W64) : Bool := schAll e || schRank e == q

/-- The global addresses of an entry: source, destination or both. -/
def schVas (e : List W64) : List W64 :=
  match schOp e with
  | 0 => [wordAt e 2]
  | 1 => [wordAt e 1]
  | 2 => [wordAt e 1, wordAt e 2]
  | _ => [wordAt e 2]

/-- The checks of one entry (12 R289). -/
def schEntryOk (s : State) (n : Nat) (e : List W64) : Bool :=
  let w := wordAt e 0
  let ctl := wordAt e 3
  let wc := wordAt e 4
  zeroIn w [(12, 4), (35, 29)] && wordAt e 6 == 0 && wordAt e 7 == 0 && schOp e ≤ 3 &&
  (if schAll e then schRank e == 0 else schRank e < n) &&
  (if schOp e == 3 then cdecCtlOk ctl && hasDecomp s else cpyCtlOk (schOp e) ctl) &&
  wcLegal wc && wcBoff wc % 16 == 0 && wcSoff wc % 8 == 0 && !wcReply wc &&
  (schVas e).all (fun va => vaAccel va == s.accel.toNat)

/-- The stages of the entries of one core do not decrease. -/
def nonDecreasing : List Nat → Bool
  | [] => true
  | [_] => true
  | a :: b :: r => a ≤ b && nonDecreasing (b :: r)

/-- The checks of a whole schedule for `n` cores. -/
def schOk (s : State) (n : Nat) (es : List (List W64)) : Bool :=
  es.all (schEntryOk s n) && (List.range n).all (fun q => nonDecreasing ((es.filter (schFor q)).map schStage))

/-- The operation and the credit count of an entry (12 R273). -/
def schCmd (e : List W64) : CmdOp × Nat :=
  let ctl := wordAt e 3
  match schOp e with
  | 0 => (.cpy 0 (wordAt e 1) (wordAt e 2) ctl, ctlLen ctl)
  | 1 => (.cpy 1 (wordAt e 1) (wordAt e 2) ctl, 0)
  | 2 => (.cpy 2 (wordAt e 1) (wordAt e 2) ctl, 0)
  | _ => (.cdec (wordAt e 1) (wordAt e 2) ctl, bits ctl 0 20)

/-- The next entry of a core that is due and not yet posted. -/
def nextDue (l : Launch) (k : Nat) (r : Resident) : Option (Nat × List W64) :=
  match ((l.sched.zipIdx.drop r.postedIdx).find? (fun p => schFor (rankIn l k) p.1)) with
  | some (e, i) => if schStage e ≤ r.stage then some (i, e) else none
  | none => none

/-- Post the due entries of a launch on core `k` while the channel has room (12 R290). -/
def postDueGo (k : Nat) (task : BitVec 12) : Nat → State → State
  | 0, s => s
  | n + 1, s =>
    match launchOf s task, resAt s k task with
    | some l, some r =>
      match nextDue l k r with
      | some (i, e) =>
        let c := coreOf s k
        if c.copyq.length ≥ 16 then s
        else
          let (op, cr) := schCmd e
          let q : Cmd :=
            { num := nextNum c 1, op := op, wc := wordAt e 4, wc1 := wordAt e 5, ctx := 0, inc := 0, task := task,
              asid := l.asid, user := true, spa := coreSpa c, spbase := r.base, logspad := r.logspad, wait := none,
              after := allOut s c, latch := none, xfer := 0, status := 0, credit := cr, w2 := 0, w3 := 0, done := 0, st := .queued }
          postDueGo k task n (updCore k (fun c => c.updRes task (fun r => { r with postedIdx := i + 1, posted := r.posted + 1 }))
            (pushCmd k 1 q s))
      | none => s
    | _, _ => s

/-- At most sixteen entries find room at once. -/
def postDue (k : Nat) (task : BitVec 12) (s : State) : State := postDueGo k task 17 s

/-- Whether a due entry still waits for room. -/
def dueLeft (s : State) (k : Nat) (task : BitVec 12) : Bool :=
  match launchOf s task, resAt s k task with
  | some l, some r => (nextDue l k r).isSome
  | _, _ => false

end Sys2Proof.Machine
end

