-- ==== Sys2Proof/Machine/Issue.lean ====
section
/-! DEFINITION. The issue of one word by one context (04 R94): which contexts may issue, the fetch, and the judgement of
an HX run at the instruction it modifies (03 R57, R62, R63). -/
namespace Sys2Proof.Machine

/-! ## Which contexts may issue -/

/-- Whether the scratchpad region of a launch is in place on a core (06 R131). -/
def inPlace (c : Core) (task : BitVec 12) : Bool := (resOf c task).all (fun r => !r.saved)

/-- DONE of the stage barrier at a scratchpad offset of the context (08 R184). -/
def barrierDone (c : Core) (x : Ctx) (off : Nat) : W64 := w64 (ofBytes (spadRead c x.spbase x.logspad (off + 8) 8))

/-- 15 R365: whether the debugger stops a context here. -/
def stopped (s : State) (c : Core) (x : Ctx) : Bool := c.regs.halt && !isFirmware s x.task && atBoundary x

/-- Whether no store of any core is outstanding (15 R370). -/
def allStoresDone (s : State) : Bool :=
  s.transit.isEmpty && s.core.stores.isEmpty && s.cores.all (fun p => p.2.stores.isEmpty)

/-- Whether the reason for which a context waits no longer stands. -/
def waitOver (s : State) (c : Core) (x : Ctx) (w : Wait) : Bool :=
  match w with
  | .recvw _ _ => !(heldFor c x false).isEmpty && !heldOn s (.slot c.id x.task) && !c.pulls.any (fun p => p.ctx == x.num && p.inc == x.inc)
  | .word _ _ => c.watches.any (fun v => v.ctx == x.num && v.hit.isSome) ||
      s.watches.any (fun v => v.core == c.id && v.ctx == x.num && v.hit.isSome)
  | .barrier off target => inPlace c x.task && target.toNat ≤ (barrierDone c x off).toNat
  | .timeline id n => (c.tls.get ⟨id % 4, Nat.mod_lt _ (by decide)⟩).mark ≥ n.toNat
  | .stores ns => storesDone s c ns
  | .allStores => allStoresDone s
  | .queue eng => (c.queue eng).length < 16
  | .outRoom => (outRoom s c x.task true 0).isSome
  | .vecQueue => c.vecq.length < 8
  | .batches n => c.batches.length < n
  | .eventRead _ _ => x.got.isSome
  | .round _ _ => !(heldFor c x true).isEmpty
  | .stopped n => let y := ctxOf s c.id n
      y.status == .free || stopped s c y || (match y.status with
        | .parked _ _ => true
        | _ => false)
  | .held key => !heldOn s key

/-- Whether the watchdog of a context has run out (15 R363). -/
def expired (s : State) (x : Ctx) : Bool := 2 ^ x.limit ≤ cycOf s x

/-- Whether nothing of a context itself keeps it from going on: the watchdog lets none issue behind its limit (15 R363). -/
def couldIssue (s : State) (c : Core) (x : Ctx) : Bool :=
  !stopped s c x && !expired s x && (match x.status with
    | .ready => true
    | .waiting w => waitOver s c x w
    | _ => false)

/-- Whether a context may issue its next word: the scratchpad region of its launch is in place, too (06 R131). -/
def mayIssue (s : State) (c : Core) (x : Ctx) : Bool := inPlace c x.task && couldIssue s c x

/-- The contexts of a core that may issue. -/
def issuers (s : State) (k : Nat) : List Nat :=
  (List.range 16).filter (fun n => mayIssue s (coreOf s k) (ctxOf s k n))

/-- Round robin: the first of them behind the context that issued last. -/
def nextIssuer (rr : Nat) (ns : List Nat) : Option Nat :=
  match ns.find? (fun n => rr < n) with
  | some n => some n
  | none => ns.head?

/-! ## HX runs (03 R60, R62) -/

/-- Whether a word is an HX word. -/
def isHx (w : W32) : Bool := w.toNat / 2 ^ 25 % 64 == 0x3F

/-- The kind of an HX word. -/
def hxKind (w : W32) : Nat := w.toNat / 2 ^ 21 % 16

/-- Whether an HX word breaks a rule by itself: S, kind, a stray value bit, a mode code of 5 to 7. -/
def hxBad (w : W32) : Bool :=
  let v := w.toNat % 2 ^ 21
  w.toNat / 2 ^ 31 != 0 ||
  match hxKind w with
  | 0 => false
  | 1 => v > 4
  | 2 => v > 7
  | 3 => v != 1
  | 4 => v > 1
  | _ => true

/-- The first word of a run that breaks a rule, given the words before it and whether the instruction admits HX.IMM. -/
def runOffence (admits : Bool) : List W32 → List W32 → Option W32
  | _, [] => none
  | before, w :: rest =>
    let same := before.countP (fun x => hxKind x == hxKind w)
    if hxBad w || (hxKind w == 0 && (!admits || same ≥ 2)) || (hxKind w != 0 && same ≥ 1) then some w
    else runOffence admits (before ++ [w]) rest

/-- The instructions whose immediate or offset HX.IMM extends (03 R60). -/
def admitsImm (i : Instr) : Bool :=
  match i with
  | .addi .. | .andi .. | .ori .. | .xori .. | .shli .. | .shri .. | .sari .. | .slti .. | .sltui .. | .seqi .. | .muli ..
  | .lim .. | .bfx .. | .bfxS .. | .bfi .. | .beq .. | .bne .. | .blt .. | .bge .. | .bltu .. | .bgeu .. | .beqz .. | .bnez ..
  | .jump .. | .call .. | .evsig .. | .ldgB .. | .ldgBu .. | .ldgH .. | .ldgHu .. | .ldgW .. | .ldgWu .. | .ldgD ..
  | .ldgAcq .. | .stgB .. | .stgH .. | .stgW .. | .stgD .. | .stgRel .. | .ldgAcqW .. | .stgRelW .. | .pref .. | .ldlB ..
  | .ldlBu .. | .ldlH .. | .ldlHu .. | .ldlW .. | .ldlWu .. | .ldlD .. | .stlB .. | .stlH .. | .stlW .. | .stlD ..
  | .vldg .. | .vstg .. | .vldl .. | .vstl .. => true
  | _ => false

/-! ## One issue -/

/-- What a turn of an agent comes to: a state, or an instruction to be carried out in a state. -/
inductive Turn where
  | rest (s : State)
  | run (i : Instr) (s : State)

/-- What a fetched word asks for: an HX word is gathered; at any other word the run before it is judged. -/
noncomputable def wordTurn (w : W32) (s : State) : Turn :=
  if isHx w then (match decode w with
    | .ok i => .run i s
    | .error _ => .run (.illegalWord w true) s)
  else match decode w with
    | .error _ => .run (.illegalWord ((runOffence true [] s.ctx.run).getD w) false) s
    | .ok i => match runOffence (admitsImm i) [] s.ctx.run with
      | some bad => .run (.illegalWord bad false) s
      | none => .run i s

/-- The context in focus issues: a FAULT that its last walk ended in, or the word at its pc. DESIGN CHOICE: a word behind
a run that is already ill formed is fetched first, so that its miss, REMOTE or FAULT comes before the run's ILLEGAL
(assumption 122). -/
noncomputable def issueTurn (s : State) : Turn :=
  match s.ctx.xfail with
  | some va => .rest (raise 0x0F va s)
  | none =>
    match fetchAt s s.ctx.pc with
    | .trap cause => .rest (raise cause s.ctx.pc s)
    | .miss q => .rest (startWalk q s)
    | .word w => wordTurn w (keepWord s s.ctx.pc w)

/-- Core `k` issues from the next of its contexts. -/
noncomputable def coreTurn (k : Nat) (s : State) : Turn :=
  match nextIssuer (coreOf s k).rr (issuers s k) with
  | none => .rest s
  | some n =>
    let s1 := focus k n s
    issueTurn { s1 with core := { s1.core with rr := n }, ctx := { s1.ctx with status := .ready } }

end Sys2Proof.Machine
end

