-- ==== Sys2Proof/Machine/Memory.lean ====
section
/-! DEFINITION. Load, store, atomic and wait instructions (07 R149 to R170). -/
namespace Sys2Proof.Machine

/-! ## Accesses of several pieces -/

/-- Checks 7 and 8 of an access of several runs of bytes, then the access with the keys of its bytes. DESIGN CHOICE: TRAPV of REMOTE is
the address of the first run, that of the first active lane under a mask (assumption 142). -/
def accessList (ps : List (W64 × Nat)) (rd wr : Bool) (k : List Nat → State → State) (s : State) : State :=
  match ps.find? (fun p => vaAccel p.1 != s.accel.toNat) with
  | some p => raise 0x04 p.1 s
  | none =>
    match pieceKeys s rd wr ps with
    | .ok ks => k ks (if rd then sawAt ks s else s)
    | .error q => miss q s

/-- A global store of several bytes enters the store buffer, one entry for each aligned 32-byte sector (07 R152). -/
def storeSectors (cs : List Host.Cell) (s : State) : State :=
  (cs.splitBy (fun a b => a.1 / 32 == b.1 / 32)).foldl (fun s g => storeGlobal g s) s

/-- The value of a loaded scalar of `n` bytes, sign- or zero-extended. -/
def loadValue (n : Nat) (signed : Bool) (bs : List Byte) : W64 :=
  if signed then sext (ofBytes bs) (8 * n) else w64 (ofBytes bs)

/-! ## Scalar loads and stores (07 R159) -/

/-- The effective address of a scalar access. -/
def eaOf (s : State) (a : BitVec 4) (imm : BitVec 13) : W64 := readW s a + immS s 13 imm.toNat

/-- LDG.sz wd, [wa+imm]. -/
def ldg (n : Nat) (signed sw : Bool) (d a : BitVec 4) (imm : BitVec 13) (s : State) : State :=
  let ea := eaOf s a imm
  aligned ea n (loadBytes ea n (fun bs s => finish sw (writeW d (loadValue n signed bs) s))) s

/-- STG.sz wd, [wa+imm]. -/
def stg (n : Nat) (sw : Bool) (d a : BitVec 4) (imm : BitVec 13) (s : State) : State :=
  let ea := eaOf s a imm
  aligned ea n (storeBytes ea (toBytes n (readW s d).toNat) (finish sw)) s

/-- LDG.ACQ: the load, then an acquire (08 R176). -/
def ldgAcq (n : Nat) (signed sw : Bool) (d a : BitVec 4) (imm : BitVec 13) (s : State) : State :=
  let ea := eaOf s a imm
  aligned ea n (fun s => loadBytes ea n (fun bs s => finish sw (writeW d (loadValue n signed bs) s)) (acquire s)) s

/-- STG.REL: a store behind every outstanding one of its context, at PKG scope (08 R176). -/
def stgRel (n : Nat) (sw : Bool) (d a : BitVec 4) (imm : BitVec 13) (s : State) : State :=
  let ea := eaOf s a imm
  aligned ea n (fun s => access ea n false true (fun ks s =>
    finish sw (bufferStore (mineOut s) (max 2 s.ctx.scope) (ks.zip (toBytes n (readW s d).toNat)) s)) s) s

/-- The offset of a scratchpad operand as R151 checks it. -/
def wrapped (s : State) (a : W64) : W64 := w64 (a.toNat % 2 ^ s.ctx.logspad)

/-- A scratchpad read of `n` bytes, with check 9; one that finds the signal word of a command acquires its effects (08 R182). -/
def spLoad (a : W64) (n : Nat) (k : List Byte → State → State) (s : State) : State :=
  clean (spPoison s a n) (wrapped s a) (fun s => k (spRead s a n) (observe a n s)) s

/-- LDL.sz wd, [wa+imm]. -/
def ldl (n : Nat) (signed sw : Bool) (d a : BitVec 4) (imm : BitVec 13) (s : State) : State :=
  let ea := eaOf s a imm
  aligned (wrapped s ea) n (spLoad ea n (fun bs s => finish sw (writeW d (loadValue n signed bs) s))) s

/-- STL.sz wd, [wa+imm]. -/
def stl (n : Nat) (sw : Bool) (d a : BitVec 4) (imm : BitVec 13) (s : State) : State :=
  let ea := eaOf s a imm
  aligned (wrapped s ea) n (fun s => finish sw (spWrite ea (toBytes n (readW s d).toNat) s)) s

/-- LDG.B (07 R159). -/
def execLdgB (sw : Bool) (d a : BitVec 4) (imm : BitVec 13) (s : State) : Out :=
  .next (ldg 1 true sw d a imm s)
/-- LDG.BU (07 R159). -/
def execLdgBu (sw : Bool) (d a : BitVec 4) (imm : BitVec 13) (s : State) : Out :=
  .next (ldg 1 false sw d a imm s)
/-- LDG.H (07 R159). -/
def execLdgH (sw : Bool) (d a : BitVec 4) (imm : BitVec 13) (s : State) : Out :=
  .next (ldg 2 true sw d a imm s)
/-- LDG.HU (07 R159). -/
def execLdgHu (sw : Bool) (d a : BitVec 4) (imm : BitVec 13) (s : State) : Out :=
  .next (ldg 2 false sw d a imm s)
/-- LDG.W (07 R159). -/
def execLdgW (sw : Bool) (d a : BitVec 4) (imm : BitVec 13) (s : State) : Out :=
  .next (ldg 4 true sw d a imm s)
/-- LDG.WU (07 R159). -/
def execLdgWu (sw : Bool) (d a : BitVec 4) (imm : BitVec 13) (s : State) : Out :=
  .next (ldg 4 false sw d a imm s)
/-- LDG.D (07 R159). -/
def execLdgD (sw : Bool) (d a : BitVec 4) (imm : BitVec 13) (s : State) : Out :=
  .next (ldg 8 false sw d a imm s)
/-- LDG.ACQ (07 R159). -/
def execLdgAcq (sw : Bool) (d a : BitVec 4) (imm : BitVec 13) (s : State) : Out :=
  .next (ldgAcq 8 false sw d a imm s)
/-- LDG.ACQ.W (07 R159). -/
def execLdgAcqW (sw : Bool) (d a : BitVec 4) (imm : BitVec 13) (s : State) : Out :=
  .next (ldgAcq 4 true sw d a imm s)
/-- LDL.B (07 R159). -/
def execLdlB (sw : Bool) (d a : BitVec 4) (imm : BitVec 13) (s : State) : Out :=
  .next (ldl 1 true sw d a imm s)
/-- LDL.BU (07 R159). -/
def execLdlBu (sw : Bool) (d a : BitVec 4) (imm : BitVec 13) (s : State) : Out :=
  .next (ldl 1 false sw d a imm s)
/-- LDL.H (07 R159). -/
def execLdlH (sw : Bool) (d a : BitVec 4) (imm : BitVec 13) (s : State) : Out :=
  .next (ldl 2 true sw d a imm s)
/-- LDL.HU (07 R159). -/
def execLdlHu (sw : Bool) (d a : BitVec 4) (imm : BitVec 13) (s : State) : Out :=
  .next (ldl 2 false sw d a imm s)
/-- LDL.W (07 R159). -/
def execLdlW (sw : Bool) (d a : BitVec 4) (imm : BitVec 13) (s : State) : Out :=
  .next (ldl 4 true sw d a imm s)
/-- LDL.WU (07 R159). -/
def execLdlWu (sw : Bool) (d a : BitVec 4) (imm : BitVec 13) (s : State) : Out :=
  .next (ldl 4 false sw d a imm s)
/-- LDL.D (07 R159). -/
def execLdlD (sw : Bool) (d a : BitVec 4) (imm : BitVec 13) (s : State) : Out :=
  .next (ldl 8 false sw d a imm s)
/-- STG.B (07 R159). -/
def execStgB (sw : Bool) (d a : BitVec 4) (imm : BitVec 13) (s : State) : Out :=
  .next (stg 1 sw d a imm s)
/-- STG.H (07 R159). -/
def execStgH (sw : Bool) (d a : BitVec 4) (imm : BitVec 13) (s : State) : Out :=
  .next (stg 2 sw d a imm s)
/-- STG.W (07 R159). -/
def execStgW (sw : Bool) (d a : BitVec 4) (imm : BitVec 13) (s : State) : Out :=
  .next (stg 4 sw d a imm s)
/-- STG.D (07 R159). -/
def execStgD (sw : Bool) (d a : BitVec 4) (imm : BitVec 13) (s : State) : Out :=
  .next (stg 8 sw d a imm s)
/-- STG.REL (07 R159). -/
def execStgRel (sw : Bool) (d a : BitVec 4) (imm : BitVec 13) (s : State) : Out :=
  .next (stgRel 8 sw d a imm s)
/-- STG.REL.W (07 R159). -/
def execStgRelW (sw : Bool) (d a : BitVec 4) (imm : BitVec 13) (s : State) : Out :=
  .next (stgRel 4 sw d a imm s)
/-- STL.B (07 R159). -/
def execStlB (sw : Bool) (d a : BitVec 4) (imm : BitVec 13) (s : State) : Out :=
  .next (stl 1 sw d a imm s)
/-- STL.H (07 R159). -/
def execStlH (sw : Bool) (d a : BitVec 4) (imm : BitVec 13) (s : State) : Out :=
  .next (stl 2 sw d a imm s)
/-- STL.W (07 R159). -/
def execStlW (sw : Bool) (d a : BitVec 4) (imm : BitVec 13) (s : State) : Out :=
  .next (stl 4 sw d a imm s)
/-- STL.D (07 R159). -/
def execStlD (sw : Bool) (d a : BitVec 4) (imm : BitVec 13) (s : State) : Out :=
  .next (stl 8 sw d a imm s)

/-- PREF [wa+imm] (07 R160): writes no register, changes no value, and never parks or traps on its address. -/
def execPref (sw : Bool) (s : State) : Out := .next (finish sw s)

/-! ## Vector loads and stores (07 R161, R162) -/

/-- The base of VLDG, VSTG, VLDL and VSTL. -/
def vbaseOf (s : State) (g : BitVec 4) (o : BitVec 8) : W64 := readW s g + 64 * immU s 8 o.toNat

/-- The active lanes of a mask. -/
def activeLanes (m : MaskReg) : List Nat := (List.range 128).filter (fun i => m.getLsbD i)

/-- The four bytes of lane `i` out of the bytes of the active lanes. -/
def laneFrom (ls : List Nat) (bs : List Byte) (i : Nat) : Option Nat :=
  if ls.contains i then some (ofBytes ((bs.drop (4 * ls.idxOf i)).take 4)) else none

/-- The bytes of the active lanes of a register. -/
def laneBytes (ls : List Nat) (v : VReg) : List Byte := ls.flatMap (fun i => toBytes 4 (elem v 32 i))

/-- The first of several keys that is uncorrectable gives the address to report. -/
def firstPoison (s : State) (vas : List W64) (ks : List Nat) : W64 :=
  ((vas.zip ks).find? (fun p => viewPoison s p.2 1)).elim 0 (fun p => p.1)

/-- The addresses of the bytes of several runs. -/
def byteVas (ps : List (W64 × Nat)) : List W64 := ps.flatMap (fun p => (List.range p.2).map (fun i => p.1 + w64 i))

/-- Checks 7 to 9 and the bytes of several runs. -/
def loadList (ps : List (W64 × Nat)) (k : List Byte → State → State) (s : State) : State :=
  accessList ps true false (fun ks s => clean (poisonAt s ks) (firstPoison s (byteVas ps) ks) (k (viewAt s ks)) s) s

/-- VLDG vd, [wg+imm], m (07 R161). -/
def execVldg (sw : Bool) (v : BitVec 5) (g : BitVec 4) (m : BitVec 3) (o : BitVec 8) (s : State) : Out :=
  let base := vbaseOf s g o
  let ls := activeLanes (readM s m)
  .next (declared (vecDeclared s [v]) (insn (encVldg sw v g m o)) (aligned base 64
    (loadList (ls.map (fun i => (base + w64 (4 * i), 4))) (fun bs s =>
      finish sw (put (.vec v (buildPlain 32 (readV s v) (laneFrom ls bs))) s)))) s)

/-- VSTG vd, [wg+imm], m (07 R161). -/
def execVstg (sw : Bool) (v : BitVec 5) (g : BitVec 4) (m : BitVec 3) (o : BitVec 8) (s : State) : Out :=
  let base := vbaseOf s g o
  let ls := activeLanes (readM s m)
  .next (declared (vecDeclared s [v]) (insn (encVstg sw v g m o)) (aligned base 64
    (accessList (ls.map (fun i => (base + w64 (4 * i), 4))) false true (fun ks s =>
      finish sw (storeSectors (ks.zip (laneBytes ls (readV s v))) s)))) s)

/-- Read the scratchpad words of the active lanes at their addresses; check 9 reports the first bad word. -/
def spGather (s : State) (ls : List Nat) (at_ : Nat → W64) (k : List Byte → State → State) : State :=
  match ls.find? (fun i => spPoison s (at_ i) 4) with
  | some i => raise 0x07 (wrapped s (at_ i)) s
  | none => k (ls.flatMap (fun i => spRead s (at_ i) 4)) (ls.foldl (fun s i => observe (at_ i) 4 s) s)

/-- Write the scratchpad words of the active lanes in ascending lane order. -/
def spScatter (ls : List Nat) (at_ : Nat → W64) (v : VReg) (s : State) : State :=
  ls.foldl (fun s i => spWrite (at_ i) (toBytes 4 (elem v 32 i)) s) s

/-- VLDL vd, [wg+imm], m (07 R161). -/
def execVldl (sw : Bool) (v : BitVec 5) (g : BitVec 4) (m : BitVec 3) (o : BitVec 8) (s : State) : Out :=
  let base := vbaseOf s g o
  let ls := activeLanes (readM s m)
  .next (declared (vecDeclared s [v]) (insn (encVldl sw v g m o)) (aligned (wrapped s base) 64
    (fun s => spGather s ls (fun i => base + w64 (4 * i)) (fun bs s =>
      finish sw (put (.vec v (buildPlain 32 (readV s v) (laneFrom ls bs))) s)))) s)

/-- VSTL vd, [wg+imm], m (07 R161). -/
def execVstl (sw : Bool) (v : BitVec 5) (g : BitVec 4) (m : BitVec 3) (o : BitVec 8) (s : State) : Out :=
  let base := vbaseOf s g o
  let ls := activeLanes (readM s m)
  .next (declared (vecDeclared s [v]) (insn (encVstl sw v g m o)) (aligned (wrapped s base) 64
    (fun s => finish sw (spScatter ls (fun i => base + w64 (4 * i)) (readV s v) s))) s)

/-- The address of lane `i` of a strided access. -/
def strideAt (base stride : W64) (i : Nat) : W64 := base + w64 i * stride

/-- VLDLS vd, wa, [wg], m (07 R162). -/
def execVldls (sw : Bool) (v : BitVec 5) (a : BitVec 4) (g : BitVec 4) (m : BitVec 3) (s : State) : Out :=
  let base := readW s g
  let stride := readW s a
  let ls := activeLanes (readM s m)
  .next (declared (vecDeclared s [v]) (insn (encVldls sw v a g m)) (aligned (wrapped s base) 4 (aligned stride 4
    (fun s => spGather s ls (strideAt base stride) (fun bs s =>
      finish sw (put (.vec v (buildPlain 32 (readV s v) (laneFrom ls bs))) s))))) s)

/-- VSTLS vd, wa, [wg], m (07 R162). -/
def execVstls (sw : Bool) (v : BitVec 5) (a : BitVec 4) (g : BitVec 4) (m : BitVec 3) (s : State) : Out :=
  let base := readW s g
  let stride := readW s a
  let ls := activeLanes (readM s m)
  .next (declared (vecDeclared s [v]) (insn (encVstls sw v a g m)) (aligned (wrapped s base) 4 (aligned stride 4
    (fun s => finish sw (spScatter ls (strideAt base stride) (readV s v) s)))) s)

/-! ## Typed access (07 R154 to R157, R163) -/

/-- The attribute of a page (07 R154): the element format, the block geometry and the base of the sidecar. -/
structure PageAttr where
  fmt : Nat
  geom : Nat
  base : W64
  side : W64
  deriving DecidableEq, Repr

/-- The attribute that a leaf gives an address. -/
def pageAttr (sub : Bool) (leaf va : W64) : PageAttr :=
  let base := setBits va 0 (if sub then 10 else 21) 0
  { fmt := bits leaf 6 4, geom := bits leaf 48 2, base := base, side := base + sext (bits leaf 54 10) 10 * 4096 }

/-- Bytes of an element of a format. -/
def eltBytes (fmt : Nat) : Nat := fmtBits fmt / 8

/-- The span of `n` elements (07 R155). -/
def spanOf (p : PageAttr) (n : Nat) : Nat := if p.fmt == 0 then 512 else n * eltBytes p.fmt

/-- Whether elements of width `dw` pass through with their bits unchanged: raw bytes, or the register's own format. -/
def rawSpan (p : PageAttr) (dw : Nat) : Bool := p.fmt == 0 || p.fmt == (if dw == 32 then 1 else 2)

/-- The element index within the page of the first element of a span. -/
def firstCol (p : PageAttr) (va : W64) : Nat := (va - p.base).toNat / eltBytes p.fmt

/-- The scale bytes of the `n` elements of a span. -/
def scaleVas (p : PageAttr) (va : W64) (n : Nat) : List W64 :=
  (List.range (n / blockSize p.geom)).map (fun j => p.side + w64 (firstCol p va / blockSize p.geom + j))

/-- A typed access: an address that no format's span allows is misaligned whatever its page, and one on another module is
remote (03 R59); the span's translation gives the attribute, which gives the span's own alignment (assumption 126). -/
def typed (wr : Bool) (va : W64) (dw : Nat) (k : PageAttr → List Nat → State → State) (s : State) : State :=
  aligned va (4096 / dw) (onModule va (fun s =>
    let q := dataReq s va (!wr) wr
    match cachedLeaf s q with
    | none => miss q s
    | some leaf =>
      let p := pageAttr q.sub leaf va
      let n := 4096 / dw
      let side := if rawSpan p dw || p.geom == 0 then [] else (scaleVas p va n).map (fun x => (x, 1))
      aligned va (spanOf p n) (accessList ((va, spanOf p n) :: side) (!wr) wr (k p)) s)) s

/-- TLDG into elements of width `dw` (07 R156). -/
def tldg (dw word : Nat) (sw : Bool) (v : BitVec 5) (g : BitVec 4) (s : State) : State :=
  let va := readW s g
  let n := 4096 / dw
  declared (vecDeclared s [v]) (insn word) (typed false va dw (fun p ks s =>
    let span := spanOf p n
    let vas := (List.range span).map (fun i => va + w64 i) ++ (if p.geom == 0 then [] else scaleVas p va n)
    clean (poisonAt s ks) (firstPoison s vas ks) (fun s =>
      let bs := viewAt s ks
      if rawSpan p dw then finish sw (put (.vec v (vregOf (bs.take 512))) s)
      else
        let eb := eltBytes p.fmt
        let sc := bs.drop span
        let mode := rndOf s
        let r := buildLanes dw (readV s v) (fun i =>
          let x := decodeElem p.fmt (ofBytes ((bs.drop (eb * i)).take eb))
          let y := if p.geom == 0 then x else scaleFp x (sc.getD (i / blockSize p.geom) 0).toNat
          some (roundFp (fmtOf (if dw == 32 then 1 else 2)) mode y))
        finish sw (writeV v r s)) s)) s

/-- TLDG.F32 vd, [wg] (07 R156). -/
def execTldgF32 (sw : Bool) (v : BitVec 5) (g : BitVec 4) (s : State) : Out := .next (tldg 32 (encTldgF32 sw v g) sw v g s)
/-- TLDG.BF16 vd, [wg] (07 R156). -/
def execTldgBf16 (sw : Bool) (v : BitVec 5) (g : BitVec 4) (s : State) : Out := .next (tldg 16 (encTldgBf16 sw v g) sw v g s)

/-- The elements that TSTG writes, with their flags, and its scale bytes (07 R157). -/
def tstgData (p : PageAttr) (dw mode : Nat) (x : VReg) : List (Nat × BitVec 6) × List Nat :=
  let n := 4096 / dw
  let vals := (List.range n).map (fun i => decodeElem (if dw == 32 then 1 else 2) (elem x dw i))
  if p.geom == 0 then (vals.map (encodeElem p.fmt mode), [])
  else
    let b := blockSize p.geom
    let scales := (List.range (n / b)).map (fun j => sharedScale p.fmt ((vals.drop (b * j)).take b))
    (vals.mapIdx (fun i v => encodeElem p.fmt mode (unscaleFp v (scales.getD (i / b) 127))), scales)

/-- TSTG from elements of width `dw` (07 R157): the scales go to the sidecar, then the elements to the span. -/
def tstg (dw word : Nat) (sw : Bool) (v : BitVec 5) (g : BitVec 4) (s : State) : State :=
  let va := readW s g
  let n := 4096 / dw
  declared (vecDeclared s [v]) (insn word) (typed true va dw (fun p ks s =>
    let span := spanOf p n
    if rawSpan p dw then finish sw (storeSectors (ks.zip (vregBytes (readV s v))) s)
    else
      let r := tstgData p dw (rndOf s) (readV s v)
      let eb := eltBytes p.fmt
      let side := (ks.drop span).zip (r.2.map (BitVec.ofNat 8))
      let elts := (ks.take span).zip (r.1.flatMap (fun e => toBytes eb e.1))
      finish sw (flagFp (r.1.foldl (fun a e => a ||| e.2) 0) (storeSectors elts (storeSectors side s))))) s

/-- TSTG.F32 vd, [wg] (07 R157). -/
def execTstgF32 (sw : Bool) (v : BitVec 5) (g : BitVec 4) (s : State) : Out := .next (tstg 32 (encTstgF32 sw v g) sw v g s)
/-- TSTG.BF16 vd, [wg] (07 R157). -/
def execTstgBf16 (sw : Bool) (v : BitVec 5) (g : BitVec 4) (s : State) : Out := .next (tstg 16 (encTstgBf16 sw v g) sw v g s)

/-! ## Block moves (07 R164, R165) -/

/-- The end of an iteration: the registers take the progress made, and the instruction is issued again as the next
group while bytes remain. -/
def blockNext (d a b : BitVec 4) (len : Nat) (src : Bool) (s : State) : State :=
  let cnt := readW s b
  let s1 := writeW d (readW s d + w64 len) s
  let s2 := if src then writeW a (readW s a + w64 len) s1 else s1
  let s3 := writeW b (cnt - w64 len) s2
  if cnt.toNat == len then finish true s3 else close (.go (instrPc s.ctx)) s3

/-- Bytes of one iteration. -/
def blockLen (cnt dst : W64) (src : Option W64) : Nat :=
  min cnt.toNat (min (256 - bits dst 0 8) (match src with
    | some a => 256 - bits a 0 8
    | none => 256))

/-- The bytes of the pattern that BFILL lays at a destination. -/
def patternBytes (pat dst : W64) (len : Nat) : List Byte :=
  (List.range len).map (fun i => BitVec.ofNat 8 (bits pat (8 * (bits (dst + w64 i) 0 3)) 8))

/-- BMOV.G2L wd, wa, wc (07 R165). DESIGN CHOICE: TRAPV of DATAERR is the source address of the iteration (assumption 142). -/
def execBmovG2l (d a b : BitVec 4) (s : State) : Out :=
  let cnt := readW s b
  let dst := readW s d
  let src := readW s a
  let len := blockLen cnt dst (some src)
  .next (if cnt == 0 then finish true s
    else loadBytes src len (fun bs s => blockNext d a b len true (spWrite dst bs s)) s)

/-- BMOV.L2G wd, wa, wc (07 R165). -/
def execBmovL2g (d a b : BitVec 4) (s : State) : Out :=
  let cnt := readW s b
  let dst := readW s d
  let src := readW s a
  let len := blockLen cnt dst (some src)
  .next (if cnt == 0 then finish true s
    else access dst len false true (fun ks => spLoad src len (fun bs s =>
      blockNext d a b len true (storeSectors (ks.zip bs) s))) s)

/-- BFILL.G wd, wa, wc (07 R165). -/
def execBfillG (d a b : BitVec 4) (s : State) : Out :=
  let cnt := readW s b
  let dst := readW s d
  let len := blockLen cnt dst none
  .next (if cnt == 0 then finish true s
    else access dst len false true (fun ks s =>
      blockNext d a b len false (storeSectors (ks.zip (patternBytes (readW s a) dst len)) s)) s)

/-- BFILL.L wd, wa, wc (07 R165). -/
def execBfillL (d a b : BitVec 4) (s : State) : Out :=
  let cnt := readW s b
  let dst := readW s d
  let len := blockLen cnt dst none
  .next (if cnt == 0 then finish true s
    else blockNext d a b len false (spWrite dst (patternBytes (readW s a) dst len) s))

/-! ## Atomics (07 R166 to R168) -/

/-- The new value of an atomic on `n` bits: the operations of 07 R167 by their code. -/
def atomicNew (n op old v : Nat) : Nat :=
  match op with
  | 0 => alu n .add old v
  | 1 => alu n .and old v
  | 2 => alu n .or old v
  | 3 => alu n .xor old v
  | 4 => alu n .min old v
  | 5 => alu n .max old v
  | 6 => alu n .minu old v
  | 7 => alu n .maxu old v
  | 8 => v
  | _ => (add32 0 (w32 old) (w32 v)).1.toNat

/-- Bytes of an atomic by its size bit. -/
def atomBytes (z : BitVec 1) : Nat := if z == 1 then 8 else 4

/-- The stores that an atomic waits for: on the core's own die those before it in the buffer, elsewhere those to its bytes
(07 R168, 08 R174, R175). -/
def atomicAfter (s : State) (ks : List Nat) : List Nat :=
  let near := ks.any (fun k => keyDie k == coreDie s.core.id)
  ((storesOf s s.core).filter (fun e => (near && e.die == coreDie s.core.id) || e.cells.any (fun c => ks.contains c.1))).map (fun e => e.num)

/-- A global atomic (07 R168): as a load followed by a store it waits for the core's earlier stores, then the memory
agent reads and writes in one operation. `f` gives the value to write from the old one, if any. -/
def globalAtomic (n : Nat) (f : Nat → Option Nat) (sw : Bool) (d a : BitVec 4) (s : State) : State :=
  let va := readW s a
  aligned va n (access va n true true (fun ks s =>
    if !(atomicAfter s ks).isEmpty then wait (.stores (atomicAfter s ks)) s
    else clean (poisonAt s ks) va (fun s =>
      let s1 := seeAt ks s
      let old := ofBytes (ks.map (memGet s.mem))
      let s2 := match f old with
        | some v => performAtomic (ks.zip (toBytes n v)) s1
        | none => s1
      finish sw (writeW d (loadValue n true (toBytes n old)) s2)) s)) s

/-- A scratchpad atomic (07 R168). -/
def localAtomic (n : Nat) (f : Nat → Option Nat) (sw : Bool) (d a : BitVec 4) (s : State) : State :=
  let o := readW s a
  aligned (wrapped s o) n (spLoad o n (fun bs s =>
    let old := ofBytes bs
    let s1 := match f old with
      | some v => spWrite o (toBytes n v) s
      | none => s
    finish sw (writeW d (loadValue n true bs) s1))) s

/-- The operand of an atomic at its size. -/
def atomArg (s : State) (b : BitVec 4) (n : Nat) : Nat := bits (readW s b) 0 (8 * n)

/-- AMOG.op.sz wd, wb, [wa] and AMOL.op.sz. -/
def amog (op n : Nat) (sw : Bool) (d a b : BitVec 4) (s : State) : State :=
  globalAtomic n (fun old => some (atomicNew (8 * n) op old (atomArg s b n))) sw d a s
def amol (op n : Nat) (sw : Bool) (d a b : BitVec 4) (s : State) : State :=
  localAtomic n (fun old => some (atomicNew (8 * n) op old (atomArg s b n))) sw d a s

/-- AMOG.ADD wd, wb, [wa] (07 R167). -/
def execAmogAdd (sw : Bool) (d a b : BitVec 4) (z : BitVec 1) (s : State) : Out :=
  .next (amog 0 (atomBytes z) sw d a b s)
/-- AMOL.ADD wd, wb, [wa] (07 R167). -/
def execAmolAdd (sw : Bool) (d a b : BitVec 4) (z : BitVec 1) (s : State) : Out :=
  .next (amol 0 (atomBytes z) sw d a b s)
/-- AMOG.AND wd, wb, [wa] (07 R167). -/
def execAmogAnd (sw : Bool) (d a b : BitVec 4) (z : BitVec 1) (s : State) : Out :=
  .next (amog 1 (atomBytes z) sw d a b s)
/-- AMOL.AND wd, wb, [wa] (07 R167). -/
def execAmolAnd (sw : Bool) (d a b : BitVec 4) (z : BitVec 1) (s : State) : Out :=
  .next (amol 1 (atomBytes z) sw d a b s)
/-- AMOG.OR wd, wb, [wa] (07 R167). -/
def execAmogOr (sw : Bool) (d a b : BitVec 4) (z : BitVec 1) (s : State) : Out :=
  .next (amog 2 (atomBytes z) sw d a b s)
/-- AMOL.OR wd, wb, [wa] (07 R167). -/
def execAmolOr (sw : Bool) (d a b : BitVec 4) (z : BitVec 1) (s : State) : Out :=
  .next (amol 2 (atomBytes z) sw d a b s)
/-- AMOG.XOR wd, wb, [wa] (07 R167). -/
def execAmogXor (sw : Bool) (d a b : BitVec 4) (z : BitVec 1) (s : State) : Out :=
  .next (amog 3 (atomBytes z) sw d a b s)
/-- AMOL.XOR wd, wb, [wa] (07 R167). -/
def execAmolXor (sw : Bool) (d a b : BitVec 4) (z : BitVec 1) (s : State) : Out :=
  .next (amol 3 (atomBytes z) sw d a b s)
/-- AMOG.MIN wd, wb, [wa] (07 R167). -/
def execAmogMin (sw : Bool) (d a b : BitVec 4) (z : BitVec 1) (s : State) : Out :=
  .next (amog 4 (atomBytes z) sw d a b s)
/-- AMOL.MIN wd, wb, [wa] (07 R167). -/
def execAmolMin (sw : Bool) (d a b : BitVec 4) (z : BitVec 1) (s : State) : Out :=
  .next (amol 4 (atomBytes z) sw d a b s)
/-- AMOG.MAX wd, wb, [wa] (07 R167). -/
def execAmogMax (sw : Bool) (d a b : BitVec 4) (z : BitVec 1) (s : State) : Out :=
  .next (amog 5 (atomBytes z) sw d a b s)
/-- AMOL.MAX wd, wb, [wa] (07 R167). -/
def execAmolMax (sw : Bool) (d a b : BitVec 4) (z : BitVec 1) (s : State) : Out :=
  .next (amol 5 (atomBytes z) sw d a b s)
/-- AMOG.MINU wd, wb, [wa] (07 R167). -/
def execAmogMinu (sw : Bool) (d a b : BitVec 4) (z : BitVec 1) (s : State) : Out :=
  .next (amog 6 (atomBytes z) sw d a b s)
/-- AMOL.MINU wd, wb, [wa] (07 R167). -/
def execAmolMinu (sw : Bool) (d a b : BitVec 4) (z : BitVec 1) (s : State) : Out :=
  .next (amol 6 (atomBytes z) sw d a b s)
/-- AMOG.MAXU wd, wb, [wa] (07 R167). -/
def execAmogMaxu (sw : Bool) (d a b : BitVec 4) (z : BitVec 1) (s : State) : Out :=
  .next (amog 7 (atomBytes z) sw d a b s)
/-- AMOL.MAXU wd, wb, [wa] (07 R167). -/
def execAmolMaxu (sw : Bool) (d a b : BitVec 4) (z : BitVec 1) (s : State) : Out :=
  .next (amol 7 (atomBytes z) sw d a b s)
/-- AMOG.SWAP wd, wb, [wa] (07 R167). -/
def execAmogSwap (sw : Bool) (d a b : BitVec 4) (z : BitVec 1) (s : State) : Out :=
  .next (amog 8 (atomBytes z) sw d a b s)
/-- AMOL.SWAP wd, wb, [wa] (07 R167). -/
def execAmolSwap (sw : Bool) (d a b : BitVec 4) (z : BitVec 1) (s : State) : Out :=
  .next (amol 8 (atomBytes z) sw d a b s)
/-- AMOG.FADD.W wd, wb, [wa] (07 R167, R168). -/
def execAmogFadd (sw : Bool) (d a b : BitVec 4) (s : State) : Out := .next (amog 9 4 sw d a b s)
/-- AMOL.FADD.W wd, wb, [wa] (07 R167, R168). -/
def execAmolFadd (sw : Bool) (d a b : BitVec 4) (s : State) : Out := .next (amol 9 4 sw d a b s)

/-- What compare-and-swap writes: read_w(b) when the old value equals the expected one, read_w(d). -/
def casNew (s : State) (d b : BitVec 4) (n old : Nat) : Option Nat :=
  if old == atomArg s d n then some (atomArg s b n) else none

/-- CASG.sz wd, wb, [wa] (07 R168). -/
def execCasg (sw : Bool) (d a b : BitVec 4) (z : BitVec 1) (s : State) : Out :=
  .next (globalAtomic (atomBytes z) (casNew s d b (atomBytes z)) sw d a s)
/-- CASL.sz wd, wb, [wa] (07 R168). -/
def execCasl (sw : Bool) (d a b : BitVec 4) (z : BitVec 1) (s : State) : Out :=
  .next (localAtomic (atomBytes z) (casNew s d b (atomBytes z)) sw d a s)

/-! ## Waiting on a word (07 R170) -/

/-- The context's watches end. -/
def unwatch (s : State) : State :=
  let k := s.core.id
  let c := s.ctx.num
  { s with watches := s.watches.filter (fun w => !(w.core == k && w.ctx == c)),
           core := { s.core with watches := s.core.watches.filter (fun w => w.ctx != c) } }

/-- Whether a watch of the context has been satisfied at its memory agent. -/
def watchHit (s : State) : Bool := s.watches.any (fun w => w.core == s.core.id && w.ctx == s.ctx.num && w.hit.isSome)

/-- A watch of the context in focus on a doubleword. -/
def myWatch (s : State) (addr : Nat) (cc : BitVec 2) (arg : W64) : Watch :=
  { core := s.core.id, ctx := s.ctx.num, addr := addr, cc := cc, arg := arg, next := s.clk + 4096,
    hit := none }

/-- One turn of the loop of 07 R170: done when the condition holds or the timeout has run out, else a watch and a
wait. -/
def waitTurn (glob : Bool) (addr : Nat) (cc : BitVec 2) (arg v : W64) (sw : Bool) (d : BitVec 4) (s : State) : State :=
  let s1 := unwatch s
  if condHolds cc.toNat v arg || timedOut s then finish sw (writeW d v s1)
  else if glob then wait (.word true addr) { s1 with watches := s1.watches ++ [myWatch s1 addr cc arg] }
  else wait (.word false addr) { s1 with core := { s1.core with watches := s1.core.watches ++ [myWatch s1 addr cc arg] } }

/-- WAITW.cc.G wd, wb, [wa] (07 R170). -/
def execWaitwG (sw : Bool) (d a b : BitVec 4) (c : BitVec 2) (s : State) : Out :=
  let va := readW s a
  .next (aligned va 8 (access va 8 true false (fun ks s => clean (poisonAt s ks) va (fun s =>
    let s1 := acquire (if watchHit s then seeAt ks s else s)
    waitTurn true (ks.headD 0) c (readW s1 b) (w64 (ofBytes (viewAt s1 ks))) sw d s1) s)) s)

/-- WAITW.cc.L wd, wb, [wa] (07 R170). -/
def execWaitwL (sw : Bool) (d a b : BitVec 4) (c : BitVec 2) (s : State) : Out :=
  let o := readW s a
  .next (aligned (wrapped s o) 8 (spLoad o 8 (fun bs s =>
    waitTurn false (spOff s.ctx.spbase s.ctx.logspad o.toNat) c (readW s b) (w64 (ofBytes bs)) sw d s)) s)

end Sys2Proof.Machine
end

