-- ==== Sys2Proof/Machine/Order.lean ====
section
/-! DEFINITION. Stage barriers, fences and timelines (08 R184 to R194). -/
namespace Sys2Proof.Machine

/-- The wrapped offset of a barrier, a multiple of 16 (08 R194). -/
def atBarrier (o : W64) (k : State → State) (s : State) : State := aligned (wrapped s o) 16 k s

/-- An operation on a barrier of the context's launch (08 R185). -/
def barrierHere (o : W64) (f : W64 → W64) (s : State) : State :=
  { s with core := barrierOp s.ctx.spbase s.ctx.logspad o.toNat f s.core }

/-- BINIT wa, wb (08 R188, R194). -/
def execBinit (sw : Bool) (a b : BitVec 4) (s : State) : Out :=
  let o := readW s a
  let n := bits (readW s b) 0 16
  .next (atBarrier o (fun s =>
    finish sw (spWrite o (toBytes 8 (n * 2 ^ 24 + n * 2 ^ 40) ++ toBytes 8 0) s)) s)

/-- BEXPECT wa, wb (08 R194). -/
def execBexpect (sw : Bool) (a b : BitVec 4) (s : State) : Out :=
  let o := readW s a
  .next (atBarrier o (fun s => finish sw (barrierHere o (bExpect (bits (readW s b) 0 24)) s)) s)

/-- BARRIVE wa: a release (08 R176, R187), then arrive. -/
def execBarrive (sw : Bool) (a : BitVec 4) (s : State) : Out :=
  let o := readW s a
  .next (atBarrier o (fun s =>
    if (mineOut s).isEmpty then finish sw (barrierHere o bArrive (releaseFrom s.core.id s)) else wait (.stores (mineOut s)) s) s)

/-- DONE of a barrier of the context's launch. -/
def doneAt (s : State) (o : W64) : W64 := barrierDone s.core s.ctx o.toNat

/-- BWAIT wa, wb (08 R194). -/
def execBwait (sw : Bool) (a b : BitVec 4) (s : State) : Out :=
  let o := readW s a
  let t := readW s b
  .next (atBarrier o (fun s =>
    if t.toNat ≤ (doneAt s o).toNat then finish sw (acquire s) else wait (.barrier o.toNat t) s) s)

/-- BTEST wd, wa (08 R194). -/
def execBtest (sw : Bool) (d a : BitVec 4) (s : State) : Out :=
  let o := readW s a
  .next (atBarrier o (fun s => finish sw (writeW d (doneAt s o) (acquire s))) s)

/-- The outstanding stores that a fence orders: those of the context where its kinds have an earlier S (.SS, .SL), and those
that its loads have returned from the buffer where they have an earlier L (.LS, .LL), since a fence is cumulative (08 R190). -/
def fenceOut (k : BitVec 4) (s : State) : List Nat :=
  (if k.getLsbD 3 || k.getLsbD 2 then mineOut s else []) ++ (if k.getLsbD 1 || k.getLsbD 0 then sawOut s else [])

/-- What a fence does at its scope once the stores that it orders are performed, which every core of the die then sees: at PKG
scope what the die sees becomes visible on every die, and at SYS scope to the host and to other modules too (08 R177, R190). A
later load (.SL, .LL) is performed behind this moment. At DIE scope no agent of another die is ordered (08 R172). A fence with
.LS and .SS at SYS scope makes the later stores releases there (08 R191). -/
def fenceDone (p : BitVec 2) (k : BitVec 4) (s : State) : State :=
  let loads := k.getLsbD 2 || k.getLsbD 0
  match p.toNat with
  | 2 => (if loads then acquire else id) (releaseFrom s.core.id s)
  | 3 =>
    let s1 := (if loads then acquireSys else id) (publish s.core.id s)
    if k.getLsbD 3 && k.getLsbD 1 then { s1 with ctx := { s1.ctx with scope := 3 } } else s1
  | _ => s

/-- FENCE.scope.kinds (08 R190): CORE scope acts as NOP; a wider one waits until the stores that it orders are performed. -/
def execFence (sw : Bool) (p : FenceOp) (s : State) : Out :=
  let ns := fenceOut p.kinds s
  .next (if p.scope == 0 then finish sw s else if ns.isEmpty then finish sw (fenceDone p.scope p.kinds s) else wait (.stores ns) s)

/-- The watermark of a timeline of the core (08 R178). -/
def markOf (s : State) (id : BitVec 2) : Nat := (s.core.tls.get ⟨id.toNat, id.isLt⟩).mark

/-- TLWAIT id, wa (08 R192). -/
def execTlwait (sw : Bool) (a : BitVec 4) (imm : BitVec 2) (s : State) : Out :=
  let n := readW s a
  .next (if n.toNat ≤ markOf s imm then finish sw (acquireSys s) else wait (.timeline imm.toNat n) s)

/-- TLREAD wd, id (08 R193). -/
def execTlread (sw : Bool) (d : BitVec 4) (imm : BitVec 2) (s : State) : Out :=
  .next (finish sw (writeW d (w64 (markOf s imm)) (acquireSys s)))

end Sys2Proof.Machine
end

