-- ==== Sys2Proof/Machine/Copy.lean ====
section
/-! DEFINITION. Copy instructions (12 R270 to R291): their checks and their posts. The commands execute in
Machine/AgentCopy.lean. -/
namespace Sys2Proof.Machine

/-- The post of a copy command after the checks of its completion pair. -/
def copyPost (op : CmdOp) (credit : Nat) (sw : Bool) (d c : BitVec 4) (s : State) : State :=
  let wc := readW s c
  wcChecked wc (postEngine sw d 1 op wc (readWn s c 1) credit none) s

/-- The ILLEGAL check of the completion descriptor, which stands with the other checks of order 1. -/
def wcIllegal (c : BitVec 4) (k : State → State) (s : State) : State := legal (wcLegal (readW s c)) (readW s c) k s

/-- REMOTE for a VA that must lie on this module, after the alignment checks of the completion pair. -/
def copyLocal (vas : List W64) (c : BitVec 4) (k : State → State) (s : State) : State :=
  wcChecked (readW s c) (fun s => vas.foldr (fun va k => onModule va k) k s) s

/-! ## Moves (12 R276 to R278) -/

/-- CPY.G2L, CPY.L2G and CPY.G2G by `kind` 0 to 2. DESIGN CHOICE: with an illegal control word and an illegal completion
descriptor TRAPV receives the control word, here and in every post (assumption 124). -/
def cpyForm (kind : Nat) (sw : Bool) (d a b c : BitVec 4) (s : State) : State :=
  let dst := readW s d
  let src := readW s a
  let ctl := readW s b
  let vas := if kind == 0 then [src] else if kind == 1 then [dst] else [dst, src]
  legal (cpyCtlOk kind ctl) ctl (wcIllegal c
    ((if ctlDec ctl != 0 then aligned (wrapped s dst) (decSize (ctlDec ctl)) else id) (copyLocal vas c
      (copyPost (.cpy kind dst src ctl) (if kind == 0 then ctlLen ctl else 0) sw d c)))) s

/-- CPYR: from a remote VA to the local side. -/
def cpyrForm (glob sw : Bool) (d a b c : BitVec 4) (s : State) : State :=
  let dst := readW s d
  let ctl := readW s b
  legal (cpyCtlOk 3 ctl) ctl (wcIllegal c (copyLocal (if glob then [dst] else []) c
    (copyPost (.cpyr glob dst (readW s a) ctl) (if glob then 0 else ctlLen ctl) sw d c))) s

/-- CPYW: from the local side to a remote VA. -/
def cpywForm (glob sw : Bool) (d a b c : BitVec 4) (s : State) : State :=
  let src := readW s a
  let ctl := readW s b
  legal (cpyCtlOk 3 ctl) ctl (wcIllegal c (copyLocal (if glob then [src] else []) c
    (copyPost (.cpyw glob (readW s d) src ctl) 0 sw d c))) s

/-- CPY.G2L wd, wa, wb, wc. -/
def execCpyG2l (sw : Bool) (d a b c : BitVec 4) (s : State) : Out := .next (cpyForm 0 sw d a b c s)
/-- CPY.L2G wd, wa, wb, wc. -/
def execCpyL2g (sw : Bool) (d a b c : BitVec 4) (s : State) : Out := .next (cpyForm 1 sw d a b c s)
/-- CPY.G2G wd, wa, wb, wc. -/
def execCpyG2g (sw : Bool) (d a b c : BitVec 4) (s : State) : Out := .next (cpyForm 2 sw d a b c s)
/-- CPYR.L wd, wa, wb, wc. -/
def execCpyrL (sw : Bool) (d a b c : BitVec 4) (s : State) : Out := .next (cpyrForm false sw d a b c s)
/-- CPYR.G wd, wa, wb, wc. -/
def execCpyrG (sw : Bool) (d a b c : BitVec 4) (s : State) : Out := .next (cpyrForm true sw d a b c s)
/-- CPYW.L wd, wa, wb, wc. -/
def execCpywL (sw : Bool) (d a b c : BitVec 4) (s : State) : Out := .next (cpywForm false sw d a b c s)
/-- CPYW.G wd, wa, wb, wc. -/
def execCpywG (sw : Bool) (d a b c : BitVec 4) (s : State) : Out := .next (cpywForm true sw d a b c s)

/-! ## Remote reductions (12 R280) -/

def redNel (ctl : W64) : Nat := bits ctl 0 12
def redStype (ctl : W64) : Nat := bits ctl 12 2
def redDtype (ctl : W64) : Nat := bits ctl 14 1
def redSlice (ctl : W64) : Nat := bits ctl 16 16
def redScnt (ctl : W64) : Nat := bits ctl 32 10
/-- Bytes of a source element and of a destination element. -/
def redSrcBytes (stype : Nat) : Nat := if stype == 0 then 4 else if stype == 1 then 2 else 8
def redDstBytes (stype dtype : Nat) : Nat := if dtype == 1 then 2 else if stype == 2 then 8 else 4

/-- The ILLEGAL checks of CRED. -/
def credOk (slice : Bool) (ctl : W64) : Bool :=
  zeroIn ctl [(15, 1), (42, 22)] && redNel ctl != 0 && redStype ctl != 3 && !(redDtype ctl == 1 && redStype ctl == 2) &&
  redNel ctl * redSrcBytes (redStype ctl) ≤ 4096 && redNel ctl * redDstBytes (redStype ctl) (redDtype ctl) ≤ 4096 &&
  (slice || (redDtype ctl == 0 && redSlice ctl == 0 && redScnt ctl == 0))

/-- CRED.ADD and CRED.MAX, with .SLICE. DESIGN CHOICE: of several misaligned operands the destination is named before the
source, and both before the completion pair (assumption 125). -/
def credForm (isMax slice : Bool) (word : Nat) (sw : Bool) (d a b c : BitVec 4) (s : State) : State :=
  let dst := readW s d
  let src := readW s a
  let ctl := readW s b
  legal (credOk slice ctl) (insn word) (wcIllegal c (aligned dst 32 (aligned (wrapped s src) (redSrcBytes (redStype ctl))
    (copyPost (.cred isMax slice dst src ctl) 0 sw d c)))) s

/-- CRED.ADD wd, wa, wb, wc. -/
def execCredAdd (sw : Bool) (d a b c : BitVec 4) (s : State) : Out := .next (credForm false false (encCredAdd sw d a b c) sw d a b c s)
/-- CRED.MAX wd, wa, wb, wc. -/
def execCredMax (sw : Bool) (d a b c : BitVec 4) (s : State) : Out := .next (credForm true false (encCredMax sw d a b c) sw d a b c s)
/-- CRED.ADD.SLICE wd, wa, wb, wc. -/
def execCredAddSlice (sw : Bool) (d a b c : BitVec 4) (s : State) : Out := .next (credForm false true (encCredAddSlice sw d a b c) sw d a b c s)
/-- CRED.MAX.SLICE wd, wa, wb, wc. -/
def execCredMaxSlice (sw : Bool) (d a b c : BitVec 4) (s : State) : Out := .next (credForm true true (encCredMaxSlice sw d a b c) sw d a b c s)

/-! ## Remote atomics (12 R283) -/

/-- CATOM.op: the operand is read_w(b); for .CAS it is the expected value, and read_w(b + 1) the new one. DESIGN CHOICE:
of several misaligned operands the target VA is named first, then the offset, then the completion pair (assumption 125). -/
def catomForm (op : Nat) (wide : Bool) (sw : Bool) (d a b c : BitVec 4) (s : State) : State :=
  let va := readW s a
  let off := w64 (bits (readW s d) 0 19)
  wcIllegal c (aligned va (if wide then 8 else 4) (aligned (wrapped s off) 8
    (copyPost (.catom op wide off va (readW s b) (if op == 10 then readWn s b 1 else 0)) 8 sw d c))) s

/-- CATOM.ADD.sz wd, wa, wb, wc. -/
def execCatomAdd (sw : Bool) (d a b c : BitVec 4) (z : BitVec 1) (s : State) : Out := .next (catomForm 0 (z == 1) sw d a b c s)
/-- CATOM.AND.sz wd, wa, wb, wc. -/
def execCatomAnd (sw : Bool) (d a b c : BitVec 4) (z : BitVec 1) (s : State) : Out := .next (catomForm 1 (z == 1) sw d a b c s)
/-- CATOM.OR.sz wd, wa, wb, wc. -/
def execCatomOr (sw : Bool) (d a b c : BitVec 4) (z : BitVec 1) (s : State) : Out := .next (catomForm 2 (z == 1) sw d a b c s)
/-- CATOM.XOR.sz wd, wa, wb, wc. -/
def execCatomXor (sw : Bool) (d a b c : BitVec 4) (z : BitVec 1) (s : State) : Out := .next (catomForm 3 (z == 1) sw d a b c s)
/-- CATOM.MIN.sz wd, wa, wb, wc. -/
def execCatomMin (sw : Bool) (d a b c : BitVec 4) (z : BitVec 1) (s : State) : Out := .next (catomForm 4 (z == 1) sw d a b c s)
/-- CATOM.MAX.sz wd, wa, wb, wc. -/
def execCatomMax (sw : Bool) (d a b c : BitVec 4) (z : BitVec 1) (s : State) : Out := .next (catomForm 5 (z == 1) sw d a b c s)
/-- CATOM.MINU.sz wd, wa, wb, wc. -/
def execCatomMinu (sw : Bool) (d a b c : BitVec 4) (z : BitVec 1) (s : State) : Out := .next (catomForm 6 (z == 1) sw d a b c s)
/-- CATOM.MAXU.sz wd, wa, wb, wc. -/
def execCatomMaxu (sw : Bool) (d a b c : BitVec 4) (z : BitVec 1) (s : State) : Out := .next (catomForm 7 (z == 1) sw d a b c s)
/-- CATOM.SWAP.sz wd, wa, wb, wc. -/
def execCatomSwap (sw : Bool) (d a b c : BitVec 4) (z : BitVec 1) (s : State) : Out := .next (catomForm 8 (z == 1) sw d a b c s)
/-- CATOM.FADD.W wd, wa, wb, wc. -/
def execCatomFadd (sw : Bool) (d a b c : BitVec 4) (s : State) : Out := .next (catomForm 9 false sw d a b c s)
/-- CATOM.CAS.sz wd, wa, wb, wc. -/
def execCatomCas (sw : Bool) (d a b c : BitVec 4) (z : BitVec 1) (s : State) : Out := .next (catomForm 10 (z == 1) sw d a b c s)

/-! ## Multicast and drive reads (12 R284, R285) -/

def cmcGroup (ctl : W64) : Nat := bits ctl 0 12
def cmcLen (ctl : W64) : Nat := bits ctl 16 9
def cmcAck (ctl : W64) : Nat := bits ctl 32 19

/-- CMC wd, wa, wb, wc. A LEN above 256 lies outside the entry's limits (assumption 15). -/
def execCmc (sw : Bool) (d a b c : BitVec 4) (s : State) : Out :=
  let dst := readW s d
  let ctl := readW s b
  .next (legal (zeroIn ctl [(12, 4), (25, 7), (51, 13)] && 1 ≤ cmcLen ctl && cmcLen ctl ≤ 256) (insn (encCmc sw d a b c))
    (wcIllegal c (aligned (w64 (cmcAck ctl)) 32 (fun s =>
      if vaLoc dst % 32 == 0 then copyPost (.cmc dst (readW s a) ctl) 32 sw d c s else raise 0x03 dst s))) s)

/-- The control word of CSTOR. -/
def cstorOk (ctl : W64) : Bool := zeroIn ctl [(6, 2), (24, 40)]

/-- CSTOR.L wd, wa, wb, wc. The credit count is settled when the drive's block size is known. -/
def execCstorL (sw : Bool) (d a b c : BitVec 4) (s : State) : Out :=
  let ctl := readW s b
  .next (legal (cstorOk ctl) (insn (encCstorL sw d a b c)) (wcIllegal c
    (copyPost (.cstor false (readW s d) (readW s a) ctl) 0 sw d c)) s)

/-- CSTOR.G wd, wa, wb, wc. -/
def execCstorG (sw : Bool) (d a b c : BitVec 4) (s : State) : Out :=
  let ctl := readW s b
  .next (legal (cstorOk ctl) (insn (encCstorG sw d a b c)) (wcIllegal c (copyLocal [readW s d] c
    (copyPost (.cstor true (readW s d) (readW s a) ctl) 0 sw d c))) s)

/-! ## Decompression (12 R286, R287) -/

/-- CDEC wd, wa, wb, wc. DESIGN CHOICE: its control word and completion descriptor are checked before ABSENT (assumption 140). -/
def execCdec (sw : Bool) (d a b c : BitVec 4) (s : State) : Out :=
  let va := readW s a
  let ctl := readW s b
  let word := insn (encCdec sw d a b c)
  .next (legal (cdecCtlOk ctl) word (wcIllegal c (present (hasDecomp s) word (aligned va 4096 (copyLocal [va] c
    (copyPost (.cdec (w64 (bits (readW s d) 0 19)) va ctl) (bits ctl 0 20) sw d c))))) s)

/-- CDTAB wd, wa, wc. DESIGN CHOICE: its completion descriptor is checked before ABSENT (assumption 140). -/
def execCdtab (sw : Bool) (d a c : BitVec 4) (s : State) : Out :=
  let off := readW s a
  .next (wcIllegal c (present (hasDecomp s) (insn (encCdtab sw d a c)) (aligned (wrapped s off) 8
    (copyPost (.cdtab (bits (readW s d) 0 2) off) 0 sw d c))) s)

/-! ## Static schedules and sealed batches (12 R290, R291) -/

/-- SCHADV imm: the counter rises once, the due entries are posted as the channel has room, and the context waits until
none is left. -/
def execSchadv (sw : Bool) (imm : BitVec 13) (s : State) : Out :=
  let k := s.core.id
  let c := s.ctx.num.toNat
  let s1 := if s.ctx.got.isSome then s else updRes s.ctx.task (fun r => { r with stage := satAdd 16 r.stage imm.toNat }) s
  let s2 := focus k c (postDue k s.ctx.task s1)
  .next (if dueLeft s2 k s.ctx.task then wait (.queue 1) { s2 with ctx := { s2.ctx with got := some 0 } } else finish sw s2)

/-- SCHRD wd: STAGE of the context's launch. -/
def execSchrd (sw : Bool) (d : BitVec 4) (s : State) : Out :=
  .next (finish sw (writeW d (((resOf s.core s.ctx.task).map (fun r => w64 (r.stage + r.posted * 2 ^ 32))).getD 0) s))

/-- CSEAL wd: the batch closes at the highest COPY number; it finishes at once when that is complete. -/
def execCseal (sw : Bool) (d : BitVec 4) (s : State) : Out :=
  let t := s.core.tls.get 0
  .next (if s.core.batches.length ≥ 64 then wait (.batches 64) s
    else
      let n := s.core.sealed + 1
      let open_ := if t.issued ≤ t.mark then s.core.batches else s.core.batches ++ [t.issued]
      finish sw (writeW d (w64 (n % 2 ^ 32)) { s with core := { s.core with sealed := n, batches := open_ } }))

/-- CWAITN imm. -/
def execCwaitn (sw : Bool) (imm : BitVec 13) (s : State) : Out :=
  .next (if s.core.batches.length ≤ imm.toNat then finish sw (acquireSys s) else wait (.batches (imm.toNat + 1)) s)

end Sys2Proof.Machine
end

