-- ==== Sys2Proof/Machine/Network.lean ====
section
/-! DEFINITION. Network and group instructions (13 R298, R299, R307 to R313): their checks and their posts. A send
executes in Machine/AgentNet.lean. -/
namespace Sys2Proof.Machine

/-! ## Sends (13 R309) -/

/-- The destination word of NSEND: its Z bits are zero and it names another module. -/
def nsendDest (s : State) (w : W64) : Bool :=
  zeroIn w [(8, 8), (26, 6), (48, 16)] &&
  !(bits w 16 10 == s.accel.toNat && (bits w 32 16 == 0 || bits w 32 16 == s.site.toNat))

/-- Whether the part has the network endpoint: FEAT.UETH (16 R387, R388; 03 R58). -/
def hasNet (s : State) : Bool := bit s.feat 2

/-- NSEND.G and NSEND.L. DESIGN CHOICE: with an illegal control word and an illegal completion descriptor TRAPV receives
the control word (assumption 124), and either goes before ABSENT (assumption 140). -/
def nsendForm (glob : Bool) (word : Nat) (sw : Bool) (d a b c : BitVec 4) (s : State) : State :=
  let dst := readW s d
  let src := readW s a
  let ctl := readW s b
  let wc := readW s c
  legal (bits ctl 27 37 == 0) ctl (wcIllegal c (present (hasNet s) (insn word) (copyLocal (if glob then [src] else []) c (fun s =>
    if nsendDest s dst then postEngine sw d 2 (.nsend glob dst src ctl) wc (readWn s c 1) 0 none s
    else status sw stBaddest (writeW d 0 s))))) s

/-- NSEND.G wd, wa, wb, wc. -/
def execNsendG (sw : Bool) (d a b c : BitVec 4) (s : State) : Out := .next (nsendForm true (encNsendG sw d a b c) sw d a b c s)
/-- NSEND.L wd, wa, wb, wc. -/
def execNsendL (sw : Bool) (d a b c : BitVec 4) (s : State) : Out := .next (nsendForm false (encNsendL sw d a b c) sw d a b c s)

/-! ## Receive queues (13 R307, R310, R312) -/

/-- A receive queue. -/
def recvQueue (s : State) (q : Nat) : RecvQueue := alGet s.net.queues q { bound := none, bufs := [], landNum := 0 }
/-- Bytes that the buffer takes of a send. -/
def takes (x : Landing) : Nat := (x.buf.map (fun b => min x.total b.len)).getD 0

/-- Whether every byte of a send that its buffer takes has landed, and the buffer's completion actions are still to come. -/
def landedAll (x : Landing) : Bool := x.ended.isNone && takes x ≤ x.upTo

/-- Set a receive queue. -/
def setRecvQueue (q : Nat) (x : RecvQueue) (s : State) : State := { s with net := { s.net with queues := alPut s.net.queues q x } }

/-- The control word of a buffer. -/
def npostOk (ctl : W64) : Bool := bits ctl 27 25 == 0 && bits ctl 0 27 != 0 && bits ctl 0 27 % 64 == 0

/-- The buffer that the context in focus posts. -/
def mkBuf (s : State) (va ctl wc wc1 : W64) : RecvBuf :=
  { va := va, len := bits ctl 0 27, ptask := bits ctl 52 12, wc := wc, wc1 := wc1, core := s.core.id, ctx := s.ctx.num,
    inc := s.ctx.inc, task := s.ctx.task, asid := s.ctx.trap.asid.toNat, user := !s.ctx.trap.level, spa := coreSpa s.core,
    spbase := s.ctx.spbase, logspad := s.ctx.logspad, after := mineOut s }

/-- The post of a buffer to queue `q` with its statuses. -/
def npostQueue (sw : Bool) (q : Nat) (buf : RecvBuf) (s : State) : State :=
  let x := recvQueue s q
  if wcReply buf.wc && myOwe s + 1 > (myLaunch s).window then status sw stWindow s
  else if x.bound.any (fun t => t != s.ctx.task) then status sw stBadarg s
  else if x.bufs.length ≥ 64 then status sw stFull s
  else
    let s1 := setRecvQueue q { x with bound := some s.ctx.task, bufs := x.bufs ++ [buf] } s
    status sw stOk (if wcReply buf.wc then takeCredit 1 s1 else s1)

/-- NPOST wa, wb, rq: it waits for nothing; the buffer lies behind the stores that its post releases (08 R176). A VA on die 6
or 7 lies outside the entry's limits (assumption 15); of an illegal control word and an illegal completion descriptor
the control word is named (DESIGN CHOICE, assumption 124). Both words are checked before ABSENT, the die of the VA behind it
(DESIGN CHOICE, assumption 140). -/
def execNpost (sw : Bool) (a c : BitVec 4) (r : BitVec 8) (s : State) : Out :=
  let va := readW s a
  let ctl := readWn s a 1
  let wc := readW s c
  let word := insn (encNpost sw a c r)
  .next (legal (npostOk ctl) ctl (wcIllegal c (present (hasNet s) word (legal (vaDie va ≤ 5) word (aligned va 64
    (copyLocal [va] c (fun s =>
      npostQueue sw r.toNat (mkBuf s va ctl wc (readWn s c 1)) s)))))) s)

/-- NRQSTAT wd, rq. -/
def execNrqstat (sw : Bool) (d : BitVec 4) (r : BitVec 8) (s : State) : Out :=
  let x := recvQueue s r.toNat
  let mine := x.bound == some s.ctx.task
  let shown := x.bound.isNone || mine || s.ctx.trap.level
  let v := w64 (x.bufs.length + toBit x.bound.isSome * 2 ^ 7 + toBit mine * 2 ^ 8 +
    (if shown then (x.bound.getD 0).toNat * 2 ^ 20 + x.landNum % 2 ^ 32 * 2 ^ 32 else 0))
  .next (present (hasNet s) (insn (encNrqstat sw d r)) (fun s => finish sw (writeW d v s)) s)

/-! ## The group table (13 R298, R299, R313) -/

/-- An entry; all are zero at reset. -/
def groupOf (s : State) (g : Nat) : GroupEnt := alGet s.fab.groups g { words := List.replicate 20 0, owner := 0 }
/-- Set an entry. -/
def setGroup (g : Nat) (e : GroupEnt) (s : State) : State := { s with fab := { s.fab with groups := alPut s.fab.groups g e } }

def grpValid (e : GroupEnt) : Bool := bit (wordAt e.words 0) 12
def grpCount (e : GroupEnt) : Nat := bits (wordAt e.words 0) 13 11
def grpSwid (e : GroupEnt) : Nat := bits (wordAt e.words 0) 24 16
def grpNoAck (e : GroupEnt) : Bool := bits (wordAt e.words 0) 40 2 == 1
/-- Whether an accelerator is a member. -/
def grpMember (e : GroupEnt) (a : Nat) : Bool := bit (wordAt e.words (2 + a / 64)) (a % 64)

/-- The bits set in the member map of an image. -/
def memberBits (ws : List W64) : Nat := ((ws.drop 2).take 16).foldl (fun n w => n + popcOf 64 w.toNat) 0

/-- The checks of an image for entry `g`. -/
def imageOk (g : Nat) (ws : List W64) : Bool :=
  let w := wordAt ws 0
  bits w 0 12 == g && bits w 13 11 == memberBits ws && bits w 40 2 ≤ 1 && bits w 42 22 == 0 &&
  wordAt ws 1 == 0 && wordAt ws 18 == 0 && wordAt ws 19 == 0

/-- GRPSET wa, wb. -/
def execGrpset (sw : Bool) (d a : BitVec 4) (s : State) : Out :=
  let g := bits (readW s a) 0 12
  let off := wrapped s (readW s d)
  let own := s.ctx.trap.level || (groupOf s g).owner == s.ctx.trap.asid.toNat
  let go (s : State) : State := aligned off 8 (spLoad off 160 (fun bs s =>
    let ws := wordsOf 20 bs
    if imageOk g ws then status sw stOk (setGroup g { groupOf s g with words := ws } s) else status sw stBadarg s)) s
  .next (if own then go s else raise 0x02 (insn (encGrpset sw d a)) s)

/-- GRPSET.OWN wa, wb. -/
def execGrpsetOwn (sw : Bool) (d a : BitVec 4) (s : State) : Out :=
  let g := bits (readW s a) 0 12
  .next (system (insn (encGrpsetOwn sw d a)) (fun s =>
    finish sw (setGroup g { groupOf s g with owner := bits (readW s d) 0 16 } s)) s)

/-- GRPGET wd, wa. -/
def execGrpget (sw : Bool) (d a : BitVec 4) (s : State) : Out :=
  let e := groupOf s (bits (readW s a) 0 12)
  .next (finish sw (writeW d (w64 (bits (wordAt e.words 0) 0 42 + toBit (grpMember e (bits (readW s a) 16 10)) * 2 ^ 42)) s))

end Sys2Proof.Machine
end

