-- ==== Sys2Proof/Machine/Routing.lean ====
section
/-! DEFINITION. Expert-routing instructions (14 R336 to R343). The posted commands execute, and the ingress moves, in
Machine/AgentRoute.lean. -/
namespace Sys2Proof.Machine

/-- Status codes of RTSTAT.LAST (14 R337). -/
def rtOk : Nat := 0
def rtNocfg : Nat := 1
def rtBadarg : Nat := 2
def rtBusy : Nat := 3
def rtBadcfg : Nat := 4
def rtNoentry : Nat := 5

/-- The instruction completes with a status in RTSTAT. -/
def rtStatus (sw : Bool) (code : Nat) (s : State) : State := finish sw (put (.rtlast code) s)

/-- The die of the core in focus. -/
def myDie (s : State) : Nat := coreDie s.core.id

/-- Whether the part has the routing engines (14 R317, 03 R58). -/
def hasRouting (s : State) : Bool := bit s.feat 0

/-! ## Entry words (03 R69, 05 R109) -/

def entVregs (w : W64) : Nat := bits w 42 6
def entLists (w : W64) : Nat := bits w 39 3
def entAcc (w : W64) : Nat := bits w 36 3
def entHigh (w : W64) : Bool := bit w 35
def entLow (w : W64) : Bool := bit w 34
def entLimit (w : W64) : Nat := bits w 29 5

/-- The checks of R109 that name no queue. -/
def entryValid (w : W64) : Bool :=
  bits w 48 16 == 0xF1E0 && entVregs w ≤ 32 && entLists w ≤ 4 && entAcc w ≤ 4 &&
  (entLimit w == 0 || (10 ≤ entLimit w && entLimit w ≤ 30)) && bits w 0 29 == 0

/-- The request of an entry-word fill: an instruction fetch in the launch's ASID (05 R109). -/
def entryReq (s : State) (l : Launch) (core : Option Nat) (va : W64) : Req :=
  { va := va, asid := l.asid, sub := core.any (fun k => inSub (coreSpa (coreOf s k)) va), rd := false, wr := false,
    fetch := true, user := !l.firmware }

/-- Fetch the entry word at a PC that is a multiple of 8. -/
def rEntry (l : Launch) (core : Option Nat) (va : W64) : RegM W64 := fun s =>
  match rangeKeys s (entryReq s l core) [(va, 8)] with
  | .ok ks => if ks.any (fun k => s.poison.contains k) then .error (.lost 0x07 va) else .ok (w64 (ofBytes (ks.map (memGet s.mem))), s)
  | .error (q, .miss) => .error (.miss q)
  | .error (q, _) => .error (.lost 0x0F q.va)

/-- An entry word that may be out of reach: none where it cannot be fetched at all. -/
def rEntryOr (l : Launch) (core : Option Nat) (va : W64) : RegM (Option W64) := fun s =>
  match rEntry l core va s with
  | .ok (w, s1) => .ok (some w, s1)
  | .error (.lost _ _) => .ok (none, s)
  | .error e => .error e

/-! ## Posts (14 R339) -/

/-- Post a routing command: the wait for a queue entry, the next ROUTE number, and OK. -/
def routePost (sw : Bool) (op : CmdOp) (s : State) : State :=
  if s.core.routeq.length ≥ 16 then wait (.queue 3) s
  else rtStatus sw rtOk (pushCmd s.core.id 3 (mkCmd s op 0 0 0 (nextNum s.core 3) none) s)

/-- Whether the die's routing engine is configured for the context's launch. -/
def routesMine (s : State) : Bool := (routeOf s (myDie s)).cfg.any (fun c => c.task == s.ctx.task)

/-- RTGATE wa, wb. -/
def execRtgate (sw : Bool) (a b : BitVec 4) (s : State) : Out :=
  let off := wrapped s (readW s a)
  let tok := readW s b
  .next (present (hasRouting s) (insn (encRtgate sw a b)) (aligned off 4 (fun s =>
    if bits tok 34 30 != 0 then rtStatus sw rtBadarg s
    else if !routesMine s then rtStatus sw rtNocfg s
    else routePost sw (.rtgate off tok) s)) s)

/-- RTFLUSH. -/
def execRtflush (sw : Bool) (s : State) : Out :=
  .next (present (hasRouting s) (insn (encRtflush sw)) (fun s =>
    if !routesMine s then rtStatus sw rtNocfg s else routePost sw .rtflush s) s)

/-! ## Instructions that wait for the ingress (14 R340, R341, R343) -/

/-- Wait until nothing holds the ingress of a die. -/
def ingressWait (d : Nat) (s : State) : State := wait (.held (.place d)) s

/-- An event of the ingress made by the context in focus; it is applied behind the releases that wait. -/
def atIngress {α : Type} (d : Nat) (l : Launch) (m : RegM α) (k : α → State → State) (s : State) : State :=
  if !(routeOf s d).pend.isEmpty then ingressWait d s
  else match runRegion (.place d) l none 3 m s with
    | (s1, some a) => k a s1
    | (s1, none) => ingressWait d s1

/-- The field checks of a configuration record for die `d` (14 R318, R340). -/
def cfgFieldsOk (s : State) (d : Nat) (ws : List W64) : Bool :=
  let w (i : Nat) : W64 := wordAt ws i
  let within (v lo hi : Nat) : Bool := lo ≤ v && v ≤ hi
  let region (i n : Nat) : Bool := vaAccel (w i) == s.accel.toNat && vaDie (w i) == d && (w i).toNat % n == 0
  within (bits (w 0) 0 10) 1 512 && within (bits (w 0) 10 4) 1 8 && within (bits (w 0) 14 3) 1 4 &&
  within (bits (w 0) 17 4) 3 8 && within (bits (w 0) 23 5) 8 24 && within (bits (w 0) 28 4) 5 12 && bits (w 0) 41 23 == 0 &&
  within (bits (w 1) 0 10) 1 512 && within (bits (w 1) 10 9) 8 256 && within (bits (w 1) 19 13) 1 4096 &&
  bits (w 1) 32 32 != 0 && bits (w 2) 0 32 != 0 && bits (w 2) 32 32 != 0 &&
  region 6 64 && region 7 4096 && region 8 64 && region 9 64 && (w 10).toNat % 8 == 0 &&
  ((ws.drop 12).take 4).all (fun x => x == 0)

/-- The map of the valid groups and the experts homed on die `d`, from the group home map (14 R318). -/
def homedOf (s : State) (d : Nat) (gmap : List Nat) : List Nat :=
  (gmap.zipIdx.filter (fun p => p.1 / 2 ^ 15 % 2 == 1 && p.1 % 1024 == s.accel.toNat && p.1 / 1024 % 4 == d)).flatMap
    (fun p => (List.range 8).map (fun i => 8 * p.2 + i))

/-- The entries of 2 bytes of a map. -/
def mapOfBytes (n : Nat) (bs : List Byte) : List Nat := (List.range n).map (fun i => ofBytes ((bs.drop (2 * i)).take 2))

/-- The checks of the ERT region as software wrote it. -/
def ertOk (nslot : Nat) (ents : List (Nat × W64)) : Bool :=
  let held := (ents.filter (fun p => ertState p.2 == 2)).map (fun p => ertSlot p.2)
  ents.all (fun p => bits p.2 0 16 == p.1 && (ertState p.2 == 0 || ertState p.2 == 2) && bits p.2 48 16 == 0 && !bit p.2 19) &&
  held.all (fun n => n < nslot) && decide held.Nodup

/-- The checks of a record against memory: the configuration, or none for BADCFG. -/
def checkCfg (l : Launch) (d : Nat) (ws : List W64) : RegM (Option RouteCfg) := do
  let s ← get
  if !cfgFieldsOk s d ws then pure none
  else do
    let n := bits (wordAt ws 0) 0 10
    let bs ← rRead l none (wordAt ws 3) (2 * n)
    let gmap := mapOfBytes n bs
    let cfg : RouteCfg := { words := ws, task := l.task, asid := l.asid, gmap := gmap, homed := homedOf s d gmap }
    let ent ← (if vaAccel (wordAt ws 10) == s.accel.toNat then rEntryOr l none (wordAt ws 10) else pure none)
    if !ent.any (fun w => entryValid w && entLow w) then pure none
    else do
      let ents ← ertAll { d := d, cfg := cfg, l := l } cfg.homed
      pure (if ertOk (cfgSlots cfg) ents then some cfg else none)

/-- Whether a routing engine holds placements, records or fetches. -/
def routeBusy (r : Route) : Bool :=
  !r.lists.isEmpty || !r.outgoing.isEmpty || !r.incoming.isEmpty || r.intake.isSome ||
  r.bufs.any (fun p => p.2.count > 0 || p.2.out) || r.waitq.any (fun p => !p.2.ents.isEmpty) || !r.requests.isEmpty ||
  !r.fetching.isEmpty

/-- Whether the fetch of a handler's entry word waited for a fault that has been failed. -/
def entryFailed (s : State) (d : Nat) (va : W64) : Bool :=
  (holdOf s (.place d)).any (fun h => h.ended == some true && h.va == va)

/-- RTCFG wa. Transfers that wait for the ingress stay; those of another job are refused as they come up (14 R322). -/
def execRtcfg (sw : Bool) (a : BitVec 4) (s : State) : Out :=
  let va := readW s a
  let d := myDie s
  let r := routeOf s d
  .next (present (hasRouting s) (insn (encRtcfg sw a)) (aligned va 64 (fun s =>
    if r.cfg.any (fun c => c.task != s.ctx.task) || (r.cfg.isSome && routeBusy r) then rtStatus sw rtBusy s
    else if !(mineOut s).isEmpty then wait (.stores (mineOut s)) s
    else loadBytes va 128 (fun bs s =>
      let s := releaseFrom s.core.id s
      if entryFailed s d (wordAt (wordsOf 16 bs) 10) then rtStatus sw rtBadcfg (unhold (.place d) s)
      else atIngress d (myLaunch s) (checkCfg (myLaunch s) d (wordsOf 16 bs)) (fun c s =>
        match c with
        | none => rtStatus sw rtBadcfg s
        | some cfg => rtStatus sw rtOk
            (updRoute d (fun r => { Route.reset with cfg := some cfg, incoming := r.incoming, old := r.old }) s)) s) s)) s)

/-- An event on the entry of expert `e`: BADARG, NOCFG, NOENTRY, or the event. -/
def ertEvent (argOk : Bool) (e : Nat) (sw : Bool) (m : Ing → RegM Nat) (s : State) : State :=
  let d := myDie s
  if !argOk then rtStatus sw rtBadarg s
  else match ingOf s d with
    | none => rtStatus sw rtNocfg s
    | some x =>
      if !x.cfg.homed.contains e then rtStatus sw rtNoentry s
      else atIngress d x.l (m x) (fun code s => rtStatus sw code s) s

/-- An absent entry without a request asks for a slot, as on a placement. -/
def prefetch (x : Ing) (e : Nat) : RegM Nat := do
  let w ← ertRead x e
  if ertState w == 0 then requestSlot x e else pure ()
  pure rtOk

/-- The operations of ERTSET. -/
def ertsetOp (op e : Nat) (v : W64) (x : Ing) : RegM Nat := do
  match op with
  | 0 =>
    rWrite x.l none (ertVa x.cfg e + 8) (toBytes 8 v.toNat)
    pure rtOk
  | 1 => prefetch x e
  | 2 =>
    let w ← ertRead x e
    if ertState w == 2 && !ertRef w && !ertPinned w then do
      ertWrite x e (setBits (setBits w 16 2 0) 20 12 0)
      countRoute x 5
      retryAll x
      pure rtOk
    else pure rtBusy
  | _ =>
    let w ← ertRead x e
    ertWrite x e (setBits w 32 16 0)
    pure rtOk

/-- ERTSET wa, wb. -/
def execErtset (sw : Bool) (a b : BitVec 4) (s : State) : Out :=
  let v := readW s a
  .next (present (hasRouting s) (insn (encErtset sw a b))
    (ertEvent (bits v 18 46 == 0) (bits v 0 16) sw (ertsetOp (bits v 16 2) (bits v 0 16) (readW s b))) s)

/-- ERTPIN sets PINNED, and an absent entry prefetches. -/
def pinOp (e : Nat) (x : Ing) : RegM Nat := do
  let w ← ertRead x e
  ertWrite x e (setBits w 18 1 1)
  prefetch x e

/-- ERTUNPIN clears PINNED and retries the requests. -/
def unpinOp (e : Nat) (x : Ing) : RegM Nat := do
  let w ← ertRead x e
  ertWrite x e (setBits w 18 1 0)
  retryAll x
  pure rtOk

/-- ERTPIN wa: wa is the expert id. -/
def execErtpin (sw : Bool) (a : BitVec 4) (s : State) : Out :=
  let v := readW s a
  .next (present (hasRouting s) (insn (encErtpin sw a)) (ertEvent true v.toNat sw (pinOp v.toNat)) s)

/-- ERTUNPIN wa. -/
def execErtunpin (sw : Bool) (a : BitVec 4) (s : State) : Out :=
  let v := readW s a
  .next (present (hasRouting s) (insn (encErtunpin sw a)) (ertEvent true v.toNat sw (unpinOp v.toNat)) s)

/-- ERTQ wd, wa: word 0 of an entry, or a counter; wd is 0 beside a failing status (assumption 16). -/
def execErtq (sw : Bool) (d a : BitVec 4) (s : State) : Out :=
  let v := readW s a
  let n := bits v 17 3
  let counter := bit v 16
  let bad := bits v 20 44 != 0 || (if counter then bits v 0 16 != 0 else n != 0)
  let fail (code : Nat) (s : State) : State := rtStatus sw code (writeW d 0 s)
  let k := myDie s
  .next (present (hasRouting s) (insn (encErtq sw d a)) (fun s =>
    if bad then fail rtBadarg s
    else match ingOf s k with
      | none => fail rtNocfg s
      | some x =>
        if counter then rtStatus sw rtOk (writeW d ((routeOf s k).counters.get ⟨n % 8, Nat.mod_lt _ (by decide)⟩) s)
        else if !x.cfg.homed.contains (bits v 0 16) then fail rtNoentry s
        else atIngress k x.l (ertRead x (bits v 0 16)) (fun w s => rtStatus sw rtOk (writeW d w s)) s) s)

/-- The die whose ingress handed the buffer of an expert and round to the activation in focus. -/
def heldDie (s : State) (e round : Nat) : Option Nat :=
  [0, 1, 2, 3].find? (fun k => let b := bufOf (routeOf s k) e
    b.out && b.holder == some (s.core.id, s.ctx.num, s.ctx.inc) && b.round % 2 ^ 32 == round)

/-- RTBUF wd: the release of the handle's buffer, and the number of placements moved into the new round. -/
def execRtbuf (sw : Bool) (d : BitVec 4) (s : State) : Out :=
  let h := readW s d
  let e := bits h 0 16
  .next (present (hasRouting s) (insn (encRtbuf sw d)) (fun s =>
    match (if bits h 48 16 == 0 then heldDie s e (bits h 16 32) else none) with
    | none => rtStatus sw rtBadarg (writeW d (BitVec.allOnes 64) s)
    | some k => match ingOf s k with
      | none => rtStatus sw rtBadarg (writeW d (BitVec.allOnes 64) s)
      | some x => atIngress k x.l (releaseBuf x e) (fun n s => rtStatus sw rtOk (writeW d (w64 n) s)) s) s)

end Sys2Proof.Machine
end

