-- ==== Sys2Proof/Machine/System.lean ====
section
/-! DEFINITION. System instructions (15 R367 to R373). -/
namespace Sys2Proof.Machine

/-! ## Traps (15 R368, R369) -/

/-- SYSC imm. -/
def execSysc (imm : BitVec 13) (s : State) : Out := .next (raise 0x0B (imm.setWidth 64) s)
/-- BRK imm. -/
def execBrk (imm : BitVec 13) (s : State) : Out := .next (raise 0x0A (imm.setWidth 64) s)

/-- TRET: PRIV, then ILLEGAL outside a trap, then MISALIGN; the return itself is made at the close of the group. -/
def execTret (s : State) : Out :=
  let word := insn encTret
  let pc := s.ctx.trap.trappc
  .next (system word (legal s.ctx.trap.intrap word (aligned pc 4 (close (.tret pc)))) s)

/-! ## Translation (15 R370, R371) -/

/-- The generation of an ASID rises on a Retort; at a wrap the cached leaves of the ASID go (15 R358). -/
def raiseGen (asid : Nat) (r : Retort) : Retort :=
  let g := (genOf r asid + 1) % 2 ^ 32
  { r with gens := alPut r.gens asid g, cache := if g == 0 then r.cache.filter (fun e => e.asid != asid) else r.cache,
           dirs := if g == 0 then r.dirs.filter (fun e => e.asid != asid) else r.dirs }

/-- TLBGEN wa: the generations rise once, and the context waits until no store is outstanding. -/
def execTlbgen (sw : Bool) (a : BitVec 4) (s : State) : Out :=
  let v := readW s a
  .next (legal (bits v 16 48 == 0) v (system (insn (encTlbgen sw a)) (fun s =>
    let s1 := if s.ctx.got.isSome then s else { s with retorts := s.retorts.map (raiseGen v.toNat) }
    if allStoresDone s1 then finish sw (releaseFrom s1.core.id s1)
    else wait .allStores { s1 with ctx := { s1.ctx with got := some 0 } })) s)

/-- The result of TLBPROBE. -/
def probe (s : State) (va : W64) : W64 :=
  let q := dataReq s va false false
  if dieAbsent s (vaDie va) then BitVec.allOnes 64
  else match walkLeaf s q.asid q.sub va with
    | .absent => 0
    | .bad => BitVec.allOnes 64
    | .entry v => if bit v 0 && !leafValid q.sub v then BitVec.allOnes 64 else v

/-- TLBPROBE wd, wa. -/
def execTlbprobe (sw : Bool) (d a : BitVec 4) (s : State) : Out :=
  let va := readW s a
  .next (system (insn (encTlbprobe sw d a)) (onModule va (fun s => finish sw (writeW d (probe s va) s))) s)

/-! ## Faults (15 R362, R372) -/

/-- A context parked in place on a fault goes on: it retries, or takes the FAULT trap. The clk of the park do not count
(15 R363). -/
def wakeParked (clk r fid : Nat) (fails : Bool) (x : Ctx) : Ctx :=
  match x.status with
  | .parked d f =>
    if (retortIx d).val == r && f == fid then
      { x with status := .ready, since := none, got := none, xfail := if fails then x.fva else none, fva := none,
               start := x.start + ((clk - x.since.getD clk : Nat) : Int) }
    else x
  | _ => x

/-- A framed activation of a resolved fault becomes restorable. -/
def wakeFramed (r : Nat) (fid : Nat) (fails : Bool) (p : Parked) : Parked :=
  if (retortIx p.die).val == r && p.fid == fid && !p.ready then { p with ready := true, fails := fails } else p

/-- What a resolved fault wakes on one core. -/
def wakeCore (clk r fid : Nat) (fails : Bool) (c : Core) : Core :=
  { c with ctxs := c.ctxs.map (fun p => (p.1, wakeParked clk r fid fails p.2)), parked := c.parked.map (wakeFramed r fid fails) }

/-- An open fault is resolved: its record frees, contexts and agents go on (15 R362, R425). -/
def resolveFault (r fid : Nat) (fails : Bool) (s : State) : State :=
  let t := retortOf s r
  match t.faults.find? (fun f => f.fid == fid) with
  | none => s
  | some f =>
    let s1 := sample 6 r (some f.core) (s.clk - f.since) <| setRetort s r { t with faults := t.faults.filter (fun f => f.fid != fid) }
    let ended (h : Hold) : Hold :=
      if (retortIx h.die).val == r && h.fid == fid && h.ended.isNone && !h.walking then { h with ended := some fails } else h
    flushWaiting { s1 with
                        ctx := wakeParked s1.clk r fid fails s1.ctx, core := wakeCore s1.clk r fid fails s1.core,
                        cores := s1.cores.map (fun p => (p.1, wakeCore s1.clk r fid fails p.2)), holds := s1.holds.map ended }

/-- FLTRES wa: after the stores of the context. -/
def execFltres (sw : Bool) (a : BitVec 4) (s : State) : Out :=
  let v := readW s a
  .next (legal (bits v 21 43 == 0 && bits v 16 2 ≤ 1 && bits v 18 3 ≤ 5) v (system (insn (encFltres sw a)) (fun s =>
    if (mineOut s).isEmpty then finish sw (resolveFault (bits v 18 3) (bits v 0 16) (bits v 16 2 == 1) (releaseFrom s.core.id s))
    else wait (.stores (mineOut s)) s)) s)

/-! ## Context state (15 R373) -/

/-- Whether the named context can be saved or loaded: free, stopped by HALT, or parked in place. -/
def ctxHeld (s : State) (n : Nat) : Bool := waitOver s s.core s.ctx (.stopped n)

/-- The common part of CTXSAVE and CTXREST: the operand checks, and the wait until the named context is stopped. DESIGN CHOICE: naming
the issuing context is an operand check, ahead of PRIV, with read_w(a) in TRAPV (assumption 141). -/
def ctxForm (word : Nat) (a : BitVec 4) (k : Nat → W64 → State → State) (s : State) : State :=
  let v := readW s a
  let n := bits v 0 4
  legal (bits v 4 6 == 0 && n != s.ctx.num.toNat) v (system (insn word) (fun s =>
    if ctxHeld s n then k n (v &&& ~~~1023) s else wait (.stopped n) s)) s

/-- CTXSAVE wa. -/
def execCtxsave (sw : Bool) (a : BitVec 4) (s : State) : Out :=
  .next (ctxForm (encCtxsave sw a) a (fun n va s =>
    let x := ctxOf s s.core.id n
    let bs := if x.status == .free then List.replicate 1024 0 else frameBytes s x
    storeBytes va bs (finish sw) s) s)

/-- CTXREST: the named context with the frame in place of its own state. -/
def restoreCtx (s : State) (bs : List Byte) (x : Ctx) : Ctx :=
  if x.status != .free && frameMatches bs x then
    let y := loadFrame s bs x
    match x.status with
    | .parked _ _ => y
    | _ => { y with status := .ready }
  else x

/-- CTXREST wa. -/
def execCtxrest (sw : Bool) (a : BitVec 4) (s : State) : Out :=
  .next (ctxForm (encCtxrest sw a) a (fun n va s =>
    let x := ctxOf s s.core.id n
    loadBytes va (frameLen x) (fun bs s => finish sw (updCtx s.core.id n (restoreCtx s bs) { s with core :=
      { s.core with reuse := s.core.reuse.filter (fun p => p.ctx.toNat != n) } })) s) s)

end Sys2Proof.Machine
end

