-- ==== Sys2Proof/Machine/AgentCore.lean ====
section
/-! DEFINITION. The steps of a core besides the issue of its instructions: the close of a group (03 R45, R46), the vector
pipes, ILLEGAL words, the watchdog, timeouts of waits, walks, parking and restore, halt and drain. An `On` predicate says
when the manual gives the agent its step. -/
namespace Sys2Proof.Machine

/-- A step of an agent: `ok` says that the machine gives it now. -/
def event (ok : Bool) (name : String) (k : State → State) (s : State) : Out :=
  if ok then .next (k s) else .fault (.notEnabled name)

/-- ILLEGAL_WORD: an HX word is gathered into the run; any other word or run offence raises ILLEGAL (03 R57, R62). -/
def execIllegalWord (w : W32) (held : Bool) (s : State) : Out :=
  .next (if held then gather w.toNat s else raise 0x01 (w.setWidth 64) s)

/-! ## The close of a group (03 R45, R46) -/

/-- The context goes on at an address with a new group. -/
def Ctx.resumeAt (pc : W64) (c : Ctx) : Ctx := { c with status := .ready, pc := pc }

/-- END: the activation retires; inside a trap handler it is a kill with an error record (15 R350). -/
def closeRetire (s : State) : State :=
  let k := s.core.id
  let x := s.ctx
  if x.trap.intrap then
    errOfCtx k x (bits x.trap.trapc 0 8) false true x.trap.trappc x.trap.trapv (retire k x.num.toNat .killed s)
  else retire k x.num.toNat .ended s

/-! ### Migration (05 R121) -/

/-- The destination word of a migration; none: BADDEST. -/
def migrDest (x : Bool) (r : BitVec 4) (pri : Option Bool) (s : State) : Option W64 :=
  let v := readW s r
  let flags := s.ctx.fpflags.toNat + s.ctx.fprnd.toNat * 2 ^ 6
  let w0 (mode : Nat) (p : Bool) (k : Nat) (radius : Nat) : W64 :=
    setBits (destWord 0 p mode 0 s.accel.toNat (coreDie k) (coreX k) (coreY k) 7 0 0) 54 3 radius ||| w64 flags
  if x then
    let p := pri.getD (mPri v)
    if mClass v == 0 && (mMode v == 0 || mMode v == 1) && destOk s (myLaunch s) v 0 16 false false 0 && here s v then
      some (w0 (mMode v) p (mCore v) (if mMode v == 1 then mRadius v else 0))
    else none
  else match homeCore s v with
    | none => none
    | some k => if vaAccel v == s.accel.toNat then some (w0 3 (pri.getD false) k 0) else none

/-- The message of a migration: the requester's source stays when a reply is owed. -/
def migrMsg (w0 : W64) (fall : Nat) (s : State) : Msg :=
  let c := s.ctx
  let owes := bit c.msg.hstat 2 && !bit c.msg.hstat 3
  let w2 := if owes then setBits c.msg.hdr2 0 8 0 else myHdr2 s 0
  { w0 := w0, w1 := c.pc + 4, w2 := w2, w3 := hdr3 128 16 owes false fall, words := payload s 0 16, bulk := [], dst := 0,
    ssite := if owes then BitVec.ofNat 16 (bits c.msg.hstat 16 16) else 0 }

/-- A migration that could not be posted: the activation goes on with a status. -/
def migrFail (code : Nat) (s : State) : State :=
  let s1 := applyWrite s.ctx.trap.level s (.slast code)
  { s1 with ctx := s1.ctx.resumeAt (s1.ctx.pc + 4) }

/-- MIGR and MIGRX at the close of their group. -/
def closeMigr (x : Bool) (r : BitVec 4) (pri : Option Bool) (s : State) : State :=
  let fall := s.ctx.entry - (s.ctx.pc + 4)
  match migrDest x r pri s with
  | none => migrFail stBaddest s
  | some w0 =>
    let cr := toBit (mPri w0)
    if !fits32 fall then migrFail stBadarg s
    else if myOwe s + cr > (myLaunch s).window then migrFail stWindow s
    else match outRoom s s.core s.ctx.task (mPri w0) 0 with
      | none => migrFail stFull s
      | some slots =>
        let k := s.core.id
        let c := s.ctx.num.toNat
        retire k c .migrated (takeCredit cr (postMine slots (migrMsg w0 (bits fall 0 32) s) s))

/-- What the closing instruction does once the writes are in. -/
def closeAct (a : CloseAct) (s : State) : State :=
  match a with
  | .next => { s with ctx := s.ctx.resumeAt s.ctx.pc }
  | .go pc => { s with ctx := s.ctx.resumeAt pc }
  | .call pc ret => forget s.ctx.num true (fun e => e == (winIx (s.ctx.depth + 1) 15).val)
      { s with ctx := ({ s.ctx with depth := s.ctx.depth + 1 }.setReg 15 ret).resumeAt pc }
  | .ret pc => { s with ctx := { s.ctx with depth := s.ctx.depth - 1 }.resumeAt pc }
  | .tret pc => { forgetSaved s with ctx := trapReturn pc s.ctx }
  | .retire => closeRetire s
  | .migr x r pri => closeMigr x r pri s

/-- A group can close once its vector results are in; the watchdog kills in mid-group without the close (15 R363). -/
def groupCloseOn (s : State) (k c : Nat) : Bool :=
  match (ctxOf s k c).status with
  | .closing _ => !(coreOf s k).vecq.contains (BitVec.ofNat 4 c, (ctxOf s k c).inc) && !expired s (ctxOf s k c)
  | _ => false

/-- The close of the group of the context in focus. -/
def closeGroup (s : State) : State :=
  match s.ctx.status with
  | .closing a => closeAct a (deliver s)
  | _ => s

/-- GROUP_CLOSE (03 R45, R46, R48). -/
def execGroupClose (k c : Nat) (s : State) : Out :=
  event (groupCloseOn s k c) "GROUP_CLOSE" (fun s => closeGroup (focus k c s)) s

/-- The core of the quad that a pipe grants next: round robin behind the place granted last, skipping the cores whose
queue is empty (09 R199). After reset the place is the last of the quad (assumption 7). -/
def pipeNext (s : State) (k p : Nat) : Option Nat :=
  let i := alGet s.pipes (pipeNo k p) 3
  let cs := quadCores k
  ((cs.drop (i + 1)) ++ cs.take (i + 1)).find? (fun j => !(coreOf s j).vecq.isEmpty)

/-- The pipe that grants the head of core `k`, the lower one where both would (assumption 128). -/
def pipeFor (s : State) (k : Nat) : Option Nat := [0, 1].find? (fun p => pipeNext s k p == some k)

/-- The head of a dispatch queue has executed; registers that a retired activation left return behind its last result
(09 R197). -/
def vecDone (c : Core) : Core :=
  let q := c.vecq.drop 1
  { c with vecq := q, vheld := c.vheld.filter (fun h => q.contains (h.ctx, h.inc)) }

/-- VECTOR_PIPE_GRANT: a pipe of the quad's vector unit grants the head of the core's dispatch queue (09 R199). -/
def execVectorPipeGrant (k : Nat) (s : State) : Out :=
  event (pipeFor s k).isSome "VECTOR_PIPE_GRANT" (fun s =>
    let s1 := updCore k vecDone s
    match pipeFor s k with
    | some p => { s1 with pipes := alPut s1.pipes (pipeNo k p) ((quadCores k).findIdx (fun j => j == k)) }
    | none => s1) s

/-! ## The watchdog (15 R363) -/

/-- Whether the watchdog of a context has run out. -/
def watchdogOn (s : State) (k c : Nat) : Bool :=
  let x := ctxOf s k c
  (match x.status with
   | .free => false
   | .parked _ _ => false
   | _ => true) && !stopped s (coreOf s k) x && expired s x

/-- WATCHDOG: a kill in mid-group, without the pending writes. -/
def execWatchdog (k c : Nat) (s : State) : Out :=
  event (watchdogOn s k c) "WATCHDOG" (fun s =>
    let x := ctxOf s k c
    errOfCtx k x 0x08 false true (instrPc x) 0 (retire k c .killed s)) s

/-! ## Timeouts of waits (05 R120, 07 R170) -/

/-- Whether the timeout of a waiting context has run out. -/
def waitExpired (s : State) (k : Nat) (x : Ctx) : Bool :=
  x.wto != 0 && x.wto.toNat ≤ s.clk - x.since.getD s.clk && !stopped s (coreOf s k) x

def recvwTimeoutOn (s : State) (k c : Nat) : Bool :=
  let x := ctxOf s k c
  match x.status with
  | .waiting (.recvw _ _) => waitExpired s k x && (heldFor (coreOf s k) x false).isEmpty &&
      !(coreOf s k).pulls.any (fun p => p.ctx == x.num && p.inc == x.inc)
  | _ => false

/-- RECVW_TIMEOUT: RECVW completes with KIND 3. -/
def execRecvwTimeout (k c : Nat) (s : State) : Out :=
  event (recvwTimeoutOn s k c) "RECVW_TIMEOUT" (fun s =>
    let s1 := focus k c s
    match s1.ctx.status with
    | .waiting (.recvw _ sw) => finish sw (put (.rstat 3) s1)
    | _ => s1) s

def waitwTimeoutOn (s : State) (k c : Nat) : Bool :=
  let x := ctxOf s k c
  match x.status with
  | .waiting (.word _ _) => waitExpired s k x
  | _ => false

/-- WAITW_TIMEOUT: the watch ends and WAITW reads its word once more. -/
def execWaitwTimeout (k c : Nat) (s : State) : Out :=
  event (waitwTimeoutOn s k c) "WAITW_TIMEOUT" (fun s =>
    let s1 := unwatch (focus k c s)
    { s1 with ctx := { s1.ctx with status := .ready } }) s

/-- A watch that its memory agent evaluates again; it stays due until that is done. -/
def watchDue (s : State) (k c : Nat) (w : Watch) : Bool := w.core == k && w.ctx.toNat == c && w.hit.isNone && w.next ≤ s.clk

def watchPeriodicOn (s : State) (k c : Nat) : Bool := s.watches.any (watchDue s k c)

/-- WATCH_PERIODIC: the memory agent evaluates a watch again. -/
def execWatchPeriodic (k c : Nat) (s : State) : Out :=
  event (watchPeriodicOn s k c) "WATCH_PERIODIC" (fun s =>
    { s with watches := s.watches.map (fun w =>
        if watchDue s k c w then { wakeWatches s.mem [w.addr] w with next := w.next + 4096 } else w) }) s

/-! ## Walks and parking (15 R356 to R362) -/

/-- The number of the lowest free frame of the park area of a core. -/
def freeFrame (c : Core) : Option Nat :=
  let f := lowestFree (c.parked.map (fun p => p.frame))
  if c.regs.parkb == 0 || f ≥ 64 then none else some f

/-- The key of a frame in memory: die-local, in the HBM of the core's die. DESIGN CHOICE (assumption 118): a physical address that
firmware sets behind the end of the HBM names bytes of its own, here as for the ASID directory and the fault ring. -/
def frameKey (c : Core) (f : Nat) : Nat := physKey (coreDie c.id) (c.regs.parkb.toNat + 17408 * f)

/-- The context in focus as it parks: its earlier writes delivered, at the faulting instruction. -/
def parkedCtx (va : W64) (s : State) : State :=
  let pc := instrPc s.ctx
  let s1 := deliver s
  { s1 with ctx := { s1.ctx with pc := pc, run := [], gcount := 0, since := none, got := none, fva := some va } }

/-- The context in focus parks on a fault, in a frame or in place. -/
def parkOn (die fid : Nat) (va : W64) (s : State) : State :=
  let s1 := parkedCtx va s
  let x := s1.ctx
  match freeFrame s1.core with
  | none => { s1 with ctx := { x with status := .parked die fid, since := some s1.clk } }
  | some f =>
    let s2 := perform s1 (cellsAt (frameKey s1.core f) (frameBytes s1 x))
    let p : Parked := { frame := f, ctx := x.num, inc := x.inc, task := x.task, die := die, fid := fid, fails := false,
                        ready := false, since := s1.clk, saved := { x with status := .ready } }
    { s2 with ctx := x.freed,
              core := { s2.core with parked := s2.core.parked ++ [p], vecq := s2.core.vecq.filter (fun n => n != (x.num, x.inc)),
                                     reuse := s2.core.reuse.filter (fun q => q.ctx != x.num) } }

/-- The request with which a walker still waits for a walk: a context by its status, an agent by its hold. -/
def walkerReq (s : State) (w : Walk) (p : Walker) : Option Req :=
  match p with
  | .ctx k c => (match (ctxOf s k c.toNat).status with
    | .walking r => if r.asid == w.req.asid && r.sub == w.req.sub && vaDie r.va == vaDie w.req.va &&
        pageNo r.sub (vaLoc r.va) == pageNo w.req.sub (vaLoc w.req.va) then some r else none
    | _ => none)
  | .agent key _ q _ => if s.holds.any (fun h => h.key == key && h.walking && h.ended.isNone) then some q else none

/-- Where a walk ends: the generation has risen meanwhile and the requests start again (15 R358), at an invalid entry, at
an entry with V = 0, or at a leaf. -/
inductive WalkEnd where
  | again
  | bad
  | absent
  | leaf (v : W64)
  deriving DecidableEq, Repr

/-- The end of a walk (15 R355, R356). -/
def walkEnd (s : State) (w : Walk) : WalkEnd :=
  let q := w.req
  if genOf (retortOf s (vaDie q.va)) q.asid != w.gen then .again
  else if dieAbsent s (vaDie q.va) then .bad
  else match walkLeaf s q.asid q.sub q.va with
    | .absent => .absent
    | .bad => .bad
    | .entry v => if !bit v 0 then .absent else if leafValid q.sub v then .leaf v else .bad

/-- What the end of a walk is for one of its requests. -/
inductive Verdict where
  | again
  | lost
  | fault (kind : Nat)
  deriving DecidableEq, Repr

/-- Each request of a walk is judged by its own access type and level (15 R356): it tries again, now that its leaf is
cached, or it ends in FAULT, or it faults. -/
def judge (e : WalkEnd) (q : Req) : Verdict :=
  match e with
  | .again => .again
  | .bad => .lost
  | .absent => .fault 0
  | .leaf v => match permFault q v with
    | some k => .fault k
    | none => .again

/-- Whether a context sees a page of elements for the first time: it judges its own access by the attribute, whose MISALIGN goes
before what the page refuses (03 R59, R43). -/
def firstLook (s : State) (w : Walk) (p : Walker) : Bool :=
  match p, walkEnd s w with
  | .ctx _ _, .leaf v => bits v 6 4 != 0 && (cachedLeaf s w.req).isNone
  | _, _ => false

/-- Whether the watchdog of a walker has run out: it is killed where it stands, and does not park (15 R363). -/
def walkerExpired (s : State) (p : Walker) : Bool :=
  match p with
  | .ctx k c => expired s (ctxOf s k c.toNat)
  | .agent _ _ _ _ => false

/-- The verdict on a walker of a walk that has ended. -/
def verdict (s : State) (w : Walk) (p : Walker × Req) : Verdict :=
  if firstLook s w p.1 || walkerExpired s p.1 then .again else judge (walkEnd s w) p.2

/-- Whether a walker that faults opens a fault. -/
def opensFault (s : State) (w : Walk) (p : Walker × Req) : Bool :=
  (match p.1 with
   | .agent _ _ _ true => false
   | _ => true) && (match verdict s w p with
    | .fault _ => true
    | _ => false)

/-- The walkers of a walk that still wait for it, with their requests. -/
def walkersOf (s : State) (w : Walk) : List (Walker × Req) := w.who.filterMap (fun p => (walkerReq s w p).map (fun q => (p, q)))

/-- Whether a walk has to wait for a fault record (15 R359). -/
def lacksRecord (s : State) (w : Walk) : Bool :=
  (walkersOf s w).any (opensFault s w) && !canFault s w.req w.num

/-- The first 256 walks of a Retort run (15 R357); one whose fault waits for a record in its place goes on when it has
one. -/
def walkCompleteOn (s : State) (die x : Nat) : Bool :=
  let r := retortOf s die
  die < 6 && (r.walks.take 256).any (fun w => w.num == x && !(lacksRecord s w && r.faultq.contains x))

/-- The requester that a fault record names for a context. -/
def ctxRequester (s : State) (k : Nat) (c : BitVec 4) : Requester :=
  { core := k, die := coreDie k, ctx := c.toNat, inc := (ctxOf s k c.toNat).inc.toNat, unit := 0, engine := false }

/-- A walker tries again. -/
def retryWalker (p : Walker) (s : State) : State :=
  match p with
  | .ctx k c => updCtx k c.toNat (fun x => { x with status := .ready, xfail := none }) s
  | .agent key _ _ _ => unhold key s

/-- The access of a walker fails. -/
def failWalker (p : Walker) (va : W64) (s : State) : State :=
  match p with
  | .ctx k c => updCtx k c.toNat (fun x => { x with status := .ready, xfail := some va }) s
  | .agent key _ _ _ => { s with holds := s.holds.map (fun h => if h.key == key then { h with walking := false, ended := some true } else h) }

/-- A walker faults: a context parks, an agent is held on the fault. -/
def faultWalker (p : Walker) (q : Req) (kind : Nat) (s : State) : State :=
  let d := vaDie q.va
  match p with
  | .ctx k c =>
    let (fid, s1) := openFault q kind (ctxRequester s k c) s
    parkOn d fid q.va (focus k c.toNat s1)
  | .agent key w _ quiet =>
    if quiet then failWalker p q.va s
    else
      let (fid, s1) := openFault q kind w s
      { s1 with holds := s1.holds.map (fun h => if h.key == key then { h with walking := false, die := d, fid := fid } else h) }

/-- One walker of a walk that has ended, with its verdict. -/
def settleWalker (s : State) (p : (Walker × Req) × Verdict) : State :=
  match p.2 with
  | .again => retryWalker p.1.1 s
  | .lost => failWalker p.1.1 p.1.2.va s
  | .fault kind => faultWalker p.1.1 p.1.2 kind s

/-- The Retort behind a walk: the directory entries it has passed and its leaf are cached (15 R357). -/
def cacheWalk (s : State) (w : Walk) (r : Retort) : Retort :=
  let q := w.req
  let page := pageNo q.sub (vaLoc q.va)
  let new := (walkDirs s q.asid q.sub q.va).map (fun p =>
    ({ asid := q.asid, gen := w.gen, sub := q.sub, pa := p.1, word := p.2 } : DirEnt))
  let r1 := { r with dirs := r.dirs ++ new.filter (fun e => !r.dirs.contains e) }
  match walkEnd s w with
  | .leaf v =>
    let e : TlbEnt := { asid := q.asid, gen := w.gen, sub := q.sub, die := vaDie q.va, page := page, leaf := v }
    { r1 with cache := r1.cache.filter (fun x => !(x.asid == e.asid && x.sub == e.sub && x.die == e.die && x.page == page)) ++ [e] }
  | .again => r
  | _ => r1

/-- The core for which a walk was started. -/
def walkCore (w : Walk) : Option Nat :=
  w.who.head?.map (fun p => match p with
    | .ctx k _ => k
    | .agent _ x _ _ => x.core)

/-- A walk ends: its requests go on, each with its own result; or it takes its place among those that wait for a fault
record. -/
def endWalk (w : Walk) (s : State) : State :=
  let d := vaDie w.req.va
  let r := retortOf s d
  if lacksRecord s w then setRetort s d { r with faultq := r.faultq ++ [w.num] }
  else
    let r1 := cacheWalk s w { r with walks := r.walks.filter (fun x => x.num != w.num), faultq := r.faultq.filter (fun n => n != w.num) }
    sample 1 (retortIx d).val (walkCore w) (s.clk - w.since)
      (flushWaiting (((walkersOf s w).map (fun p => (p, verdict s w p))).foldl settleWalker (setRetort s d r1)))

/-- WALK_COMPLETE (15 R356 to R360). -/
def execWalkComplete (die x : Nat) (s : State) : Out :=
  event (walkCompleteOn s die x) "WALK_COMPLETE" (fun s =>
    match (retortOf s die).walks.find? (fun w => w.num == x) with
    | some w => endWalk w s
    | none => s) s

/-- Vector registers of a core's pool that are free: neither declared nor awaiting a result (09 R197). -/
def vregsFree (s : State) (k : Nat) : Nat :=
  128 - ((ctxsOf s k).map (fun x => x.nv)).sum - ((coreOf s k).vheld.map (fun h => h.nv)).sum

/-- Whether the debugger halts a task on a core or system firmware drains it there (15 R365, R366). -/
def taskHeld (s : State) (k : Nat) (task : BitVec 12) : Bool :=
  let c := coreOf s k
  (c.regs.halt && !isFirmware s task) || (c.regs.drain && c.regs.dtask == task)

/-- Whether restores of a task are stopped on a core: it is held, or its region is saved (06 R131). -/
def taskStopped (s : State) (k : Nat) (task : BitVec 12) : Bool :=
  taskHeld s k task || (resAt s k task).all (fun r => r.saved)

/-- Whether a framed activation can be restored. -/
def restorable (s : State) (k : Nat) (p : Parked) : Bool :=
  p.ready && (ctxOf s k p.ctx.toNat).status == .free && p.saved.nv ≤ vregsFree s k && !taskStopped s k p.task

def contextRestoreOn (s : State) (k x : Nat) : Bool := (coreOf s k).parked.any (fun p => p.frame == x && restorable s k p)

/-- Load a frame and go on at its resumption PC as the first instruction of a new group (15 R362). -/
def restoreFrame (k : Nat) (p : Parked) (s : State) : State :=
  let bs := memRead s.mem (frameKey (coreOf s k) p.frame) (frameLen p.saved)
  let s1 := updCore k (fun c => { c with parked := c.parked.filter (fun q => q.frame != p.frame) }) s
  updCtx k p.ctx.toNat (fun _ =>
    { loadFrame s bs p.saved with status := .ready, xfail := if p.fails then p.saved.fva else none, fva := none }) s1

/-- CONTEXT_RESTORE (15 R362). -/
def execContextRestore (k x : Nat) (s : State) : Out :=
  event (contextRestoreOn s k x) "CONTEXT_RESTORE" (fun s =>
    match (coreOf s k).parked.find? (fun p => p.frame == x) with
    | some p => restoreFrame k p s
    | none => s) s

/-! ## Halt and drain through the management path (15 R364 to R366) -/

/-- DBG_HALT: HALT of core `k` is set. -/
def execDbgHalt (k : Nat) (s : State) : Out :=
  .next (updCore k (fun c => { c with regs := { c.regs with halt := true } }) s)

/-- DBG_DRAIN: DRAIN of core `k` is set for a task. -/
def execDbgDrain (k task : Nat) (s : State) : Out :=
  .next (updCore k (fun c => { c with regs := { c.regs with drain := true, drained := false, dtask := BitVec.ofNat 12 task } }) s)

end Sys2Proof.Machine
end

