-- ==== Sys2Proof/Machine/Tile.lean ====
section
/-! DEFINITION. Tile descriptors (11 R250), the group-of-32 rule (02 R31 to R33), and rows of operands in scratchpad
(11 R252, 09 R221). -/
namespace Sys2Proof.Machine

/-! ## Descriptors (11 R250) -/

def tdOffset (d : W64) : Nat := bits d 0 19
def tdStride (d : W64) : Nat := bits d 19 13
def tdFmt (d : W64) : Nat := bits d 32 4
def tdGeom (d : W64) : Nat := bits d 36 2
def tdSide (d : W64) : Nat := bits d 38 19
def tdEidx (d : W64) : BitVec 3 := BitVec.ofNat 3 (bits d 57 3)
def tdGather (d : W64) : Bool := bit d 60
/-- Bits [63:61] are zero. -/
def tdZero (d : W64) : Bool := bits d 61 3 == 0

/-! ## The group-of-32 rule (02 R31, R32) -/

/-- A term of a group: its value, the product before its scales (which R32 judges for infinities), and NV of an ∞ × 0. -/
structure Term where
  val : Fp
  raw : Fp
  flags : BitVec 6
  deriving DecidableEq, Repr

/-- A product with both scales, each exact. -/
def prodTerm (p : Fp × BitVec 6) (sa sb : Nat) : Term := { val := scaleFp (scaleFp p.1 sa) sb, raw := p.1, flags := p.2 }

/-- The exact sum of finite values; a zero is −0 only when every value is −0. -/
def sumFin (xs : List Fp) : Fp :=
  let q : Int := (xs.filterMap (fun x => match x with
    | .fin _ _ e => some e
    | _ => none)).foldl min 0
  let v : Int := (xs.map (fun x => match x with
    | .fin a m e => scaledInt a m e q
    | _ => (0 : Int))).foldl (fun a b => a + b) 0
  let neg0 := xs.all (fun x => match x with
    | .fin a m _ => a && m == 0
    | _ => false)
  ofScaled neg0 v q

/-- The result of a group before its rounding (02 R32): a NaN scale does not hide infinite products of both signs. -/
def groupSum (ts : List Term) : Fp × BitVec 6 :=
  let pos := ts.any (fun t => t.raw == .inf false)
  let neg := ts.any (fun t => t.raw == .inf true)
  let inv := ts.any (fun t => t.flags != 0) || (pos && neg)
  if inv then (.nan, fNV)
  else if ts.any (fun t => t.val == .nan) then (.nan, 0)
  else if pos then (.inf false, 0)
  else if neg then (.inf true, 0)
  else (sumFin (ts.map (fun t => t.val)), 0)

/-- One group added to (or, with `minus`, subtracted from) an accumulator. -/
def groupStep (minus : Bool) (acc : W32 × BitVec 6) (ts : List Term) : W32 × BitVec 6 :=
  let g := groupSum ts
  let r := round32 0 g.1
  let x := if minus then negFp (dec32 r.1) else dec32 r.1
  let a := addFp 0 (dec32 acc.1) x
  let y := round32 0 a.1
  (y.1, acc.2 ||| g.2 ||| r.2 ||| a.2 ||| y.2)

/-- Cut a list into groups of 32. -/
def groupsOf : Nat → List Term → List (List Term)
  | 0, _ => []
  | n + 1, ts => ts.take 32 :: groupsOf n (ts.drop 32)

/-- A dot product continued from an accumulator, groups in ascending order. -/
def dotFrom (minus : Bool) (acc : W32) (ts : List Term) : W32 × BitVec 6 :=
  (groupsOf (ts.length / 32) ts).foldl (groupStep minus) (acc, 0)

/-- The integer case (02 R33): exact products, accumulation modulo 2^32. -/
def dotInt (acc : W32) (ps : List Int) : W32 := BitVec.ofInt 32 (ps.foldl (fun a b => a + b) (acc.toNat : Int))

/-! ## Rows -/

/-- A row of an operand: its elements, and the scale byte of each (127 where unscaled). -/
abbrev Row := List (Nat × Nat)

/-- The elements of a row of `n` elements from its bytes and its scale bytes. -/
def rowOf (fmt geom n : Nat) (data scales : List Byte) : Row :=
  let eb := fmtBits fmt / 8
  (List.range n).map (fun k =>
    (ofBytes ((data.drop (eb * k)).take eb), if geom == 0 then 127 else (scales.getD (k / blockSize geom) 127).toNat))

/-- Scale bytes of a row of `n` elements. -/
def rowScales (geom n : Nat) : Nat := if geom == 0 then 0 else n / blockSize geom

/-- The terms of two rows. -/
def rowTerms (fa fb : Nat) (a b : Row) : List Term :=
  (a.zip b).map (fun p => prodTerm (mulElem fa fb p.1.1 p.2.1) p.1.2 p.2.2)

/-- The products of two INT8 rows. -/
def rowProducts (a b : Row) : List Int := (a.zip b).map (fun p => sInt p.1.1 8 * sInt p.2.1 8)

end Sys2Proof.Machine
end

