-- ==== Sys2Proof/Machine/Matrix.lean ====
section
/-! DEFINITION. Matrix instructions (11 R250 to R254, R256, R258, R259, R261 to R266): their checks and their posts. The
commands execute in Machine/AgentEngine.lean. -/
namespace Sys2Proof.Machine

/-! ## Operands -/

/-- K of a pair of formats and whether the step is of type INT (11 R251); none: no such pair. -/
def stepShape (fa fb : Nat) : Option (Nat × Bool) :=
  let fp8 (f : Nat) : Bool := f == 4 || f == 5
  if fa == 2 && fb == 2 then some (64, false)
  else if fp8 fa && fp8 fb then some (128, false)
  else if fa == 6 && fb == 6 then some (128, true)
  else if fp8 fa && fb == 7 then some (256, false)
  else if fa == 2 && fb == 7 then some (128, false)
  else if fa == 1 && fb == 1 then some (32, false)
  else none

/-- A descriptor of a step operand: bits [63:61] zero and a geometry allowed for its format. -/
def operandOk (d : W64) : Bool := tdZero d && geomAllowed (tdFmt d) (tdGeom d)

/-- The ILLEGAL checks of MMA and MMAG (11 R251, R252). -/
def stepOk (gather gb : Bool) (a b : W64) : Bool :=
  operandOk a &&
  (if gb then [1, 2, 4, 5, 6].contains (tdFmt a) && tdGather a == gather
   else operandOk b && (stepShape (tdFmt a) (tdFmt b)).isSome && (tdGather a || tdGather b) == gather)

/-- The MISALIGN checks of a descriptor (11 R250, R252). -/
def descAligned (d : W64) (k : State → State) (s : State) : State :=
  aligned (w64 (tdOffset d)) 64 (if tdGather d then aligned (w64 (tdSide d)) 4 k else k) s

/-- The wait barrier that wd names: none for 0x7_FFFF; else its wrapped offset, which must be a multiple of 16, with the
DONE that the command snapshots (11 R256, 08 R187). -/
def withBarrier (w : W64) (k : Option (Nat × W64) → State → State) (s : State) : State :=
  if bits w 0 19 == 0x7FFFF then k none s
  else
    let o := wrapped s (w64 (bits w 0 19))
    aligned o 16 (fun s => k (some (o.toNat, doneAt s o)) s) s

/-- The physical slot of aN (11 R248). -/
def slotOf (s : State) (n : BitVec 2) : Nat := s.ctx.slots.getD n.toNat 0

/-- Check 4 for a slot. -/
def slotDeclared (s : State) (n : BitVec 2) : Bool := n.toNat < s.ctx.na

/-! ## Geometry (11 R261, R262) -/

/-- GEOMA of the context's launch. -/
def geomA (s : State) : W64 := ((resOf s.core s.ctx.task).map (fun r => r.geomA)).getD 0
/-- The launch-relative column and row of the core. -/
def relX (s : State) : Nat := coreX s.core.id - (myLaunch s).ox
def relY (s : State) : Nat := coreY s.core.id - (myLaunch s).oy

/-- TILEXY. -/
def tilexyWord (s : State) : W64 :=
  let tm := (bits (geomA s) 0 32 + 31) / 32
  let tn := (bits (geomA s) 32 32 + 31) / 32
  w64 (relY s + relX s * 2 ^ 8 + toBit (relY s < tm && relX s < tn) * 2 ^ 16)

/-- EDGEM: bit i of ROWS for 32 ti + i < M, bit j of COLS for 32 tj + j < N. -/
def edgeWord (s : State) : W64 :=
  let ones (t m : Nat) : Nat := 2 ^ (min 32 (m - 32 * t)) - 1
  w64 (ones (relY s) (bits (geomA s) 0 32) + ones (relX s) (bits (geomA s) 32 32) * 2 ^ 32)

/-! ## Posts -/

/-- MMA and MMAG (11 R254, R256). -/
def mmaPost (gather : Bool) (word : Nat) (sw : Bool) (d a b c : BitVec 4) (gb bnd fin : Bool) (n : BitVec 2) (s : State) : State :=
  let da := readW s a
  let db := readW s b
  let wc := readW s c
  let wc1 := readWn s c 1
  let b1 := if bnd || fin then readWn s b 1 else 0
  legal (stepOk gather gb da db) (insn word) (legal (wcLegal wc) wc (declared (slotDeclared s n) (insn word)
    (descAligned da ((if gb then aligned db 4096 else descAligned db) (withBarrier (readW s d) (fun br =>
      wcChecked wc (fun s =>
        (if gb then onModule db else id) (fun s =>
          let op : CmdOp := .mma gather gb fin bnd (slotOf s n) da db b1 (readE s (tdEidx da))
            (if gb then 0x3F800000 else readE s (tdEidx db))
          postEngine sw d 0 op wc wc1 0 br s) s))))))) s

/-- MMA.aN wd, wa, wb, wc (11 R263). -/
def execMma (sw : Bool) (d a b c : BitVec 4) (q h f : BitVec 1) (n : BitVec 2) (s : State) : Out :=
  .next (mmaPost false (encMma sw d a b c q h f n) sw d a b c (q == 1) (h == 1) (f == 1) n s)
/-- MMAG.aN wd, wa, wb, wc (11 R263). -/
def execMmag (sw : Bool) (d a b c : BitVec 4) (q h f : BitVec 1) (n : BitVec 2) (s : State) : Out :=
  .next (mmaPost true (encMmag sw d a b c q h f n) sw d a b c (q == 1) (h == 1) (f == 1) n s)

/-- The destination descriptor of MMR (11 R258). -/
def mmrOk (d : W64) : Bool :=
  1 ≤ tdFmt d && tdFmt d ≤ 8 && geomAllowed (tdFmt d) (tdGeom d) && tdGeom d != 3 && !tdGather d && tdZero d

/-- The destination descriptor of MMRL (11 R259). -/
def mmrlOk (d : W64) : Bool := bits d 32 32 == 0 && 3 ≤ tdStride d

/-- The common part of MMR and MMRL. -/
def readOut (ok : Bool) (op : State → CmdOp) (word : Nat) (sw : Bool) (d a c : BitVec 4) (n : BitVec 2) (s : State) : State :=
  let wc := readW s c
  let wc1 := readWn s c 1
  legal ok (insn word) (legal (wcLegal wc) wc (declared (slotDeclared s n) (insn word)
    (descAligned (readW s a) (withBarrier (readW s d) (fun br => wcChecked wc (fun s =>
      postEngine sw d 0 (op s) wc wc1 0 br s)))))) s

/-- MMR.aN wd, wa, wc (11 R258). -/
def execMmr (sw : Bool) (d a c : BitVec 4) (z k : BitVec 1) (n : BitVec 2) (s : State) : Out :=
  let da := readW s a
  .next (readOut (mmrOk da) (fun s => .mmr (k == 1) (z == 1) (slotOf s n) da (readE s (tdEidx da)) (edgeWord s))
    (encMmr sw d a c z k n) sw d a c n s)

/-- MMRL.aN wd, wa, wc (11 R259). -/
def execMmrl (sw : Bool) (d a c : BitVec 4) (z k : BitVec 1) (n : BitVec 2) (s : State) : Out :=
  let da := readW s a
  .next (readOut (mmrlOk da) (fun s => .mmrl (k == 1) (z == 1) (slotOf s n) da (edgeWord s))
    (encMmrl sw d a c z k n) sw d a c n s)

/-- A command without barrier, completion pair or returned number (11 R264, R265). -/
def postQuiet (sw : Bool) (op : CmdOp) (s : State) : State :=
  if s.core.matq.length ≥ 16 then wait (.queue 0) s
  else status sw stOk (pushCmd s.core.id 0 (mkCmd s op 0 0 0 (nextNum s.core 0) none) s)

/-- MMZ aN (11 R265). -/
def execMmz (sw : Bool) (n : BitVec 2) (s : State) : Out :=
  .next (declared (slotDeclared s n) (insn (encMmz sw n)) (fun s => postQuiet sw (.mmz (slotOf s n)) s) s)

/-- MMRANK aN, k (11 R265). -/
def execMmrank (sw : Bool) (k : BitVec 4) (n : BitVec 2) (s : State) : Out :=
  .next (declared (slotDeclared s n) (insn (encMmrank sw k n)) (fun s => postQuiet sw (.mmrank (slotOf s n) (k.toNat + 1)) s) s)

/-! ## Executed by the core (11 R266) -/

/-- TILEXY wd. -/
def execTilexy (sw : Bool) (d : BitVec 4) (s : State) : Out := .next (finish sw (writeW d (tilexyWord s) s))
/-- EDGEM wd. -/
def execEdgem (sw : Bool) (d : BitVec 4) (s : State) : Out := .next (finish sw (writeW d (edgeWord s) s))
/-- SETE eN, wa. -/
def execSete (sw : Bool) (a : BitVec 4) (e : BitVec 3) (s : State) : Out :=
  .next (finish sw (put (.ereg e ((readW s a).setWidth 32)) s))
/-- GETE wd, eN. -/
def execGete (sw : Bool) (d : BitVec 4) (e : BitVec 3) (s : State) : Out :=
  .next (finish sw (writeW d ((readE s e).setWidth 64) s))

end Sys2Proof.Machine
end

