-- ==== Sys2Proof/Machine/Ranked.lean ====
section
/-! DEFINITION. Ranked lists: the order of pairs, admission, the stored image (10 R226 to R231, R240), for the list
registers and for the ranked accumulator slots. -/
namespace Sys2Proof.Machine

/-- Pair (v1, i1) ranks above pair (v2, i2) (10 R226). -/
def ranksAbove (p q : W32 × W32) : Bool :=
  keyEq32 q.1 < keyEq32 p.1 || (keyEq32 p.1 == keyEq32 q.1 && p.2.toNat < q.2.toNat)

/-- −0 is held as +0 (10 R227). -/
def plusZero (v : W32) : W32 := if v == 0x80000000 then 0 else v

/-- v < w as reals. -/
def below32 (v w : W32) : Bool := keyEq32 v < keyEq32 w

/-- An entry with a mark for the pairs of the instruction at hand. -/
abbrev Tagged := (W32 × W32) × Bool

/-- Place an entry after every entry that ranks above it or ties with it (10 R231). -/
def placeEnt (x : Tagged) : List Tagged → List Tagged
  | [] => [x]
  | y :: r => if ranksAbove x.1 y.1 then x :: y :: r else y :: placeEnt x r

/-- A list while pairs are offered to it: its entries with marks, and what the offers set. -/
structure Offer where
  k : Nat
  floor : W32
  nans : Nat
  ents : List Tagged
  nd : Bool
  sat : Bool
  deriving DecidableEq, Repr

/-- The admission rule of 10 R231. -/
def admitPair (l : Offer) (p : W32 × W32) : Offer :=
  if isNan32 p.1 then { l with nans := satAdd 16 l.nans 1, nd := true, sat := l.sat || l.nans + 1 ≥ 0xFFFF }
  else
    let x : Tagged := ((plusZero p.1, p.2), true)
    if below32 x.1.1 l.floor then l
    else if l.ents.length < l.k then { l with ents := placeEnt x l.ents }
    else match l.ents.getLast? with
      | some last => if ranksAbove x.1 last.1 then { l with ents := placeEnt x l.ents.dropLast } else l
      | none => l

/-- Offer pairs in order to a list. -/
def offerAll (l : RList) (ps : List (W32 × W32)) : Offer :=
  ps.foldl admitPair { k := l.k, floor := l.floor, nans := l.nans, ents := l.ents.map (fun e => (e, false)), nd := false, sat := false }

/-- The list after offers. -/
def Offer.list (o : Offer) (l : RList) : RList := { l with nans := o.nans, ents := o.ents.map (fun e => e.1) }

/-- The threshold of a list (10 R230). -/
def threshold (l : RList) : W32 × W32 :=
  if l.k ≥ 1 && l.ents.length == l.k then (l.ents.getLast?).getD (l.floor, 0xFFFFFFFF) else (l.floor, 0xFFFFFFFF)

/-- An entry as its image word. -/
def entWord (e : W32 × W32) : W64 := w64 (e.1.toNat + e.2.toNat * 2 ^ 32)

/-- Word 0 of the image. -/
def imageWord0 (l : RList) : W64 :=
  w64 (l.k % 128 + l.ents.length % 128 * 2 ^ 8 + l.nans % 2 ^ 16 * 2 ^ 16 + l.skips % 2 ^ 32 * 2 ^ 32)

/-- The stored image (10 R229). -/
def listImage (l : RList) : List W64 := [imageWord0 l, l.floor.setWidth 64, 0, 0] ++ l.ents.map entWord

/-- Whether the header of an image is one that RLLD accepts (10 R240). -/
def headOk (h : List W64) : Bool :=
  let w := wordAt h 0
  let f : W32 := w32 (bits (wordAt h 1) 0 32)
  1 ≤ bits w 0 7 && bits w 0 7 ≤ 64 && bits w 8 7 ≤ bits w 0 7 && !bit w 7 && !bit w 15 && bits (wordAt h 1) 32 32 == 0 &&
  wordAt h 2 == 0 && wordAt h 3 == 0 && !isNan32 f && f != 0x80000000

/-- No entry ranks above the one before it. -/
def rankSorted : List (W32 × W32) → Bool
  | [] => true
  | [_] => true
  | a :: b :: r => !ranksAbove b a && rankSorted (b :: r)

/-- The list of an image with an accepted header, if its entries are accepted too. -/
def listOfImage (h es : List W64) : Option RList :=
  let f : W32 := w32 (bits (wordAt h 1) 0 32)
  let ents := es.map (fun e => ((w32 (bits e 0 32), w32 (bits e 32 32)) : W32 × W32))
  if ents.all (fun e => !isNan32 e.1 && !below32 e.1 f) && rankSorted ents then
    some { k := bits (wordAt h 0) 0 7, floor := f, nans := bits (wordAt h 0) 16 16, skips := bits (wordAt h 0) 32 32,
           ents := ents.map (fun e => (plusZero e.1, e.2)) }
  else none

end Sys2Proof.Machine
end

