-- ==== Sys2Proof/Machine/AgentEngine.lean ====
section
/-! DEFINITION. The matrix engine: its arbiter, tile steps, read-outs, slot resets, the gather unit and the .GB tiles (11
R247 to R260, R265), and the completion of engine commands (08 R182). -/
namespace Sys2Proof.Machine

/-! ## What every engine command shares -/

/-- The request of a command, in the address space that it snapshotted (12 R279). -/
def cmdReq (q : Cmd) (rd wr : Bool) (va : W64) : Req :=
  { va := va, asid := q.asid, sub := inSub q.spa va, rd := rd, wr := wr, fetch := false, user := q.user }

/-- Whether the scratchpad region of a command is in place (06 R131); one whose launch has been killed has it when no other launch's
lies there. -/
def cmdInPlace (s : State) (k : Nat) (q : Cmd) : Bool :=
  match resAt s k q.task with
  | some r => !r.saved
  | none => (coreOf s k).res.all (fun r => r.saved || !overlaps q.spbase q.logspad r.base r.logspad)

/-- Whether a command is yet to execute and its region in place. A command whose region is not lets those of the launch that is to
make room for it go first (06 R131). -/
def cmdLive (s : State) (k : Nat) (q : Cmd) : Bool := q.st != .done && (q.st != .queued || cmdInPlace s k q)

/-- The first command of a queue that has not executed. -/
def headCmd (s : State) (k eng : Nat) : Option Cmd := ((coreOf s k).queue eng).find? (cmdLive s k)

/-- Whether a command may make accesses: the scratchpad region of its launch is in place (06 R131), the stores that its post
releases are performed (08 R176), its barrier is over, and no open fault holds it. -/
def cmdFree (s : State) (k eng : Nat) (q : Cmd) : Bool :=
  q.st == .queued && cmdInPlace s k q && storesDone s (coreOf s k) q.after && barrierOver (coreOf s k) q && !heldOn s (.cmd k eng q.num)

/-- Whether the access on which a command was held has failed (15 R362). -/
def cmdFailed (s : State) (k eng : Nat) (q : Cmd) : Bool := (holdOf s (.cmd k eng q.num)).any (fun h => h.ended == some true)

/-- An access of a command does not translate: a miss holds the command at the head of its queue, until FLTRES where it ends
in a serviceable fault, and an absent die ends it with the status word of an unrecoverable fault (11 R253, 12 R274). -/
def cmdFault (k eng unit : Nat) (q : Cmd) (lost : W64) (f : Req × XRes) (s : State) : State :=
  match f with
  | (r, .miss) => agentWalk (.cmd k eng q.num) (engineOf k unit) false r s
  | _ => endCmd k eng q.num lost s

/-- A command runs: the fault that it was held on has failed, or its body. -/
def runCmd (k eng : Nat) (q : Cmd) (lost : W64) (body : State → State) (s : State) : State :=
  let s1 := releaseFrom k (unhold (.cmd k eng q.num) s)
  if cmdFailed s k eng q then endCmd k eng q.num lost s1 else body s1

/-- Change the scratchpad of a command's launch. -/
def cmdSpadWrite (k : Nat) (q : Cmd) (a : Nat) (bs : List Byte) (s : State) : State :=
  updCore k (fun c => c.spadWrite q.spbase q.logspad a bs) s

/-- The uncorrectable bytes of a scratchpad range of a command. -/
def cmdBad (c : Core) (q : Cmd) (a n : Nat) : List Bool :=
  (List.range n).map (fun i => c.spoison.contains (spOff q.spbase q.logspad (a + i)))

/-! ## The arbiter (11 R255) -/

/-- The cluster of a core, by number, and its index in the cluster. -/
def clusterNo (k : Nat) : Nat := coreX k / 4 + 16 * (coreY k / 2)
def clusterIx (k : Nat) : Nat := coreX k % 4 + 4 * (coreY k % 2)
/-- The core of an index of a cluster. -/
def clusterCore (cl i : Nat) : Nat := coreAt (4 * (cl % 16) + i % 4) (2 * (cl / 16) + i / 4)

/-- A physical slot of a core. -/
def slotAt (c : Core) (n : Nat) : Slot := c.slots.get ⟨n % 4, Nat.mod_lt _ (by decide)⟩

/-- Whether a step is skipped, and the slot with its mark. -/
def stepSkips (bnd : Bool) (bound : W32) (v : Slot) : Bool :=
  v.mark || (bnd && v.ranked && !isNan32 bound && v.lists.all (fun l => below32 bound (threshold l).1))

/-- Whether a command is a step that is skipped: it reads no row (11 R257). -/
def skipsNow (s : State) (k : Nat) (q : Cmd) : Bool :=
  match q.op with
  | .mma _ _ _ bnd slot _ _ b1 _ _ => stepSkips bnd (w32 (bits b1 32 32)) (slotAt (coreOf s k) slot)
  | _ => false

/-- Whether the head of a core may issue. -/
def matReady (s : State) (k : Nat) : Bool :=
  match headCmd s k 0 with
  | none => false
  | some q => cmdFree s k 0 q &&
    (match q.op with
     | .mma gather gb _ _ _ _ _ _ _ _ => (!gather || q.latch.isSome || skipsNow s k q) && (!gb || q.done == 1)
     | _ => true)

/-- The weight of the launch whose command is at the head. -/
def matWeight (s : State) (k : Nat) : Nat :=
  ((headCmd s k 0).bind (fun q => (resAt s k q.task).map (fun r => r.mwt.toNat))).getD 1

def arbOf (s : State) (cl : Nat) : Arb := alGet s.arb cl { cur := 0, used := 0, zero := 7 }

/-- The core that the arbiter of a cluster lets issue, and the arbiter after it. -/
def arbPick (s : State) (cl : Nat) : Option (Nat × Arb) :=
  let a := arbOf s cl
  let core (i : Nat) : Nat := clusterCore cl i
  let heavy (i : Nat) : Bool := matReady s (core i) && matWeight s (core i) != 0
  if heavy a.cur && a.used < matWeight s (core a.cur) then some (core a.cur, { a with used := a.used + 1 })
  else match ((List.range 8).map (fun n => (a.cur + 1 + n) % 8)).find? heavy with
    | some i => some (core i, { a with cur := i, used := 1 })
    | none =>
      (((List.range 8).map (fun n => (a.zero + 1 + n) % 8)).find? (fun i => matReady s (core i))).map
        (fun i => (core i, { a with zero := i }))

/-- Whether a command is a read-out whose first sectors are written: it keeps the engine until its last. -/
def begun (q : Cmd) : Bool :=
  q.done != 0 && (match q.op with
    | .mmr _ _ _ _ _ _ => true
    | .mmrl _ _ _ _ _ => true
    | _ => false)

/-- The core of a cluster whose read-out is under way. -/
def midway (s : State) (cl : Nat) : Option Nat :=
  ((List.range 8).map (clusterCore cl)).find? (fun k => (headCmd s k 0).any begun)

/-- The command that core `k` issues now. -/
def matTurn (s : State) (k : Nat) : Option Cmd :=
  match midway s (clusterNo k), arbPick s (clusterNo k) with
  | some j, _ => if j == k then headCmd s k 0 else none
  | none, some (j, _) => if j == k then headCmd s k 0 else none
  | none, none => none

/-- The arbiter moves on as a command issues. -/
def arbNext (k : Nat) (s : State) : State :=
  match midway s (clusterNo k), arbPick s (clusterNo k) with
  | none, some (_, a) => { s with arb := alPut s.arb (clusterNo k) a }
  | _, _ => s

/-! ## Slots (11 R247) -/

/-- Change a physical slot. -/
def setSlot (k n : Nat) (v : Slot) (s : State) : State :=
  updCore k (fun c => { c with slots := c.slots.set (n % 4) v (Nat.mod_lt _ (by decide)) }) s

/-- The bits of a cell; an uncorrectable one is replaced by zero (11 R260). -/
def cellAt (v : Slot) (i j : Nat) : W32 := if v.bad.contains (32 * i + j) then 0 else alGet v.cells (32 * i + j) 0
/-- The value of a cell in the type of its slot. -/
def cellValue (v : Slot) (i j : Nat) : Fp :=
  if v.int then ofScaled false (sInt (cellAt v i j).toNat 32) 0 else dec32 (cellAt v i j)
/-- The cells of a function of row and column. -/
def cellsOf (f : Nat → Nat → W32) : List (Nat × W32) :=
  ((List.range 1024).map (fun n => (n, f (n / 32) (n % 32)))).filter (fun p => p.2 != 0)
/-- TSC. -/
def slotTsc (v : Slot) : Fp := (mulFp (dec32 v.tscA) (dec32 v.tscB)).1

/-! ## Operand rows (11 R252, R260) -/

/-- The encoding of zero in a format. -/
def zeroElem (fmt : Nat) : Nat := if fmt == 7 then 8 else 0

/-- A row from its bytes and scale bytes, each with its mark of uncorrectable data. -/
def readRow (fmt geom kd ix : Nat) (ixBad : Bool) (data : List (Byte × Bool)) (scales : List (Byte × Bool)) : RowRead :=
  let eb := fmtBits fmt / 8
  let elt (k : Nat) : List (Byte × Bool) := (data.drop (eb * k)).take eb
  let eltBad (k : Nat) : Bool := (elt k).any (fun p => p.2)
  let scale (k : Nat) : Byte × Bool := if geom == 0 then (127, false) else scales.getD (k / blockSize geom) (127, false)
  { ix := ix,
    row := (List.range kd).map (fun k =>
      if eltBad k || (scale k).2 then (zeroElem fmt, 127) else (ofBytes ((elt k).map (fun p => p.1)), (scale k).1.toNat)),
    bad := (if ixBad then [0] else []) ++ (List.range kd).flatMap (fun k =>
      (if geom != 0 && k % blockSize geom == 0 && (scale k).2 then [k] else []) ++ (if eltBad k then [k] else [])) }

/-- Bytes of scratchpad with their marks. -/
def spadMarked (c : Core) (q : Cmd) (a n : Nat) : List (Byte × Bool) := (spadRead c q.spbase q.logspad a n).zip (cmdBad c q a n)

/-- Row `r` of a scratchpad operand. -/
def tileRow (c : Core) (q : Cmd) (d : W64) (kd r : Nat) : RowRead :=
  let e := spadMarked c q (tdSide d + 4 * r) 4
  let ixBad := tdGather d && e.any (fun p => p.2)
  let ix := if !tdGather d then r else if ixBad then 0 else ofBytes (e.map (fun p => p.1))
  let ns := rowScales (tdGeom d) kd
  readRow (tdFmt d) (tdGeom d) kd ix ixBad (spadMarked c q (tdOffset d + ix * tdStride d * 64) (kd * (fmtBits (tdFmt d) / 8)))
    (spadMarked c q (tdSide d + (if tdGather d then 128 else 0) + ix * ns) ns)

/-! ### .GB tiles (11 R253) -/

/-- Why a .GB tile cannot be used. -/
inductive GbErr where
  | fault (f : Req × XRes)
  | badfmt
  deriving DecidableEq, Repr

/-- A .GB tile: its format, its geometry, K and its rows. -/
structure GbTile where
  fmt : Nat
  geom : Nat
  kd : Nat
  int : Bool
  rows : List RowRead
  deriving DecidableEq, Repr

/-- The location and the attribute of an address for a command. -/
def gbLeaf (s : State) (q : Cmd) (va : W64) : Except GbErr (Nat × PageAttr) :=
  let r := cmdReq q true false va
  match xlate s r with
  | .ok key leaf => .ok (key, pageAttr r.sub leaf va)
  | x => .error (.fault (r, x))

/-- The pieces of a tile, each with its location and attribute; all carry one format and geometry. -/
def gbPieces (s : State) (q : Cmd) (fmt geom : Nat) : List (W64 × Nat) → Except GbErr (List (W64 × Nat × Nat × PageAttr))
  | [] => .ok []
  | (va, n) :: r => do
    let (key, p) ← gbLeaf s q va
    if p.fmt == fmt && p.geom == geom then do
      let rest ← gbPieces s q fmt geom r
      pure ((va, n, key, p) :: rest)
    else .error .badfmt

/-- One byte of global memory with its mark. -/
def memMarked (s : State) (key : Nat) : Byte × Bool := (memGet s.mem key, s.poison.contains key)

/-- The scale bytes of a run of elements in one page. -/
def gbScales (s : State) (q : Cmd) : List W64 → Except GbErr (List (Byte × Bool))
  | [] => .ok []
  | va :: r => do
    let (key, _) ← gbLeaf s q va
    let rest ← gbScales s q r
    pure (memMarked s key :: rest)

/-- The tile as it stands in memory. -/
def gbTile (s : State) (q : Cmd) (fa : Nat) (va : W64) : Except GbErr GbTile := do
  let (_, p) ← gbLeaf s q va
  match stepShape fa p.fmt with
  | none => .error .badfmt
  | some (kd, int) =>
    let eb := fmtBits p.fmt / 8
    let rb := kd * eb
    if va.toNat % (32 * rb) != 0 then .error .badfmt
    else do
      let ps ← gbPieces s q p.fmt p.geom (pieces va (32 * rb))
      let data := ps.flatMap (fun x => (List.range x.2.1).map (fun i => memMarked s (x.2.2.1 + i)))
      let bs := blockSize p.geom
      let scaleAt (x : W64 × Nat × Nat × PageAttr) : List W64 :=
        (List.range (x.2.1 / eb / bs)).map (fun j => x.2.2.2.side + w64 ((x.1 - x.2.2.2.base).toNat / eb / bs + j))
      let scales ← (if p.geom == 0 then .ok [] else gbScales s q (ps.flatMap scaleAt))
      let ns := rowScales p.geom kd
      pure { fmt := p.fmt, geom := p.geom, kd := kd, int := int,
             rows := (List.range 32).map (fun j =>
               readRow p.fmt p.geom kd j false ((data.drop (rb * j)).take rb) ((scales.drop (ns * j)).take ns)) }

/-- Status words of 11 R264. -/
def msDataerr : W64 := 1
def msSkipped : W64 := 2
def msNotrank : W64 := 4
def msFault : W64 := 8
def msBadfmt : W64 := 16
def msCond (f : BitVec 6) : W64 := w64 (f.toNat * 2 ^ 8)

def gbTileArrivalOn (s : State) (k : Nat) : Bool :=
  (headCmd s k 0).any (fun q => cmdFree s k 0 q && q.done == 0 &&
    (match q.op with
     | .mma _ gb _ _ _ _ _ _ _ _ => gb
     | _ => false))

/-- GB_TILE_ARRIVAL: the tile of the head arrives, waits for a fault, or ends its command without a step. -/
def execGbTileArrival (k : Nat) (s : State) : Out :=
  event (gbTileArrivalOn s k) "GB_TILE_ARRIVAL" (fun s =>
    match headCmd s k 0 with
    | none => s
    | some q => match q.op with
      | .mma _ _ _ _ _ a b _ _ _ => runCmd k 0 q msFault (fun s =>
          match gbTile s q (tdFmt a) b with
          | .ok _ => updCmd k 0 q.num (fun q => { q with done := 1 }) s
          | .error .badfmt => endCmd k 0 q.num msBadfmt s
          | .error (.fault f) => cmdFault k 0 1 q msFault f s) s
      | _ => s) s

def gatherLatchFillOn (s : State) (k : Nat) : Bool :=
  (headCmd s k 0).any (fun q => cmdFree s k 0 q && q.latch.isNone &&
    (match q.op with
     | .mma gather gb _ _ _ _ _ _ _ _ => gather && (!gb || q.done == 1) && !skipsNow s k q
     | _ => false))

/-- K of a command's step: the row length of its operands. -/
def stepDepth (s : State) (q : Cmd) (gb : Bool) (a b : W64) : Option Nat :=
  if gb then (match gbTile s q (tdFmt a) b with
    | .ok t => some t.kd
    | .error _ => none)
  else (stepShape (tdFmt a) (tdFmt b)).map (fun p => p.1)

/-- The rows of a scratchpad operand. -/
def tileRows (c : Core) (q : Cmd) (d : W64) (kd : Nat) : List RowRead := (List.range 32).map (tileRow c q d kd)

/-- What the gather unit collects: the rows of each gathered operand. -/
def gathered (c : Core) (q : Cmd) (gb : Bool) (a b : W64) (kd : Nat) : Latch :=
  { kd := kd, as := if tdGather a then tileRows c q a kd else [], bs := if !gb && tdGather b then tileRows c q b kd else [] }

/-- GATHER_LATCH_FILL: the gathered rows of the head are copied into the operand latch. A .GB tile that no longer translates
is fetched again. -/
def execGatherLatchFill (k : Nat) (s : State) : Out :=
  event (gatherLatchFillOn s k) "GATHER_LATCH_FILL" (fun s =>
    match headCmd s k 0 with
    | some q => match q.op with
      | .mma _ gb _ _ _ a b _ _ _ =>
        (match stepDepth s q gb a b with
         | some kd => updCmd k 0 q.num (fun q => { q with latch := some (gathered (coreOf s k) q gb a b kd) }) s
         | none => updCmd k 0 q.num (fun q => { q with done := 0 }) s)
      | _ => s
    | none => s) s

/-! ## The tile step (11 R257) -/

/-- A substitution (11 R260): whether it is one of a cell, its row, column, depth and side. -/
structure Subst where
  cell : Bool
  row : Nat
  col : Nat
  depth : Nat
  side : Nat
  deriving DecidableEq, Repr

/-- The substitutions among cells. -/
def cellErrs (ns : List Nat) : List Subst :=
  ns.map (fun n => { cell := true, row := n / 32, col := n % 32, depth := 0, side := 0 })

/-- The substitutions of a step in the order in which they are logged: A, B, cells (assumption 65). -/
def stepErrs (as bs : List RowRead) (cells : List Nat) : List Subst :=
  (as.mapIdx (fun i r => r.bad.map (fun d => { cell := false, row := i, col := 0, depth := d, side := 0 }))).flatten ++
    (bs.mapIdx (fun j r => r.bad.map (fun d => { cell := false, row := 0, col := j, depth := d, side := 1 }))).flatten ++ cellErrs cells

/-- MERR after the substitutions of a command (11 R260). -/
def logErrs (slot : Nat) (es : List Subst) (m : W64) : W64 :=
  match es with
  | [] => m
  | e :: rest =>
    let clear := bits m 0 2 == 0
    let m1 := if clear then
        w64 (e.row % 32 * 2 ^ 8 + e.col % 32 * 2 ^ 13 + e.depth % 256 * 2 ^ 18 + slot % 4 * 2 ^ 26 + e.side * 2 ^ 28) ||| (m &&& 4)
      else m
    let more := !clear || !rest.isEmpty
    let kinds := toBit (es.any (fun x => !x.cell)) + toBit (es.any (fun x => x.cell)) * 2
    setBits (m1 ||| w64 kinds ||| (if more then 4 else 0)) 32 32 (satAdd 32 (bits m1 32 32) es.length)

/-- The substitutions of a command reach MERR of its core. -/
def logSubst (k slot : Nat) (es : List Subst) (s : State) : State :=
  updCore k (fun c => { c with regs := { c.regs with merr := logErrs slot es c.regs.merr } }) s

/-- SAT of a step goes into RLSTAT of the activation that posted it: in its context, or in its frame (10 R231, 15 R361). -/
def markSat (k : Nat) (q : Cmd) (sat : Bool) (s : State) : State :=
  let x := ctxOf s k q.ctx.toNat
  if !sat then s
  else if x.status != .free && x.inc == q.inc then updCtx k q.ctx.toNat (fun x => { x with rlstat := x.rlstat ||| 8 }) s
  else match (coreOf s k).parked.find? (fun p => p.ctx == q.ctx && p.inc == q.inc) with
    | some p =>
      let key := frameKey (coreOf s k) p.frame + 0x288
      perform s (cellsAt key (toBytes 8 (dwordAt s key ||| 8).toNat))
    | none => s

/-- A skipped step. -/
def skipSlot (fin : Bool) (v : Slot) : Slot :=
  if fin then { v with cells := [], bad := [], mark := false, lists := v.lists.map (fun l => { l with skips := satAdd 32 l.skips 1 }) } else v

/-- The cells after a step, with the conditions of its roundings. -/
def stepCells (fa fb : Nat) (int : Bool) (as bs : List RowRead) (v : Slot) : List (Nat × W32) × BitVec 6 :=
  let cell (i j : Nat) : W32 × BitVec 6 :=
    let a := ((as[i]?).map (fun r => r.row)).getD []
    let b := ((bs[j]?).map (fun r => r.row)).getD []
    if int then (dotInt (cellAt v i j) (rowProducts a b), 0) else dotFrom false (cellAt v i j) (rowTerms fa fb a b)
  let all := (List.range 1024).map (fun n => (n, cell (n / 32) (n % 32)))
  ((all.map (fun p => (p.1, p.2.1))).filter (fun p => p.2 != 0), all.foldl (fun f p => f ||| p.2.2) 0)

/-- finish() of a row: its list after the offers of its cells, with the conditions, and whether a count is at its maximum. -/
def finishRow (v : Slot) (colbase : Nat) (ixs : List Nat) (i : Nat) (l : RList) : RList × BitVec 6 × Bool :=
  let vals := (List.range 32).map (fun j =>
    let p := mulFp (cellValue v i j) (slotTsc v)
    let r := round32 0 p.1
    ((r.1, w32 (colbase + ixs.getD j j)), p.2 ||| r.2))
  let o := offerAll l (vals.map (fun x => x.1))
  (o.list l, vals.foldl (fun f x => f ||| x.2) (if o.nd then fND else 0), o.sat)

/-- finish(). -/
def finishSlot (colbase : Nat) (ixs : List Nat) (v : Slot) : Slot × BitVec 6 × Bool :=
  let rs := v.lists.mapIdx (finishRow v colbase ixs)
  ({ v with lists := rs.map (fun r => r.1), cells := [] }, rs.foldl (fun f r => f ||| r.2.1) 0, rs.any (fun r => r.2.2))

/-- A command that has executed without further words. -/
def matDone (k : Nat) (q : Cmd) (status : W64) (subs bytes : Nat) (s : State) : State :=
  updCmd k 0 q.num (fun q => { q with status := status, credit := bytes, w2 := w64 subs, w3 := w64 bytes, st := .done }) s

/-- A step on its operands. -/
def tileStep (k : Nat) (q : Cmd) (fin bnd : Bool) (slot : Nat) (b1 : W64) (ea eb : W32) (fa fb : Nat) (int : Bool)
    (as bs : List RowRead) (s : State) : State :=
  let v := slotAt (coreOf s k) slot
  let fin' := fin && v.ranked
  if stepSkips bnd (w32 (bits b1 32 32)) v then
    let s1 := setSlot k slot (skipSlot fin' { v with mark := true }) s
    let s2 := if fin' then updCore k (fun c => c.updRes q.task (fun r =>
        { r with skips := if r.skips == BitVec.allOnes 32 then r.skips else r.skips + 1 })) s1 else s1
    matDone k q msSkipped 0 0 (markSat k q (fin' && v.lists.any (fun l => 2 ^ 32 - 1 ≤ l.skips + 1)) s2)
  else
    let es := stepErrs as bs v.bad
    let (cells, f1) := stepCells fa fb int as bs v
    let v1 : Slot := { v with cells := cells, bad := [], int := int, tscA := ea, tscB := eb }
    let (v2, f2, sat) := if fin' then finishSlot (bits b1 0 32) (bs.map (fun r => r.ix)) v1 else (v1, 0, false)
    let s1 := markSat k q sat (logSubst k slot es (setSlot k slot v2 s))
    matDone k q ((if es.isEmpty then 0 else msDataerr) ||| msCond (f1 ||| f2)) es.length 0 s1

/-- The rows of an operand: those of the latch where it was gathered, else as scratchpad holds them now. -/
def operandRows (c : Core) (q : Cmd) (latched : Latch → List RowRead) (d : W64) (kd : Nat) : List RowRead :=
  if tdGather d then (q.latch.map latched).getD [] else tileRows c q d kd

/-- Execute an MMA or MMAG. A .GB tile that no longer translates, or whose shape is no longer that of the rows gathered for it,
is fetched again. -/
def runStep (k : Nat) (q : Cmd) (gb fin bnd : Bool) (slot : Nat) (a b b1 : W64) (ea eb : W32) (s : State) : State :=
  let c := coreOf s k
  if gb then
    match gbTile s q (tdFmt a) b with
    | .ok t =>
      if q.latch.any (fun l => l.kd != t.kd) then updCmd k 0 q.num (fun q => { q with done := 0, latch := none }) s
      else tileStep k q fin bnd slot b1 ea eb (tdFmt a) t.fmt t.int (operandRows c q Latch.as a t.kd) t.rows s
    | .error _ => updCmd k 0 q.num (fun q => { q with done := 0 }) s
  else match stepShape (tdFmt a) (tdFmt b) with
    | some (kd, int) => tileStep k q fin bnd slot b1 ea eb (tdFmt a) (tdFmt b) int (operandRows c q Latch.as a kd)
        (operandRows c q Latch.bs b kd) s
    | none => endCmd k 0 q.num msBadfmt s

def tileStepOn (s : State) (k : Nat) : Bool :=
  (matTurn s k).any (fun q => match q.op with
    | .mma _ _ _ _ _ _ _ _ _ _ => true
    | _ => false)

/-- TILE_STEP. -/
def execTileStep (k : Nat) (s : State) : Out :=
  event (tileStepOn s k) "TILE_STEP" (fun s =>
    match matTurn s k with
    | some q => match q.op with
      | .mma _ gb fin bnd slot a b b1 ea eb => runStep k q gb fin bnd slot a b b1 ea eb (arbNext k s)
      | _ => s
    | none => s) s

/-! ## Read-outs (11 R258, R259) -/

/-- Whether a read-out leaves a cell out. -/
def clipped (clip : Bool) (edge : W64) (i j : Nat) : Bool := clip && !(bit edge i && bit edge (32 + j))

/-- The FP32 value of a cell at read-out. -/
def readValue (v : Slot) (ed : W32) (i j : Nat) : W32 × BitVec 6 :=
  let p := mulFp (cellValue v i j) (slotTsc v)
  let r := mulFp p.1 (dec32 ed)
  let y := round32 0 r.1
  (y.1, p.2 ||| r.2 ||| y.2)

/-- The writes of one row, in order, with the conditions: offsets and bytes. -/
def readRowOut (v : Slot) (clip : Bool) (d : W64) (ed : W32) (edge : W64) (i : Nat) : List (Nat × List Byte) × BitVec 6 :=
  let fmt := tdFmt d
  let geom := tdGeom d
  let eb := fmtBits fmt / 8
  let bs := if geom == 0 then 32 else blockSize geom
  let rowAt := tdOffset d + i * tdStride d * 64
  let block (b : Nat) : List (Nat × List Byte) × BitVec 6 :=
    let js := ((List.range bs).map (fun j => bs * b + j)).filter (fun j => !clipped clip edge i j)
    if js.isEmpty then ([], 0)
    else if v.int && fmt == 8 then (js.map (fun j => (rowAt + j * eb, toBytes eb (cellAt v i j).toNat)), 0)
    else
      let vals := js.map (fun j => (j, readValue v ed i j))
      let sc := if geom == 0 then 127 else sharedScale fmt (vals.map (fun p => dec32 p.2.1))
      let outs := vals.map (fun p => (p.1, encodeElem fmt 0 (unscaleFp (dec32 p.2.1) sc)))
      ((if geom == 0 then [] else [(tdSide d + i * (32 / bs) + b, [BitVec.ofNat 8 sc])]) ++
         outs.map (fun p => (rowAt + p.1 * eb, toBytes eb p.2.1)),
       (vals.foldl (fun f p => f ||| p.2.2) 0) ||| (outs.foldl (fun f p => f ||| p.2.2) 0))
  let rs := (List.range (32 / bs)).map block
  (rs.flatMap (fun r => r.1), rs.foldl (fun f r => f ||| r.2) 0)

/-- A number of sectors that an engine moves in one step (assumption 4). -/
def drawBurst (s : State) : Nat × State := (Config.burst s.freeNum + 1, { s with freeNum := s.freeNum + 1 })

/-- The bytes that the writes of a read-out leave, by offset: a later write covers an earlier one. -/
def outCells (ws : List (Nat × List Byte)) : List (Nat × Byte) :=
  ws.foldl (fun m w => (w.2.zipIdx).foldl (fun m p => alPut m (w.1 + p.2) p.1) m) []

/-- The sectors that they touch, ascending. -/
def outSectors (m : List (Nat × Byte)) : List Nat := m.foldl (fun l p => setInsert (p.1 / 32) l) []

/-- Write the sectors `from ≤ i < to` of a read-out, in order (08 R180). -/
def writeSectors (k : Nat) (q : Cmd) (m : List (Nat × Byte)) (first n : Nat) (s : State) : State :=
  (((outSectors m).drop first).take n).foldl (fun s j =>
    (m.filter (fun p => p.1 / 32 == j)).foldl (fun s p => cmdSpadWrite k q p.1 [p.2] s) s) s

/-- One step of a read-out: some sectors, and `finish` behind the last. -/
def outStep (k : Nat) (q : Cmd) (ws : List (Nat × List Byte)) (finish : State → State) (s : State) : State :=
  let m := outCells ws
  let (n, s1) := drawBurst s
  let s2 := writeSectors k q m q.done n s1
  if (outSectors m).length ≤ q.done + n then finish s2 else updCmd k 0 q.num (fun q => { q with done := q.done + n }) s2

/-- The bytes of a read-out. -/
def outBytes (ws : List (Nat × List Byte)) : Nat := (ws.map (fun w => w.2.length)).sum

def matrixReadoutOn (s : State) (k : Nat) : Bool :=
  (matTurn s k).any (fun q => match q.op with
    | .mmr _ _ _ _ _ _ => true
    | _ => false)

/-- The cells that a read-out writes and that are uncorrectable. -/
def outErrs (v : Slot) (clip : Bool) (edge : W64) : List Subst :=
  cellErrs (v.bad.filter (fun n => !clipped clip edge (n / 32) (n % 32)))

/-- The end of an MMR. -/
def readoutDone (k : Nat) (q : Cmd) (z : Bool) (slot : Nat) (es : List Subst) (f : BitVec 6) (n : Nat) (s : State) : State :=
  let v := slotAt (coreOf s k) slot
  let s1 := if z then setSlot k slot { v with cells := [], bad := [], int := false, tscA := 0x3F800000, tscB := 0x3F800000 } s else s
  matDone k q ((if es.isEmpty then 0 else msDataerr) ||| msCond f) es.length n (logSubst k slot es s1)

/-- MATRIX_READOUT: MMR. -/
def execMatrixReadout (k : Nat) (s : State) : Out :=
  event (matrixReadoutOn s k) "MATRIX_READOUT" (fun s =>
    match matTurn s k with
    | some q => match q.op with
      | .mmr clip z slot a ed edge =>
        let v := slotAt (coreOf s k) slot
        let rs := (List.range 32).map (readRowOut v clip a ed edge)
        let ws := rs.flatMap (fun r => r.1)
        outStep k q ws (readoutDone k q z slot (outErrs v clip edge) (rs.foldl (fun f r => f ||| r.2) 0) (outBytes ws)) (arbNext k s)
      | _ => s
    | none => s) s

/-- The images of the rows of a ranked slot. -/
def listOut (v : Slot) (clip : Bool) (d : W64) (edge : W64) : List (Nat × List Byte) :=
  (v.lists.mapIdx (fun i l => if clip && !bit edge i then [] else [(tdOffset d + i * tdStride d * 64, bytesOf (listImage l))])).flatten

def matrixListReadoutOn (s : State) (k : Nat) : Bool :=
  (matTurn s k).any (fun q => match q.op with
    | .mmrl _ _ _ _ _ => true
    | _ => false)

/-- MATRIX_LIST_READOUT: MMRL. -/
def execMatrixListReadout (k : Nat) (s : State) : Out :=
  event (matrixListReadoutOn s k) "MATRIX_LIST_READOUT" (fun s =>
    match matTurn s k with
    | some q => match q.op with
      | .mmrl clip z slot a edge =>
        let v := slotAt (coreOf s k) slot
        if !v.ranked then matDone k q msNotrank 0 0 (arbNext k s)
        else
          let ws := listOut v clip a edge
          let clr (l : RList) : RList := { l with ents := [], nans := 0, skips := 0 }
          outStep k q ws (fun s =>
            matDone k q 0 0 (outBytes ws) (if z then setSlot k slot { v with lists := v.lists.map clr } s else s)) (arbNext k s)
      | _ => s
    | none => s) s

/-! ## MMZ and MMRANK (11 R265) -/

def slotResetOn (s : State) (k : Nat) : Bool :=
  (matTurn s k).any (fun q => match q.op with
    | .mmz _ => true
    | .mmrank _ _ => true
    | _ => false)

/-- SLOT_RESET. -/
def execSlotReset (k : Nat) (s : State) : Out :=
  event (slotResetOn s k) "SLOT_RESET" (fun s =>
    match matTurn s k with
    | some q =>
      let held (n : Nat) : Bool := (slotAt (coreOf s k) n).held
      match q.op with
      | .mmz n => matDone k q 0 0 0 (setSlot k n { Slot.reset with held := held n } (arbNext k s))
      | .mmrank n kk => matDone k q 0 0 0 (setSlot k n { Slot.reset with
          held := held n, ranked := true, lists := List.replicate 32 { RList.fresh with k := kk } } (arbNext k s))
      | _ => s
    | none => s) s

/-! ## Completion (08 R178, R182) -/

def completionActionsOn (s : State) (k eng num : Nat) : Bool :=
  eng < 4 && ((coreOf s k).queue eng).any (fun q => q.num == num && q.st == .done)

/-- The schedules of the launches of a core go on when their channel has room (12 R290). -/
def postDueAll (k : Nat) (s : State) : State :=
  ((coreOf s k).res.map (fun r => r.task)).foldl (fun s t => postDue k t s) s

/-- COMPLETION_ACTIONS. -/
def execCompletionActions (k eng num : Nat) (s : State) : Out :=
  event (completionActionsOn s k eng num) "COMPLETION_ACTIONS" (fun s =>
    match ((coreOf s k).queue eng).find? (fun q => q.num == num) with
    | some q => postDueAll k (completeCmd k eng q s)
    | none => s) s

end Sys2Proof.Machine
end

