-- ==== Sys2Proof/Machine/AgentCopy.lean ====
section
/-! DEFINITION. The copy engine: the execution of copies, remote copies, reductions, atomics, multicasts, drive reads and
decompression (12 R270 to R287, 13 R297 to R301). -/
namespace Sys2Proof.Machine

/-! ## Status words (12 R273) -/

def csDataerr : W64 := 1
def csFault : W64 := 2
def csRemoteerr : W64 := 4
def csBadfmt : W64 := 8
def csBadcode : W64 := 0x10
def csBadstream : W64 := 0x20
def csBadtab : W64 := 0x40
def csShort : W64 := 0x80
def csDupslice : W64 := 0x100
def csBadslice : W64 := 0x200
def csMismatch : W64 := 0x400
def csBusy : W64 := 0x800
def csNeg : W64 := 0x1000
def csNodrive : W64 := 0x2000
def csNvmeerr : W64 := 0x4000
def csAborted : W64 := 0x8000
def csToobig : W64 := 0x10000
def csCond (f : BitVec 6) : W64 := w64 (f.toNat * 2 ^ 17)

/-- Add bits to the status of a command that goes on. -/
def orStatus (k eng num : Nat) (v : W64) (s : State) : State := updCmd k eng num (fun q => { q with status := q.status ||| v }) s

/-! ## Moving bytes by sectors (12 R272, R274, R277) -/

/-- An end of a move: scratchpad of the command's launch, global memory of this module, or bytes at hand. -/
inductive Spot where
  | spad (a : Nat)
  | glob (va : W64)
  | data (bs : List Byte)
  deriving DecidableEq, Repr

/-- What the pieces of a move are aligned to. -/
def Spot.base (p : Spot) : Nat :=
  match p with
  | .spad a => a
  | .glob va => va.toNat
  | .data _ => 0

/-- The offset at which the aligned piece `i` of `g` bytes of a range begins, and the number of pieces. -/
def cutAt (g base len i : Nat) : Nat := if i == 0 then 0 else min len (g * i - base % g)
def cuts (g base len : Nat) : Nat := if len == 0 then 0 else (base % g + len + g - 1) / g

/-- A byte of memory, and whether its sector holds uncorrectable data. -/
def memSector (s : State) (key : Nat) : Byte × Bool := (memGet s.mem key, anyPoison s.poison (key / 32 * 32) 32)

/-- Bytes of scratchpad of a command, each with the mark of its sector. -/
def spadSector (c : Core) (q : Cmd) (a n : Nat) : List (Byte × Bool) :=
  (List.range n).map (fun i =>
    let o := spOff q.spbase q.logspad (a + i)
    (memGet c.spad o, anyPoison c.spoison (o / 32 * 32) 32))

/-- `n` bytes of an end from offset `i`. -/
def readSpot (s : State) (k : Nat) (q : Cmd) (p : Spot) (i n : Nat) : Except (Req × XRes) (List (Byte × Bool)) :=
  match p with
  | .spad a => .ok (spadSector (coreOf s k) q (a + i) n)
  | .glob va => (rangeKeys s (cmdReq q true false) (pieces (va + w64 i) n)).map (fun ks => ks.map (memSector s))
  | .data bs => .ok (((bs.drop i).take n).map (fun b => (b, false)))

/-- Write bytes at an end: uncorrectable ones are zeros in scratchpad and poisoned in global memory. -/
def writeSpot (k : Nat) (q : Cmd) (p : Spot) (i : Nat) (bs : List (Byte × Bool)) (s : State) : Except (Req × XRes) State :=
  match p with
  | .spad a => .ok (cmdSpadWrite k q (a + i) (bs.map (fun b => if b.2 then 0 else b.1)) s)
  | .glob va => (rangeKeys s (cmdReq q false true) (pieces (va + w64 i) bs.length)).map (fun ks =>
      poisonCells (perform s (ks.zip (bs.map (fun b => b.1)))) ((ks.zip bs).filterMap (fun p => if p.2.2 then some p.1 else none)))
  | .data _ => .ok s

/-- One sector: read, then written; whether it held uncorrectable data. An error says whether the source faulted. -/
def moveSector (k : Nat) (q : Cmd) (dst src : Spot) (lo n : Nat) (s : State) : Except (Bool × (Req × XRes)) (State × Bool) :=
  match readSpot s k q src lo n with
  | .error e => .error (true, e)
  | .ok bs => match writeSpot k q dst lo bs s with
    | .error e => .error (false, e)
    | .ok s1 => .ok (s1, bs.any (fun b => b.2))

/-- How far a command has come. -/
def setDone (k eng num n : Nat) (s : State) : State := updCmd k eng num (fun q => { q with done := n }) s

/-- Move up to `fuel` sectors from sector `i` on; the command ends behind its last one. A fault leaves the sectors before
it written. `lsrc` and `ldst` are the statuses of an unrecoverable fault at either end. -/
def moveGo (k : Nat) (q : Cmd) (dst src : Spot) (len : Nat) (lsrc ldst : W64) : Nat → Nat → State → State
  | 0, i, s => if cuts 32 dst.base len ≤ i then endCmd k 1 q.num 0 s else setDone k 1 q.num i s
  | n + 1, i, s =>
    if cuts 32 dst.base len ≤ i then endCmd k 1 q.num 0 s
    else
      let lo := cutAt 32 dst.base len i
      match moveSector k q dst src lo (cutAt 32 dst.base len (i + 1) - lo) s with
      | .error (fromSrc, f) => cmdFault k 1 2 q (if fromSrc then lsrc else ldst) f (setDone k 1 q.num i s)
      | .ok (s1, bad) => moveGo k q dst src len lsrc ldst n (i + 1) (if bad then orStatus k 1 q.num csDataerr s1 else s1)

/-- One step of a move. -/
def moveStep (k : Nat) (q : Cmd) (dst src : Spot) (len : Nat) (lsrc ldst : W64) (s : State) : State :=
  let (n, s1) := drawBurst s
  moveGo k q dst src len lsrc ldst n q.done s1

/-! ### Decoding copies -/

/-- The scale bytes of elements, each with the mark of its sector. -/
def decScales (s : State) (q : Cmd) : List W64 → Except GbErr (List (Byte × Bool))
  | [] => .ok []
  | va :: r => do
    let (key, _) ← gbLeaf s q va
    let rest ← decScales s q r
    pure (memSector s key :: rest)

/-- Where a decoding copy reads: the attribute, the locations of the elements with their lengths, and the VA of the scale of
each element that has one. -/
def decPlan (s : State) (q : Cmd) (src : W64) (n dfmt : Nat) : Except GbErr (PageAttr × List (Nat × Nat) × List W64) := do
  let (_, p) ← gbLeaf s q src
  if p.fmt == 0 || src.toNat % eltBytes p.fmt != 0 then .error .badfmt
  else do
    let eb := eltBytes p.fmt
    let ps ← gbPieces s q p.fmt p.geom (pieces src (n * eb))
    let vas := ps.flatMap (fun x => (List.range (x.2.1 / eb)).map (fun j =>
      x.2.2.2.side + w64 (((x.1 - x.2.2.2.base).toNat / eb + j) / blockSize p.geom)))
    pure (p, ps.map (fun x => (x.2.2.1, x.2.1)), if p.geom == 0 || p.fmt == dfmt then [] else vas)

/-- The source of a decoding copy: the attribute, the bytes of the elements, and the scale of each element. -/
def decSource (s : State) (q : Cmd) (src : W64) (n dfmt : Nat) :
    Except GbErr (PageAttr × List (Byte × Bool) × List (Byte × Bool)) := do
  let (p, ps, vas) ← decPlan s q src n dfmt
  let scales ← decScales s q vas
  pure (p, ps.flatMap (fun x => (List.range x.2).map (fun i => memSector s (x.1 + i))), scales)

/-- The elements that a decoding copy writes: bytes, conditions, and whether the data was uncorrectable. -/
def decElems (p : PageAttr) (n dfmt osize : Nat) (data scales : List (Byte × Bool)) : List (List Byte × BitVec 6 × Bool) :=
  let eb := eltBytes p.fmt
  (List.range n).map (fun i =>
    let e := (data.drop (eb * i)).take eb
    let sc := scales.getD i (127, false)
    let v := ofBytes (e.map (fun b => b.1))
    if e.any (fun b => b.2) || sc.2 then (List.replicate osize 0, 0, true)
    else if p.fmt == dfmt then (toBytes osize v, 0, false)
    else
      let x := decodeElem p.fmt v
      let r := roundFp (fmtOf dfmt) 0 (if p.geom == 0 then x else scaleFp x sc.1.toNat)
      (toBytes osize r.1, r.2, false))

/-- Write up to `fuel` sectors of a decoding copy from sector `i` on. -/
def decodeGo (k : Nat) (q : Cmd) (dst osize : Nat) (es : List (List Byte × BitVec 6 × Bool)) : Nat → Nat → State → State
  | 0, i, s => if cuts 32 dst (es.length * osize) ≤ i then endCmd k 1 q.num 0 s else setDone k 1 q.num i s
  | n + 1, i, s =>
    let len := es.length * osize
    if cuts 32 dst len ≤ i then endCmd k 1 q.num 0 s
    else
      let lo := cutAt 32 dst len i
      let part := (es.drop (lo / osize)).take ((cutAt 32 dst len (i + 1) - lo) / osize)
      let st := csCond (part.foldl (fun f e => f ||| e.2.1) 0) ||| (if part.any (fun e => e.2.2) then csDataerr else 0)
      decodeGo k q dst osize es n (i + 1) (orStatus k 1 q.num st (cmdSpadWrite k q (dst + lo) (part.flatMap (fun e => e.1)) s))

/-- CPY.G2L with DEC: the attributes of every page are judged before a sector is written. -/
def decodeCopy (k : Nat) (q : Cmd) (dst : Nat) (src ctl : W64) (s : State) : State :=
  let dfmt := ctlDec ctl
  let osize := decSize dfmt
  let n := ctlLen ctl / osize
  if n == 0 then endCmd k 1 q.num 0 s
  else match decSource s q src n dfmt with
    | .error .badfmt => endCmd k 1 q.num csBadfmt s
    | .error (.fault f) => cmdFault k 1 2 q csFault f s
    | .ok (p, data, scales) =>
      let (b, s1) := drawBurst s
      decodeGo k q dst osize (decElems p n dfmt osize data scales) b q.done s1

/-! ## Streams of decompression (12 R286, R287) -/

/-- The table of an image, if the engine accepts it. -/
def tableOf (image : List Byte) : Option Table :=
  let counts := (List.range 16).map (fun i => ofBytes ((image.drop (2 * i)).take 2))
  let total := counts.sum
  let kraft := ((counts.zipIdx).map (fun p => p.1 * 2 ^ (15 - p.2))).sum
  if total == 0 || total > 256 || kraft > 2 ^ 16 then none
  else some { counts := counts, symbols := (image.drop 32).take total }

/-- Bit `i` of the bits of a chunk; beyond its 4,092 bytes there are none, and zeros are read. -/
def chunkBit (bs : List Byte) (i : Nat) : Nat := (bs.getD (i / 8) 0).toNat / 2 ^ (i % 8) % 2

/-- Read one code from bit `i` on: its symbol and its length. -/
def readCode (t : Table) (bs : List Byte) (i : Nat) : Nat → Nat → Nat → Nat → Nat → Option (Byte × Nat)
  | 0, _, _, _, _ => none
  | f + 1, l, code, first, index =>
    let c := 2 * code + chunkBit bs (i + l)
    let n := t.counts.getD l 0
    if c < first + n && first ≤ c then some (t.symbols.getD (index + (c - first)) 0, l + 1)
    else readCode t bs i f (l + 1) c (2 * (first + n)) (index + n)

/-- The symbols of a chunk of `b` bits, up to `want`, and the status that ends the stream, if any. -/
def readChunk (t : Table) (bs : List Byte) (b : Nat) : Nat → Nat → List Byte × W64
  | 0, _ => ([], 0)
  | want + 1, i =>
    if b ≤ i then ([], 0)
    else match readCode t bs i 16 0 0 0 0 with
      | none => ([], csBadcode)
      | some (x, l) =>
        if b < i + l then ([], csBadstream)
        else
          let r := readChunk t bs b want (i + l)
          (x :: r.1, r.2)

/-- What a stream decodes to: the bytes, the chunks read, the status, and the fault that stopped it. -/
structure Decoded where
  out : List Byte
  chunks : Nat
  status : W64
  fault : Option (Req × XRes)
  deriving DecidableEq, Repr

/-- Decode the chunks of a stream from chunk `c` on; `rd va n` reads bytes of it. -/
def decodeStream (t : Table) (rd : Nat → Nat → Except (Req × XRes) (List (Byte × Bool))) : Nat → Nat → List Byte → W64 → Nat → Decoded
  | 0, c, out, st, _ => { out := out, chunks := c, status := st, fault := none }
  | f + 1, c, out, st, len =>
    if len ≤ out.length then { out := out, chunks := c, status := st, fault := none }
    else match rd (4096 * c) 4 with
      | .error e => { out := out, chunks := c, status := st, fault := some e }
      | .ok h =>
        let zero (bs : List (Byte × Bool)) : List Byte := bs.map (fun b => if b.2 then 0 else b.1)
        let st1 := st ||| (if h.any (fun b => b.2) then csDataerr else 0)
        let b := ofBytes (zero h)
        if b == 0 then { out := out, chunks := c, status := st1 ||| csShort, fault := none }
        else if b > 32736 then { out := out, chunks := c, status := st1 ||| csBadstream, fault := none }
        else match rd (4096 * c + 4) (min 4092 ((b + 15 + 7) / 8)) with
          | .error e => { out := out, chunks := c, status := st1, fault := some e }
          | .ok bs =>
            let r := readChunk t (zero bs) b (len - out.length) 0
            let st2 := st1 ||| r.2 ||| (if bs.any (fun b => b.2) then csDataerr else 0)
            if r.2 != 0 then { out := out ++ r.1, chunks := c + 1, status := st2, fault := none }
            else decodeStream t rd f (c + 1) (out ++ r.1) st2 len

/-- A stream of at most `len` symbols has at most as many chunks that count. -/
def decodeAll (t : Table) (rd : Nat → Nat → Except (Req × XRes) (List (Byte × Bool))) (len : Nat) : Decoded :=
  decodeStream t rd (len + 1) 0 [] 0 len

/-! ## The head of a channel (12 R271) -/

def isSlice (q : Cmd) : Bool :=
  match q.op with
  | .cred _ slice _ _ _ => slice
  | _ => false

/-- A slice contribution whose record is still open: it has read its source, and the record makes its write. -/
def sliceAway (q : Cmd) : Bool :=
  isSlice q && (match q.st with
    | .away _ => true
    | _ => false)

/-- The destination of a reduction: VA and bytes. -/
def redRange (q : Cmd) : W64 × Nat :=
  match q.op with
  | .cred _ _ dst _ ctl => (dst, redNel ctl * redDstBytes (redStype ctl) (redDtype ctl))
  | _ => (0, 0)

/-- What a command may meet of an open record (12 R271): a range of this module's or another module's global memory, at every
accelerator when `any` is set. -/
structure Extent where
  any : Bool
  va : W64
  len : Nat
  deriving DecidableEq, Repr

def extent (va : W64) (n : Nat) : Extent := { any := false, va := va, len := n }

/-- The source of a decoding copy, with the scale bytes of its elements, as far as its pages are known. -/
def decExtents (s : State) (q : Cmd) (src ctl : W64) : List Extent :=
  let n := ctlLen ctl / decSize (ctlDec ctl)
  match decPlan s q src n (ctlDec ctl) with
  | .ok (p, _, vas) => extent src (n * eltBytes p.fmt) :: vas.map (fun va => extent va 1)
  | .error _ => [extent src (4 * n)]

/-- The chunks that a decompression reads of its stream as memory stands. -/
def cdecExtents (s : State) (k : Nat) (q : Cmd) (src ctl : W64) : List Extent :=
  match (coreOf s k).tabs.get ⟨bits ctl 20 2 % 4, Nat.mod_lt _ (by decide)⟩ with
  | none => []
  | some t =>
    let r := decodeAll t (fun o n => readSpot s k q (.glob src) o n) (bits ctl 0 20)
    [extent src (4096 * r.chunks + (if r.out.length < bits ctl 0 20 then 4 else 0))]

/-- The ranges of global memory that a command reads or writes. -/
def globRanges (s : State) (k : Nat) (q : Cmd) : List Extent :=
  match q.op with
  | .cpy kind dst src ctl =>
    (if kind == 1 then [] else if ctlDec ctl == 0 then [extent src (ctlLen ctl)] else decExtents s q src ctl) ++
    (if kind == 0 then [] else [extent dst (ctlLen ctl)])
  | .cpyr glob dst src ctl => extent src (ctlLen ctl) :: (if glob then [extent dst (ctlLen ctl)] else [])
  | .cpyw glob dst src ctl => extent dst (ctlLen ctl) :: (if glob then [extent src (ctlLen ctl)] else [])
  | .cred _ _ _ _ _ => [extent (redRange q).1 (redRange q).2]
  | .catom _ _ _ va _ _ => [extent va 8]
  | .cmc dst _ ctl => [{ any := true, va := dst, len := cmcLen ctl }]
  | .cstor glob dst _ ctl => if glob then [extent dst (4096 * (bits ctl 8 16 + 1))] else []
  | .cdec _ src ctl => cdecExtents s k q src ctl
  | _ => []

/-- The locations of a range of this module whose pages the Retorts hold: a first one and a length for each page. -/
def knownKeys (s : State) (q : Cmd) (e : Extent) : List (Nat × Nat) :=
  let va := if e.any then setBits e.va 54 10 s.accel.toNat else e.va
  if vaAccel va != s.accel.toNat then []
  else (pieces va e.len).filterMap (fun p =>
    match xlate s (cmdReq q false false p.1) with
    | .ok key _ => some (key, p.2)
    | _ => none)

/-- Whether two ranges of addresses meet. -/
def rangesMeet (a n b m : Nat) : Bool := a < b + m && b < a + n

/-- Whether a range of a command meets the destination of a slice contribution: by its addresses in one address space, or by the
locations that both are known to lie at (assumption 138). -/
def meetsRange (s : State) (q p : Cmd) (r : Extent) : Bool :=
  let (dst, n) := redRange p
  let low (va : W64) : Nat := if r.any then va.toNat % 2 ^ 54 else va.toNat
  (q.asid == p.asid && rangesMeet (low r.va) r.len (low dst) n) ||
    (knownKeys s q r).any (fun a => (knownKeys s p (extent dst n)).any (fun b => rangesMeet a.1 a.2 b.1 b.2))

/-- Whether a command must wait for the record of an earlier slice contribution: one that does not contribute to the same record
and meets its destination. -/
def meetsSlice (s : State) (k : Nat) (q p : Cmd) : Bool :=
  !(isSlice q && (redRange q).1 == (redRange p).1 && q.task == p.task) && (globRanges s k q).any (meetsRange s q p)

/-- The command of a channel that takes effect next. -/
def copyHead (s : State) (k : Nat) : Option Cmd :=
  let c := coreOf s k
  (c.copyq.find? (fun q => cmdLive s k q && !sliceAway q)).filter (fun q =>
    !c.copyq.any (fun p => p.num < q.num && sliceAway p && meetsSlice s k q p))

/-- The head of a channel if it may run and is of a kind. -/
def copyTurn (s : State) (k : Nat) (kind : CmdOp → Bool) : Option Cmd := (copyHead s k).filter (fun q => kind q.op && cmdFree s k 1 q)

/-! ## CPY (12 R277) -/

def isCpy (op : CmdOp) : Bool :=
  match op with
  | .cpy _ _ _ _ => true
  | _ => false

def copyExecuteOn (s : State) (k : Nat) : Bool := (copyTurn s k isCpy).isSome

/-- COPY_EXECUTE: CPY (12 R277). -/
def execCopyExecute (k : Nat) (s : State) : Out :=
  event (copyExecuteOn s k) "COPY_EXECUTE" (fun s =>
    match copyTurn s k isCpy with
    | some q => runCmd k 1 q csFault (fun s => match q.op with
      | .cpy kind dst src ctl =>
        let d : Spot := if kind == 0 then .spad (bits dst 0 19) else .glob dst
        let f : Spot := if kind == 1 then .spad src.toNat else .glob src
        if ctlDec ctl != 0 then decodeCopy k q dst.toNat src ctl s else moveStep k q d f (ctlLen ctl) csFault csFault s
      | _ => s) s
    | none => s) s

/-! ## Transactions of the fabric (13 R294, R297) -/

/-- A tag that no outstanding transaction bears. -/
def freeTag (s : State) : Nat :=
  let used (t : Nat) : Bool := s.fab.txs.any (fun x => x.tag == t)
  (((List.range (s.fab.txs.length + 1)).map (fun i => (s.fab.tag + i) % 2 ^ 16)).find? (fun t => !used t)).getD s.fab.tag

/-- Send a transaction for a command; without a live port it stays unsent until it is found unreachable. -/
def sendTx (accel : Nat) (va : W64) (op : FabOp) (core eng cmd off : Nat) (s : State) : State :=
  let t := freeTag s
  let x : Tx := { tag := t, accel := accel, op := op, port := portOf s accel va, since := s.clk, first := s.clk, core := core,
                  eng := eng, cmd := cmd, off := off }
  let s1 := { s with fab := { s.fab with txs := s.fab.txs ++ [x], tag := (t + 1) % 2 ^ 16 } }
  toFabric accel t va op s1

/-- The outstanding transactions of a copy command. -/
def txsOf (s : State) (k num : Nat) : List Tx := s.fab.txs.filter (fun x => x.core == k && x.eng == 1 && x.cmd == num &&
  (match x.op with
   | .line _ => false
   | _ => true))

/-- Forget a transaction. -/
def dropTx (tag : Nat) (s : State) : State := { s with fab := { s.fab with txs := s.fab.txs.filter (fun x => x.tag != tag) } }

/-- Whether there is room for another transaction: tags have 16 bits. -/
def txRoom (s : State) : Bool := s.fab.txs.length < 2 ^ 15

/-- The answer that a transaction has received. -/
def txAnswer (x : Tx) : Option (List Byte × W64 × Nat) :=
  match x.op with
  | .answer data v status => some (data, v, status)
  | _ => none

/-! ## CPYR and CPYW (12 R278) -/

/-- The remote end, the local end, the length and whether the command reads. -/
def remoteParts (op : CmdOp) : Option (W64 × Spot × Nat × Bool) :=
  match op with
  | .cpyr glob dst src ctl => some (src, if glob then .glob dst else .spad (bits dst 0 19), ctlLen ctl, true)
  | .cpyw glob dst src ctl => some (dst, if glob then .glob src else .spad src.toNat, ctlLen ctl, false)
  | _ => none

/-- The pieces in which a remote copy crosses the fabric: reads of up to four sectors of the destination, so that each is written
whole, and writes of one sector (12 R272; 08 R180). -/
def remoteGrain (read : Bool) : Nat := if read then 128 else 32

/-- What the pieces are aligned to: the destination. -/
def remoteBase (va : W64) (near : Spot) (read : Bool) : Nat := if read then near.base else va.toNat

/-- The received transaction that a remote copy takes next: for a read the lowest one outstanding. -/
def remoteReady (s : State) (k : Nat) (q : Cmd) (read : Bool) : Option Tx :=
  let xs := txsOf s k q.num
  if read then (xs.find? (fun x => xs.all (fun y => x.off ≤ y.off))).filter (fun x => (txAnswer x).isSome)
  else xs.find? (fun x => (txAnswer x).isSome)

/-- What a remote copy does next: it takes an answer, sends further pieces, or ends. -/
def remoteOn (s : State) (k : Nat) (q : Cmd) : Bool :=
  match remoteParts q.op with
  | none => false
  | some (va, near, len, read) =>
    vaAccel va == s.accel.toNat || (remoteReady s k q read).isSome ||
      (if q.done < cuts (remoteGrain read) (remoteBase va near read) len then txRoom s else (txsOf s k q.num).isEmpty)

/-- Bytes of a list of marked bytes. -/
def plain (bs : List (Byte × Bool)) : List Byte := bs.map (fun b => b.1)

/-- Send the pieces of a remote copy from piece `i` on. -/
def sendPieces (k : Nat) (q : Cmd) (va : W64) (near : Spot) (len : Nat) (read : Bool) : Nat → Nat → State → State
  | 0, i, s => setDone k 1 q.num i s
  | n + 1, i, s =>
    let g := remoteGrain read
    let base := remoteBase va near read
    if cuts g base len ≤ i || !txRoom s then setDone k 1 q.num i s
    else
      let lo := cutAt g base len i
      let m := cutAt g base len (i + 1) - lo
      let a := va + w64 lo
      if read then
        sendPieces k q va near len read n (i + 1)
          (sendTx (vaAccel va) a (.read a q.asid (inSub q.spa a) m) k 1 q.num lo s)
      else match readSpot s k q near lo m with
        | .error f => cmdFault k 1 2 q csFault f (setDone k 1 q.num i s)
        | .ok bs =>
          let bad := bs.any (fun b => b.2)
          sendPieces k q va near len read n (i + 1)
            (sendTx (vaAccel va) a (.write a q.asid (inSub q.spa a) (plain bs) bad q.xfer i) k 1 q.num lo
              (if bad then orStatus k 1 q.num csDataerr s else s))

/-- A remote copy takes a number for its transfer as its first piece leaves (13 R295). -/
def numberXfer (k : Nat) (q : Cmd) (s : State) : Cmd × State :=
  if q.done != 0 then (q, s)
  else
    let x := s.fab.xfer
    ({ q with xfer := x }, updCmd k 1 q.num (fun q => { q with xfer := x }) { s with fab := { s.fab with xfer := x + 1 } })

/-- Forget every transaction of a command. -/
def dropTxs (k num : Nat) (s : State) : State := (txsOf s k num).foldl (fun s x => dropTx x.tag s) s

/-- A remote copy takes the answer of a piece; bit j of the value that comes with read data says that its sector at
address 32 j modulo 256 was uncorrectable. -/
def takeAnswer (k : Nat) (q : Cmd) (near : Spot) (len : Nat) (read : Bool) (va : W64) (x : Tx) (s : State) : State :=
  match txAnswer x with
  | none => s
  | some (data, lost, status) =>
    let refused := status / 4 % 2 == 1
    let a := va.toNat + x.off
    if read then
      if refused then endCmd k 1 q.num (w64 status) (dropTxs k q.num s)
      else match writeSpot k q near x.off (data.mapIdx (fun i b => (b, bit lost ((a + i) / 32 % 8)))) s with
        | .error f => cmdFault k 1 2 q csFault f s
        | .ok s1 => orStatus k 1 q.num (w64 status) (dropTx x.tag s1)
    else
      let s1 := orStatus k 1 q.num (w64 status) (dropTx x.tag s)
      if refused then setDone k 1 q.num (cuts (remoteGrain read) (remoteBase va near read) len) s1 else s1

/-- One step of a remote copy. A VA of this module is moved as a local one. -/
def remoteStep (k : Nat) (q : Cmd) (s : State) : State :=
  match remoteParts q.op with
  | none => s
  | some (va, near, len, read) =>
    if vaAccel va == s.accel.toNat then
      (if read then moveStep k q near (.glob va) len csFault csFault s else moveStep k q (.glob va) near len csFault csFault s)
    else match remoteReady s k q read with
      | some x => takeAnswer k q near len read va x s
      | none =>
        if q.done < cuts (remoteGrain read) (remoteBase va near read) len then
          let (n, s1) := drawBurst s
          let (q1, s2) := numberXfer k q s1
          sendPieces k q1 va near len read n q.done s2
        else endCmd k 1 q.num 0 s

def isRemote (op : CmdOp) : Bool := (remoteParts op).isSome

def remoteCopyExecuteOn (s : State) (k : Nat) : Bool := (copyTurn s k isRemote).any (fun q => remoteOn s k q || cmdFailed s k 1 q)

/-- REMOTE_COPY_EXECUTE: CPYR and CPYW. -/
def execRemoteCopyExecute (k : Nat) (s : State) : Out :=
  event (remoteCopyExecuteOn s k) "REMOTE_COPY_EXECUTE" (fun s =>
    match copyTurn s k isRemote with
    | some q => runCmd k 1 q csFault (remoteStep k q) (if cmdFailed s k 1 q then dropTxs k q.num s else s)
    | none => s) s

/-! ## Reductions (12 R280 to R282) -/

/-- The combine of two elements (12 R280): FP32 as a 32-bit pattern, INT64 as it is. -/
def redCombine (isMax : Bool) (stype : Nat) (a b : W64) : W64 × BitVec 6 :=
  if stype == 2 then (if isMax then (if a.toNat < b.toNat then b else a) else a + b, 0)
  else
    let r := if isMax then maxmin32 true (a.setWidth 32) (b.setWidth 32) else add32 0 (a.setWidth 32) (b.setWidth 32)
    (r.1.setWidth 64, r.2)

/-- The elements of the source, decoded, each with its mark. -/
def redElems (c : Core) (q : Cmd) (src : Nat) (nel stype : Nat) : List (W64 × Bool) :=
  let sb := redSrcBytes stype
  (List.range nel).map (fun j =>
    let bs := spadSector c q (src + sb * j) sb
    let bad := bs.any (fun b => b.2)
    let v := ofBytes (plain bs)
    (if bad then 0 else if stype == 1 then (round32 0 (decodeFp bf16 v)).1.setWidth 64 else w64 v, bad))

/-- The indexes of uncorrectable elements. -/
def badIxs (es : List (W64 × Bool)) : List Nat := (es.zipIdx.filter (fun p => p.1.2)).map (fun p => p.2)

/-- One element combined into memory as one read-modify-write: the conditions, and whether data was uncorrectable. -/
def redElement (isMax : Bool) (stype : Nat) (mk : W64 → Req) (va : W64) (v : W64) (bad : Bool) (s : State) :
    Except (Req × XRes) (State × BitVec 6 × Bool) :=
  let n := if stype == 2 then 8 else 4
  match rangeKeys s mk [(va, n)] with
  | .error f => .error f
  | .ok ks =>
    let lost := bad || ks.any (fun k => s.poison.contains k)
    let r := redCombine isMax stype (w64 (ofBytes (ks.map (memGet s.mem)))) v
    let s1 := perform s (ks.zip (toBytes n r.1.toNat))
    .ok (if lost then poisonCells s1 ks else s1, r.2, lost)

/-- Arrival mode on this module, element by element from `j` on (12 R281). -/
def arriveGo (k : Nat) (q : Cmd) (isMax : Bool) (dst : W64) (stype : Nat) (es : List (W64 × Bool)) : Nat → Nat → State → State
  | 0, _, s => endCmd k 1 q.num 0 s
  | n + 1, j, s =>
    match es[j]? with
    | none => endCmd k 1 q.num 0 s
    | some (v, bad) =>
      match redElement isMax stype (cmdReq q true true) (dst + w64 ((if stype == 2 then 8 else 4) * j)) v bad s with
      | .error f => cmdFault k 1 2 q csFault f (setDone k 1 q.num j s)
      | .ok (s1, f, lost) => arriveGo k q isMax dst stype es n (j + 1)
          (orStatus k 1 q.num (csCond f ||| (if lost then csDataerr else 0)) s1)

/-- Send the elements of an arrival-mode reduction to another module, 32 to a transaction. -/
def sendReduce (k : Nat) (q : Cmd) (isMax : Bool) (dst : W64) (stype : Nat) (es : List (W64 × Bool)) (s : State) : State :=
  let n := if stype == 2 then 8 else 4
  let s1 := (List.range ((es.length + 31) / 32)).foldl (fun s i =>
    let part := (es.drop (32 * i)).take 32
    let va := dst + w64 (32 * n * i)
    sendTx (vaAccel dst) va (.reduce va q.asid (inSub q.spa va) isMax stype (part.map (fun e => e.1)) (badIxs part)) k 1 q.num (32 * i) s) s
  updCmd k 1 q.num (fun q => { q with st := .away 0 }) s1

/-- The tags of the earlier contributions of a channel to a record of another module that are still out: the later one is tested
behind them (12 R271). -/
def slicesOut (s : State) (k : Nat) (task : BitVec 12) (dst : W64) : List Nat :=
  s.fab.txs.filterMap (fun x => match x.op with
    | .slice r => if x.core == k && x.eng == 1 && r.va == dst && r.task == task then some x.tag else none
    | _ => none)

/-- A slice contribution leaves for the memory agent of its destination (12 R282), on the fabric in parts of up to 256 bytes
(13 R294). -/
def sendSlice (k : Nat) (q : Cmd) (isMax : Bool) (dst ctl : W64) (es : List (W64 × Bool)) (s : State) : State :=
  let x := s.fab.xfer
  let r : RedMsg := { va := dst, asid := q.asid, sub := inSub q.spa dst, task := q.task, nel := redNel ctl, stype := redStype ctl,
                      dtype := redDtype ctl, isMax := isMax, cnt := redScnt ctl, slice := redSlice ctl, data := es.map (fun e => e.1),
                      bad := badIxs es, num := x, first := 0, behind := slicesOut s k q.task dst, src := .here k q.num }
  let s1 := updCmd k 1 q.num (fun q => { q with st := .away 0 }) s
  if vaAccel dst == s.accel.toNat then { s1 with redq := s1.redq ++ [r] }
  else
    let part (i : Nat) : RedMsg :=
      let es := (es.drop (32 * i)).take 32
      { r with data := es.map (fun e => e.1), bad := badIxs es, first := 32 * i }
    (List.range ((es.length + 31) / 32)).foldl (fun s i => sendTx (vaAccel dst) dst (.slice (part i)) k 1 q.num (32 * i) s)
      { s1 with fab := { s1.fab with xfer := x + 1 } }

def isCred (op : CmdOp) : Bool :=
  match op with
  | .cred _ _ _ _ _ => true
  | _ => false

def credExecuteOn (s : State) (k : Nat) : Bool := (copyTurn s k isCred).isSome && txRoom s

/-- CRED_EXECUTE. -/
def execCredExecute (k : Nat) (s : State) : Out :=
  event (credExecuteOn s k) "CRED_EXECUTE" (fun s =>
    match copyTurn s k isCred with
    | some q => runCmd k 1 q csFault (fun s => match q.op with
      | .cred isMax slice dst src ctl =>
        let es := redElems (coreOf s k) q src.toNat (redNel ctl) (redStype ctl)
        let s1 := if es.any (fun e => e.2) then orStatus k 1 q.num csDataerr s else s
        if slice then sendSlice k q isMax dst ctl es s1
        else if vaAccel dst == s.accel.toNat then arriveGo k q isMax dst (redStype ctl) es (redNel ctl) q.done s1
        else sendReduce k q isMax dst (redStype ctl) es s1
      | _ => s) s
    | none => s) s

/-! ### Reduction records (12 R282, 02 R38) -/

/-- One level of the tree: neighbours combine, an absent sibling passes up. -/
def treePairs (f : W64 → W64 → W64 × BitVec 6) : List W64 → List W64 × BitVec 6
  | a :: b :: r =>
    let x := f a b
    let rest := treePairs f r
    (x.1 :: rest.1, x.2 ||| rest.2)
  | r => (r, 0)

/-- The tree over the slices in order. -/
def sliceTree (f : W64 → W64 → W64 × BitVec 6) : Nat → List W64 × BitVec 6 → W64 × BitVec 6
  | 0, p => (p.1.headD 0, p.2)
  | n + 1, p =>
    if p.1.length ≤ 1 then (p.1.headD 0, p.2)
    else
      let q := treePairs f p.1
      sliceTree f n (q.1, p.2 ||| q.2)

/-- S. -/
def redSlices (r : RedMsg) : Nat := r.cnt + 1

/-- The bytes of the result, the conditions, and the indexes of uncorrectable elements. -/
def redResult (r : RedRec) : List (List Byte) × BitVec 6 × List Nat :=
  let m := r.first
  let part (i : Nat) : List W64 := ((r.parts.find? (fun p => p.slice == i)).map (fun p => p.data)).getD []
  let n := redSlices m
  let root (j : Nat) : W64 × BitVec 6 :=
    sliceTree (redCombine m.isMax m.stype) n ((List.range n).map (fun i => (part i).getD j 0), 0)
  let out (j : Nat) : List Byte × BitVec 6 :=
    let v := root j
    if m.dtype == 1 then
      let e := roundFp bf16 0 (dec32 (v.1.setWidth 32))
      (toBytes 2 e.1, v.2 ||| e.2)
    else (toBytes (redDstBytes m.stype 0) v.1.toNat, v.2)
  let outs := (List.range m.nel).map out
  (outs.map (fun o => o.1), outs.foldl (fun f o => f ||| o.2) 0, r.parts.flatMap (fun p => p.bad))

/-- The request of a memory agent for a transaction, at user level (assumption 25). -/
def agentReq (asid : Nat) (sub rd wr : Bool) (va : W64) : Req :=
  { va := va, asid := asid, sub := sub, rd := rd, wr := wr, fetch := false, user := true }

/-- Every contributor of a record is answered. -/
def answerAll (r : RedRec) (status : RedFrom → W64) (s : State) : State :=
  r.parts.foldl (fun s p => answerRed p.src (status p.src) p.va s) s

/-- The status of an unrecoverable fault for a contributor. -/
def lostFor (f : RedFrom) : W64 :=
  match f with
  | .here _ _ => csFault
  | .pod _ _ => csRemoteerr

/-- A miss of an agent of a unit: 4 for a memory agent, 5 for the network endpoint (05 R95). -/
def agentMiss (unit : Nat) (key : HoldKey) (r : Req) (s : State) : State :=
  agentWalk key { engineOf (dieCore (vaDie r.va)) unit with die := vaDie r.va } false r s

/-- The key of a record. -/
def recIs (t : RedMsg) (r : RedRec) : Bool := r.va == t.va && r.task == t.task

/-- A full record is written over the destination and closed; a serviceable fault leaves the last contribution waiting. -/
def closeRecord (t : RedMsg) (r : RedRec) (s : State) : State :=
  let key : HoldKey := .red t.va t.task
  let failed := (holdOf s key).any (fun h => h.ended == some true)
  let s0 := unhold key s
  let shut (s : State) : State :=
    { s with reds := s.reds.filter (fun x => !recIs t x), redq := s.redq.filter (fun x => x != t) }
  let (els, f, bad) := redResult r
  let n := redDstBytes r.first.stype r.first.dtype
  if failed then answerAll r lostFor (shut s0)
  else match rangeKeys s0 (agentReq r.first.asid r.first.sub false true) (pieces t.va (n * r.first.nel)) with
    | .ok ks =>
      let s1 := perform s0 (ks.zip els.flatten)
      let s2 := poisonCells s1 ((ks.zipIdx.filter (fun p => bad.contains (p.2 / n))).map (fun p => p.1))
      answerAll r (fun _ => csCond f ||| (if bad.isEmpty then 0 else csDataerr)) (shut s2)
    | .error (q, .miss) => agentMiss 4 key q s0
    | .error _ => answerAll r lostFor (shut s0)

/-- Whether a contribution has the shape of a record. -/
def redMatches (t : RedMsg) (r : RedRec) : Bool :=
  r.first.nel == t.nel && r.first.stype == t.stype && r.first.dtype == t.dtype && r.first.isMax == t.isMax && r.first.cnt == t.cnt

/-- A contribution that is turned away. -/
def refuseRed (t : RedMsg) (status : W64) (s : State) : State :=
  answerRed t.src status t.va { s with redq := s.redq.filter (fun x => x != t) }

/-- A contribution at its memory agent, with the tests in their order. A record that would stay open while the launch of its task
ends here is discarded at once. -/
def contribute (t : RedMsg) (s : State) : State :=
  match s.reds.find? (recIs t) with
  | some r =>
    if !redMatches t r then refuseRed t csMismatch s
    else if redSlices r.first ≤ t.slice then refuseRed t csBadslice s
    else if r.parts.any (fun p => p.slice == t.slice) then refuseRed t csDupslice s
    else if r.parts.length + 1 == redSlices r.first then closeRecord t { r with parts := r.parts ++ [t] } s
    else { s with reds := replaceFirst (recIs t) (fun r => { r with parts := r.parts ++ [t] }) s.reds, redq := s.redq.filter (fun x => x != t) }
  | none =>
    let r : RedRec := { va := t.va, task := t.task, first := t, parts := [t] }
    if redSlices t ≤ t.slice then refuseRed t csBadslice s
    else if (s.reds.countP (fun x => vaDie x.va == vaDie t.va)) ≥ 64 then refuseRed t csBusy s
    else if redSlices t == 1 then closeRecord t r s
    else if (launchOf s t.task).any (fun l => l.ending) then refuseRed t csAborted s
    else { s with reds := s.reds ++ [r], redq := s.redq.filter (fun x => x != t) }

/-- Whether two contributions are of one channel of this module. -/
def sameChannel (a b : RedFrom) : Bool :=
  match a, b with
  | .here j _, .here k _ => j == k
  | _, _ => false

/-- Whether the contribution of a module with a tag has been tested: it is held in a record, or answered. -/
def sliceTested (s : State) (accel tag : Nat) : Bool :=
  s.fab.seen.any (fun p => p.1 == accel && p.2.1 == tag) ||
    s.reds.any (fun r => r.parts.any (fun p => match p.src with
      | .pod a ts => a == accel && ts.contains tag
      | .here _ _ => false))

/-- Whether the earlier contributions of its channel to its record have been tested (12 R271). -/
def sliceDue (s : State) (t : RedMsg) : Bool :=
  match t.src with
  | .here _ _ => !(s.redq.takeWhile (fun x => x != t)).any (fun x => x.va == t.va && x.task == t.task && sameChannel x.src t.src)
  | .pod a _ => t.behind.all (sliceTested s a)

def reductionContributionOn (s : State) (t : RedMsg) : Bool := s.redq.contains t && !heldOn s (.red t.va t.task) && sliceDue s t

/-- REDUCTION_CONTRIBUTION. -/
def execReductionContribution (t : RedMsg) (s : State) : Out :=
  event (reductionContributionOn s t) "REDUCTION_CONTRIBUTION" (contribute t) s

/-! ## CATOM (12 R283) -/

/-- The value that an atomic stores, if any, and its conditions. -/
def atomStore (op n old : Nat) (v nv : W64) : Option Nat × BitVec 6 :=
  if op == 10 then (if old == bits v 0 (8 * n) then some (bits nv 0 (8 * n)) else none, 0)
  else (some (atomicNew (8 * n) op old (bits v 0 (8 * n))),
        if op == 9 then (add32 0 (w32 old) (w32 (bits v 0 32))).2 else 0)

/-- One atomic at its memory agent: the old value and the status. -/
def agentAtom (mk : W64 → Req) (op n : Nat) (va v nv : W64) (s : State) : Except (Req × XRes) (State × Nat × W64) :=
  match rangeKeys s mk [(va, n)] with
  | .error f => .error f
  | .ok ks =>
    if ks.any (fun k => s.poison.contains k) then .ok (s, 0, csDataerr)
    else
      let old := ofBytes (ks.map (memGet s.mem))
      let r := atomStore op n old v nv
      .ok ((match r.1 with
        | some x => performAtomic (ks.zip (toBytes n x)) s
        | none => s), old, csCond r.2)

/-- The old value lands in scratchpad and in w2, and the command ends. -/
def atomDone (k : Nat) (q : Cmd) (off : W64) (wide : Bool) (old : Nat) (status : W64) (s : State) : State :=
  let v := if wide then w64 old else sext old 32
  endCmd k 1 q.num status (updCmd k 1 q.num (fun q => { q with w2 := v }) (cmdSpadWrite k q off.toNat (toBytes 8 v.toNat) s))

def isCatom (op : CmdOp) : Bool :=
  match op with
  | .catom _ _ _ _ _ _ => true
  | _ => false

def catomExecuteOn (s : State) (k : Nat) : Bool := (copyTurn s k isCatom).isSome && txRoom s

/-- CATOM_EXECUTE. -/
def execCatomExecute (k : Nat) (s : State) : Out :=
  event (catomExecuteOn s k) "CATOM_EXECUTE" (fun s =>
    match copyTurn s k isCatom with
    | some q => runCmd k 1 q csFault (fun s => match q.op with
      | .catom op wide off va v nv =>
        let n := if wide then 8 else 4
        if vaAccel va == s.accel.toNat then
          (match agentAtom (cmdReq q true true) op n va v nv s with
           | .error f => cmdFault k 1 2 q csFault f s
           | .ok (s1, old, st) => atomDone k q off wide old st s1)
        else updCmd k 1 q.num (fun q => { q with st := .away 0 })
          (sendTx (vaAccel va) va (.atom va q.asid (inSub q.spa va) op wide v nv) k 1 q.num 0 s)
      | _ => s) s
    | none => s) s

/-! ## Multicast (12 R284, 13 R300, R301) -/

/-- The members of an entry, in ascending order. -/
def grpMembers (e : GroupEnt) : List Nat := (List.range 1024).filter (grpMember e)

/-- The aggregated acknowledgement and the end of the command: EXPECTED, the positives, and the negatives with their
reasons. -/
def ackCast (k num group expected pos neg first reason : Nat) (s : State) : State :=
  match (coreOf s k).copyq.find? (fun q => q.num == num) with
  | none => s
  | some q => match q.op with
    | .cmc _ _ ctl =>
      let w0 := w64 (group + expected * 2 ^ 16 + pos * 2 ^ 32 + neg * 2 ^ 48)
      let w1 := w64 (first + reason * 2 ^ 16)
      let s1 := cmdSpadWrite k q (cmcAck ctl) (bytesOf [w0, w1, w64 num, 0]) s
      endCmd k 1 num (if neg == 0 then 0 else csNeg)
        (updCmd k 1 num (fun q => { q with w2 := w64 (pos + neg * 2 ^ 32), w3 := w1 }) s1)
    | _ => s

/-- The lowest negative member. -/
def firstNeg (neg : List (Nat × Nat)) : Nat × Nat :=
  match neg with
  | [] => (0, 0)
  | p :: r => r.foldl (fun a b => if b.1 < a.1 then b else a) p

/-- Whether a transaction carries a multicast line. -/
def isLine (op : FabOp) : Bool :=
  match op with
  | .line _ => true
  | _ => false

/-- Whether it carries that of multicast `x`. -/
def lineOf (x : Nat) (t : Tx) : Bool := t.off == x && isLine t.op

/-- A multicast whose responses are all in is acknowledged. -/
def settleCast (x : Nat) (s : State) : State :=
  match s.fab.casts.find? (fun c => c.num == x) with
  | none => s
  | some c =>
    if !c.noAck && c.pos.length + c.neg.length == c.members.length then
      let f := firstNeg c.neg
      ackCast c.core c.cmd c.group c.members.length c.pos.length c.neg.length f.1 f.2
        { s with fab := { s.fab with casts := s.fab.casts.filter (fun c => c.num != x), txs := s.fab.txs.filter (fun t => !lineOf x t) } }
    else s

/-- A line leaves for the members of its entry: once through the switches, which replicate it by its SWID, with one tag for every
member (13 R297, R298); to this module when it is a member (13 R300; assumption 139). Without a live port no other member is
reached. -/
def sendLine (k : Nat) (q : Cmd) (x : Nat) (e : GroupEnt) (dst : W64) (data : List Byte) (bad : Bool) (s : State) : State :=
  let line (tag : Nat) (va : W64) : CmcLine :=
    { src := s.accel.toNat, tag := tag, swid := grpSwid e, va := va, asid := q.asid, sub := inSub q.spa dst, poison := bad,
      ack := !grpNoAck e, data := data, begun := false }
  let mine (m : Nat) : Bool := m == s.accel.toNat
  let others := (grpMembers e).filter (fun m => !mine m)
  let s1 := if (grpMembers e).any mine then
      { s with fab := { s.fab with lines := s.fab.lines ++ [line x (setBits dst 54 10 s.accel.toNat)] } } else s
  if others.isEmpty then s1
  else if (upPorts s).isEmpty then
    { s1 with fab := { s1.fab with casts := s1.fab.casts.map (fun c =>
        if c.num == x then { c with neg := c.neg ++ others.map (fun m => (m, 3)) } else c) } }
  else sendTx (grpSwid e) dst (.line (line (freeTag s1) dst)) k 1 q.num x s1

def isCmc (op : CmdOp) : Bool :=
  match op with
  | .cmc _ _ _ => true
  | _ => false

def cmcExecuteOn (s : State) (k : Nat) : Bool := (copyTurn s k isCmc).isSome && txRoom s

/-- CMC_EXECUTE: the line is read, the group is looked up once, and the line leaves. -/
def execCmcExecute (k : Nat) (s : State) : Out :=
  event (cmcExecuteOn s k) "CMC_EXECUTE" (fun s =>
    match copyTurn s k isCmc with
    | some q => runCmd k 1 q csFault (fun s => match q.op with
      | .cmc dst src ctl =>
        let bs := spadSector (coreOf s k) q src.toNat (cmcLen ctl)
        let bad := bs.any (fun b => b.2)
        let s1 := if bad then orStatus k 1 q.num csDataerr s else s
        let e := groupOf s (cmcGroup ctl)
        if !grpValid e then ackCast k q.num (cmcGroup ctl) (grpCount e) 0 (grpCount e) 0 5 s1
        else
          let x := s1.fab.castNum
          let c : Multicast := { num := x, core := k, cmd := q.num, group := cmcGroup ctl, members := grpMembers e, noAck := grpNoAck e,
                                 pos := [], neg := [], since := s1.clk }
          let s2 := updCmd k 1 q.num (fun q => { q with st := .away x })
            { s1 with fab := { s1.fab with casts := s1.fab.casts ++ [c], castNum := x + 1 } }
          settleCast x (sendLine k q x e dst (plain bs) bad s2)
      | _ => s) s
    | none => s) s

/-- Whether a sector that the line covers only in part holds uncorrectable data (assumption 26). -/
def mergeBad (s : State) (ks : List Nat) : Bool :=
  ks.any (fun k => (List.range 32).any (fun j => let b := k / 32 * 32 + j
    s.poison.contains b && !ks.contains b))

/-- The line of a member is over: its answer goes to the source where one is wanted, and its tag is remembered (13 R297). -/
def answerLine (t : CmcLine) (reason : Nat) (s : State) : State :=
  if t.src == s.accel.toNat then
    (if t.ack then { s with fab := { s.fab with resps := s.fab.resps ++ [{ x := t.tag, member := s.accel.toNat, reason := reason }] } }
     else s)
  else if t.ack then answerOnce t.src t.tag t.va (.answer [] 0 reason) s
  else remember t.src t.tag (.answer [] 0 reason) s

/-- The bytes of a line that its next sector takes. -/
def lineCut (t : CmcLine) : Nat := min t.data.length (32 - t.va.toNat % 32)

/-- What is left of a line behind its next sector. -/
def lineRest (t : CmcLine) : CmcLine :=
  { t with va := t.va + w64 (lineCut t), data := t.data.drop (lineCut t), begun := true }

/-- A line at a member whose walk has ended: it is refused, or its next sector is written. -/
def lineStep (t : CmcLine) (s : State) : State :=
  let s0 := { s with fab := { s.fab with lines := s.fab.lines.erase t } }
  match rangeKeys s0 (agentReq t.asid t.sub false true) (pieces t.va t.data.length) with
  | .error (q, .miss) =>
    if holdFailed s (.line t.src t.tag) then answerLine t 1 s0 else agentWalk (.line t.src t.tag) (engineOf (dieCore (vaDie t.va)) 4) true q s
  | .error _ => answerLine t 1 s0
  | .ok ks =>
    if !t.begun && mergeBad s0 ks then answerLine t 2 s0
    else
      let part := ks.take (lineCut t)
      let line := part.zip (t.data.take (lineCut t))
      let s1 := if t.src == s0.accel.toNat then perform s0 line else performOutside line s0
      let s2 := if t.poison then poisonCells s1 part else s1
      if (lineRest t).data.isEmpty then answerLine t 0 s2 else { s2 with fab := { s2.fab with lines := lineRest t :: s2.fab.lines } }

def multicastMemberWriteOn (s : State) (t : CmcLine) : Bool := s.fab.lines.contains t && !heldOn s (.line t.src t.tag)

/-- MULTICAST_MEMBER_WRITE: the member writes the next sector of the line, or answers negatively; it opens no fault. -/
def execMulticastMemberWrite (t : CmcLine) (s : State) : Out :=
  event (multicastMemberWriteOn s t) "MULTICAST_MEMBER_WRITE" (fun s =>
    match lineStep t s with
    | s1 => if heldOn s1 (.line t.src t.tag) then s1 else unhold (.line t.src t.tag) s1) s

/-- A response is counted once, and only from a member. -/
def countResp (t : CmcResp) (c : Multicast) : Multicast :=
  if c.num == t.x && !c.noAck && c.members.contains t.member && !c.pos.contains t.member && !c.neg.any (fun p => p.1 == t.member) then
    (if t.reason == 0 then { c with pos := c.pos ++ [t.member] } else { c with neg := c.neg ++ [(t.member, t.reason)] })
  else c

/-- MULTICAST_RESPONSE. -/
def execMulticastResponse (t : CmcResp) (s : State) : Out :=
  event (s.fab.resps.contains t) "MULTICAST_RESPONSE" (fun s =>
    settleCast t.x { s with fab := { s.fab with resps := s.fab.resps.erase t, casts := s.fab.casts.map (countResp t) } }) s

def multicastResponseTimeoutOn (s : State) (x : Nat) : Bool :=
  s.fab.casts.any (fun c => c.num == x && !c.noAck && c.since + 2 ^ 22 ≤ s.clk)

/-- MULTICAST_RESPONSE_TIMEOUT: the silent members count negative with reason TIMEOUT. -/
def execMulticastResponseTimeout (x : Nat) (s : State) : Out :=
  event (multicastResponseTimeoutOn s x) "MULTICAST_RESPONSE_TIMEOUT" (fun s =>
    let silence (c : Multicast) : Multicast :=
      if c.num == x then
        { c with neg := c.neg ++ (c.members.filter (fun m => !c.pos.contains m && !c.neg.any (fun p => p.1 == m))).map (fun m => (m, 4)) }
      else c
    settleCast x { s with fab := { s.fab with casts := s.fab.casts.map silence } }) s

def switchTierDepartureOn (s : State) (x : Nat) : Bool := s.fab.casts.any (fun c => c.num == x && c.noAck)

/-- SWITCH_TIER_DEPARTURE: a multicast without responses is acknowledged. -/
def execSwitchTierDeparture (x : Nat) (s : State) : Out :=
  event (switchTierDepartureOn s x) "SWITCH_TIER_DEPARTURE" (fun s =>
    match s.fab.casts.find? (fun c => c.num == x) with
    | some c => ackCast c.core c.cmd c.group 0 0 0 0 0
        { s with fab := { s.fab with casts := s.fab.casts.filter (fun c => c.num != x), txs := s.fab.txs.filter (fun t => !lineOf x t) } }
    | none => s) s

/-! ## CSTOR (12 R285) -/

def cstorDrive (ctl : W64) : Nat := bits ctl 0 6
def cstorBlocks (ctl : W64) : Nat := bits ctl 8 16 + 1

def isCstor (op : CmdOp) : Bool :=
  match op with
  | .cstor _ _ _ _ => true
  | _ => false

def cstorExecuteOn (s : State) (k : Nat) : Bool := (copyTurn s k isCstor).isSome

/-- CSTOR_EXECUTE: the reads are submitted to the drive. -/
def execCstorExecute (k : Nat) (s : State) : Out :=
  event (cstorExecuteOn s k) "CSTOR_EXECUTE" (fun s =>
    match copyTurn s k isCstor with
    | some q => runCmd k 1 q csFault (fun s => match q.op with
      | .cstor glob _ lba ctl =>
        (match driveOf s (cstorDrive ctl) with
         | none => endCmd k 1 q.num csNodrive s
         | some d =>
           let n := cstorBlocks ctl * d.block
           let s1 := if glob then s else updCmd k 1 q.num (fun q => { q with credit := n }) s
           if !glob && 2 ^ q.logspad < n then endCmd k 1 q.num csToobig s1
           else
             let r : DriveRead := { num := 0, handle := d.handle, lba := lba.toNat, bytes := 0, off := 0, sent := false, core := k, cmd := q.num,
                                    die := 0, expert := none, pre := [] }
             queueReads d r 0 n (updCmd k 1 q.num (fun q => { q with st := .away s1.host.readNum }) s1))
      | _ => s) s
    | none => s) s

/-! ## Decompression (12 R286, R287) -/

/-- Set a table slot of a channel. -/
def setTable (k n : Nat) (t : Option Table) (s : State) : State :=
  updCore k (fun c => { c with tabs := c.tabs.set (n % 4) t (Nat.mod_lt _ (by decide)) }) s

def isCdtab (op : CmdOp) : Bool :=
  match op with
  | .cdtab _ _ => true
  | _ => false

def cdtabExecuteOn (s : State) (k : Nat) : Bool := (copyTurn s k isCdtab).isSome

/-- CDTAB_EXECUTE. -/
def execCdtabExecute (k : Nat) (s : State) : Out :=
  event (cdtabExecuteOn s k) "CDTAB_EXECUTE" (fun s =>
    match copyTurn s k isCdtab with
    | some q => runCmd k 1 q csFault (fun s => match q.op with
      | .cdtab slot off =>
        let bs := spadSector (coreOf s k) q off.toNat 288
        let t := tableOf (bs.map (fun b => if b.2 then 0 else b.1))
        endCmd k 1 q.num ((if t.isNone then csBadtab else 0) ||| (if bs.any (fun b => b.2) then csDataerr else 0)) (setTable k slot t s)
      | _ => s) s
    | none => s) s

def isCdec (op : CmdOp) : Bool :=
  match op with
  | .cdec _ _ _ => true
  | _ => false

/-- CDEC writes up to `fuel` sectors of its output from sector `i` on; each is decoded as far as it reaches. -/
def cdecGo (k : Nat) (q : Cmd) (t : Table) (dst : Nat) (src : W64) (len : Nat) : Nat → Nat → State → State
  | 0, i, s => setDone k 1 q.num i s
  | n + 1, i, s =>
    let lo := cutAt 32 dst len i
    let hi := cutAt 32 dst len (i + 1)
    let r := decodeAll t (fun o n => readSpot s k q (.glob src) o n) hi
    let s1 := updCmd k 1 q.num (fun q => { q with w2 := w64 r.out.length, w3 := w64 r.chunks })
      (cmdSpadWrite k q (dst + lo) (r.out.drop lo) (setDone k 1 q.num i s))
    match r.fault with
    | some f => cmdFault k 1 2 q csFault f (orStatus k 1 q.num r.status s1)
    | none => if r.out.length < hi || cuts 32 dst len ≤ i + 1 then endCmd k 1 q.num r.status s1 else cdecGo k q t dst src len n (i + 1) s1

def cdecExecuteOn (s : State) (k : Nat) : Bool := (copyTurn s k isCdec).isSome

/-- CDEC_EXECUTE. -/
def execCdecExecute (k : Nat) (s : State) : Out :=
  event (cdecExecuteOn s k) "CDEC_EXECUTE" (fun s =>
    match copyTurn s k isCdec with
    | some q => runCmd k 1 q csFault (fun s => match q.op with
      | .cdec dst src ctl =>
        (match (coreOf s k).tabs.get ⟨bits ctl 20 2 % 4, Nat.mod_lt _ (by decide)⟩ with
         | none => endCmd k 1 q.num csBadtab s
         | some t =>
           let (n, s1) := drawBurst s
           cdecGo k q t dst.toNat src (bits ctl 0 20) n q.done s1)
      | _ => s) s
    | none => s) s

end Sys2Proof.Machine
end

