-- ==== Sys2Proof/Machine/Launch.lean ====
section
/-! DEFINITION. Launches: the record and its checks (03 R70, 06 R126, 12 R289), the allocation of scratchpad (06 R128,
R131), the start of an accepted launch (06 R128) and its subgroups (06 R129, R145). -/
namespace Sys2Proof.Machine

/-! ## The record (03 R70) -/

/-- Whether an address is nonzero and a multiple of `n`. -/
def nzAligned (v : W64) (n : Nat) : Bool := v != 0 && v.toNat % n == 0

/-- The launch that a record of sixteen words describes. -/
def launchOfRecord (ws : List W64) : Launch :=
  let w (i : Nat) : W64 := wordAt ws i
  { task := BitVec.ofNat 12 (bits (w 0) 0 12), cls := BitVec.ofNat 2 (bits (w 0) 12 2), ox := bits (w 0) 16 6,
    oy := bits (w 0) 24 5, logw := bits (w 0) 32 3, logh := bits (w 0) 40 3, limit := bits (w 0) 48 5, image := w 1,
    logspad := bits (w 2) 0 5, lowq := bits (w 2) 8 16, window := bits (w 2) 32 8, inbase := w 3, inlog := bits (w 4) 0 5,
    outlog := bits (w 4) 8 5, stack := w 5, events := w 6, eventlog := bits (w 7) 0 5, seeds := w 12, seedn := (w 13).toNat,
    errq := w 14, asid := bits (w 15) 0 16, autoend := bit (w 15) 16, firmware := false, order := 0, seedNext := 0,
    seedWait := false, errSeq := 0, errPend := [], sched := [], doomed := none, ending := false, setup := false,
    hinting := true }

/-- The entries of a schedule, from its bytes. -/
def schedOfBytes (n : Nat) (bs : List Byte) : List (List W64) :=
  (List.range n).map (fun i => wordsOf 8 ((bs.drop (64 * i)).take 64))

/-- Who submits a record: at system level, or with an ASID and a class (06 R126). -/
structure Submitter where
  sys : Bool
  asid : Nat
  cls : Nat
  deriving DecidableEq, Repr

/-- The rectangle lies on the part. -/
def rectOk (s : State) (l : Launch) : Bool :=
  l.logw ≤ 6 && l.logh ≤ 5 && l.ox % 2 ^ l.logw == 0 && l.oy % 2 ^ l.logh == 0 && l.ox + 2 ^ l.logw ≤ 64 &&
  l.oy + 2 ^ l.logh ≤ meshRows s

/-- The checks with status BADREC that need no memory, in the order of 06 R126. -/
def recordOk (s : State) (ws : List W64) (l : Launch) : Bool :=
  let w (i : Nat) : W64 := wordAt ws i
  rectOk s l &&
  (10 ≤ l.limit && l.limit ≤ 30 && 10 ≤ l.logspad && l.logspad ≤ 19 && 1 ≤ l.lowq && l.lowq ≤ 1024 && l.eventlog ≤ 14 &&
    zeroIn (w 15) [(24, 40), (17, 7)]) &&
  (nzAligned l.inbase 64 && nzAligned l.errq 64 && nzAligned l.stack 1024 && l.events.toNat % 512 == 0 &&
    (l.events != 0 || l.eventlog == 0)) &&
  (2 ^ l.inlog ≥ 160 * l.window && 2 ^ l.outlog ≥ 160) &&
  (l.seedn ≤ 65536 && (l.seedn == 0 || l.seeds.toNat % 32 == 0)) &&
  nzAligned l.image 8 &&
  zeroIn (w 0) [(14, 2), (22, 2), (29, 3), (35, 5), (43, 5), (53, 11)] && zeroIn (w 2) [(5, 3), (24, 8), (40, 24)] &&
  zeroIn (w 4) [(5, 3), (13, 51)] && zeroIn (w 7) [(5, 59)] && zeroIn (w 9) [(32, 32)] &&
  ((w 11).toNat == 0 || (w 10).toNat % 64 == 0) && (w 11).toNat ≤ 65536

/-! ## Scratchpad regions (06 R128, R131) -/

/-- The regions in use on a core: each with its class; one that a drain has freed is not in use (15 R366), and an ended
launch keeps its region until its commands have landed, as if it were of the highest class (06 R147). -/
def regionsOn (s : State) (k : Nat) : List (Nat × Nat × Nat) :=
  let c := coreOf s k
  let res := (c.res.filter (fun r => !(r.saved && r.drained))).map (fun r => (r.base, r.logspad, ((launchOf s r.task).map (fun l => l.cls.toNat)).getD 4))
  let left := ((coreCmds c).filter (fun q => (resOf c q.task).isNone)).map (fun q => (q.spbase, q.logspad, 4))
  res ++ left

/-- The lowest base whose region meets no region of class `below` or higher. -/
def baseBelow (rs : List (Nat × Nat × Nat)) (logspad below : Nat) : Option Nat :=
  ((List.range (2 ^ (19 - logspad))).map (fun i => i * 2 ^ logspad)).find? (fun b =>
    rs.all (fun r => r.2.2 < below || !overlaps b logspad r.1 r.2.1))

/-- The base of a new region on a core: a free one, or one held by launches of lower class. -/
def allocBase (s : State) (k : Nat) (l : Launch) : Option Nat :=
  let rs := regionsOn s k
  match baseBelow rs l.logspad 0 with
  | some b => some b
  | none => baseBelow rs l.logspad l.cls.toNat

/-- Zero a range of scratchpad of a core. -/
def zeroSpad (base n : Nat) (c : Core) : Core :=
  { c with spad := c.spad.filter (fun p => p.1 < base || base + n ≤ p.1),
           spoison := c.spoison.filter (fun a => a < base || base + n ≤ a),
           signals := c.signals.filter (fun g => 8 * g < base || base + n ≤ 8 * g) }

/-- The share of a launch on a core as its start leaves it (06 R128). -/
def Resident.fresh (l : Launch) (base : Nat) (gA gB : W64) : Resident :=
  { task := l.task, base := base, logspad := l.logspad, saved := false, blank := false, drained := false, signals := [], owe := 0, low := [], high := [],
    cur := 0, turns := 0, hcount := 0, force := false, reserved := none, stage := 0, posted := 0,
    postedIdx := 0, mwt := 1, skips := 0, geomA := gA, geomB := gB }

/-- Steps 1 and 2 of 06 R128 on one core. A region that holds nothing of a launch of lower class is zeroed at once; one
that does comes into place, all zero, when that launch's region has been saved (06 R131). The caches of instructions and
entry words are emptied, and the decompression tables become invalid (12 R286). -/
def startCore (l : Launch) (gA gB : W64) (s : State) (k : Nat) : State :=
  match allocBase s k l with
  | none => s
  | some b =>
    let busy := (coreOf s k).res.any (fun r => !r.saved && overlaps b l.logspad r.base r.logspad)
    updCore k (fun c =>
      let c1 := if busy then c else zeroSpad b (2 ^ l.logspad) c
      { c1 with res := c1.res ++ [{ Resident.fresh l b gA gB with saved := busy, blank := busy }], icache := [],
                ecache := [], tabs := Vector.replicate 4 none }) s

/-! ## Submission -/

/-- Zero the event tables of a launch (06 R128 step 2). -/
def zeroEvents (l : Launch) : RegM Unit :=
  if l.events == 0 then pure ()
  else do
    let ks ← rKeys l none l.events (4 * 512 * 2 ^ l.eventlog) false true
    modify (fun s => perform s (ks.map (fun k => (k, 0))))

/-- Carry out the part of step 2 that a fault can hold up. -/
def setupLaunch (task : BitVec 12) (s : State) : State :=
  match launchOf s task with
  | none => s
  | some l =>
    if l.setup then s
    else match runRegion (.seed task) l none 0 (zeroEvents l) s with
      | (s1, some ()) => { s1 with launches := s1.launches.map (fun x => if x.task == task then { x with setup := true } else x) }
      | (s1, none) => s1

/-- Start an accepted launch (06 R128 steps 1 and 2, 12 R289). -/
def startLaunch (l : Launch) (gA gB : W64) (s : State) : State :=
  let l1 := { l with order := s.orderNum }
  let s1 := (launchCores l1).foldl (startCore l1 gA gB) { s with launches := s.launches ++ [l1], orderNum := s.orderNum + 1 }
  fillHint l1.task (setupLaunch l1.task ((launchCores l1).foldl (fun s k => postDue k l1.task s) s1))

/-- A submission is decided with a status, or waits for a fault on its schedule (15 R425). -/
inductive Submitted where
  | status (n : Nat) (s : State)
  | waits (s : State)

/-- Submit a record of sixteen words (06 R126): the checks in their order, then the start. -/
def submit (key : HoldKey) (who : Submitter) (ws : List W64) (s : State) : Submitted :=
  let l := launchOfRecord ws
  let n := 2 ^ (l.logw + l.logh)
  let schedn := (wordAt ws 11).toNat
  if !(who.sys || (who.asid == l.asid && l.cls.toNat ≤ who.cls)) then .status 5 s
  else if s.launches.any (fun x => x.task == l.task) then .status 1 s
  else if !recordOk s ws l then .status 2 s
  else match runRegion key l none 0 (rRead l none (wordAt ws 10) (64 * schedn)) s with
    | (s1, none) => if heldOn s1 key then .waits s1 else .status 2 s1
    | (s1, some bs) =>
      let sched := schedOfBytes schedn bs
      if !schOk s1 n sched then .status 2 s1
      else if (launchCores l).any (coreFenced s1) then .status 3 s1
      else if (launchCores l).any (fun k => (allocBase s1 k l).isNone) then .status 4 s1
      else .status 0 (startLaunch { l with sched := sched } (wordAt ws 8) (wordAt ws 9) s1)

/-! ## Subgroups (06 R129, R145) -/

/-- One level down the split tree towards a core at a relative position: the code and the rectangle. -/
def splitTo (px py : Nat) : Nat → (Nat × Nat × Nat × Nat × Nat) → Option (Nat × Nat × Nat × Nat × Nat)
  | 0, r => some r
  | n + 1, (code, x, y, a, b) =>
    if a == 0 && b == 0 then none
    else if a ≥ b then
      (if px < x + 2 ^ (a - 1) then splitTo px py n (2 * code, x, y, a - 1, b)
       else splitTo px py n (2 * code + 1, x + 2 ^ (a - 1), y, a - 1, b))
    else
      (if py < y + 2 ^ (b - 1) then splitTo px py n (2 * code, x, y, a, b - 1)
       else splitTo px py n (2 * code + 1, x, y + 2 ^ (b - 1), a, b - 1))

/-- SGRP: the subgroup at a level that contains core `k`: its code, the core's rank, log2 of its members. -/
def subAt (l : Launch) (k lvl : Nat) : Option W64 :=
  if lvl ≥ 11 then none
  else (splitTo (coreX k - l.ox) (coreY k - l.oy) lvl (1, 0, 0, l.logw, l.logh)).map (fun (code, x, y, a, b) =>
    w64 (code + ((coreX k - l.ox - x) + 2 ^ a * (coreY k - l.oy - y)) * 2 ^ 16 + (a + b) * 2 ^ 28))

end Sys2Proof.Machine
end

