-- ==== Sys2Proof/Machine/Event.lean ====
section
/-! DEFINITION. Event, deque, group-barrier and launch instructions (06 R138 to R147). -/
namespace Sys2Proof.Machine

/-! ## Events (06 R140, R141) -/

/-- An operation on its way to an event unit, with the store that it releases (06 R134). -/
def postEvent (id : W64) (op : EvOp) (s : State) : State :=
  { s with evq := s.evq ++ [{ num := s.evNum, task := s.ctx.task, id := bits id 0 16, core := s.core.id, ctx := s.ctx.num,
                              inc := s.ctx.inc, after := ctxOut s s.core s.ctx, op := op }],
           evNum := s.evNum + 1 }

/-- EVARM we, wc (06 R140). -/
def execEvarm (sw : Bool) (a b : BitVec 4) (s : State) : Out :=
  .next (finish sw (postEvent (readW s a) (.arm (bits (readW s b) 0 31)) s))

/-- EVSIG we, imm (06 R140). -/
def execEvsig (sw : Bool) (a : BitVec 4) (imm : BitVec 13) (s : State) : Out :=
  .next (finish sw (postEvent (readW s a) (.sig (bits (immS s 13 imm.toNat) 0 32)) s))

/-- EVREAD wd, we: posts a read, waits for the reply and writes word 0 of the entry (06 R140). -/
def execEvread (sw : Bool) (d a : BitVec 4) (s : State) : Out :=
  .next (match s.ctx.got with
    | some v => finish sw (writeW d v s)
    | none => wait (.eventRead d sw) (postEvent (readW s a) .read s))

/-- reserve_outbound_slot() of 06 R141: a slot of the outbound region. -/
def reserveSlot (s : State) : Option Nat :=
  (freeSlots (outSlotsUsed s.core s.ctx.task) (2 ^ (myLaunch s).outlog / 160) 1).bind (fun x => x.head?)

/-- EVSEND we, wd, wa, wb (06 R141). -/
def execEvsend (sw : Bool) (d a b e : BitVec 4) (s : State) : Out :=
  let w := withPri s (readW s d)
  let w := if mMode w == 2 then setBits w 60 1 1 else w
  let l := myLaunch s
  .next (
    if mMode w == 4 && noSubgroup l (mCode w) then raise 0x0C (w64 (mCode w)) s
    else if !destOk s l w (readW s a) 8 false false (readW s b) then status sw stBaddest s
    else if mPri w && myOwe s + 1 > l.window then status sw stWindow s
    else match reserveSlot s with
      | none => status sw stFull s
      | some slot =>
        let w0 := if mMode w == 3 then fillHome s (destClean w) (readW s b) else destClean w
        let m := myMsg s w0 (readW s a) (payload s b 8) none (mMode w == 2) 0
        let s1 := { s with core := { s.core with reserve := s.core.reserve ++ [(slot, s.ctx.task)] } }
        let s2 := if mPri w then takeCredit 1 s1 else s1
        let s3 := { s2 with ctx := { s2.ctx with m2wait := s2.ctx.m2wait + toBit (mMode w == 2) } }
        status sw stOk (postEvent (readW s e) (.send m (some slot)) s3))

/-! ## Work deques (06 R135, R142, R143) -/

/-- PUSHW wb (06 R142). -/
def execPushw (sw : Bool) (b : BitVec 4) (s : State) : Out :=
  let q := s.core.deque
  .next (
    if (q.task != s.ctx.task && !q.recs.isEmpty) || q.recs.length + q.room ≥ 64 then status sw stFull s
    else status sw stOk { s with core := { s.core with deque := { q with task := s.ctx.task, recs := payload s b 4 :: q.recs } } })

/-- POPW wd (06 R142). -/
def execPopw (sw : Bool) (d : BitVec 4) (s : State) : Out :=
  let q := s.core.deque
  let wr (ws : List W64) (s : State) : State :=
    (List.range 4).foldl (fun s j => writeW (BitVec.ofNat 4 (d.toNat + j)) (wordAt ws j) s) s
  .next (finish sw (match q.recs with
    | r :: rest => if q.task == s.ctx.task then wr r { s with core := { s.core with deque := { q with recs := rest } } } else wr [] s
    | [] => wr [] s))

/-- DQLEN wd (06 R142). -/
def execDqlen (sw : Bool) (d : BitVec 4) (s : State) : Out :=
  let q := s.core.deque
  .next (finish sw (writeW d (w64 (q.recs.length + toBit q.pend * 2 ^ 8 + q.last * 2 ^ 16 + q.room * 2 ^ 24)) s))

/-- The neighbour of core `k` in a direction: north, east, south, west (06 R143). -/
def neighbour (k dir : Nat) : Option Nat :=
  let x := coreX k
  let y := coreY k
  match dir % 4 with
  | 0 => if y == 0 then none else some (coreAt x (y - 1))
  | 1 => if x ≥ 63 then none else some (coreAt (x + 1) y)
  | 2 => some (coreAt x (y + 1))
  | _ => if x == 0 then none else some (coreAt (x - 1) y)

/-- The first eligible neighbour from the rotation pointer onwards, with its direction. -/
def victimFrom (s : State) (l : Launch) (dir : Nat) : Option (Nat × Nat) :=
  ((List.range 4).filterMap (fun i => (neighbour s.core.id (dir + i)).bind (fun k =>
    if inRect l k && !coreFenced s k then some ((dir + i) % 4, k) else none))).head?

/-- STEAL (06 R143). A deque that holds records of another launch leaves no room (assumption 13). -/
def execSteal (sw : Bool) (s : State) : Out :=
  let q := s.core.deque
  let room := if q.task != s.ctx.task && !q.recs.isEmpty then 0 else 64 - q.recs.length
  let setQ (x : Deque) : State := { s with core := { s.core with deque := x } }
  .next (
    if q.pend then status sw stOk s
    else match victimFrom s (myLaunch s) q.dir, room with
      | none, _ => status sw stOk (setQ { q with last := 0 })
      | some _, 0 => status sw stOk (setQ { q with last := 0 })
      | some (dir, k), _ =>
        if myOwe s + 1 > (myLaunch s).window then status sw stWindow s
        else
          let s1 := takeCredit 1 (setQ { q with task := s.ctx.task, pend := true, thief := s.ctx.task, room := room, dir := (dir + 1) % 4 })
          status sw stOk { s1 with steals := s1.steals ++
            [{ thief := s.core.id, victim := k, task := s.ctx.task, room := room, recs := [] }] })

/-! ## Group barriers (06 R144, R145) -/

/-- Whether the core in focus belongs to the subgroup of a code. -/
def inGroup (s : State) (code : Nat) : Bool := (subCores (myLaunch s) code).contains s.core.id

/-- An arrival at a group unit: its rank is that of the core in the subgroup. -/
def arrive (op code : Nat) (value pc : W64) (waits : Bool) (s : State) : State :=
  { s with arrivals := s.arrivals ++
      [{ task := s.ctx.task, code := code, op := op, rank := (subCores (myLaunch s) code).idxOf s.core.id, value := value,
         pc := pc, wait := waits, core := s.core.id, ctx := s.ctx.num, inc := s.ctx.inc }] }

/-- GARR.op wa, wb, code (06 R144): the value is wd's, the release PC wa's. -/
def garr (op : Nat) (sw : Bool) (d a : BitVec 4) (code : Nat) (s : State) : State :=
  if !inGroup s code then raise 0x0C (w64 code) s
  else if myOwe s + 1 > (myLaunch s).window then status sw stWindow s
  else status sw stOk (takeCredit 1 (arrive op code (readW s d) (readW s a) false s))

/-- GARRW.op wd, wa, code (06 R144): the arrival, the wait, and the release's w0 into wd. -/
def garrw (op : Nat) (sw : Bool) (d a : BitVec 4) (code : Nat) (s : State) : State :=
  match s.ctx.got, heldFor s.core s.ctx true with
  | some _, h :: _ =>
    let s1 := { s with core := { s.core with held := s.core.held.filter (fun x => x != h) } }
    status sw stOk (writeW d (wordAt h.q.msg.words 0) (returnOwed s1.core.id h.q s1))
  | some _, [] => wait (.round d sw) s
  | none, _ =>
    if !inGroup s code then raise 0x0C (w64 code) s
    else if myOwe s + 1 > (myLaunch s).window then status sw stWindow s
    else
      let s1 := takeCredit 1 (arrive op code (readW s a) 0 true s)
      wait (.round d sw) { s1 with ctx := { s1.ctx with got := some 0 } }

/-- GARR.AND (06 R136, R144). -/
def execGarrAnd (sw : Bool) (d a : BitVec 4) (k : BitVec 11) (s : State) : Out := .next (garr 0 sw d a k.toNat s)
/-- GARRW.AND (06 R136, R144). -/
def execGarrwAnd (sw : Bool) (d a : BitVec 4) (k : BitVec 11) (s : State) : Out := .next (garrw 0 sw d a k.toNat s)
/-- GARR.OR (06 R136, R144). -/
def execGarrOr (sw : Bool) (d a : BitVec 4) (k : BitVec 11) (s : State) : Out := .next (garr 1 sw d a k.toNat s)
/-- GARRW.OR (06 R136, R144). -/
def execGarrwOr (sw : Bool) (d a : BitVec 4) (k : BitVec 11) (s : State) : Out := .next (garrw 1 sw d a k.toNat s)
/-- GARR.ADD (06 R136, R144). -/
def execGarrAdd (sw : Bool) (d a : BitVec 4) (k : BitVec 11) (s : State) : Out := .next (garr 2 sw d a k.toNat s)
/-- GARRW.ADD (06 R136, R144). -/
def execGarrwAdd (sw : Bool) (d a : BitVec 4) (k : BitVec 11) (s : State) : Out := .next (garrw 2 sw d a k.toNat s)
/-- GARR.MAXU (06 R136, R144). -/
def execGarrMaxu (sw : Bool) (d a : BitVec 4) (k : BitVec 11) (s : State) : Out := .next (garr 3 sw d a k.toNat s)
/-- GARRW.MAXU (06 R136, R144). -/
def execGarrwMaxu (sw : Bool) (d a : BitVec 4) (k : BitVec 11) (s : State) : Out := .next (garrw 3 sw d a k.toNat s)
/-- GARR.FMAX (06 R136, R144). -/
def execGarrFmax (sw : Bool) (d a : BitVec 4) (k : BitVec 11) (s : State) : Out := .next (garr 4 sw d a k.toNat s)
/-- GARRW.FMAX (06 R136, R144). -/
def execGarrwFmax (sw : Bool) (d a : BitVec 4) (k : BitVec 11) (s : State) : Out := .next (garrw 4 sw d a k.toNat s)
/-- GARR.FMIN (06 R136, R144). -/
def execGarrFmin (sw : Bool) (d a : BitVec 4) (k : BitVec 11) (s : State) : Out := .next (garr 5 sw d a k.toNat s)
/-- GARRW.FMIN (06 R136, R144). -/
def execGarrwFmin (sw : Bool) (d a : BitVec 4) (k : BitVec 11) (s : State) : Out := .next (garrw 5 sw d a k.toNat s)

/-- SGRP wd, lvl (06 R145). -/
def execSgrp (sw : Bool) (d : BitVec 4) (l : BitVec 13) (s : State) : Out :=
  .next (match subAt (myLaunch s) s.core.id l.toNat with
    | none => raise 0x0C (w64 l.toNat) s
    | some v => finish sw (writeW d v s))

/-! ## Launches (06 R146, R147) -/

/-- LAUNCH wd, wa: alignment, the wait for the issuer's stores, the record read as a load, and the status. -/
def execLaunch (sw : Bool) (d a : BitVec 4) (s : State) : Out :=
  let va := readW s a
  .next (aligned va 64 (fun s =>
    if !(mineOut s).isEmpty then wait (.stores (mineOut s)) s
    else loadBytes va 128 (fun bs s =>
      let who : Submitter := { sys := s.ctx.trap.level, asid := s.ctx.trap.asid.toNat, cls := s.ctx.cls.toNat }
      let key : HoldKey := .launch s.core.id s.ctx.num.toNat
      let k := s.core.id
      let c := s.ctx.num.toNat
      match submit key who (wordsOf 16 bs) (releaseFrom s.core.id s) with
      | .status n s1 => finish sw (writeW d (w64 n) (focus k c s1))
      | .waits s1 => wait (.held key) (focus k c s1)) s) s)

/-- KILL wa (06 R147): at user level a task of another ASID, or one that is not running, is left alone. The ASID is that
of the issuing context. A launch that kills its own task ends here. -/
def execKill (sw : Bool) (a : BitVec 4) (s : State) : Out :=
  let task := BitVec.ofNat 12 (bits (readW s a) 0 12)
  .next (match launchOf s task with
    | none => finish sw s
    | some l =>
      if l.ending || (!s.ctx.trap.level && l.asid != s.ctx.trap.asid.toNat) then finish sw s
      else if task == s.ctx.task then endLaunch task s
      else
        let k := s.core.id
        let c := s.ctx.num.toNat
        finish sw (focus k c (endLaunch task s)))

end Sys2Proof.Machine
end

