-- ==== Sys2Proof/Machine/Peer.lean ====
section
/-! DEFINITION. Peers of the network endpoint (13 R303 to R306): their state, the units sent to them, and the close of
an idle one. -/
namespace Sys2Proof.Machine

/-- The largest number of peers, and of packets unacknowledged to one (13 R304). -/
def maxPeers : Nat := 16384
def maxUnacked : Nat := 4096

/-- The state of a peer when two endpoints first exchange traffic: no number received. -/
def Peer.fresh (site accel clk : Nat) : Peer :=
  { site := site, accel := accel, next := 0, h := 2 ^ 24 - 1, got := [], unacked := [], used := clk, closing := none,
    wins := List.replicate 16 2048, rtt := 0, least := 0, cut := 0 }

/-- The peer of a module. -/
def peerOf (s : State) (site accel : Nat) : Option Peer := s.net.peers.find? (fun p => p.site == site && p.accel == accel)

/-- Change the peers. -/
def setPeers (ps : List Peer) (s : State) : State := { s with net := { s.net with peers := ps } }

/-- Change one peer. -/
def updPeer (site accel : Nat) (f : Peer → Peer) (s : State) : State :=
  setPeers (replaceFirst (fun p => p.site == site && p.accel == accel) f s.net.peers) s

/-- Drop a peer. -/
def dropPeer (site accel : Nat) (s : State) : State :=
  setPeers (s.net.peers.filter (fun p => !(p.site == site && p.accel == accel))) s

/-- Whether the window of the path of the next packet has room (13 R306). -/
def pathRoom (p : Peer) : Bool :=
  let path := p.next % 16
  256 * (p.unacked.countP (fun k => k.pkt.path == path)) < p.wins.getD path 256

/-- Whether a packet can be sent to a module now: its peer has room, or an entry is free. -/
def peerRoom (s : State) (site accel : Nat) : Bool :=
  match peerOf s site accel with
  | some p => p.unacked.length < maxUnacked && p.closing.isNone && pathRoom p
  | none => s.net.peers.length < maxPeers

/-- Hold state for a module. -/
def ensurePeer (site accel : Nat) (s : State) : State :=
  if (peerOf s site accel).isSome then s else setPeers (s.net.peers ++ [Peer.fresh site accel s.clk]) s

/-- An encapsulated unit to a module with nothing but its type (13 R303). -/
def blankUnit (s : State) (ty site accel : Nat) : UeUnit :=
  { ty := ty, refuse := false, seq := 0, ssite := s.site.toNat, dsite := site, sacc := s.accel.toNat, dacc := accel, rq := 0,
    off := 0, total := 0, sendid := 0, stask := 0, data := [], omf := none, bad := 0, news := [], echo := 0, path := 0 }

/-- The words of a unit: the three of its header, and the one of the body of an acknowledgement (13 R303). Where they are
unused SEQ, RQ, OFF, TOTAL and SENDID are 0. -/
def ueWords (u : UeUnit) : List W64 :=
  let data (n : Nat) : Nat := if u.ty == 1 then n else 0
  let seq := if u.ty == 0 || u.ty == 1 || u.ty == 4 then u.seq % 2 ^ 24 else 0
  [w64 (u.ty % 16 + toBit (u.ty == 5 && u.refuse) * 2 ^ 4 + seq * 2 ^ 8 + u.ssite % 2 ^ 16 * 2 ^ 32 + u.dsite % 2 ^ 16 * 2 ^ 48),
   w64 (u.sacc % 2 ^ 10 + u.dacc % 2 ^ 10 * 2 ^ 10 + data (u.rq % 2 ^ 8) * 2 ^ 20 + data (u.off % 2 ^ 27) * 2 ^ 32),
   w64 (data (u.total % 2 ^ 27) + data (u.sendid % 2 ^ 16) * 2 ^ 32 + u.stask.toNat * 2 ^ 48)] ++
    (if u.ty == 2 then [w64 (u.seq % 2 ^ 24 + u.echo % 2 ^ 40 * 2 ^ 24)] else [])

/-- The bytes of the body of a unit of send data. -/
def unitLen (u : UeUnit) : Nat := if u.ty == 1 then min 4096 (u.total - u.off) else 0

/-- The part of a unit from byte `i` of its data on, of at most 256 bytes. -/
def unitPart (u : UeUnit) (i : Nat) : UeUnit := { u with data := (u.data.drop i).take 256, bad := u.bad / 2 ^ i % 2 ^ 256 }

/-- A unit leaves on the scale-up fabric, in parts of up to 256 bytes (13 R294). -/
def sendUnit (u : UeUnit) (s : State) : State :=
  let num := s.fab.xfer
  (List.range (max 1 ((unitLen u + 255) / 256))).foldl (fun s i => toFabric u.dacc 0 0 (.unit (unitPart u (256 * i)) num (256 * i)) s)
    { s with fab := { s.fab with xfer := num + 1 } }

/-- A unit leaves through the Ultra Ethernet ports, or on the scale-up fabric for a module of the own site (13 R309). -/
def putUnit (u : UeUnit) (s : State) : State :=
  if u.dsite == s.site.toNat then sendUnit u s else { s with egress := s.egress ++ [.unit (ueWords u) u] }

/-- A unit that shows its peer in use leaves. -/
def emitUnit (u : UeUnit) (s : State) : State := updPeer u.dsite u.dacc (fun p => { p with used := s.clk }) (putUnit u s)

/-- A packet of type 0 or 1 takes the next number of its peer and stays until it is acknowledged (13 R304, R306). -/
def sendPacket (u : UeUnit) (core cmd : Nat) (s : State) : State :=
  let s1 := ensurePeer u.dsite u.dacc s
  match peerOf s1 u.dsite u.dacc with
  | none => s1
  | some p =>
    let v := { u with seq := p.next, path := p.next % 16, echo := s1.clk % 2 ^ 40 }
    let k : Unacked := { seq := p.next, pkt := v, sent := s1.clk, tries := 0, core := core, cmd := cmd }
    emitUnit v (updPeer u.dsite u.dacc (fun q => { q with next := (q.next + 1) % 2 ^ 24, unacked := q.unacked ++ [k] }) s1)

/-- A candidate for closing (13 R305). -/
def closable (s : State) (p : Peer) : Bool := p.unacked.isEmpty && p.closing.isNone && p.used + 2 ^ 24 ≤ s.clk

/-- The least recently used of the candidates. -/
def oldestPeer (ps : List Peer) : Option Peer :=
  match ps with
  | [] => none
  | p :: r => some (r.foldl (fun a b => if b.used < a.used then b else a) p)

/-- PEER_CLOSE_START: a close goes to the least recently used candidate, unless one is outstanding (13 R305). -/
def startClose (s : State) : State :=
  if s.net.peers.any (fun p => p.closing.isSome) then s
  else match oldestPeer (s.net.peers.filter (closable s)) with
    | none => s
    | some p =>
      let u := { blankUnit s 4 p.site p.accel with seq := p.next }
      emitUnit u (updPeer p.site p.accel (fun q => { q with closing := some (s.clk, 0) }) s)

end Sys2Proof.Machine
end

