-- ==== Sys2Proof/Machine/AgentMsg.lean ====
section
/-! DEFINITION. The message interfaces and the dispatcher of each core (05 R99 to R114). -/
namespace Sys2Proof.Machine

/-! ## Messages in the mesh -/

/-- The message of a number in the mesh. -/
def flightOf (s : State) (x : Nat) : Option Flight := s.flights.find? (fun f => f.num == x)

/-- Whether a message waits at a core behind the walk for an overflow slot of its launch: its own, or that of one that came before. -/
def behindSlot (s : State) (f : Flight) : Bool :=
  walkingOn s (.inbox f.at_ (hTask f.msg.w2)) ||
    (!f.arrived && s.flights.any (fun g => g.arrived && g.at_ == f.at_ && hTask g.msg.w2 == hTask f.msg.w2))

/-- A message that has reached its target is offered to its storage. -/
def admissionOn (s : State) (x : Nat) : Bool :=
  (flightOf s x).any (fun f => !f.walks && f.hold ≤ s.clk && !behindSlot s f)

/-- The distance between two numbers and the Manhattan distance of two cores. -/
def apart (a b : Nat) : Nat := (a - b) + (b - a)
def manhattan (k h : Nat) : Nat := apart (coreX k) (coreX h) + apart (coreY k) (coreY h)

/-- Whether core `k` accepts a placed message (05 R99); the queue is that of the message's launch (assumption 18). -/
def accepts (s : State) (k : Nat) (f : Flight) : Bool :=
  let task := hTask f.msg.w2
  manhattan k f.hint ≤ mRadius f.msg.w0 && (launchOf s task).any (fun l => inRect l k) && !coreFenced s k &&
  (ctxsOf s k).any (fun x => x.status == .free) &&
  (resAt s k task).any (fun r => if mPri f.msg.w0 then r.high.isEmpty else r.low.isEmpty)

/-- The neighbours of a core on the part, those along x first. -/
def neighbours (s : State) (k : Nat) : List Nat :=
  let x := coreX k
  let y := coreY k
  (if x + 1 < 64 then [coreAt (x + 1) y] else []) ++ (if 0 < x then [coreAt (x - 1) y] else []) ++
  (if y + 1 < meshRows s then [coreAt x (y + 1)] else []) ++ (if 0 < y then [coreAt x (y - 1)] else [])

/-- The walk that is the shortest: `near` are the cores of one distance from the hint, `seen` those up to it; the answer
is the neighbour of `k` in the nearest such ring. -/
def walkGo (s : State) (k : Nat) : Nat → List Nat → List Nat → Option Nat
  | 0, _, _ => none
  | n + 1, seen, near =>
    match (neighbours s k).find? near.contains with
    | some j => some j
    | none =>
      let next := ((near.flatMap (neighbours s)).filter (fun j => !coreFenced s j && !seen.contains j)).eraseDups
      if next.isEmpty then none else walkGo s k n (seen ++ next) next

/-- The next core on the straight walk: along x, then along y. -/
def walkStraight (k h : Nat) : Nat :=
  if coreX k < coreX h then coreAt (coreX k + 1) (coreY k)
  else if coreX h < coreX k then coreAt (coreX k - 1) (coreY k)
  else if coreY k < coreY h then coreAt (coreX k) (coreY k + 1)
  else coreAt (coreX k) (coreY k - 1)

/-- The next core on the walk (05 R99). DESIGN CHOICE: around fenced clusters it is the shortest way through cores that are
not fenced, along x where there are two; a hint that no such way reaches is walked to straight (assumption 19). -/
def walkNext (s : State) (k h : Nat) : Nat :=
  if s.fenced.isEmpty then walkStraight k h else (walkGo s k 2048 [h] [h]).getD (walkStraight k h)

def placedOfferOn (s : State) (x : Nat) : Bool := (flightOf s x).any (fun f => f.walks && f.hold ≤ s.clk && !(accepts s f.at_ f && behindSlot s f))

/-- Change a message in the mesh. -/
def updFlight (x : Nat) (g : Flight → Flight) (s : State) : State :=
  { s with flights := s.flights.map (fun f => if f.num == x then g f else f) }

/-- A message that the receiving I/O die discards: class 3, units 4 and 6, and the classes that never travel between
modules as messages (05 R108). -/
def ingressRefused (m : Msg) : Bool := !(mClass m.w0 == 0 || mClass m.w0 == 2) || mUnit m.w0 == 4 || mUnit m.w0 == 6

/-- A packet that begins a bulk message agrees with its own header (05 R96). -/
def firstOk (m : Msg) : Bool :=
  let n := hLen m.w3
  1 ≤ n && n ≤ 4096 && hPcnt m.w2 == packets true n - 1 && hPidx m.w2 ≤ hPcnt m.w2 &&
  m.bulk.length == min 256 (n - 256 * hPidx m.w2)

/-- A bulk message as its packets announce it: the header without PIDX and POFF. -/
def announced (m : Msg) : Msg := { m with w2 := setBits m.w2 4 4 0, w3 := setBits m.w3 39 12 0, bulk := [] }

/-- A packet of a bulk message of another module arrives (05 R96, R102): the first one announces the message to the mesh,
one that disagrees with it is discarded and counted. -/
def takePart (m : Msg) (announce : State → State) (s : State) : State :=
  let mine (p : Part) : Bool := p.ssite == m.ssite.toNat && p.key == mKey m.w2
  match partOf s m with
  | none =>
    let p : Part :=
      { ssite := m.ssite.toNat, key := mKey m.w2, len := hLen m.w3, pcnt := hPcnt m.w2, got := [(hPidx m.w2, m.bulk)], closed := false }
    if firstOk m then announce { s with parts := s.parts ++ [p] }
    else countStale (mCore m.w0) s
  | some p =>
    if !(hLen m.w3 == p.len && hPcnt m.w2 == p.pcnt && firstOk m) then countStale (mCore m.w0) s
    else
      let q := { p with got := if p.got.any (fun x => x.1 == hPidx m.w2) then p.got else p.got ++ [(hPidx m.w2, m.bulk)] }
      if q.closed && q.got.length == q.pcnt + 1 then dropPart m s else { s with parts := replaceFirst mine (fun _ => q) s.parts }

/-- A message, or a packet of a bulk one, of another module enters the mesh (05 R99, R100, R108). -/
def enterMesh (m : Msg) (s : State) : State :=
  let go (m : Msg) (s : State) : State := fly m (coreAt (hX m.w2) (hY m.w2 % meshRows s)) (mCore m.w0) .outside false s
  if ingressRefused m then { s with net := { s.net with dropped := s.net.dropped + 1 } }
  else if hBulk m.w3 then takePart m (go (announced m)) s
  else go m s

/-- IO_DIE_INGRESS. -/
def execIoDieIngress (m : Msg) (s : State) : Out := .next (enterMesh m s)

/-! ## Bulk payloads (05 R96, R102) -/

/-- The pull of a number. -/
def pullOf (c : Core) (x : Nat) : Option Pull := c.pulls.find? (fun p => p.num == x)

/-- The pull that a packet belongs to (05 R102): of the source site that travels with it, and of the accelerator, die, x, y,
context and MSGID it names. -/
def pullFor (c : Core) (x : BitVec 16) (p : Packet) : Option Pull :=
  c.pulls.find? (fun u => u.q.msg.ssite == x && mKey u.q.msg.w2 == mKey p.w2)

/-- Packet `i` of a message with its payload: the whole header with its own PIDX and POFF (05 R96). -/
def packetWith (m : Msg) (i : Nat) (data : List Byte) : Packet :=
  { w0 := m.w0, w1 := m.w1, w2 := setBits m.w2 4 4 i, w3 := setBits m.w3 39 12 (256 * i), data := data }

/-- The packets of a message that the receiver can pull: all of them from a sender on this module, those that have come
from another one. -/
def packetsOf (s : State) (m : Msg) : List Packet :=
  if isForeign s m then ((partOf s m).map (fun p => p.got.map (fun x => packetWith m x.1 x.2))).getD []
  else (List.range (packets true m.bulk.length)).map (fun i => packetWith m i ((m.bulk.drop (256 * i)).take 256))

/-- A packet agrees with its message in LEN and PCNT, and in what follows from them. -/
def packetOk (m : Msg) (p : Packet) : Bool :=
  hLen p.w3 == hLen m.w3 && hPcnt p.w2 == hPcnt m.w2 && hPidx p.w2 ≤ hPcnt p.w2 && hPoff p.w3 == 256 * hPidx p.w2 % 4096 &&
  p.data.length == min 256 (hLen m.w3 - 256 * hPidx p.w2)

/-- The whole payload of a pull has landed: its handler starts, or RECVW completes. -/
def pullDone (k : Nat) (u : Pull) (s : State) : State :=
  let s0 := updCore k (fun c => { c with pulls := c.pulls.filter (fun p => p.num != u.num) }) s
  if u.reply then
    let s2 := focus k u.ctx.toNat (payloadTaken u.q.msg s0)
    match s2.ctx.status with
    | .waiting (.recvw d sw) => consume d sw { task := hTask u.q.msg.w2, ctx := u.ctx, inc := u.inc, q := u.q } s2
    | _ => s2
  else updCtx k u.ctx.toNat (fun x => match x.status with
    | .pulling n => if n == u.num then { x with status := .ready } else x
    | _ => x) (startedTaken u.q s0)

/-- A packet of a pull lands at DST + POFF in the launch's region. -/
def landPacket (k : Nat) (u : Pull) (p : Packet) (s : State) : State :=
  let m := u.q.msg
  let s1 := match resAt s k (hTask m.w2) with
    | some r => updCore k (fun c => c.spadWrite r.base r.logspad (m.dst.toNat + hPoff p.w3) p.data) s
    | none => s
  let u1 := { u with got := setInsert (hPidx p.w2) u.got }
  let s2 := updCore k (fun c => { c with pulls := replaceFirst (fun v => v.num == u.num) (fun _ => u1) c.pulls }) s1
  if u1.got.length == hPcnt m.w2 + 1 then pullDone k u1 s2 else s2

/-- A context that the debugger has stopped takes no packets (15 R365); one in RECVW in the middle of a group goes on to its boundary. -/
def pullHalted (s : State) (k : Nat) (u : Pull) : Bool := stopped s (coreOf s k) (ctxOf s k u.ctx.toNat)

/-- The packets of a pull that can land now. -/
def landable (s : State) (k : Nat) (u : Pull) : List Packet :=
  if pullHalted s k u then [] else (packetsOf s u.q.msg).filter (fun p => !u.got.contains (hPidx p.w2))

/-- BULK_PACKET_ARRIVAL: a packet that disagrees is discarded and counted; one that has landed changes nothing, and one of
a halted launch waits. -/
def execBulkPacketArrival (k : Nat) (x : BitVec 16) (p : Packet) (s : State) : Out :=
  .next (match pullFor (coreOf s k) x p with
    | none => countStale k s
    | some u =>
      if !packetOk u.q.msg p then countStale k s
      else if u.got.contains (hPidx p.w2) || pullHalted s k u then s
      else landPacket k u p s)

def reassemblyTimeoutOn (s : State) (k x : Nat) : Bool := (pullOf (coreOf s k) x).any (fun u => u.since + 2 ^ 20 ≤ s.clk)

/-- REASSEMBLY_TIMEOUT: the message is discarded with NACK TIMEOUT. The context that was to start on it returns with its
resources; a context in RECVW goes on waiting (assumption 20). -/
def execReassemblyTimeout (k x : Nat) (s : State) : Out :=
  event (reassemblyTimeoutOn s k x) "REASSEMBLY_TIMEOUT" (fun s =>
    match pullOf (coreOf s k) x with
    | none => s
    | some u =>
      let m := u.q.msg
      let s1 := updCore k (fun c => { c with pulls := c.pulls.filter (fun p => p.num != x) }) s
      let s2 := payloadTaken m s1
      let s3 := if u.reply then updCtx k u.ctx.toNat (fun c => { c with rqOwed := c.rqOwed - toBit (u.q.owed == .request) })
          (returnOwed k u.q s2)
        else retire k u.ctx.toNat .migrated s2
      sendNack k m (mClass m.w0 == 0 && mMode m.w0 == 2) 3 s3) s

/-! ## Network control (05 R107) -/

/-- Take a control message that waits in the module out of the list; one from outside is not in it. -/
def takeCtl (t : Ctl) (s : State) : State := { s with ctls := s.ctls.erase t }

/-- The outbound entry that a control message names, when it has left the module. -/
def sentAway (s : State) (t : Ctl) : Option OutEnt :=
  (coreOf s t.core).out.find? (fun e => e.ctx == t.ctx && e.inc == t.inc && e.seq == t.seq &&
    (e.st == .offered || e.st == .taken || e.sent != 0) && (leavesPod s e.msg.w0 || leavesSite s e.msg.w0))

/-- An entry that has left the module is answered: it frees, but a bulk payload that has been admitted stays until the
receiver has taken it (05 R102). -/
def settleAway (t : Ctl) (s : State) : State :=
  match sentAway s t with
  | some e =>
    if hBulk e.msg.w3 && t.kind == .admitted && !t.taken then
      let st : OutSt := if e.st == .offered || e.st == .taken then .taken else .sending true
      updCore t.core (fun c => { c with out := c.out.map (fun x => if x.num == e.num then { x with st := st } else x) }) s
    else takeOut t.core e.num s
  | none => s

/-- A mode-2 message of an activation no longer awaits its ADMIT (05 R120): it has come, or the NACK that ends the
message has been absorbed (assumption 36). -/
def settleMode2 (t : Ctl) (s : State) : State :=
  if t.mode2 && isLive s t.core t.ctx.toNat t.inc.toNat t.task then
    updActivation t.core t.ctx.toNat t.inc.toNat (fun x => { x with m2wait := x.m2wait - 1 }) s
  else s

/-- ADMIT: the high credit returns (05 R107). -/
def execAdmitMsg (t : Ctl) (s : State) : Out :=
  let s1 := settleAway t (takeCtl t s)
  .next (settleMode2 t (if t.hi then credit t.core t.task 1 s1 else s1))

/-- RETRY: the message waits 256 clk in outbound storage. -/
def execRetry (t : Ctl) (s : State) : Out :=
  let hit (e : OutEnt) : Bool := e.ctx == t.ctx && e.inc == t.inc && e.seq == t.seq && (e.st == .offered || e.sent != 0)
  .next (updCore t.core (fun c => { c with out := replaceFirst hit (fun e => { e with st := .bounced s.clk, sent := 0 }) c.out })
    (takeCtl t s))

/-- The word SSTAT of a parked activation stands in its frame as well (15 R361). -/
def frameSstat (k c inc : Nat) (v : W64) (s : State) : State :=
  match (coreOf s k).parked.find? (fun p => p.ctx.toNat == c && p.inc.toNat == inc) with
  | some p => perform s (cellsAt (frameKey (coreOf s k) p.frame + 0x298) (toBytes 8 v.toNat))
  | none => s

/-- LOST and LOSTWHY. -/
def lostWord (reason : Nat) (v : W64) : W64 := setBits (setBits v 9 1 1) 16 4 reason

/-- A NACK that is absorbed: LOST in its activation, or it is dropped and counted. -/
def absorbNack (t : Ctl) (s : State) : State :=
  let c := t.ctx.toNat
  let i := t.inc.toNat
  if isLive s t.core c i t.task then
    let x := ctxOf s t.core c
    if x.status != .free && x.inc.toNat == i then
      updCtx t.core c (fun x => { x with msg := { x.msg with sstat := lostWord t.reason x.msg.sstat } }) s
    else
      match (coreOf s t.core).parked.find? (fun p => p.ctx.toNat == c && p.inc.toNat == i) with
      | some p =>
        let key := frameKey (coreOf s t.core) p.frame + 0x298
        frameSstat t.core c i (lostWord t.reason (dwordAt s key)) s
      | none => s
  else countStale t.core s

/-- The NACK to a request as it travels to the requesting context (05 R107): class 4, held like a reply, with the site it
comes from; its reason stands in the field of the landing offset. -/
def nackMsg (s : State) (t : Ctl) : Msg :=
  { w0 := coreWord s 4 true 2 t.core t.ctx.toNat t.inc.toNat, w1 := t.w1, w2 := t.w2, w3 := hdr3 0 0 false false 0, words := [],
    bulk := [], dst := BitVec.ofNat 19 t.reason, ssite := t.site }

/-- NACK. -/
def execNack (t : Ctl) (s : State) : Out :=
  let s1 := settleAway t (takeCtl t s)
  let s2 := if t.hi then credit t.core t.task 1 s1 else s1
  .next (if t.req then fly (nackMsg s2 t) t.core t.core .unit true s2 else absorbNack t (settleMode2 t s2))

/-! ## Outbound storage (05 R105) -/

/-- The site that a destination word names; 0 is the own one (05 R95). -/
def siteOf (s : State) (w0 : W64) : Nat := if mSite w0 == 0 then s.site.toNat else mSite w0

/-- Whether two messages have a target in common. -/
def sameTarget (s : State) (a b : OutEnt) : Bool :=
  if leavesPod s a.msg.w0 || leavesPod s b.msg.w0 || leavesSite s a.msg.w0 || leavesSite s b.msg.w0 then
    siteOf s a.msg.w0 == siteOf s b.msg.w0 && bits a.msg.w0 14 24 == bits b.msg.w0 14 24
  else (targetsOf s a.task a.msg.w0).any (fun k => (targetsOf s b.task b.msg.w0).contains k)

/-- An earlier message that an entry has to wait for: one of the same MSGID that has packets not taken (05 R96), or one of
the same context to the same target at the same priority that awaits admission (05 R105). -/
def blocks (s : State) (e f : OutEnt) : Bool :=
  f.num < e.num && f.ctx == e.ctx &&
  ((f.inc == e.inc && f.seq == e.seq) || (f.st != .taken && f.st != .sending true && mPri f.msg.w0 == mPri e.msg.w0 && sameTarget s e f))

/-- The outbound entry of a number. -/
def outOf (c : Core) (x : Nat) : Option OutEnt := c.out.find? (fun e => e.num == x)

/-- Whether nothing but an earlier message keeps an entry from being offered. -/
def offerable (s : State) (k : Nat) (e : OutEnt) : Bool :=
  let c := coreOf s k
  !heldOn s (.out k e.num) &&
  (match e.st with
   | .ready => storesDone s c e.after && !c.out.any (blocks s e)
   | .bounced t => t + 256 ≤ s.clk && !c.out.any (blocks s e)
   | .sending _ => peerRoom s (mSite e.msg.w0) (mAccel e.msg.w0)
   | _ => false)

/-- An entry may be offered, in post order among those that can be (05 R105), or its slots may be written now. -/
def outboundOfferOn (s : State) (k x : Nat) : Bool :=
  let c := coreOf s k
  (outOf c x).any (fun e => match e.st with
    | .unwritten => !heldOn s (.out k x)
    | _ => offerable s k e && !c.out.any (fun f => f.num < e.num && offerable s k f))

/-- Change an outbound entry. -/
def updOut (k x : Nat) (f : OutEnt → OutEnt) (s : State) : State :=
  updCore k (fun c => { c with out := c.out.map (fun e => if e.num == x then f e else e) }) s

/-- The packets in which a message leaves the module: one, or one for each 256 bytes of a bulk payload, each with the whole
header and its own PIDX and POFF (05 R96). -/
def msgPackets (m : Msg) : List Msg :=
  if hBulk m.w3 then (List.range (packets true m.bulk.length)).map (fun i =>
    { m with w2 := setBits m.w2 4 4 i, w3 := setBits m.w3 39 12 (256 * i), bulk := (m.bulk.drop (256 * i)).take 256 })
  else [m]

/-- Packets leave through the Ultra Ethernet ports as far as the windows of the peer allow, each with a number of its own
(13 R303, R304); the answer counts them. -/
def sendUnits (task : BitVec 12) (core cmd : Nat) : List Msg → Nat → State → State × Nat
  | [], n, s => (s, n)
  | m :: ms, n, s =>
    if peerRoom s (mSite m.w0) (mAccel m.w0) then
      sendUnits task core cmd ms (n + 1)
        (sendPacket { blankUnit s 0 (mSite m.w0) (mAccel m.w0) with omf := some m, stask := task } core cmd s)
    else (startClose s, n)

/-- A message that no receiver can answer any more, because it was lost on its way, leaves outbound storage; one that a receiver
has admitted waits for that receiver's time-out (05 R102; assumption 130). -/
def lostOut (k x : Nat) (s : State) : State :=
  match outOf (coreOf s k) x with
  | some e => if e.st == .taken || e.st == .sending true then s else takeOut k x s
  | none => s

/-- Offer an entry: to the fabric, to the Ultra Ethernet ports, or to each of its targets through the mesh. A message none of
whose packets has found room waits 256 clk. -/
def offerOut (k : Nat) (e : OutEnt) (s : State) : State :=
  let s1 := updOut k e.num (fun e => { e with st := .offered }) s
  let ps := msgPackets e.msg
  if leavesSite s e.msg.w0 then
    match sendUnits e.task k (e.num + 1) (ps.drop e.sent) e.sent s with
    | (s2, n) =>
      let adm := e.st == .sending true
      let st : OutSt := if n == ps.length then (if adm then .taken else .offered) else if n == 0 then .bounced s.clk else .sending adm
      updOut k e.num (fun e => { e with sent := n, st := st }) s2
  else if leavesPod s e.msg.w0 then
    (if (upPorts s).isEmpty then lostOut k e.num s1 else ps.foldl (fun s m => toFabric (mAccel m.w0) 0 m.w1 (.omf m) s) s1)
  else (targetsOf s e.task e.msg.w0).foldl (fun s t => fly e.msg k t (.out k e.num) false s) s1

/-- OUTBOUND_OFFER: a message in the outbound region is written to it, and read from it when it is offered (15 R425). -/
def execOutboundOffer (k x : Nat) (s : State) : Out :=
  event (outboundOfferOn s k x) "OUTBOUND_OFFER" (fun s =>
    match outOf (coreOf s k) x with
    | none => s
    | some e =>
      let s := releaseFrom k s
      match e.st, e.slots, launchOf s e.task with
      | .unwritten, _, some l =>
        match writeImage (.out k x) l k (outImage l k e.slots e.msg) s with
        | (s1, true) => updOut k x (fun e => { e with st := .ready }) s1
        | (s1, false) => s1
      | _, s0 :: rest, some l =>
        match runRegion (.out k x) l (some k) 0 (readImage l k s0 rest e.msg) s with
        | (s1, some m) => offerOut k { e with msg := m } s1
        | (s1, none) => s1
      | _, _, _ => offerOut k e s) s

/-! ## Entry words (05 R109) -/

/-- The VA of the entry word of a message. -/
def entryVa (m : Msg) : W64 := if isCont m then m.w1 + hFall m.w3 else m.w1

/-- The entry word of a PC in the cache of a core. -/
def entryCached (c : Core) (task : BitVec 12) (va : W64) : Option W64 :=
  (c.ecache.find? (fun e => e.1 == task.toNat && e.2.1 == va)).map (fun e => e.2.2)

/-- The head of a bin. -/
def binHead (r : Resident) (b : Nat) : Option QMsg := r.low.find? (fun q => binOf q.msg == b)

/-- The heads of a launch's queues with the queue each is taken from. -/
def headsOf (r : Resident) : List (QMsg × Bool) :=
  (r.high.head?.toList.map (fun q => (q, true))) ++ ((List.range 8).filterMap (binHead r)).map (fun q => (q, false))

def entryWordFillOn (s : State) (k task : Nat) (pc : W64) : Bool :=
  let t := BitVec.ofNat 12 task
  let c := coreOf s k
  (resOf c t).any (fun r => (headsOf r).any (fun p => entryVa p.1.msg == pc)) && (entryCached c t pc).isNone &&
    !heldOn s (.entry k pc t) && !taskHeld s k t

/-- Remove a message from the queues of a launch. -/
def dropQueued (k : Nat) (task : BitVec 12) (q : QMsg) (s : State) : State :=
  let gone (r : Resident) : Bool := match r.reserved with
    | none => false
    | some none => r.high.head? == some q
    | some (some b) => binHead r b == some q
  updCore k (fun c => c.updRes task (fun r =>
    { r with low := r.low.erase q, high := r.high.erase q, reserved := if gone r then none else r.reserved })) s

/-- A queued message is discarded with an error record and, if it carries ACK, NACK BADENTRY (05 R109). DESIGN CHOICE: the
NACK goes out behind an unrecoverable fault or uncorrectable data of the fill too, where R109 names the discard and the
record only (assumption 132). -/
def refuseQueued (k : Nat) (task : BitVec 12) (q : QMsg) (code : Nat) (v : W64) (s : State) : State :=
  let s1 := discard k q 5 (dropQueued k task q s)
  errRecord task code false false (errCore k 0 0) (entryVa q.msg) v q.msg.w0 q.msg.w2 0 s1

/-- The first head of a launch with an entry word at a VA. -/
def headWith (s : State) (k : Nat) (task : BitVec 12) (pc : W64) : Option QMsg :=
  (resAt s k task).bind (fun r => ((headsOf r).find? (fun p => entryVa p.1.msg == pc)).map (fun p => p.1))

/-- A fill that cannot be made. -/
def fillFails (k : Nat) (task : BitVec 12) (pc : W64) (code : Nat) (v : W64) (s : State) : State :=
  match headWith s k task pc with
  | some q => refuseQueued k task q code v s
  | none => s

/-- The fill of an entry word, once its hold is past. -/
def fillEntry (k : Nat) (l : Launch) (pc : W64) (s : State) : State :=
  let key : HoldKey := .entry k pc l.task
  if vaAccel pc != s.accel.toNat then fillFails k l.task pc 0x04 pc s
  else match rEntry l (some k) pc s with
    | .ok (w, s1) => updCore k (fun c => { c with ecache := (c.ecache ++ [(l.task.toNat, pc, w)]).drop (c.ecache.length - 63) }) s1
    | .error (.lost code va) => fillFails k l.task pc code va s
    | .error (.miss q) => agentWalk key (engineOf k 0) false q s

/-- ENTRY_WORD_FILL. -/
def execEntryWordFill (k task : Nat) (pc : W64) (s : State) : Out :=
  event (entryWordFillOn s k task pc) "ENTRY_WORD_FILL" (fun s =>
    let t := BitVec.ofNat 12 task
    match launchOf s t with
    | none => s
    | some l =>
      let key : HoldKey := .entry k pc t
      let failed := (holdOf s key).any (fun h => h.ended == some true)
      let s0 := unhold key s
      if failed then fillFails k t pc 0x0F pc s0 else fillEntry k l pc s0) s

/-! ## Dispatch (05 R110, 06 R130) -/

/-- Physical slots of a core that are free (11 R248). -/
def freeSlotNums (c : Core) : List Nat :=
  let names (q : Cmd) : Option Nat := match q.op with
    | .mma _ _ _ _ n _ _ _ _ _ => some n
    | .mmr _ _ n _ _ _ => some n
    | .mmrl _ _ n _ _ => some n
    | .mmz n => some n
    | .mmrank n _ => some n
    | _ => none
  let used := c.matq.filterMap names
  (List.range 4).filter (fun n => !(c.slots.get ⟨n % 4, Nat.mod_lt _ (by decide)⟩).held && !used.contains n)

/-- List registers of a core's pool that are free (10 R228). -/
def listsFree (s : State) (k : Nat) : Nat :=
  8 - (((ctxsOf s k).map (fun x => x.nl)).sum + ((coreOf s k).parked.map (fun p => p.saved.nl)).sum)

/-- Whether a message with its entry word can start (05 R110) once the scratchpad region of its launch is in place. -/
def couldStart (s : State) (k : Nat) (r : Resident) (high : Bool) (q : QMsg) : Bool :=
  let c := coreOf s k
  (launchOf s r.task).any (fun l => l.setup && l.doomed.isNone) && !heldOn s (.slot k r.task) &&
  (match entryCached c r.task (entryVa q.msg) with
   | none => false
   | some w => entryValid w && (if high then entHigh w else entLow w) && entVregs w ≤ vregsFree s k &&
       entLists w ≤ listsFree s k && entAcc w ≤ (freeSlotNums c).length) &&
  (ctxsOf s k).any (fun x => x.status == .free) &&
  !taskHeld s k r.task && !dueLeft s k r.task

/-- Which head a launch starts. -/
inductive Pick where
  | high
  | bin (b : Nat)
  deriving DecidableEq, Repr

/-- advance(): the next non-empty bin, turns cleared. -/
def Resident.advanceBin (r : Resident) : Resident :=
  match ((List.range 8).map (fun i => (r.cur + 1 + i) % 8)).find? (fun b => (binHead r b).isSome) with
  | some b => { r with cur := b, turns := 0 }
  | none => { r with turns := 0 }

/-- pass(h) for the head of a bin, and for the high head. -/
def Resident.passBin (b : Nat) (r : Resident) : Resident :=
  match binHead r b with
  | none => r
  | some h =>
    { r with low := replaceFirst (fun x => x == h) (fun x => { x with skipped := x.skipped + 1 }) r.low,
             reserved := if h.skipped + 1 == 64 then some (some b) else r.reserved }
def Resident.passHigh (r : Resident) : Resident :=
  match r.high with
  | [] => r
  | h :: rest => { r with high := { h with skipped := h.skipped + 1 } :: rest,
                          reserved := if h.skipped + 1 == 64 then some none else r.reserved }

/-- Take the head of a bin out. -/
def Resident.dropBin (b : Nat) (r : Resident) : Resident :=
  match binHead r b with
  | none => r
  | some h => { r with low := r.low.erase h }

/-- The dispatcher tries as soon as a message is admitted: where it comes as far as try_low() and bin cur is empty, it
advances, even if nothing can start (05 R110). -/
def tryBin (s : State) (k : Nat) (r : Resident) : Resident :=
  if r.reserved.isNone && (r.force || !r.high.head?.any (couldStart s k r true)) && (binHead r r.cur).isNone then r.advanceBin
  else r

/-- The residents of a core after an admission. -/
def tryBins (k : Nat) (s : State) : State := updCore k (fun c => { c with res := c.res.map (tryBin s k) }) s

/-- ADMISSION (05 R104, R113, R114). -/
def execAdmission (x : Nat) (s : State) : Out :=
  event (admissionOn s x) "ADMISSION" (fun s =>
    match flightOf s x with
    | some f => tryBins f.at_ (admitFlight f.at_ f s)
    | none => s) s

/-- PLACED_OFFER: the core accepts, or the message walks on; at its hint it is admitted in any case. -/
def execPlacedOffer (x : Nat) (s : State) : Out :=
  event (placedOfferOn s x) "PLACED_OFFER" (fun s =>
    match flightOf s x with
    | some f =>
      if accepts s f.at_ f then tryBins f.at_ (admitFlight f.at_ f s)
      else if f.at_ == f.hint then updFlight x (fun f => { f with walks := false }) s
      else updFlight x (fun f => { f with at_ := walkNext s f.at_ f.hint }) s
    | none => s) s

/-- try_low(). -/
def tryLow (can : QMsg → Bool) (r0 : Resident) : Option (Pick × Resident) :=
  let r := if (binHead r0 r0.cur).isNone then r0.advanceBin else r0
  match binHead r r.cur with
  | none => none
  | some h =>
    if can h then
      let r1 := { r.dropBin r.cur with turns := r.turns + 1 }
      some (.bin r.cur, if r1.turns == 32 || (binHead r1 r1.cur).isNone then r1.advanceBin else r1)
    else
      (((List.range 7).map (fun i => (r.cur + 1 + i) % 8)).find? (fun b => (binHead r b).any can)).map
        (fun b => (.bin b, (r.dropBin b).passBin r.cur))

/-- The choice of 05 R110 for one launch: the head that starts, and the queues without it. -/
def pickOf (canH canL : QMsg → Bool) (r : Resident) : Option (Pick × Resident) :=
  match r.reserved with
  | some none => (r.high.head?.filter canH).map (fun _ => (.high, { r with high := r.high.drop 1, reserved := none }))
  | some (some b) => ((binHead r b).filter canL).map (fun _ => (.bin b, { r.dropBin b with reserved := none }))
  | none =>
    if r.force then (tryLow canL r).map (fun p => (p.1, { p.2 with force := false, hcount := 0 }))
    else if r.high.head?.any canH then
      some (.high, { r with high := r.high.drop 1, hcount := r.hcount + 1, force := r.hcount + 1 ≥ 64 && !r.low.isEmpty })
    else (tryLow canL r).map (fun p => (p.1, { p.2 with hcount := 0 }.passHigh))

/-- The choice for a resident. -/
def pickAt (s : State) (k : Nat) (r : Resident) : Option (Pick × Resident) :=
  pickOf (couldStart s k r true) (couldStart s k r false) r

/-- A head whose entry word breaks a rule of 05 R109; the dispatcher leaves the queues of a launch that is halted or drained alone. -/
def badHead (s : State) (k : Nat) (r : Resident) : Option QMsg :=
  if taskHeld s k r.task then none
  else ((headsOf r).find? (fun p => match entryCached (coreOf s k) r.task (entryVa p.1.msg) with
    | none => false
    | some w => !(entryValid w && (if p.2 then entHigh w else entLow w)))).map (fun p => p.1)

/-- The class and the order of the launch of a resident. -/
def resClass (s : State) (r : Resident) : Nat := ((launchOf s r.task).map (fun l => l.cls.toNat)).getD 0
def resOrder (s : State) (r : Resident) : Nat := ((launchOf s r.task).map (fun l => l.order)).getD 0

/-- The launch of the highest class with a message able to start; among launches of that class one start from each in turn,
in the order in which the launches started (06 R130). -/
def nextResident (s : State) (k : Nat) : Option Resident :=
  let c := coreOf s k
  let ok := c.res.filter (fun r => (pickAt s k r).isSome)
  let top := (ok.map (resClass s)).foldl max 0
  let last := c.turn.get ⟨top % 4, Nat.mod_lt _ (by decide)⟩
  let first (rs : List Resident) : Option Resident :=
    rs.foldl (fun a r => if a.all (fun b => resOrder s r < resOrder s b) then some r else a) none
  let mine := ok.filter (fun r => resClass s r == top)
  (first (mine.filter (fun r => last ≤ resOrder s r))).or (first mine)

/-- A restore of a framed activation goes ahead of dispatch (15 R362). -/
def restorePending (s : State) (k : Nat) : Bool := (coreOf s k).parked.any (restorable s k)

def dispatchOn (s : State) (k : Nat) : Bool :=
  let c := coreOf s k
  !restorePending s k && (c.res.any (fun r => (badHead s k r).isSome) || (nextResident s k).any (fun r => !r.saved))

/-! ### start(m) (05 R111) -/

/-- The incarnation of a slot at its next start: values held by parked activations of the slot are skipped (15 R360). -/
def nextIncGo (held : List (BitVec 6)) : Nat → BitVec 6 → BitVec 6
  | 0, i => i + 1
  | n + 1, i => if held.contains (i + 1) then nextIncGo held n (i + 1) else i + 1
def nextInc (c : Core) (n : Nat) (i : BitVec 6) : BitVec 6 :=
  nextIncGo ((c.parked.filter (fun p => p.ctx.toNat == n)).map (fun p => p.inc)) 64 i

/-- HSTAT at a start (05 R123). -/
def startHstat (q : QMsg) (high : Bool) : W64 :=
  let m := q.msg
  w64 (toBit high + toBit q.stale * 2 + toBit (isRequest m) * 4 + toBit q.demoted * 2 ^ 4 + toBit (hBulk m.w3) * 2 ^ 5 +
    toBit (isCont m) * 2 ^ 6 + m.ssite.toNat * 2 ^ 16)

/-- RTSTAT at the dispatch of a hand-out (14 R327, R337). -/
def startRtstat (b : ExpBuf) (m : Msg) : W64 :=
  let f (i : Nat) : Nat := toBit (bit b.flags i)
  w64 (f 60 * 2 ^ 4 + f 57 * 2 ^ 5 + f 58 * 2 ^ 6 + f 59 * 2 ^ 7 + toBit (bit (wordAt m.words 4) 2) * 2 ^ 8 + f 61 * 2 ^ 9)

/-- The register stack at a start: w0 to w15 from the inline words. -/
def startStack (ws : List W64) : Vector W64 64 := Vector.ofFn (fun i : Fin 64 => if i.val < 16 then wordAt ws i.val else 0)

/-- The context that start(m) makes of a free one. -/
def startCtx (s : State) (k : Nat) (r : Resident) (l : Launch) (q : QMsg) (high : Bool) (w : W64) (x : Ctx) : Ctx :=
  let m := q.msg
  let c := coreOf s k
  let va := entryVa m
  let rt : W64 := match q.route with
    | some (d, e) => startRtstat (bufOf (routeOf s d) e) m
    | none => 0
  { Ctx.reset x.num with
    status := if hBulk m.w3 then .pulling c.outNum else .ready, task := r.task, cls := l.cls, rank := rankIn l k,
    inc := nextInc c x.num.toNat x.inc, pc := if isCont m then m.w1 else va + 8, stack := startStack m.words,
    nv := entVregs w, nl := entLists w, na := entAcc w, slots := (freeSlotNums c).take (entAcc w), entry := va,
    msg := { MsgRegs.reset with hdr0 := m.w0, hdr2 := m.w2, hdr3 := m.w3, hstat := startHstat q high,
                                hbuf := if hBulk m.w3 then w64 (m.dst.toNat + hLen m.w3 * 2 ^ 19) else 0 },
    trap := { TrapRegs.reset with level := l.firmware, asid := BitVec.ofNat 16 l.asid },
    fpflags := if isCont m then BitVec.ofNat 6 (bits m.w0 0 6) else 0,
    fprnd := if isCont m then BitVec.ofNat 3 (bits m.w0 6 3) else 0,
    rtstat := rt, limit := if entLimit w == 0 then l.limit else entLimit w, start := s.clk, spbase := r.base,
    logspad := r.logspad, seq := x.seq, fresh := s.clk, freshSys := s.clk }

/-- Granted slots hold the state after MMZ. -/
def grantSlots (ns : List Nat) (c : Core) : Core :=
  { c with slots := ns.foldl (fun v n => v.set (n % 4) { Slot.reset with held := true } (Nat.mod_lt _ (by decide))) c.slots }

/-- start(m): the message `q` of resident `r` starts on core `k`. -/
def startMsg (k : Nat) (r : Resident) (q : QMsg) (high : Bool) (s : State) : State :=
  match launchOf s r.task, entryCached (coreOf s k) r.task (entryVa q.msg), (ctxsOf s k).find? (fun x => x.status == .free) with
  | some l, some w, some x =>
    let y := startCtx s k r l q high w x
    let num := (coreOf s k).outNum
    let s1 := updCtx k x.num.toNat (fun _ => y) s
    let s2 := updCore k (fun c =>
      let c1 := grantSlots y.slots { c with reuse := c.reuse.filter (fun p => p.ctx != x.num) }
      let c2 := { c1 with turn := c1.turn.set (l.cls.toNat % 4) (l.order + 1) (Nat.mod_lt _ (by decide)) }
      if hBulk q.msg.w3 then
        let u : Pull := { num := num, q := q, ctx := x.num, inc := y.inc, reply := false, since := s.clk, got := [] }
        { c2 with outNum := num + 1, pulls := c2.pulls ++ [u] }
      else c2) s1
    let s3 := sample 0 (coreDie k) (some k) (s.clk - q.stamp) ((if q.stale && !hBulk q.msg.w3 then admitMode2 q.msg else id) (returnOwed k q s2))
    (match q.route with
     | some (d, e) => updRoute d (fun t => { t with bufs := alPut t.bufs e { bufOf t e with holder := some (k, x.num, y.inc) } }) s3
     | none => s3)
  | _, _, _ => s

/-- The message that a pick names. -/
def pickedMsg (r : Resident) (p : Pick) : Option (QMsg × Bool) :=
  match p with
  | .high => r.high.head?.map (fun q => (q, true))
  | .bin b => (binHead r b).map (fun q => (q, false))

/-- DISPATCH: a head with a bad entry word is discarded, or a message starts; one in overflow is read from its slot first
(15 R425). -/
def execDispatch (k : Nat) (s : State) : Out :=
  event (dispatchOn s k) "DISPATCH" (fun s =>
    let c := coreOf s k
    match c.res.findSome? (fun r => (badHead s k r).map (fun q => (r.task, q))) with
    | some (task, q) => refuseQueued k task q 0x10 0 s
    | none =>
      match nextResident s k with
      | none => s
      | some r =>
        match pickAt s k r with
        | none => s
        | some (p, r1) =>
          match pickedMsg r p with
          | none => s
          | some (q, high) =>
            let go (q : QMsg) (s : State) : State := startMsg k r q high (updCore k (fun c => c.updRes r.task (fun _ => r1)) s)
            if q.store == .chip then go q s
            else match launchOf s r.task with
              | none => s
              | some l => match storeRead l k high q s with
                | (s1, some m) => go { q with msg := m } s1
                | (s1, none) => s1) s

end Sys2Proof.Machine
end

