-- ==== Sys2Proof/Machine/AgentFabric.lean ====
section
/-! DEFINITION. The scale-up fabric (13 R294 to R301): the transactions of other modules and their answers, the reissue of
outstanding ones, and the ports. -/
namespace Sys2Proof.Machine

/-! ## Reports to the host (16 R385) -/

/-- A report: a 32-byte record in the host event ring, when the ring is placed, and MSI-X vector 0. The manual gives
neither the layout of a record nor the length of the ring (assumption 27). -/
def hostReport (r : HostReport) (s : State) : State :=
  let h := s.host
  let n := s.freeNum
  let base := physKey 6 (h.eventRing + 32 * Config.eventPlace h.eventNum)
  let bs := (List.range 32).map (fun i => Config.freeByte (n + i))
  if h.eventRing == 0 then { s with host := { h with reports := h.reports ++ [r] } }
  else
    let s1 := perform { s with freeNum := n + 32, egress := s.egress ++ [.report r] } (cellsAt base bs)
    { s1 with host := { s1.host with eventNum := s1.host.eventNum + 1, msix := s1.host.msix ++ [0] } }

/-! ## Reissue (13 R297) -/

/-- The address of a transaction, from which its port follows. -/
def opVa (op : FabOp) : W64 :=
  match op with
  | .read va _ _ _ => va
  | .write va _ _ _ _ _ _ => va
  | .atom va _ _ _ _ _ _ => va
  | .reduce va _ _ _ _ _ _ => va
  | .slice r => r.va
  | .line l => l.va
  | .omf m => m.w1
  | .tokens _ _ _ _ _ _ => 0
  | .unit _ _ _ => 0
  | .answer _ _ _ => 0

/-- Whether a transaction has its answer. -/
def txOver (x : Tx) : Bool := (txAnswer x).isSome

/-- Issue an outstanding transaction again on a port that is up. -/
def reissue (x : Tx) (s : State) : State :=
  if (upPorts s).isEmpty then s
  else
    let upd (y : Tx) : Tx := if y.tag == x.tag then { y with since := s.clk, port := portOf s x.accel (opVa x.op) } else y
    toFabric x.accel x.tag (opVa x.op) x.op { s with fab := { s.fab with txs := s.fab.txs.map upd } }

/-- The transactions outstanding on a port are issued again. -/
def reissuePort (port : Nat) (s : State) : State :=
  (s.fab.txs.filter (fun x => x.port == port && !txOver x)).foldl (fun s x => reissue x s) s

/-- The outstanding transaction of a tag. -/
def openTx (s : State) (x : Nat) : Option Tx := s.fab.txs.find? (fun t => t.tag == x && !txOver t)

/-- Whether a destination counts as unreachable: no port is up, or it has been silent for 2^22 clk in all. A multicast
line times out with its multicast. -/
def unreachable (s : State) (t : Tx) : Bool :=
  (match t.op with
   | .line _ => false
   | _ => true) && ((upPorts s).isEmpty || t.first + 2 ^ 22 ≤ s.clk)

/-- Whether a transaction draws a response: only the line of a multicast without responses does not. -/
def responds (t : Tx) : Bool :=
  match t.op with
  | .line l => l.ack
  | _ => true

def transactionReissueOn (s : State) (x : Nat) : Bool :=
  (openTx s x).any (fun t => responds t && t.since + 2 ^ 20 ≤ s.clk && !(upPorts s).isEmpty && !unreachable s t)

/-- TRANSACTION_REISSUE. -/
def execTransactionReissue (x : Nat) (s : State) : Out :=
  event (transactionReissueOn s x) "TRANSACTION_REISSUE" (fun s =>
    match openTx s x with
    | some t => reissue t s
    | none => s) s

/-- The records of a transfer that an ingress refused, or that never reached one, count as refused at their source
(14 R322, R338). -/
def refuseAtSource (die n : Nat) (s : State) : State :=
  let upd (r : Route) : Route := { r with counters := r.counters.set 7 (r.counters.get 7 + w64 n) }
  { s with routes := s.routes.set (die % 4) (upd (s.routes.get ⟨die % 4, Nat.mod_lt _ (by decide)⟩)) (Nat.mod_lt _ (by decide)) }

/-! ## Requests of other modules (12 R279, 13 R297) -/

/-- Serve an access of another module: `run` makes it, `refuse` answers one that cannot be made. A serviceable fault
holds the transaction until it is resolved. -/
def serve (t : FabTx) (refuse : State → State) (run : State → Except (Req × XRes) State) (s : State) : State :=
  let key : HoldKey := .fabric t.accel t.tag
  let failed := (holdOf s key).any (fun h => h.ended == some true)
  let s0 := unhold key s
  if failed then refuse s0
  else match run s0 with
    | .ok s1 => s1
    | .error (q, .miss) => agentMiss 4 key q s0
    | .error _ => refuse s0

/-- The response given to a tag before (13 R297). -/
def seenAnswer (s : State) (t : FabTx) : Option FabOp :=
  (s.fab.seen.find? (fun p => p.1 == t.accel && p.2.1 == t.tag)).map (fun p => p.2.2)

/-- A transaction that takes effect at most once: a repeated tag gets its stored response. -/
def atMostOnce (t : FabTx) (va : W64) (run : State → State) (s : State) : State :=
  match seenAnswer s t with
  | some op => toFabric t.accel t.tag va op s
  | none => run s

/-- The sectors of a 256-byte block in which bytes from `va` on are uncorrectable, as bits. -/
def lostSectors (va : W64) (bs : List (Byte × Bool)) : Nat :=
  ((List.range 8).map (fun j =>
    toBit ((bs.zipIdx).any (fun p => p.1.2 && (va.toNat + p.2) / 32 % 8 == j)) * 2 ^ j)).sum

/-- A read: the bytes that have become visible in SYS scope (08 R177), zeros where they are uncorrectable. -/
def serveRead (t : FabTx) (va : W64) (asid : Nat) (sub : Bool) (len : Nat) (s : State) : State :=
  let answer (op : FabOp) (s : State) : State := toFabric t.accel t.tag va op s
  serve t (answer (.answer [] 0 csRemoteerr.toNat)) (fun s =>
    (rangeKeys s (agentReq asid sub true false) (pieces va len)).map (fun ks =>
      let bs := ks.map (fun k => (sysByte s k, (memSector s k).2))
      let lost := lostSectors va bs
      answer (.answer (bs.map (fun b => if b.2 then 0 else b.1)) (w64 lost) (if lost == 0 then 0 else csDataerr.toNat)) s)) s

/-- The sector writes of a transfer that have been performed; none at first. -/
def xferOf (s : State) (accel num : Nat) : Xfer :=
  (s.fab.xfers.find? (fun x => x.accel == accel && x.num == num)).getD { accel := accel, num := num, next := 0, refused := false }

/-- Change a transfer; the last 4,096 of a source are kept. -/
def setXfer (x : Xfer) (s : State) : State :=
  let others := s.fab.xfers.filter (fun y => !(y.accel == x.accel && y.num == x.num))
  let mine := others.filter (fun y => y.accel == x.accel)
  let kept := others.filter (fun y => y.accel != x.accel)
  { s with fab := { s.fab with xfers := kept ++ mine.drop (mine.length - 4095) ++ [x] } }

/-- Whether a transaction is a sector write that arrived before a lower sector of its transfer was performed (13 R295). -/
def writeEarly (s : State) (t : FabTx) : Bool :=
  match t.op with
  | .write _ _ _ _ _ xfer ix => !(xferOf s t.accel xfer).refused && (xferOf s t.accel xfer).next < ix
  | _ => false

/-- A sector write. It waits, among the inputs of the module, until every lower sector of its transfer has been performed
(13 R295); one that was performed before is answered again, and behind one that was refused the others are refused too. -/
def serveWrite (t : FabTx) (va : W64) (asid : Nat) (sub : Bool) (data : List Byte) (poison : Bool) (xfer ix : Nat) (s : State) : State :=
  let answer (op : FabOp) (s : State) : State := toFabric t.accel t.tag va op s
  let x := xferOf s t.accel xfer
  let refuse (s : State) : State := answer (.answer [] 0 csRemoteerr.toNat) (setXfer { x with refused := true } s)
  if ix < x.next then answer (.answer [] 0 0) s
  else if x.refused then refuse s
  else if x.next < ix then s
  else serve t refuse (fun s =>
    (rangeKeys s (agentReq asid sub false true) (pieces va data.length)).map (fun ks =>
      let s1 := performOutside (ks.zip data) s
      answer (.answer [] 0 0) (setXfer { x with next := ix + 1 } (if poison then poisonCells s1 ks else s1)))) s

/-- An atomic (12 R283). -/
def serveAtom (t : FabTx) (va : W64) (asid : Nat) (sub : Bool) (op : Nat) (wide : Bool) (v nv : W64) (s : State) : State :=
  atMostOnce t va (serve t (answerOnce t.accel t.tag va (.answer [] 0 csRemoteerr.toNat)) (fun s =>
    (agentAtom (agentReq asid sub true true) op (if wide then 8 else 4) va v nv s).map (fun r =>
      answerOnce t.accel t.tag va (.answer [] (w64 r.2.1) r.2.2.toNat) r.1))) s

/-- The elements of an arrival-mode reduction, one read-modify-write each (12 R281). -/
def reduceAll (isMax : Bool) (stype : Nat) (mk : W64 → Req) (va : W64) (bad : List Nat) :
    List (Nat × W64) → State → W64 → Except (Req × XRes) (State × W64)
  | [], s, st => .ok (s, st)
  | (j, v) :: r, s, st =>
    match redElement isMax stype mk (va + w64 ((if stype == 2 then 8 else 4) * j)) v (bad.contains j) s with
    | .error f => .error f
    | .ok (s1, f, lost) => reduceAll isMax stype mk va bad r s1 (st ||| csCond f ||| (if lost then csDataerr else 0))

/-- An arrival-mode contribution. -/
def serveReduce (t : FabTx) (va : W64) (asid : Nat) (sub isMax : Bool) (stype : Nat) (data : List W64) (bad : List Nat)
    (s : State) : State :=
  atMostOnce t va (serve t (answerOnce t.accel t.tag va (.answer [] 0 csRemoteerr.toNat)) (fun s =>
    (reduceAll isMax stype (agentReq asid sub true true) va bad (data.mapIdx (fun j v => (j, v))) s 0).map (fun r =>
      answerOnce t.accel t.tag va (.answer [] 0 r.2.toNat) r.1))) s

/-- The parts of contribution `num` of a module that are here. -/
def slicesOf (s : State) (accel num : Nat) : List (Nat × RedMsg) :=
  s.fab.pieces.filterMap (fun t => match t.op with
    | .slice r => if t.accel == accel && r.num == num then some (t.tag, r) else none
    | _ => none)

/-- Whether a part of something with a tag waits for the others. -/
def pieceHere (s : State) (accel tag : Nat) : Bool := s.fab.pieces.any (fun t => t.accel == accel && t.tag == tag)

/-- Keep a part until the others have come. -/
def addPiece (t : FabTx) (s : State) : State := { s with fab := { s.fab with pieces := s.fab.pieces ++ [t] } }

/-- The parts that were kept are taken away. -/
def dropPieces (hit : FabTx → Bool) (s : State) : State := { s with fab := { s.fab with pieces := s.fab.pieces.filter (fun t => !hit t) } }

/-- Whether part `tag` of a module is in the module already: on its way, or in a record. -/
def sliceHere (s : State) (accel tag : Nat) : Bool :=
  let has (r : RedMsg) : Bool := match r.src with
    | .pod a ts => a == accel && ts.contains tag
    | .here _ _ => false
  pieceHere s accel tag || s.redq.any has || s.reds.any (fun r => r.parts.any has)

/-- The contribution that parts make up: their elements in order. -/
def joinSlices (accel : Nat) (ps : List (Nat × RedMsg)) (r : RedMsg) : RedMsg :=
  let part (i : Nat) : Option RedMsg := (ps.find? (fun p => p.2.first == 32 * i)).map (fun p => p.2)
  let parts := (List.range ((r.nel + 31) / 32)).filterMap part
  { r with data := parts.flatMap (fun p => p.data), bad := parts.flatMap (fun p => p.bad.map (fun j => p.first + j)), first := 0,
           src := .pod accel (ps.map (fun p => p.1)) }

/-- A part of a slice contribution arrives; with the last of its elements the contribution reaches the memory agent (12 R282). -/
def serveSlice (t : FabTx) (r : RedMsg) (s : State) : State :=
  atMostOnce t r.va (fun s =>
    if sliceHere s t.accel t.tag then s
    else
      let s1 := addPiece t s
      let ps := slicesOf s1 t.accel r.num
      let here := (ps.map (fun p => p.2.data.length)).sum
      if here < r.nel then s1
      else
        let s2 := dropPieces (fun x => ps.any (fun p => x.accel == t.accel && x.tag == p.1)) s1
        { s2 with redq := s2.redq ++ [joinSlices t.accel ps r] }) s

/-- A multicast line reaches the module, which puts its own ACCEL into the address (12 R284). -/
def serveLine (t : FabTx) (l : CmcLine) (s : State) : State :=
  let m : CmcLine := { l with src := t.accel, tag := t.tag, va := setBits l.va 54 10 s.accel.toNat }
  atMostOnce t l.va (fun s =>
    if s.fab.lines.any (fun x => x.src == t.accel && x.tag == t.tag) then s
    else { s with fab := { s.fab with lines := s.fab.lines ++ [m] } }) s

/-- Whether a transfer of another module is in the module already. -/
def transferHere (s : State) (t : FabTx) : Bool :=
  [0, 1, 2, 3].any (fun d =>
    let r := routeOf s d
    let mine (x : Transfer) : Bool := x.sacc == t.accel && x.tag == t.tag
    r.incoming.any mine || r.intake.any (fun i => mine i.1))

/-- The parts of transfer `num` of a module that are here: their places, the place of their rows, and their records. -/
def transferParts (s : State) (accel num : Nat) : List (Nat × Nat × List TokRec) :=
  s.fab.pieces.filterMap (fun t => match t.op with
    | .tokens x n ix _ pos _ => if t.accel == accel && n == num then some (ix, pos, x.recs) else none
    | _ => none)

/-- Parts in order make up records: a row that goes on is put behind the one before. -/
def joinRows : List (Nat × List TokRec) → List TokRec → List TokRec
  | [], rs => rs
  | (_, []) :: ps, rs => joinRows ps rs
  | (pos, r :: _) :: ps, rs =>
    joinRows ps (if pos == 0 then rs ++ [r] else rs.dropLast ++ (rs.getLast?.map (fun p => { p with row := p.row ++ r.row })).toList)

/-- Whether a transaction carries a part of transfer `num`. -/
def ofTransfer (num : Nat) (op : FabOp) : Bool :=
  match op with
  | .tokens _ n _ _ _ _ => n == num
  | _ => false

/-- A part of a transfer of a send list arrives; with the last to come the transfer reaches its die (14 R322). The last part is
answered for the whole once its ingress has taken or refused it, the others as they come. -/
def serveTokens (t : FabTx) (x : Transfer) (num ix total : Nat) (s : State) : State :=
  atMostOnce t 0 (fun s =>
    if transferHere s t || pieceHere s t.accel t.tag then s
    else
      let s1 := addPiece t (if ix + 1 == total then s else answerOnce t.accel t.tag 0 (.answer [] 0 0) s)
      let ps := transferParts s1 t.accel num
      if ps.length < total then s1
      else
        let rows := (List.range total).filterMap (fun i => (ps.find? (fun p => p.1 == i)).map (fun p => p.2))
        let last := s1.fab.pieces.find? (fun y => y.accel == t.accel && (match y.op with
          | .tokens _ n i _ _ _ => n == num && i + 1 == total
          | _ => false))
        updRoute x.ddie (fun r => { r with incoming := r.incoming ++ [{ x with sacc := t.accel, tag := (last.map (fun y => y.tag)).getD t.tag,
                                                                                 sent := 0, recs := joinRows rows [] }] })
          (dropPieces (fun y => y.accel == t.accel && ofTransfer num y.op) s1)) s

/-! ## Answers -/

/-- The answer of module `from_` to a transaction of this module; the line of a multicast draws one from each member. -/
def takeResponse (x : Tx) (from_ : Nat) (data : List Byte) (v : W64) (status : Nat) (s : State) : State :=
  let s1 := dropTx x.tag s
  let lastAnswer (s : State) : State :=
    if (txsOf s x.core x.cmd).isEmpty then endCmd x.core 1 x.cmd (w64 status) s else orStatus x.core 1 x.cmd (w64 status) s
  match x.op with
  | .read _ _ _ _ =>
    { s with fab := { s.fab with txs := s.fab.txs.map (fun y => if y.tag == x.tag then { y with op := .answer data v status } else y) } }
  | .write _ _ _ _ _ _ _ =>
    { s with fab := { s.fab with txs := s.fab.txs.map (fun y => if y.tag == x.tag then { y with op := .answer data v status } else y) } }
  | .atom _ _ _ _ _ _ _ =>
    (match (coreOf s x.core).copyq.find? (fun q => q.num == x.cmd) with
     | some q => (match q.op with
       | .catom _ wide off _ _ _ => atomDone x.core q off wide v.toNat (w64 status) s1
       | _ => s1)
     | none => s1)
  | .reduce _ _ _ _ _ _ _ => lastAnswer s1
  | .slice _ => lastAnswer s1
  | .line _ => { s with fab := { s.fab with resps := s.fab.resps ++ [{ x := x.off, member := from_, reason := status }] } }
  | .tokens tr _ _ _ _ n => if status == 0 then s1 else refuseAtSource tr.sdie n s1
  | _ => s

/-! ## Destinations that do not answer (13 R297) -/

def fabricUnreachableOn (s : State) (x : Nat) : Bool := (openTx s x).any (unreachable s)

/-- A transfer whose destination does not answer is lost, with the parts that have not left. -/
def loseTransfer (t : Transfer) (num : Nat) (s : State) : State :=
  updRoute t.sdie (fun r => { r with outgoing := match r.outgoing.find? (fun y => y.sent != 0 && y.dacc == t.dacc && y.ddie == t.ddie) with
      | some y => r.outgoing.erase y
      | none => r.outgoing })
    { s with fab := { s.fab with txs := s.fab.txs.filter (fun y => !ofTransfer num y.op) } }

/-- FABRIC_UNREACHABLE: the command ends with REMOTEERR; the records of a transfer count as refused. -/
def execFabricUnreachable (x : Nat) (s : State) : Out :=
  event (fabricUnreachableOn s x) "FABRIC_UNREACHABLE" (fun s =>
    match openTx s x with
    | none => s
    | some t => match t.op with
      | .tokens tr num _ _ _ n => refuseAtSource tr.sdie n (loseTransfer tr num s)
      | .read _ _ _ _ =>
        if t.eng == 4 then takeResponse t t.accel [] 0 csRemoteerr.toNat s else endCmd t.core 1 t.cmd csRemoteerr (dropTxs t.core t.cmd s)
      | _ => endCmd t.core 1 t.cmd csRemoteerr (dropTxs t.core t.cmd s)) s

/-! ## Ports (13 R296) -/

/-- A port that no entry lists is up at 200 Gb/s with its score at 0. -/
def portAt (s : State) (p : Nat) : Port := alGet s.fab.ports p { score := 0, rate := 0, was := 0, up := true, retrain := false }

/-- Change a port. -/
def setPort (p : Nat) (x : Port) (s : State) : State := { s with fab := { s.fab with ports := alPut s.fab.ports p x } }

/-- A port goes down: to retrain at the next lower rate, or for good when there is none or `again` is false. -/
def portDown (p : Nat) (again : Bool) (s : State) : State :=
  let x := portAt s p
  let lower := again && x.rate < 2
  let y : Port := { x with up := false, retrain := lower, rate := if lower then x.rate + 1 else x.rate }
  reissuePort p (hostReport (.portState p false) (setPort p y s))

/-- The score that an arriving flit adds. -/
def flitScore (r : FlitResult) : Nat :=
  match r with
  | .clean => 0
  | .corrected n => n
  | .replayed => 64

/-- FLIT_ARRIVAL: a score that reaches 0x4000 takes the port down. -/
def execFlitArrival (port : Nat) (r : FlitResult) (s : State) : Out :=
  let x := portAt s port
  .next (if port < 64 && x.up then
      let y : Port := { x with score := x.score + flitScore r }
      let s1 := setPort port y s
      if y.score ≥ 0x4000 then portDown port true s1 else s1
    else s)

def healthAgeingOn (s : State) : Bool := s.fab.aged + 2 ^ 24 ≤ s.clk

/-- HEALTH_AGEING: every score is halved every 2^24 clk. -/
def execHealthAgeing (s : State) : Out :=
  event (healthAgeingOn s) "HEALTH_AGEING" (fun s =>
    { s with fab := { s.fab with aged := s.fab.aged + 2 ^ 24,
                                 ports := s.fab.ports.map (fun p => (p.1, { p.2 with score := p.2.score / 2 })) } }) s

/-- PORT_RETRAIN_COMPLETE: the port comes back up with its score at 0, or stays down. -/
def execPortRetrainComplete (port : Nat) (ok : Bool) (s : State) : Out :=
  let x := portAt s port
  .next (if port < 64 && x.retrain then
      if ok then
        let s1 := hostReport (.portState port true) (setPort port { x with score := 0, was := x.rate, up := true, retrain := false } s)
        if x.rate == x.was then s1 else hostReport (.rate port x.rate) s1
      else setPort port { x with retrain := false } s
    else s)

/-- LINK_LOSS: a link or its switch is lost; the port goes down and stays down until system firmware retrains it. -/
def execLinkLoss (port : Nat) (s : State) : Out :=
  .next (if port < 64 && (portAt s port).up then portDown port false s else s)

end Sys2Proof.Machine
end

