-- ==== Sys2Proof/Machine/AgentLaunch.lean ====
section
/-! DEFINITION. The launch controller, the event units, the steal victims and the group units (06 R126 to R147), and the
end of a drain (15 R366). -/
namespace Sys2Proof.Machine

/-! ## Submission and end (06 R146, R147) -/

/-- The request of the launch controller for a host's record: at user level, in the ASID that the submission names. -/
def recordReq (asid : Nat) (va : W64) : Req :=
  { va := va, asid := asid, sub := false, rd := true, wr := false, fetch := false, user := true }

/-- A decided submission is reported to the host. -/
def hostStatus (n : Nat) (s : State) : State := { s with egress := s.egress ++ [.hostStatus n] }

/-- HOST_LAUNCH_SUBMIT: a host counts as class 3 in the ASID that it names (assumption 21). -/
def execHostLaunchSubmit (va : W64) (asid : Nat) (s : State) : Out :=
  let key : HoldKey := .submit va asid
  event (!heldOn s key) "HOST_LAUNCH_SUBMIT" (fun s =>
    if (holdOf s key).any (fun h => h.ended == some true) then hostStatus 2 (unhold key s)
    else match rangeKeys s (recordReq asid) (pieces va 128) with
      | .ok ks =>
        if ks.any (fun k => s.poison.contains k) then hostStatus 2 (unhold key s)
        else match submit key { sys := false, asid := asid, cls := 3 } (wordsOf 16 (ks.map (memGet s.mem))) s with
          | .status n s1 => hostStatus n s1
          | .waits s1 => s1
      | .error (q, .miss) => agentWalk key { engineOf 0 0 with die := vaDie va } false q (unhold key s)
      | .error _ => hostStatus 2 (unhold key s)) s

/-- HOST_KILL. -/
def execHostKill (task : Nat) (s : State) : Out :=
  .next (endLaunch (BitVec.ofNat 12 task) s)

/-- Whether nothing of a launch is left to run on core `k` (06 R127), nor a store of it to be performed. DESIGN CHOICE:
the spec's programs find their results in memory at the end of a launch (17 R403, 20 R416, 21 R422), so that an ending
waits for the stores (assumption 135). -/
def coreQuiet (s : State) (k : Nat) (task : BitVec 12) : Bool :=
  let c := coreOf s k
  (ctxsOf s k).all (fun x => x.status == .free || x.task != task) && c.parked.all (fun p => p.task != task) &&
  (resOf c task).all (fun r => r.low.isEmpty && r.high.isEmpty) && c.held.all (fun h => h.task != task) &&
  c.answers.all (fun q => hTask q.msg.w2 != task) && c.stores.all (fun e => e.task != task) &&
  c.out.all (fun e => e.task != task) && c.reserve.all (fun p => p.2 != task) &&
  (c.deque.task != task || (c.deque.recs.isEmpty && !c.deque.pend)) && (coreCmds c).all (fun q => q.task != task)

/-- Whether a launch is quiescent; a message of it that is still in the mesh is none of its ends. -/
def quiescent (s : State) (l : Launch) : Bool :=
  l.setup && l.seedNext ≥ l.seedn && !l.seedWait && (launchCores l).all (fun k => coreQuiet s k l.task) &&
  s.transit.all (fun e => e.task != l.task) && s.waiters.all (fun w => w.task != l.task) && s.evq.all (fun e => e.task != l.task) &&
  s.rounds.all (fun r => r.task != l.task) && s.arrivals.all (fun a => a.task != l.task) &&
  s.flights.all (fun f => hTask f.msg.w2 != l.task) && s.steals.all (fun t => t.task != l.task)

/-- A launch ends on its own: it is quiescent, an access to one of its regions has failed (15 R425), or it has ended and
its engine operations have landed. -/
def autoendOn (s : State) (task : Nat) : Bool :=
  (launchOf s (BitVec.ofNat 12 task)).any (fun l =>
    if l.ending then !cmdsLeft s l else l.doomed.isSome || (l.autoend && quiescent s l))

/-- AUTOEND. -/
def execAutoend (task : Nat) (s : State) : Out :=
  let t := BitVec.ofNat 12 task
  event (autoendOn s task) "AUTOEND" (fun s =>
    if (launchOf s t).any (fun l => l.ending) then finishLaunch t s else endLaunch t s) s

/-! ## Seeds (06 R128) -/

/-- The request of the launch controller for a seed (assumption 23). -/
def seedReq (l : Launch) (va : W64) : Req :=
  { va := va, asid := l.asid, sub := false, rd := true, wr := false, fetch := false, user := true }

/-- The seed is sent to a module of this kind of destination. -/
def seedMsg (s : State) (l : Launch) (ws : List W64) : Msg :=
  let w := destClean (wordAt ws 0)
  let n := hInl (wordAt ws 3)
  let w0 := if mMode w == 3 then fillHome s w (wordAt ws 4) else w
  { unitMsg w0 (wordAt ws 1) (hdr2 s l.task 4 0 0 0 0 l.seedNext 0) ((ws.drop 4).take n) with ssite := 0 }

/-- Whether a seed of twenty words can be sent. -/
def seedOk (s : State) (l : Launch) (ws : List W64) : Bool :=
  let w := wordAt ws 0
  let n := hInl (wordAt ws 3)
  let m := seedMsg s l ws
  mClass w == 0 && mMode w != 2 && n ≤ 16 && destOk s l w (wordAt ws 1) n false false (wordAt ws 4) &&
  (if mMode w == 4 then !noSubgroup l (mCode w) else !here s m.w0 || inRect l (mCore m.w0))

/-- The next seed is done with. -/
def seedDone (task : BitVec 12) (waits : Bool) (s : State) : State :=
  { s with launches := s.launches.map (fun l => if l.task == task then { l with seedNext := l.seedNext + 1, seedWait := waits } else l) }

/-- SEED_SKIP: the seed is passed over with a record. -/
def skipSeed (l : Launch) (ws : List W64) (s : State) : State :=
  errRecord l.task 0x11 false false errCtl (wordAt ws 1) (w64 l.seedNext) (wordAt ws 0) (wordAt ws 2) 0
    (seedDone l.task false s)

/-- A seed goes out. -/
def sendSeed (l : Launch) (ws : List W64) (s : State) : State :=
  let m := seedMsg s l ws
  if leavesSite s m.w0 then
    match sendUnits l.task 0 0 [m] 0 s with
    | (s1, n) => if n == 1 then seedDone l.task false s1 else s1
  else if leavesPod s m.w0 then seedDone l.task false (toFabric (mAccel m.w0) 0 m.w1 (.omf m) s)
  else
    let ts := targetsOf s l.task m.w0
    ts.foldl (fun s t => fly m t t (.seed l.task) false s) (seedDone l.task (!ts.isEmpty) s)

/-- The next seed of a launch is read, and sent or skipped. -/
def nextSeed (l : Launch) (s : State) : State :=
  let key : HoldKey := .seed l.task
  let va := l.seeds + w64 (160 * l.seedNext)
  let s0 := unhold key s
  if (holdOf s key).any (fun h => h.ended == some true) then skipSeed l [] s0
  else match rangeKeys s0 (seedReq l) (pieces va 160) with
    | .ok ks =>
      let ws := wordsOf 20 (ks.map (memGet s0.mem))
      if ks.any (fun k => s0.poison.contains k) then skipSeed l [] s0
      else if seedOk s0 l ws then sendSeed l ws s0 else skipSeed l ws s0
    | .error (q, .miss) => agentWalk key { engineOf 0 0 with die := 4 } false q s0
    | .error _ => skipSeed l [] s0

def seedSendOn (s : State) (task : Nat) : Bool :=
  let t := BitVec.ofNat 12 task
  !heldOn s (.seed t) && (launchOf s t).any (fun l =>
    !l.ending && l.doomed.isNone && (!l.setup || (l.seedNext < l.seedn && !l.seedWait)))

/-- SEED_SEND: what is left of the launch's setup comes first. -/
def execSeedSend (task : Nat) (s : State) : Out :=
  let t := BitVec.ofNat 12 task
  event (seedSendOn s task) "SEED_SEND" (fun s =>
    match launchOf s t with
    | none => s
    | some l => if l.setup then nextSeed l s else setupLaunch t s) s

/-! ## Scratchpad regions (06 R127, R131) -/

/-- The save area of core `k` of a launch. -/
def saveVa (l : Launch) (k : Nat) : W64 :=
  l.stack + w64 (2 ^ (l.logw + l.logh) * 16384 + rankIn l k * 2 ^ l.logspad)

/-- Whether a launch whose region is not in place on core `k` is about to use it: its message starts next, a context of it could go on,
a parked activation of it is ready, a command of it is posted, or a buffer of it has been filled (06 R131). -/
def wants (s : State) (k : Nat) (r : Resident) : Bool :=
  let c := coreOf s k
  r.saved && ((nextResident s k).any (fun x => x.task == r.task) ||
    (coreCmds c).any (fun q => q.task == r.task && q.st == .queued) ||
    (ctxsOf s k).any (fun x => x.task == r.task && couldIssue s c x) ||
    (!taskHeld s k r.task && (c.parked.any (fun p => p.task == r.task && p.ready) ||
      s.net.landings.any (fun x => landedAll x && x.buf.any (fun b => b.core == k && b.task == r.task)))))

/-- Whether nothing of a launch runs or is posted on core `k`. -/
def victimIdle (s : State) (k : Nat) (task : BitVec 12) : Bool :=
  (ctxsOf s k).all (fun x => x.status == .free || x.task != task) && (coreCmds (coreOf s k)).all (fun q => q.task != task)

/-- Whether the region of a launch may leave core `k`: every operation posted for it has landed, its payloads too, and no context of it
runs. One that waits goes on waiting; it issues again when the region is back (06 R137). -/
def victimStill (s : State) (k : Nat) (task : BitVec 12) : Bool :=
  let c := coreOf s k
  (ctxsOf s k).all (fun x => x.task != task || (match x.status with
    | .free => true
    | .parked _ _ => true
    | .waiting _ => !couldIssue s c x
    | _ => stopped s c x)) &&
  c.pulls.all (fun u => hTask u.q.msg.w2 != task) && (coreCmds c).all (fun q => q.task != task)

/-- The signal words of commands that a region of a core holds, by doubleword of the region. -/
def signalsIn (c : Core) (r : Resident) : List Nat :=
  (c.signals.filter (fun g => r.base ≤ 8 * g && 8 * g < r.base + 2 ^ r.logspad)).map (fun g => g - r.base / 8)

/-- The region of a resident goes to its save area. DESIGN CHOICE: marks of uncorrectable bytes do not go with it (assumption 143). -/
def saveRegion (k : Nat) (r : Resident) (s : State) : State × Bool :=
  match launchOf s r.task with
  | none => (s, false)
  | some l =>
    let bs := spadRead (coreOf s k) r.base r.logspad 0 (2 ^ r.logspad)
    match regionWrite (.region k r.task) l (some k) 0 (saveVa l k) bs s with
    | (s1, true) => (updCore k (fun c => (zeroSpad r.base (2 ^ r.logspad) c).updRes r.task (fun x => { x with saved := true, signals := signalsIn c r })) s1, true)
    | (s1, false) => (s1, false)

/-- Whether the regions of two residents overlap. -/
def meets (a b : Resident) : Bool := a.task != b.task && overlaps a.base a.logspad b.base b.logspad

/-- The commands of killed launches that have still to land in the region of a resident. -/
def leftIn (s : State) (k : Nat) (r : Resident) : List Cmd :=
  (coreCmds (coreOf s k)).filter (fun q => (resAt s k q.task).isNone && overlaps q.spbase q.logspad r.base r.logspad)

def scratchpadSaveOn (s : State) (k task : Nat) : Bool :=
  let t := BitVec.ofNat 12 task
  !heldOn s (.region k t) &&
  (resAt s k t).any (fun r => !r.saved && victimStill s k t &&
    ((coreOf s k).res.any (fun x => meets r x && wants s k x) || (leftIn s k r).any (fun q => q.st == .queued)))

/-- SCRATCHPAD_SAVE: a region is saved when a launch that shares it first needs it. DESIGN CHOICE: the claiming launch's own
region goes to its save area in the same way when the victim is next to run (assumption 133). -/
def execScratchpadSave (k task : Nat) (s : State) : Out :=
  event (scratchpadSaveOn s k task) "SCRATCHPAD_SAVE" (fun s =>
    match resAt s k (BitVec.ofNat 12 task) with
    | some r => (saveRegion k r s).1
    | none => s) s

def scratchpadRestoreOn (s : State) (k task : Nat) : Bool :=
  let t := BitVec.ofNat 12 task
  !heldOn s (.region k t) && (resAt s k t).any (fun r => wants s k r && (leftIn s k r).isEmpty &&
    (coreOf s k).res.all (fun x => !meets r x || x.saved))

/-- SCRATCHPAD_RESTORE: before the next dispatch of the launch on the core; a region that has never been in place reads
zero. -/
def execScratchpadRestore (k task : Nat) (s : State) : Out :=
  let t := BitVec.ofNat 12 task
  event (scratchpadRestoreOn s k task) "SCRATCHPAD_RESTORE" (fun s =>
    let here (x : Resident) : Resident := { x with saved := false, blank := false, drained := false, signals := [] }
    let signed (r : Resident) (c : Core) : Core := { c with signals := c.signals ++ r.signals.map (fun g => r.base / 8 + g) }
    match resAt s k t, launchOf s t with
    | some r, some l =>
      if r.blank then updCore k (fun c => (zeroSpad r.base (2 ^ r.logspad) c).updRes t here) s
      else
        match runRegion (.region k t) l (some k) 0 (rRead l (some k) (saveVa l k) (2 ^ r.logspad)) s with
        | (s1, some bs) => updCore k (fun c => (signed r (c.spadWrite r.base r.logspad 0 bs)).updRes t here) s1
        | (s1, none) => s1
    | _, _ => s) s

def drainCompleteOn (s : State) (k : Nat) : Bool :=
  let g := (coreOf s k).regs
  g.drain && victimIdle s k g.dtask && !heldOn s (.region k g.dtask) &&
    (!g.drained || (resAt s k g.dtask).any (fun r => !r.drained))

/-- DRAIN_COMPLETE: DRAINED becomes 1; the region of the drained task is saved and freed (15 R366). -/
def execDrainComplete (k : Nat) (s : State) : Out :=
  event (drainCompleteOn s k) "DRAIN_COMPLETE" (fun s =>
    let task := (coreOf s k).regs.dtask
    let s1 := updCore k (fun c => { c with regs := { c.regs with drained := true } }) s
    let freed (s : State) : State := updCore k (fun c => c.updRes task (fun x => { x with drained := true })) s
    match resAt s1 k task with
    | none => s1
    | some r =>
      if r.saved then freed s1
      else match saveRegion k r s1 with
        | (s2, true) => freed s2
        | (s2, false) => s2) s

/-! ## Events (06 R132, R133, R141) -/

/-- The VA of an event entry. -/
def eventVa (l : Launch) (id : Nat) : W64 := l.events + w64 (512 * (2 ^ l.eventlog * (id / 2 ^ 14) + id % 2 ^ 14))

/-- Whether an event id names an event of the launch. -/
def eventOk (s : State) (l : Launch) (id : Nat) : Bool :=
  l.events != 0 && id % 2 ^ 14 < 2 ^ l.eventlog && !(spart s && id / 2 ^ 14 ≥ 2)

/-- The 96 bytes of an inline waiter. -/
def waiterBytes (m : Msg) : List Byte := (bytesOf [m.w0, m.w1, m.w2, m.w3] ++ bytesOf m.words).take 96

/-- Words 0 to 3 of an entry. -/
abbrev EvHead := W64 × W64 × W64 × W64

def evCount (h : EvHead) : Nat := bits h.1 0 32
def evTarget (h : EvHead) : Nat := bits h.1 32 31
def evArmed (h : EvHead) : Bool := bit h.1 63

/-- The entry after an arm or a signal. -/
def evApply (op : EvOp) (h : EvHead) : EvHead :=
  match op with
  | .arm t => (setBits (setBits h.1 32 31 t) 63 1 1, h.2)
  | .sig v => (setBits h.1 0 32 (evCount h + v), h.2)
  | _ => h

/-- A registration: inline while there is room, else its reserved slot is the new tail. -/
def evRegister (slot : W64) (h : EvHead) : EvHead :=
  let (w0, w1, head, tail) := h
  if bits w1 0 3 < 4 then (w0, setBits w1 0 3 (bits w1 0 3 + 1), head, tail)
  else (w0, setBits w1 3 29 (bits w1 3 29 + 1), if bits w1 3 29 == 0 then slot else head, slot)

/-- Whether the event fires, and the entry after it. -/
def evFires (h : EvHead) : Bool := evArmed h && evTarget h ≤ evCount h
def evFired (h : EvHead) : EvHead :=
  (setBits (setBits h.1 0 32 (evCount h - evTarget h)) 63 1 0, w64 (((bits h.2.1 32 32 + 1) % 2 ^ 32) * 2 ^ 32), 0, 0)

/-- The waiter that an operation registers. -/
def newWaiter (e : EvReq) : List Waiter :=
  match e.op with
  | .send m slot => [{ task := e.task, id := e.id, core := e.core, ctx := e.ctx, inc := e.inc, msg := m, slot := slot }]
  | _ => []

/-- The waiters of an event, in registration order from number `i` on, with their messages read back: four stand in the entry, each
other in its reserved slot (15 R425). -/
def readWaiters (l : Launch) (va : W64) : Nat → List Waiter → RegM (List Waiter)
  | _, [] => pure []
  | i, w :: ws => do
    let bs ← if i < 4 then rRead l none (va + w64 (0x40 + 96 * i)) 96
      else rRead l (some w.core) (outSlotVa l w.core (w.slot.getD 0)) 160
    let rest ← readWaiters l va (i + 1) ws
    pure ({ w with msg := slotMsg w.msg bs } :: rest)

/-- One operation on an event: the waiters that go, when it fires, and word 0 of the entry after it. -/
def evRun (l : Launch) (e : EvReq) : RegM (List Waiter × W64) := do
  let va := eventVa l e.id
  let bs ← rRead l none va 32
  let w (i : Nat) : W64 := wordAt (wordsOf 4 bs) i
  let h0 : EvHead := (w 0, w 1, w 2, w 3)
  let h1 ← (match e.op with
    | .send m slot => do
      let sva := outSlotVa l e.core (slot.getD 0)
      if bits h0.2.1 0 3 < 4 then rWrite l none (va + w64 (0x40 + 96 * bits h0.2.1 0 3)) (waiterBytes m)
      else rWrite l (some e.core) sva (slotBytes m)
      pure (evRegister sva h0)
    | op => pure (evApply op h0))
  let fires := evFires h1
  let h2 := if fires then evFired h1 else h1
  modify (fun s => { s with waiters := s.waiters ++ newWaiter e })
  let s ← get
  let out ← if fires then readWaiters l va 0 (s.waiters.filter (fun w => w.task == e.task && w.id == e.id)) else pure []
  rWrite l none va (bytesOf [h2.1, h2.2.1, h2.2.2.1, h2.2.2.2])
  pure (out, h2.1)

/-- A released message is handed to its core's interface, which gives it a message id and offers it from its slot. -/
def releaseWaiter (w : Waiter) (s : State) : State :=
  if (resAt s w.core w.task).isNone then s
  else
    let c := ctxOf s w.core w.ctx.toNat
    let seq := nextSeq c
    let m := { w.msg with w2 := setBits w.msg.w2 8 10 seq }
    updCore w.core (fun x =>
      { x with out := x.out ++ [{ num := x.outNum, task := w.task, ctx := w.ctx, inc := w.inc, msg := m, slots := w.slot.toList,
                                  after := [], seq := seq, st := .unwritten, left := max 1 (targetsOf s w.task m.w0).length,
                                  sent := 0 }],
               outNum := x.outNum + 1, reserve := x.reserve.filter (fun p => !(w.slot == some p.1 && p.2 == w.task)) })
      (updCtx w.core w.ctx.toNat (fun x => { x with seq := x.seq + 1 }) s)

/-- The waiters of an event go, in registration order. -/
def releaseAll (task : BitVec 12) (id : Nat) (ws : List Waiter) (s : State) : State :=
  if ws.isEmpty then s
  else ws.foldl (fun s w => releaseWaiter w s) { s with waiters := s.waiters.filter (fun w => !(w.task == task && w.id == id)) }

/-- BADEVENT: the operation is discarded with a record; a deferred message gives back its slot and credit, and its activation awaits
no ADMIT for it (assumption 78). -/
def badEvent (l : Launch) (e : EvReq) (s : State) : State :=
  let who : ErrWho := { x := 0, y := 0, die := e.id / 2 ^ 14, ctx := 0, inc := 0 }
  let s1 := errRecord l.task 0x12 false false who 0 (w64 e.id) 0 0 0 s
  match e.op with
  | .send m slot =>
    let s2 := updCore e.core (fun c => { c with reserve := c.reserve.filter (fun p => !(slot == some p.1 && p.2 == e.task)) }) s1
    let s3 := if mPri m.w0 then credit e.core e.task 1 s2 else s2
    if mMode m.w0 == 2 && isLive s3 e.core e.ctx.toNat e.inc.toNat e.task then
      updActivation e.core e.ctx.toNat e.inc.toNat (fun x => { x with m2wait := x.m2wait - 1 }) s3
    else s3
  | _ => s1

/-- The reply of a read reaches its context. -/
def evReply (e : EvReq) (v : W64) (s : State) : State :=
  updCtx e.core e.ctx.toNat (fun x =>
    if x.inc == e.inc && (match x.status with
      | .waiting (.eventRead _ _) => true
      | _ => false) then { x with got := some v } else x) s

/-- An operation at its event unit. -/
def runEvent (e : EvReq) (s : State) : State :=
  let drop (s : State) : State := { s with evq := s.evq.filter (fun x => x.num != e.num) }
  match launchOf s e.task with
  | none => drop s
  | some l =>
    if !eventOk s l e.id then badEvent l e (drop s)
    else match runRegion (.event e.num) l none 0 (evRun l e) s with
      | (s1, none) => s1
      | (s1, some (out, w)) => releaseAll e.task e.id out (if e.op == .read then evReply e w (drop s1) else drop s1)

/-- Operations of one context on one event arrive in post order, behind the stores that they release (06 R133, R134). -/
def eventOpOn (s : State) (x : Nat) : Bool :=
  s.evq.any (fun e => e.num == x && storesDone s (coreOf s e.core) e.after && !heldOn s (.event x) &&
    !s.evq.any (fun f => f.num < x && f.task == e.task && f.id == e.id && f.core == e.core && f.ctx == e.ctx))

/-- EVENT_OP. -/
def execEventOp (x : Nat) (s : State) : Out :=
  event (eventOpOn s x) "EVENT_OP" (fun s =>
    match s.evq.find? (fun e => e.num == x) with
    | some e => runEvent e (releaseFrom e.core s)
    | none => s) s

/-! ## Steals (06 R135) -/

/-- The answer of a victim: an owed class 2 bulk message of 32 bytes for each record, or an empty one (05 R424). -/
def stealMsg (s : State) (t : Steal) (recs : List (List W64)) : Msg :=
  let bs := recs.flatMap bytesOf
  { w0 := coreWord s 2 true 0 t.thief 0 0, w1 := 0,
    w2 := hdr2Core s t.task t.victim 0 0 0 (packets (!bs.isEmpty) bs.length - 1),
    w3 := hdr3 bs.length 0 false (!bs.isEmpty) 0, words := [], bulk := bs, dst := 0, ssite := 0 }

/-- STEAL_REQUEST: the victim yields records from its bottom, in an answer that is admitted as an owed message is
(05 R104). -/
def execStealRequest (t : Steal) (s : State) : Out :=
  event (s.steals.contains t) "STEAL_REQUEST" (fun s =>
    let q := (coreOf s t.victim).deque
    let n := q.recs.length
    let j := if q.task == t.task then min (n / 2) t.room else 0
    fly (stealMsg s t (q.recs.drop (n - j))) t.thief t.thief .steal false
      (updCore t.victim (fun c => { c with deque := { c.deque with recs := q.recs.take (n - j) } })
        { s with steals := s.steals.erase t })) s

/-- The records of 32 bytes in a payload. -/
def recordsOf (bs : List Byte) : List (List W64) :=
  (List.range (bs.length / 32)).map (fun i => wordsOf 4 ((bs.drop (32 * i)).take 32))

/-- What an answer that core `k` has admitted says. -/
def stealOf (k : Nat) (q : QMsg) : Steal :=
  { thief := k, victim := hCore q.msg.w2, task := hTask q.msg.w2, room := 0, recs := recordsOf q.msg.bulk }

/-- The answer of a core that says this. -/
def answerOf (s : State) (t : Steal) : Option QMsg := (coreOf s t.thief).answers.find? (fun q => stealOf t.thief q == t)

/-- An answer in overflow waits while the read of its slot waits (15 R425). -/
def stealAnswerOn (s : State) (t : Steal) : Bool :=
  (answerOf s t).any (fun a => a.store == .chip || !heldOn s (.slot t.thief t.task))

/-- STEAL_ANSWER: the records land at the thief's bottom, the reservation ends and the credit returns. Records of a launch
whose deque another launch has taken over meanwhile are dropped (assumption 22). -/
def execStealAnswer (t : Steal) (s : State) : Out :=
  event (stealAnswerOn s t) "STEAL_ANSWER" (fun s =>
    match answerOf s t, launchOf s t.task with
    | some a, some l =>
      let land (q : Deque) : Deque :=
        let own := q.task == t.task || q.recs.isEmpty
        { q with task := if own then t.task else q.task, recs := if own then q.recs ++ t.recs else q.recs, pend := false,
                 room := 0, last := t.recs.length }
      match storeRead l t.thief true a s with
      | (s1, some _) => returnOwed t.thief a (updCore t.thief (fun c => { c with deque := land c.deque, answers := c.answers.erase a }) s1)
      | (s1, none) => s1
    | _, _ => s) s

/-! ## Group barriers (06 R136) -/

/-- The combine of two members' values. -/
def groupCombine (op : Nat) (a b : W64) : W64 :=
  match op with
  | 0 => a &&& b
  | 1 => a ||| b
  | 2 => a + b
  | 3 => if a.toNat < b.toNat then b else a
  | 4 => ((maxmin32 true (a.setWidth 32) (b.setWidth 32)).1).setWidth 64
  | _ => ((maxmin32 false (a.setWidth 32) (b.setWidth 32)).1).setWidth 64

/-- The value of a round: the members' values by rank. -/
def roundValue (op : Nat) (arr : List Arrival) (n : Nat) : W64 :=
  let vals := (List.range n).filterMap (fun r => (arr.find? (fun a => a.rank == r)).map (fun a => a.value))
  let first (v : W64) : W64 := if op ≥ 4 then v &&& 0xFFFFFFFF else v
  match vals with
  | [] => 0
  | v :: vs => vs.foldl (groupCombine op) (first v)

/-- The release of one member (06 R136; its header word 2 by 05 R424). -/
def groupRelease (die num : Nat) (v w1 : W64) (a : Arrival) (s : State) : State :=
  let w0 := coreWord s 2 true (if a.wait then 2 else 0) a.core (if a.wait then a.ctx.toNat else 0) (if a.wait then a.inc.toNat else 0)
  fly (unitMsg w0 a.pc (hdr2 s a.task die 0 0 0 0 num 0) [v, w1]) a.core a.core .unit true s

/-- A round closes: each member receives its release. DESIGN CHOICE: under CONFLICT the op field of the release is 0
(assumption 134). -/
def closeRound (die : Nat) (r : Round) (n : Nat) (s : State) : State :=
  let op := (r.arr.head?.map (fun a => a.op)).getD 0
  let conflict := r.arr.any (fun a => a.op != op)
  let v := if conflict then 0 else roundValue op r.arr n
  let w1 := w64 (r.code + (if conflict then 0 else op) * 2 ^ 12 + toBit conflict * 2 ^ 15 + r.num % 2 ^ 32 * 2 ^ 32)
  r.arr.foldl (fun s a => groupRelease die r.num v w1 a s) { s with rounds := s.rounds.filter (fun x =>
    !(x.task == r.task && x.code == r.code && x.num == r.num)) }

/-- The number of the next round of a subgroup; the first is 0 (assumption 24). -/
def nextRound (s : State) (task : BitVec 12) (code : Nat) : Nat :=
  ((s.roundNum.find? (fun p => p.1 == task && p.2.1 == code)).map (fun p => p.2.2)).getD 0

/-- An arrival joins the oldest round that its member has not joined, or opens the next one. -/
def joinRound (a : Arrival) (s : State) : State × Round :=
  match s.rounds.find? (fun r => r.task == a.task && r.code == a.code && r.arr.all (fun b => b.rank != a.rank)) with
  | some r =>
    let r1 := { r with arr := r.arr ++ [a] }
    ({ s with rounds := replaceFirst (fun x => x.task == r.task && x.code == r.code && x.num == r.num) (fun _ => r1) s.rounds }, r1)
  | none =>
    let n := nextRound s a.task a.code
    let r1 : Round := { task := a.task, code := a.code, num := n, arr := [a] }
    ({ s with rounds := s.rounds ++ [r1],
              roundNum := s.roundNum.filter (fun p => !(p.1 == a.task && p.2.1 == a.code)) ++ [(a.task, a.code, n + 1)] }, r1)

/-- The arrivals that can join now: those of one member join in the order in which it made them. -/
def firstArrivals (s : State) : List Arrival :=
  s.arrivals.foldl (fun acc a =>
    if acc.any (fun b => b.task == a.task && b.code == a.code && b.rank == a.rank) then acc else acc ++ [a]) []

/-- GROUP_ARRIVAL. -/
def execGroupArrival (t : Arrival) (s : State) : Out :=
  event ((firstArrivals s).contains t) "GROUP_ARRIVAL" (fun s =>
    let s0 := { s with arrivals := s.arrivals.erase t }
    match launchOf s0 t.task with
    | none => s0
    | some l =>
      let n := (subCores l t.code).length
      match joinRound t s0 with
      | (s1, r) => if r.arr.length == n then closeRound (coreDie t.core) r n s1 else s1) s

end Sys2Proof.Machine
end

