-- ==== Sys2Proof/Machine/Digest.lean ====
section
/-! DEFINITION. The SHA3-512 digest of FIPS 202, which 00 R6 names for images and measurements: the permutation
KECCAK-f[1600] on 25 lanes of 64 bits, kecLane (x, y) at index x + 5 y, and the sponge of rate 576 bits. -/
namespace Sys2Proof.Machine

/-- A kecLane of the state array. -/
def kecLane (a : List W64) (x y : Nat) : W64 := a.getD (x % 5 + 5 * (y % 5)) 0

/-- A state array from a function of x and y. -/
def lanes (f : Nat → Nat → W64) : List W64 := (List.range 25).map (fun i => f (i % 5) (i / 5))

/-- FIPS 202 theta: each kecLane with the parities of two columns. -/
def keccakTheta (a : List W64) : List W64 :=
  let c := (List.range 5).map (fun x => kecLane a x 0 ^^^ kecLane a x 1 ^^^ kecLane a x 2 ^^^ kecLane a x 3 ^^^ kecLane a x 4)
  let d := (List.range 5).map (fun x => c.getD ((x + 4) % 5) 0 ^^^ (c.getD ((x + 1) % 5) 0).rotateLeft 1)
  lanes (fun x y => kecLane a x y ^^^ d.getD x 0)

/-- The offsets of FIPS 202 rho, by index. -/
def rhoOffsets : List Nat :=
  [0, 1, 62, 28, 27, 36, 44, 6, 55, 20, 3, 10, 43, 25, 39, 41, 45, 15, 21, 8, 18, 2, 61, 56, 14]

/-- FIPS 202 rho and pi: the lanes turn, then move. -/
def keccakRhoPi (a : List W64) : List W64 :=
  let r := (a.zip rhoOffsets).map (fun p => p.1.rotateLeft p.2)
  lanes (fun x y => kecLane r (x + 3 * y) x)

/-- FIPS 202 chi: the nonlinear step along x. -/
def keccakChi (a : List W64) : List W64 :=
  lanes (fun x y => kecLane a x y ^^^ ((kecLane a (x + 1) y ^^^ BitVec.allOnes 64) &&& kecLane a (x + 2) y))

/-- The round constants of FIPS 202 iota. -/
def roundConsts : List W64 :=
  [0x1, 0x8082, 0x800000000000808A, 0x8000000080008000, 0x808B, 0x80000001, 0x8000000080008081, 0x8000000000008009,
   0x8A, 0x88, 0x80008009, 0x8000000A] ++
  [0x8000808B, 0x800000000000008B, 0x8000000000008089, 0x8000000000008003, 0x8000000000008002, 0x8000000000000080,
   0x800A, 0x800000008000000A, 0x8000000080008081, 0x8000000000008080, 0x80000001, 0x8000000080008008]

/-- One round. -/
def keccakRound (a : List W64) (rc : W64) : List W64 :=
  let b := keccakChi (keccakRhoPi (keccakTheta a))
  b.mapIdx (fun i v => if i == 0 then v ^^^ rc else v)

/-- KECCAK-f[1600]. -/
def keccakF (a : List W64) : List W64 := roundConsts.foldl keccakRound a

/-- The message with the suffix 01 of the SHA-3 functions and the padding 10*1, to a multiple of 72 bytes. -/
def sha3Pad (m : List Byte) : List Byte :=
  let n := 72 - m.length % 72
  m ++ (if n == 1 then [0x86] else 0x06 :: List.replicate (n - 2) 0 ++ [0x80])

/-- Absorb blocks of 72 bytes. -/
def absorb : Nat → List W64 → List Byte → List W64
  | 0, a, _ => a
  | n + 1, a, m =>
    let block := wordsOf 9 (m.take 72)
    absorb n (keccakF (a.mapIdx (fun i v => v ^^^ block.getD i 0))) (m.drop 72)

/-- SHA3-512 (FIPS 202): 64 bytes. -/
def sha3 (m : List Byte) : List Byte :=
  let p := sha3Pad m
  (bytesOf (absorb (p.length / 72) (List.replicate 25 0) p)).take 64

end Sys2Proof.Machine
end

