-- ==== Sys2Proof/Machine/AgentHost.lean ====
section
/-! DEFINITION. The host attachment, the bring-up, attestation, the monitors and the module (16 R376 to R390). -/
namespace Sys2Proof.Machine

/-- Change the host side. -/
def updHost (f : HostSide → HostSide) (s : State) : State := { s with host := f s.host }

/-! ## Apertures (16 R376) -/

/-- An aperture. -/
def apertureOf (s : State) (ap : Nat) : Aperture := s.host.apertures.get ⟨ap % 16, Nat.mod_lt _ (by decide)⟩

/-- The request of a host access through an aperture: at user level, of the page size class. -/
def apertureReq (a : Aperture) (write : Bool) (va : W64) : Req :=
  { va := va, asid := a.asid, sub := false, rd := !write, wr := write, fetch := false, user := true }

/-- A host read returns the bytes that have become visible in SYS scope (08 R177); uncorrectable ones are free values
(assumption 33). -/
def hostBytes (s : State) (ks : List Nat) : List Byte × State :=
  (ks.mapIdx (fun i k => if s.poison.contains k then Config.freeByte (s.freeNum + i) else sysByte s k),
   { s with freeNum := s.freeNum + ks.length })

/-- The end of a host access that is performed. -/
def hostAccess (ks : List Nat) (write : Bool) (data : List Byte) (s : State) : State :=
  if write then performOutside (ks.zip data) s
  else
    let r := hostBytes s ks
    { r.2 with egress := r.2.egress ++ [.hostRead r.1] }

/-- A faulting host access reads as all ones or is discarded, and is reported. -/
def hostFault (ap : Nat) (write : Bool) (n : Nat) (s : State) : State :=
  hostReport (.apertureFault ap) (if write then s else { s with egress := s.egress ++ [.hostRead (List.replicate n 0xFF)] })

/-- HOST_APERTURE_ACCESS: the access waits for its walk, which opens no fault for the host. -/
def execHostApertureAccess (ap off : Nat) (write : Bool) (data : List Byte) (s : State) : Out :=
  let a := apertureOf s ap
  .next (if !(ap < 16 && off + data.length ≤ 2 ^ 32) || holdFailed s (.aperture ap) then
      hostFault ap write data.length (unhold (.aperture ap) s)
    else match rangeKeys s (apertureReq a write) (pieces (a.va + w64 off) data.length) with
      | .ok ks => hostAccess ks write data s
      | .error (q, .miss) => agentWalk (.aperture ap) (engineOf (dieCore (vaDie q.va)) 0) true q s
      | .error _ => hostFault ap write data.length s)

/-! ## The watch table (16 R378, R379) -/

/-- An entry of the watch table. -/
def watchAt (s : State) (i : Nat) : HostWatch := alGet s.host.watches i
  { w0 := 0, w1 := 0, w2 := 0, w3 := 0, place := none, arg := 0, caddr := 0 }

/-- Change an entry. -/
def setWatch (i : Nat) (w : HostWatch) (s : State) : State := updHost (fun h => { h with watches := alPut h.watches i w }) s

/-- The request with which an arm translates its address. -/
def watchReq (va w2 : W64) : Req :=
  { va := va, asid := bits w2 48 16, sub := bit w2 15, rd := true, wr := false, fetch := false, user := true }

/-- The translation of an arm; `.invalid`: refused. -/
def watchPlace (s : State) (va w2 : W64) : XRes :=
  if va.toNat % 8 != 0 || vaAccel va != s.accel.toNat || vaDie va > 5 then .invalid else xlate s (watchReq va w2)

/-- A write of word 2: BAD and FIRES stay, and ARMED arms the entry, behind the walk of its address. -/
def armWatch (i : Nat) (v : W64) (s : State) : State :=
  let w := watchAt s i
  let w2 := setBits (setBits v 3 1 (bits w.w2 3 1)) 16 32 (bits w.w2 16 32)
  let refuse (s : State) : State := setWatch i { w with w2 := setBits (setBits w2 2 1 0) 3 1 1, place := none } s
  if !bit v 2 then setWatch i { w with w2 := w2, place := none } s
  else if holdFailed s (.watch i) then refuse (unhold (.watch i) s)
  else match watchPlace s w.w0 w2 with
    | .invalid => refuse s
    | .miss => agentWalk (.watch i) (engineOf (dieCore (vaDie w.w0)) 0) true (watchReq w.w0 w2) s
    | .ok key _ =>
      let w' : HostWatch := { w with w2 := setBits w2 3 1 0, place := some key, arg := w.w1, caddr := w.w3 }
      evalHostWatch (setWatch i w' s) (i, w')

/-- A write of word 0, 1 or 3, which takes effect at the next arm, or of word 2. -/
def writeWatch (i word : Nat) (v : W64) (s : State) : State :=
  let w := watchAt s i
  match word with
  | 0 => setWatch i { w with w0 := v } s
  | 1 => setWatch i { w with w1 := v } s
  | 2 => armWatch i v s
  | _ => setWatch i { w with w3 := v } s

/-- The word of an entry as the host reads it. -/
def watchWord (w : HostWatch) (word : Nat) : W64 :=
  match word with
  | 0 => w.w0
  | 1 => w.w1
  | 2 => w.w2
  | _ => w.w3

/-- The offset of a word of an entry in the register BAR. -/
def watchOff (i word : Nat) : Nat := 0x10000 + 32 * i + 8 * word

/-- The entry and the word that an offset of the register BAR names. -/
def barWatch (off : Nat) : Option (Nat × Nat) :=
  if 0x10000 ≤ off && off < 0x12000 && off % 8 == 0 then some ((off - 0x10000) / 32, off / 8 % 4) else none

/-- A write of the register BAR at an offset that the manual gives. -/
def barWrite (off : Nat) (v : W64) (s : State) : State :=
  match barWatch off with
  | some (i, word) => writeWatch i word v s
  | none => s

/-- The bytes that a host read returns. -/
def hostRead (bs : List Byte) (s : State) : State := { s with egress := s.egress ++ [.hostRead bs] }

/-- A read of the register BAR at an offset; where the manual names no register, the bytes are free values (assumption 33). -/
def barRead (off : Nat) (s : State) : State :=
  match barWatch off with
  | some (i, word) => hostRead (bytesOf [watchWord (watchAt s i) word]) s
  | none => hostRead ((List.range 8).map (fun i => Config.freeByte (s.freeNum + i))) { s with freeNum := s.freeNum + 8 }

/-- WATCH_TABLE_ARM: the host writes word 2 of an entry. -/
def execWatchTableArm (x : Nat) (w2 : W64) (s : State) : Out := .next (if x < 256 then barWrite (watchOff x 2) w2 s else s)

/-! ## Monitors (16 R389) -/

/-- Change a monitor of a die. -/
def updMon (die i : Nat) (f : Monitor → Monitor) (s : State) : State :=
  if die < 6 && i < 16 then updHost (fun h => { h with monitors := alPut h.monitors (monNo die i) (f (monAt s (monNo die i))) }) s else s

/-- The bin of a sample. -/
def binNo (v : Nat) : Nat := if v == 0 then 0 else min 31 (Nat.log2 v + 1)

/-- A sample of a source is captured, if the monitor still captures that source. -/
def capture (src v : Nat) (m : Monitor) : Monitor :=
  if bit m.ctl 4 && bits m.ctl 0 4 == src then
    let b := binNo v
    let n := alGet m.bins b 0
    { m with mmin := if v < m.mmin.toNat then w64 v else m.mmin, mmax := if m.mmax.toNat < v then w64 v else m.mmax,
             bins := alPut m.bins b (if n == BitVec.allOnes 32 then n else n + 1) }
  else m

/-- Whether a monitor captures what comes from outside the machine: the hotspot temperature and the HBM read latency. -/
def monOutside (s : State) (die x : Nat) : Bool :=
  bits (monAt s (monNo die x)).ctl 0 4 == 4 || bits (monAt s (monNo die x)).ctl 0 4 == 5

/-- MONITOR_SAMPLE: a monitor captures a sample that an event of the machine has left for it, or one from outside. -/
def execMonitorSample (die x value : Nat) (s : State) : Out :=
  let src := bits (monAt s (monNo die x)).ctl 0 4
  .next (match s.host.samples.find? (fun p => p.die == die && p.mon == x && p.value == value) with
    | some p => updMon die x (capture p.src value) (updHost (fun h => { h with samples := h.samples.erase p }) s)
    | none => if monOutside s die x then updMon die x (capture src value) s else s)

/-- A register of a monitor as it is read: MCTL, MMIN, MMAX, then the bins. -/
def monWord (m : Monitor) (word : Nat) : W64 :=
  match word with
  | 0 => m.ctl
  | 1 => m.mmin
  | 2 => m.mmax
  | b => (alGet m.bins (b - 3) 0).setWidth 64

/-! ## Register writes -/

/-- DBG as a write through the management path leaves it (15 R364). -/
def writeDbg (k : Nat) (v : W64) (s : State) : State :=
  updCore k (fun c => { c with regs := dbgAfter c.regs (bit v 0) (bit v 2) (BitVec.ofNat 12 (bits v 16 12)) }) s

/-- The host event ring is placed: the reports that waited for it are written. -/
def placeRing (base : Nat) (s : State) : State :=
  s.host.reports.foldl (fun s r => hostReport r s) (updHost (fun h => { h with eventRing := base, reports := [] }) s)

/-- Set an aperture. -/
def setAperture (i : Nat) (a : Aperture) (h : HostSide) : HostSide :=
  { h with apertures := h.apertures.set (i % 16) a (Nat.mod_lt _ (by decide)) }

/-- HOST_REGISTER_WRITE: a register of the register BAR or of the management path, and what else the host side does. -/
def execHostRegisterWrite (r : HostReg) (s : State) : Out :=
  .next (match r with
    | .aperture i va asid =>
      if i < 16 then updHost (setAperture i { va := setBits va 0 32 0, asid := asid }) s else s
    | .bar off v => barWrite off v s
    | .barRead off => barRead off s
    | .monRead die i word => hostRead (bytesOf [monWord (monAt s (monNo die i)) word]) s
    | .debugRead k => hostRead (bytesOf [dbgWord (focusCore k s)]) s
    | .hostMemory pa data => performOutside (cellsAt (physKey 6 pa) data) s
    | .cxlPoison die pa n => if die == 4 || die == 5 then poisonCells s ((List.range n).map (fun i => physKey die (pa + i))) else s
    | .monCtl die i v => updMon die i (fun m => { m with ctl := v &&& 0x3FF1F }) s
    | .monMin die i v => updMon die i (fun m => { m with mmin := v }) s
    | .monMax die i v => updMon die i (fun m => { m with mmax := v }) s
    | .monBin die i b v => if b < 32 then updMon die i (fun m => { m with bins := alPut m.bins b v }) s else s
    | .eventRing base => placeRing base s
    | .asidDirectory die base => setRetort s die { retortOf s die with dir := base }
    | .faultRing die base va notify pc => setRetort s die { retortOf s die with ring := base, ringVa := va, notify := notify, notifyPc := pc }
    | .moduleId accel site => { s with accel := BitVec.ofNat 10 accel, site := BitVec.ofNat 16 site }
    | .debug k v => writeDbg k v s
    | .retrainPort port => if (portAt s port).up then s else setPort port { portAt s port with retrain := true } s
    | .clearJournal => updHost (fun h => { h with journal := [], journalAt := 0, defects := HostSide.reset.defects }) s)

/-! ## Drives (16 R380) -/

/-- DRIVE_GRANT: a handle is bound to a namespace of a block size, at a drive with a maximum transfer. -/
def execDriveGrant (h : Nat) (block : Namespace) (s : State) : Out :=
  .next (if h < 64 && (block.block == 512 || block.block == 4096) then
      updHost (fun x => { x with drives := x.drives.filter (fun d => d.handle != h) ++
        [{ handle := h, block := block.block, most := block.most, die := block.die % 4, queue := block.queue, tail := 0, head := 0 }] }) s
    else s)

/-- A command of a revoked drive whose reads had not all been submitted ends with NODRIVE once those submitted are done. -/
def revokeCmd (s : State) (r : DriveRead) : State :=
  if r.expert.isSome then s
  else if s.host.reads.any (fun x => x.core == r.core && x.cmd == r.cmd && x.expert.isNone) then orStatus r.core 1 r.cmd csNodrive s
  else endCmd r.core 1 r.cmd csNodrive s

/-- DRIVE_REVOKE: commands already submitted to the drive complete. -/
def execDriveRevoke (h : Nat) (s : State) : Out :=
  .next (let gone := s.host.reads.filter (fun r => r.handle == h && !r.sent)
    gone.foldl revokeCmd (updHost (fun x =>
      { x with drives := x.drives.filter (fun d => d.handle != h), reads := x.reads.filter (fun r => r.handle != h || r.sent) }) s))

/-! ## Reset and power (16 R382, R383) -/

/-- What a device reset leaves: every field at its reset value; memory, the trained ports, FEAT, the identity that boot
gave, and the non-volatile store stay (assumption 34). -/
def resetDevice (s : State) : State :=
  { State.reset with
    mem := s.mem, poison := s.poison, feat := s.feat, fenced := s.fenced, accel := s.accel, site := s.site, inputs := s.inputs,
    egress := s.egress, clk := s.clk, tick := s.tick, freeNum := s.freeNum,
    fab := { State.reset.fab with ports := s.fab.ports.map (fun p => (p.1, { p.2 with score := 0 })) },
    host := { HostSide.reset with journal := s.host.journal, journalAt := s.host.journalAt, defects := s.host.defects,
                                  reports := s.host.reports, recovery := s.host.recovery, running := s.host.running,
                                  image := s.host.image, rom := s.host.rom, fuses := s.host.fuses, identity := s.host.identity,
                                  stackRates := s.host.stackRates, ueDown := s.host.ueDown } }

/-- DEVICE_RESET. -/
def execDeviceReset (s : State) : Out := .next (resetDevice s)

/-- The clusters of a die. -/
def dieClusters (d : Nat) : List (Nat × Nat) :=
  (List.range 64).map (fun i => (8 * (d % 2) + i % 8, 8 * (d / 2 % 2) + i / 8))

/-- The clusters that the non-volatile store fences: those that failed, and those of a die with a stack that failed at the
lowest rate. -/
def fencedBy (d : Defects) : List (Nat × Nat) :=
  (d.hbm.filter (fun p => 3 ≤ p.2)).flatMap (fun p => dieClusters (p.1 / 2)) ++ d.clusters

/-- The machine without power: the non-volatile store stays, and with it the fences and the rates. -/
def powerOff (s : State) : State :=
  let s1 := resetDevice s
  { s1 with mem := [], poison := [], fenced := s.fenced.filter (fencedBy s.host.defects).contains,
            host := { s1.host with running := false, recovery := false } }

/-- A record enters the journal. -/
def journalAdd (r : JournalRec) (s : State) : State :=
  updHost (fun h => { h with journal := (h.journal ++ [r]).drop (h.journal.length - 255), journalAt := (h.journalAt + 1) % 256 }) s

/-- The latest record of a step. -/
def lastRec (s : State) (step : Nat) : Option JournalRec := s.host.journal.reverse.find? (fun r => r.step == step)

/-- Whether a step counts as failed: no end record, or one that shows failure. -/
def failedStep (s : State) (step : Nat) : Bool := (lastRec s step).any (fun r => r.ok != some true)

/-- The variant of a step at this start. -/
def nextVariant (s : State) (step : Nat) : Nat :=
  match lastRec s step with
  | none => 0
  | some r => if r.ok == some true then r.variant else r.variant + 1

/-- The begin record of a step. -/
def beginStep (step : Nat) (s : State) : JournalRec :=
  { step := step, attempt := ((lastRec s step).map (fun r => r.attempt)).getD 0 + 1, variant := nextVariant s step, ok := none }

/-- POWER_LOSS: power fails, during a step of the bring-up when `step` is not 0. -/
def execPowerLoss (step : Nat) (s : State) : Out :=
  .next (powerOff (if 1 ≤ step && step ≤ 8 then journalAdd (beginStep step s) s else s))

/-- The bring-up goes on, or has stopped. -/
structure Boot where
  s : State
  go : Bool
  deriving DecidableEq, Repr

/-- One step with its journal records; `body` answers whether it succeeded and whether the bring-up goes on. -/
def bootStep (step : Nat) (body : State → Bool × Bool × State) (b : Boot) : Boot :=
  if !b.go then b
  else
    let r := beginStep step b.s
    let (ok, go, s1) := body (journalAdd r b.s)
    { s := journalAdd { r with ok := some ok } s1, go := go }

/-- Change the defects that the non-volatile store holds. -/
def updDefects (f : Defects → Defects) (s : State) : State := updHost (fun h => { h with defects := f h.defects }) s

/-- Fence clusters, each with its report. -/
def fenceClusters (cs : List (Nat × Nat)) (s : State) : State :=
  cs.foldl (fun s c => if s.fenced.contains c then s else hostReport (.fenced c.1 c.2) { s with fenced := s.fenced ++ [c] }) s

/-- Each unit of a list goes to its next lower rate. -/
def slower (ns : List Nat) (rates : List (Nat × Nat)) : List (Nat × Nat) := ns.foldl (fun m n => alPut m n (alGet m n 0 + 1)) rates

/-- The HBM stacks of the part. -/
def stackCount (r : BootReport) : Nat := if r.spart then 4 else 8

/-- A stack comes up at the rate left to it; a change is reported. -/
def trainStack (s : State) (n : Nat) : State :=
  let rate := alGet s.host.defects.hbm n 0
  let s1 := updHost (fun h => { h with stackRates := alPut h.stackRates n rate }) s
  if rate == alGet s.host.stackRates n 0 || 3 ≤ rate then s1 else hostReport (.stackRate n rate) s1

/-- Step 3: each stack is trained at its rate; a die with a stack that has failed at the lowest one is fenced. A failure
counts at the next start (assumption 111). -/
def trainStacks (r : BootReport) (s : State) : Bool × Bool × State :=
  let d := s.host.defects
  let s1 := fenceClusters (fencedBy { d with clusters := [] }) s
  let s2 := (List.range (stackCount r)).foldl trainStack s1
  let bad := r.stackFails.filter (fun n => n < stackCount r && alGet d.hbm n 0 < 3)
  (bad.isEmpty, bad.isEmpty, updDefects (fun d => { d with hbm := slower bad d.hbm }) s2)

/-- Step 4: a cluster that failed at an earlier start is fenced, one that fails now is from the next start on. -/
def testClusters (r : BootReport) (s : State) : Bool × Bool × State :=
  let s1 := fenceClusters s.host.defects.clusters s
  let bad := (r.clusterFails.map (fun n => (n % 16, n / 16 % 16))).filter (fun c => !s1.fenced.contains c)
  (bad.isEmpty, bad.isEmpty, updDefects (fun d => { d with clusters := d.clusters ++ bad }) s1)

/-- A scale-up port comes up at its rate, or stays down. -/
def trainPort (s : State) (p : Nat) : State :=
  let x := portAt s p
  let rate := alGet s.host.defects.ports p 0
  let up := rate < 3
  let s1 := setPort p { score := 0, rate := min rate 2, was := if up then rate else x.was, up := up, retrain := false } s
  let s2 := if up && rate != x.was then hostReport (.rate p rate) s1 else s1
  if up == x.up then s2 else hostReport (.portState p up) s2

/-- Step 5: the scale-up ports are trained, each at the rate left to it. -/
def trainPorts (r : BootReport) (s : State) : Bool × Bool × State :=
  let s1 := (List.range 64).foldl trainPort s
  let bad := r.portFails.filter (fun p => p < 64 && alGet s.host.defects.ports p 0 < 3)
  (bad.isEmpty, bad.isEmpty, updDefects (fun d => { d with ports := slower bad d.ports }) s1)

/-- The Ultra Ethernet ports come up but those left down; each change is reported. -/
def setUePorts (r : BootReport) (s : State) : State :=
  let down := s.host.defects.ue
  let moved := if r.spart then [] else (List.range 8).filter (fun p => down.contains p != s.host.ueDown.contains p)
  moved.foldl (fun s p => hostReport (.uePort p (!down.contains p)) s) (updHost (fun h => { h with ueDown := down }) s)

/-- Step 6: an Ultra Ethernet port that does not come up is left down, now and at later starts. -/
def bringUe (r : BootReport) (s : State) : Bool × Bool × State :=
  let bad := if r.spart then [] else r.ueFails.filter (fun p => p < 8 && !s.host.defects.ue.contains p)
  (bad.isEmpty, true, setUePorts r (updDefects (fun d => { d with ue := d.ue ++ bad }) s))

/-- Step 7: the CXL tier is absent when no device trains. -/
def findCxl (r : BootReport) (s : State) : Bool × Bool × State := (r.cxl, true, updDefects (fun d => { d with cxl := !r.cxl }) s)

/-- The feature word (16 R387). -/
def featWord (r : BootReport) (s : State) : W64 :=
  let d := s.host.defects
  let lost := ((List.range (stackCount r)).filter (fun n => 3 ≤ alGet d.hbm n 0)).length
  let nports := if r.spart then 0 else 8 - ((List.range 8).filter d.ue.contains).length
  w64 (toBit (!r.spart) + toBit r.decomp * 2 + toBit (!r.spart) * 4 + toBit (!d.cxl) * 8 + toBit r.spart * 16 +
    (stackCount r - lost) * 2 ^ 8 + s.fenced.length % 512 * 2 ^ 12 + (upPorts s).length * 2 ^ 21 + nports * 2 ^ 28)

/-- Step 8: the firmware launch starts at system level. -/
def startFirmware (r : BootReport) (s : State) : Bool × Bool × State :=
  match submit (.submit 0 0) { sys := true, asid := 0, cls := 3 } r.record s with
  | .status 0 s1 =>
    let t := (launchOfRecord r.record).task
    let ok := r.firmwareOk
    (ok, ok, if ok then { s1 with launches := s1.launches.map (fun l => if l.task == t then { l with firmware := true } else l) } else s)
  | _ => (false, false, s)

/-- The check of a firmware image (16 R382 step 2): its digest, and its signature under the key that the fuses name. -/
def imageGood (fuses image : List Byte) : Bool := Config.imageSigned fuses (sha3 image) image

/-- Whether the latest record of a step is a begin record: power was lost in it. -/
def brokenOff (s : State) (step : Nat) : Bool := (lastRec s step).any (fun r => r.ok.isNone)

/-- What a step in which power was lost leaves behind: it counts as failed (16 R383), for every unit that it was about. -/
def slowStacks (r : BootReport) (d : Defects) : Defects :=
  { d with hbm := slower ((List.range (stackCount r)).filter (fun n => alGet d.hbm n 0 < 3)) d.hbm }
def slowPorts (d : Defects) : Defects := { d with ports := slower ((List.range 64).filter (fun p => alGet d.ports p 0 < 3)) d.ports }

/-- A step, when its last run did not break off; else what that leaves behind, then the step. -/
def afterBreak (step : Nat) (f : Defects → Defects) (s0 : State) (body : State → Bool × Bool × State) (s : State) : Bool × Bool × State :=
  body (if brokenOff s0 step then updDefects f s else s)

/-- An optional step that failed is skipped, with what that leaves out; else it is done (16 R383). -/
def optionalStep (step : Nat) (skip : State → State) (body : State → Bool × Bool × State) (b : Boot) : Boot :=
  if b.go && failedStep b.s step then { b with s := skip b.s } else bootStep step body b

/-- A skipped step 6 leaves down the ports that failed, and every port when it broke off. -/
def skipUe (r : BootReport) (s : State) : State :=
  setUePorts r (if brokenOff s 6 then updDefects (fun d => { d with ue := List.range 8 }) s else s)

/-- The bring-up from step 1. -/
def bringUp (r : BootReport) (s : State) : Boot :=
  let good (s : State) : Bool := imageGood s.host.fuses s.host.image
  let b1 := bootStep 1 (fun s => (r.romOk, r.romOk, s)) { s := s, go := true }
  let b2 := bootStep 2 (fun s => (good s, good s, s)) b1
  let b3 := bootStep 3 (afterBreak 3 (slowStacks r) s (trainStacks r)) b2
  let b5 := bootStep 5 (afterBreak 5 slowPorts s (trainPorts r)) (bootStep 4 (testClusters r) b3)
  let b6 := optionalStep 6 (skipUe r) (bringUe r) b5
  let b7 := optionalStep 7 (updDefects (fun d => { d with cxl := true })) (findCxl r) b6
  let s7 := { b7.s with feat := if b7.go then featWord r b7.s else b7.s.feat, accel := BitVec.ofNat 10 r.accel, site := BitVec.ofNat 16 r.site }
  bootStep 8 (startFirmware r) { b7 with s := s7 }

/-- The Billet stage: after a failed step 1 the device stays in reset and reports on I3C; after a failed step 2 or 8 it
enters recovery. -/
def startUp (r : BootReport) (s : State) : State :=
  let s1 := updHost (fun h => { h with rom := r.rom, fuses := r.fuses, identity := r.identity }) (powerOff s)
  if failedStep s1 1 then { s1 with egress := s1.egress ++ [.i3c 1] }
  else if failedStep s1 2 || failedStep s1 8 then updHost (fun h => { h with recovery := true }) s1
  else
    let b := bringUp r s1
    updHost (fun h => { h with running := b.go }) b.s

/-- POWER_ON. -/
def execPowerOn (r : BootReport) (s : State) : Out := .next (startUp r s)

/-- RECOVERY_IMAGE_WRITE: an image that passes the check replaces the single image, and the device starts again with the
failures of steps 2 and 8 behind it (assumption 35). -/
def execRecoveryImageWrite (image : List Byte) (r : BootReport) (s : State) : Out :=
  let ok (step : Nat) : JournalRec := { step := step, attempt := 0, variant := 0, ok := some true }
  .next (if s.host.recovery && imageGood s.host.fuses image then
      startUp r (updHost (fun h => { h with image := image }) (journalAdd (ok 8) (journalAdd (ok 2) s)))
    else s)

/-! ## Attestation, temperature (16 R386, R390) -/

/-- What the digest of the journal state covers: the fenced clusters and the trained rates (assumption 3). -/
def journalBytes (s : State) : List Byte :=
  s.fenced.flatMap (fun c => [BitVec.ofNat 8 c.1, BitVec.ofNat 8 c.2]) ++
    s.host.defects.hbm.flatMap (fun p => [BitVec.ofNat 8 p.1, BitVec.ofNat 8 p.2]) ++
    s.fab.ports.flatMap (fun p => [BitVec.ofNat 8 p.1, BitVec.ofNat 8 p.2.rate, BitVec.ofNat 8 (toBit p.2.up)])

/-- What is measurement at an index. -/
def measurement (s : State) (x : Nat) : List Byte :=
  match x with
  | 1 => s.host.rom
  | 2 => s.host.image
  | 3 => s.host.fuses
  | _ => journalBytes s

/-- SPDM_GET_MEASUREMENTS: the answer is signed with the identity key. -/
def execSpdmGetMeasurements (x : Nat) (s : State) : Out :=
  let d := sha3 (measurement s x)
  .next (if 1 ≤ x && x ≤ 4 then
      { s with egress := s.egress ++ [.digest x d (Config.identitySignature s.host.identity x d s.freeNum)], freeNum := s.freeNum + 1 }
    else s)

/-- THERMAL_LIMIT: the hot die throttles, and the event is reported. -/
def execThermalLimit (die : Nat) (s : State) : Out :=
  .next (hostReport (.thermal die) (updHost (fun h => { h with hot := setInsert die h.hot }) s))

/-- TEMPERATURE_FALLS_BACK. -/
def execTemperatureFallsBack (die : Nat) (s : State) : Out :=
  .next (updHost (fun h => { h with hot := h.hot.filter (fun d => d != die) }) s)

end Sys2Proof.Machine
end

