-- ==== Sys2Proof/Machine/AgentMem.lean ====
section
/-! DEFINITION. The store buffers and the memory agents (08 R174 to R177). -/
namespace Sys2Proof.Machine

/-- A store leaves its buffer in order; one to the core's own die behind the stores before which it may not go. -/
def storeBufferDrainOn (s : State) (k x : Nat) : Bool :=
  let c := coreOf s k
  c.stores.head?.any (fun e => e.num == x && (e.die != coreDie k || mayPerform s c e))

/-- STORE_BUFFER_DRAIN: a store to the core's own die is performed as it leaves the buffer (08 R174); one to another die,
the host window or the CXL tier goes on its way there (08 R175). -/
def execStoreBufferDrain (k x : Nat) (s : State) : Out :=
  event (storeBufferDrainOn s k x) "STORE_BUFFER_DRAIN" (fun s =>
    match (coreOf s k).stores with
    | [] => s
    | e :: rest =>
      let s1 := updCore k (fun c => { c with stores := rest }) s
      if e.die == coreDie k then performStore e s1 else { s1 with transit := s1.transit ++ [e] }) s

/-- Whether two stores write a common byte. -/
def sameByte (a b : StoreEnt) : Bool := a.cells.any (fun c => b.cells.any (fun d => d.1 == c.1))

/-- The store that the agents have to perform next by their choice `x`: one on its way, once no earlier one of its core writes a
byte of it (08 R173) and those before which it may not go are performed; the write of an atomic, which follows its read at once
(07 R168), behind nothing. -/
def transitOn (s : State) (x : Nat) : Option StoreEnt :=
  (s.transit[x]?).filter (fun e => e.rmw ||
    (!(s.transit.take x).any (fun f => f.core == e.core && sameByte e f) && mayPerform s (coreOf s e.core) e))

/-- Whether two lags have a location in common. -/
def sameLag (a b : Lag) : Bool := a.cells.any (fun c => b.cells.any (fun d => d.1 == c.1))

/-- The performed store that becomes visible on a further die next by the choice `x`, behind the earlier ones to its bytes. -/
def lagOn (s : State) (x : Nat) : Option Lag :=
  (s.lag[x]?).filter (fun e => e.seen.isNone && !(s.lag.take x).any (fun f => f.die == e.die && f.seen.isNone && sameLag e f))

def memoryAgentRequestOn (s : State) (x : Nat) : Bool :=
  if x < s.transit.length then (transitOn s x).isSome else (lagOn s (x - s.transit.length)).isSome

/-- MEMORY_AGENT_REQUEST: the memory agent of a die performs a store (08 R175; 07 R170; 16 R379), or a performed store becomes
visible on a further die (08 R175). -/
def execMemoryAgentRequest (x : Nat) (s : State) : Out :=
  event (memoryAgentRequestOn s x) "MEMORY_AGENT_REQUEST" (fun s =>
    if x < s.transit.length then (match transitOn s x with
      | some e => (if e.rmw then fun s => perform s e.cells else performStore e) { s with transit := s.transit.eraseIdx x }
      | none => s)
    else match lagOn s (x - s.transit.length) with
      | some e => { s with lag := s.lag.set (x - s.transit.length) { e with seen := some s.clk } }
      | none => s) s

end Sys2Proof.Machine
end

