-- ==== Sys2Proof/Machine/AgentNet.lean ====
section
/-! DEFINITION. The network endpoint: sends, the sequence layer, landings, and its timers (13 R302 to R311). -/
namespace Sys2Proof.Machine

/-! ## Status words (13 R309) -/

def nsDataerr : W64 := 1
def nsFault : W64 := 2
def nsUnreach : W64 := 4
def nsNobuf : W64 := 8
def nsTrunc : W64 := 16
def nsDenied : W64 := 32

/-! ## Sends (13 R309) -/

/-- The parts of a send: its destination site and accelerator, queue, source and length. -/
structure SendParts where
  site : Nat
  accel : Nat
  rq : Nat
  src : Spot
  len : Nat
  deriving DecidableEq, Repr

/-- The parts of a command; site 0 is the own site. -/
def sendParts (s : State) (op : CmdOp) : Option SendParts :=
  match op with
  | .nsend glob dst src ctl =>
    let site := bits dst 32 16
    some { site := if site == 0 then s.site.toNat else site, accel := bits dst 16 10, rq := bits dst 0 8,
           src := if glob then .glob src else .spad src.toNat, len := ctlLen ctl }
  | _ => none

/-- The command of a channel that sends: the first one with packets left. -/
def netHead (s : State) (k : Nat) : Option Cmd := ((coreOf s k).netq.find? (fun q => q.st == .queued && cmdInPlace s k q)).filter (cmdFree s k 2)

/-- Packets of a send: one even when it is empty. -/
def sendPackets (len : Nat) : Nat := max 1 ((len + 4095) / 4096)

/-- The send of a command. -/
def sendingOf (s : State) (k num : Nat) : Option Sending := s.net.sends.find? (fun x => x.core == k && x.cmd == num)

/-- Change the send of a command. -/
def updSending (k num : Nat) (f : Sending → Sending) (s : State) : State :=
  { s with net := { s.net with sends := replaceFirst (fun x => x.core == k && x.cmd == num) f s.net.sends } }

/-- A send begins: it takes its number. -/
def openSend (k : Nat) (q : Cmd) (p : SendParts) (s : State) : State :=
  if (sendingOf s k q.num).isSome then s
  else
    let x : Sending := { core := k, cmd := q.num, site := p.site, accel := p.accel, id := s.net.sendId,
                         seq := ((peerOf s p.site p.accel).map (fun x => x.next)).getD 0, left := sendPackets p.len,
                         rnr := none, first := none, landNum := 0, landed := 0, trunc := false, fault := false }
    { s with net := { s.net with sends := s.net.sends ++ [x], sendId := (s.net.sendId + 1) % 2 ^ 16 } }

/-- The packets of a send that its peer has not acknowledged. -/
def unackedOf (s : State) (x : Sending) : List Unacked :=
  ((peerOf s x.site x.accel).map (fun p => p.unacked.filter (fun u => u.pkt.ty == 1 && u.core == x.core && u.cmd == x.cmd))).getD []

/-- A send ends with a status. -/
def endSend (x : Sending) (status : W64) (s : State) : State :=
  let s1 := updCmd x.core 2 x.cmd (fun q => { q with w2 := w64 x.landed, w3 := w64 x.landNum }) s
  endCmd x.core 2 x.cmd (status ||| (if x.trunc then nsTrunc else 0) ||| (if x.fault then nsFault else 0))
    { s1 with net := { s1.net with sends := s1.net.sends.filter (fun y => !(y.core == x.core && y.cmd == x.cmd)) } }

/-- A send that ends early takes its packets back; their numbers are not sent again (assumption 28). -/
def abortSend (x : Sending) (status : W64) (s : State) : State :=
  endSend x status (updPeer x.site x.accel (fun p =>
    { p with unacked := p.unacked.filter (fun u => !(u.pkt.ty == 1 && u.core == x.core && u.cmd == x.cmd)) }) s)

/-- The uncorrectable bytes of a packet, as bits: each byte of a source sector that holds uncorrectable data. -/
def badBits (bs : List (Byte × Bool)) : Nat := (bs.mapIdx (fun i b => toBit b.2 * 2 ^ i)).sum

/-- A send whose source is lost sends nothing further: with FAULT, it ends when what it has sent is acknowledged (13 R309). -/
def stopSend (k num : Nat) (s : State) : State :=
  let s1 := updSending k num (fun x => { x with left := 0 }) (orStatus k 2 num nsFault (updCmd k 2 num (fun q => { q with st := .away 0 }) s))
  match sendingOf s1 k num with
  | some x => if (unackedOf s1 x).isEmpty then endSend x 0 s1 else s1
  | none => endCmd k 2 num 0 s1

/-- Send packets from packet `i` on, as far as the windows allow. -/
def sendDataGo (k : Nat) (q : Cmd) (p : SendParts) (id : Nat) : Nat → Nat → State → State
  | 0, i, s => setDone k 2 q.num i s
  | n + 1, i, s =>
    if sendPackets p.len ≤ i then updCmd k 2 q.num (fun q => { q with done := i, st := .away id }) s
    else if !peerRoom s p.site p.accel then setDone k 2 q.num i s
    else
      let off := 4096 * i
      match readSpot s k q p.src off (min 4096 (p.len - off)) with
      | .error (r, .miss) => cmdFault k 2 5 q nsFault (r, .miss) (setDone k 2 q.num i s)
      | .error _ => stopSend k q.num (setDone k 2 q.num i s)
      | .ok bs =>
        let bad := badBits bs
        let u := { blankUnit s 1 p.site p.accel with
          rq := p.rq, off := off, total := p.len, sendid := id, stask := q.task, data := plain bs, bad := bad }
        let s1 := sendPacket u k q.num (if bad == 0 then s else orStatus k 2 q.num nsDataerr s)
        sendDataGo k q p id n (i + 1) (updSending k q.num (fun x => { x with left := x.left - 1 }) s1)

/-- Whether the endpoint can do something for the send at the head: send, give up, or close a peer for its entry. -/
def netCan (s : State) (p : SendParts) : Bool :=
  bits s.feat 28 4 == 0 || peerRoom s p.site p.accel ||
  ((peerOf s p.site p.accel).isNone && s.net.peers.all (fun x => x.closing.isNone) && s.net.peers.any (closable s))

def netSendExecuteOn (s : State) (k : Nat) : Bool :=
  (netHead s k).any (fun q => (sendParts s q.op).any (fun p => cmdFailed s k 2 q || q.done == sendPackets p.len || netCan s p))

/-- NET_SEND_EXECUTE. A send without an Ultra Ethernet port has no route to its site. A fault of the source that failed
ends the send. -/
def execNetSendExecute (k : Nat) (s : State) : Out :=
  event (netSendExecuteOn s k) "NET_SEND_EXECUTE" (fun s =>
    match netHead s k with
    | none => s
    | some q => match sendParts s q.op with
      | none => s
      | some p =>
        let s1 := unhold (.cmd k 2 q.num) s
        if cmdFailed s k 2 q then stopSend k q.num s1
        else if p.site != s.site.toNat && bits s.feat 28 4 == 0 then endCmd k 2 q.num nsUnreach s1
        else if peerRoom s1 p.site p.accel || q.done == sendPackets p.len then
          let s2 := openSend k q p s1
          let (n, s3) := drawBurst s2
          match sendingOf s3 k q.num with
          | some x => sendDataGo k q p x.id n q.done s3
          | none => s3
        else startClose s1) s

/-! ## The sequence layer (13 R304) -/

/-- A unit that the endpoint discards and counts. -/
def discardUnit (s : State) : State := { s with net := { s.net with dropped := s.net.dropped + 1 } }

/-- Whether a unit is one of a type for this module. -/
def unitFor (s : State) (ty : Nat) (u : UeUnit) : Bool :=
  u.ty == ty && u.dacc == s.accel.toNat && (u.dsite == s.site.toNat || u.dsite == 0)

/-- What becomes of an arriving number. -/
inductive Arrived where
  | fresh
  | again
  | old
  | beyond
  deriving DecidableEq, Repr

/-- The treatment of number `n` of a peer; one that was received above h is a duplicate too (assumption 29). -/
def arrivedAs (p : Peer) (n : Nat) : Arrived :=
  let d := (p.h + 2 ^ 24 - n % 2 ^ 24) % 2 ^ 24
  let e := (n + 2 ^ 24 - p.h) % 2 ^ 24
  if p.got.contains n || d < 4096 then .again
  else if d < 2 ^ 23 then .old
  else if 1 ≤ e && e ≤ 4096 then .fresh
  else .beyond

/-- h advances over every contiguous number received. -/
def advanceH : Nat → Peer → Peer
  | 0, p => p
  | n + 1, p =>
    let x := (p.h + 1) % 2 ^ 24
    if p.got.contains x then advanceH n { p with h := x, got := p.got.filter (fun y => y != x) } else p

/-- A number is received. -/
def received (n : Nat) (p : Peer) : Peer := advanceH (p.got.length + 1) { p with got := setInsert (n % 2 ^ 24) p.got }

/-- Bytes that have landed: those lost to a fault of the buffer have not (assumption 31). -/
def landedBytes (x : Landing) : Nat := x.upTo - x.lost

/-- TRUNC. -/
def truncated (x : Landing) : Bool := x.buf.any (fun b => b.len < x.total)

/-- What is told of a landing. -/
def newsOf (x : Landing) : LandNews :=
  { sendid := x.sendid, seq := x.seq, landed := landedBytes x, num := x.ended.getD 0,
    status := (if x.buf.isNone then nsDenied
               else (if truncated x then nsTrunc else 0) ||| (if x.lost == 0 then 0 else nsFault)).toNat }

/-- An acknowledgement of a unit, with the news of every landing of its peer. -/
def sendAck (u : UeUnit) (s : State) : State :=
  match peerOf s u.ssite u.sacc with
  | none => s
  | some p => emitUnit { blankUnit s 2 u.ssite u.sacc with
      seq := p.h, echo := u.echo, path := u.path,
      news := (s.net.landings.filter (fun x => x.site == u.ssite && x.accel == u.sacc)).map newsOf } s

/-- An arriving packet: a duplicate is acknowledged again, a new one is taken by `take`, which answers whether it is received. A
new peer needs an entry. -/
def arrivePacket (u : UeUnit) (take : State → State × Bool) (s : State) : State :=
  if (peerOf s u.ssite u.sacc).isNone && s.net.peers.length ≥ maxPeers then startClose s
  else
    let s1 := updPeer u.ssite u.sacc (fun p => { p with used := s.clk }) (ensurePeer u.ssite u.sacc s)
    match peerOf s1 u.ssite u.sacc with
    | none => s1
    | some p =>
      match arrivedAs p u.seq with
      | .again => sendAck u s1
      | .old => discardUnit s1
      | .beyond => s1
      | .fresh =>
        match take s1 with
        | (s2, true) => sendAck u (updPeer u.ssite u.sacc (received u.seq) s2)
        | (s2, false) => s2

/-- UE_OMF_PACKET: a message enters the mesh as from the scale-up fabric, with its source site. A unit of no type that the
endpoint knows is discarded and counted. -/
def execUeOmfPacket (u : UeUnit) (s : State) : Out :=
  .next (match unitFor s 0 u, u.omf with
    | true, some m => arrivePacket u (fun s => (enterMesh { m with ssite := BitVec.ofNat 16 u.ssite } s, true)) s
    | _, _ => discardUnit s)

/-! ## Landings (13 R307, R311) -/

/-- Whether a landing is one of the send that a packet names. -/
def landsFor (u : UeUnit) (x : Landing) : Bool := x.site == u.ssite && x.accel == u.sacc && x.sendid == u.sendid

/-- The landing of the send of a packet: the latest of that number. -/
def landingOf (s : State) (u : UeUnit) : Option Landing := s.net.landings.reverse.find? (landsFor u)

/-- Whether a packet that was not received before belongs to a landing: one of a send whose every packet has arrived can only
begin another send that bears the number again, modulo 2^16 (13 R303, R307). -/
def landingOpen (x : Landing) : Bool := !(sendPackets x.total ≤ x.packets)

/-- Replace the latest landing of the send of a packet. -/
def setLanding (u : UeUnit) (x : Landing) (s : State) : State :=
  { s with net := { s.net with landings := (replaceFirst (landsFor u) (fun _ => x) s.net.landings.reverse).reverse } }

/-- Landings that are over are remembered as long as a duplicate of their packets can arrive: the last 4,096 of a peer. -/
def addLanding (x : Landing) (s : State) : State :=
  let mine (y : Landing) : Bool := y.site == x.site && y.accel == x.accel && y.ended.isSome
  let n := s.net.landings.countP mine
  let kept := if n < 4096 then s.net.landings
    else match s.net.landings.find? mine with
      | some y => s.net.landings.erase y
      | none => s.net.landings
  { s with net := { s.net with landings := kept ++ [x] } }

/-- The completion actions of a buffer (08 R182, 13 R311): signal, credit of 0, reply. -/
def bufferActions (b : RecvBuf) (num : Nat) (words : List W64) (s : State) : State :=
  let k := b.core
  let sig := if wcReply b.wc then w64 num else b.wc1
  let s1 := if wcSignal b.wc then
      updCore k (writeSignal b.spbase b.logspad (wcSoff b.wc) sig) s else s
  let s2 := if wcCredit b.wc then updCore k (barrierOp b.spbase b.logspad (wcBoff b.wc) (bCredit 0)) s1 else s1
  if wcReply b.wc && (resAt s2 k b.task).isSome then
    fly (unitMsg (coreWord s2 2 true 0 k 0 0) b.wc1 (hdr2Core s2 b.task k b.ctx.toNat b.inc.toNat num 0) words) k k .unit true s2
  else s2

/-- BUFFER_LANDING: every byte that the buffer takes has landed. -/
def landOver (u : UeUnit) (x : Landing) (s : State) : State :=
  match x.buf with
  | none => s
  | some b =>
    let rq := recvQueue s x.rq
    let num := (rq.landNum + 1) % 2 ^ 32
    let s1 := setLanding u { x with ended := some num } (setRecvQueue x.rq { rq with landNum := num } s)
    bufferActions b num [w64 num, if truncated x then nsTrunc else 0, w64 (landedBytes x),
      w64 (u.ssite % 2 ^ 16 + u.sacc % 2 ^ 10 * 2 ^ 16 + x.stask.toNat * 2 ^ 26)] s1

/-- The request of a landing, in the address space that the post held (12 R279). -/
def landReq (b : RecvBuf) (va : W64) : Req :=
  { va := va, asid := b.asid, sub := inSub b.spa va, rd := false, wr := true, fetch := false, user := b.user }

/-- Where the bytes of a packet that the buffer takes end. -/
def packetEnd (u : UeUnit) (x : Landing) : Nat := min (u.off + unitLen u) (takes x)

/-- Whether a packet has come before the lower bytes of its send have landed: the sectors of a send become visible in ascending
order (08 R180). -/
def landEarly (u : UeUnit) (x : Landing) : Bool := x.buf.isSome && x.upTo < min u.off (takes x)

/-- Whether some of the bytes of a packet have landed and others not. -/
def landHalf (u : UeUnit) (x : Landing) : Bool := x.buf.isSome && u.off < x.upTo && x.upTo < packetEnd u x

/-- `n` bytes of a packet from byte `i` of the send on, with their marks. -/
def packetBytes (u : UeUnit) (i n : Nat) : List (Byte × Bool) :=
  (List.range n).map (fun j => let p := i - u.off + j
    (u.data.getD p 0, u.bad / 2 ^ p % 2 == 1))

/-- Whether the scratchpad that the completion actions of a buffer change is not to be changed now: its launch is halted there (15 R365),
or its region is not in place (06 R131). -/
def actionsHeld (s : State) (b : RecvBuf) : Bool :=
  (wcSignal b.wc || wcCredit b.wc) &&
    (((coreOf s b.core).regs.halt && !isFirmware s b.task) || (resAt s b.core b.task).any (fun r => r.saved))

/-- Whether a packet is received only when the completion actions that it brings about can be performed. -/
def landWaits (s : State) (u : UeUnit) (x : Landing) : Bool := packetEnd u x ≤ x.upTo && landedAll x && x.buf.any (actionsHeld s)

/-- Land up to `fuel` sectors of a packet. Bytes that meet an unrecoverable fault are lost (assumption 31). The packet is received
once every byte of it that the buffer takes has been dealt with. -/
def landGo (u : UeUnit) (b : RecvBuf) (failed : Bool) : Nat → Landing → State → State × Bool
  | fuel, x, s =>
    if landWaits s u x then (setLanding u x s, false)
    else if packetEnd u x ≤ x.upTo then
      let x1 := { x with packets := x.packets + 1 }
      let s1 := setLanding u x1 s
      (if landedAll x1 then landOver u x1 s1 else s1, true)
    else match fuel with
      | 0 => (setLanding u x s, false)
      | f + 1 =>
        let va := b.va + w64 x.upTo
        let n := min (packetEnd u x - x.upTo) (32 - va.toNat % 32)
        let bs := packetBytes u x.upTo n
        let next : Landing := { x with upTo := x.upTo + n }
        let loss (s : State) : State × Bool := landGo u b failed f { next with lost := x.lost + n } s
        if failed then loss s
        else match rangeKeys s (landReq b) [(va, n)] with
          | .ok ks => landGo u b failed f next
              (poisonCells (performOutside (ks.zip (plain bs)) s) ((ks.zip bs).filterMap (fun p => if p.2.2 then some p.1 else none)))
          | .error (q, .miss) => (agentMiss 5 (.unit u.ssite u.sacc u.seq) q (setLanding u x s), false)
          | .error _ => loss s

/-- A packet lands in the buffer of its send, or is held on a fault of the buffer. -/
def landData (u : UeUnit) (x : Landing) (s : State) : State × Bool :=
  match x.buf with
  | none => (setLanding u { x with packets := x.packets + 1 } s, true)
  | some b =>
    let key : HoldKey := .unit u.ssite u.sacc u.seq
    let failed := (holdOf s key).any (fun h => h.ended == some true)
    let (n, s1) := drawBurst (unhold key s)
    if landEarly u x then (s1, false) else landGo u b failed n x s1

/-- The first packet of a send reaches its queue: it takes the head buffer, is denied, or finds none. -/
def openLanding (u : UeUnit) (s : State) : Option Landing × State :=
  let rq := recvQueue s u.rq
  let mk (b : Option RecvBuf) (ended : Option Nat) : Landing :=
    { site := u.ssite, accel := u.sacc, sendid := u.sendid, buf := b, rq := u.rq, stask := u.stask, total := u.total, upTo := 0, lost := 0,
      packets := 0, seq := u.seq % 2 ^ 24, ended := ended }
  let denied (s : State) : Option Landing × State := (some (mk none (some 0)), addLanding (mk none (some 0)) s)
  if rq.bound.isNone then denied s
  else match rq.bufs with
    | [] => (none, s)
    | b :: rest =>
      if b.ptask != 0xFFF && b.ptask != u.stask.toNat then denied s
      else (some (mk (some b) none), addLanding (mk (some b) none) (setRecvQueue u.rq { rq with bufs := rest } (releaseFrom b.core s)))

/-- Whether the post of the head buffer of a queue still lies behind its stores (08 R176). -/
def headBehind (s : State) (rq : Nat) : Bool :=
  (recvQueue s rq).bufs.head?.any (fun b => !storesDone s (coreOf s b.core) b.after)

/-- A packet of send data is taken: it lands, or type 3 says that there is no buffer. -/
def takeData (u : UeUnit) (s : State) : State × Bool :=
  match (landingOf s u).filter landingOpen with
  | some x => landData u x s
  | none =>
    if headBehind s u.rq then (s, false)
    else match openLanding u s with
    | (some x, s1) => landData u x s1
    | (none, s1) => (emitUnit { blankUnit s1 3 u.ssite u.sacc with sendid := u.sendid } s1, false)

/-- UE_SEND_DATA. -/
def execUeSendData (u : UeUnit) (s : State) : Out :=
  .next (if unitFor s 1 u then arrivePacket u (takeData u) s else discardUnit s)

/-! ## Acknowledgements (13 R303, R306) -/

/-- The window of a path after an acknowledgement with round trip `r`, in units of 1/256, and whether it shrank. -/
def windowAfter (p : Peer) (clk w r : Nat) : Nat × Bool :=
  let t := p.least + 2048
  if r ≤ t then (min (64 * 256) (w + 65536 / max w 256), false)
  else if p.cut + p.rtt ≤ clk then (max 256 (w - min (w / 2) (w * (r - t) / (2 * r))), true)
  else (w, false)

/-- The round trip that an acknowledgement measures; the smoothing is that of assumption 32. -/
def measured (u : UeUnit) (clk : Nat) (p : Peer) : Peer :=
  let r := (clk + 2 ^ 40 - u.echo % 2 ^ 40) % 2 ^ 40
  let p1 := { p with least := if p.least == 0 then r else min p.least r, rtt := if p.rtt == 0 then r else (7 * p.rtt + r) / 8 }
  let (w, cut) := windowAfter p1 clk (p1.wins.getD (u.path % 16) 2048) r
  { p1 with wins := p1.wins.set (u.path % 16) w, cut := if cut then clk else p1.cut }

/-- Whether a cumulative number covers a packet. -/
def covers (cum seq : Nat) : Bool := (cum + 2 ^ 24 - seq % 2 ^ 24) % 2 ^ 24 < 2 ^ 23

/-- What an acknowledgement tells of a send: the news of its latest landing, unless that is one of an earlier send with the same
number modulo 2^16. -/
def newsFor (u : UeUnit) (x : Sending) : Option LandNews :=
  if x.site == u.ssite && x.accel == u.sacc then
    (u.news.reverse.find? (fun n => n.sendid == x.id)).filter (fun n => (n.seq + 2 ^ 24 - x.seq) % 2 ^ 24 < 2 ^ 23)
  else none

/-- The news of an acknowledgement reach a send. -/
def takeNews (u : UeUnit) (x : Sending) : Sending :=
  match newsFor u x with
  | some n => { x with landed := n.landed, landNum := n.num, trunc := n.status / 16 % 2 == 1, fault := n.status / 2 % 2 == 1 }
  | none => x

/-- The sends that an acknowledgement denies end. -/
def endDenied (u : UeUnit) (s : State) : State :=
  (s.net.sends.filter (fun x => (newsFor u x).any (fun n => n.status / 32 % 2 == 1))).foldl (fun s x => endSend x nsDenied s) s

/-- The sends to a peer of which every packet is acknowledged end. -/
def endAcked (site accel : Nat) (s : State) : State :=
  (s.net.sends.filter (fun x => x.site == site && x.accel == accel && x.left == 0 && (unackedOf s x).isEmpty)).foldl
    (fun s x => endSend x 0 s) s

/-- UE_ACKNOWLEDGEMENT. -/
def execUeAcknowledgement (u : UeUnit) (s : State) : Out :=
  .next (if !unitFor s 2 u then discardUnit s
    else if (peerOf s u.ssite u.sacc).isNone then s
    else
      let s1 := updPeer u.ssite u.sacc (fun p => measured u s.clk
        { p with used := s.clk, unacked := p.unacked.filter (fun k => !covers u.seq k.seq) }) s
      let s2 := { s1 with net := { s1.net with sends := s1.net.sends.map (takeNews u) } }
      endAcked u.ssite u.sacc (endDenied u s2))

/-- UE_RECEIVER_NOT_READY: the send that the unit names is offered again later. -/
def execUeReceiverNotReady (u : UeUnit) (s : State) : Out :=
  let hit (x : Sending) : Bool := x.site == u.ssite && x.accel == u.sacc && x.id == u.sendid
  let upd (x : Sending) : Sending := { x with rnr := some (x.rnr.getD s.clk), first := some (x.first.getD s.clk) }
  .next (if !unitFor s 3 u then discardUnit s
    else updPeer u.ssite u.sacc (fun p => { p with used := s.clk })
      { s with net := { s.net with sends := replaceFirst hit upd s.net.sends } })

/-! ## The close of a peer (13 R305) -/

/-- The landings that are over are forgotten with their peer. -/
def forgetPeer (site accel : Nat) (s : State) : State :=
  let s1 := dropPeer site accel s
  { s1 with net := { s1.net with landings := s1.net.landings.filter (fun x => !(x.site == site && x.accel == accel && x.ended.isSome)) } }

/-- UE_CLOSE: the answer, and the end of the state held for the closer. -/
def execUeClose (u : UeUnit) (s : State) : Out :=
  let answer (refuse : Bool) (s : State) : State :=
    putUnit { blankUnit s 5 u.ssite u.sacc with refuse := refuse } s
  .next (if !unitFor s 4 u then discardUnit s
    else match peerOf s u.ssite u.sacc with
      | none => answer false s
      | some p =>
        if (p.h + 1) % 2 ^ 24 == u.seq && p.unacked.isEmpty then answer false (forgetPeer u.ssite u.sacc s)
        else answer true (updPeer u.ssite u.sacc (fun p => { p with used := s.clk }) s))

/-- A close that was refused, or had no answer: the peer stays, and the next candidate is tried. -/
def closeFailed (site accel : Nat) (s : State) : State :=
  startClose (updPeer site accel (fun p => { p with closing := none, used := s.clk }) s)

/-- UE_CLOSE_ANSWER. -/
def execUeCloseAnswer (u : UeUnit) (s : State) : Out :=
  .next (if !unitFor s 5 u then discardUnit s
    else match peerOf s u.ssite u.sacc with
      | none => s
      | some p =>
        if p.closing.isNone then s
        else if u.refuse then closeFailed u.ssite u.sacc s
        else forgetPeer u.ssite u.sacc s)

/-! ## Timers (13 R306) -/

/-- The clk after which a packet to a peer is sent again. -/
def retryAfter (p : Peer) : Nat := max 20000 (4 * p.rtt)

/-- The packets that wait for an acknowledgement, and the closes that wait for an answer, in one order: the timer x of
UE_RETRANSMIT is that of entry x. -/
def waitingUnits (s : State) : List (Peer × Option Unacked) :=
  s.net.peers.flatMap (fun p => p.unacked.map (fun u => (p, some u)) ++ (if p.closing.isSome then [(p, none)] else []))

/-- The send of a packet. -/
def sendOfPacket (s : State) (u : Unacked) : Option Sending :=
  if u.pkt.ty == 1 then s.net.sends.find? (fun x => x.core == u.core && x.cmd == u.cmd) else none

/-- Whether the timer of a unit has run out; the packets of a send that is to be offered again do not count. -/
def unitDue (s : State) (p : Peer) (u : Option Unacked) : Bool :=
  match u with
  | some u => u.sent + retryAfter p ≤ s.clk && !(sendOfPacket s u).any (fun x => x.rnr.isSome)
  | none => p.closing.any (fun c => c.1 + retryAfter p ≤ s.clk)

def ueRetransmitOn (s : State) (x : Nat) : Bool := ((waitingUnits s)[x]?).any (fun w => unitDue s w.1 w.2)

/-- A packet is sent again on another path. -/
def resend (p : Peer) (u : Unacked) (tries : Nat) (s : State) : State :=
  let v := { u.pkt with path := (u.pkt.path + 1) % 16, echo := s.clk % 2 ^ 40 }
  let upd (y : Unacked) : Unacked := if y.seq == u.seq then { y with pkt := v, sent := s.clk, tries := tries } else y
  emitUnit v (updPeer p.site p.accel (fun q => { q with unacked := q.unacked.map upd }) s)

/-- A packet that has been sent again 16 times: its send ends with UNREACH, or it is dropped from its message, which its sender
then holds only while a receiver can still answer it (assumption 130). -/
def giveUp (p : Peer) (u : Unacked) (s : State) : State :=
  let s1 := updPeer p.site p.accel (fun q => { q with unacked := q.unacked.filter (fun y => y.seq != u.seq) }) s
  match sendOfPacket s u with
  | some x => abortSend x nsUnreach s1
  | none => if u.pkt.ty == 0 && u.cmd != 0 then lostOut u.core (u.cmd - 1) s1 else s1

/-- UE_RETRANSMIT. -/
def execUeRetransmit (x : Nat) (s : State) : Out :=
  event (ueRetransmitOn s x) "UE_RETRANSMIT" (fun s =>
    match (waitingUnits s)[x]? with
    | none => s
    | some (p, some u) => if u.tries < 16 then resend p u (u.tries + 1) s else giveUp p u s
    | some (p, none) =>
      match p.closing with
      | some (_, n) =>
        if n < 16 then
          putUnit { blankUnit s 4 p.site p.accel with seq := p.next } s
            |> updPeer p.site p.accel (fun q => { q with closing := some (s.clk, n + 1) })
        else closeFailed p.site p.accel s
      | none => s) s

def ueRnrReofferOn (s : State) (x : Nat) : Bool := (s.net.sends[x]?).any (fun y => y.rnr.any (fun t => t + 4096 ≤ s.clk))

/-- UE_RNR_REOFFER: the packets of a send are offered again. -/
def execUeRnrReoffer (x : Nat) (s : State) : Out :=
  event (ueRnrReofferOn s x) "UE_RNR_REOFFER" (fun s =>
    match s.net.sends[x]? with
    | none => s
    | some y =>
      match peerOf s y.site y.accel with
      | none => s
      | some p => (unackedOf s y).foldl (fun s u => resend p u 0 s) (updSending y.core y.cmd (fun z => { z with rnr := none }) s)) s

def ueNobufTimeoutOn (s : State) (x : Nat) : Bool :=
  (s.net.sends[x]?).any (fun y => y.rnr.isSome && y.first.any (fun t => t + 2 ^ 24 ≤ s.clk))

/-- UE_NOBUF_TIMEOUT: a send that finds no buffer ends with NOBUF. -/
def execUeNobufTimeout (x : Nat) (s : State) : Out :=
  event (ueNobufTimeoutOn s x) "UE_NOBUF_TIMEOUT" (fun s =>
    match s.net.sends[x]? with
    | some y => abortSend y nsNobuf s
    | none => s) s

/-! ## Transactions of other modules -/

/-- The landing of a packet that is not over. -/
def landingNow (s : State) (u : UeUnit) : Option Landing := if u.ty == 1 then (landingOf s u).filter landingOpen else none

/-- Whether a packet that begins a send finds a buffer that is not to be filled yet. -/
def bufferEarly (s : State) (u : UeUnit) : Bool := u.ty == 1 && (landingNow s u).isNone && headBehind s u.rq

/-- Whether a packet waits: for the lower bytes of its send, for its buffer, or for the scratchpad of the buffer's launch. -/
def unitEarly (s : State) (u : UeUnit) : Bool := bufferEarly s u || (landingNow s u).any (fun x => landEarly u x || landWaits s u x)

/-- Whether a packet that has been offered stays: it waits, for a walk too, or further sectors of it have still to land. -/
def unitStays (s : State) (u : UeUnit) : Bool :=
  heldOn s (.unit u.ssite u.sacc u.seq) || unitEarly s u || (landingNow s u).any (landHalf u)

/-- A unit that came over the scale-up fabric is taken as one that came through the Ultra Ethernet ports (13 R309). -/
def takeUnit (u : UeUnit) (s : State) : State :=
  match (match u.ty with
    | 0 => execUeOmfPacket u s
    | 1 => execUeSendData u s
    | 2 => execUeAcknowledgement u s
    | 3 => execUeReceiverNotReady u s
    | 4 => execUeClose u s
    | 5 => execUeCloseAnswer u s
    | _ => .next (discardUnit s)) with
  | .next t => t
  | _ => s

/-- Whether a transaction carries a part of a unit. -/
def isUnitPart (op : FabOp) : Option (UeUnit × Nat × Nat) :=
  match op with
  | .unit u num first => some (u, num, first)
  | _ => none

/-- The data and the marks of parts, each with the place of its first byte. -/
def joinUnit (u : UeUnit) (ps : List (UeUnit × Nat × Nat)) : UeUnit :=
  let part (i : Nat) : Option UeUnit := (ps.find? (fun p => p.2.2 == 256 * i)).map (fun p => p.1)
  let us := (List.range ((unitLen u + 255) / 256)).map part
  { u with data := us.flatMap (fun p => (p.map (fun v => v.data)).getD []),
           bad := (us.mapIdx (fun i p => (p.map (fun v => v.bad * 2 ^ (256 * i))).getD 0)).sum }

/-- A part of a unit arrives; with the last to come the unit is taken. The parts of a unit that a later one of its module has
overtaken are forgotten: it is sent again (13 R306). -/
def serveUnit (t : FabTx) (u : UeUnit) (num first : Nat) (s : State) : State :=
  let same (y : FabTx) : Bool := y.accel == t.accel && (isUnitPart y.op).any (fun p => p.2.1 == num)
  let old (y : FabTx) : Bool := y.accel == t.accel && (isUnitPart y.op).any (fun p => p.2.1 != num && p.1.ty == u.ty && p.1.seq == u.seq)
  let s1 := dropPieces old s
  let ps := ((s1.fab.pieces.filter same).filterMap (fun y => isUnitPart y.op)).filter (fun p => p.2.2 != first) ++ [(u, num, first)]
  if ps.length < max 1 ((unitLen u + 255) / 256) then addPiece t s1
  else
    let s2 := takeUnit (joinUnit u ps) s1
    if unitStays s2 u then s2 else dropPieces same s2

/-- REMOTE_TRANSACTION: a transaction of another module, or its answer to one of this module. -/
def execRemoteTransaction (t : FabTx) (s : State) : Out :=
  .next (match t.op with
    | .read va asid sub len => serveRead t va asid sub len s
    | .write va asid sub data poison xfer ix => serveWrite t va asid sub data poison xfer ix s
    | .atom va asid sub op wide v nv => serveAtom t va asid sub op wide v nv s
    | .reduce va asid sub isMax stype data bad => serveReduce t va asid sub isMax stype data bad s
    | .slice r => serveSlice t r s
    | .line l => serveLine t l s
    | .omf m => enterMesh { m with ssite := 0 } s
    | .tokens x num ix total _ _ => serveTokens t x num ix total s
    | .unit u num first => serveUnit t u num first s
    | .answer data v status =>
      match openTx s t.tag with
      | some x =>
        if x.accel == t.accel || isLine x.op then takeResponse x t.accel data v status (sample 7 (coreDie x.core) (some x.core) (s.clk - x.since) s) else s
      | none => s)

end Sys2Proof.Machine
end

