-- ==== Sys2Proof/Machine/AgentRoute.lean ====
section
/-! DEFINITION. The routing engines: the source side, the ingress, and the fetches of expert weights (14 R320 to R332, R344);
the completions of drive reads (12 R285, 14 R331). -/
namespace Sys2Proof.Machine

/-! ## The source side (14 R320 to R322) -/

/-- Whether a probability ranks strictly above another: NaN lowest, -0 equal to +0. -/
def aboveProb (a b : W32) : Bool := !isNan32 a && (isNan32 b || keyEq32 b < keyEq32 a)

/-- Insert an index behind those that rank above it or equal to it. -/
def insertRank (x : Nat × W32) : List (Nat × W32) → List (Nat × W32)
  | [] => [x]
  | y :: r => if aboveProb x.2 y.2 then x :: y :: r else y :: insertRank x r

/-- Indexes with their values, highest first, ties to the lower index. -/
def rankProbs (xs : List (Nat × W32)) : List (Nat × W32) := xs.foldl (fun l x => insertRank x l) []

/-- The maximum of the eight values of a group (02 R37). -/
def groupMax (ps : List W32) : W32 := ps.tail.foldl (fun a b => (maxmin32 true a b).1) (ps.headD 0)

/-- The eight probabilities of a group in a gate row. -/
def groupProbs (row : List W32) (g : Nat) : List W32 := (row.drop (8 * g)).take 8

/-- The GMAP entry of a group. -/
def gmapEnt (c : RouteCfg) (g : Nat) : Nat := c.gmap.getD g 0
def gmapValid (c : RouteCfg) (g : Nat) : Bool := gmapEnt c g / 2 ^ 15 % 2 == 1

/-- The groups chosen for a row, by selection rank. -/
def chooseGroups (c : RouteCfg) (row : List W32) : List Nat :=
  let all := (List.range (bits (cfgW c 0) 0 10)).filter (gmapValid c)
  ((rankProbs (all.map (fun g => (g, groupMax (groupProbs row g))))).take (cfgTopg c)).map (fun p => p.1)

/-- The token record of a chosen group (14 R321); its row is read when its transfer forms. -/
def tokenRecord (s : State) (c : RouteCfg) (die : Nat) (spa : List W64) (tok : W64) (row : List W32) (nanp : Bool) (g rank : Nat) : TokRec :=
  let t := bits tok 0 32
  { w0 := w64 (t + s.accel.toNat * 2 ^ 32 + die * 2 ^ 42 + g * 2 ^ 45 + rank * 2 ^ 54 + toBit nanp * 2 ^ 61 + bits tok 32 2 * 2 ^ 62),
    arow := cfgW c 4 + w64 (t * cfgRow c), rrow := cfgW c 5 + w64 ((t * cfgTopg c + rank) * cfgTope c * cfgRow c),
    prob := groupProbs row g, spa := spa, row := [] }

/-- The number of a send list's destination, and its parts. -/
def destNo (accel die : Nat) : Nat := accel * 4 + die
def destAccel (x : Nat) : Nat := x / 4
def destDie (x : Nat) : Nat := x % 4

/-- Form the transfer of a send list. -/
def formTransfer (s : State) (die : Nat) (c : RouteCfg) (l : SendList) (flush : Option (Nat × Nat)) : Transfer :=
  { sacc := s.accel.toNat, sdie := die, dacc := l.accel, ddie := l.die, task := c.task, flush := flush, tag := 0, sent := 0, recs := l.recs }

/-! ### Activation rows (14 R322) -/

/-- The error record of the source die for an activation row (14 R322). -/
def rowError (die : Nat) (l : Launch) (code : Nat) (va : W64) (s : State) : State :=
  errRecord l.task code false false { x := 0, y := 0, die := die, ctx := 0, inc := 0 } 0 va 0 0 0 s

/-- Whether a transfer stands in the list of a destination with rows still to be read. -/
def unreadTo (x : Nat) (t : Transfer) : Bool := destNo t.dacc t.ddie == x && t.recs.any (fun r => r.row.isEmpty)

/-- The record whose row is read next for a destination: the first without one, of the first transfer that has such. -/
def unreadRec (s : State) (die x : Nat) : Option TokRec :=
  ((routeOf s die).outgoing.find? (unreadTo x)).bind (fun t => t.recs.find? (fun r => r.row.isEmpty))

/-- Its row is there. -/
def setRow (die x : Nat) (bs : List Byte) (s : State) : State :=
  let upd (t : Transfer) : Transfer := { t with recs := replaceFirst (fun r => r.row.isEmpty) (fun r => { r with spa := [], row := bs }) t.recs }
  updRoute die (fun r => { r with outgoing := replaceFirst (unreadTo x) upd r.outgoing }) s

/-- The reads of another module's memory for the row of a destination. -/
def rowTxs (s : State) (die x : Nat) : List Tx := s.fab.txs.filter (fun t => t.eng == 4 && t.core == die && t.cmd == x)

/-- What the read of a row comes to: its bytes with the code of an error record, 0 for none; a miss; reads to be sent to another
module; or answers that are still out. -/
inductive RowRes where
  | row (bs : List Byte) (code : Nat)
  | miss (q : Req)
  | ask
  | away
  deriving DecidableEq, Repr

/-- The request of a row, with the size class that the issuing core's region registers gave it (12 R279; 15 R352). -/
def rowReq (asid : Nat) (spa : List W64) (va : W64) : Req := agentReq asid (inSub spa va) true false va

/-- A row of `n` bytes, read as a copy reads (12 R278, R279): in this module, or across the fabric. A row that cannot be read is
one of zeros. -/
def rowNow (s : State) (die x n asid : Nat) (spa : List W64) (va : W64) : RowRes :=
  let zeros := List.replicate n (0 : Byte)
  if holdFailed s (.transfer die x) then .row zeros 0x0F
  else if vaAccel va == s.accel.toNat then
    match rangeKeys s (rowReq asid spa) (pieces va n) with
    | .ok ks => if ks.any (fun k => s.poison.contains k) then .row zeros 0x07 else .row (ks.map (memGet s.mem)) 0
    | .error (q, .miss) => .miss q
    | .error _ => .row zeros 0x0F
  else
    let xs := rowTxs s die x
    let part (i : Nat) : List Byte × W64 × Nat := (((xs.find? (fun t => t.off == i)).bind txAnswer).getD ([], 0, 0))
    let parts := (List.range (cuts 256 va.toNat n)).map part
    if xs.isEmpty then .ask
    else if !xs.all (fun t => (txAnswer t).isSome) then .away
    else if parts.any (fun p => p.2.2 / 4 % 2 == 1) then .row zeros 0x0F
    else if parts.any (fun p => p.2.1 != 0) then .row zeros 0x07
    else .row (parts.flatMap (fun p => p.1)) 0

/-- The reads of a row leave for the module that holds it. -/
def askRow (die x n asid : Nat) (spa : List W64) (va : W64) (s : State) : State :=
  (List.range (cuts 256 va.toNat n)).foldl (fun s i =>
    let lo := cutAt 256 va.toNat n i
    let a := va + w64 lo
    sendTx (vaAccel va) a (.read a asid (inSub spa a) (cutAt 256 va.toNat n (i + 1) - lo)) die 4 x i s) s

/-- Read rows for a destination, in order, until one has to wait: a serviceable fault holds its transfer and the later ones of
the send list. -/
def readRows (die x : Nat) (c : RouteCfg) (l : Launch) : Nat → State → State
  | 0, s => s
  | f + 1, s =>
    match unreadRec s die x with
    | none => s
    | some t =>
      let key : HoldKey := .transfer die x
      match rowNow s die x (cfgRow c) l.asid t.spa t.arow with
      | .row bs code =>
        let s1 := setRow die x bs ((rowTxs s die x).foldl (fun s y => dropTx y.tag s) (unhold key s))
        readRows die x c l f (if code == 0 then s1 else rowError die l code t.arow s1)
      | .miss q => agentMiss 3 key q (unhold key s)
      | .ask => askRow die x (cfgRow c) l.asid t.spa t.arow s
      | .away => s

/-- The rows that are still to be read for a destination. -/
def unreadCount (s : State) (die x : Nat) : Nat :=
  (((routeOf s die).outgoing.filter (fun t => destNo t.dacc t.ddie == x)).map (fun t => t.recs.countP (fun r => r.row.isEmpty))).sum

/-- The reading of a destination's rows goes on. -/
def readOn (die x : Nat) (s : State) : State :=
  match ingOf s die with
  | some i => readRows die x i.cfg i.l (unreadCount s die x) s
  | none => s

/-- Whether it can go on: no fault holds it, and no answer of another module is awaited. -/
def canRead (s : State) (die x : Nat) : Bool :=
  (unreadRec s die x).isSome && (ingOf s die).isSome && !heldOn s (.transfer die x) && (rowTxs s die x).all (fun t => (txAnswer t).isSome) &&
    txRoom s

/-- The transfer of one send list leaves its list, and its rows are read behind those of the transfers before it. -/
def closeList (die : Nat) (c : RouteCfg) (l : SendList) (flush : Option (Nat × Nat)) (s : State) : State :=
  let x := destNo l.accel l.die
  let s1 := updRoute die (fun r => { r with lists := r.lists.filter (fun y => !(y.accel == l.accel && y.die == l.die)),
                                            outgoing := r.outgoing ++ [formTransfer s die c l flush] }) s
  if canRead s1 die x then readOn die x s1 else s1

/-! ### Departure -/

/-- The first transfer that waits for a destination. -/
def waitingTransfer (s : State) (die x : Nat) : Option Transfer :=
  (routeOf s die).outgoing.find? (fun t => destNo t.dacc t.ddie == x)

/-- The parts of transfers of the die to a destination that are on the fabric. -/
def partsOut (s : State) (die x : Nat) : Nat :=
  s.fab.txs.countP (fun t => match t.op with
    | .tokens tr _ _ _ _ _ => tr.sdie == die && destNo tr.dacc tr.ddie == x
    | _ => false)

/-- Whether the first transfer to a destination can depart: its rows are read, and one at a time crosses the fabric, so that they
arrive in the order they were formed. One that has begun goes on as its parts are answered. -/
def canDepart (s : State) (die x : Nat) : Bool :=
  (waitingTransfer s die x).any (fun t => t.recs.all (fun r => !r.row.isEmpty) && partsOut s die x < (if t.sent == 0 then 1 else 1024)) &&
    txRoom s

/-- The parts in which a transfer crosses the fabric, of up to 256 bytes each (13 R294): the place in its row, and the record with
the bytes of the row from there on. -/
def partsOf (t : Transfer) : List (Nat × List TokRec) :=
  if t.recs.isEmpty then [(0, [])]
  else t.recs.flatMap (fun r => (List.range (max 1 ((r.row.length + 191) / 192))).map (fun i =>
    (192 * i, [{ r with row := (r.row.drop (192 * i)).take 192 }])))

/-- Up to 1,024 further parts of a transfer leave, and with the last of them it leaves its list. -/
def departParts (die : Nat) (t : Transfer) (s : State) : State :=
  let num := if t.sent == 0 then s.fab.xfer else t.tag
  let ps := partsOf t
  let now := (ps.zipIdx.drop t.sent).take 1024
  let s1 := if t.sent == 0 then { s with fab := { s.fab with xfer := num + 1 } } else s
  let s2 := now.foldl (fun s p => sendTx t.dacc 0
    (.tokens { t with sent := 0, tag := 0, recs := p.1.2 } num p.2 ps.length p.1.1 t.recs.length) 0 3 0 die s) s1
  let sent := t.sent + now.length
  updRoute die (fun r => { r with outgoing :=
    if sent < ps.length then replaceFirst (fun y => y == t) (fun y => { y with sent := sent, tag := num }) r.outgoing else r.outgoing.erase t }) s2

/-- A transfer departs. -/
def depart (die x : Nat) (s : State) : State :=
  match waitingTransfer s die x with
  | some t =>
    if t.dacc == s.accel.toNat then
      updRoute t.ddie (fun r => { r with incoming := r.incoming ++ [t] }) (updRoute die (fun r => { r with outgoing := r.outgoing.erase t }) s)
    else departParts die t s
  | none => s

/-- Append a record to the send list of its group's home die; a list that becomes full forms its transfer. -/
def appendRecord (die : Nat) (c : RouteCfg) (t : TokRec) (g : Nat) (s : State) : State :=
  let e := gmapEnt c g
  let mine (y : SendList) : Bool := y.accel == e % 1024 && y.die == e / 1024 % 4
  let r := routeOf s die
  let l : SendList := match r.lists.find? mine with
    | some y => { y with recs := y.recs ++ [t] }
    | none => { accel := e % 1024, die := e / 1024 % 4, recs := [t], since := s.clk }
  let s1 := updRoute die (fun r => { r with lists := r.lists.filter (fun y => !mine y) ++ [l] }) s
  if bits (cfgW c 1) 10 9 ≤ l.recs.length then
    let x := destNo l.accel l.die
    let s2 := closeList die c l none s1
    if canDepart s2 die x then depart die x s2 else s2
  else s1

/-! ### Commands -/

/-- The routing command of a core that takes effect next. -/
def routeHead (s : State) (k : Nat) : Option Cmd := headCmd s k 3

def routeGateExecuteOn (s : State) (k : Nat) : Bool :=
  (routeHead s k).any (fun q => cmdFree s k 3 q && (match q.op with
    | .rtgate _ _ => true
    | _ => false))

/-- The gate row of a command. -/
def gateRow (s : State) (k : Nat) (q : Cmd) (off : W64) (n : Nat) : List W32 :=
  (List.range (8 * n)).map (fun i => w32 (ofBytes (spadRead (coreOf s k) q.spbase q.logspad (off.toNat + 4 * i) 4)))

/-- The records of a token enter their send lists in selection-rank order. -/
def gateToken (k : Nat) (q : Cmd) (off tok : W64) (x : Ing) (s : State) : State :=
  let row := gateRow s k q off (bits (cfgW x.cfg 0) 0 10)
  let nanp := row.any isNan32
  ((chooseGroups x.cfg row).zipIdx).foldl (fun s p =>
    appendRecord x.d x.cfg (tokenRecord s x.cfg x.d q.spa tok row nanp p.1 p.2) p.1 s) s

/-- ROUTE_GATE_EXECUTE. A die that serves the command's launch no longer takes no records. -/
def execRouteGateExecute (k : Nat) (s : State) : Out :=
  event (routeGateExecuteOn s k) "ROUTE_GATE_EXECUTE" (fun s =>
    match routeHead s k with
    | none => s
    | some q => match q.op with
      | .rtgate off tok =>
        let s1 := match ingOf s (coreDie k) with
          | some x => if x.cfg.task == q.task then gateToken k q off tok x s else s
          | none => s
        endCmd k 3 q.num 0 s1
      | _ => s) s

/-- A send list times out, the rows of a transfer can be read on, or a transfer that waits can depart. -/
def sendListTimeoutOn (s : State) (die x : Nat) : Bool :=
  die < 4 && (canRead s die x || canDepart s die x || (ingOf s die).any (fun i => (routeOf s die).lists.any (fun l =>
    destNo l.accel l.die == x && l.since + bits (cfgW i.cfg 2) 0 32 ≤ s.clk)))

/-- SEND_LIST_TIMEOUT. -/
def execSendListTimeout (die x : Nat) (s : State) : Out :=
  event (sendListTimeoutOn s die x) "SEND_LIST_TIMEOUT" (fun s =>
    if canRead s die x then readOn die x s
    else if canDepart s die x then depart die x s
    else match ingOf s die, (routeOf s die).lists.find? (fun l => destNo l.accel l.die == x) with
      | some i, some l => closeList die i.cfg l none s
      | _, _ => s) s

/-- Whether a transfer was formed by a flush. -/
def flushedBy (k num : Nat) (t : Transfer) : Bool := t.flush == some (k, num)

/-- Whether every transfer of a flush has been taken in by its ingress. -/
def flushOver (s : State) (k num : Nat) : Bool :=
  !(routeOf s (coreDie k)).outgoing.any (flushedBy k num) &&
  [0, 1, 2, 3].all (fun d => !(routeOf s d).incoming.any (fun t => t.sacc == s.accel.toNat && flushedBy k num t) &&
    !(routeOf s d).intake.any (fun i => i.1.sacc == s.accel.toNat && flushedBy k num i.1)) &&
  !s.fab.txs.any (fun t => match t.op with
    | .tokens tr _ _ _ _ _ => flushedBy k num tr
    | _ => false)

def isRtflush (op : CmdOp) : Bool :=
  match op with
  | .rtflush => true
  | _ => false

def routeFlushExecuteOn (s : State) (k : Nat) : Bool :=
  (routeHead s k).any (fun q => isRtflush q.op && (cmdFree s k 3 q || (q.st == .away 0 && flushOver s k q.num)))

/-- Form the transfers of every send list of a die. -/
def flushLists (k num die : Nat) (c : RouteCfg) (s : State) : State :=
  (routeOf s die).lists.foldl (fun s l => closeList die c l (some (k, num)) s) s

/-- ROUTE_FLUSH_EXECUTE: the transfers form, and the command ends once they are taken in. -/
def execRouteFlushExecute (k : Nat) (s : State) : Out :=
  event (routeFlushExecuteOn s k) "ROUTE_FLUSH_EXECUTE" (fun s =>
    match routeHead s k with
    | none => s
    | some q =>
      if q.st == .queued then
        let s1 := updCmd k 3 q.num (fun q => { q with st := .away 0 }) s
        match ingOf s (coreDie k) with
        | some x => if x.cfg.task == q.task then flushLists k q.num x.d x.cfg s1 else s1
        | none => s1
      else endCmd k 3 q.num 0 s) s

/-! ## The ingress (14 R323 to R327) -/

/-- The group of a record. -/
def recGroup (t : TokRec) : Nat := bits t.w0 45 9

/-- The experts of a record by rank. -/
def rankExperts (t : TokRec) : List (Nat × W32) :=
  (rankProbs ((List.range 8).map (fun i => (i, t.prob.getD i 0)))).map (fun p => (8 * recGroup t + p.1, p.2))

/-- A NaN counts as +0. -/
def nanZero (v : W32) : W32 := if isNan32 v then 0 else v

/-- The sum of the winners' probabilities, and whether ZSUM is set (14 R324). -/
def winnerSum (ps : List W32) : W32 × Bool :=
  let s := match ps.map nanZero with
    | [] => 0
    | p :: r => r.foldl (fun a b => (add32 0 a b).1) p
  (s, !isNan32 s && below32 s 0x00800000)

/-- FP32 division with RNE. -/
def div32 (a b : Fp) : W32 := (round32 0 (divFp a b).1).1

/-- The weight of winner `j`. -/
def winnerWeight (ps : List W32) (j : Nat) : W32 :=
  let s := winnerSum ps
  if s.2 then div32 (.fin false 1 0) (.fin false ps.length 0) else div32 (dec32 (nanZero (ps.getD j 0))) (dec32 s.1)

/-- A placement of a record: the expert, its alternate, and the weight entry with the record (14 R323, R327). -/
def placementOf (c : RouteCfg) (t : TokRec) (j : Nat) : Option (Nat × Option Nat × (W64 × TokRec)) :=
  let es := rankExperts t
  let n := cfgTope c
  let ps := (es.take n).map (fun p => p.2)
  (es[j]?).map (fun p =>
    let z := (winnerSum ps).2
    (p.1, if n + j < 8 then (es[n + j]?).map (fun a => a.1) else none,
     w64 ((winnerWeight ps j).toNat + j * 2 ^ 32 + toBit z * 2 ^ 38), t))

/-- Whether a group is homed on the die. -/
def homedHere (s : State) (x : Ing) (g : Nat) : Bool :=
  let e := gmapEnt x.cfg g
  g < bits (cfgW x.cfg 0) 0 10 && gmapValid x.cfg g && e % 1024 == s.accel.toNat && e / 1024 % 4 == x.d

/-- Whether the ingress serves the job of a transfer. -/
def servesJob (s : State) (d : Nat) (t : Transfer) : Option Ing := (ingOf s d).filter (fun x => x.cfg.task == t.task)

/-- A transfer is done with: another module is told, or its records count as refused at their source die. -/
def endTransfer (t : Transfer) (refused : Bool) (s : State) : State :=
  if t.sacc != s.accel.toNat then answerOnce t.sacc t.tag 0 (.answer [] 0 (if refused then csRemoteerr.toNat else 0)) s
  else if refused then refuseAtSource t.sdie t.recs.length s else s

/-- After a placement: the counters and the ageing count (14 R332, R338). -/
def countPlacement (x : Ing) (zsum : Bool) : RegM Unit := do
  countRoute x 0
  if zsum then countRoute x 6 else pure ()
  modify (updRoute x.d (fun r =>
    if r.aged + 1 == 2 ^ bits (cfgW x.cfg 0) 23 5 then { r with aged := 0, agings := r.agings + 1 } else { r with aged := r.aged + 1 }))

/-- One placement of the record at the head of the intake; false when intake pauses. -/
def placeNext (x : Ing) (t : Transfer) (rec : TokRec) (i j : Nat) (es : List Nat) : RegM Bool := do
  match placementOf x.cfg rec j with
  | none => pure false
  | some (e, alt, ent) => do
    let s ← get
    let before := alt.map (fun a => (a, bufOf (routeOf s x.d) a))
    let ok ← (match (routeOf s x.d).paused with
      | some (pe, pent, park) => appendNow x pe pent park
      | none => place x e alt ent)
    if !ok then pure false
    else do
      countPlacement x (j == 0 && bit ent.1 38)
      let s ← get
      let dest := match before with
        | some (a, b) => if bufOf (routeOf s x.d) a == b then e else a
        | none => e
      let last := j + 1 == cfgTope x.cfg
      modify (updRoute x.d (fun r => { r with intake := some (t, if last then i + 1 else i, if last then 0 else j + 1, setInsert dest es) }))
      pure true

/-- Hand out the buffers of a FLUSH transfer that are still filling, in ascending local index. -/
def handFlushed (x : Ing) : List Nat → RegM Unit
  | [] => pure ()
  | e :: r => do
    let s ← get
    let b := bufOf (routeOf s x.d) e
    let now ← goesOut x e false
    if !b.out && b.count > 0 && now then handOut x e true false false else pure ()
    handFlushed x r

/-- What the intake of a die does next; none: it pauses or waits. -/
def intakeStep (x : Ing) (t : Transfer) (i j : Nat) (es : List Nat) (s : State) : Option State :=
  let run (m : RegM Bool) : Option State :=
    match runRegion (.place x.d) x.l none 3 m s with
    | (s1, some true) => some s1
    | (s1, some false) => if s1 == s then none else some s1
    | (s1, none) => if s1 == s then none else some s1
  match t.recs[i]? with
  | none => run (do
      if t.flush.isSome then handFlushed x (x.cfg.homed.filter (fun e => es.contains e)) else pure ()
      modify (fun s => endTransfer t false (updRoute x.d (fun r => { r with intake := none }) s))
      pure true)
  | some rec =>
    if homedHere s x (recGroup rec) then run (placeNext x t rec i j es)
    else run (do
      countRoute x 7
      modify (updRoute x.d (fun r => { r with intake := some (t, i + 1, 0, es) }))
      pure true)

/-- The next step of an ingress: the releases that wait, the record at the head of its intake, or the next transfer. -/
def ingressStep (s : State) (d : Nat) : Option State :=
  let r := routeOf s d
  if heldOn s (.place d) || r.agings > 0 then none
  else if !r.pend.isEmpty then
    let s1 := flushReleases d r.pend.length s
    if s1 == s then none else some s1
  else match r.intake with
    | some (t, i, j, es) => (servesJob s d t).bind (fun x => intakeStep x t i j es s)
    | none =>
      match r.incoming with
      | [] => none
      | t :: rest =>
        let s1 := updRoute d (fun r => { r with incoming := rest }) s
        if (servesJob s d t).isSome then some (updRoute d (fun r => { r with intake := some (t, 0, 0, []) }) s1)
        else some (endTransfer t true s1)

/-- INGRESS_TRANSFER. -/
def execIngressTransfer (die : Nat) (s : State) : Out :=
  event (die < 4 && (ingressStep s die).isSome) "INGRESS_TRANSFER" (fun s => (ingressStep s die).getD s) s

/-- A step of the ingress that accesses its regions, when no release waits. -/
def ingressEvent (d : Nat) (m : Ing → RegM Unit) (s : State) : State :=
  match ingOf s d with
  | some x => (runRegion (.place d) x.l none 3 (m x) s).1
  | none => s

def ingressIdle (s : State) (d : Nat) : Bool := d < 4 && !heldOn s (.place d) && (routeOf s d).pend.isEmpty

def bufferTimeoutOn (s : State) (die e : Nat) : Bool :=
  ingressIdle s die && (ingOf s die).any (fun x =>
    let b := bufOf (routeOf s die) e
    !b.out && !(routeOf s die).fetching.any (fun p => p.1 == e) && !(routeOf s die).requests.contains e && b.count > 0 && b.since + bits (cfgW x.cfg 2) 32 32 ≤ s.clk)

/-- BUFFER_TIMEOUT. -/
def execBufferTimeout (die e : Nat) (s : State) : Out :=
  event (bufferTimeoutOn s die e) "BUFFER_TIMEOUT" (ingressEvent die (fun x => do
    let now ← goesOut x e false
    if now then handOut x e false true false else pure ())) s

def freqAgeingOn (s : State) (die : Nat) : Bool := ingressIdle s die && (ingOf s die).isSome && (routeOf s die).agings > 0

/-- Halve FREQ of entries, rounding down. -/
def ageAll (x : Ing) : List Nat → RegM Unit
  | [] => pure ()
  | e :: r => do
    let w ← ertRead x e
    ertWrite x e (setBits w 32 16 (ertFreq w / 2))
    ageAll x r

/-- FREQ_AGEING. -/
def execFreqAgeing (die : Nat) (s : State) : Out :=
  event (freqAgeingOn s die) "FREQ_AGEING" (ingressEvent die (fun x => do
    ageAll x x.cfg.homed
    modify (updRoute x.d (fun r => { r with agings := r.agings - 1 })))) s

/-! ## Fetches (14 R329, R331, R344) -/

/-- A fetch of an expert on a die: its HOME as it stood at the start, and whether its launch has ended meanwhile. -/
structure Fetch where
  x : Ing
  e : Nat
  home : W64
  old : Bool
  deriving DecidableEq, Repr

/-- The fetch of an expert; one of an ended launch goes first. -/
def fetchOf (s : State) (d e : Nat) : Option Fetch :=
  let r := routeOf s d
  match r.old.find? (fun o => o.e == e) with
  | some o => some { x := { d := d % 4, cfg := o.cfg, l := o.l }, e := e, home := o.home, old := true }
  | none => (ingOf s d).bind (fun x => (r.fetching.find? (fun p => p.1 == e)).map (fun p =>
      { x := x, e := e, home := p.2, old := false }))

/-- What a fetch has come to. -/
inductive FetchRes where
  | ok (bs : List Byte)
  | fail
  | wait (q : Req)
  deriving DecidableEq, Repr

/-- Bytes of a fetch's source, each with its mark. -/
def fetchRead (s : State) (asid : Nat) (va : W64) (n : Nat) : Except (Req × XRes) (List (Byte × Bool)) :=
  (rangeKeys s (agentReq asid false true false) (pieces va n)).map (fun ks => ks.map (memSector s))

/-- The outcome of a fault for a fetch. -/
def fetchFault (f : Req × XRes) : FetchRes :=
  match f with
  | (q, .miss) => .wait q
  | _ => .fail

/-- The slot's bytes from a source, decoded when DEC is set. -/
def fetchDecode (s : State) (c : RouteCfg) (rd : Nat → Nat → Except (Req × XRes) (List (Byte × Bool))) : FetchRes :=
  let whole (bs : List (Byte × Bool)) : Bool := !bs.any (fun b => b.2)
  if !cfgDec c then
    match rd 0 (cfgSlotB c) with
    | .error f => fetchFault f
    | .ok bs => if whole bs && bs.length == cfgSlotB c then .ok (plain bs) else .fail
  else match fetchRead s c.asid (cfgW c 11) 288 with
    | .error f => fetchFault f
    | .ok image =>
      match if whole image then tableOf (plain image) else none with
      | none => .fail
      | some t =>
        let r := decodeAll t rd (cfgSlotB c)
        match r.fault with
        | some f => fetchFault f
        | none => if r.status == 0 then .ok r.out else .fail

/-- The result of a fetch from memory. -/
def fetchResult (s : State) (f : Fetch) : FetchRes :=
  if bit f.home 63 then .fail
  else fetchDecode s f.x.cfg (fun o n => fetchRead s f.x.cfg.asid (f.home + w64 o) n)

/-- The entry leaves the fetches of its die. -/
def dropFetch (f : Fetch) (s : State) : State :=
  updRoute f.x.d (fun r =>
    if f.old then { r with old := match r.old.find? (fun o => o.e == f.e) with
      | some o => r.old.erase o
      | none => r.old }
    else { r with fetching := r.fetching.filter (fun p => p.1 != f.e) }) s

/-- The fetch completes: the slot is written, the entry resident, and the wait queue drains. -/
def fetchDone (f : Fetch) (bs : List Byte) : RegM Unit := do
  let w ← ertRead f.x f.e
  rWrite f.x.l none (slotVa f.x.cfg (ertSlot w)) bs
  ertWrite f.x f.e (setBits w 16 2 2)
  modify (dropFetch f)
  if f.old then pure ()
  else do
    let s ← get
    let b := bufOf (routeOf s f.x.d) f.e
    if !b.out && b.count == cfgC f.x.cfg then handOut f.x f.e false false false else pure ()
    let _ ← drainWq f.x f.e
    settleRef f.x f.e

/-- The fetch fails: the entry is absent, its slot free, and the placements in its buffer and then the parked ones are handed out
with FFAIL. -/
def fetchLost (f : Fetch) : RegM Unit := do
  let w ← ertRead f.x f.e
  ertWrite f.x f.e (setBits (setBits (setBits w 16 2 0) 20 12 0) 48 16 0)
  modify (dropFetch f)
  if f.old then pure ()
  else do
    let s ← get
    let n := (wqOf (routeOf s f.x.d) f.e).ents.length
    let b := bufOf (routeOf s f.x.d) f.e
    if n > 0 then modify (updRoute f.x.d (fun r => { r with failing := alPut r.failing f.e n })) else pure ()
    if !b.out && b.count > 0 then handOut f.x f.e false false true
    else if n > 0 then do
      let _ ← drainWq f.x f.e
      pure ()
    else pure ()
    retryAll f.x

/-- End a fetch; a fault of the regions holds it. -/
def endFetch (f : Fetch) (bs : Option (List Byte)) (s : State) : State :=
  (runRegion (.fetch f.x.d f.e) f.x.l none 3 (match bs with
    | some b => fetchDone f b
    | none => fetchLost f) (unhold (.fetch f.x.d f.e) s)).1

/-- Whether the access on which a fetch was held has failed. -/
def fetchFailed (s : State) (d e : Nat) : Bool := (holdOf s (.fetch d e)).any (fun h => h.ended == some true)

/-- A fetch that can go on now: it is not held, and no release waits before it. -/
def readyFetch (s : State) (d e : Nat) : Option Fetch :=
  if ingressIdle s d && !heldOn s (.fetch d e) then fetchOf s d e else none

def fetchCompleteOn (s : State) (die e : Nat) : Bool :=
  (readyFetch s die e).any (fun f => !bit f.home 63 && !fetchFailed s die e &&
    (match fetchResult s f with
     | .ok _ => true
     | .wait _ => true
     | .fail => false))

/-- FETCH_COMPLETE. -/
def execFetchComplete (die e : Nat) (s : State) : Out :=
  event (fetchCompleteOn s die e) "FETCH_COMPLETE" (fun s =>
    match readyFetch s die e with
    | none => s
    | some f => match fetchResult s f with
      | .ok bs => endFetch f (some bs) s
      | .wait q => agentMiss 3 (.fetch die e) q (unhold (.fetch die e) s)
      | .fail => s) s

/-- Whether a read of a drive is outstanding for a fetch. -/
def fetchReads (s : State) (die e : Nat) : Bool := s.host.reads.any (fun r => r.expert == some e && r.die == die)

def fetchFailOn (s : State) (die e : Nat) : Bool :=
  (readyFetch s die e).any (fun f => fetchFailed s die e ||
    (if bit f.home 63 then !fetchReads s die e
     else match fetchResult s f with
       | .fail => true
       | _ => false))

/-- FETCH_FAIL: a failed access, bad data, or a drive handle that is not granted. -/
def execFetchFail (die e : Nat) (s : State) : Out :=
  event (fetchFailOn s die e) "FETCH_FAIL" (fun s =>
    match readyFetch s die e with
    | some f => endFetch f none s
    | none => s) s

/-! ## Completions of drive reads (12 R285, 14 R331) -/

/-- Whether two reads serve one command or one fetch. -/
def sameRead (r x : DriveRead) : Bool :=
  r.expert == x.expert && (if r.expert.isSome then r.die == x.die else r.core == x.core && r.cmd == x.cmd)

/-- Whether an earlier read of its command or fetch is still outstanding: they are written in LBA order (12 R272; 16 R380). -/
def readEarly (s : State) (r : DriveRead) : Bool := s.host.reads.any (fun x => sameRead r x && x.off < r.off)

/-- A read leaves the reads outstanding: its completion entry is taken, and there is room for one that waits. -/
def dropRead (r : DriveRead) (s : State) : State :=
  pumpDrive r.handle 1 (takeCompletion r.handle { s with host := { s.host with reads := s.host.reads.filter (fun x => x.num != r.num) } })

/-- The other reads of a command or fetch that is over: those not submitted are not, and the drive's answers to the others are
for nobody. -/
def orphanReads (r : DriveRead) (s : State) : State :=
  let upd (x : DriveRead) : DriveRead := if sameRead r x && x.num != r.num then { x with core := outsider, expert := none } else x
  { s with host := { s.host with reads := (s.host.reads.filter (fun x => !(sameRead r x && x.num != r.num && !x.sent))).map upd } }

/-- One read of a CSTOR has landed; the command ends with its last one. -/
def partDone (r : DriveRead) (s : State) : State :=
  let s1 := dropRead r s
  if s1.host.reads.any (sameRead r) then updCmd r.core 1 r.cmd (fun q => { q with st := .away r.num, done := 0 }) s1 else s1

/-- The completion of a read of a CSTOR: the data that was delivered is written, then the status. A fault ends the command. -/
def cstorDone (r : DriveRead) (status : Nat) (data : List Byte) (s : State) : State :=
  match (coreOf s r.core).copyq.find? (fun q => q.num == r.cmd) with
  | none => dropRead r s
  | some q => match q.op with
    | .cstor glob dst _ _ =>
      let d : Spot := if glob then .glob (dst + w64 r.off) else .spad (bits dst 0 19 + r.off)
      let bs := data.take r.bytes
      let s1 := runCmd r.core 1 q csFault (moveStep r.core q d (.data bs) bs.length csFault csFault) s
      (match (coreOf s1 r.core).copyq.find? (fun q => q.num == r.cmd) with
       | some q1 =>
         if q1.st != .done then s1
         else if q1.status &&& csFault != 0 then dropRead r (orphanReads r s1)
         else if status == 0 then partDone r s1
         else partDone r (updCmd r.core 1 r.cmd (fun q => { q with status := q.status ||| csNvmeerr, w3 := w64 (status % 2 ^ 15) }) s1)
       | none => dropRead r s1)
    | _ => dropRead r s

/-- The next read of a stream: the chunk behind the `n` bytes that are here. -/
def readOnward (r : DriveRead) (d : Drive) (bs : List Byte) (s : State) : State :=
  let x := s.host.readNum
  let lba := r.lba - r.off / d.block
  let upd (y : DriveRead) : DriveRead := if x ≤ y.num then { y with pre := bs } else y
  let s1 := queueReads d { r with lba := lba, sent := false, pre := [] } bs.length 4096 s
  { s1 with host := { s1.host with reads := s1.host.reads.map upd } }

/-- What has come of a fetch's source so far; an error where it does not reach. -/
def fetchedPart (bs : List Byte) (o n : Nat) : Except (Req × XRes) (List (Byte × Bool)) :=
  if o + n ≤ bs.length then .ok (((bs.drop o).take n).map (fun b => (b, false)))
  else .error ({ va := 0, asid := 0, sub := false, rd := true, wr := false, fetch := false, user := true }, .invalid)

/-- Whether a stream to decode goes on behind the bytes that have come. -/
def streamShort (s : State) (c : RouteCfg) (bs : List Byte) : Bool :=
  cfgDec c && (match fetchRead s c.asid (cfgW c 11) 288 with
    | .ok image => (if image.any (fun b => b.2) then none else tableOf (plain image)).any (fun t =>
        (decodeAll t (fetchedPart bs) (cfgSlotB c)).fault.isSome)
    | .error _ => false)

/-- The completion of a fetch's read: with the last one the slot is written. -/
def fetchReadDone (r : DriveRead) (e status : Nat) (data : List Byte) (s : State) : State :=
  match fetchOf s r.die e with
  | none => dropRead r s
  | some f =>
    let bs := r.pre ++ data.take r.bytes
    let ends (res : Option (List Byte)) : State :=
      let s1 := endFetch f res s
      if heldOn s1 (.fetch r.die e) then s1 else dropRead r (orphanReads r s1)
    if status != 0 || fetchFailed s r.die e || data.length < r.bytes then ends none
    else match (s.host.reads.filter (fun x => sameRead r x && x.num != r.num)).map (fun x => x.num) with
      | y :: _ => dropRead r { s with host := { s.host with reads := s.host.reads.map (fun x => if x.num == y then { x with pre := bs } else x) } }
      | [] =>
        if streamShort s f.x.cfg bs then
          (match driveOf s r.handle with
           | some d => dropRead r (readOnward r d bs s)
           | none => ends none)
        else match fetchDecode s f.x.cfg (fetchedPart bs) with
          | .wait q => agentMiss 3 (.fetch r.die e) q (unhold (.fetch r.die e) s)
          | .ok out => ends (some out)
          | .fail => ends none

/-- NVME_COMPLETION: the drive has posted the completion of a read, with the bytes it delivered. -/
def execNvmeCompletion (x status : Nat) (data : List Byte) (s : State) : Out :=
  .next (match s.host.reads.find? (fun r => r.num == x) with
    | none => s
    | some r => match r.expert with
      | none => cstorDone r status data s
      | some e => fetchReadDone r e status data s)

end Sys2Proof.Machine
end

