-- ==== Sys2Proof/Machine/List.lean ====
section
/-! DEFINITION. Ranked-list instructions (10 R235 to R245). -/
namespace Sys2Proof.Machine

/-! ## Flags of RLSTAT (10 R245) -/

def rlUninit : BitVec 4 := 1
def rlBadimg : BitVec 4 := 2
def rlNarrow : BitVec 4 := 4
def rlSat : BitVec 4 := 8

/-- Hold the state of a list for the close of the group. -/
def writeL (l : BitVec 2) (v : RList) (s : State) : State := put (.rlist l v) s

/-- Check 4 for lists and vector registers. -/
def listDeclared (s : State) (ls : List (BitVec 2)) (vs : List (BitVec 5)) : Bool :=
  ls.all (fun l => l.toNat < s.ctx.nl) && vecDeclared s vs

/-- The flags that a run of offers sets. -/
def offerFlags (o : Offer) (s : State) : State :=
  flagFp (if o.nd then fND else 0) (flagRl (if o.sat then rlSat else 0) s)

/-- RLINS and RLINSX (10 R238): one pair for each active container, in ascending order. -/
def listInsert (sw : Bool) (l : BitVec 2) (a : BitVec 5) (m : BitVec 3) (ix : Nat → W32) (s : State) : State :=
  let x := readL s l
  if x.k == 0 then finish sw (put (.rladm 0) (flagRl rlUninit s))
  else
    let lanes := (List.range 128).filter (fun j => (readM s m).getLsbD j)
    let o := offerAll x (lanes.map (fun j => (w32 (elem (readV s a) 32 j), ix j)))
    finish sw (put (.rladm (o.ents.countP (fun e => e.2))) (offerFlags o (writeL l (o.list x) s)))

/-- RLINS l, va, wb, m. -/
def execRlins (sw : Bool) (l : BitVec 2) (a : BitVec 5) (b : BitVec 4) (m : BitVec 3) (s : State) : Out :=
  .next (declared (listDeclared s [l] [a]) (insn (encRlins sw l a b m))
    (listInsert sw l a m (fun j => w32 (bits (readW s b) 0 32 + j))) s)

/-- RLINSX l, va, vb, m. -/
def execRlinsx (sw : Bool) (l : BitVec 2) (a b : BitVec 5) (m : BitVec 3) (s : State) : Out :=
  .next (declared (listDeclared s [l] [a, b]) (insn (encRlinsx sw l a b m))
    (listInsert sw l a m (fun j => w32 (elem (readV s b) 32 j))) s)

/-- RLPRUNE md, va, l, m (10 R234, R243). -/
def execRlprune (sw : Bool) (d : BitVec 3) (a : BitVec 5) (l : BitVec 2) (m : BitVec 3) (s : State) : Out :=
  let x := readL s l
  let t := (threshold x).1
  let bound (j : Nat) : W32 := w32 (elem (readV s a) 32 j)
  let act (j : Nat) : Bool := (readM s m).getLsbD j
  let kept (j : Nat) : Bool := isNan32 (bound j) || !below32 (bound j) t
  let n := (List.range 128).countP (fun j => act j && !kept j)
  .next (declared (listDeclared s [l] [a]) (insn (encRlprune sw d a l m)) (fun s =>
    finish sw (flagRl (if n > 0 && x.skips + n ≥ 2 ^ 32 - 1 then rlSat else 0)
      (put (.mask d (ofMask (fun j => act j && kept j))) (writeL l { x with skips := satAdd 32 x.skips n } s)))) s)

/-- RLMERGE l, l2 (10 R239). -/
def execRlmerge (sw : Bool) (l k : BitVec 2) (s : State) : Out :=
  let x := readL s l
  let y := readL s k
  .next (declared (listDeclared s [l, k] []) (insn (encRlmerge sw l k)) (fun s =>
    if x.k == 0 then finish sw (flagRl rlUninit s)
    else
      let o := offerAll x y.ents
      let z := { o.list x with nans := satAdd 16 o.nans y.nans, skips := satAdd 32 x.skips y.skips }
      let sat := o.sat || (y.nans > 0 && o.nans + y.nans ≥ 0xFFFF) || (y.skips > 0 && x.skips + y.skips ≥ 2 ^ 32 - 1)
      finish sw (flagRl (if y.k != 0 && y.k < x.k then rlNarrow else 0) (flagRl (if sat then rlSat else 0) (writeL l z s)))) s)

/-- RLCLR l (10 R237). -/
def execRlclr (sw : Bool) (l : BitVec 2) (s : State) : Out :=
  .next (declared (listDeclared s [l] []) (insn (encRlclr sw l))
    (fun s => finish sw (writeL l { RList.fresh with k := (readL s l).k } s)) s)

/-- RLINIT l, k (10 R237). -/
def execRlinit (sw : Bool) (k : BitVec 7) (l : BitVec 2) (s : State) : Out :=
  .next (declared (listDeclared s [l] []) (insn (encRlinit sw k l))
    (fun s => finish sw (writeL l { RList.fresh with k := k.toNat } s)) s)

/-- RLTHR wd, l (10 R241). -/
def execRlthr (sw : Bool) (d : BitVec 4) (l : BitVec 2) (s : State) : Out :=
  .next (declared (listDeclared s [l] []) (insn (encRlthr sw d l))
    (fun s => finish sw (writeW d (entWord (threshold (readL s l))) s)) s)

/-- RLLEN wd, l (10 R241). -/
def execRllen (sw : Bool) (d : BitVec 4) (l : BitVec 2) (s : State) : Out :=
  .next (declared (listDeclared s [l] []) (insn (encRllen sw d l))
    (fun s => finish sw (writeW d (imageWord0 (readL s l)) s)) s)

/-- RLGET wd, l, wb (10 R241). -/
def execRlget (sw : Bool) (d a : BitVec 4) (l : BitVec 2) (s : State) : Out :=
  .next (declared (listDeclared s [l] []) (insn (encRlget sw d a l)) (fun s =>
    finish sw (writeW d (((readL s l).ents[(readW s a).toNat]?).elim 0xFFFFFFFFFF800000 entWord) s)) s)

/-- RLST l, [wa] (10 R240). -/
def execRlst (sw : Bool) (a : BitVec 4) (l : BitVec 2) (s : State) : Out :=
  let o := readW s a
  .next (declared (listDeclared s [l] []) (insn (encRlst sw a l)) (aligned (wrapped s o) 8
    (fun s => finish sw (spWrite o (bytesOf (listImage (readL s l))) s))) s)

/-- RLLD l, [wa] (10 R240): the header is read first, then the entries that LEN names. -/
def execRlld (sw : Bool) (a : BitVec 4) (l : BitVec 2) (s : State) : Out :=
  let o := readW s a
  .next (declared (listDeclared s [l] []) (insn (encRlld sw a l)) (aligned (wrapped s o) 8 (spLoad o 32 (fun hb s =>
    let h := wordsOf 4 hb
    let n := bits (wordAt h 0) 8 7
    if !headOk h then finish sw (flagRl rlBadimg s)
    else spLoad (o + 32) (8 * n) (fun eb s =>
      match listOfImage h (wordsOf n eb) with
      | none => finish sw (flagRl rlBadimg s)
      | some v => finish sw (flagRl (if v.k < (readL s l).k then rlNarrow else 0) (writeL l v s))) s))) s)

/-- RLSEND wd, wa, l (10 R244): SENDB of the image as it stands at post; HX.PRI does not apply. -/
def execRlsend (sw : Bool) (d a : BitVec 4) (l : BitVec 2) (s : State) : Out :=
  let pc := readW s a
  let w := readW s d
  let w := if mMode w == 2 then setBits w 60 1 1 else w
  let img := bytesOf (listImage (readL s l))
  .next (declared (listDeclared s [l] []) (insn (encRlsend sw d a l)) (fun s =>
    if mMode w == 4 && noSubgroup (myLaunch s) (mCode w) then raise 0x0C (w64 (mCode w)) s
    else if !destOk s (myLaunch s) w pc 0 false true 0 then status sw stBaddest s
    else sendMsg sw false (destClean w) pc [] (some (img, bits (readWn s a 1) 0 19)) 0 s) s)

/-- RLFLOOR l, wa (10 R242). -/
def execRlfloor (sw : Bool) (a : BitVec 4) (l : BitVec 2) (s : State) : Out :=
  let f : W32 := w32 (bits (readW s a) 0 32)
  .next (declared (listDeclared s [l] []) (insn (encRlfloor sw a l)) (fun s =>
    if isNan32 f then finish sw (flagFp fND s)
    else
      let x := readL s l
      finish sw (writeL l { x with floor := plusZero f, ents := x.ents.filter (fun e => !below32 e.1 f) } s)) s)

end Sys2Proof.Machine
end

