-- ==== Sys2Proof/Machine/Elementary.lean ====
section
/-! DEFINITION. Functions of the vector unit that are correctly rounded though no exact result exists (09 R202, R205,
R223): 2^a, log2 a and ip / √cc, each computed far beyond any format with a last bit that stands for the rest. The
argument that no result lies closer to a rounding boundary than this precision is assumption 14. -/
namespace Sys2Proof.Machine

/-- ln 2 in units of 2^−p: the first p + 8 terms of the sum of 1 / (k 2^k). -/
def ln2Fix (p : Nat) : Nat :=
  ((List.range (p + 8)).map (fun k => 2 ^ p / ((k + 1) * 2 ^ (k + 1)))).foldl (fun a b => a + b) 0

/-- Terms x^n / n! of the exponential series in units of 2^−p, from term `n` on. -/
def expGo (p x : Nat) : Nat → Nat → Nat → Nat
  | 0, _, _ => 0
  | f + 1, n, t => t + expGo p x f (n + 1) (t * x / 2 ^ p / (n + 1))

/-- e^x for 0 ≤ x < 1 in units of 2^−p. -/
def expFix (p x : Nat) : Nat := expGo p x 100 0 (2 ^ p)

/-- A value between two integers in units of 2^q: it rounds as any value between them does. -/
def between (v : Int) (q : Int) : Fp := ofScaled false (2 * v + 1) (q - 1)

/-- 2^a (09 R202, R205). -/
def exp2Fp (x : Fp) : Fp :=
  match x with
  | .nan => .nan
  | .inf neg => if neg then .fin false 0 0 else .inf false
  | .fin neg m e =>
    let p : Nat := 320
    let v := scaledInt neg m (max e (-160)) (-160)
    let n : Int := max (-2000) (min 2000 (v / (2 ^ 160 : Nat)))
    let f : Nat := (v % (2 ^ 160 : Nat)).toNat
    if e ≥ -160 && f == 0 then .fin false 1 n
    else between (expFix p (f * 2 ^ 160 * ln2Fix p / 2 ^ p) : Nat) (n - p)

/-- The fraction bits of log2 m for 2^p ≤ m < 2^(p+1) by repeated squaring: `n` bits, highest first. -/
def log2Go (p : Nat) : Nat → Nat → Nat → Nat
  | 0, _, acc => acc
  | n + 1, x, acc =>
    let y := x * x / 2 ^ p
    if y ≥ 2 ^ (p + 1) then log2Go p n (y / 2) (2 * acc + 1) else log2Go p n y (2 * acc)

/-- log2 a (09 R202, R205): NV below −0, DZ at a zero. -/
def log2Fp (x : Fp) : Fp × BitVec 6 :=
  match x with
  | .nan => (.nan, 0)
  | .inf neg => if neg then (.nan, fNV) else (.inf false, 0)
  | .fin neg m e =>
    if m == 0 then (.inf true, fDZ)
    else if neg then (.nan, fNV)
    else
      let l := Nat.log2 m
      if m == 2 ^ l then (ofScaled false ((l : Int) + e) 0, 0)
      else
        let p : Nat := 512
        let f := log2Go p 200 (m * 2 ^ (p - l)) 0
        (between (((l : Int) + e) * (2 ^ 200 : Nat) + (f : Int)) (-200), 0)

/-- ip / √cc (09 R223): NV for ∞ / ∞, +0 where cc is zero. DESIGN CHOICE: a NaN ip gives NaN there too (assumption 144). -/
def cosFp (ip cc : Fp) : Fp × BitVec 6 :=
  match ip, cc with
  | .nan, _ => (.nan, 0)
  | _, .nan => (.nan, 0)
  | .inf _, .inf _ => (.nan, fNV)
  | .fin a _ e, .inf _ => (.fin a 0 e, 0)
  | .inf a, .fin _ n _ => if n == 0 then (.fin false 0 0, 0) else (.inf a, 0)
  | .fin a m e, .fin _ n g =>
    if n == 0 then (.fin false 0 0, 0)
    else if m == 0 then (.fin a 0 0, 0)
    else
      let k : Nat := 400 + (g % 2).toNat
      let v := m * m * 2 ^ k / n
      let r := isqrt v
      (sticky a r (r * r * n != m * m * 2 ^ k) ((2 * e - g - k) / 2), 0)

end Sys2Proof.Machine
end

