-- ==== Sys2Proof/Machine/Vector.lean ====
section
/-! DEFINITION. Vector instructions (09 R196 to R224; reductions and scans 02 R35 to R37). -/
namespace Sys2Proof.Machine

/-! ## Shapes of vector instructions -/

/-- A vector instruction that reads and writes the registers `vs` and whose reuse slots are `srcs`: check 4, the queue,
the result. -/
def vop (word : Nat) (vs : List (BitVec 5)) (srcs : List (Nat × Src)) (sw : Bool) (k : State → State) (s : State) :
    State :=
  declared (vecDeclared s vs) (insn word) (vecIssue srcs (fun s => finish sw (k s))) s

/-- The active elements of `vd` follow `f` of their index. -/
def vmap (w : Nat) (v : BitVec 5) (m : BitVec 3) (f : Nat → Nat × BitVec 6) (s : State) : State :=
  let mk := readM s m
  writeV v (buildLanes w (readV s v) (fun i => if active mk w i then some (f i) else none)) s

/-- Element `i` of a register of width `w`. -/
def ev (s : State) (w : Nat) (r : BitVec 5) (i : Nat) : Nat := elem (readV s r) w i

/-! ## Floating-point arithmetic (09 R202 to R205) -/

/-- The format of a type field. -/
def typeFmt (t : BitVec 2) : Fmt := if t == 0 then fp32 else if t == 1 then bf16 else fp16

/-- A rounded result with the flags of its exact operation. -/
def rounded (f : Fmt) (mode : Nat) (r : Fp × BitVec 6) : Nat × BitVec 6 :=
  let x := roundFp f mode r.1
  (x.1, x.2 ||| r.2)

/-- A binary operation on exact values. -/
def vbin (op : Nat → Fp → Fp → Fp × BitVec 6) (word : Nat) (sw : Bool) (v a b : BitVec 5) (m : BitVec 3) (t : BitVec 2)
    (s : State) : State :=
  let f := typeFmt t
  vop word [v, a, b] [(1, .v a), (2, .v b), (3, .rest v m)] sw (fun s =>
    let mode := rndOf s
    vmap f.width v m (fun i =>
      rounded f mode (op mode (decodeFp f (ev s f.width a i)) (decodeFp f (ev s f.width b i)))) s) s

/-- A unary operation on exact values. -/
def vun (op : Fp → Fp × BitVec 6) (word : Nat) (sw : Bool) (v a : BitVec 5) (m : BitVec 3) (t : BitVec 2) (s : State) : State :=
  let f := typeFmt t
  vop word [v, a] [(1, .v a), (3, .rest v m)] sw (fun s =>
    let mode := rndOf s
    vmap f.width v m (fun i => rounded f mode (op (decodeFp f (ev s f.width a i)))) s) s

/-- A fused operation: the exact product and the exact third operand, one rounding (09 R203). -/
def vfused (negP negD : Bool) (word : Nat) (sw : Bool) (v a b : BitVec 5) (m : BitVec 3) (t : BitVec 2) (s : State) : State :=
  let f := typeFmt t
  vop word [v, a, b] [(1, .v a), (2, .v b), (3, .v v)] sw (fun s =>
    let mode := rndOf s
    vmap f.width v m (fun i =>
      let p := mulFp (decodeFp f (ev s f.width a i)) (decodeFp f (ev s f.width b i))
      let d := decodeFp f (ev s f.width v i)
      let r := addFp mode (if negP then negFp p.1 else p.1) (if negD then negFp d else d)
      rounded f mode (r.1, p.2 ||| r.2)) s) s

/-- An operation on the sign bit alone. -/
def vsign (g : Nat → Nat → Nat) (word : Nat) (sw : Bool) (v a : BitVec 5) (m : BitVec 3) (t : BitVec 2) (s : State) : State :=
  let w := (typeFmt t).width
  vop word [v, a] [(1, .v a), (3, .rest v m)] sw (fun s => vmap w v m (fun i => (g (2 ^ (w - 1)) (ev s w a i), 0)) s) s

/-- Whether an encoding is a NaN. -/
def isNanF (f : Fmt) (n : Nat) : Bool := decodeFp f n == .nan

/-- An order key of encodings that are no NaN: −0 below +0. -/
def keyF (f : Fmt) (n : Nat) : Int :=
  let h := 2 ^ (f.width - 1)
  if n ≥ h then -((n - h : Nat) : Int) - 1 else (n : Int)

/-- The same with −0 equal to +0. -/
def keyEqF (f : Fmt) (n : Nat) : Int :=
  let h := 2 ^ (f.width - 1)
  if n ≥ h then -((n - h : Nat) : Int) else (n : Int)

/-- The smaller or larger operand (09 R204; 02 R37). -/
def minmaxF (f : Fmt) (isMax : Bool) (a b : Nat) : Nat × BitVec 6 :=
  if isNanF f a then (if isNanF f b then (f.nanEnc, 0) else (b, fND))
  else if isNanF f b then (a, fND)
  else if isMax then (if keyF f a < keyF f b then b else a, 0)
  else (if keyF f b < keyF f a then b else a, 0)

/-- VMIN and VMAX. -/
def vminmax (isMax : Bool) (word : Nat) (sw : Bool) (v a b : BitVec 5) (m : BitVec 3) (t : BitVec 2) (s : State) : State :=
  let f := typeFmt t
  vop word [v, a, b] [(1, .v a), (2, .v b), (3, .rest v m)] sw (fun s =>
    vmap f.width v m (fun i => minmaxF f isMax (ev s f.width a i) (ev s f.width b i)) s) s

/-- VADD.t vd, va, vb, m (09 R202). -/
def execVadd (sw : Bool) (v a b : BitVec 5) (m : BitVec 3) (t : BitVec 2) (s : State) : Out :=
  .next (vbin addFp (encVadd sw v a b m t) sw v a b m t s)
/-- VSUB.t vd, va, vb, m (09 R202). -/
def execVsub (sw : Bool) (v a b : BitVec 5) (m : BitVec 3) (t : BitVec 2) (s : State) : Out :=
  .next (vbin (fun md x y => addFp md x (negFp y)) (encVsub sw v a b m t) sw v a b m t s)
/-- VMUL.t vd, va, vb, m (09 R202). -/
def execVmul (sw : Bool) (v a b : BitVec 5) (m : BitVec 3) (t : BitVec 2) (s : State) : Out :=
  .next (vbin (fun _ => mulFp) (encVmul sw v a b m t) sw v a b m t s)
/-- VDIV.t vd, va, vb, m (09 R202). -/
def execVdiv (sw : Bool) (v a b : BitVec 5) (m : BitVec 3) (t : BitVec 2) (s : State) : Out :=
  .next (vbin (fun _ => divFp) (encVdiv sw v a b m t) sw v a b m t s)
/-- VMIN.t vd, va, vb, m (09 R204). -/
def execVmin (sw : Bool) (v a b : BitVec 5) (m : BitVec 3) (t : BitVec 2) (s : State) : Out :=
  .next (vminmax false (encVmin sw v a b m t) sw v a b m t s)
/-- VMAX.t vd, va, vb, m (09 R204). -/
def execVmax (sw : Bool) (v a b : BitVec 5) (m : BitVec 3) (t : BitVec 2) (s : State) : Out :=
  .next (vminmax true (encVmax sw v a b m t) sw v a b m t s)
/-- VFMA.t vd, va, vb, m: a × b + d (09 R203). -/
def execVfma (sw : Bool) (v a b : BitVec 5) (m : BitVec 3) (t : BitVec 2) (s : State) : Out :=
  .next (vfused false false (encVfma sw v a b m t) sw v a b m t s)
/-- VFMS.t vd, va, vb, m: a × b − d (09 R203). -/
def execVfms (sw : Bool) (v a b : BitVec 5) (m : BitVec 3) (t : BitVec 2) (s : State) : Out :=
  .next (vfused false true (encVfms sw v a b m t) sw v a b m t s)
/-- VFNMA.t vd, va, vb, m: d − a × b (09 R203). -/
def execVfnma (sw : Bool) (v a b : BitVec 5) (m : BitVec 3) (t : BitVec 2) (s : State) : Out :=
  .next (vfused true false (encVfnma sw v a b m t) sw v a b m t s)
/-- VABS.t vd, va, m (09 R202). -/
def execVabs (sw : Bool) (v a : BitVec 5) (m : BitVec 3) (t : BitVec 2) (s : State) : Out :=
  .next (vsign (fun h x => x % h) (encVabs sw v a m t) sw v a m t s)
/-- VNEG.t vd, va, m (09 R202). -/
def execVneg (sw : Bool) (v a : BitVec 5) (m : BitVec 3) (t : BitVec 2) (s : State) : Out :=
  .next (vsign (fun h x => if x ≥ h then x - h else x + h) (encVneg sw v a m t) sw v a m t s)
/-- VSQRT.t vd, va, m (09 R202, R205). -/
def execVsqrt (sw : Bool) (v a : BitVec 5) (m : BitVec 3) (t : BitVec 2) (s : State) : Out :=
  .next (vun sqrtFp (encVsqrt sw v a m t) sw v a m t s)
/-- VEXP2.t vd, va, m (09 R202, R205). -/
def execVexp2 (sw : Bool) (v a : BitVec 5) (m : BitVec 3) (t : BitVec 2) (s : State) : Out :=
  .next (vun (fun x => (exp2Fp x, 0)) (encVexp2 sw v a m t) sw v a m t s)
/-- VLOG2.t vd, va, m (09 R202, R205). -/
def execVlog2 (sw : Bool) (v a : BitVec 5) (m : BitVec 3) (t : BitVec 2) (s : State) : Out :=
  .next (vun log2Fp (encVlog2 sw v a m t) sw v a m t s)

/-! ## Integer and bitwise operations (09 R206) -/

/-- The width of a width field. -/
def intWidth (w : BitVec 2) : Nat := if w == 0 then 32 else if w == 1 then 16 else 8

/-- An element-by-element integer operation. -/
def vint (op : AluOp) (word : Nat) (sw : Bool) (v a b : BitVec 5) (m : BitVec 3) (w : BitVec 2) (s : State) : State :=
  let n := intWidth w
  vop word [v, a, b] [(1, .v a), (2, .v b), (3, .rest v m)] sw (fun s =>
    vmap n v m (fun i => (alu n op (ev s n a i) (ev s n b i), 0)) s) s

/-- VIADD.i vd, va, vb, m (09 R206). -/
def execViadd (sw : Bool) (v a b : BitVec 5) (m : BitVec 3) (w : BitVec 2) (s : State) : Out :=
  .next (vint .add (encViadd sw v a b m w) sw v a b m w s)
/-- VISUB.i vd, va, vb, m (09 R206). -/
def execVisub (sw : Bool) (v a b : BitVec 5) (m : BitVec 3) (w : BitVec 2) (s : State) : Out :=
  .next (vint .sub (encVisub sw v a b m w) sw v a b m w s)
/-- VIMUL.i vd, va, vb, m (09 R206). -/
def execVimul (sw : Bool) (v a b : BitVec 5) (m : BitVec 3) (w : BitVec 2) (s : State) : Out :=
  .next (vint .mul (encVimul sw v a b m w) sw v a b m w s)
/-- VIMULH.i vd, va, vb, m (09 R206). -/
def execVimulh (sw : Bool) (v a b : BitVec 5) (m : BitVec 3) (w : BitVec 2) (s : State) : Out :=
  .next (vint .mulh (encVimulh sw v a b m w) sw v a b m w s)
/-- VIMIN.i vd, va, vb, m (09 R206). -/
def execVimin (sw : Bool) (v a b : BitVec 5) (m : BitVec 3) (w : BitVec 2) (s : State) : Out :=
  .next (vint .min (encVimin sw v a b m w) sw v a b m w s)
/-- VIMAX.i vd, va, vb, m (09 R206). -/
def execVimax (sw : Bool) (v a b : BitVec 5) (m : BitVec 3) (w : BitVec 2) (s : State) : Out :=
  .next (vint .max (encVimax sw v a b m w) sw v a b m w s)
/-- VAND.i vd, va, vb, m (09 R206). -/
def execVand (sw : Bool) (v a b : BitVec 5) (m : BitVec 3) (w : BitVec 2) (s : State) : Out :=
  .next (vint .and (encVand sw v a b m w) sw v a b m w s)
/-- VOR.i vd, va, vb, m (09 R206). -/
def execVor (sw : Bool) (v a b : BitVec 5) (m : BitVec 3) (w : BitVec 2) (s : State) : Out :=
  .next (vint .or (encVor sw v a b m w) sw v a b m w s)
/-- VXOR.i vd, va, vb, m (09 R206). -/
def execVxor (sw : Bool) (v a b : BitVec 5) (m : BitVec 3) (w : BitVec 2) (s : State) : Out :=
  .next (vint .xor (encVxor sw v a b m w) sw v a b m w s)
/-- VSHL.i vd, va, vb, m (09 R206). -/
def execVshl (sw : Bool) (v a b : BitVec 5) (m : BitVec 3) (w : BitVec 2) (s : State) : Out :=
  .next (vint .shl (encVshl sw v a b m w) sw v a b m w s)
/-- VSHR.i vd, va, vb, m (09 R206). -/
def execVshr (sw : Bool) (v a b : BitVec 5) (m : BitVec 3) (w : BitVec 2) (s : State) : Out :=
  .next (vint .shr (encVshr sw v a b m w) sw v a b m w s)
/-- VSAR.i vd, va, vb, m (09 R206). -/
def execVsar (sw : Bool) (v a b : BitVec 5) (m : BitVec 3) (w : BitVec 2) (s : State) : Out :=
  .next (vint .sar (encVsar sw v a b m w) sw v a b m w s)

/-- The four signed byte products of 32-bit element `i`. -/
def dot4 (x y : VReg) (i : Nat) : List Int :=
  [0, 1, 2, 3].map (fun j => sInt (elem x 8 (4 * i + j)) 8 * sInt (elem y 8 (4 * i + j)) 8)

/-- VIDOT4 vd, va, vb, m (09 R206; 02 R33). -/
def execVidot4 (sw : Bool) (v a b : BitVec 5) (m : BitVec 3) (s : State) : Out :=
  .next (vop (encVidot4 sw v a b m) [v, a, b] [(1, .v a), (2, .v b), (3, .v v)] sw (fun s =>
    vmap 32 v m (fun i => ((dotInt (w32 (ev s 32 v i)) (dot4 (readV s a) (readV s b) i)).toNat, 0)) s) s)

/-! ## Conversion (09 R207, R208) -/

/-- One element between formats: the same format copies the bits. -/
def convElem (src dst mode x : Nat) : Nat × BitVec 6 :=
  if src == dst then (x, 0) else encodeElem dst mode (decodeElem src x)

/-- VCVT.dst.src.Pp vd, va, m: `c` is the source code, `e` the destination code, `p` the part. -/
def execVcvt (sw : Bool) (v a : BitVec 5) (c : BitVec 4) (m : BitVec 3) (e : BitVec 4) (p : BitVec 2) (s : State) : Out :=
  let wS := fmtBits c.toNat
  let wD := fmtBits e.toNat
  let cs := lanesOf wS
  let cd := lanesOf wD
  let n := min cs cd
  .next (vop (encVcvt sw v a c m e p) [v, a] [(1, .v a), (3, if cd > cs then .v v else .rest v m)] sw (fun s =>
    let mode := rndOf s
    let mk := readM s m
    let first := p.toNat * n
    let conv (i : Nat) : Option (Nat × BitVec 6) :=
      if mk.getLsbD (128 * i / n) then
        some (convElem c.toNat e.toNat mode (ev s wS a (if cs > cd then first + i else i)))
      else none
    writeV v (buildLanes wD (readV s v) (fun k =>
      if cd > cs then (if first ≤ k && k < first + n then conv (k - first) else none) else conv k)) s) s)

/-! ## Block quantisation (09 R209 to R213) -/

/-- The FP32 value of lane `i`. -/
def lane32 (s : State) (r : BitVec 5) (i : Nat) : Fp := dec32 (w32 (ev s 32 r i))

/-- The scales of the blocks of a register under a mask (09 R210). -/
def blockScales (s : State) (a : BitVec 5) (mk : MaskReg) (fmt geom : Nat) : List Nat :=
  let bs := blockSize geom
  (List.range (128 / bs)).map (fun b => sharedScale fmt
    (((List.range bs).filter (fun j => mk.getLsbD (bs * b + j))).map (fun j => lane32 s a (bs * b + j))))

/-- Scale bytes packed from the lowest byte upward. -/
def packScales (xs : List Nat) : W64 := w64 (ofBytes (xs.map (BitVec.ofNat 8)))

/-- The scale of lane `i` out of a list of block scales; 127 without geometry. -/
def scaleOfLane (xs : List Nat) (geom i : Nat) : Nat := if geom == 0 then 127 else xs.getD (i / blockSize geom) 127

/-- Encode the active lanes of `va` into part `p` of `vd` with block scales. -/
def quantLanes (s : State) (v a : BitVec 5) (mk : MaskReg) (fmt geom p : Nat) (xs : List Nat) : VReg × BitVec 6 :=
  let mode := rndOf s
  buildLanes (fmtBits fmt) (readV s v) (fun k =>
    let i := k - 128 * p
    if 128 * p ≤ k && i < 128 && mk.getLsbD i then
      some (encodeElem fmt mode (unscaleFp (lane32 s a i) (scaleOfLane xs geom i)))
    else none)

/-- The scale bytes that a general register holds. -/
def scalesIn (s : State) (g : BitVec 4) : List Nat := (List.range 8).map (fun b => bits (readW s g) (8 * b) 8)

/-- VQUANT.fmt.Bb.Pp vd, va, wg, m (09 R211). -/
def execVquant (sw : Bool) (v a : BitVec 5) (g : BitVec 4) (m : BitVec 3) (f : BitVec 4) (e p : BitVec 2) (s : State) : Out :=
  .next (vop (encVquant sw v a g m f e p) [v, a] [(1, .v a), (3, .v v)] sw (fun s =>
    let mk := readM s m
    let xs := if e == 0 then [] else blockScales s a mk f.toNat e.toNat
    let s1 := writeV v (quantLanes s v a mk f.toNat e.toNat p.toNat xs) s
    if e == 0 then s1 else writeW g (packScales xs) s1) s)

/-- VQUANT.FIX.fmt.Bb.Pp vd, va, wg, m (09 R211). -/
def execVquantFix (sw : Bool) (v a : BitVec 5) (g : BitVec 4) (m : BitVec 3) (f : BitVec 4) (e p : BitVec 2) (s : State) : Out :=
  .next (vop (encVquantFix sw v a g m f e p) [v, a] [(1, .v a), (2, .g g), (3, .v v)] sw (fun s =>
    writeV v (quantLanes s v a (readM s m) f.toNat e.toNat p.toNat (scalesIn s g)) s) s)

/-- VDEQ.fmt.Bb.Pp vd, va, wg, m (09 R212). -/
def execVdeq (sw : Bool) (v a : BitVec 5) (g : BitVec 4) (m : BitVec 3) (f : BitVec 4) (e p : BitVec 2) (s : State) : Out :=
  .next (vop (encVdeq sw v a g m f e p) [v, a] [(1, .v a), (2, .g g), (3, .rest v m)] sw (fun s =>
    let mode := rndOf s
    vmap 32 v m (fun i =>
      let x := decodeElem f.toNat (ev s (fmtBits f.toNat) a (128 * p.toNat + i))
      roundFp fp32 mode (scaleFp x (scaleOfLane (scalesIn s g) e.toNat i))) s) s)

/-- The R37 MAX combine of magnitudes: +0 of none. -/
def amaxOf (xs : List Nat) : Nat × BitVec 6 :=
  match xs with
  | [] => (0, 0)
  | x :: r => r.foldl (fun acc y => let c := minmaxF fp32 true acc.1 y; (c.1, acc.2 ||| c.2))
      (if isNanF fp32 x then fp32.nanEnc else x, 0)

/-- VBMAX.Bb vd, va, m (09 R213). -/
def execVbmax (sw : Bool) (v a : BitVec 5) (m : BitVec 3) (e : BitVec 2) (s : State) : Out :=
  let bs := blockSize e.toNat
  .next (vop (encVbmax sw v a m e) [v, a] [(1, .v a)] sw (fun s =>
    let mk := readM s m
    writeV v (buildLanes 32 0 (fun j =>
      if j < 128 / bs then
        some (amaxOf (((List.range bs).filter (fun i => mk.getLsbD (bs * j + i))).map (fun i => ev s 32 a (bs * j + i) % 2 ^ 31)))
      else some (0, 0))) s) s)

/-- VSCALE.fmt.Bb wg, va (09 R213). -/
def execVscale (sw : Bool) (a : BitVec 5) (g : BitVec 4) (f : BitVec 4) (e : BitVec 2) (s : State) : Out :=
  .next (vop (encVscale sw a g f e) [a] [(1, .v a)] sw (fun s =>
    writeW g (packScales ((List.range (128 / blockSize e.toNat)).map (fun j => sharedScale f.toNat [lane32 s a j]))) s) s)

/-! ## Masks, selection, reductions and scans (09 R214 to R217) -/

/-- A mask operation in the vector unit. -/
def mop (sw : Bool) (d : BitVec 3) (f : State → MaskReg) (s : State) : State :=
  vecIssue [] (fun s => finish sw (put (.mask d (f s)) s)) s

/-- MAND md, ma, mb (09 R216). -/
def execMand (sw : Bool) (d a b : BitVec 3) (s : State) : Out := .next (mop sw d (fun s => readM s a &&& readM s b) s)
/-- MOR md, ma, mb (09 R216). -/
def execMor (sw : Bool) (d a b : BitVec 3) (s : State) : Out := .next (mop sw d (fun s => readM s a ||| readM s b) s)
/-- MNOT md, ma (09 R216). -/
def execMnot (sw : Bool) (d a : BitVec 3) (s : State) : Out := .next (mop sw d (fun s => ~~~readM s a) s)

/-- VSELM vd, va, vb, m: whole containers (09 R216). -/
def execVselm (sw : Bool) (v a b : BitVec 5) (m : BitVec 3) (s : State) : Out :=
  .next (vop (encVselm sw v a b m) [v, a, b] [(1, .v a), (2, .v b)] sw (fun s =>
    let mk := readM s m
    put (.vec v (buildPlain 32 0 (fun j => some (if mk.getLsbD j then ev s 32 a j else ev s 32 b j)))) s) s)

/-- VPERM vd, va, vb, m (09 R216). -/
def execVperm (sw : Bool) (v a b : BitVec 5) (m : BitVec 3) (s : State) : Out :=
  .next (vop (encVperm sw v a b m) [v, a, b] [(1, .v a), (2, .v b), (3, .rest v m)] sw (fun s =>
    vmap 32 v m (fun j => (ev s 32 a (ev s 32 b j % 128), 0)) s) s)

/-- One level of the tree of 02 R35. -/
def treeLevel (op : Nat → Nat → Nat × BitVec 6) : List Nat → List (Nat × BitVec 6)
  | a :: b :: r => op a b :: treeLevel op r
  | [a] => [(a, 0)]
  | [] => []

/-- The levels of the tree, with the flags so far. -/
def treeGo (op : Nat → Nat → Nat × BitVec 6) : Nat → List Nat × BitVec 6 → List Nat × BitVec 6
  | 0, x => x
  | n + 1, x =>
    let l := treeLevel op x.1
    treeGo op n (l.map (fun p => p.1), l.foldl (fun a p => a ||| p.2) x.2)

/-- VRED (02 R35, 09 R217): the tree over elements, the identity for inactive ones, the result in element 0. -/
def vred (idn : Fmt → Nat) (op : Fmt → Nat → Nat → Nat → Nat × BitVec 6) (word : Nat) (sw : Bool) (v a : BitVec 5)
    (m : BitVec 3) (t : BitVec 2) (s : State) : State :=
  let f := typeFmt t
  let w := f.width
  vop word [v, a] [(1, .v a), (3, .v v)] sw (fun s =>
    let mk := readM s m
    let xs := (List.range (lanesOf w)).map (fun i => if active mk w i then ev s w a i else idn f)
    let r := treeGo (op f (rndOf s)) (Nat.log2 (lanesOf w)) (xs, 0)
    writeV v (buildLanes w (readV s v) (fun i => if i == 0 then some (r.1.headD 0, r.2) else none)) s) s

/-- A rounded sum of two encodings. -/
def addEnc (f : Fmt) (mode a b : Nat) : Nat × BitVec 6 := rounded f mode (addFp mode (decodeFp f a) (decodeFp f b))

/-- VRED.ADD.t vd, va, m. -/
def execVredAdd (sw : Bool) (v a : BitVec 5) (m : BitVec 3) (t : BitVec 2) (s : State) : Out :=
  .next (vred (fun f => signEnc f true) addEnc (encVredAdd sw v a m t) sw v a m t s)
/-- VRED.MAX.t vd, va, m. -/
def execVredMax (sw : Bool) (v a : BitVec 5) (m : BitVec 3) (t : BitVec 2) (s : State) : Out :=
  .next (vred (fun f => signEnc f true + infEnc f) (fun f _ => minmaxF f true) (encVredMax sw v a m t) sw v a m t s)
/-- VRED.MIN.t vd, va, m. -/
def execVredMin (sw : Bool) (v a : BitVec 5) (m : BitVec 3) (t : BitVec 2) (s : State) : Out :=
  .next (vred infEnc (fun f _ => minmaxF f false) (encVredMin sw v a m t) sw v a m t s)

/-- The running sums of 02 R36, in order, with their flags. -/
def scanGo (f : Fmt) (mode acc : Nat) : List Nat → List (Nat × BitVec 6)
  | [] => []
  | x :: r => let y := addEnc f mode acc x; y :: scanGo f mode y.1 r

/-- VSCAN.ADD.t vd, va, m (02 R36, 09 R217). -/
def execVscanAdd (sw : Bool) (v a : BitVec 5) (m : BitVec 3) (t : BitVec 2) (s : State) : Out :=
  let f := typeFmt t
  let w := f.width
  .next (vop (encVscanAdd sw v a m t) [v, a] [(1, .v a)] sw (fun s =>
    let mk := readM s m
    let xs := (List.range (lanesOf w)).map (fun i => if active mk w i then ev s w a i else signEnc f true)
    let x0 := xs.headD 0
    let ys := (x0, 0) :: scanGo f (rndOf s) x0 xs.tail
    writeV v (ofElems w (ys.map (fun p => p.1)), ys.foldl (fun acc p => acc ||| p.2) 0) s) s)

/-- A comparison of two elements (09 R215): `y` the type, `c` the condition. -/
def cmpElem (y c : Nat) (a b : Nat) : Bool :=
  let f := typeFmt (BitVec.ofNat 2 y)
  let un := y ≤ 2 && (isNanF f a || isNanF f b)
  let w := if y == 3 then 32 else if y == 4 then 16 else 8
  let p : Int := if y ≤ 2 then keyEqF f a else sInt a w
  let q : Int := if y ≤ 2 then keyEqF f b else sInt b w
  if un then c == 1 || c == 6
  else match c with
    | 0 => p == q
    | 1 => p != q
    | 2 => p < q
    | 3 => p ≤ q
    | 4 => p > q
    | 5 => p ≥ q
    | _ => false

/-- Bits of an element of a comparison type. -/
def cmpWidth (y : Nat) : Nat := if y == 0 || y == 3 then 32 else if y == 5 then 8 else 16

/-- VCMP.cc.ty md, va, vb, m (09 R215). -/
def execVcmp (sw : Bool) (d : BitVec 3) (a b : BitVec 5) (m : BitVec 3) (y c : BitVec 3) (s : State) : Out :=
  let w := cmpWidth y.toNat
  .next (vop (encVcmp sw d a b m y c) [a, b] [(1, .v a), (2, .v b)] sw (fun s =>
    let mk := readM s m
    put (.mask d (ofMask (fun j => mk.getLsbD j &&
      (List.range (32 / w)).all (fun i => cmpElem y.toNat c.toNat (ev s w a (32 / w * j + i)) (ev s w b (32 / w * j + i)))))) s) s)

/-! ## Lane moves, gather and scatter (09 R218 to R220) -/

/-- MPOP wg, ma, m (09 R219). -/
def execMpop (sw : Bool) (a : BitVec 3) (g : BitVec 4) (m : BitVec 3) (s : State) : Out :=
  .next (vecIssue [] (fun s => finish sw (writeW g (w64 (popcOf 128 (readM s a &&& readM s m).toNat)) s)) s)

/-- VBCST and its narrower forms. -/
def vbcst (w word : Nat) (sw : Bool) (v : BitVec 5) (g : BitVec 4) (m : BitVec 3) (s : State) : State :=
  vop word [v] [(2, .g g), (3, .rest v m)] sw (fun s => vmap w v m (fun _ => (bits (readW s g) 0 w, 0)) s) s

/-- VBCST vd, wg, m (09 R219). -/
def execVbcst (sw : Bool) (v : BitVec 5) (g : BitVec 4) (m : BitVec 3) (s : State) : Out :=
  .next (vbcst 32 (encVbcst sw v g m) sw v g m s)
/-- VBCST.H vd, wg, m. -/
def execVbcstH (sw : Bool) (v : BitVec 5) (g : BitVec 4) (m : BitVec 3) (s : State) : Out :=
  .next (vbcst 16 (encVbcstH sw v g m) sw v g m s)
/-- VBCST.B vd, wg, m. -/
def execVbcstB (sw : Bool) (v : BitVec 5) (g : BitVec 4) (m : BitVec 3) (s : State) : Out :=
  .next (vbcst 8 (encVbcstB sw v g m) sw v g m s)

/-- VSLIDE vd, va, wg, m (09 R219). -/
def execVslide (sw : Bool) (v a : BitVec 5) (g : BitVec 4) (m : BitVec 3) (s : State) : Out :=
  .next (vop (encVslide sw v a g m) [v, a] [(1, .v a), (2, .g g), (3, .rest v m)] sw (fun s =>
    let sh := (readW s g).toInt
    vmap 32 v m (fun i =>
      let j := (i : Int) + sh
      (if 0 ≤ j && j < 128 then ev s 32 a j.toNat else 0, 0)) s) s)

/-- VIOTA vd, wg, m (09 R219). -/
def execViota (sw : Bool) (v : BitVec 5) (g : BitVec 4) (m : BitVec 3) (s : State) : Out :=
  .next (vop (encViota sw v g m) [v] [(2, .g g), (3, .rest v m)] sw (fun s =>
    let mk := readM s m
    vmap 32 v m (fun i => ((bits (readW s g) 0 32 + (List.range i).countP (fun j => mk.getLsbD j)) % 2 ^ 32, 0)) s) s)

/-- The address of lane `i` of a gather or scatter (09 R220). -/
def gathAt (s : State) (g : BitVec 4) (a : BitVec 5) (i : Nat) : W64 := readW s g + w64 (ev s 32 a i)

/-- Check 6 over the active lanes: the lowest misaligned one is reported. -/
def lanesAligned (ls : List Nat) (at_ : Nat → W64) (k : State → State) (s : State) : State :=
  match ls.find? (fun i => (wrapped s (at_ i)).toNat % 4 != 0) with
  | some i => raise 0x03 (wrapped s (at_ i)) s
  | none => k s

/-- VGATHL vd, va, wg, m (09 R220). -/
def execVgathl (sw : Bool) (v a : BitVec 5) (g : BitVec 4) (m : BitVec 3) (s : State) : Out :=
  let ls := activeLanes (readM s m)
  .next (declared (vecDeclared s [v, a]) (insn (encVgathl sw v a g m)) (lanesAligned ls (gathAt s g a)
    (fun s => spGather s ls (gathAt s g a) (fun bs => vecIssue [(1, .v a), (2, .g g), (3, .rest v m)] (fun s =>
      finish sw (put (.vec v (buildPlain 32 (readV s v) (laneFrom ls bs))) s))))) s)

/-- VSCATL vd, va, wg, m (09 R220). DESIGN CHOICE: the data register passes through reuse slot 3 (assumption 145). -/
def execVscatl (sw : Bool) (v a : BitVec 5) (g : BitVec 4) (m : BitVec 3) (s : State) : Out :=
  let ls := activeLanes (readM s m)
  .next (declared (vecDeclared s [v, a]) (insn (encVscatl sw v a g m)) (lanesAligned ls (gathAt s g a)
    (vecIssue [(1, .v a), (2, .g g), (3, .v v)] (fun s => finish sw (spScatter ls (gathAt s g a) (readV s v) s)))) s)

/-- The lane that VINS and VEXT name. -/
def laneNo (l : BitVec 5) (k : BitVec 2) : Nat := l.toNat + 32 * k.toNat

/-- VINS vd, wg, lane (09 R219). -/
def execVins (sw : Bool) (v l : BitVec 5) (g : BitVec 4) (k : BitVec 2) (s : State) : Out :=
  .next (vop (encVins sw v l g k) [v] [(2, .g g), (3, .v v)] sw (fun s =>
    put (.vec v (buildPlain 32 (readV s v) (fun i => if i == laneNo l k then some (bits (readW s g) 0 32) else none))) s) s)

/-- VEXT wg, vs, lane (09 R219). DESIGN CHOICE: vs passes through reuse slot 1 (assumption 145). -/
def execVext (sw : Bool) (v l : BitVec 5) (g : BitVec 4) (k : BitVec 2) (s : State) : Out :=
  .next (vop (encVext sw v l g k) [v] [(1, .v v)] sw (fun s => writeW g (w64 (ev s 32 v (laneNo l k))) s) s)

/-! ## Distances (09 R221 to R224) -/

/-- The query's format for a candidate format: E4M3 for T2P8. -/
def queryFmt (fmt : Nat) : Nat := if fmt == 7 then 4 else fmt

/-- Whether VDIST takes a descriptor. -/
def distOk (cos : Bool) (d : W64) : Bool :=
  tdZero d && 1 ≤ tdFmt d && tdFmt d ≤ 7 && geomAllowed (tdFmt d) (tdGeom d) && !(cos && tdFmt d == 6)

/-- The bytes that the distance of lane `i` reads: its index entry, and given the row, the row and its scales. -/
def distIdx (d : W64) (i : Nat) : W64 := w64 (tdSide d + 4 * i)
def distRow (d : W64) (r : Nat) : W64 := w64 (tdOffset d + r * tdStride d * 64)
def distScale (d : W64) (dep r : Nat) : W64 :=
  w64 (tdSide d + (if tdGather d then 512 else 0) + r * rowScales (tdGeom d) dep)

/-- The row that lane `i` scores. -/
def distRowIx (s : State) (d : W64) (i : Nat) : Nat := if tdGather d then ofBytes (spRead s (distIdx d i) 4) else i

/-- The candidate row of a lane. -/
def distCand (s : State) (d : W64) (dep r : Nat) : Row :=
  rowOf (tdFmt d) (tdGeom d) dep (spRead s (distRow d r) (dep * (fmtBits (tdFmt d) / 8)))
    (spRead s (distScale d dep r) (rowScales (tdGeom d) dep))

/-- The first run of uncorrectable bytes among those that the active lanes read. -/
def distBad (s : State) (d : W64) (dep : Nat) (ls : List Nat) : Option W64 :=
  (ls.flatMap (fun i =>
    let r := distRowIx s d i
    (if tdGather d then [(distIdx d i, 4)] else []) ++
      [(distRow d r, dep * (fmtBits (tdFmt d) / 8)), (distScale d dep r, rowScales (tdGeom d) dep)])).findSome?
    (fun p => ((List.range p.2).find? (fun j => spPoison s (p.1 + w64 j) 1)).map (fun j => wrapped s (p.1 + w64 j)))

/-- The terms of the squared distance: exact differences, exact squares; ∞ − ∞ counts as ∞ × 0 (09 R222). -/
def l2Terms (fq fc : Nat) (q c : Row) : List Term :=
  (q.zip c).map (fun p =>
    let x := scaleFp (decodeElem fc p.2.1) p.2.2
    let df := addFp 0 (decodeElem fq p.1.1) (negFp x)
    let sq := mulFp df.1 df.1
    prodTerm (sq.1, df.2 ||| sq.2) 127 127)

/-- The result of one lane. `kind` is 0 IP, 1 L2, 2 COS; `acc` the old lane. -/
def distLane (kind fmt : Nat) (q c : Row) (acc : W32) : W32 × BitVec 6 :=
  let fq := queryFmt fmt
  if fmt == 6 then
    (dotInt acc (if kind == 0 then rowProducts q c
      else (q.zip c).map (fun p => -((sInt p.1.1 8 - sInt p.2.1 8) * (sInt p.1.1 8 - sInt p.2.1 8)))), 0)
  else match kind with
    | 0 => dotFrom false acc (rowTerms fq fmt q c)
    | 1 => dotFrom true acc (l2Terms fq fmt q c)
    | _ =>
      let ip := dotFrom false 0 (rowTerms fq fmt q c)
      let cc := dotFrom false 0 (rowTerms fmt fmt c c)
      let x := cosFp (dec32 ip.1) (dec32 cc.1)
      let r := round32 0 x.1
      (r.1, ip.2 ||| cc.2 ||| x.2 ||| r.2)

/-- VDIST (09 R221 to R223): the checks, the reads of the active lanes, the lanes. -/
def vdist (kind word : Nat) (sw : Bool) (v a : BitVec 5) (g : BitVec 4) (m : BitVec 3) (s : State) : State :=
  let d := readW s g
  let fmt := tdFmt d
  let wq := fmtBits (queryFmt fmt)
  let dep := lanesOf wq
  let ls := activeLanes (readM s m)
  legal (distOk (kind == 2) d) (insn word) (declared (vecDeclared s [v, a]) (insn word)
    (aligned (w64 (tdOffset d)) 64 (fun s =>
      match distBad s d dep ls with
      | some o => raise 0x07 o s
      | none => vecIssue [(1, .v a), (2, .g g), (3, if kind == 2 then .rest v m else .v v)] (fun s =>
          let q := rowOf (queryFmt fmt) 0 dep (vregBytes (readV s a)) []
          finish sw (vmap 32 v m (fun i =>
            let r := distLane kind fmt q (distCand s d dep (distRowIx s d i)) (w32 (ev s 32 v i))
            (r.1.toNat, r.2)) s)) s))) s

/-- VDIST.IP vd, vq, wg, m (09 R222). -/
def execVdistIp (sw : Bool) (v a : BitVec 5) (g : BitVec 4) (m : BitVec 3) (s : State) : Out :=
  .next (vdist 0 (encVdistIp sw v a g m) sw v a g m s)
/-- VDIST.L2 vd, vq, wg, m (09 R222). -/
def execVdistL2 (sw : Bool) (v a : BitVec 5) (g : BitVec 4) (m : BitVec 3) (s : State) : Out :=
  .next (vdist 1 (encVdistL2 sw v a g m) sw v a g m s)
/-- VDIST.COS vd, vq, wg, m (09 R223). -/
def execVdistCos (sw : Bool) (v a : BitVec 5) (g : BitVec 4) (m : BitVec 3) (s : State) : Out :=
  .next (vdist 2 (encVdistCos sw v a g m) sw v a g m s)

end Sys2Proof.Machine
end

