-- ==== Sys2Proof/Machine/Dispatch.lean ====
section
/-! DEFINITION. One arm for every instruction and step, each a direct call of its meaning. -/
namespace Sys2Proof.Machine

def exec (i : Instr) (s : State) : Host.Outcome State Fault Refusal :=
  match i with
  | .add sw d a b => Sys2Proof.Machine.execAdd sw d a b s
  | .addW sw d a b => Sys2Proof.Machine.execAddW sw d a b s
  | .sub sw d a b => Sys2Proof.Machine.execSub sw d a b s
  | .subW sw d a b => Sys2Proof.Machine.execSubW sw d a b s
  | .and sw d a b => Sys2Proof.Machine.execAnd sw d a b s
  | .andW sw d a b => Sys2Proof.Machine.execAndW sw d a b s
  | .or sw d a b => Sys2Proof.Machine.execOr sw d a b s
  | .orW sw d a b => Sys2Proof.Machine.execOrW sw d a b s
  | .xor sw d a b => Sys2Proof.Machine.execXor sw d a b s
  | .xorW sw d a b => Sys2Proof.Machine.execXorW sw d a b s
  | .andn sw d a b => Sys2Proof.Machine.execAndn sw d a b s
  | .andnW sw d a b => Sys2Proof.Machine.execAndnW sw d a b s
  | .shl sw d a b => Sys2Proof.Machine.execShl sw d a b s
  | .shlW sw d a b => Sys2Proof.Machine.execShlW sw d a b s
  | .shr sw d a b => Sys2Proof.Machine.execShr sw d a b s
  | .shrW sw d a b => Sys2Proof.Machine.execShrW sw d a b s
  | .sar sw d a b => Sys2Proof.Machine.execSar sw d a b s
  | .sarW sw d a b => Sys2Proof.Machine.execSarW sw d a b s
  | .min sw d a b => Sys2Proof.Machine.execMin sw d a b s
  | .minW sw d a b => Sys2Proof.Machine.execMinW sw d a b s
  | .max sw d a b => Sys2Proof.Machine.execMax sw d a b s
  | .maxW sw d a b => Sys2Proof.Machine.execMaxW sw d a b s
  | .minu sw d a b => Sys2Proof.Machine.execMinu sw d a b s
  | .minuW sw d a b => Sys2Proof.Machine.execMinuW sw d a b s
  | .maxu sw d a b => Sys2Proof.Machine.execMaxu sw d a b s
  | .maxuW sw d a b => Sys2Proof.Machine.execMaxuW sw d a b s
  | .mul sw d a b => Sys2Proof.Machine.execMul sw d a b s
  | .mulW sw d a b => Sys2Proof.Machine.execMulW sw d a b s
  | .mulh sw d a b => Sys2Proof.Machine.execMulh sw d a b s
  | .mulhW sw d a b => Sys2Proof.Machine.execMulhW sw d a b s
  | .mulhu sw d a b => Sys2Proof.Machine.execMulhu sw d a b s
  | .mulhuW sw d a b => Sys2Proof.Machine.execMulhuW sw d a b s
  | .div sw d a b => Sys2Proof.Machine.execDiv sw d a b s
  | .divW sw d a b => Sys2Proof.Machine.execDivW sw d a b s
  | .divu sw d a b => Sys2Proof.Machine.execDivu sw d a b s
  | .divuW sw d a b => Sys2Proof.Machine.execDivuW sw d a b s
  | .rem sw d a b => Sys2Proof.Machine.execRem sw d a b s
  | .remW sw d a b => Sys2Proof.Machine.execRemW sw d a b s
  | .remu sw d a b => Sys2Proof.Machine.execRemu sw d a b s
  | .remuW sw d a b => Sys2Proof.Machine.execRemuW sw d a b s
  | .slt sw d a b => Sys2Proof.Machine.execSlt sw d a b s
  | .sltW sw d a b => Sys2Proof.Machine.execSltW sw d a b s
  | .sltu sw d a b => Sys2Proof.Machine.execSltu sw d a b s
  | .sltuW sw d a b => Sys2Proof.Machine.execSltuW sw d a b s
  | .seq sw d a b => Sys2Proof.Machine.execSeq sw d a b s
  | .seqW sw d a b => Sys2Proof.Machine.execSeqW sw d a b s
  | .clz sw d a => Sys2Proof.Machine.execClz sw d a s
  | .clzW sw d a => Sys2Proof.Machine.execClzW sw d a s
  | .ctz sw d a => Sys2Proof.Machine.execCtz sw d a s
  | .ctzW sw d a => Sys2Proof.Machine.execCtzW sw d a s
  | .popc sw d a => Sys2Proof.Machine.execPopc sw d a s
  | .popcW sw d a => Sys2Proof.Machine.execPopcW sw d a s
  | .sel sw d a b c => Sys2Proof.Machine.execSel sw d a b c s
  | .selW sw d a b c => Sys2Proof.Machine.execSelW sw d a b c s
  | .addi sw d a imm => Sys2Proof.Machine.execAddi sw d a imm s
  | .andi sw d a imm => Sys2Proof.Machine.execAndi sw d a imm s
  | .ori sw d a imm => Sys2Proof.Machine.execOri sw d a imm s
  | .xori sw d a imm => Sys2Proof.Machine.execXori sw d a imm s
  | .shli sw d a imm => Sys2Proof.Machine.execShli sw d a imm s
  | .shri sw d a imm => Sys2Proof.Machine.execShri sw d a imm s
  | .sari sw d a imm => Sys2Proof.Machine.execSari sw d a imm s
  | .slti sw d a imm => Sys2Proof.Machine.execSlti sw d a imm s
  | .sltui sw d a imm => Sys2Proof.Machine.execSltui sw d a imm s
  | .seqi sw d a imm => Sys2Proof.Machine.execSeqi sw d a imm s
  | .muli sw d a imm => Sys2Proof.Machine.execMuli sw d a imm s
  | .lim sw d imm => Sys2Proof.Machine.execLim sw d imm s
  | .limt sw d imm => Sys2Proof.Machine.execLimt sw d imm s
  | .lea sw d a b h => Sys2Proof.Machine.execLea sw d a b h s
  | .bfx sw d a l p => Sys2Proof.Machine.execBfx sw d a l p s
  | .bfxS sw d a l p => Sys2Proof.Machine.execBfxS sw d a l p s
  | .bfi sw d a l p => Sys2Proof.Machine.execBfi sw d a l p s
  | .beq _ a b o => Sys2Proof.Machine.execBeq a b o s
  | .bne _ a b o => Sys2Proof.Machine.execBne a b o s
  | .blt _ a b o => Sys2Proof.Machine.execBlt a b o s
  | .bge _ a b o => Sys2Proof.Machine.execBge a b o s
  | .bltu _ a b o => Sys2Proof.Machine.execBltu a b o s
  | .bgeu _ a b o => Sys2Proof.Machine.execBgeu a b o s
  | .beqz _ a o => Sys2Proof.Machine.execBeqz a o s
  | .bnez _ a o => Sys2Proof.Machine.execBnez a o s
  | .jump _ o => Sys2Proof.Machine.execJump o s
  | .call _ o => Sys2Proof.Machine.execCall o s
  | .nop sw => Sys2Proof.Machine.execNop sw s
  | .endAct _ => Sys2Proof.Machine.execEndAct s
  | .jr _ a => Sys2Proof.Machine.execJr a s
  | .callr _ a => Sys2Proof.Machine.execCallr a s
  | .ret _ => Sys2Proof.Machine.execRet s
  | .mfs sw d r => Sys2Proof.Machine.execMfs sw d r s
  | .mts sw d r => Sys2Proof.Machine.execMts sw d r s
  | .hxImm v => Sys2Proof.Machine.execHxImm v s
  | .hxRnd m => Sys2Proof.Machine.execHxRnd m s
  | .hxReuse k => Sys2Proof.Machine.execHxReuse k s
  | .hxNt => Sys2Proof.Machine.execHxNt s
  | .hxPri p => Sys2Proof.Machine.execHxPri p s
  | .send sw d a b n => Sys2Proof.Machine.execSend sw d a b n s
  | .sendRq sw d a b n => Sys2Proof.Machine.execSendRq sw d a b n s
  | .sendb sw d a b => Sys2Proof.Machine.execSendb sw d a b s
  | .sendbRq sw d a b => Sys2Proof.Machine.execSendbRq sw d a b s
  | .reply sw b n => Sys2Proof.Machine.execReply sw b n s
  | .replyb sw b => Sys2Proof.Machine.execReplyb sw b s
  | .migr a => Sys2Proof.Machine.execMigr a s
  | .migrx d => Sys2Proof.Machine.execMigrx d s
  | .recvw sw d => Sys2Proof.Machine.execRecvw sw d s
  | .homexy sw d a => Sys2Proof.Machine.execHomexy sw d a s
  | .evarm sw a b => Sys2Proof.Machine.execEvarm sw a b s
  | .evsend sw d a b e => Sys2Proof.Machine.execEvsend sw d a b e s
  | .evread sw d a => Sys2Proof.Machine.execEvread sw d a s
  | .pushw sw b => Sys2Proof.Machine.execPushw sw b s
  | .popw sw d => Sys2Proof.Machine.execPopw sw d s
  | .steal sw => Sys2Proof.Machine.execSteal sw s
  | .dqlen sw d => Sys2Proof.Machine.execDqlen sw d s
  | .launch sw d a => Sys2Proof.Machine.execLaunch sw d a s
  | .kill sw a => Sys2Proof.Machine.execKill sw a s
  | .evsig sw a imm => Sys2Proof.Machine.execEvsig sw a imm s
  | .sgrp sw d l => Sys2Proof.Machine.execSgrp sw d l s
  | .garrAnd sw d a k => Sys2Proof.Machine.execGarrAnd sw d a k s
  | .garrOr sw d a k => Sys2Proof.Machine.execGarrOr sw d a k s
  | .garrAdd sw d a k => Sys2Proof.Machine.execGarrAdd sw d a k s
  | .garrMaxu sw d a k => Sys2Proof.Machine.execGarrMaxu sw d a k s
  | .garrFmax sw d a k => Sys2Proof.Machine.execGarrFmax sw d a k s
  | .garrFmin sw d a k => Sys2Proof.Machine.execGarrFmin sw d a k s
  | .garrwAnd sw d a k => Sys2Proof.Machine.execGarrwAnd sw d a k s
  | .garrwOr sw d a k => Sys2Proof.Machine.execGarrwOr sw d a k s
  | .garrwAdd sw d a k => Sys2Proof.Machine.execGarrwAdd sw d a k s
  | .garrwMaxu sw d a k => Sys2Proof.Machine.execGarrwMaxu sw d a k s
  | .garrwFmax sw d a k => Sys2Proof.Machine.execGarrwFmax sw d a k s
  | .garrwFmin sw d a k => Sys2Proof.Machine.execGarrwFmin sw d a k s
  | .ldgB sw d a imm => Sys2Proof.Machine.execLdgB sw d a imm s
  | .ldgBu sw d a imm => Sys2Proof.Machine.execLdgBu sw d a imm s
  | .ldgH sw d a imm => Sys2Proof.Machine.execLdgH sw d a imm s
  | .ldgHu sw d a imm => Sys2Proof.Machine.execLdgHu sw d a imm s
  | .ldgW sw d a imm => Sys2Proof.Machine.execLdgW sw d a imm s
  | .ldgWu sw d a imm => Sys2Proof.Machine.execLdgWu sw d a imm s
  | .ldgD sw d a imm => Sys2Proof.Machine.execLdgD sw d a imm s
  | .ldgAcq sw d a imm => Sys2Proof.Machine.execLdgAcq sw d a imm s
  | .stgB sw d a imm => Sys2Proof.Machine.execStgB sw d a imm s
  | .stgH sw d a imm => Sys2Proof.Machine.execStgH sw d a imm s
  | .stgW sw d a imm => Sys2Proof.Machine.execStgW sw d a imm s
  | .stgD sw d a imm => Sys2Proof.Machine.execStgD sw d a imm s
  | .stgRel sw d a imm => Sys2Proof.Machine.execStgRel sw d a imm s
  | .ldgAcqW sw d a imm => Sys2Proof.Machine.execLdgAcqW sw d a imm s
  | .stgRelW sw d a imm => Sys2Proof.Machine.execStgRelW sw d a imm s
  | .pref sw _ _ => Sys2Proof.Machine.execPref sw s
  | .ldlB sw d a imm => Sys2Proof.Machine.execLdlB sw d a imm s
  | .ldlBu sw d a imm => Sys2Proof.Machine.execLdlBu sw d a imm s
  | .ldlH sw d a imm => Sys2Proof.Machine.execLdlH sw d a imm s
  | .ldlHu sw d a imm => Sys2Proof.Machine.execLdlHu sw d a imm s
  | .ldlW sw d a imm => Sys2Proof.Machine.execLdlW sw d a imm s
  | .ldlWu sw d a imm => Sys2Proof.Machine.execLdlWu sw d a imm s
  | .ldlD sw d a imm => Sys2Proof.Machine.execLdlD sw d a imm s
  | .stlB sw d a imm => Sys2Proof.Machine.execStlB sw d a imm s
  | .stlH sw d a imm => Sys2Proof.Machine.execStlH sw d a imm s
  | .stlW sw d a imm => Sys2Proof.Machine.execStlW sw d a imm s
  | .stlD sw d a imm => Sys2Proof.Machine.execStlD sw d a imm s
  | .vldg sw v g m o => Sys2Proof.Machine.execVldg sw v g m o s
  | .vstg sw v g m o => Sys2Proof.Machine.execVstg sw v g m o s
  | .vldl sw v g m o => Sys2Proof.Machine.execVldl sw v g m o s
  | .vstl sw v g m o => Sys2Proof.Machine.execVstl sw v g m o s
  | .vldls sw v a g m => Sys2Proof.Machine.execVldls sw v a g m s
  | .vstls sw v a g m => Sys2Proof.Machine.execVstls sw v a g m s
  | .tldgF32 sw v g => Sys2Proof.Machine.execTldgF32 sw v g s
  | .tldgBf16 sw v g => Sys2Proof.Machine.execTldgBf16 sw v g s
  | .tstgF32 sw v g => Sys2Proof.Machine.execTstgF32 sw v g s
  | .tstgBf16 sw v g => Sys2Proof.Machine.execTstgBf16 sw v g s
  | .bmovG2l d a b => Sys2Proof.Machine.execBmovG2l d a b s
  | .bmovL2g d a b => Sys2Proof.Machine.execBmovL2g d a b s
  | .bfillG d a b => Sys2Proof.Machine.execBfillG d a b s
  | .bfillL d a b => Sys2Proof.Machine.execBfillL d a b s
  | .amogAdd sw d a b z => Sys2Proof.Machine.execAmogAdd sw d a b z s
  | .amogAnd sw d a b z => Sys2Proof.Machine.execAmogAnd sw d a b z s
  | .amogOr sw d a b z => Sys2Proof.Machine.execAmogOr sw d a b z s
  | .amogXor sw d a b z => Sys2Proof.Machine.execAmogXor sw d a b z s
  | .amogMin sw d a b z => Sys2Proof.Machine.execAmogMin sw d a b z s
  | .amogMax sw d a b z => Sys2Proof.Machine.execAmogMax sw d a b z s
  | .amogMinu sw d a b z => Sys2Proof.Machine.execAmogMinu sw d a b z s
  | .amogMaxu sw d a b z => Sys2Proof.Machine.execAmogMaxu sw d a b z s
  | .amogSwap sw d a b z => Sys2Proof.Machine.execAmogSwap sw d a b z s
  | .amogFadd sw d a b => Sys2Proof.Machine.execAmogFadd sw d a b s
  | .amolAdd sw d a b z => Sys2Proof.Machine.execAmolAdd sw d a b z s
  | .amolAnd sw d a b z => Sys2Proof.Machine.execAmolAnd sw d a b z s
  | .amolOr sw d a b z => Sys2Proof.Machine.execAmolOr sw d a b z s
  | .amolXor sw d a b z => Sys2Proof.Machine.execAmolXor sw d a b z s
  | .amolMin sw d a b z => Sys2Proof.Machine.execAmolMin sw d a b z s
  | .amolMax sw d a b z => Sys2Proof.Machine.execAmolMax sw d a b z s
  | .amolMinu sw d a b z => Sys2Proof.Machine.execAmolMinu sw d a b z s
  | .amolMaxu sw d a b z => Sys2Proof.Machine.execAmolMaxu sw d a b z s
  | .amolSwap sw d a b z => Sys2Proof.Machine.execAmolSwap sw d a b z s
  | .amolFadd sw d a b => Sys2Proof.Machine.execAmolFadd sw d a b s
  | .casg sw d a b z => Sys2Proof.Machine.execCasg sw d a b z s
  | .casl sw d a b z => Sys2Proof.Machine.execCasl sw d a b z s
  | .waitwG sw d a b c => Sys2Proof.Machine.execWaitwG sw d a b c s
  | .waitwL sw d a b c => Sys2Proof.Machine.execWaitwL sw d a b c s
  | .binit sw a b => Sys2Proof.Machine.execBinit sw a b s
  | .bexpect sw a b => Sys2Proof.Machine.execBexpect sw a b s
  | .barrive sw a => Sys2Proof.Machine.execBarrive sw a s
  | .bwait sw a b => Sys2Proof.Machine.execBwait sw a b s
  | .btest sw d a => Sys2Proof.Machine.execBtest sw d a s
  | .fence sw p _ => Sys2Proof.Machine.execFence sw p s
  | .tlwait sw a imm => Sys2Proof.Machine.execTlwait sw a imm s
  | .tlread sw d imm => Sys2Proof.Machine.execTlread sw d imm s
  | .vadd sw v a b m t => Sys2Proof.Machine.execVadd sw v a b m t s
  | .vsub sw v a b m t => Sys2Proof.Machine.execVsub sw v a b m t s
  | .vmul sw v a b m t => Sys2Proof.Machine.execVmul sw v a b m t s
  | .vdiv sw v a b m t => Sys2Proof.Machine.execVdiv sw v a b m t s
  | .vmin sw v a b m t => Sys2Proof.Machine.execVmin sw v a b m t s
  | .vmax sw v a b m t => Sys2Proof.Machine.execVmax sw v a b m t s
  | .vfma sw v a b m t => Sys2Proof.Machine.execVfma sw v a b m t s
  | .vfms sw v a b m t => Sys2Proof.Machine.execVfms sw v a b m t s
  | .vfnma sw v a b m t => Sys2Proof.Machine.execVfnma sw v a b m t s
  | .vabs sw v a m t => Sys2Proof.Machine.execVabs sw v a m t s
  | .vneg sw v a m t => Sys2Proof.Machine.execVneg sw v a m t s
  | .vsqrt sw v a m t => Sys2Proof.Machine.execVsqrt sw v a m t s
  | .vexp2 sw v a m t => Sys2Proof.Machine.execVexp2 sw v a m t s
  | .vlog2 sw v a m t => Sys2Proof.Machine.execVlog2 sw v a m t s
  | .viadd sw v a b m w => Sys2Proof.Machine.execViadd sw v a b m w s
  | .visub sw v a b m w => Sys2Proof.Machine.execVisub sw v a b m w s
  | .vimul sw v a b m w => Sys2Proof.Machine.execVimul sw v a b m w s
  | .vimulh sw v a b m w => Sys2Proof.Machine.execVimulh sw v a b m w s
  | .vimin sw v a b m w => Sys2Proof.Machine.execVimin sw v a b m w s
  | .vimax sw v a b m w => Sys2Proof.Machine.execVimax sw v a b m w s
  | .vand sw v a b m w => Sys2Proof.Machine.execVand sw v a b m w s
  | .vor sw v a b m w => Sys2Proof.Machine.execVor sw v a b m w s
  | .vxor sw v a b m w => Sys2Proof.Machine.execVxor sw v a b m w s
  | .vshl sw v a b m w => Sys2Proof.Machine.execVshl sw v a b m w s
  | .vshr sw v a b m w => Sys2Proof.Machine.execVshr sw v a b m w s
  | .vsar sw v a b m w => Sys2Proof.Machine.execVsar sw v a b m w s
  | .vidot4 sw v a b m => Sys2Proof.Machine.execVidot4 sw v a b m s
  | .vcvt sw v a c m e p => Sys2Proof.Machine.execVcvt sw v a c m e p s
  | .vquant sw v a g m f e p => Sys2Proof.Machine.execVquant sw v a g m f e p s
  | .vquantFix sw v a g m f e p => Sys2Proof.Machine.execVquantFix sw v a g m f e p s
  | .vdeq sw v a g m f e p => Sys2Proof.Machine.execVdeq sw v a g m f e p s
  | .mand sw d a b => Sys2Proof.Machine.execMand sw d a b s
  | .mor sw d a b => Sys2Proof.Machine.execMor sw d a b s
  | .mnot sw d a => Sys2Proof.Machine.execMnot sw d a s
  | .vselm sw v a b m => Sys2Proof.Machine.execVselm sw v a b m s
  | .vperm sw v a b m => Sys2Proof.Machine.execVperm sw v a b m s
  | .vredAdd sw v a m t => Sys2Proof.Machine.execVredAdd sw v a m t s
  | .vredMax sw v a m t => Sys2Proof.Machine.execVredMax sw v a m t s
  | .vredMin sw v a m t => Sys2Proof.Machine.execVredMin sw v a m t s
  | .vscanAdd sw v a m t => Sys2Proof.Machine.execVscanAdd sw v a m t s
  | .vcmp sw d a b m y c => Sys2Proof.Machine.execVcmp sw d a b m y c s
  | .mpop sw a g m => Sys2Proof.Machine.execMpop sw a g m s
  | .vbcst sw v g m => Sys2Proof.Machine.execVbcst sw v g m s
  | .vbcstH sw v g m => Sys2Proof.Machine.execVbcstH sw v g m s
  | .vbcstB sw v g m => Sys2Proof.Machine.execVbcstB sw v g m s
  | .vslide sw v a g m => Sys2Proof.Machine.execVslide sw v a g m s
  | .viota sw v g m => Sys2Proof.Machine.execViota sw v g m s
  | .vgathl sw v a g m => Sys2Proof.Machine.execVgathl sw v a g m s
  | .vscatl sw v a g m => Sys2Proof.Machine.execVscatl sw v a g m s
  | .vdistIp sw v a g m => Sys2Proof.Machine.execVdistIp sw v a g m s
  | .vdistL2 sw v a g m => Sys2Proof.Machine.execVdistL2 sw v a g m s
  | .vdistCos sw v a g m => Sys2Proof.Machine.execVdistCos sw v a g m s
  | .vbmax sw v a m e => Sys2Proof.Machine.execVbmax sw v a m e s
  | .vscale sw a g f e => Sys2Proof.Machine.execVscale sw a g f e s
  | .vins sw v l g k => Sys2Proof.Machine.execVins sw v l g k s
  | .vext sw v l g k => Sys2Proof.Machine.execVext sw v l g k s
  | .rlins sw l a b m => Sys2Proof.Machine.execRlins sw l a b m s
  | .rlinsx sw l a b m => Sys2Proof.Machine.execRlinsx sw l a b m s
  | .rlprune sw d a l m => Sys2Proof.Machine.execRlprune sw d a l m s
  | .rlmerge sw l k => Sys2Proof.Machine.execRlmerge sw l k s
  | .rlclr sw l => Sys2Proof.Machine.execRlclr sw l s
  | .rlinit sw k l => Sys2Proof.Machine.execRlinit sw k l s
  | .rlthr sw d l => Sys2Proof.Machine.execRlthr sw d l s
  | .rllen sw d l => Sys2Proof.Machine.execRllen sw d l s
  | .rlget sw d a l => Sys2Proof.Machine.execRlget sw d a l s
  | .rlst sw a l => Sys2Proof.Machine.execRlst sw a l s
  | .rlld sw a l => Sys2Proof.Machine.execRlld sw a l s
  | .rlsend sw d a l => Sys2Proof.Machine.execRlsend sw d a l s
  | .rlfloor sw a l => Sys2Proof.Machine.execRlfloor sw a l s
  | .mma sw d a b c q h f n => Sys2Proof.Machine.execMma sw d a b c q h f n s
  | .mmag sw d a b c q h f n => Sys2Proof.Machine.execMmag sw d a b c q h f n s
  | .mmr sw d a c z k n => Sys2Proof.Machine.execMmr sw d a c z k n s
  | .mmrl sw d a c z k n => Sys2Proof.Machine.execMmrl sw d a c z k n s
  | .mmz sw n => Sys2Proof.Machine.execMmz sw n s
  | .mmrank sw k n => Sys2Proof.Machine.execMmrank sw k n s
  | .tilexy sw d => Sys2Proof.Machine.execTilexy sw d s
  | .edgem sw d => Sys2Proof.Machine.execEdgem sw d s
  | .sete sw a e => Sys2Proof.Machine.execSete sw a e s
  | .gete sw d e => Sys2Proof.Machine.execGete sw d e s
  | .cpyG2l sw d a b c => Sys2Proof.Machine.execCpyG2l sw d a b c s
  | .cpyL2g sw d a b c => Sys2Proof.Machine.execCpyL2g sw d a b c s
  | .cpyG2g sw d a b c => Sys2Proof.Machine.execCpyG2g sw d a b c s
  | .cpyrL sw d a b c => Sys2Proof.Machine.execCpyrL sw d a b c s
  | .cpyrG sw d a b c => Sys2Proof.Machine.execCpyrG sw d a b c s
  | .cpywL sw d a b c => Sys2Proof.Machine.execCpywL sw d a b c s
  | .cpywG sw d a b c => Sys2Proof.Machine.execCpywG sw d a b c s
  | .credAdd sw d a b c => Sys2Proof.Machine.execCredAdd sw d a b c s
  | .credMax sw d a b c => Sys2Proof.Machine.execCredMax sw d a b c s
  | .credAddSlice sw d a b c => Sys2Proof.Machine.execCredAddSlice sw d a b c s
  | .credMaxSlice sw d a b c => Sys2Proof.Machine.execCredMaxSlice sw d a b c s
  | .catomAdd sw d a b c z => Sys2Proof.Machine.execCatomAdd sw d a b c z s
  | .catomAnd sw d a b c z => Sys2Proof.Machine.execCatomAnd sw d a b c z s
  | .catomOr sw d a b c z => Sys2Proof.Machine.execCatomOr sw d a b c z s
  | .catomXor sw d a b c z => Sys2Proof.Machine.execCatomXor sw d a b c z s
  | .catomMin sw d a b c z => Sys2Proof.Machine.execCatomMin sw d a b c z s
  | .catomMax sw d a b c z => Sys2Proof.Machine.execCatomMax sw d a b c z s
  | .catomMinu sw d a b c z => Sys2Proof.Machine.execCatomMinu sw d a b c z s
  | .catomMaxu sw d a b c z => Sys2Proof.Machine.execCatomMaxu sw d a b c z s
  | .catomSwap sw d a b c z => Sys2Proof.Machine.execCatomSwap sw d a b c z s
  | .catomFadd sw d a b c => Sys2Proof.Machine.execCatomFadd sw d a b c s
  | .catomCas sw d a b c z => Sys2Proof.Machine.execCatomCas sw d a b c z s
  | .cmc sw d a b c => Sys2Proof.Machine.execCmc sw d a b c s
  | .cstorL sw d a b c => Sys2Proof.Machine.execCstorL sw d a b c s
  | .cstorG sw d a b c => Sys2Proof.Machine.execCstorG sw d a b c s
  | .cdec sw d a b c => Sys2Proof.Machine.execCdec sw d a b c s
  | .cdtab sw d a c => Sys2Proof.Machine.execCdtab sw d a c s
  | .schadv sw imm => Sys2Proof.Machine.execSchadv sw imm s
  | .schrd sw d => Sys2Proof.Machine.execSchrd sw d s
  | .cseal sw d => Sys2Proof.Machine.execCseal sw d s
  | .cwaitn sw imm => Sys2Proof.Machine.execCwaitn sw imm s
  | .nsendG sw d a b c => Sys2Proof.Machine.execNsendG sw d a b c s
  | .nsendL sw d a b c => Sys2Proof.Machine.execNsendL sw d a b c s
  | .npost sw a c r => Sys2Proof.Machine.execNpost sw a c r s
  | .nrqstat sw d r => Sys2Proof.Machine.execNrqstat sw d r s
  | .grpset sw d a => Sys2Proof.Machine.execGrpset sw d a s
  | .grpsetOwn sw d a => Sys2Proof.Machine.execGrpsetOwn sw d a s
  | .grpget sw d a => Sys2Proof.Machine.execGrpget sw d a s
  | .rtgate sw a b => Sys2Proof.Machine.execRtgate sw a b s
  | .rtflush sw => Sys2Proof.Machine.execRtflush sw s
  | .rtcfg sw a => Sys2Proof.Machine.execRtcfg sw a s
  | .rtbuf sw d => Sys2Proof.Machine.execRtbuf sw d s
  | .ertset sw a b => Sys2Proof.Machine.execErtset sw a b s
  | .ertpin sw a => Sys2Proof.Machine.execErtpin sw a s
  | .ertunpin sw a => Sys2Proof.Machine.execErtunpin sw a s
  | .ertq sw d a => Sys2Proof.Machine.execErtq sw d a s
  | .sysc _ imm => Sys2Proof.Machine.execSysc imm s
  | .brk _ imm => Sys2Proof.Machine.execBrk imm s
  | .tret => Sys2Proof.Machine.execTret s
  | .tlbgen sw a => Sys2Proof.Machine.execTlbgen sw a s
  | .tlbprobe sw d a => Sys2Proof.Machine.execTlbprobe sw d a s
  | .fltres sw a => Sys2Proof.Machine.execFltres sw a s
  | .ctxsave sw a => Sys2Proof.Machine.execCtxsave sw a s
  | .ctxrest sw a => Sys2Proof.Machine.execCtxrest sw a s
  | .groupClose k c => Sys2Proof.Machine.execGroupClose k c s
  | .vectorPipeGrant k => Sys2Proof.Machine.execVectorPipeGrant k s
  | .admission x => Sys2Proof.Machine.execAdmission x s
  | .placedOffer x => Sys2Proof.Machine.execPlacedOffer x s
  | .ioDieIngress m => Sys2Proof.Machine.execIoDieIngress m s
  | .bulkPacketArrival k x p => Sys2Proof.Machine.execBulkPacketArrival k x p s
  | .reassemblyTimeout k x => Sys2Proof.Machine.execReassemblyTimeout k x s
  | .admitMsg t => Sys2Proof.Machine.execAdmitMsg t s
  | .retry t => Sys2Proof.Machine.execRetry t s
  | .nack t => Sys2Proof.Machine.execNack t s
  | .outboundOffer k x => Sys2Proof.Machine.execOutboundOffer k x s
  | .entryWordFill k task pc => Sys2Proof.Machine.execEntryWordFill k task pc s
  | .dispatch k => Sys2Proof.Machine.execDispatch k s
  | .watchdog k c => Sys2Proof.Machine.execWatchdog k c s
  | .hostLaunchSubmit va asid => Sys2Proof.Machine.execHostLaunchSubmit va asid s
  | .seedSend task => Sys2Proof.Machine.execSeedSend task s
  | .autoend task => Sys2Proof.Machine.execAutoend task s
  | .hostKill task => Sys2Proof.Machine.execHostKill task s
  | .scratchpadSave k task => Sys2Proof.Machine.execScratchpadSave k task s
  | .scratchpadRestore k task => Sys2Proof.Machine.execScratchpadRestore k task s
  | .eventOp x => Sys2Proof.Machine.execEventOp x s
  | .stealRequest t => Sys2Proof.Machine.execStealRequest t s
  | .stealAnswer t => Sys2Proof.Machine.execStealAnswer t s
  | .groupArrival t => Sys2Proof.Machine.execGroupArrival t s
  | .storeBufferDrain k x => Sys2Proof.Machine.execStoreBufferDrain k x s
  | .memoryAgentRequest x => Sys2Proof.Machine.execMemoryAgentRequest x s
  | .watchPeriodic k c => Sys2Proof.Machine.execWatchPeriodic k c s
  | .waitwTimeout k c => Sys2Proof.Machine.execWaitwTimeout k c s
  | .recvwTimeout k c => Sys2Proof.Machine.execRecvwTimeout k c s
  | .walkComplete die x => Sys2Proof.Machine.execWalkComplete die x s
  | .contextRestore k x => Sys2Proof.Machine.execContextRestore k x s
  | .tileStep k => Sys2Proof.Machine.execTileStep k s
  | .matrixReadout k => Sys2Proof.Machine.execMatrixReadout k s
  | .matrixListReadout k => Sys2Proof.Machine.execMatrixListReadout k s
  | .slotReset k => Sys2Proof.Machine.execSlotReset k s
  | .gatherLatchFill k => Sys2Proof.Machine.execGatherLatchFill k s
  | .gbTileArrival k => Sys2Proof.Machine.execGbTileArrival k s
  | .completionActions k eng num => Sys2Proof.Machine.execCompletionActions k eng num s
  | .copyExecute k => Sys2Proof.Machine.execCopyExecute k s
  | .remoteCopyExecute k => Sys2Proof.Machine.execRemoteCopyExecute k s
  | .credExecute k => Sys2Proof.Machine.execCredExecute k s
  | .reductionContribution t => Sys2Proof.Machine.execReductionContribution t s
  | .catomExecute k => Sys2Proof.Machine.execCatomExecute k s
  | .cmcExecute k => Sys2Proof.Machine.execCmcExecute k s
  | .multicastMemberWrite t => Sys2Proof.Machine.execMulticastMemberWrite t s
  | .multicastResponse t => Sys2Proof.Machine.execMulticastResponse t s
  | .multicastResponseTimeout x => Sys2Proof.Machine.execMulticastResponseTimeout x s
  | .cstorExecute k => Sys2Proof.Machine.execCstorExecute k s
  | .nvmeCompletion x status data => Sys2Proof.Machine.execNvmeCompletion x status data s
  | .cdtabExecute k => Sys2Proof.Machine.execCdtabExecute k s
  | .cdecExecute k => Sys2Proof.Machine.execCdecExecute k s
  | .remoteTransaction t => Sys2Proof.Machine.execRemoteTransaction t s
  | .transactionReissue x => Sys2Proof.Machine.execTransactionReissue x s
  | .fabricUnreachable x => Sys2Proof.Machine.execFabricUnreachable x s
  | .flitArrival port r => Sys2Proof.Machine.execFlitArrival port r s
  | .healthAgeing => Sys2Proof.Machine.execHealthAgeing s
  | .portRetrainComplete port ok => Sys2Proof.Machine.execPortRetrainComplete port ok s
  | .netSendExecute k => Sys2Proof.Machine.execNetSendExecute k s
  | .ueOmfPacket u => Sys2Proof.Machine.execUeOmfPacket u s
  | .ueSendData u => Sys2Proof.Machine.execUeSendData u s
  | .ueAcknowledgement u => Sys2Proof.Machine.execUeAcknowledgement u s
  | .ueReceiverNotReady u => Sys2Proof.Machine.execUeReceiverNotReady u s
  | .ueClose u => Sys2Proof.Machine.execUeClose u s
  | .ueCloseAnswer u => Sys2Proof.Machine.execUeCloseAnswer u s
  | .ueRetransmit x => Sys2Proof.Machine.execUeRetransmit x s
  | .ueRnrReoffer x => Sys2Proof.Machine.execUeRnrReoffer x s
  | .ueNobufTimeout x => Sys2Proof.Machine.execUeNobufTimeout x s
  | .routeGateExecute k => Sys2Proof.Machine.execRouteGateExecute k s
  | .sendListTimeout die x => Sys2Proof.Machine.execSendListTimeout die x s
  | .routeFlushExecute k => Sys2Proof.Machine.execRouteFlushExecute k s
  | .ingressTransfer die => Sys2Proof.Machine.execIngressTransfer die s
  | .bufferTimeout die e => Sys2Proof.Machine.execBufferTimeout die e s
  | .fetchComplete die e => Sys2Proof.Machine.execFetchComplete die e s
  | .fetchFail die e => Sys2Proof.Machine.execFetchFail die e s
  | .freqAgeing die => Sys2Proof.Machine.execFreqAgeing die s
  | .dbgHalt k => Sys2Proof.Machine.execDbgHalt k s
  | .dbgDrain k task => Sys2Proof.Machine.execDbgDrain k task s
  | .drainComplete k => Sys2Proof.Machine.execDrainComplete k s
  | .hostApertureAccess ap off write data => Sys2Proof.Machine.execHostApertureAccess ap off write data s
  | .watchTableArm x w2 => Sys2Proof.Machine.execWatchTableArm x w2 s
  | .hostRegisterWrite r => Sys2Proof.Machine.execHostRegisterWrite r s
  | .driveGrant h block => Sys2Proof.Machine.execDriveGrant h block s
  | .driveRevoke h => Sys2Proof.Machine.execDriveRevoke h s
  | .deviceReset => Sys2Proof.Machine.execDeviceReset s
  | .powerOn r => Sys2Proof.Machine.execPowerOn r s
  | .recoveryImageWrite image r => Sys2Proof.Machine.execRecoveryImageWrite image r s
  | .spdmGetMeasurements x => Sys2Proof.Machine.execSpdmGetMeasurements x s
  | .thermalLimit die => Sys2Proof.Machine.execThermalLimit die s
  | .monitorSample die x value => Sys2Proof.Machine.execMonitorSample die x value s
  | .illegalWord w held => Sys2Proof.Machine.execIllegalWord w held s
  | .linkLoss port => Sys2Proof.Machine.execLinkLoss port s
  | .switchTierDeparture x => Sys2Proof.Machine.execSwitchTierDeparture x s
  | .temperatureFallsBack die => Sys2Proof.Machine.execTemperatureFallsBack die s
  | .powerLoss step => Sys2Proof.Machine.execPowerLoss step s

end Sys2Proof.Machine
end

