-- ==== Sys2Proof/Machine/Select.lean ====
section
/-! DEFINITION. Which agents can move: the steps of the device's agents that the state enables, the oldest input that can
land, and the cores that can issue (04 R94). Where several can move, which one does is a free value (assumption 1). -/
namespace Sys2Proof.Machine

/-! ## The steps of the agents -/

/-- A step when it is enabled. -/
def only (ok : Bool) (i : Instr) : List Instr := if ok then [i] else []

/-- The steps of context `c` of core `k`. -/
noncomputable def ctxSteps (s : State) (k c : Nat) : List Instr :=
  if (ctxOf s k c).status == .free then []
  else only (groupCloseOn s k c) (.groupClose k c) ++ only (watchdogOn s k c) (.watchdog k c) ++
    only (recvwTimeoutOn s k c) (.recvwTimeout k c) ++ only (waitwTimeoutOn s k c) (.waitwTimeout k c) ++
    only (watchPeriodicOn s k c) (.watchPeriodic k c)

/-- The steps of the message interface and the dispatcher of core `k`. -/
noncomputable def messageSteps (s : State) (k : Nat) : List Instr :=
  let c := coreOf s k
  only (pipeFor s k).isSome (.vectorPipeGrant k) ++
  c.parked.flatMap (fun p => only (contextRestoreOn s k p.frame) (.contextRestore k p.frame)) ++
  (c.stores.take 1).flatMap (fun e => only (storeBufferDrainOn s k e.num) (.storeBufferDrain k e.num)) ++
  c.out.flatMap (fun e => only (outboundOfferOn s k e.num) (.outboundOffer k e.num)) ++
  c.res.flatMap (fun r => (headsOf r).flatMap (fun p =>
    only (entryWordFillOn s k r.task.toNat (entryVa p.1.msg)) (.entryWordFill k r.task.toNat (entryVa p.1.msg)))) ++
  only (!c.res.isEmpty && dispatchOn s k) (.dispatch k) ++
  c.pulls.flatMap (fun u =>
    (landable s k u).map (fun p => .bulkPacketArrival k u.q.msg.ssite p) ++
    only (reassemblyTimeoutOn s k u.num) (.reassemblyTimeout k u.num)) ++
  c.res.flatMap (fun r => only (scratchpadSaveOn s k r.task.toNat) (.scratchpadSave k r.task.toNat) ++
    only (scratchpadRestoreOn s k r.task.toNat) (.scratchpadRestore k r.task.toNat)) ++
  only (drainCompleteOn s k) (.drainComplete k) ++ c.answers.flatMap (fun q => only (stealAnswerOn s (stealOf k q)) (.stealAnswer (stealOf k q)))

/-- The steps of the engines for core `k`. -/
noncomputable def engineSteps (s : State) (k : Nat) : List Instr :=
  let c := coreOf s k
  let done (eng : Nat) : List Instr :=
    (c.queue eng).flatMap (fun q => only (completionActionsOn s k eng q.num) (.completionActions k eng q.num))
  (if c.matq.isEmpty then [] else
    only (gbTileArrivalOn s k) (.gbTileArrival k) ++ only (gatherLatchFillOn s k) (.gatherLatchFill k) ++
    only (tileStepOn s k) (.tileStep k) ++ only (matrixReadoutOn s k) (.matrixReadout k) ++
    only (matrixListReadoutOn s k) (.matrixListReadout k) ++ only (slotResetOn s k) (.slotReset k) ++ done 0) ++
  (if c.copyq.isEmpty then [] else
    only (copyExecuteOn s k) (.copyExecute k) ++ only (remoteCopyExecuteOn s k) (.remoteCopyExecute k) ++
    only (credExecuteOn s k) (.credExecute k) ++ only (catomExecuteOn s k) (.catomExecute k) ++
    only (cmcExecuteOn s k) (.cmcExecute k) ++ only (cstorExecuteOn s k) (.cstorExecute k) ++
    only (cdtabExecuteOn s k) (.cdtabExecute k) ++ only (cdecExecuteOn s k) (.cdecExecute k) ++ done 1) ++
  (if c.netq.isEmpty then [] else only (netSendExecuteOn s k) (.netSendExecute k) ++ done 2) ++
  (if c.routeq.isEmpty then [] else
    only (routeGateExecuteOn s k) (.routeGateExecute k) ++ only (routeFlushExecuteOn s k) (.routeFlushExecute k) ++ done 3)

/-- The cores that the state lists. -/
def listedCores (s : State) : List Nat := s.core.id :: s.cores.map (fun p => p.1)

/-- The step that a control message asks for. -/
noncomputable def ctlStep (t : Ctl) : Instr :=
  match t.kind with
  | .admitted => .admitMsg t
  | .retry => .retry t
  | .nack => .nack t

/-- The steps of the mesh, the memory agents, the Retorts, the launch controller, the event and the group units. -/
noncomputable def deviceSteps (s : State) : List Instr :=
  s.flights.flatMap (fun f => only (admissionOn s f.num) (.admission f.num) ++ only (placedOfferOn s f.num) (.placedOffer f.num)) ++
  s.ctls.map ctlStep ++
  (List.range (s.transit.length + s.lag.length)).flatMap (fun x => only (memoryAgentRequestOn s x) (.memoryAgentRequest x)) ++
  (List.range 6).flatMap (fun d => (retortOf s d).walks.flatMap (fun w => only (walkCompleteOn s d w.num) (.walkComplete d w.num))) ++
  s.launches.flatMap (fun l => only (autoendOn s l.task.toNat) (.autoend l.task.toNat) ++
    only (seedSendOn s l.task.toNat) (.seedSend l.task.toNat)) ++
  s.host.samples.map (fun p => .monitorSample p.die p.mon p.value) ++
  s.evq.flatMap (fun e => only (eventOpOn s e.num) (.eventOp e.num)) ++ s.steals.map .stealRequest ++
  (firstArrivals s).map .groupArrival ++
  s.redq.flatMap (fun t => only (reductionContributionOn s t) (.reductionContribution t))

/-- The steps of the fabric and of the network endpoint. -/
noncomputable def netSteps (s : State) : List Instr :=
  (s.fab.lines.filter (multicastMemberWriteOn s)).map .multicastMemberWrite ++ s.fab.resps.map .multicastResponse ++
  s.fab.casts.flatMap (fun c => only (multicastResponseTimeoutOn s c.num) (.multicastResponseTimeout c.num) ++
    only (switchTierDepartureOn s c.num) (.switchTierDeparture c.num)) ++
  s.fab.txs.flatMap (fun t => only (transactionReissueOn s t.tag) (.transactionReissue t.tag) ++
    only (fabricUnreachableOn s t.tag) (.fabricUnreachable t.tag)) ++
  only (healthAgeingOn s) .healthAgeing ++
  (if s.net.peers.isEmpty then []
   else (List.range (waitingUnits s).length).flatMap (fun x => only (ueRetransmitOn s x) (.ueRetransmit x))) ++
  (List.range s.net.sends.length).flatMap (fun x => only (ueRnrReofferOn s x) (.ueRnrReoffer x) ++
    only (ueNobufTimeoutOn s x) (.ueNobufTimeout x))

/-- The destinations for which a die holds records or transfers. -/
def routeDests (r : Route) : List Nat :=
  (r.lists.map (fun l => destNo l.accel l.die) ++ r.outgoing.map (fun t => destNo t.dacc t.ddie)).foldl (fun l x => setInsert x l) []

/-- The steps of the routing engine of a die. -/
noncomputable def routeSteps (s : State) (d : Nat) : List Instr :=
  let r := routeOf s d
  if r.cfg.isNone && r.incoming.isEmpty && r.old.isEmpty then []
  else
    (routeDests r).flatMap (fun x => only (sendListTimeoutOn s d x) (.sendListTimeout d x)) ++
    only (ingressStep s d).isSome (.ingressTransfer d) ++
    r.bufs.flatMap (fun p => only (bufferTimeoutOn s d p.1) (.bufferTimeout d p.1)) ++
    (r.fetching.map (fun p => p.1) ++ r.old.map (fun o => o.e)).flatMap (fun e =>
      only (fetchCompleteOn s d e) (.fetchComplete d e) ++ only (fetchFailOn s d e) (.fetchFail d e)) ++
    only (freqAgeingOn s d) (.freqAgeing d)

/-- Every step of an agent that the state enables. -/
noncomputable def agentSteps (s : State) : List Instr :=
  (listedCores s).flatMap (fun k => (List.range 16).flatMap (ctxSteps s k) ++ messageSteps s k ++ engineSteps s k) ++
  deviceSteps s ++ netSteps s ++ (List.range 4).flatMap (routeSteps s)

/-! ## Inputs -/

/-- The read of a drive that a completion names. -/
def readOf (s : State) (x : Nat) : Option DriveRead := s.host.reads.find? (fun r => r.num == x)

/-- What an input can be held on. -/
def inputKey (s : State) (i : Instr) : Option HoldKey :=
  match i with
  | .hostLaunchSubmit va asid => some (.submit va asid)
  | .hostApertureAccess ap _ _ _ => some (.aperture ap)
  | .watchTableArm x _ => some (.watch x)
  | .hostRegisterWrite (.bar off _) => (barWatch off).map (fun p => .watch p.1)
  | .remoteTransaction t => (match t.op with
    | .unit u _ _ => some (.unit u.ssite u.sacc u.seq)
    | _ => some (.fabric t.accel t.tag))
  | .ueSendData u => some (.unit u.ssite u.sacc u.seq)
  | .nvmeCompletion x _ _ => (readOf s x).map (fun r => match r.expert with
    | some e => .fetch r.die e
    | none => .cmd r.core 1 r.cmd)
  | _ => none

/-- The unit of the network endpoint that an input brings. -/
def inputUnit (i : Instr) : Option UeUnit :=
  match i with
  | .ueSendData u => some u
  | .remoteTransaction t => (isUnitPart t.op).map (fun p => p.1)
  | _ => none

/-- Whether an input can land: it is not held, and what must not be overtaken is over: the lower sectors of a transfer, the earlier
reads of a command, and the releases before the completion of a fetch. -/
def inputReady (s : State) (i : Instr) : Bool :=
  (inputKey s i).all (fun k => !heldOn s k) && (inputUnit i).all (fun u => !unitEarly s u) &&
  (match i with
   | .remoteTransaction t => !writeEarly s t
   | .nvmeCompletion x _ _ => (readOf s x).all (fun r => !readEarly s r && (r.expert.isNone || ingressIdle s r.die))
   | _ => true)

/-- Whether an input that has landed stays, because an access of it waits for a fault. -/
def inputStays (s : State) (i : Instr) : Bool :=
  (inputKey s i).any (heldOn s) || (inputUnit i).any (unitStays s) ||
  (match i with
   | .nvmeCompletion x _ _ => (readOf s x).isSome
   | .remoteTransaction t => writeEarly s t
   | _ => false)

/-- Whether the device takes an input: in reset or without power it can only be powered, and in recovery it exposes the
recovery mailbox besides (16 R382, R384). -/
def takesInput (s : State) (i : Instr) : Bool :=
  (s.host.running && !s.host.recovery) || (match i with
    | .powerOn _ => true
    | .powerLoss _ => true
    | .recoveryImageWrite _ _ => true
    | _ => false)

/-- Whether a transaction of an atomic on host memory is open (07 R168): meanwhile only the host acts beside it. -/
def rmwAt (s : State) : Option Nat := s.transit.findIdx? (fun e => e.rmw)

/-- Whether an input is a write of the host to its own memory. -/
def isHostWrite (i : Instr) : Bool :=
  match i with
  | .hostRegisterWrite (.hostMemory _ _) => true
  | _ => false

/-- Whether an input comes through a BAR: such accesses are performed in the order in which the host makes them (16 R376). -/
def viaBar (i : Instr) : Bool :=
  match i with
  | .hostApertureAccess _ _ _ _ => true
  | .watchTableArm _ _ => true
  | .hostRegisterWrite (.bar _ _) => true
  | .hostRegisterWrite (.barRead _) => true
  | _ => false

/-- The oldest input that can land, with its place. -/
def nextInput (s : State) : Option (Nat × Instr) :=
  (s.inputs.zipIdx.find? (fun p => inputReady s p.1 && !(viaBar p.1 && (s.inputs.take p.2).any viaBar))).map (fun p => (p.2, p.1))

/-! ## The choice -/

/-- Everything that can happen. A device that is off or in recovery takes inputs only (16 R382, R384), and a core of a hot
die may stay idle (16 R390). -/
noncomputable def choices (s : State) : List Choice :=
  let ins : List Choice := ((nextInput s).map (fun p => Choice.input p.1 p.2)).toList
  match rmwAt s with
  | some x => .agent (.memoryAgentRequest x) :: ((nextInput s).filter (fun p => isHostWrite p.2)).toList.map (fun p => .input p.1 p.2)
  | none =>
  if !s.host.running || s.host.recovery then ins
  else ins ++ (agentSteps s).map .agent ++ ((listedCores s).filter (fun k => !(issuers s k).isEmpty)).map .core ++
    (if s.host.hot.isEmpty then [] else [.idle])

/-- A choice without the place of an input, by which it is known from step to step. -/
def Choice.key (c : Choice) : Choice :=
  match c with
  | .input _ i => .input 0 i
  | .agent i => .agent i
  | .core k => .core k
  | .idle => .idle

/-- The step since which a choice has been there. -/
def standsSince (s : State) (c : Choice) : Nat := ((s.waits.find? (fun p => p.1 == c.key)).map (fun p => p.2)).getD s.tick

/-- The choice that has been there longest, if its patience is over: nothing that can move is passed over for ever (06 R137). -/
def overdue (s : State) (cs : List Choice) : Option Choice :=
  (cs.filter (fun c => standsSince s c + Config.patience < s.tick)).foldl
    (fun best c => if best.all (fun b => standsSince s c < standsSince s b) then some c else best) none

/-- The choice that is taken. -/
noncomputable def chosen (s : State) : Choice :=
  match choices s with
  | [] => .idle
  | [c] => c
  | c :: cs => (overdue s (c :: cs)).getD ((c :: cs).getD (Config.choose s.tick % (cs.length + 1)) c)

/-- Behind a step each choice that is still there goes on waiting, the one that was taken anew. While an atomic on host memory is
open nothing else is there (07 R168), and all wait. -/
noncomputable def noteWaits (taken : Choice) (s : State) : State :=
  if (rmwAt s).isSome then s
  else { s with waits := ((choices s).filter (fun c => c != .idle)).map (fun c =>
    (c.key, if c.key == taken.key then s.tick else standsSince s c)) }

/-! ## Time -/

/-- A context that the debugger has stopped does not count clk (15 R363). -/
def shiftCtx (s : State) (c : Core) (x : Ctx) : Ctx :=
  if x.status != .free && stopped s c x then { x with start := x.start + 1, since := x.since.map (fun t => t + 1) } else x

/-- The contexts of a halted core. -/
def shiftCore (s : State) (c : Core) : Core :=
  if c.regs.halt then { c with ctxs := c.ctxs.map (fun p => (p.1, shiftCtx s c p.2)) } else c

/-- The inbound occupancy of a core, for the monitors of its die (16 R389). -/
def sampleCore (s : State) (k : Nat) : State :=
  let c := coreOf s k
  sample 3 (coreDie k) (some k) (highCount c true) (sample 2 (coreDie k) (some k) (lowCount c true) s)

/-- Every 1,024 clk the monitors take the inbound occupancy of the cores. -/
def sampleOccupancy (s : State) : State :=
  if s.clk % 1024 == 0 && !s.host.monitors.isEmpty then (List.range (64 * meshRows s)).foldl sampleCore s else s

/-- One clk passes. -/
def tickOver (t : State) : State :=
  let s := sampleOccupancy t
  let s1 := if s.core.regs.halt then { s with ctx := shiftCtx s s.core s.ctx, core := shiftCore s s.core } else s
  { s1 with cores := s1.cores.map (fun p => (p.1, shiftCore s p.2)), clk := s1.clk + 1, tick := s1.tick + 1 }

/-! ## Placing an instruction for a fetch -/

/-- The leaf that maps the page of an address onto itself, readable, writable and executable. -/
def placedLeaf (va : W64) : W64 := w64 (0x1F + vaLoc va / 2 ^ 21 % 2 ^ 27 * 2 ^ 21)

/-- A word stored at the pc of the context in focus, with the cached leaf through which the fetch reads it, and the
context ready to issue. -/
def placeWord (w : W32) (s : State) : State :=
  let va := s.ctx.pc
  let q := { fetchReq s va with sub := false }
  let r := retortOf s (vaDie va)
  let e : TlbEnt := { asid := q.asid, gen := genOf r q.asid, sub := inSub (coreSpa s.core) va, die := vaDie va,
                      page := pageNo (inSub (coreSpa s.core) va) (vaLoc va), leaf := placedLeaf va }
  let s1 := setRetort s (vaDie va) { r with cache := e :: r.cache }
  { s1 with ctx := { s1.ctx with status := .ready, run := [], xfail := none }, core := { s1.core with icache := [] },
            mem := memWrite s1.mem (leafKey e.sub e.leaf va) (toBytes 4 w.toNat) }

end Sys2Proof.Machine
end

