-- ==== Sys2Proof/Machine/Step.lean ====
section
/-! DEFINITION. One step of the module: one input lands, one agent moves, or one core issues one word. -/
namespace Sys2Proof.Machine

/-- The clk that a step takes passes behind it. -/
def after (f : State → State) (r : Host.Outcome State Fault Refusal) : Host.Outcome State Fault Refusal :=
  match r with
  | .next s => .next (tickOver (f s))
  | .fault e => .fault e
  | .refused e => .refused e

/-- A turn of an agent. -/
def turn (t : Turn) : Host.Outcome State Fault Refusal :=
  match t with
  | .rest s => .next (tickOver s)
  | .run i s => after id (exec i s)

/-- An input lands; it stays where it was while an access of it waits. One that the device does not take is lost. -/
def land (n : Nat) (i : Instr) (s : State) : Host.Outcome State Fault Refusal :=
  if !takesInput s i then .next (tickOver { s with inputs := s.inputs.eraseIdx n })
  else after (fun t => if inputStays t i then { t with inputs := t.inputs.insertIdx n i } else t)
    (exec i { s with inputs := s.inputs.eraseIdx n })

/-- What a choice comes to. -/
noncomputable def act (c : Choice) (s : State) : Host.Outcome State Fault Refusal :=
  match c with
  | .input n i => land n i s
  | .agent i => after id (exec i s)
  | .core k => turn (coreTurn k s)
  | .idle => .next (tickOver s)

/-- Behind a step the choices that it passed over go on waiting. -/
noncomputable def noted (c : Choice) (r : Host.Outcome State Fault Refusal) : Host.Outcome State Fault Refusal :=
  match r with
  | .next s => .next (noteWaits c s)
  | .fault e => .fault e
  | .refused e => .refused e

/-- One step. -/
noncomputable def step (s : State) : Host.Outcome State Fault Refusal := noted (chosen s) (act (chosen s) s)

/-- The instruction of `nbits` bits of `w` stands where the context in focus fetches. -/
def State.withFetchWord (s : State) (nbits w : Nat) : State := placeWord (BitVec.ofNat 32 (w % 2 ^ nbits)) s

end Sys2Proof.Machine
end

