-- ==== Sys2Proof/Safety.lean ====
section
/-! DEFINITION. What a safe run is. The manual ends no run of the module: every trap, fault and error has its entry, its
record or its status. So a step is safe when it answers a next state, and a state is sound when its inputs are
what the outside world can bring and its memories are canonical. -/
namespace Sys2Proof.Machine

/-- The rows that the outside world brings about: the host, the links, the drives, the management controller. -/
def isInput (i : Instr) : Bool :=
  match i with
  | .hostLaunchSubmit _ _ | .hostKill _ | .hostApertureAccess _ _ _ _ | .watchTableArm _ _ | .hostRegisterWrite _
  | .driveGrant _ _ | .driveRevoke _ | .deviceReset | .powerOn _ | .recoveryImageWrite _ _ | .spdmGetMeasurements _
  | .thermalLimit _ | .temperatureFallsBack _ | .monitorSample _ _ _ | .powerLoss _ | .linkLoss _
  | .portRetrainComplete _ _ | .flitArrival _ _ | .nvmeCompletion _ _ _ | .remoteTransaction _ | .ioDieIngress _
  | .ueOmfPacket _ | .ueSendData _ | .ueAcknowledgement _ | .ueReceiverNotReady _ | .ueClose _ | .ueCloseAnswer _
  | .dbgHalt _ | .dbgDrain _ _ => true
  | _ => false

/-- The machine goes on. -/
def Safe (s : State) : Prop := ∃ t, step s = .next t

/-- Every input that waits is one of the outside world. -/
def Fed (s : State) : Prop := ∀ i ∈ s.inputs, isInput i = true

/-- Memory and every scratchpad stand in the canonical form. -/
def Canonical (s : State) : Prop :=
  Memory.wf s.mem = true ∧ Memory.wf s.core.spad = true ∧ ∀ p ∈ s.cores, Memory.wf p.2.spad = true

/-- The part of a state that a core's own scalar instructions leave alone: all but the context in focus, and the
operand-reuse cache, which drops its copies of a written register and which no result depends on (09 R200). -/
def State.rest (s : State) : State := { s with ctx := Ctx.reset 0, core := { s.core with reuse := [] } }

/-- The part of a context that an instruction that only holds writes leaves alone: all but the pc, the place in the
group, the run, the held writes and flags. -/
def Ctx.rest (c : Ctx) : Ctx :=
  { c with pc := 0, run := [], gcount := 0, pend := [], pendFp := 0, pendRl := 0, status := .ready, since := none,
           got := none }

/-! ## Words of the statements -/

/-- The state after an instruction with marker `sw` that holds the register writes `ws` for the close of its group and
does nothing else: the next word, and the group closes at the marker or at its 16th instruction (03 R45, R46). Every
register, flag, byte of memory and queue is as before. -/
def issued (sw : Bool) (ws : List RegWrite) (s : State) : State :=
  { s with ctx := { s.ctx with
      pc := s.ctx.pc + 4, run := [], since := none, got := none, pend := s.ctx.pend ++ ws,
      gcount := if sw || s.ctx.gcount + 1 ≥ 16 then 0 else s.ctx.gcount + 1,
      status := if sw || s.ctx.gcount + 1 ≥ 16 then .closing .next else .ready } }

/-- The state after an instruction that closes its group with an action and does nothing else (03 R45, R48). -/
def closes (a : CloseAct) (s : State) : State :=
  { s with ctx := { s.ctx with run := [], since := none, got := none, gcount := 0, status := .closing a } }

/-- The low half of a register (04 R81). -/
def low32 (s : State) (r : BitVec 4) : BitVec 32 := (readW s r).setWidth 32

/-- Two, four and eight bytes from a key upward, as little-endian numbers (00 R2). -/
def le16 (f : Nat → Byte) (k : Nat) : BitVec 16 := f (k + 1) ++ f k
def le32 (f : Nat → Byte) (k : Nat) : BitVec 32 := le16 f (k + 2) ++ le16 f k
def le64 (f : Nat → Byte) (k : Nat) : W64 := le32 f (k + 4) ++ le32 f k

/-- No HX word stands before the instruction. -/
def Unprefixed (s : State) : Prop := s.ctx.run = []

/-- The HX run before the instruction consists of the HX.IMM words with the values `hs` (03 R60). -/
def ExtendedBy (s : State) (hs : List (BitVec 21)) : Prop := s.ctx.run = hs.map (fun h => encode (.hxImm h))

/-- A signed immediate field with up to two HX.IMM values in front of it, the first the most significant, as 64 bits
(03 R61). -/
def wide {f : Nat} (hs : List (BitVec 21)) (imm : BitVec f) : W64 :=
  match hs with
  | [] => imm.signExtend 64
  | [h] => (h ++ imm).signExtend 64
  | h :: k :: _ => (h ++ k ++ imm).signExtend 64

/-- The same of an unsigned field. -/
def wideU {f : Nat} (hs : List (BitVec 21)) (imm : BitVec f) : W64 :=
  match hs with
  | [] => imm.zeroExtend 64
  | [h] => (h ++ imm).zeroExtend 64
  | h :: k :: _ => (h ++ k ++ imm).zeroExtend 64

/-- The word of an instruction as TRAPV receives it (15 R349). -/
noncomputable def wordOf (i : Instr) : W64 := (encode i).zeroExtend 64

/-- The instruction raises a trap with this TRAPC and TRAPV (15 R348, R349). -/
def Traps (i : Instr) (s : State) (cause : Nat) (value : W64) : Prop := exec i s = .next (raise cause value s)

/-- Context `c` of core `k` is the one in focus. -/
def Focused (s : State) (k c : Nat) : Prop := s.core.id = k ∧ s.ctx.num.toNat = c

/-- The closing group of the context in focus may close: no vector result of it is outstanding, and its watchdog has not run
out (09 R199, 15 R363). -/
def Closable (s : State) : Prop := s.core.vecq.contains (s.ctx.num, s.ctx.inc) = false ∧ cycOf s s.ctx < 2 ^ s.ctx.limit

/-- The four registers that a trap exchanges with TSAVE0 to TSAVE3 (15 R348). -/
def savedReg (j : Fin 4) : BitVec 4 := BitVec.ofNat 4 (12 + j.val)

/-- The rest of a context that a trap, a call or a return leaves alone: vector, mask, list and tensor-scale registers,
message registers, task and identity. -/
def SameBanks (x y : Ctx) : Prop :=
  y.vregs = x.vregs ∧ y.masks = x.masks ∧ y.lists = x.lists ∧ y.eregs = x.eregs ∧ y.msg = x.msg ∧ y.num = x.num ∧
  y.task = x.task ∧ y.inc = x.inc ∧ y.fprnd = x.fprnd ∧ y.wto = x.wto ∧ y.sb = x.sb

/-- What trap entry leaves (15 R348), the group's earlier writes aside: the cause, the address of the instruction and the
value in TRAPC, TRAPPC and TRAPV, LEVEL saved and raised, INTRAP set, w12 to w15 exchanged with TSAVE0 to TSAVE3, and
the pc at the vector. -/
def TrapEntered (s t : State) (cause : Nat) (value : W64) : Prop :=
  t.ctx.pc = s.core.regs.tvec ∧ t.ctx.status = .ready ∧ t.ctx.run = [] ∧ t.ctx.gcount = 0 ∧ t.ctx.pend = [] ∧
  t.ctx.trap.trapc = w64 cause ∧ t.ctx.trap.trappc = instrPc s.ctx ∧ t.ctx.trap.trapv = value ∧
  t.ctx.trap.prev = s.ctx.trap.level ∧ t.ctx.trap.level = true ∧ t.ctx.trap.intrap = true ∧
  t.ctx.trap.asid = s.ctx.trap.asid ∧ t.ctx.trap.stkix = s.ctx.trap.stkix ∧
  (∀ j : Fin 4, t.ctx.reg (savedReg j) = s.ctx.trap.tsave.get j ∧ t.ctx.trap.tsave.get j = s.ctx.reg (savedReg j)) ∧
  (∀ r : BitVec 4, r.toNat < 12 → t.ctx.reg r = s.ctx.reg r) ∧ t.ctx.depth = s.ctx.depth ∧
  SameBanks s.ctx t.ctx ∧ t.rest = s.rest

/-- The address translates: it lies on this module, and a cached leaf allows the access and names this location (07 R150,
15 R356, R357). -/
def Maps (s : State) (va : W64) (rd wr : Bool) (key : Nat) : Prop :=
  vaAccel va = s.accel.toNat ∧ cachedKey s (dataReq s va rd wr) = some key

/-- None of `n` bytes from a location is uncorrectable for the core (07 R153). -/
def CleanAt (s : State) (key n : Nat) : Prop := viewPoison s key n = false

/-- A scalar global access at `va` of `n` bytes can be made: aligned, mapped, and for a read clean. -/
def Reaches (s : State) (va : W64) (n : Nat) (rd wr : Bool) (key : Nat) : Prop :=
  va.toNat % n = 0 ∧ Maps s va rd wr key ∧ (rd = true → CleanAt s key n)

/-- The `n` low bytes of a register from a location upward. -/
def wordCells (key n : Nat) (v : W64) : List Host.Cell :=
  (List.range n).map (fun j => (key + j, v.extractLsb' (8 * j) 8))

/-- Bytes of the context in focus have entered the store buffer of its core (08 R174), behind the stores `ns` at a scope. -/
def buffered (ns : List Nat) (scope : Nat) (cs : List Host.Cell) (key : Nat) (s : State) : State :=
  { s with core := { s.core with
      stores := s.core.stores ++ [{ num := s.core.storeNum, core := s.core.id, ctx := s.ctx.num, inc := s.ctx.inc, task := s.ctx.task,
                                    die := keyDie key, cells := cs, needs := ns, scope := scope, rmw := false }],
      storeNum := s.core.storeNum + 1 } }

/-- The context in focus has loaded `n` bytes from a location: it remembers which stores of its core it has seen (08 R175). -/
def sawRange (key n : Nat) (s : State) : State := sawAt ((List.range n).map (fun i => key + i)) s

/-- Whatever the die of the core in focus saw in `s` is visible on every die in `t` (08 R176). -/
def ReleasedFrom (s t : State) : Prop :=
  ∀ e ∈ t.lag, e.seen = none → unseenOn s (coreDie s.core.id) e.core e.num = true

/-- The byte of the core's scratchpad at an offset of the context's launch (07 R149). -/
def spByte (s : State) (o : Nat) : Byte := memGet s.core.spad (s.ctx.spbase + o % 2 ^ s.ctx.logspad)

/-- `n` bytes were written to the core's scratchpad from offset `o` of the launch, each wrapping on its own, byte `j`
being `f j`; every other byte of it is as before. -/
def SpadWritten (s t : State) (o n : Nat) (f : Nat → Byte) : Prop :=
  (∀ j < n, spByte t (o + j) = f j) ∧
  ∀ p, (∀ j < n, p ≠ s.ctx.spbase + (o + j) % 2 ^ s.ctx.logspad) → memGet t.core.spad p = memGet s.core.spad p

/-- Element `j` of width `w` of a vector register (09 R196). -/
def lane (w : Nat) (v : VReg) (j : Nat) : BitVec w := v.extractLsb' (w * j) w

/-- The context of `t` is that of `s` after an instruction that holds the writes `ws`. -/
def CtxIssued (sw : Bool) (ws : List RegWrite) (s t : State) : Prop := t.ctx = (issued sw ws s).ctx

/-- The state after a vector instruction with marker `sw` that joined the dispatch queue with the reuse sources `srcs`,
holds the writes `ws` and raises the flags `fl` (09 R199, R200, 02 R30); nothing else changes. -/
def vecIssued (sw : Bool) (srcs : List (Nat × Src)) (ws : List RegWrite) (fl : BitVec 6) (s : State) : State :=
  issued sw ws { s with ctx := { s.ctx with pendFp := s.ctx.pendFp ||| fl },
                        core := { s.core with vecq := s.core.vecq ++ [(s.ctx.num, s.ctx.inc)], reuse := keepSlots s srcs } }

/-- The registers are declared and the dispatch queue has room (03 R55, 09 R199). -/
def VecReady (s : State) (vs : List (BitVec 5)) : Prop := s.core.vecq.length < 8 ∧ ∀ v ∈ vs, v.toNat < s.ctx.nv

/-- Element `j` of width `w` is active under mask register `m` (09 R198). -/
def laneOn (s : State) (m : BitVec 3) (w j : Nat) : Bool := (readM s m).getLsbD (w * j / 32)

/-- The instruction completes in the vector unit and holds for `v` a register whose active elements of width `w` are
those of `f` and whose other elements are the old ones; the flags are those of the active elements together. -/
def VecResult (i : Instr) (s : State) (sw : Bool) (srcs : List (Nat × Src)) (v : BitVec 5) (w : Nat) (m : BitVec 3)
    (f : Nat → Nat × BitVec 6) : Prop :=
  ∃ r fl, exec i s = .next (vecIssued sw srcs [.vec v r] fl s) ∧
    (∀ j < 4096 / w, lane w r j = if laneOn s m w j then BitVec.ofNat w (f j).1 else lane w (readV s v) j) ∧
    ∀ b < 6, fl.getLsbD b = (List.range (4096 / w)).any (fun j => laneOn s m w j && (f j).2.getLsbD b)

/-- The same for results that raise no flag. -/
def VecPlain (i : Instr) (s : State) (sw : Bool) (srcs : List (Nat × Src)) (v : BitVec 5) (w : Nat) (m : BitVec 3)
    (f : Nat → BitVec w) : Prop :=
  ∃ r, exec i s = .next (vecIssued sw srcs [.vec v r] 0 s) ∧
    ∀ j < 4096 / w, lane w r j = if laneOn s m w j then f j else lane w (readV s v) j

/-- The run before the instruction is empty, or the one word HX.PRI with a value (03 R60, R62). -/
def PriRun (s : State) (p : Option (BitVec 1)) : Prop := s.ctx.run = (p.map (fun v => encode (.hxPri v))).toList

/-- A destination word whose PRI an HX.PRI word replaces (03 R62). -/
def withPriority (p : Option (BitVec 1)) (w : W64) : W64 :=
  match p with
  | none => w
  | some v => setBits w 60 1 v.toNat

/-- The state after the context in focus has put a message into an outbound entry, on chip or in slots of the overflow region
(05 R103, R118); the mesh takes it behind the stores of its context so far. -/
def postedIn (slots : List Nat) (st : OutSt) (m : Msg) (s : State) : State :=
  { s with
    ctx := { s.ctx with seq := s.ctx.seq + 1 },
    core := { s.core with
      outNum := s.core.outNum + 1,
      out := s.core.out ++ [{ num := s.core.outNum, task := s.ctx.task, ctx := s.ctx.num, inc := s.ctx.inc, msg := m, slots := slots,
                              after := ctxOut s s.core s.ctx, seq := s.ctx.seq % 1024, st := st, sent := 0,
                              left := max (targetsOf s s.ctx.task m.w0).length 1 }] } }

/-- The same with an on-chip entry. -/
def posted (m : Msg) (s : State) : State := postedIn [] .ready m s

/-- The instruction posts a message through the outbound overflow region (05 R103, R118): its context and core are those of
`done` after the entry with these slots, and memory changes only where the image of the message goes. -/
def Overflows (i : Instr) (s : State) (slots : List Nat) (m : Msg) (done : State → State) : Prop :=
  let l := myLaunch s
  ∃ t st, exec i s = .next t ∧ t.ctx = (done (postedIn slots st m s)).ctx ∧ t.core = (done (postedIn slots st m s)).core ∧
    (s.host.watches = [] → ∀ key, memGet t.mem key ≠ memGet s.mem key →
      ∃ p ∈ outImage l s.core.id slots m, ∃ q ∈ pieces p.1 p.2.length, ∃ k v,
        xlate s (regionReq s l (some s.core.id) false true q.1) = .ok k v ∧ k ≤ key ∧ key < k + q.2)

/-- The completion descriptor in `c` is legal and its offsets are aligned (08 R181). -/
def DescOk (s : State) (c : BitVec 4) : Prop :=
  wcLegal (readW s c) = true ∧ wcBoff (readW s c) % 16 = 0 ∧ wcSoff (readW s c) % 8 = 0

/-- The instruction's checks have passed and it posts to an engine (08 R178, 12 R270): a reply needs a window credit, a full
queue parks it, and otherwise the command stands at the end of the queue under the next number of the timeline,
which goes to wd with the status OK. -/
def PostsTo (i : Instr) (s : State) (sw : Bool) (d c : BitVec 4) (eng : Nat) (op : CmdOp) (cr : Nat) (br : Option (Nat × W64)) :
    Prop :=
  let wc := readW s c
  let num := nextNum s.core eng
  let entered := pushCmd s.core.id eng (mkCmd s op wc (readWn s c 1) cr num br) s
  let short := wcReply wc = true ∧ myOwe s + 1 > (myLaunch s).window
  (short → exec i s = .next (issued sw [.gpr d 0, .slast 3] s)) ∧
  (¬ short → 16 ≤ (s.core.queue eng).length → exec i s = .next (wait (.queue eng) s)) ∧
  (¬ short → (s.core.queue eng).length < 16 →
    exec i s = .next (issued sw [.gpr d (w64 num), .slast 0] (if wcReply wc = true then takeCredit 1 entered else entered)))

/-- The state after a ranked-list instruction with marker `sw` that holds the writes `ws`, the flags `fp` for FPFLAGS and the
bits `rl` for RLSTAT (10 R245, 02 R30). -/
def listIssued (sw : Bool) (ws : List RegWrite) (fp : BitVec 6) (rl : BitVec 4) (s : State) : State :=
  issued sw ws { s with ctx := { s.ctx with pendFp := s.ctx.pendFp ||| fp, pendRl := s.ctx.pendRl ||| rl } }

/-- wd names no wait barrier, or the aligned barrier whose DONE the command remembers (11 R256). -/
def NamesBarrier (s : State) (d : BitVec 4) (br : Option (Nat × W64)) : Prop :=
  let off := bits (readW s d) 0 19
  let o := wrapped s (w64 off)
  (off = 0x7FFFF ∧ br = none) ∨ (off ≠ 0x7FFFF ∧ o.toNat % 16 = 0 ∧ br = some (o.toNat, doneAt s o))

/-- A tile descriptor's offset and side offset are aligned (11 R250, R252). -/
def TileAligned (t : W64) : Prop := tdOffset t % 64 = 0 ∧ (tdGather t = true → tdSide t % 4 = 0)

/-- The step is taken and answers a state of which `P` holds. -/
def Happens (i : Instr) (s : State) (P : State → Prop) : Prop := ∃ t, exec i s = .next t ∧ P t

/-- A command of an engine has executed and awaits its completion actions (08 R182). -/
def Executed (s : State) (k eng num : Nat) : Prop := ∃ q ∈ (coreOf s k).queue eng, q.num = num ∧ q.st = .done

/-- Every core but `k` is the same in two states. -/
def OtherCores (s t : State) (k : Nat) : Prop := ∀ j, j ≠ k → coreOf t j = coreOf s j

/-- Memory after cells were written in order, where no host watch is armed. -/
def Wrote (s t : State) (cs : List Host.Cell) : Prop :=
  ∀ a, memGet t.mem a = ((cs.reverse.find? (fun c => c.1 == a)).map (fun c => c.2)).getD (memGet s.mem a)

end Sys2Proof.Machine
end

