-- ==== Sys2Proof/Certificates/Slice0/Obligations.lean ====
section
/-! DEFINITION. The statements for the provers. A statement about a value that the manual leaves open holds for every value. -/
open Sys2Proof Sys2Proof.Machine

/-- 03 R42, R52, R53, R57: decoding the word of any well-formed instruction gives it back with every operand, and a word that
decodes is the word of what it decodes to. -/
def Obligations.DecodeAndEncodeAgree : Prop :=
  (∀ i : Instr, i.wf = true → i.encoded = true → decode (encode i) = .ok i) ∧
  (∀ (w : W32) (i : Instr), decode w = .ok i → i.wf = true ∧ i.encoded = true ∧ encode i = w)

/-- 03 R42, R57, 04 R81 to R89, 05 R116, 07 R161, 09 R199, 11 R263, 15 R367: words written out from the encoding tables decode
to their instructions, and words of major 0, of an unassigned code and with a set reserved bit are refused by name. -/
def Obligations.WordsOfTheTablesDecode : Prop :=
  decode 0x02266000 = .ok (.add false 1 3 3) ∧ decode 0x07040000 = .ok (.addi false 8 2 0) ∧
  decode 0x14000003 = .ok (.call false 3) ∧ decode 0xFA004000 = .ok .tret ∧ decode 0x7A000005 = .ok (.sysc false 5) ∧
  decode 0x7C080040 = .ok (.fltres false 4) ∧ decode 0xDC00000D = .ok (.mmrank true 1 1) ∧
  decode 0x00000000 = .error .reservedMajor ∧ decode 0x1A000000 = .error .reservedMajor ∧
  decode 0x02266001 = .error .reservedField ∧ decode 0x02266010 = .error .reservedField ∧ decode 0x02266380 = .error .unassigned

/-- 03 R43, R44, R57, 04 R94: where the words at the pc of the context that is to issue decode to an instruction, and the words
before it are a lawful run, a step runs exactly that instruction, one clk passing behind it; what could have moved instead goes on
waiting for its turn (assumption 1). -/
def Obligations.StepRunsTheDecodedInstruction : Prop :=
  ∀ (s : State) (k n key : Nat) (i : Instr),
    let f := focus k n s
    let s1 : State := { f with core := { f.core with rr := n }, ctx := { f.ctx with status := .ready } }
    let pc := s1.ctx.pc
    let w := w32 (ofBytes (memRead s1.mem key 4))
    match chosen s with
    | .core j => j = k → nextIssuer (coreOf s k).rr (issuers s k) = some n → s1.ctx.xfail = none →
        vaAccel pc = s1.accel.toNat → dieAbsent s1 (vaDie pc) = false → cachedKey s1 (fetchReq s1 pc) = some key →
        anyPoison s1.poison key 4 = false → alGet? s1.core.icache key = none →
        decodeBytes (memRead s1.mem key 4) = .ok (i, []) →
        (isHx w = true ∨ runOffence (admitsImm i) [] s1.ctx.run = none) →
        step s = match exec i (keepWord s1 pc w) with
          | .next t => .next (noteWaits (.core j) (tickOver t))
          | .fault e => .fault e
          | .refused e => .refused e
    | .agent a => step s = match exec a s with
        | .next t => .next (noteWaits (.agent a) (tickOver t))
        | .fault e => .fault e
        | .refused e => .refused e
    | _ => True

/-- 15 R350, 04 R94: no run of the module ends. Whatever the state, if what waits at its inputs is what the outside world can
bring about, the step answers a next state: no instruction and no agent stops the machine. -/
def Obligations.StepIsSafe : Prop := ∀ s : State, Fed s → Safe s

/-- 07 R149, R150: every step keeps memory and every scratchpad in their canonical form: addresses strictly rising, and no
entry equal to what an unlisted address reads as. -/
def Obligations.StepKeepsMemoryCanonical : Prop := ∀ s t : State, Canonical s → step s = .next t → Canonical t

/-- 04 R79, R93, 05 R123, 10 R228, 11 R249, 15 R347, R358, 00 R4: what reset leaves. Every context of every core is free with its
registers at their Reset column, every queue is empty, no launch runs, every generation is 0, and the memories are
canonical. PC, the register stack and FEAT of a full TN9-X, and that memory and scratchpads list nothing (an unlisted byte reads
0), are the model's choices (assumptions 7, 8 and 9). -/
def Obligations.ResetLeaves : Prop :=
  (∀ k c : Nat, c < 16 → let x := ctxOf State.reset k c
    x.status = .free ∧ x.depth = 0 ∧ x.sb = 0 ∧ x.fpflags = 0 ∧ x.fprnd = 0 ∧ x.rlstat = 0 ∧ x.rtstat = 0 ∧ x.wto = 0 ∧
    x.trap = TrapRegs.reset ∧ x.msg = MsgRegs.reset ∧ (∀ r : Fin 8, x.eregs.get r = 0x3F800000) ∧
    (∀ r : BitVec 4, x.reg r = 0) ∧ x.pc = 0) ∧
  (∀ k : Nat, let c := coreOf State.reset k
    c.regs = CoreRegs.reset ∧ c.spad = [] ∧ c.stores = [] ∧ c.matq = [] ∧ c.copyq = [] ∧ c.netq = [] ∧ c.routeq = [] ∧ c.out = []) ∧
  (∀ d asid : Nat, genOf (retortOf State.reset d) asid = 0) ∧ State.reset.launches = [] ∧ State.reset.mem = [] ∧
  State.reset.feat = 0x8800080F ∧ Canonical State.reset

/-- 04 R77: a RET at depth D with D ≥ 1 and SB = D raises FILL before any effect of its own, with TRAPV 0; a RET at depth 0
raises FILL with TRAPV 1. -/
def Obligations.ReturnRaisesFill : Prop :=
  ∀ (s : State) (sw : Bool),
    (1 ≤ s.ctx.depth → s.ctx.sb = s.ctx.depth → exec (.ret sw) s = .next (raise 0x06 0 s)) ∧
    (s.ctx.depth = 0 → exec (.ret sw) s = .next (raise 0x06 1 s))

/-- 04 R84 to R86: LIM, LIMT and LEA complete on every operand. -/
def Obligations.ConstantsAndAddresses : Prop :=
  ∀ (s : State) (sw : Bool) (d a b : BitVec 4) (imm : BitVec 21) (sh : BitVec 5),
    (∀ hs : List (BitVec 21), ExtendedBy s hs → hs.length ≤ 2 →
      exec (.lim sw d imm) s = .next (issued sw [.gpr d (wide hs imm)] s)) ∧
    exec (.limt sw d imm) s = .next (issued sw [.gpr d (imm ++ (readW s d).extractLsb' 0 43)] s) ∧
    exec (.lea sw d a b sh) s = .next (issued sw [.gpr d (readW s a + readW s b <<< sh.toNat)] s)

/-- 04 R82: the twenty-three two-operand forms of major 0x01 complete on every operand and hold exactly the result for
the close of the group; nothing else changes. Division by zero gives all ones and the dividend. -/
def Obligations.RegisterAluResults : Prop :=
  ∀ (s : State) (sw : Bool) (d a b : BitVec 4),
    let A := readW s a
    let B := readW s b
    let n := B.toNat % 64
    let gives (i : Instr) (v : W64) : Prop := exec i s = .next (issued sw [.gpr d v] s)
    gives (.add sw d a b) (A + B) ∧ gives (.sub sw d a b) (A - B) ∧
    gives (.and sw d a b) (A &&& B) ∧ gives (.or sw d a b) (A ||| B) ∧ gives (.xor sw d a b) (A ^^^ B) ∧
    gives (.andn sw d a b) (A &&& ~~~B) ∧
    gives (.shl sw d a b) (A <<< n) ∧ gives (.shr sw d a b) (A >>> n) ∧ gives (.sar sw d a b) (A.sshiftRight n) ∧
    gives (.min sw d a b) (if B.slt A then B else A) ∧ gives (.max sw d a b) (if A.slt B then B else A) ∧
    gives (.minu sw d a b) (if B.ult A then B else A) ∧ gives (.maxu sw d a b) (if A.ult B then B else A) ∧
    gives (.mul sw d a b) (A * B) ∧
    gives (.mulh sw d a b) ((A.signExtend 128 * B.signExtend 128).extractLsb' 64 64) ∧
    gives (.mulhu sw d a b) ((A.zeroExtend 128 * B.zeroExtend 128).extractLsb' 64 64) ∧
    gives (.div sw d a b) (if B = 0 then BitVec.allOnes 64 else A.sdiv B) ∧
    gives (.divu sw d a b) (if B = 0 then BitVec.allOnes 64 else A / B) ∧
    gives (.rem sw d a b) (if B = 0 then A else A.srem B) ∧
    gives (.remu sw d a b) (if B = 0 then A else A % B) ∧
    gives (.slt sw d a b) (if A.slt B then 1 else 0) ∧ gives (.sltu sw d a b) (if A.ult B then 1 else 0) ∧
    gives (.seq sw d a b) (if A = B then 1 else 0)

/-- 04 R81, R82: the .W forms of major 0x02 act on the low halves and hold the 32-bit result, sign-extended. -/
def Obligations.WordAluResults : Prop :=
  ∀ (s : State) (sw : Bool) (d a b : BitVec 4),
    let A := low32 s a
    let B := low32 s b
    let n := B.toNat % 32
    let gives (i : Instr) (v : BitVec 32) : Prop := exec i s = .next (issued sw [.gpr d (v.signExtend 64)] s)
    gives (.addW sw d a b) (A + B) ∧ gives (.subW sw d a b) (A - B) ∧
    gives (.andW sw d a b) (A &&& B) ∧ gives (.orW sw d a b) (A ||| B) ∧ gives (.xorW sw d a b) (A ^^^ B) ∧
    gives (.andnW sw d a b) (A &&& ~~~B) ∧
    gives (.shlW sw d a b) (A <<< n) ∧ gives (.shrW sw d a b) (A >>> n) ∧ gives (.sarW sw d a b) (A.sshiftRight n) ∧
    gives (.minW sw d a b) (if B.slt A then B else A) ∧ gives (.maxW sw d a b) (if A.slt B then B else A) ∧
    gives (.minuW sw d a b) (if B.ult A then B else A) ∧ gives (.maxuW sw d a b) (if A.ult B then B else A) ∧
    gives (.mulW sw d a b) (A * B) ∧
    gives (.mulhW sw d a b) ((A.signExtend 64 * B.signExtend 64).extractLsb' 32 32) ∧
    gives (.mulhuW sw d a b) ((A.zeroExtend 64 * B.zeroExtend 64).extractLsb' 32 32) ∧
    gives (.divW sw d a b) (if B = 0 then BitVec.allOnes 32 else A.sdiv B) ∧
    gives (.divuW sw d a b) (if B = 0 then BitVec.allOnes 32 else A / B) ∧
    gives (.remW sw d a b) (if B = 0 then A else A.srem B) ∧
    gives (.remuW sw d a b) (if B = 0 then A else A % B) ∧
    gives (.sltW sw d a b) (if A.slt B then 1 else 0) ∧ gives (.sltuW sw d a b) (if A.ult B then 1 else 0) ∧
    gives (.seqW sw d a b) (if A = B then 1 else 0)

/-- 04 R81, R82: CLZ, CTZ, POPC and SEL, with their .W forms, complete on every operand with the counts (64 or 32 for a
zero operand of CLZ and CTZ) and the operand chosen by wc. 04 R87: BFX, BFX.S and BFI on the field of `l + 1` bits at `p`; a field that leaves the register raises ILLEGAL, and so does an
HX.IMM that sets a bit above bit 12 of the extended field. -/
def Obligations.CountsSelectsAndBitFields : Prop :=
  (
   ∀ (s : State) (sw : Bool) (d a b c : BitVec 4),
     let A := readW s a
     let L := low32 s a
     let gives (i : Instr) (v : W64) : Prop := exec i s = .next (issued sw [.gpr d v] s)
     gives (.clz sw d a) A.clz ∧ gives (.ctz sw d a) A.reverse.clz ∧ gives (.popc sw d a) A.cpop ∧
     gives (.clzW sw d a) (L.clz.zeroExtend 64) ∧ gives (.ctzW sw d a) (L.reverse.clz.zeroExtend 64) ∧
     gives (.popcW sw d a) (L.cpop.zeroExtend 64) ∧
     gives (.sel sw d a b c) (if readW s c = 0 then readW s b else A) ∧
     gives (.selW sw d a b c) ((if low32 s c = 0 then low32 s b else L).signExtend 64)) ∧
  (
   ∀ (s : State) (sw : Bool) (d a : BitVec 4) (l p : BitVec 6) (hs : List (BitVec 21)), ExtendedBy s hs → hs.length ≤ 2 →
     let A := readW s a
     let len := l.toNat + 1
     let ones : W64 := BitVec.allOnes 64 >>> (64 - len)
     let gives (i : Instr) (v : W64) : Prop :=
       if (∀ h ∈ hs, h = 0) ∧ p.toNat + len ≤ 64 then exec i s = .next (issued sw [.gpr d v] s) else Traps i s 0x01 (wordOf i)
     gives (.bfx sw d a l p) (A >>> p.toNat &&& ones) ∧
     gives (.bfxS sw d a l p) ((A <<< (64 - p.toNat - len)).sshiftRight (64 - len)) ∧
     gives (.bfi sw d a l p) ((readW s d &&& ~~~(ones <<< p.toNat)) ||| ((A &&& ones) <<< p.toNat)))

/-- 04 R83, 03 R61: the immediate forms complete with B the 13-bit field extended by the HX.IMM words before it. 04 R83: a shift by an immediate of 0 to 63 completes; any other amount after extension raises ILLEGAL with the
instruction word. -/
def Obligations.ImmediateFormResults : Prop :=
  (
   ∀ (s : State) (sw : Bool) (d a : BitVec 4) (imm : BitVec 13) (hs : List (BitVec 21)),
     ExtendedBy s hs → hs.length ≤ 2 →
     let A := readW s a
     let B := wide hs imm
     let gives (i : Instr) (v : W64) : Prop := exec i s = .next (issued sw [.gpr d v] s)
     gives (.addi sw d a imm) (A + B) ∧ gives (.andi sw d a imm) (A &&& B) ∧ gives (.ori sw d a imm) (A ||| B) ∧
     gives (.xori sw d a imm) (A ^^^ B) ∧ gives (.muli sw d a imm) (A * B) ∧
     gives (.slti sw d a imm) (if A.slt B then 1 else 0) ∧ gives (.sltui sw d a imm) (if A.ult B then 1 else 0) ∧
     gives (.seqi sw d a imm) (if A = B then 1 else 0)) ∧
  (
   ∀ (s : State) (sw : Bool) (d a : BitVec 4) (imm : BitVec 13) (hs : List (BitVec 21)),
     ExtendedBy s hs → hs.length ≤ 2 →
     let A := readW s a
     let n := (wide hs imm).toNat
     let gives (i : Instr) (v : W64) : Prop :=
       if n < 64 then exec i s = .next (issued sw [.gpr d v] s) else Traps i s 0x01 (wordOf i)
     gives (.shli sw d a imm) (A <<< n) ∧ gives (.shri sw d a imm) (A >>> n) ∧ gives (.sari sw d a imm) (A.sshiftRight n))

/-- 04 R88, 03 R43, R45: a conditional branch closes its group either way. It goes to its own address plus four times
the extended offset when the condition holds, and behind itself otherwise. -/
def Obligations.ConditionalBranches : Prop :=
  ∀ (s : State) (sw : Bool) (a b : BitVec 4) (o : BitVec 14) (hs : List (BitVec 21)),
    ExtendedBy s hs → hs.length ≤ 2 →
    let A := readW s a
    let B := readW s b
    let target := s.ctx.pc + 4 * wide hs o
    vaAccel target = s.accel.toNat → s.ctx.pc.toNat % 4 = 0 →
    let goes (i : Instr) (taken : Prop) : Prop :=
      (taken → exec i s = .next (closes (.go target) s)) ∧
      (¬ taken → exec i s = .next (closes (.go (s.ctx.pc + 4)) s))
    goes (.beq sw a b o) (A = B) ∧ goes (.bne sw a b o) (A ≠ B) ∧
    goes (.blt sw a b o) (A.slt B) ∧ goes (.bge sw a b o) (B.sle A) ∧
    goes (.bltu sw a b o) (A.ult B) ∧ goes (.bgeu sw a b o) (B.ule A) ∧
    goes (.beqz sw a o) (A = 0) ∧ goes (.bnez sw a o) (A ≠ 0)

/-- 04 R74 to R77, R89, R90, 03 R43: the transfers that are always taken, END and NOP. A call needs a resident block
for its callee and a RET one for its caller; without it SPILL or FILL comes before any effect. -/
def Obligations.CallsAndReturns : Prop :=
  ∀ (s : State) (sw : Bool) (a : BitVec 4) (o : BitVec 25) (hs : List (BitVec 21)),
    ExtendedBy s hs → hs.length ≤ 2 →
    let target := s.ctx.pc + 4 * wide hs o
    let room := s.ctx.depth + 3 ≤ 8 + s.ctx.sb
    let fine (t : W64) : Prop := vaAccel t = s.accel.toNat ∧ t.toNat % 4 = 0
    let spill (i : Instr) : Prop := Traps i s 0x05 (if s.ctx.sb = 16 then 1 else 0)
    (fine target → exec (.jump sw o) s = .next (closes (.go target) s)) ∧
    (fine target → room → exec (.call sw o) s = .next (closes (.call target (s.ctx.pc + 4)) s)) ∧
    (fine (readW s a) → exec (.jr sw a) s = .next (closes (.go (readW s a)) s)) ∧
    (fine (readW s a) → room → exec (.callr sw a) s = .next (closes (.call (readW s a) (s.ctx.pc + 4)) s)) ∧
    (¬ room → spill (.call sw o) ∧ spill (.callr sw a)) ∧
    (s.ctx.depth = 0 → Traps (.ret sw) s 0x06 1) ∧
    (s.ctx.depth ≠ 0 → s.ctx.sb = s.ctx.depth → Traps (.ret sw) s 0x06 0) ∧
    (s.ctx.depth ≠ 0 → s.ctx.sb ≠ s.ctx.depth → fine (readW s 15) →
      exec (.ret sw) s = .next (closes (.ret (readW s 15)) s)) ∧
    exec (.nop sw) s = .next (issued sw [] s) ∧ exec (.endAct sw) s = .next (closes .retire s)

/-- 04 R91, R92, 15 R346: MFS holds the value that the special register reads for wd and MTS holds the write for the
close, PRIV aside: at user level the registers of system level alone raise PRIV with the instruction word. 02 R15, 04 R79, R93, 05 R123, 07 R169, 15 R352, 10 R245, 11 R261, R267, 12 R290, R291, 13 R314, 14 R337, 15 R347, R364: what MFS
holds of each register, field by field. A field that is narrower than the number it shows shows it where it fits. -/
def Obligations.SpecialRegisterMoves : Prop :=
  (
   ∀ (s : State) (sw : Bool) (d : BitVec 4) (r : BitVec 8),
     let blocked := srSystemOnly r.toNat = true ∧ s.ctx.trap.level = false
     (¬ blocked → exec (.mfs sw d r) s = .next (issued sw [.gpr d (srRead s r.toNat)] s)) ∧
     (¬ blocked → r ≠ 0xAD → exec (.mts sw d r) s = .next (issued sw [.sreg r.toNat (readW s d)] s)) ∧
     (s.ctx.trap.level = true → exec (.mts sw d 0xAD) s = .next (issued sw [.stk s.ctx.trap.stkix (readW s d)] s)) ∧
     (blocked → Traps (.mfs sw d r) s 0x02 (wordOf (.mfs sw d r)) ∧ Traps (.mts sw d r) s 0x02 (wordOf (.mts sw d r)))) ∧
  (
   ∀ (s : State) (sw : Bool) (d : BitVec 4),
     let c := s.ctx
     let g := s.core.regs
     let k := s.core.id
     let reads (r : BitVec 8) (v : W64) : Prop := exec (.mfs sw d r) s = .next (issued sw [.gpr d v] s)
     let chip := s.core.out.countP (fun e => e.slots.isEmpty)
     let slots := (s.core.out.map (fun e => e.slots.length)).sum + s.core.reserve.length
     (k < 2048 → reads 0x00 ((0 : BitVec 24) ++ s.site ++ s.accel ++ BitVec.ofNat 3 (coreDie k) ++ BitVec.ofNat 5 (coreY k) ++
       BitVec.ofNat 6 (coreX k))) ∧
     reads 0x01 ((0 : BitVec 54) ++ c.inc ++ c.num) ∧
     (c.rank < 2048 → reads 0x02 ((0 : BitVec 37) ++ BitVec.ofNat 11 c.rank ++ (0 : BitVec 2) ++ c.cls ++ c.task)) ∧
     (reads 0x03 c.msg.hdr0 ∧ reads 0x04 c.msg.hdr2 ∧ reads 0x05 c.msg.hdr3 ∧ reads 0x06 c.msg.hbuf ∧ reads 0x07 c.msg.hstat ∧
       reads 0x0A c.msg.sstat ∧ reads 0x0D c.msg.rstat ∧ reads 0x0E c.msg.rhdr2 ∧ reads 0x0F c.msg.rhdr3 ∧
       reads 0x10 c.msg.rfall) ∧
     (lowCount s.core true < 2 ^ 16 → lowCount s.core false < 2 ^ 32 →
       reads 0x08 ((0 : BitVec 16) ++ BitVec.ofNat 32 (lowCount s.core false) ++ BitVec.ofNat 16 (lowCount s.core true))) ∧
     (highCount s.core true < 2 ^ 6 → highCount s.core false < 2 ^ 32 →
       reads 0x09 ((0 : BitVec 16) ++ BitVec.ofNat 32 (highCount s.core false) ++ (0 : BitVec 10) ++
         BitVec.ofNat 6 (highCount s.core true))) ∧
     (chip < 2 ^ 6 → slots < 2 ^ 32 → myOwe s < 2 ^ 8 →
       reads 0x0B ((0 : BitVec 16) ++ BitVec.ofNat 8 (myOwe s) ++ BitVec.ofNat 32 slots ++ (0 : BitVec 2) ++ BitVec.ofNat 6 chip)) ∧
     reads 0x0C ((0 : BitVec 32) ++ g.stalecnt) ∧
     (c.depth < 32 → reads 0x20 ((0 : BitVec 56) ++ BitVec.ofNat 8 (8 * c.depth))) ∧
     (c.depth < 32 → c.sb < 32 →
       reads 0x21 ((0 : BitVec 51) ++ BitVec.ofNat 5 c.sb ++ (0 : BitVec 3) ++ BitVec.ofNat 5 c.depth)) ∧
     (∀ n : Nat, (∀ d f, c.status ≠ .parked d f) → (s.clk : Int) = c.start + n → reads 0x22 (BitVec.ofNat 64 n)) ∧
     (c.limit < 32 → reads 0x23 ((0 : BitVec 59) ++ BitVec.ofNat 5 c.limit)) ∧
     (reads 0x30 c.wto ∧ reads 0x31 g.spalo ∧ reads 0x32 g.spahi ∧ reads 0x33 g.spblo ∧ reads 0x34 g.spbhi) ∧
     (reads 0x40 ((0 : BitVec 58) ++ c.fpflags) ∧ reads 0x41 ((0 : BitVec 61) ++ c.fprnd) ∧ reads 0x50 c.rlstat) ∧
     (∀ r, resOf s.core c.task = some r →
       reads 0x60 r.geomA ∧ reads 0x61 r.geomB ∧ reads 0x62 ((0 : BitVec 60) ++ r.mwt) ∧
       (s.core.matq.length < 2 ^ 5 → ∀ w : Bool,
         (w = true ↔ ∃ q, s.core.matq.find? (fun q => q.st != .done) = some q ∧ barrierOver s.core q = false) →
         reads 0x64 ((0 : BitVec 23) ++ BitVec.ofBool w ++ (0 : BitVec 3) ++ BitVec.ofNat 5 s.core.matq.length ++ r.skips)) ∧
       (r.stage < 2 ^ 16 → r.posted < 2 ^ 17 →
         reads 0x70 ((0 : BitVec 15) ++ BitVec.ofNat 17 r.posted ++ (0 : BitVec 16) ++ BitVec.ofNat 16 r.stage))) ∧
     reads 0x63 g.merr ∧
     (s.core.batches.length < 2 ^ 7 →
       reads 0x71 ((0 : BitVec 25) ++ BitVec.ofNat 7 s.core.batches.length ++ BitVec.ofNat 32 s.core.sealed)) ∧
     (s.core.netq.length < 2 ^ 5 → (upPorts s).length < 2 ^ 7 →
       reads 0x80 ((0 : BitVec 34) ++ g.lastst ++ (0 : BitVec 4) ++ s.feat.extractLsb' 28 4 ++ (0 : BitVec 1) ++
         BitVec.ofNat 7 (upPorts s).length ++ (0 : BitVec 3) ++ BitVec.ofNat 5 s.core.netq.length)) ∧
     (reads 0x90 c.rtstat ∧ reads 0xA4 ((0 : BitVec 48) ++ c.trap.asid) ∧ reads 0xA7 s.feat ∧
       reads 0xA5 ((0 : BitVec 61) ++ BitVec.ofBool c.trap.prev ++ BitVec.ofBool c.trap.intrap ++ BitVec.ofBool c.trap.level)) ∧
     (c.trap.level = true →
       (reads 0xA0 c.trap.trapc ∧ reads 0xA1 c.trap.trappc ∧ reads 0xA2 c.trap.trapv ∧ reads 0xA3 g.tvec ∧ reads 0xAE g.parkb) ∧
       (∀ j : Fin 4, reads (0xA8 + BitVec.ofNat 8 j.val) (c.trap.tsave.get j)) ∧
       reads 0xAC ((0 : BitVec 58) ++ c.trap.stkix) ∧
       reads 0xAD (c.stack.get ⟨c.trap.stkix.toNat, c.trap.stkix.isLt⟩) ∧
       (inflight s < 2 ^ 16 → reads 0xA6 ((0 : BitVec 16) ++ BitVec.ofNat 16 (inflight s) ++ (0 : BitVec 4) ++ g.dtask ++ (0 : BitVec 12) ++
         BitVec.ofBool g.drained ++ BitVec.ofBool g.drain ++ BitVec.ofBool (haltedBit s) ++ BitVec.ofBool g.halt))))

/-- 03 R60 to R63: an HX word completes by joining the run of the instruction behind it and changes nothing else. -/
def Obligations.PrefixWordsJoinTheRun : Prop :=
  ∀ (s : State) (v : BitVec 21) (m k : BitVec 3) (p : BitVec 1),
    let joins (i : Instr) : Prop :=
      exec i s = .next { s with ctx := { s.ctx with pc := s.ctx.pc + 4, run := s.ctx.run ++ [encode i] } }
    joins (.hxImm v) ∧ joins (.hxRnd m) ∧ joins (.hxReuse k) ∧ joins .hxNt ∧ joins (.hxPri p)

/-- 03 R45, R46, R49: the close of a group delivers its register writes in program order, the last one to a register
standing, and nothing else changes: no other register, no flag beyond those of the group, no byte of memory. 03 R46, 09 R197, 10 R228, 11 R249, 04 R91: the other register banks are written at the close as well. 03 R46, 04 R79, R91, R92, 02 R29, R30, 10 R245, 11 R260, 15 R347, R364: the special registers that MTS held are written at
the close, each field with its access: W1C bits clear, Z and RO fields stay, a register that is RO at user level stays there, a
refused WDEPTH or FPRND stays. STKDAT writes the entry that STKIX named before the group. 05 R112, R119, R121: the close of END's group retires the activation: its context is free with nothing declared, no message
is held for it, its slots return, and a reply still owed is answered by NACK NOREPLY. The close of a migration posts the
message and retires the activation, or writes the status of the first check that fails and goes on behind the instruction. The
model's choices (assumptions 72, 73): a fallback that does not fit leaves BADARG, a destination on another site BADDEST, where 05
R117 and R121 name neither for a migration. -/
def Obligations.GroupCloseDelivers : Prop :=
  (
   ∀ (s : State) (k c : Nat) (ws : List (BitVec 4 × W64)),
     Focused s k c → s.ctx.status = .closing .next → s.ctx.pend = ws.map (fun w => .gpr w.1 w.2) →
     Closable s →
     ∃ t, exec (.groupClose k c) s = .next t ∧
       (∀ r, t.ctx.reg r = ((ws.reverse.find? (fun w => w.1 == r)).map (fun w => w.2)).getD (s.ctx.reg r)) ∧
       (∀ i : Fin 64, (∀ r : BitVec 4, winIx s.ctx.depth r.toNat ≠ i) → t.ctx.stack.get i = s.ctx.stack.get i) ∧
       t.ctx.pc = s.ctx.pc ∧ t.ctx.status = .ready ∧ t.ctx.pend = [] ∧ t.ctx.depth = s.ctx.depth ∧
       t.ctx.fpflags = s.ctx.fpflags ||| s.ctx.pendFp ∧ t.ctx.trap = s.ctx.trap ∧ SameBanks s.ctx t.ctx ∧ t.rest = s.rest) ∧
  (
   ∀ (s : State) (k c : Nat), Focused s k c → s.ctx.status = .closing .next → Closable s →
     (∀ (r : BitVec 5) (v : VReg), s.ctx.pend = [.vec r v] → ∃ t, exec (.groupClose k c) s = .next t ∧
       readV t r = v ∧ (∀ q, q ≠ r → readV t q = readV s q) ∧ t.ctx.stack = s.ctx.stack ∧ t.mem = s.mem) ∧
     (∀ (r : BitVec 3) (v : MaskReg), r ≠ 0 → s.ctx.pend = [.mask r v] → ∃ t, exec (.groupClose k c) s = .next t ∧
       readM t r = v ∧ (∀ q, q ≠ r → readM t q = readM s q) ∧ t.ctx.stack = s.ctx.stack ∧ t.rest = s.rest) ∧
     (∀ (r : BitVec 2) (v : RList), s.ctx.pend = [.rlist r v] → ∃ t, exec (.groupClose k c) s = .next t ∧
       readL t r = v ∧ (∀ q, q ≠ r → readL t q = readL s q) ∧ t.ctx.stack = s.ctx.stack ∧ t.rest = s.rest) ∧
     (∀ (r : BitVec 3) (v : W32), s.ctx.pend = [.ereg r v] → ∃ t, exec (.groupClose k c) s = .next t ∧
       readE t r = v ∧ (∀ q, q ≠ r → readE t q = readE s q) ∧ t.ctx.stack = s.ctx.stack ∧ t.rest = s.rest)) ∧
  (
   ∀ (s : State) (k c n : Nat) (v : W64) (i : BitVec 6), Focused s k c → s.ctx.status = .closing .next → Closable s →
     let x := s.ctx
     let g := s.core.regs
     let opened (y : Ctx) : Ctx := { y with
       pend := [], pendFp := 0, pendRl := 0, fpflags := y.fpflags ||| x.pendFp, rlstat := y.rlstat ||| x.pendRl.setWidth 64,
       status := .ready }
     let holds (t : State) : Prop := s.ctx.pend = [.sreg n v] → exec (.groupClose k c) s = .next t
     let ctx (m : Nat) (y : Ctx) : Prop := n = m → holds { s with ctx := opened y }
     let msg (m : Nat) (y : MsgRegs) : Prop := ctx m { x with msg := y }
     let trap (m : Nat) (y : TrapRegs) : Prop := ctx m { x with trap := y }
     let regs (m : Nat) (y : CoreRegs) : Prop := n = m → holds { s with ctx := opened x, core := { s.core with regs := y } }
     let share (m : Nat) (f : Resident → Resident) : Prop := n = m → holds { updRes x.task f s with ctx := opened x }
     let sys (p : Prop) : Prop := x.trap.level = true → p
     let merr := g.merr &&& ~~~(v &&& 7)
     let spa : W64 := v &&& 0x003FFFFFFFFFFC00
     let d := (v.extractLsb' 0 5).toNat
     let b := (v.extractLsb' 8 5).toNat
     let depthOk := b ≤ d ∧ d ≤ 22 ∧ b ≤ 16
     let user : List Nat := [0x0C, 0x21, 0x31, 0x32, 0x33, 0x34, 0x60, 0x61, 0xA4, 0xA5]
     let all : List Nat := [0x0A, 0x10, 0x30, 0x40, 0x41, 0x50, 0x62, 0x63, 0x64, 0x90, 0xA0, 0xA1, 0xA2, 0xA3, 0xA6, 0xA8, 0xA9,
       0xAA, 0xAB, 0xAC, 0xAE]
     (msg 0x0A { x.msg with sstat := x.msg.sstat &&& ~~~(v &&& 0x3F0) } ∧ msg 0x10 { x.msg with rfall := v } ∧
      ctx 0x30 { x with wto := v &&& 0xFFFFFFFF } ∧ ctx 0x40 { x with fpflags := v.setWidth 6 } ∧
      ctx 0x41 (if (v.extractLsb' 0 3).toNat ≤ 4 then { x with fprnd := v.setWidth 3 } else x) ∧
      ctx 0x50 { x with rlstat := (x.rlstat &&& ~~~0xF) ||| (v &&& 0xF) } ∧
      ctx 0x90 { x with rtstat := x.rtstat &&& ~~~(v &&& 0x3F0) }) ∧
     (share 0x62 (fun r => { r with mwt := v.setWidth 4 }) ∧ share 0x64 (fun r => { r with skips := v.setWidth 32 }) ∧
      regs 0x63 { g with merr := if merr.extractLsb' 0 2 = 0 then merr &&& 0xFFFFFFFF else merr }) ∧
     (trap 0xA0 { x.trap with trapc := v &&& 0xFF } ∧ trap 0xA1 { x.trap with trappc := v } ∧
      trap 0xA2 { x.trap with trapv := v } ∧ regs 0xA3 { g with tvec := v &&& ~~~3 } ∧
      regs 0xA6 { g with halt := v.getLsbD 0, drain := v.getLsbD 2,
                         drained := g.drained && v.getLsbD 2 && g.dtask == v.extractLsb' 16 12, dtask := v.extractLsb' 16 12 } ∧
      (∀ j : Fin 4, trap (0xA8 + j.val) { x.trap with tsave := x.trap.tsave.set j.val v }) ∧
      trap 0xAC { x.trap with stkix := v.setWidth 6 } ∧ regs 0xAE { g with parkb := v &&& 0x0007FFFFFFFFFC00 }) ∧
     sys (regs 0x0C { g with stalecnt := v.setWidth 32 } ∧ (depthOk → ctx 0x21 { x with depth := d, sb := b }) ∧
       (¬ depthOk → ctx 0x21 x) ∧ regs 0x31 { g with spalo := spa } ∧ regs 0x32 { g with spahi := spa } ∧
       regs 0x33 { g with spblo := spa } ∧ regs 0x34 { g with spbhi := spa } ∧ share 0x60 (fun r => { r with geomA := v }) ∧
       share 0x61 (fun r => { r with geomB := v &&& 0xFFFFFFFF }) ∧ trap 0xA4 { x.trap with asid := v.setWidth 16 } ∧
       trap 0xA5 { x.trap with level := v.getLsbD 0, intrap := v.getLsbD 1, prev := v.getLsbD 2 }) ∧
     (x.trap.level = false → n ∈ user → holds { s with ctx := opened x }) ∧
     (n ∉ user → n ∉ all → holds { s with ctx := opened x }) ∧
     (s.ctx.pend = [.stk i v] → ∃ t, exec (.groupClose k c) s = .next t ∧
       t.ctx = opened { x with stack := x.stack.set i.toNat v i.isLt } ∧ t.rest = s.rest)) ∧
  (
   ∀ (s : State) (k c : Nat) (m : Bool) (r : BitVec 4) (pri : Option Bool) (w0 : W64),
     Focused s k c → s.ctx.pend = [] → Closable s →
     let x := s.ctx
     let y := deliver s
     let mine (q : BitVec 4) (i : BitVec 6) : Prop := q = x.num ∧ i = x.inc
     let freed (t : State) : Prop := t.ctx.status = .free ∧ t.ctx.nv = 0 ∧ t.ctx.nl = 0 ∧ t.ctx.na = 0 ∧ t.ctx.slots = [] ∧
       t.ctx.num = x.num ∧ t.ctx.inc = x.inc ∧ (∀ h ∈ t.core.held, ¬ mine h.ctx h.inc) ∧
       (∀ p ∈ t.core.pulls, ¬ mine p.ctx p.inc) ∧ (∀ w ∈ t.core.watches, w.ctx ≠ x.num) ∧
       ∀ n ∈ x.slots, ∀ j : Fin 4, j.val = n % 4 → (t.core.slots.get j).held = false
     let fails (code : Nat) : Prop := exec (.groupClose k c) s = .next { y with ctx := { y.ctx with
       msg := { y.ctx.msg with sstat := sstatAfter y.ctx.msg.sstat code }, status := .ready, pc := x.pc + 4 } }
     let fall := x.entry - (x.pc + 4)
     let fits := (fall.setWidth 32).signExtend 64 = fall
     let dest := migrDest m r pri y
     let cr := toBit (mPri w0)
     (x.status = .closing .retire → Happens (.groupClose k c) s freed) ∧
     (x.status = .closing .retire → x.trap.intrap = false → x.msg.hstat.getLsbD 2 = true → x.msg.hstat.getLsbD 3 = false →
       hAcc x.msg.hdr2 = s.accel.toNat → bits x.msg.hstat 16 16 = 0 → Happens (.groupClose k c) s (fun t =>
         ∃ a ∈ t.ctls, a.kind = .nack ∧ a.reason = 4 ∧ a.req = true ∧ a.core = hCore x.msg.hdr2 ∧
           a.ctx.toNat = hCtx x.msg.hdr2 ∧ a.inc.toNat = hInc x.msg.hdr2)) ∧
     (x.status = .closing (.migr m r pri) →
       (dest = none → fails 2) ∧
       (dest = some w0 → ¬ fits → fails 5) ∧
       (dest = some w0 → fits → myOwe s + cr > (myLaunch s).window → fails 3) ∧
       (dest = some w0 → fits → myOwe s + cr ≤ (myLaunch s).window → outRoom s s.core x.task (mPri w0) 0 = none → fails 1) ∧
       (dest = some w0 → fits → myOwe s + cr ≤ (myLaunch s).window → outChipFree s.core (mPri w0) = true →
         (∀ h ∈ s.core.held, ¬ mine h.ctx h.inc) → (∀ p ∈ s.core.pulls, ¬ mine p.ctx p.inc) →
         Happens (.groupClose k c) s (fun t => freed t ∧ ∃ e ∈ t.core.out, e.msg = migrMsg w0 (fall.setWidth 32).toNat y))))

/-- 04 R72, R74, R75: the close of a call shifts the window by eight registers, puts the return PC into w15 of the callee
and goes to the target; the close of a return shifts it back. -/
def Obligations.WindowShiftsAtTheClose : Prop :=
  ∀ (s : State) (k c : Nat) (pc back : W64), Focused s k c → s.ctx.pend = [] →
    Closable s →
    (s.ctx.status = .closing (.call pc back) → ∃ t, exec (.groupClose k c) s = .next t ∧
      t.ctx.pc = pc ∧ t.ctx.status = .ready ∧ t.ctx.depth = s.ctx.depth + 1 ∧ t.ctx.reg 15 = back ∧
      (∀ j : Nat, j < 8 → t.ctx.reg (BitVec.ofNat 4 j) = s.ctx.reg (BitVec.ofNat 4 (j + 8))) ∧
      SameBanks s.ctx t.ctx ∧ t.rest = s.rest) ∧
    (s.ctx.status = .closing (.ret pc) → s.ctx.depth ≠ 0 → ∃ t, exec (.groupClose k c) s = .next t ∧
      t.ctx.pc = pc ∧ t.ctx.status = .ready ∧ t.ctx.depth + 1 = s.ctx.depth ∧ t.ctx.stack = s.ctx.stack ∧
      (∀ j : Nat, j < 8 → t.ctx.reg (BitVec.ofNat 4 (j + 8)) = s.ctx.reg (BitVec.ofNat 4 j)) ∧
      SameBanks s.ctx t.ctx ∧ t.rest = s.rest) ∧
    (s.ctx.status = .closing (.go pc) → ∃ t, exec (.groupClose k c) s = .next t ∧
      t.ctx.pc = pc ∧ t.ctx.status = .ready ∧ t.ctx.stack = s.ctx.stack ∧ t.ctx.depth = s.ctx.depth ∧
      SameBanks s.ctx t.ctx ∧ t.rest = s.rest)

/-- 15 R348, R368: SYSC and BRK take their traps, with the immediate in TRAPV; so does an ILLEGAL word, with the word. 15 R348, R350, 05 R112: a trap inside a trap handler, or with no vector set, kills the activation: its context is
free, whatever trap it is. -/
def Obligations.TrapsAreEntered : Prop :=
  (
   ∀ (s : State) (sw : Bool) (imm : BitVec 13) (w : W32),
     s.ctx.trap.intrap = false → s.core.regs.tvec ≠ 0 → s.ctx.pend = [] →
     let enters (i : Instr) (cause : Nat) (v : W64) : Prop := ∃ t, exec i s = .next t ∧ TrapEntered s t cause v
     enters (.sysc sw imm) 0x0B (imm.zeroExtend 64) ∧ enters (.brk sw imm) 0x0A (imm.zeroExtend 64) ∧
     enters (.illegalWord w false) 0x01 (w.zeroExtend 64)) ∧
  (
   ∀ (s : State) (cause : Nat) (value : W64), s.ctx.trap.intrap = true ∨ s.core.regs.tvec = 0 → s.ctx.pend = [] →
     (raise cause value s).ctx.status = .free)

/-- 15 R369: TRET closes its group, and the close returns: the PC from TRAPPC, LEVEL from PREV, INTRAP clear, and w12 to
w15 exchanged with TSAVE0 to TSAVE3 again. At user level it raises PRIV, outside a trap ILLEGAL. -/
def Obligations.TrapReturn : Prop :=
  ∀ (s : State) (k c : Nat), Focused s k c →
    (s.ctx.trap.level = false → Traps .tret s 0x02 (wordOf .tret)) ∧
    (s.ctx.trap.level = true → s.ctx.trap.intrap = false → Traps .tret s 0x01 (wordOf .tret)) ∧
    (s.ctx.trap.level = true → s.ctx.trap.intrap = true → s.ctx.trap.trappc.toNat % 4 = 0 →
      exec .tret s = .next (closes (.tret s.ctx.trap.trappc) s)) ∧
    (∀ pc, s.ctx.status = .closing (.tret pc) → s.ctx.pend = [] → Closable s →
      ∃ t, exec (.groupClose k c) s = .next t ∧ t.ctx.pc = pc ∧ t.ctx.status = .ready ∧
        t.ctx.trap.level = s.ctx.trap.prev ∧ t.ctx.trap.intrap = false ∧
        (∀ j : Fin 4, t.ctx.reg (savedReg j) = s.ctx.trap.tsave.get j ∧ t.ctx.trap.tsave.get j = s.ctx.reg (savedReg j)) ∧
        (∀ r : BitVec 4, r.toNat < 12 → t.ctx.reg r = s.ctx.reg r) ∧ SameBanks s.ctx t.ctx ∧ t.rest = s.rest)

/-- 03 R59, 15 R346: at user level each privileged instruction raises PRIV with its word before any effect. 03 R43, 07 R159, R166, R170: a misaligned operand raises MISALIGN with the address or the wrapped offset, whatever
else the operand does. 04 R90, 03 R43, R59: a target whose bits [1:0] are not zero raises MISALIGN at the transferring instruction, and one
on another module REMOTE; the window has not moved. -/
def Obligations.TrapConditions : Prop :=
  (
   ∀ (s : State) (sw : Bool) (d a : BitVec 4), s.ctx.trap.level = false →
     let v := readW s a
     Traps (.tlbprobe sw d a) s 0x02 (wordOf (.tlbprobe sw d a)) ∧
     (v.toNat < 2 ^ 16 → Traps (.tlbgen sw a) s 0x02 (wordOf (.tlbgen sw a))) ∧
     (v.toNat < 2 ^ 17 → Traps (.fltres sw a) s 0x02 (wordOf (.fltres sw a))) ∧
     (bits v 4 6 = 0 → bits v 0 4 ≠ s.ctx.num.toNat →
       Traps (.ctxsave sw a) s 0x02 (wordOf (.ctxsave sw a)) ∧ Traps (.ctxrest sw a) s 0x02 (wordOf (.ctxrest sw a)))) ∧
  (
   ∀ (s : State) (sw : Bool) (d a b : BitVec 4) (imm : BitVec 13) (cc : BitVec 2), Unprefixed s →
     let ea := readW s a + imm.signExtend 64
     let off : W64 := w64 (ea.toNat % 2 ^ s.ctx.logspad)
     let va := readW s a
     let bad (n : Nat) (i : Instr) : Prop := ea.toNat % n ≠ 0 → Traps i s 0x03 ea
     let badL (n : Nat) (i : Instr) : Prop := off.toNat % n ≠ 0 → Traps i s 0x03 off
     (bad 2 (.ldgH sw d a imm) ∧ bad 2 (.ldgHu sw d a imm) ∧ bad 4 (.ldgW sw d a imm) ∧ bad 4 (.ldgWu sw d a imm) ∧
      bad 8 (.ldgD sw d a imm) ∧ bad 8 (.ldgAcq sw d a imm) ∧ bad 4 (.ldgAcqW sw d a imm) ∧ bad 2 (.stgH sw d a imm) ∧
      bad 4 (.stgW sw d a imm) ∧ bad 8 (.stgD sw d a imm) ∧ bad 8 (.stgRel sw d a imm) ∧ bad 4 (.stgRelW sw d a imm)) ∧
     (badL 2 (.ldlH sw d a imm) ∧ badL 2 (.ldlHu sw d a imm) ∧ badL 4 (.ldlW sw d a imm) ∧ badL 4 (.ldlWu sw d a imm) ∧
      badL 8 (.ldlD sw d a imm) ∧ badL 2 (.stlH sw d a imm) ∧ badL 4 (.stlW sw d a imm) ∧ badL 8 (.stlD sw d a imm)) ∧
     (va.toNat % 8 ≠ 0 → Traps (.amogAdd sw d a b 1) s 0x03 va ∧ Traps (.casg sw d a b 1) s 0x03 va ∧
       Traps (.waitwG sw d a b cc) s 0x03 va) ∧
     (va.toNat % 64 ≠ 0 → Traps (.launch sw d a) s 0x03 va)) ∧
  (
   ∀ (s : State) (sw : Bool) (a : BitVec 4), let t := readW s a
     (t.toNat % 4 ≠ 0 → Traps (.jr sw a) s 0x03 t) ∧
     (t.toNat % 4 ≠ 0 → s.ctx.depth + 3 ≤ 8 + s.ctx.sb → Traps (.callr sw a) s 0x03 t) ∧
     (t.toNat % 4 = 0 → vaAccel t ≠ s.accel.toNat → Traps (.jr sw a) s 0x04 t) ∧
     (t.toNat % 4 = 0 → vaAccel t ≠ s.accel.toNat → s.ctx.depth + 3 ≤ 8 + s.ctx.sb → Traps (.callr sw a) s 0x04 t))

/-- 07 R150, R159, 08 R174, 00 R2: a scalar global load that is aligned, mapped and clean completes with the little-endian
value of its bytes, sign- or zero-extended, each byte the youngest store of the core or memory as its die sees it; LDG.ACQ
acquires first. PREF changes nothing. 07 R159, 08 R174, R176: a scalar global store that is aligned and mapped enters the store buffer with the low bytes of
wd; the core sees them at once and every other byte as before, and memory itself is unchanged. A release stands behind
every outstanding store of its context, at PKG scope. -/
def Obligations.GlobalAccesses : Prop :=
  (
   ∀ (s : State) (sw : Bool) (d a : BitVec 4) (imm : BitVec 13) (hs : List (BitVec 21)) (key : Nat),
     ExtendedBy s hs → hs.length ≤ 2 →
     let ea := readW s a + wide hs imm
     let m := viewByte s
     let gives (n : Nat) (i : Instr) (v : W64) : Prop :=
       Reaches s ea n true false key → exec i s = .next (issued sw [.gpr d v] (sawRange key n s))
     let late := viewByte (acquire s)
     let acquires (n : Nat) (i : Instr) (v : W64) : Prop :=
       Reaches s ea n true false key → exec i s = .next (issued sw [.gpr d v] (sawRange key n (acquire s)))
     gives 1 (.ldgB sw d a imm) ((m key).signExtend 64) ∧ gives 1 (.ldgBu sw d a imm) ((m key).zeroExtend 64) ∧
     gives 2 (.ldgH sw d a imm) ((le16 m key).signExtend 64) ∧ gives 2 (.ldgHu sw d a imm) ((le16 m key).zeroExtend 64) ∧
     gives 4 (.ldgW sw d a imm) ((le32 m key).signExtend 64) ∧ gives 4 (.ldgWu sw d a imm) ((le32 m key).zeroExtend 64) ∧
     gives 8 (.ldgD sw d a imm) (le64 m key) ∧ acquires 8 (.ldgAcq sw d a imm) (le64 late key) ∧
     acquires 4 (.ldgAcqW sw d a imm) ((le32 late key).signExtend 64) ∧
     exec (.pref sw a imm) s = .next (issued sw [] s)) ∧
  (
   ∀ (s : State) (sw : Bool) (d a : BitVec 4) (imm : BitVec 13) (hs : List (BitVec 21)) (key : Nat),
     ExtendedBy s hs → hs.length ≤ 2 →
     let ea := readW s a + wide hs imm
     let enters (ns : List Nat) (scope n : Nat) (i : Instr) : Prop :=
       Reaches s ea n false true key → ∃ t, exec i s = .next t ∧
         t = issued sw [] (buffered ns scope (wordCells key n (readW s d)) key s) ∧ t.mem = s.mem ∧
         (∀ j < n, viewByte t (key + j) = (readW s d).extractLsb' (8 * j) 8) ∧
         (∀ k, (k < key ∨ key + n ≤ k) → viewByte t k = viewByte s k)
     let stores := enters [] s.ctx.scope
     let releases := enters (mineOut s) (max 2 s.ctx.scope)
     stores 1 (.stgB sw d a imm) ∧ stores 2 (.stgH sw d a imm) ∧ stores 4 (.stgW sw d a imm) ∧
     stores 8 (.stgD sw d a imm) ∧ releases 8 (.stgRel sw d a imm) ∧ releases 4 (.stgRelW sw d a imm))

/-- 07 R149, R151, R159, 08 R182: a scratchpad load reads at the wrapped offset of its launch; one that finds the signal word of a
command acquires its effects. 07 R149, R159: a scratchpad store writes exactly its bytes of the launch's region on this core; memory and every
other byte of the scratchpad are unchanged. -/
def Obligations.ScratchpadAccesses : Prop :=
  (
   ∀ (s : State) (sw : Bool) (d a : BitVec 4) (imm : BitVec 13) (hs : List (BitVec 21)),
     ExtendedBy s hs → hs.length ≤ 2 →
     let ea := readW s a + wide hs imm
     let m (i : Nat) := spByte s (ea.toNat + i)
     let gives (n : Nat) (i : Instr) (v : W64) : Prop :=
       (wrapped s ea).toNat % n = 0 → spPoison s ea n = false → exec i s = .next (issued sw [.gpr d v] (observe ea n s))
     gives 1 (.ldlB sw d a imm) ((m 0).signExtend 64) ∧ gives 1 (.ldlBu sw d a imm) ((m 0).zeroExtend 64) ∧
     gives 2 (.ldlH sw d a imm) ((le16 m 0).signExtend 64) ∧ gives 2 (.ldlHu sw d a imm) ((le16 m 0).zeroExtend 64) ∧
     gives 4 (.ldlW sw d a imm) ((le32 m 0).signExtend 64) ∧ gives 4 (.ldlWu sw d a imm) ((le32 m 0).zeroExtend 64) ∧
     gives 8 (.ldlD sw d a imm) (le64 m 0)) ∧
  (
   ∀ (s : State) (sw : Bool) (d a : BitVec 4) (imm : BitVec 13) (hs : List (BitVec 21)),
     ExtendedBy s hs → hs.length ≤ 2 → 3 ≤ s.ctx.logspad →
     let ea := readW s a + wide hs imm
     let stores (n : Nat) (i : Instr) : Prop :=
       (wrapped s ea).toNat % n = 0 → ∃ t, exec i s = .next t ∧ CtxIssued sw [] s t ∧ t.mem = s.mem ∧
         t.core.stores = s.core.stores ∧ SpadWritten s t ea.toNat n (fun j => (readW s d).extractLsb' (8 * j) 8)
     stores 1 (.stlB sw d a imm) ∧ stores 2 (.stlH sw d a imm) ∧ stores 4 (.stlW sw d a imm) ∧ stores 8 (.stlD sw d a imm))

/-- 07 R161, R162: a vector load fills the active lanes of vd from its words and leaves the other lanes; a vector store
writes the words of the active lanes, and of lanes that fall on one word the highest-numbered active one stands. Offsets are
off8, extended by the HX.IMM words before it, times 64; the strided forms step by read_w(a). -/
def Obligations.VectorLoadsAndStores : Prop :=
  ∀ (s : State) (sw : Bool) (v : BitVec 5) (a g : BitVec 4) (m : BitVec 3) (o : BitVec 8) (key : Nat → Nat)
    (hs : List (BitVec 21)), ExtendedBy s hs → hs.length ≤ 2 → v.toNat < s.ctx.nv →
    let base := readW s g + 64 * wideU hs o
    let at_ (i : Nat) : W64 := base + 4 * BitVec.ofNat 64 i
    let strided (i : Nat) : W64 := readW s g + BitVec.ofNat 64 i * readW s a
    let on (i : Nat) : Bool := (readM s m).getLsbD i
    let fills (i : Instr) (s0 : State) (w : Nat → BitVec 32) : Prop := ∃ r, exec i s = .next (issued sw [.vec v r] s0) ∧
      ∀ j < 128, lane 32 r j = if on j then w j else lane 32 (readV s v) j
    let seen (f : Nat → W64) : State := ((List.range 128).filter on).foldl (fun s i => observe (f i) 4 s) s
    let clean (f : Nat → W64) : Prop := ∀ i < 128, on i → spPoison s (f i) 4 = false
    let word (f : Nat → W64) (i : Nat) : BitVec 32 := le32 (fun q => spByte s ((f i).toNat + q)) 0
    let byteOf (i q : Nat) : Byte := (lane 32 (readV s v) i).extractLsb' (8 * q) 8
    let spills (i : Instr) (f : Nat → W64) : Prop := ∃ t, exec i s = .next t ∧ CtxIssued sw [] s t ∧ t.mem = s.mem ∧
      (2 ≤ s.ctx.logspad → ∀ i < 128, on i → ∀ q < 4, (∀ j < 128, i < j → on j → ∀ p < 4,
          ((f j).toNat + p) % 2 ^ s.ctx.logspad ≠ ((f i).toNat + q) % 2 ^ s.ctx.logspad) →
        spByte t ((f i).toNat + q) = byteOf i q) ∧
      (∀ p, (∀ i < 128, on i → ∀ q < 4, p ≠ s.ctx.spbase + ((f i).toNat + q) % 2 ^ s.ctx.logspad) →
        memGet t.core.spad p = memGet s.core.spad p)
    (base.toNat % 64 = 0 → (∀ i < 128, on i → Maps s (at_ i) true false (key i) ∧ CleanAt s (key i) 4) →
      fills (.vldg sw v g m o)
        (sawAt (((List.range 128).filter on).flatMap (fun i => (List.range 4).map (fun q => key i + q))) s) (fun i => le32 (viewByte s) (key i))) ∧
    (base.toNat % 64 = 0 → (∀ i < 128, on i → Maps s (at_ i) false true (key i)) → ∃ t, exec (.vstg sw v g m o) s = .next t ∧
      CtxIssued sw [] s t ∧ t.mem = s.mem ∧ t.core.spad = s.core.spad ∧
      ((∀ i < 128, ∀ j < 128, i ≠ j → key i + 4 ≤ key j ∨ key j + 4 ≤ key i) →
        ∀ i < 128, on i → ∀ q < 4, viewByte t (key i + q) = byteOf i q) ∧
      (∀ k, (∀ i < 128, on i → k < key i ∨ key i + 4 ≤ k) → viewByte t k = viewByte s k)) ∧
    ((wrapped s base).toNat % 64 = 0 → clean at_ → fills (.vldl sw v g m o) (seen at_) (word at_)) ∧
    ((wrapped s base).toNat % 64 = 0 → spills (.vstl sw v g m o) at_) ∧
    ((wrapped s (readW s g)).toNat % 4 = 0 → (readW s a).toNat % 4 = 0 → clean strided →
      fills (.vldls sw v a g m) (seen strided) (word strided)) ∧
    ((wrapped s (readW s g)).toNat % 4 = 0 → (readW s a).toNat % 4 = 0 → spills (.vstls sw v a g m) strided)

/-- 07 R164, R165: one iteration of a block move. It moves up to the next 256-byte boundary of either pointer, advances
the pointers, lowers the count, and is issued again while bytes remain; with count 0 it changes nothing. -/
def Obligations.BlockMoveIterations : Prop :=
  ∀ (s : State) (d a b : BitVec 4) (key : Nat), 8 ≤ s.ctx.logspad →
    let cnt := readW s b
    let dst := readW s d
    let src := readW s a
    let len := min cnt.toNat (min (256 - dst.toNat % 256) (256 - src.toNat % 256))
    let fill := min cnt.toNat (256 - dst.toNat % 256)
    let act (n : Nat) : CloseAct := if cnt.toNat = n then .next else .go (instrPc s.ctx)
    let moved (n : Nat) (t : State) : Prop :=
      t.ctx.pend = s.ctx.pend ++ [.gpr d (dst + w64 n), .gpr a (src + w64 n), .gpr b (cnt - w64 n)] ∧
      t.ctx.status = .closing (act n)
    let filled (n : Nat) (t : State) : Prop :=
      t.ctx.pend = s.ctx.pend ++ [.gpr d (dst + w64 n), .gpr b (cnt - w64 n)] ∧ t.ctx.status = .closing (act n)
    let patByte (j : Nat) : Byte := src.extractLsb' (8 * ((dst.toNat + j) % 8)) 8
    (cnt = 0 → ∀ i ∈ [Instr.bmovG2l d a b, .bmovL2g d a b, .bfillG d a b, .bfillL d a b],
      exec i s = .next (issued true [] s)) ∧
    (cnt ≠ 0 → Maps s src true false key → CleanAt s key len → ∃ t, exec (.bmovG2l d a b) s = .next t ∧ moved len t ∧
      t.mem = s.mem ∧ SpadWritten s t dst.toNat len (fun j => viewByte s (key + j))) ∧
    (cnt ≠ 0 → Maps s dst false true key → spPoison s src len = false → ∃ t, exec (.bmovL2g d a b) s = .next t ∧
      moved len t ∧ t.mem = s.mem ∧ t.core.spad = s.core.spad ∧
      (∀ j < len, viewByte t (key + j) = spByte s (src.toNat + j)) ∧
      (∀ k, (k < key ∨ key + len ≤ k) → viewByte t k = viewByte s k)) ∧
    (cnt ≠ 0 → Maps s dst false true key → ∃ t, exec (.bfillG d a b) s = .next t ∧ filled fill t ∧
      t.mem = s.mem ∧ t.core.spad = s.core.spad ∧ (∀ j < fill, viewByte t (key + j) = patByte j) ∧
      (∀ k, (k < key ∨ key + fill ≤ k) → viewByte t k = viewByte s k)) ∧
    (cnt ≠ 0 → ∃ t, exec (.bfillL d a b) s = .next t ∧ filled fill t ∧ t.mem = s.mem ∧
      SpadWritten s t dst.toNat fill patByte)

/-- 07 R166 to R168, 08 R182: a scratchpad atomic returns the old value and leaves the new one, in one step. -/
def Obligations.ScratchpadAtomics : Prop :=
  ∀ (s : State) (sw : Bool) (d a b : BitVec 4), 3 ≤ s.ctx.logspad →
    let o := readW s a
    let m (i : Nat) := spByte s (o.toNat + i)
    let D := readW s d
    let B := readW s b
    let old8 := le64 m 0
    let old4 := le32 m 0
    let B4 := low32 s b
    let does8 (i : Instr) (new : W64) : Prop :=
      (wrapped s o).toNat % 8 = 0 → spPoison s o 8 = false → ∃ t, exec i s = .next t ∧ CtxIssued sw [.gpr d old8] (observe o 8 s) t ∧
        t.mem = s.mem ∧ SpadWritten s t o.toNat 8 (fun j => new.extractLsb' (8 * j) 8)
    let does4 (i : Instr) (new : BitVec 32) : Prop :=
      (wrapped s o).toNat % 4 = 0 → spPoison s o 4 = false → ∃ t, exec i s = .next t ∧
        CtxIssued sw [.gpr d (old4.signExtend 64)] (observe o 4 s) t ∧ t.mem = s.mem ∧
        SpadWritten s t o.toNat 4 (fun j => new.extractLsb' (8 * j) 8)
    let does (i : BitVec 1 → Instr) (f : (n : Nat) → BitVec n → BitVec n → BitVec n) : Prop :=
      does8 (i 1) (f 64 old8 B) ∧ does4 (i 0) (f 32 old4 B4)
    does (.amolAdd sw d a b) (fun _ x y => x + y) ∧ does (.amolAnd sw d a b) (fun _ x y => x &&& y) ∧
    does (.amolOr sw d a b) (fun _ x y => x ||| y) ∧ does (.amolXor sw d a b) (fun _ x y => x ^^^ y) ∧
    does (.amolMin sw d a b) (fun _ x y => if y.slt x then y else x) ∧
    does (.amolMax sw d a b) (fun _ x y => if x.slt y then y else x) ∧
    does (.amolMinu sw d a b) (fun _ x y => if y.ult x then y else x) ∧
    does (.amolMaxu sw d a b) (fun _ x y => if x.ult y then y else x) ∧
    does (.amolSwap sw d a b) (fun _ _ y => y) ∧
    does4 (.amolFadd sw d a b) (add32 0 old4 B4).1 ∧
    does8 (.casl sw d a b 1) (if old8 = D then B else old8) ∧
    does4 (.casl sw d a b 0) (if old4 = low32 s d then B4 else old4)

/-- 07 R166 to R168, 08 R173: a global atomic reads and writes memory in one step once the stores of its core that go before it
are performed. Which stores these are, and that it waits for them, is the model's choice (assumption 53). No host watch is armed here. On host memory (die 6) its write follows as a transaction of the
I/O die, and memory is as before. -/
def Obligations.GlobalAtomics : Prop :=
  ∀ (s : State) (sw : Bool) (d a b : BitVec 4) (key : Nat), s.host.watches = [] →
    let va := readW s a
    let keys (n : Nat) := (List.range n).map (fun i => key + i)
    let free (n : Nat) : Prop := atomicAfter s (keys n) = []
    let m := memGet s.mem
    let D := readW s d
    let B := readW s b
    let old8 := le64 m key
    let old4 := le32 m key
    let B4 := low32 s b
    let kept (n : Nat) (t : State) : Prop := t.core.spad = s.core.spad ∧ (keyDie key = 6 → t.mem = s.mem) ∧
      ∀ k, (k < key ∨ key + n ≤ k) → memGet t.mem k = memGet s.mem k
    let waits (n : Nat) (i : Instr) : Prop := Reaches s va n true true key → ¬ free n →
      exec i s = .next (wait (.stores (atomicAfter s (keys n))) (sawRange key n s))
    let does8 (i : Instr) (new : W64) : Prop := waits 8 i ∧
      (Reaches s va 8 true true key → free 8 → ∃ t, exec i s = .next t ∧ CtxIssued sw [.gpr d old8] (sawRange key 8 s) t ∧
        (keyDie key ≠ 6 → le64 (memGet t.mem) key = new) ∧ kept 8 t)
    let does4 (i : Instr) (new : BitVec 32) : Prop := waits 4 i ∧
      (Reaches s va 4 true true key → free 4 → ∃ t, exec i s = .next t ∧
        CtxIssued sw [.gpr d (old4.signExtend 64)] (sawRange key 4 s) t ∧
        (keyDie key ≠ 6 → le32 (memGet t.mem) key = new) ∧ kept 4 t)
    let does (i : BitVec 1 → Instr) (f : (n : Nat) → BitVec n → BitVec n → BitVec n) : Prop :=
      does8 (i 1) (f 64 old8 B) ∧ does4 (i 0) (f 32 old4 B4)
    does (.amogAdd sw d a b) (fun _ x y => x + y) ∧ does (.amogAnd sw d a b) (fun _ x y => x &&& y) ∧
    does (.amogOr sw d a b) (fun _ x y => x ||| y) ∧ does (.amogXor sw d a b) (fun _ x y => x ^^^ y) ∧
    does (.amogMin sw d a b) (fun _ x y => if y.slt x then y else x) ∧
    does (.amogMax sw d a b) (fun _ x y => if x.slt y then y else x) ∧
    does (.amogMinu sw d a b) (fun _ x y => if y.ult x then y else x) ∧
    does (.amogMaxu sw d a b) (fun _ x y => if x.ult y then y else x) ∧
    does (.amogSwap sw d a b) (fun _ _ y => y) ∧
    does4 (.amogFadd sw d a b) (add32 0 old4 B4).1 ∧
    does8 (.casg sw d a b 1) (if old8 = D then B else old8) ∧
    does4 (.casg sw d a b 0) (if old4 = low32 s d then B4 else old4)

/-- 07 R169, R170: WAITW completes at once with the doubleword that satisfies its condition; it completes with whatever the
doubleword then is once WTO, where it is not 0, has run out since the first wait; otherwise it leaves a watch on it and gives
up its issue slot. -/
def Obligations.WaitsForAWord : Prop :=
  ∀ (s : State) (sw : Bool) (d a b : BitVec 4) (cc : BitVec 2) (key : Nat),
    let va := readW s a
    let B := readW s b
    let holds (v : W64) : Prop := (cc = 0 ∧ v = B) ∨ (cc = 1 ∧ v ≠ B) ∨ (cc = 2 ∧ B.sle v) ∨ (cc = 3 ∧ v.slt B)
    let timeUp : Prop := s.ctx.wto ≠ 0 ∧ s.ctx.wto.toNat ≤ s.clk - s.ctx.since.getD s.clk
    let s1 := acquire (if watchHit s then seeAt ((List.range 8).map (fun i => key + i)) s else s)
    let g := le64 (viewByte s1) key
    let l := le64 (fun i => spByte s (va.toNat + i)) 0
    let waits (t : State) : Prop := t.ctx.since = some (s.ctx.since.getD s.clk) ∧ t.ctx.run = s.ctx.run
    (Reaches s va 8 true false key → holds g ∨ timeUp → ∃ t, exec (.waitwG sw d a b cc) s = .next t ∧
      CtxIssued sw [.gpr d g] (sawRange key 8 s1) t ∧ t.mem = s.mem) ∧
    (Reaches s va 8 true false key → ¬ holds g → ¬ timeUp → ∃ t, exec (.waitwG sw d a b cc) s = .next t ∧ waits t ∧
      t.ctx.status = .waiting (.word true key) ∧ t.ctx.pend = s.ctx.pend ∧ t.ctx.pc = s.ctx.pc ∧ t.mem = s.mem ∧
      ∃ w ∈ t.watches, w.core = s.core.id ∧ w.ctx = s.ctx.num ∧ w.addr = key ∧ w.arg = B ∧ w.hit = none) ∧
    ((wrapped s va).toNat % 8 = 0 → spPoison s va 8 = false → holds l ∨ timeUp → ∃ t, exec (.waitwL sw d a b cc) s = .next t ∧
      CtxIssued sw [.gpr d l] (observe va 8 s) t ∧ t.mem = s.mem) ∧
    ((wrapped s va).toNat % 8 = 0 → spPoison s va 8 = false → ¬ holds l → ¬ timeUp →
      ∃ t, exec (.waitwL sw d a b cc) s = .next t ∧ waits t ∧
        t.ctx.status = .waiting (.word false (s.ctx.spbase + va.toNat % 2 ^ s.ctx.logspad)) ∧
        t.ctx.pend = s.ctx.pend ∧ t.core.spad = s.core.spad)

/-- 07 R154 to R157, R163, 02 R27: typed accesses. A load passes raw bytes and its own format unchanged and otherwise decodes each
element, multiplies it by the scale of its block where the page has a block geometry, and rounds it once. A store buffers the
encoded elements and, with a block geometry, the shared scale of each block in the page's sidecar. -/
def Obligations.TypedAccesses : Prop :=
  ∀ (s : State) (sw : Bool) (v : BitVec 5) (g : BitVec 4) (leaf : W64) (key : Nat) (sk : Nat → Nat), v.toNat < s.ctx.nv →
    let va := readW s g
    let fmt := bits leaf 6 4
    let geom := bits leaf 48 2
    let eb := fmtBits fmt / 8
    let size := blockSize geom
    let raw (own : Nat) : Prop := fmt = 0 ∨ fmt = own
    let blocks (own : Nat) : Prop := ¬ raw own ∧ geom ≠ 0
    let span (w : Nat) : Nat := if fmt = 0 then 512 else 4096 / w * eb
    let count (w : Nat) : Nat := 4096 / w / size
    let base (rd : Bool) : W64 := if (dataReq s va rd (!rd)).sub then (va >>> 10) <<< 10 else (va >>> 21) <<< 21
    let scaleVa (rd : Bool) (j : Nat) : W64 := base rd + (leaf.extractLsb' 54 10).signExtend 64 * 4096 +
      w64 ((va - base rd).toNat / eb / size + j)
    let fits (w own : Nat) (rd : Bool) : Prop :=
      cachedLeaf s (dataReq s va rd (!rd)) = some leaf ∧ fmt ≤ 8 ∧ va.toNat % span w = 0 ∧ Maps s va rd (!rd) key ∧
      (blocks own → ∀ j < count w, Maps s (scaleVa rd j) rd (!rd) (sk j) ∧ (rd = true → CleanAt s (sk j) 1))
    let x (own w j : Nat) : Fp := decodeElem own (lane w (readV s v) j).toNat
    let loads (w own : Nat) (i : Instr) : Prop := fits w own true → CleanAt s key (span w) →
      let ks := (List.range (span w)).map (fun q => key + q)
      let elt (j : Nat) : Fp := decodeElem fmt (ofBytes ((List.range eb).map (fun q => viewByte s (key + eb * j + q))))
      ∃ r fl t, exec i s = .next (issued sw [.vec v r] { t with ctx := { t.ctx with pendFp := s.ctx.pendFp ||| fl } }) ∧
        (¬ blocks own → t = sawAt ks s) ∧ (blocks own → t = sawAt (ks ++ (List.range (count w)).map sk) s) ∧
        (raw own → fl = 0 ∧ ∀ q < 512, lane 8 r q = viewByte s (key + q)) ∧
        (¬ raw own → ∀ j < 4096 / w, lane w r j = BitVec.ofNat w (roundFp (fmtOf own) (rndOf s)
          (if geom = 0 then elt j else scaleFp (elt j) (viewByte s (sk (j / size))).toNat)).1)
    let stores (w own : Nat) (i : Instr) : Prop := fits w own false →
      let scale (j : Nat) : Nat := sharedScale fmt ((List.range size).map (fun q => x own w (size * j + q)))
      ∃ t fl, exec i s = .next t ∧ t.mem = s.mem ∧ t.core.spad = s.core.spad ∧
        t.ctx = (issued sw [] { s with ctx := { s.ctx with pendFp := s.ctx.pendFp ||| fl } }).ctx ∧
        (∀ k, (k < key ∨ key + span w ≤ k) → (blocks own → ∀ j < count w, k ≠ sk j) → viewByte t k = viewByte s k) ∧
        (raw own → fl = 0 ∧ ∀ q < 512, viewByte t (key + q) = lane 8 (readV s v) q) ∧
        (¬ raw own → ∀ j < 4096 / w, ∀ q < eb, viewByte t (key + eb * j + q) = BitVec.ofNat 8 ((encodeElem fmt (rndOf s)
          (if geom = 0 then x own w j else unscaleFp (x own w j) (scale (j / size)))).1 / 256 ^ q)) ∧
        (blocks own → (∀ i < count w, sk i < key ∨ key + span w ≤ sk i) →
          (∀ i < count w, ∀ j < count w, i ≠ j → sk i ≠ sk j) →
          ∀ j < count w, viewByte t (sk j) = BitVec.ofNat 8 (scale j))
    loads 32 1 (.tldgF32 sw v g) ∧ loads 16 2 (.tldgBf16 sw v g) ∧
    stores 32 1 (.tstgF32 sw v g) ∧ stores 16 2 (.tstgBf16 sw v g)

/-- 08 R184, R185, R188, R194: the barrier instructions. BINIT sets EXP and ARR, BEXPECT adds to PEND, BARRIVE lowers ARR,
and a phase that is over flips PHASE, takes ARR from EXP and raises DONE. BARRIVE releases what its die sees to every die; that it
waits for the stores of its context first is the model's choice (assumption 53). BTEST and BWAIT read DONE and acquire. 08 R172, R178, R190 to R193: FENCE acts as NOP at CORE scope. That a wider one waits for all that it orders is the model's choice
(assumptions 52, 53): the stores of its context where its kinds have an earlier S (.SS, .SL), and those that its loads returned from
the buffer where they have an earlier L (.LS, .LL). Then it completes: at PKG scope what its die sees is visible on every die, at
SYS scope also to the host and to other modules, later loads are behind this moment (.SL, .LL), and with .LS and .SS at SYS scope
later stores release there; at DIE scope other dies see no more than before. TLWAIT completes once the watermark covers its
operand; TLREAD reads the watermark; both acquire at SYS scope. -/
def Obligations.OrderingInstructions : Prop :=
  (
   ∀ (s : State) (sw : Bool) (d a b : BitVec 4), (wrapped s (readW s a)).toNat % 16 = 0 → 4 ≤ s.ctx.logspad →
     let o := readW s a
     let w0 (t : State) : W64 := le64 (fun i => spByte t (o.toNat + i)) 0
     let done (t : State) : W64 := le64 (fun i => spByte t (o.toNat + 8 + i)) 0
     let pend (w : W64) : BitVec 24 := w.extractLsb' 0 24
     let arr (w : W64) : BitVec 16 := w.extractLsb' 24 16
     let exp (w : W64) : BitVec 16 := w.extractLsb' 40 16
     let n : BitVec 16 := (readW s b).extractLsb' 0 16
     let v : BitVec 24 := (readW s b).extractLsb' 0 24
     let kept (t : State) : Prop := t.mem = s.mem ∧ exp (w0 t) = exp (w0 s)
     let tested (p : BitVec 24) (r : BitVec 16) (t : State) : Prop :=
       if p = 0 ∧ r = 0 then pend (w0 t) = 0 ∧ arr (w0 t) = exp (w0 s) ∧ done t = done s + 1 ∧
         (w0 t).getLsbD 56 = !(w0 s).getLsbD 56
       else pend (w0 t) = p ∧ arr (w0 t) = r ∧ done t = done s ∧ (w0 t).getLsbD 56 = (w0 s).getLsbD 56
     (∃ t, exec (.binit sw a b) s = .next t ∧ CtxIssued sw [] s t ∧ t.mem = s.mem ∧
       w0 t = (n.zeroExtend 64 <<< 24) ||| (n.zeroExtend 64 <<< 40) ∧ done t = 0) ∧
     (∃ t, exec (.bexpect sw a b) s = .next t ∧ CtxIssued sw [] s t ∧ kept t ∧ tested (pend (w0 s) + v) (arr (w0 s)) t) ∧
     (mineOut s = [] → ∃ t, exec (.barrive sw a) s = .next t ∧ CtxIssued sw [] s t ∧ kept t ∧ ReleasedFrom s t ∧
       t.hidden = s.hidden ∧ tested (pend (w0 s)) (if arr (w0 s) = 0 then 0 else arr (w0 s) - 1) t) ∧
     (mineOut s ≠ [] → exec (.barrive sw a) s = .next (wait (.stores (mineOut s)) s)) ∧
     exec (.btest sw d a) s = .next (issued sw [.gpr d (done s)] (acquire s)) ∧
     ((readW s b).toNat ≤ (done s).toNat → exec (.bwait sw a b) s = .next (issued sw [] (acquire s))) ∧
     ((done s).toNat < (readW s b).toNat → exec (.bwait sw a b) s = .next (wait (.barrier o.toNat (readW s b)) s))) ∧
  (
   ∀ (s : State) (sw : Bool) (d a : BitVec 4) (p i : BitVec 2) (kinds : BitVec 4),
     let mark := (s.core.tls.get ⟨i.toNat, i.isLt⟩).mark
     let ss := kinds.getLsbD 3
     let sl := kinds.getLsbD 2
     let ls := kinds.getLsbD 1
     let ll := kinds.getLsbD 0
     let out := (if ss || sl then mineOut s else []) ++ (if ls || ll then sawOut s else [])
     let x := s.ctx
     (p = 0 → exec (.fence sw ⟨p, kinds⟩ ()) s = .next (issued sw [] s)) ∧
     (p ≠ 0 → out ≠ [] → exec (.fence sw ⟨p, kinds⟩ ()) s = .next (wait (.stores out) s)) ∧
     (p = 1 → out = [] → exec (.fence sw ⟨p, kinds⟩ ()) s = .next (issued sw [] s)) ∧
     (2 ≤ p.toNat → out = [] → ∃ t, exec (.fence sw ⟨p, kinds⟩ ()) s = .next t ∧ t.mem = s.mem ∧ t.transit = s.transit ∧
       t.core.stores = s.core.stores ∧ ReleasedFrom s t ∧ (p = 2 → t.hidden = s.hidden) ∧
       (p = 3 → ∀ e ∈ t.hidden, unseenOn s (coreDie s.core.id) e.core e.num = true) ∧
       CtxIssued sw [] { s with ctx := { x with scope := if p == 3 && ss && ls then 3 else x.scope,
                                                fresh := if sl || ll then s.clk else x.fresh,
                                                freshSys := if p == 3 && (sl || ll) then s.clk else x.freshSys } } t) ∧
     ((readW s a).toNat ≤ mark → exec (.tlwait sw a i) s = .next (issued sw [] (acquireSys s))) ∧
     (mark < (readW s a).toNat → exec (.tlwait sw a i) s = .next (wait (.timeline i.toNat (readW s a)) s)) ∧
     exec (.tlread sw d i) s = .next (issued sw [.gpr d (BitVec.ofNat 64 mark)] (acquireSys s)))

/-- 02 R15, R17, R27: rounding an encoded value back into its own format gives the encoding and no flag, in every mode. -/
def Obligations.RoundingKeepsEncodings : Prop :=
  ∀ (mode n : Nat), ∀ f ∈ [fp32, bf16, fp16, e4m3, e5m2], n < 2 ^ f.width → decodeFp f n ≠ .nan →
    roundFp f mode (decodeFp f n) = (n, 0)

/-- 02 R27, R28, R30, 09 R202 to R205: the floating-point operations complete element by element: the exact result,
rounded once in the mode that applies, with its flags; VABS, VNEG, VMIN and VMAX do not round. How VEXP2 and VLOG2 come to their
exact result is the model's choice (assumption 14). -/
def Obligations.VectorFloatResults : Prop :=
  ∀ (s : State) (sw : Bool) (v a b : BitVec 5) (m : BitVec 3) (t : BitVec 2), t ≠ 3 → VecReady s [v, a, b] →
    let f := if t = 0 then fp32 else if t = 1 then bf16 else fp16
    let w := f.width
    let A (j : Nat) := (lane w (readV s a) j).toNat
    let B (j : Nat) := (lane w (readV s b) j).toNat
    let x (j : Nat) := decodeFp f (A j)
    let y (j : Nat) := decodeFp f (B j)
    let d (j : Nat) := decodeFp f (lane w (readV s v) j).toNat
    let rnd (r : Fp × BitVec 6) : Nat × BitVec 6 := ((roundFp f (rndOf s) r.1).1, (roundFp f (rndOf s) r.1).2 ||| r.2)
    let two (i : Instr) (g : Nat → Nat × BitVec 6) : Prop := VecResult i s sw [(1, .v a), (2, .v b), (3, .rest v m)] v w m g
    let three (i : Instr) (g : Nat → Nat × BitVec 6) : Prop := VecResult i s sw [(1, .v a), (2, .v b), (3, .v v)] v w m g
    let one (i : Instr) (g : Nat → Nat × BitVec 6) : Prop := VecResult i s sw [(1, .v a), (3, .rest v m)] v w m g
    let fused (p q : Fp → Fp) (j : Nat) : Nat × BitVec 6 :=
      let r := addFp (rndOf s) (p (mulFp (x j) (y j)).1) (q (d j))
      rnd (r.1, (mulFp (x j) (y j)).2 ||| r.2)
    two (.vadd sw v a b m t) (fun j => rnd (addFp (rndOf s) (x j) (y j))) ∧
    two (.vsub sw v a b m t) (fun j => rnd (addFp (rndOf s) (x j) (negFp (y j)))) ∧
    two (.vmul sw v a b m t) (fun j => rnd (mulFp (x j) (y j))) ∧
    two (.vdiv sw v a b m t) (fun j => rnd (divFp (x j) (y j))) ∧
    three (.vfma sw v a b m t) (fused (fun p => p) (fun q => q)) ∧ three (.vfms sw v a b m t) (fused (fun p => p) negFp) ∧
    three (.vfnma sw v a b m t) (fused negFp (fun q => q)) ∧
    two (.vmin sw v a b m t) (fun j => minmaxF f false (A j) (B j)) ∧
    two (.vmax sw v a b m t) (fun j => minmaxF f true (A j) (B j)) ∧
    one (.vsqrt sw v a m t) (fun j => rnd (sqrtFp (x j))) ∧ one (.vexp2 sw v a m t) (fun j => rnd (exp2Fp (x j), 0)) ∧
    one (.vlog2 sw v a m t) (fun j => rnd (log2Fp (x j))) ∧
    one (.vabs sw v a m t) (fun j => ((lane w (readV s a) j &&& (BitVec.allOnes w >>> 1)).toNat, 0)) ∧
    one (.vneg sw v a m t) (fun j => ((lane w (readV s a) j ^^^ (1#w <<< (w - 1))).toNat, 0))

/-- 09 R206, 02 R33: the integer and bitwise operations, element by element, modulo the width. -/
def Obligations.VectorIntegerResults : Prop :=
  ∀ (s : State) (sw : Bool) (v a b : BitVec 5) (m : BitVec 3) (wf : BitVec 2), wf ≠ 3 → VecReady s [v, a, b] →
    let w := if wf = 0 then 32 else if wf = 1 then 16 else 8
    let x (j : Nat) : BitVec w := lane w (readV s a) j
    let y (j : Nat) : BitVec w := lane w (readV s b) j
    let gives (i : Instr) (g : Nat → BitVec w) : Prop := VecPlain i s sw [(1, .v a), (2, .v b), (3, .rest v m)] v w m g
    gives (.viadd sw v a b m wf) (fun j => x j + y j) ∧ gives (.visub sw v a b m wf) (fun j => x j - y j) ∧
    gives (.vimul sw v a b m wf) (fun j => x j * y j) ∧
    gives (.vimulh sw v a b m wf) (fun j => ((x j).signExtend (2 * w) * (y j).signExtend (2 * w)).extractLsb' w w) ∧
    gives (.vimin sw v a b m wf) (fun j => if (y j).slt (x j) then y j else x j) ∧
    gives (.vimax sw v a b m wf) (fun j => if (x j).slt (y j) then y j else x j) ∧
    gives (.vand sw v a b m wf) (fun j => x j &&& y j) ∧ gives (.vor sw v a b m wf) (fun j => x j ||| y j) ∧
    gives (.vxor sw v a b m wf) (fun j => x j ^^^ y j) ∧
    gives (.vshl sw v a b m wf) (fun j => x j <<< ((y j).toNat % w)) ∧
    gives (.vshr sw v a b m wf) (fun j => x j >>> ((y j).toNat % w)) ∧
    gives (.vsar sw v a b m wf) (fun j => (x j).sshiftRight ((y j).toNat % w)) ∧
    VecPlain (.vidot4 sw v a b m) s sw [(1, .v a), (2, .v b), (3, .v v)] v 32 m (fun j =>
      let p (q : Nat) : BitVec 32 := (lane 8 (readV s a) (4 * j + q)).signExtend 32 * (lane 8 (readV s b) (4 * j + q)).signExtend 32
      lane 32 (readV s v) j + p 0 + p 1 + p 2 + p 3)

/-- 02 R19, R23, 09 R198, R207 to R209, R211 to R213: conversions, quantisation and its inverse. VCVT converts the elements
that fit both registers; a part names which. A scale of 127 is 1.0. -/
def Obligations.VectorConversions : Prop :=
  ∀ (s : State) (sw : Bool) (v a : BitVec 5) (g : BitVec 4) (m : BitVec 3), VecReady s [v, a] →
    let mode := rndOf s
    let held (i : Instr) (srcs : List (Nat × Src)) (w : Nat) (f : Nat → Option (Nat × BitVec 6)) (more : List RegWrite) : Prop :=
      ∃ r fl, exec i s = .next (vecIssued sw srcs (.vec v r :: more) fl s) ∧
        (∀ k < 4096 / w, lane w r k = match f k with
          | some p => BitVec.ofNat w p.1
          | none => lane w (readV s v) k) ∧
        ∀ b < 6, fl.getLsbD b = (List.range (4096 / w)).any (fun k => (f k).any (fun p => p.2.getLsbD b))
    let x (i : Nat) : Fp := dec32 (lane 32 (readV s a) i)
    let quant (f : Nat) (p : BitVec 2) (sc : Nat → Nat) (k : Nat) : Option (Nat × BitVec 6) :=
      let i := k - 128 * p.toNat
      if 128 * p.toNat ≤ k ∧ i < 128 ∧ (readM s m).getLsbD i then some (encodeElem f mode (unscaleFp (x i) (sc i))) else none
    (∀ c e : BitVec 4, ∀ p : BitVec 2, vcvtFits c.toNat e.toNat p.toNat = true →
      let nS := 4096 / fmtBits c.toNat
      let nD := 4096 / fmtBits e.toNat
      let n := min nS nD
      let conv (i k : Nat) : Option (Nat × BitVec 6) :=
        let z := (lane (fmtBits c.toNat) (readV s a) k).toNat
        if (readM s m).getLsbD (128 * i / n) then
          some (if c = e then (z, 0) else encodeElem e.toNat mode (decodeElem c.toNat z))
        else none
      held (.vcvt sw v a c m e p) [(1, .v a), (3, if nS < nD then .v v else .rest v m)] (fmtBits e.toNat) (fun k =>
        if nD ≤ nS then conv k (if nD < nS then p.toNat * n + k else k)
        else if p.toNat * n ≤ k ∧ k < p.toNat * n + n then conv (k - p.toNat * n) (k - p.toNat * n) else none) []) ∧
    (∀ f : BitVec 4, ∀ e p : BitVec 2, quantFits f.toNat e.toNat = true → partFits f.toNat p.toNat = true →
      let bs := blockSize e.toNat
      let scales := (List.range (128 / bs)).map (fun q => sharedScale f.toNat
        (((List.range bs).filter (fun j => (readM s m).getLsbD (bs * q + j))).map (fun j => x (bs * q + j))))
      let fixed (i : Nat) : Nat := if e = 0 then 127 else ((readW s g).extractLsb' (8 * (i / bs)) 8).toNat
      held (.vquant sw v a g m f e p) [(1, .v a), (3, .v v)] (fmtBits f.toNat)
        (quant f.toNat p (fun i => if e = 0 then 127 else scales.getD (i / bs) 127))
        (if e = 0 then [] else [.gpr g (packScales scales)]) ∧
      held (.vquantFix sw v a g m f e p) [(1, .v a), (2, .g g), (3, .v v)] (fmtBits f.toNat) (quant f.toNat p fixed) [] ∧
      held (.vdeq sw v a g m f e p) [(1, .v a), (2, .g g), (3, .rest v m)] 32 (fun i => if (readM s m).getLsbD i then
        some (roundFp fp32 mode (scaleFp (decodeElem f.toNat
          (lane (fmtBits f.toNat) (readV s a) (128 * p.toNat + i)).toNat) (fixed i))) else none) [] ∧
      (e ≠ 0 → exec (.vscale sw a g f e) s = .next (vecIssued sw [(1, .v a)]
        [.gpr g (packScales ((List.range (128 / bs)).map (fun j => sharedScale f.toNat [x j])))] 0 s)) ∧
      (e ≠ 0 → ∃ r fl, exec (.vbmax sw v a m e) s = .next (vecIssued sw [(1, .v a)] [.vec v r] fl s) ∧
        ∀ j < 128, 128 / bs ≤ j → lane 32 r j = 0))

/-- 09 R214 to R216: the mask operations and the selections. -/
def Obligations.VectorMasksAndSelection : Prop :=
  ∀ (s : State) (sw : Bool) (v a b : BitVec 5) (d p q m : BitVec 3) (g : BitVec 4), VecReady s [v, a, b] →
    let A (j : Nat) := lane 32 (readV s a) j
    let B (j : Nat) := lane 32 (readV s b) j
    let on (j : Nat) : Bool := (readM s m).getLsbD j
    exec (.mand sw d p q) s = .next (vecIssued sw [] [.mask d (readM s p &&& readM s q)] 0 s) ∧
    exec (.mor sw d p q) s = .next (vecIssued sw [] [.mask d (readM s p ||| readM s q)] 0 s) ∧
    exec (.mnot sw d p) s = .next (vecIssued sw [] [.mask d (~~~readM s p)] 0 s) ∧
    exec (.mpop sw p g m) s = .next (vecIssued sw [] [.gpr g ((readM s p &&& readM s m).cpop.zeroExtend 64)] 0 s) ∧
    (∃ r, exec (.vselm sw v a b m) s = .next (vecIssued sw [(1, .v a), (2, .v b)] [.vec v r] 0 s) ∧
      ∀ j < 128, lane 32 r j = if on j then A j else B j) ∧
    VecPlain (.vperm sw v a b m) s sw [(1, .v a), (2, .v b), (3, .rest v m)] v 32 m (fun j => A ((B j).toNat % 128)) ∧
    (∀ y c : BitVec 3, y.toNat ≤ 5 → ∃ r, exec (.vcmp sw d a b m y c) s = .next (vecIssued sw [(1, .v a), (2, .v b)] [.mask d r] 0 s) ∧
      let w := cmpWidth y.toNat
      let n := 32 / w
      ∀ j < 128, r.getLsbD j = true ↔ on j = true ∧ ∀ i < n,
        cmpElem y.toNat c.toNat (lane w (readV s a) (n * j + i)).toNat (lane w (readV s b) (n * j + i)).toNat = true)

/-- 02 R35 to R37, 09 R217: reductions write element 0 alone, by the tree over the elements with the identity for
inactive ones; the scan writes every element, each the rounded sum of the one before and its own. 09 R221 to R223: VDIST scores the active lanes against the rows that its descriptor locates; the other lanes of vd
stay. A descriptor that R221 forbids raises ILLEGAL, an offset that is not 64-byte aligned MISALIGN. How VDIST.COS comes to its
exact root and that MISALIGN reports the raw field of the descriptor are the model's choices (assumptions 14, 57, 144). -/
def Obligations.VectorReductionsAndDistances : Prop :=
  (
   ∀ (s : State) (sw : Bool) (v a : BitVec 5) (m : BitVec 3) (t : BitVec 2), t ≠ 3 → VecReady s [v, a] →
     let f := if t = 0 then fp32 else if t = 1 then bf16 else fp16
     let w := f.width
     let n := 4096 / w
     let x (e : Nat) (j : Nat) : Nat := if laneOn s m w j then (lane w (readV s a) j).toNat else e
     let sum (p q : Nat) : Nat × BitVec 6 :=
       let r := addFp (rndOf s) (decodeFp f p) (decodeFp f q)
       ((roundFp f (rndOf s) r.1).1, (roundFp f (rndOf s) r.1).2 ||| r.2)
     let minus0 := signEnc f true
     let reduces (i : Instr) (op : Nat → Nat → Nat × BitVec 6) (e : Nat) : Prop :=
       ∃ r fl, exec i s = .next (vecIssued sw [(1, .v a), (3, .v v)] [.vec v r] fl s) ∧
         (∀ j < n, j ≠ 0 → lane w r j = lane w (readV s v) j) ∧
         lane w r 0 = BitVec.ofNat w ((treeGo op (Nat.log2 n) ((List.range n).map (x e), 0)).1.headD 0)
     reduces (.vredAdd sw v a m t) sum minus0 ∧
     reduces (.vredMax sw v a m t) (minmaxF f true) (minus0 + infEnc f) ∧
     reduces (.vredMin sw v a m t) (minmaxF f false) (infEnc f) ∧
     (∃ r fl, exec (.vscanAdd sw v a m t) s = .next (vecIssued sw [(1, .v a)] [.vec v r] fl s) ∧
       lane w r 0 = BitVec.ofNat w (x minus0 0) ∧
       ∀ j, j + 1 < n → lane w r (j + 1) = BitVec.ofNat w (sum (lane w r j).toNat (x minus0 (j + 1))).1)) ∧
  (
   ∀ (s : State) (sw : Bool) (v q : BitVec 5) (g : BitVec 4) (m : BitVec 3), VecReady s [v, q] →
     let d := readW s g
     let fmt := tdFmt d
     let fq := if fmt = 7 then 4 else fmt
     let dep := 4096 / fmtBits fq
     let query := rowOf fq 0 dep (vregBytes (readV s q)) []
     let scores (kind : Nat) (i : Instr) : Prop :=
       (distOk (kind == 2) d = false → Traps i s 0x01 (wordOf i)) ∧
       (distOk (kind == 2) d = true → tdOffset d % 64 ≠ 0 → Traps i s 0x03 (w64 (tdOffset d))) ∧
       (distOk (kind == 2) d = true → tdOffset d % 64 = 0 →
         distBad s d dep ((List.range 128).filter (fun j => (readM s m).getLsbD j)) = none →
         VecResult i s sw [(1, .v q), (2, .g g), (3, if kind = 2 then .rest v m else .v v)] v 32 m (fun j =>
           let r := distLane kind fmt query (distCand s d dep (distRowIx s d j)) (lane 32 (readV s v) j)
           (r.1.toNat, r.2)))
     scores 0 (.vdistIp sw v q g m) ∧ scores 1 (.vdistL2 sw v q g m) ∧ scores 2 (.vdistCos sw v q g m))

/-- 09 R218 to R220, 08 R182: lane moves, gathers and scatters. Of lanes that fall on one word the highest-numbered active one
stands; a gather that finds the signal word of a command acquires its effects. -/
def Obligations.VectorLaneMoves : Prop :=
  ∀ (s : State) (sw : Bool) (v a : BitVec 5) (g : BitVec 4) (m : BitVec 3) (l : BitVec 5) (k : BitVec 2),
    VecReady s [v, a] →
    let G := readW s g
    let A (j : Nat) := lane 32 (readV s a) j
    let no := l.toNat + 32 * k.toNat
    let on (j : Nat) : Bool := (readM s m).getLsbD j
    let at_ (j : Nat) : W64 := G + (A j).zeroExtend 64
    VecPlain (.vbcst sw v g m) s sw [(2, .g g), (3, .rest v m)] v 32 m (fun _ => G.setWidth 32) ∧
    VecPlain (.vbcstH sw v g m) s sw [(2, .g g), (3, .rest v m)] v 16 m (fun _ => G.setWidth 16) ∧
    VecPlain (.vbcstB sw v g m) s sw [(2, .g g), (3, .rest v m)] v 8 m (fun _ => G.setWidth 8) ∧
    VecPlain (.vslide sw v a g m) s sw [(1, .v a), (2, .g g), (3, .rest v m)] v 32 m (fun j =>
      if 0 ≤ (j : Int) + G.toInt ∧ (j : Int) + G.toInt < 128 then A ((j : Int) + G.toInt).toNat else 0) ∧
    VecPlain (.viota sw v g m) s sw [(2, .g g), (3, .rest v m)] v 32 m (fun j =>
      G.setWidth 32 + BitVec.ofNat 32 ((List.range j).countP (fun i => on i))) ∧
    (∃ r, exec (.vins sw v l g k) s = .next (vecIssued sw [(2, .g g), (3, .v v)] [.vec v r] 0 s) ∧
      ∀ j < 128, lane 32 r j = if j = no then G.setWidth 32 else lane 32 (readV s v) j) ∧
    exec (.vext sw v l g k) s = .next (vecIssued sw [(1, .v v)] [.gpr g ((lane 32 (readV s v) no).zeroExtend 64)] 0 s) ∧
    ((∀ j < 128, on j → (wrapped s (at_ j)).toNat % 4 = 0) →
      ((∀ j < 128, on j → spPoison s (at_ j) 4 = false) →
        ∃ r, exec (.vgathl sw v a g m) s = .next (vecIssued sw [(1, .v a), (2, .g g), (3, .rest v m)] [.vec v r] 0
            (((List.range 128).filter on).foldl (fun s j => observe (at_ j) 4 s) s)) ∧
          ∀ j < 128, lane 32 r j = if on j then le32 (fun q => spByte s ((at_ j).toNat + q)) 0 else lane 32 (readV s v) j) ∧
      (2 ≤ s.ctx.logspad →
        ∃ t, exec (.vscatl sw v a g m) s = .next t ∧ t.ctx = (vecIssued sw [(1, .v a), (2, .g g), (3, .v v)] [] 0 s).ctx ∧ t.mem = s.mem ∧
          (∀ j < 128, on j → (∀ i < 128, j < i → on i → wrapped s (at_ i) ≠ wrapped s (at_ j)) →
            ∀ q < 4, spByte t ((at_ j).toNat + q) = (lane 32 (readV s v) j).extractLsb' (8 * q) 8) ∧
          ∀ p, (∀ j < 128, on j → ∀ q < 4, p ≠ s.ctx.spbase + ((at_ j).toNat + q) % 2 ^ s.ctx.logspad) →
            memGet t.core.spad p = memGet s.core.spad p))

/-- 05 R103, R116 to R118, 03 R62: SEND, SEND.RQ, SENDB and SENDB.RQ post exactly one message, on chip or through the outbound
overflow region, and hold the status OK, or hold the status of the first check that fails and post nothing. HX.PRI replaces
PRI, mode 2 makes PRI and ACK 1; .RQ takes a window credit. That BADDEST holds a core against the part of the sender's module and
that a bulk payload takes uncorrectable bytes unmarked are the model's choices (assumptions 115, 42). -/
def Obligations.MessageSends : Prop :=
  ∀ (s : State) (sw : Bool) (d a b : BitVec 4) (n : BitVec 5) (p : Option (BitVec 1)), PriRun s p →
    s.ctx.status = .ready →
    let wp := withPriority p (readW s d)
    let w := if mMode wp = 2 then setBits wp 60 1 1 else wp
    let pc := readW s a
    let l := myLaunch s
    let desc := readW s b
    let w0 := if mMode w = 3 then fillHome s (destClean w) (readW s b) else destClean w
    let f := s.ctx.msg.rfall - pc
    let lost := mMode w = 4 ∧ noSubgroup l (mCode w) = true
    let posts (rq bulk : Bool) (i : Instr) : Prop :=
      let okDest := destOk s l w pc n.toNat rq bulk (readW s b) = true
      let okFall := rq = false ∨ s.ctx.msg.rfall = 0 ∨ (f ≠ 0 ∧ (f.setWidth 32).signExtend 64 = f)
      let okDesc := bulk = false ∨ descOk desc = true
      let cr := toBit rq + toBit (mPri w)
      let blen := if bulk then descLen desc else 0
      let fall := if rq = true ∧ s.ctx.msg.rfall ≠ 0 then (f.setWidth 32).toNat else 0
      let m : Msg := myMsg s w0 pc (if bulk then [] else payload s b n.toNat)
        (if bulk then some (spRead s (descSrc desc) (descLen desc), descDst desc) else none) (rq || mMode w == 2) fall
      let owing (t : State) : State :=
        { t with ctx := { t.ctx with rqOwed := t.ctx.rqOwed + toBit rq, m2wait := t.ctx.m2wait + toBit (mMode w == 2) } }
      (lost → Traps i s 0x0C (w64 (mCode w))) ∧
      (¬ lost → ¬ okDest → exec i s = .next (issued sw [.slast 2] s)) ∧
      (¬ lost → okDest → ¬ (okDesc ∧ okFall) → exec i s = .next (issued sw [.slast 5] s)) ∧
      (¬ lost → okDest → okDesc → okFall → myOwe s + cr > l.window → exec i s = .next (issued sw [.slast 3] s)) ∧
      (¬ lost → okDest → okDesc → okFall → myOwe s + cr ≤ l.window → outRoom s s.core s.ctx.task (mPri w) blen = none →
        exec i s = .next (issued sw [.slast 1] s)) ∧
      (¬ lost → okDest → okDesc → okFall → myOwe s + cr ≤ l.window → outChipFree s.core (mPri w) = true →
        exec i s = .next (issued sw [.slast 0] (owing (takeCredit cr (posted m s))))) ∧
      (∀ slots, ¬ lost → okDest → okDesc → okFall → myOwe s + cr ≤ l.window → outChipFree s.core (mPri w) = false →
        outRoom s s.core s.ctx.task (mPri w) blen = some slots →
        Overflows i s slots m (fun t => issued sw [.slast 0] (owing (takeCredit cr t))))
    posts false false (.send sw d a b n) ∧ posts true false (.sendRq sw d a b n) ∧
    (n = 0 → posts false true (.sendb sw d a b) ∧ posts true true (.sendbRq sw d a b))

/-- 05 R119 to R122: replies, RECVW, the migrations up to the close of their group, and HOMEXY. A reply is posted once; a
message that RECVW takes leaves the held ones, fills the registers from wd and acquires; a bulk one leaves them for its pull.
That a continuation has no fallback left, so that its reply has word 1 zero, and that REPLYB takes uncorrectable bytes unmarked are
the model's choices (assumptions 12, 42). -/
def Obligations.RepliesAndReceives : Prop :=
  ∀ (s : State) (sw : Bool) (d a b : BitVec 4) (n : BitVec 5), s.ctx.status = .ready →
    let desc := readW s b
    let owes := bit s.ctx.msg.hstat 2 = true ∧ bit s.ctx.msg.hstat 3 = false
    let replied (t : State) : State :=
      { t with ctx := { t.ctx with msg := { t.ctx.msg with hstat := setBits t.ctx.msg.hstat 3 1 1 } } }
    let m (words : List W64) (bulk : Option (List Byte × Nat)) : Msg :=
      myMsg s (replyDest s.ctx) (replyFall s.ctx) words bulk false 0
    (¬ owes → exec (.reply sw b n) s = .next (issued sw [.slast 4] s) ∧ exec (.replyb sw b) s = .next (issued sw [.slast 4] s)) ∧
    (owes → outChipFree s.core true = true →
      exec (.reply sw b n) s = .next (issued sw [.slast 0] (replied (posted (m (payload s b n.toNat) none) s)))) ∧
    (∀ slots, owes → outChipFree s.core true = false → outRoom s s.core s.ctx.task true 0 = some slots →
      Overflows (.reply sw b n) s slots (m (payload s b n.toNat) none) (fun t => issued sw [.slast 0] (replied t))) ∧
    (owes → outRoom s s.core s.ctx.task true 0 = none → exec (.reply sw b n) s = .next (wait .outRoom s)) ∧
    (owes → descOk desc = false → exec (.replyb sw b) s = .next (issued sw [.slast 5] s)) ∧
    (owes → descOk desc = true → outChipFree s.core true = true → exec (.replyb sw b) s =
      .next (issued sw [.slast 0]
        (replied (posted (m [] (some (spRead s (descSrc desc) (descLen desc), descDst desc))) s)))) ∧
    (∀ slots, owes → descOk desc = true → outChipFree s.core true = false →
      outRoom s s.core s.ctx.task true (descLen desc) = some slots →
      Overflows (.replyb sw b) s slots (m [] (some (spRead s (descSrc desc) (descLen desc), descDst desc)))
        (fun t => issued sw [.slast 0] (replied t))) ∧
    (owes → descOk desc = true → outRoom s s.core s.ctx.task true (descLen desc) = none →
      exec (.replyb sw b) s = .next (wait .outRoom s)) ∧
    (heldFor s.core s.ctx false = [] → s.ctx.rqOwed = 0 ∧ s.ctx.m2wait = 0 →
      exec (.recvw sw d) s = .next (issued sw [.rstat 0] s)) ∧
    (heldFor s.core s.ctx false = [] → ¬ (s.ctx.rqOwed = 0 ∧ s.ctx.m2wait = 0) →
      exec (.recvw sw d) s = .next (wait (.recvw d sw) s)) ∧
    (∀ h rest, heldFor s.core s.ctx false = h :: rest → h.q.store = .chip → hBulk h.q.msg.w3 = true →
      ∃ t, exec (.recvw sw d) s = .next t ∧ t.ctx.status = .waiting (.recvw d sw) ∧ t.ctx.pend = s.ctx.pend ∧ t.mem = s.mem ∧
        t.core.held = s.core.held.filter (fun y => y != h) ∧
        ∃ p, t.core.pulls = s.core.pulls ++ [p] ∧ p.q = h.q ∧ p.ctx = s.ctx.num ∧ p.inc = s.ctx.inc ∧ p.reply = true) ∧
    (∀ h rest, heldFor s.core s.ctx false = h :: rest → h.q.store = .chip → hBulk h.q.msg.w3 = false →
      ∃ t, exec (.recvw sw d) s = .next t ∧ t.core.held = s.core.held.filter (fun y => y != h) ∧
      t.ctx.rqOwed = s.ctx.rqOwed - toBit (h.q.owed == .request) ∧ t.ctx.fresh = s.clk ∧ t.ctx.freshSys = s.clk ∧
      t.ctx.status = (issued sw [] s).ctx.status ∧ t.ctx.pc = s.ctx.pc + 4 ∧ t.mem = s.mem ∧
      t.ctx.pend = s.ctx.pend ++
        ((h.q.msg.words.zipIdx.filter (fun p => d.toNat + p.2 ≤ 15)).map
          (fun p => RegWrite.gpr (BitVec.ofNat 4 (d.toNat + p.2)) p.1)) ++
        [.rstat (rstatOf d h.q.msg), .rhdr h.q.msg.w2 h.q.msg.w3]) ∧
    (s.ctx.depth = 0 → exec (.migr a) s = .next (closes (.migr false a (hxOf s).pri) s) ∧
      exec (.migrx d) s = .next (closes (.migr true d (hxOf s).pri) s)) ∧
    (s.ctx.depth ≠ 0 → Traps (.migr a) s 0x0D (wdepth s.ctx) ∧ Traps (.migrx d) s 0x0D (wdepth s.ctx)) ∧
    (homeCore s (readW s a) = none → exec (.homexy sw d a) s = .next (issued sw [.gpr d 0] s)) ∧
    (∀ k, homeCore s (readW s a) = some k → exec (.homexy sw d a) s = .next (issued sw
      [.gpr d (w64 (vaAccel (readW s a) * 2 ^ 28 + coreDie k * 2 ^ 25 + coreX k * 2 ^ 19 + coreY k * 2 ^ 14))] s))

/-- 06 R135, R140 to R143: event operations travel to their unit behind the context's stores; EVREAD waits for the reply and EVSEND
reserves an outbound slot. PUSHW and POPW work at the top of the core's deque; STEAL asks one neighbour. That a deque with
records of another launch leaves no room, that a steal which asks nobody leaves the pointer where it is, and that BADDEST holds a
core against the part of the sender's module are the model's choices (assumptions 13, 48, 115). -/
def Obligations.EventsAndDeques : Prop :=
  ∀ (s : State) (sw : Bool) (d a b e : BitVec 4) (imm : BitVec 13) (hs : List (BitVec 21)) (p : Option (BitVec 1)),
    let req (op : EvOp) : EvReq :=
      { num := s.evNum, task := s.ctx.task, id := ((readW s a).setWidth 16).toNat, core := s.core.id,
        ctx := s.ctx.num, inc := s.ctx.inc, after := ctxOut s s.core s.ctx, op := op }
    let asks (op : EvOp) : State := { s with evq := s.evq ++ [req op], evNum := s.evNum + 1 }
    let q := s.core.deque
    let setQ (x : Deque) : State := { s with core := { s.core with deque := x } }
    let mine := q.task = s.ctx.task
    let l := myLaunch s
    let rec4 : List W64 := [readWn s b 0, readWn s b 1, readWn s b 2, readWn s b 3]
    let four (ws : List W64) : List RegWrite :=
      [.gpr d (wordAt ws 0), .gpr (BitVec.ofNat 4 (d.toNat + 1)) (wordAt ws 1), .gpr (BitVec.ofNat 4 (d.toNat + 2)) (wordAt ws 2),
       .gpr (BitVec.ofNat 4 (d.toNat + 3)) (wordAt ws 3)]
    let room := if ¬ mine ∧ q.recs ≠ [] then 0 else 64 - q.recs.length
    let wp := withPriority p (readW s d)
    let w := if mMode wp = 2 then setBits wp 60 1 1 else wp
    let w0 := if mMode w = 3 then fillHome s (destClean w) (readW s b) else destClean w
    let mE : Msg := myMsg s w0 (readW s a) (payload s b 8) none (mMode w == 2) 0
    let lost := mMode w = 4 ∧ noSubgroup l (mCode w) = true
    let okDest := destOk s l w (readW s a) 8 false false (readW s b) = true
    let cr := toBit (mPri w)
    let reserving (slot : Nat) : State :=
      let s1 := takeCredit cr { s with core := { s.core with reserve := s.core.reserve ++ [(slot, s.ctx.task)] } }
      { s1 with ctx := { s1.ctx with m2wait := s1.ctx.m2wait + toBit (mMode w == 2) } }
    (exec (.evarm sw a b) s = .next (issued sw [] (asks (.arm ((readW s b).setWidth 31).toNat)))) ∧
    (ExtendedBy s hs → hs.length ≤ 2 →
      exec (.evsig sw a imm) s = .next (issued sw [] (asks (.sig ((wide hs imm).setWidth 32).toNat)))) ∧
    (s.ctx.got = none → exec (.evread sw d a) s = .next (wait (.eventRead d sw) (asks .read))) ∧
    (∀ v, s.ctx.got = some v → exec (.evread sw d a) s = .next (issued sw [.gpr d v] s)) ∧
    (PriRun s p → lost → Traps (.evsend sw d a b e) s 0x0C (w64 (mCode w))) ∧
    (PriRun s p → ¬ lost → ¬ okDest → exec (.evsend sw d a b e) s = .next (issued sw [.slast 2] s)) ∧
    (PriRun s p → ¬ lost → okDest → mPri w = true → myOwe s + 1 > l.window →
      exec (.evsend sw d a b e) s = .next (issued sw [.slast 3] s)) ∧
    (PriRun s p → ¬ lost → okDest → (mPri w = true → myOwe s + 1 ≤ l.window) →
      (reserveSlot s = none → exec (.evsend sw d a b e) s = .next (issued sw [.slast 1] s)) ∧
      (∀ slot, reserveSlot s = some slot → exec (.evsend sw d a b e) s =
        .next (issued sw [.slast 0] (postEvent (readW s e) (.send mE (some slot)) (reserving slot))))) ∧
    (¬ (¬ mine ∧ q.recs ≠ []) → q.recs.length + q.room < 64 → exec (.pushw sw b) s = .next (issued sw [.slast 0]
      (setQ { q with task := s.ctx.task, recs := rec4 :: q.recs }))) ∧
    ((¬ mine ∧ q.recs ≠ []) ∨ 64 ≤ q.recs.length + q.room → exec (.pushw sw b) s = .next (issued sw [.slast 1] s)) ∧
    (∀ r rest, q.recs = r :: rest → mine → exec (.popw sw d) s = .next (issued sw (four r) (setQ { q with recs := rest }))) ∧
    (q.recs = [] ∨ ¬ mine → exec (.popw sw d) s = .next (issued sw (four []) s)) ∧
    (exec (.dqlen sw d) s = .next (issued sw [.gpr d
      (w64 (q.recs.length + toBit q.pend * 2 ^ 8 + q.last * 2 ^ 16 + q.room * 2 ^ 24))] s)) ∧
    (q.pend = true → exec (.steal sw) s = .next (issued sw [.slast 0] s)) ∧
    (q.pend = false → victimFrom s l q.dir = none ∨ room = 0 →
      exec (.steal sw) s = .next (issued sw [.slast 0] (setQ { q with last := 0 }))) ∧
    (∀ dir k, q.pend = false → victimFrom s l q.dir = some (dir, k) → room ≠ 0 →
      (myOwe s + 1 > l.window → exec (.steal sw) s = .next (issued sw [.slast 3] s)) ∧
      (myOwe s + 1 ≤ l.window → ∃ t, exec (.steal sw) s = .next t ∧ CtxIssued sw [.slast 0] s t ∧
        t.core.deque = { q with task := s.ctx.task, pend := true, thief := s.ctx.task, room := room, dir := (dir + 1) % 4 } ∧
        t.steals = s.steals ++ [{ thief := s.core.id, victim := k, task := s.ctx.task, room := room, recs := [] }] ∧
        t.mem = s.mem))

/-- 06 R136, R144, R145: a GARR of a member with a window credit sends one arrival with its rank in the subgroup; GARRW
also waits and, once the release is held, takes its first word. A code that does not contain the core raises
SUBGROUP with the code. SGRP names the subgroup of a level of 0 to 11 and raises SUBGROUP where the launch has none. -/
def Obligations.GroupArrivals : Prop :=
  ∀ (s : State) (sw : Bool) (d a : BitVec 4) (code : BitVec 11) (lvl : BitVec 13),
    let l := myLaunch s
    let member := s.core.id ∈ subCores l code.toNat
    let arrival (op : Nat) (v pc : W64) (waits : Bool) : Arrival :=
      { task := s.ctx.task, code := code.toNat, op := op, rank := (subCores l code.toNat).idxOf s.core.id, value := v,
        pc := pc, wait := waits, core := s.core.id, ctx := s.ctx.num, inc := s.ctx.inc }
    let arrives (op : Nat) (v pc : W64) (waits : Bool) : State := { s with arrivals := s.arrivals ++ [arrival op v pc waits] }
    let signals (op : Nat) (i : Instr) : Prop :=
      (¬ member → Traps i s 0x0C (w64 code.toNat)) ∧
      (member → myOwe s + 1 > l.window → exec i s = .next (issued sw [.slast 3] s)) ∧
      (member → myOwe s + 1 ≤ l.window →
        exec i s = .next (issued sw [.slast 0] (takeCredit 1 (arrives op (readW s d) (readW s a) false))))
    let joins (op : Nat) (i : Instr) : Prop :=
      (s.ctx.got = none → ¬ member → Traps i s 0x0C (w64 code.toNat)) ∧
      (s.ctx.got = none → member → myOwe s + 1 > l.window → exec i s = .next (issued sw [.slast 3] s)) ∧
      (s.ctx.got = none → member → myOwe s + 1 ≤ l.window → ∃ t, exec i s = .next t ∧
        t.ctx.status = .waiting (.round d sw) ∧ t.ctx.pend = s.ctx.pend ∧ t.ctx.pc = s.ctx.pc ∧ t.ctx.got = some 0 ∧
        t.arrivals = (arrives op (readW s a) 0 true).arrivals ∧ t.mem = s.mem) ∧
      (∀ v h rest, s.ctx.got = some v → heldFor s.core s.ctx true = h :: rest → ∃ t, exec i s = .next t ∧
        CtxIssued sw [.gpr d (wordAt h.q.msg.words 0), .slast 0] s t ∧
        t.core.held = s.core.held.filter (fun x => x != h) ∧ t.mem = s.mem)
    (signals 0 (.garrAnd sw d a code) ∧ signals 1 (.garrOr sw d a code) ∧ signals 2 (.garrAdd sw d a code) ∧
     signals 3 (.garrMaxu sw d a code) ∧ signals 4 (.garrFmax sw d a code) ∧ signals 5 (.garrFmin sw d a code)) ∧
    (joins 0 (.garrwAnd sw d a code) ∧ joins 1 (.garrwOr sw d a code) ∧ joins 2 (.garrwAdd sw d a code) ∧
     joins 3 (.garrwMaxu sw d a code) ∧ joins 4 (.garrwFmax sw d a code) ∧ joins 5 (.garrwFmin sw d a code)) ∧
    (∀ v, subAt l s.core.id lvl.toNat = some v → exec (.sgrp sw d lvl) s = .next (issued sw [.gpr d v] s)) ∧
    (lvl.toNat ≤ 11 → subAt l s.core.id lvl.toNat = none → Traps (.sgrp sw d lvl) s 0x0C (w64 lvl.toNat))

/-- 06 R126, R146, R147: LAUNCH reads its record of 128 bytes and holds the status of the first failing check, TASK in use
among them, with no launch started; an accepted record starts its launch with status 0; a schedule whose read waits for a fault
holds the instruction. KILL leaves alone a task that is not running or, at user level, one of another ASID; otherwise the launch
ends. That LAUNCH waits for the stores of its context and what a failed read of the schedule does are the model's choices
(assumptions 53, 46). -/
def Obligations.LaunchesAndKills : Prop :=
  ∀ (s : State) (sw : Bool) (d a : BitVec 4) (ks : List Nat),
    let va := readW s a
    let bs := ks.map (viewByte s)
    let ws := wordsOf 16 bs
    let l := launchOfRecord ws
    let who : Submitter := { sys := s.ctx.trap.level, asid := s.ctx.trap.asid.toNat, cls := s.ctx.cls.toNat }
    let permits := s.ctx.trap.level = true ∨ (s.ctx.trap.asid.toNat = l.asid ∧ l.cls.toNat ≤ s.ctx.cls.toNat)
    let used := ∃ x ∈ s.launches, x.task = l.task
    let task : BitVec 12 := (readW s a).setWidth 12
    let s0 := releaseFrom s.core.id (sawAt ks s)
    let key : HoldKey := .launch s.core.id s.ctx.num.toNat
    let again (t : State) : State := focus s.core.id s.ctx.num.toNat t
    let holds (n : W64) : Prop := exec (.launch sw d a) s = .next (issued sw [.gpr d n] s0)
    let bare := wordAt ws 11 = 0 ∧ holdOf s key = none
    let fenced := ∃ k ∈ launchCores l, coreFenced s k = true
    let full := ∃ k ∈ launchCores l, allocBase s k l = none
    (va.toNat % 64 = 0 → vaAccel va = s.accel.toNat → mineOut s = [] → pieceKeys s true false (pieces va 128) = .ok ks →
      (∀ k ∈ ks, viewPoison s k 1 = false) →
      (¬ permits → holds 5) ∧ (permits → used → holds 1) ∧ (permits → ¬ used → recordOk s ws l = false → holds 2) ∧
      (permits → ¬ used → recordOk s ws l = true → bare → fenced → holds 3) ∧
      (permits → ¬ used → recordOk s ws l = true → bare → ¬ fenced → full → holds 4) ∧
      (permits → ¬ used → recordOk s ws l = true → bare → ¬ fenced → ¬ full → exec (.launch sw d a) s =
        .next (issued sw [.gpr d 0] (again (startLaunch { l with sched := [] } (wordAt ws 8) (wordAt ws 9) s0)))) ∧
      (∀ n s1, submit key who ws s0 = .status n s1 →
        exec (.launch sw d a) s = .next (issued sw [.gpr d (w64 n)] (again s1))) ∧
      (∀ s1, submit key who ws s0 = .waits s1 → exec (.launch sw d a) s = .next (wait (.held key) (again s1)))) ∧
    (va.toNat % 64 = 0 → mineOut s ≠ [] → exec (.launch sw d a) s = .next (wait (.stores (mineOut s)) s)) ∧
    (launchOf s task = none → exec (.kill sw a) s = .next (issued sw [] s)) ∧
    (∀ x, launchOf s task = some x → x.ending = true ∨ (s.ctx.trap.level = false ∧ x.asid ≠ s.ctx.trap.asid.toNat) →
      exec (.kill sw a) s = .next (issued sw [] s)) ∧
    (∀ x, launchOf s task = some x → x.ending = false → s.ctx.trap.level = true ∨ x.asid = s.ctx.trap.asid.toNat →
      exec (.kill sw a) s = .next (if task = s.ctx.task then endLaunch task s
        else issued sw [] (focus s.core.id s.ctx.num.toNat (endLaunch task s))))

/-- 10 R226 to R231, R237 to R245: the ranked-list instructions complete on every declared list with the results of the
admission rule, which keeps a list sorted and within K; an undeclared list raises RESOURCE with the word. LASTADM 0 for K = 0 and
SAT when a counter just reaches its maximum are the model's choices (assumptions 71, 56). 10 R229, R240, R244, 08 R182: RLST stores the image of a list, RLLD takes one back when its header and entries are legal and
sets BADIMG otherwise, and RLSEND sends it as a bulk payload. That BADDEST holds a core against the part of the sender's module is
the model's choice (assumption 115). -/
def Obligations.RankedListInstructions : Prop :=
  (
   ∀ (s : State) (sw : Bool) (l k : BitVec 2) (d a : BitVec 4) (v u : BitVec 5) (m : BitVec 3) (md : BitVec 3) (kk : BitVec 7),
     let x := readL s l
     let y := readL s k
     let T := (threshold x).1
     let on := (List.range 128).filter (fun j => (readM s m).getLsbD j)
     let val (j : Nat) : W32 := lane 32 (readV s v) j
     let declaredL := l.toNat < s.ctx.nl
     let declaredV (r : BitVec 5) := r.toNat < s.ctx.nv
     let inserts (i : Instr) (ix : Nat → W32) : Prop :=
       let o := offerAll x (on.map (fun j => (val j, ix j)))
       (x.k = 0 → exec i s = .next (listIssued sw [.rladm 0] 0 1 s)) ∧
       (x.k ≠ 0 → exec i s = .next (listIssued sw [.rlist l (o.list x), .rladm (o.ents.countP (fun e => e.2))]
         (if o.nd then 0x20 else 0) (if o.sat then 8 else 0) s)) ∧
       (rankSorted x.ents = true → x.ents.length ≤ x.k →
         rankSorted (o.list x).ents = true ∧ (o.list x).ents.length ≤ x.k ∧ (o.list x).floor = x.floor)
     let kept (j : Nat) : Bool := isNan32 (val j) || !below32 (val j) T
     let lost := on.countP (fun j => !kept j)
     let om := offerAll x y.ents
     let z : RList := { om.list x with nans := min (om.nans + y.nans) 0xFFFF, skips := min (x.skips + y.skips) 0xFFFFFFFF }
     let satM : Bool := om.sat || (0 < y.nans && 0xFFFF ≤ om.nans + y.nans) || (0 < y.skips && 0xFFFFFFFF ≤ x.skips + y.skips)
     let f : W32 := low32 s a
     (declaredL → declaredV v → inserts (.rlins sw l v a m) (fun j => low32 s a + BitVec.ofNat 32 j)) ∧
     (declaredL → declaredV v → declaredV u → inserts (.rlinsx sw l v u m) (fun j => lane 32 (readV s u) j)) ∧
     (declaredL → declaredV v → ∃ M : MaskReg,
       (∀ j < 128, M.getLsbD j = ((readM s m).getLsbD j && kept j)) ∧ exec (.rlprune sw md v l m) s = .next (listIssued sw
         [.rlist l { x with skips := min (x.skips + lost) 0xFFFFFFFF }, .mask md M] 0
         (if 0 < lost ∧ 0xFFFFFFFF ≤ x.skips + lost then 8 else 0) s)) ∧
     (declaredL → k.toNat < s.ctx.nl →
       (x.k = 0 → exec (.rlmerge sw l k) s = .next (listIssued sw [] 0 1 s)) ∧
       (x.k ≠ 0 → exec (.rlmerge sw l k) s = .next (listIssued sw [.rlist l z] 0
         ((if satM then 8 else 0) ||| (if y.k ≠ 0 ∧ y.k < x.k then 4 else 0)) s))) ∧
     (declaredL →
       exec (.rlclr sw l) s = .next (issued sw [.rlist l { RList.fresh with k := x.k }] s) ∧
       exec (.rlinit sw kk l) s = .next (issued sw [.rlist l { RList.fresh with k := kk.toNat }] s) ∧
       exec (.rlthr sw d l) s = .next (issued sw [.gpr d ((threshold x).2 ++ T)] s) ∧
       exec (.rllen sw d l) s = .next (issued sw [.gpr d (imageWord0 x)] s) ∧
       (∀ e, x.ents[(readW s a).toNat]? = some e → exec (.rlget sw d a l) s = .next (issued sw [.gpr d (e.2 ++ e.1)] s)) ∧
       (x.ents.length ≤ (readW s a).toNat →
         exec (.rlget sw d a l) s = .next (issued sw [.gpr d 0xFFFFFFFFFF800000] s)) ∧
       (isNan32 f = true → exec (.rlfloor sw a l) s = .next (listIssued sw [] 0x20 0 s)) ∧
       (isNan32 f = false → exec (.rlfloor sw a l) s = .next (issued sw
         [.rlist l { x with floor := plusZero f, ents := x.ents.filter (fun e => !below32 e.1 f) }] s))) ∧
     (¬ declaredL →
       Traps (.rlins sw l v a m) s 0x0E (wordOf (.rlins sw l v a m)) ∧ Traps (.rlclr sw l) s 0x0E (wordOf (.rlclr sw l)) ∧
       Traps (.rlthr sw d l) s 0x0E (wordOf (.rlthr sw d l)) ∧ Traps (.rlst sw a l) s 0x0E (wordOf (.rlst sw a l)) ∧
       Traps (.rlld sw a l) s 0x0E (wordOf (.rlld sw a l)) ∧ Traps (.rlsend sw d a l) s 0x0E (wordOf (.rlsend sw d a l)))) ∧
  (
   ∀ (s : State) (sw : Bool) (l : BitVec 2) (d a : BitVec 4), l.toNat < s.ctx.nl →
     let x := readL s l
     let o := readW s a
     let img := bytesOf (listImage x)
     let seen := observe o 32 s
     let h := wordsOf 4 (spRead s o 32)
     let n := bits (wordAt h 0) 8 7
     let es := wordsOf n (spRead s (o + 32) (8 * n))
     let w := if mMode (readW s d) = 2 then setBits (readW s d) 60 1 1 else readW s d
     let lost := mMode w = 4 ∧ noSubgroup (myLaunch s) (mCode w) = true
     let okDest := destOk s (myLaunch s) w (readW s a) 0 false true 0 = true
     let cr := toBit (mPri w)
     let m : Msg := myMsg s (destClean w) (readW s a) [] (some (img, bits (readWn s a 1) 0 19)) (mMode w == 2) 0
     let waits (t : State) : State := { t with ctx := { t.ctx with m2wait := t.ctx.m2wait + toBit (mMode w == 2) } }
     img.length = 32 + 8 * x.ents.length ∧
     ((wrapped s o).toNat % 8 ≠ 0 → Traps (.rlst sw a l) s 0x03 (wrapped s o) ∧ Traps (.rlld sw a l) s 0x03 (wrapped s o)) ∧
     ((wrapped s o).toNat % 8 = 0 → img.length ≤ 2 ^ s.ctx.logspad → ∃ t, exec (.rlst sw a l) s = .next t ∧ CtxIssued sw [] s t ∧
       t.mem = s.mem ∧ SpadWritten s t o.toNat img.length (fun j => img.getD j 0)) ∧
     ((wrapped s o).toNat % 8 = 0 → spPoison s o 32 = false → headOk h = false →
       exec (.rlld sw a l) s = .next (listIssued sw [] 0 2 seen)) ∧
     ((wrapped s o).toNat % 8 = 0 → spPoison s o 32 = false → headOk h = true → spPoison s (o + 32) (8 * n) = false →
       (listOfImage h es = none → exec (.rlld sw a l) s = .next (listIssued sw [] 0 2 (observe (o + 32) (8 * n) seen))) ∧
       (∀ z, listOfImage h es = some z →
         exec (.rlld sw a l) s =
           .next (listIssued sw [.rlist l z] 0 (if z.k < x.k then 4 else 0) (observe (o + 32) (8 * n) seen)))) ∧
     (lost → Traps (.rlsend sw d a l) s 0x0C (w64 (mCode w))) ∧
     (¬ lost → ¬ okDest → exec (.rlsend sw d a l) s = .next (issued sw [.slast 2] s)) ∧
     (¬ lost → okDest → myOwe s + cr > (myLaunch s).window → exec (.rlsend sw d a l) s = .next (issued sw [.slast 3] s)) ∧
     (¬ lost → okDest → myOwe s + cr ≤ (myLaunch s).window → s.ctx.status = .ready → outChipFree s.core (mPri w) = true →
       exec (.rlsend sw d a l) s = .next (issued sw [.slast 0] (waits (takeCredit cr (posted m s))))) ∧
     (∀ slots, ¬ lost → okDest → myOwe s + cr ≤ (myLaunch s).window → s.ctx.status = .ready →
       outChipFree s.core (mPri w) = false → outRoom s s.core s.ctx.task (mPri w) img.length = some slots →
       Overflows (.rlsend sw d a l) s slots m (fun t => issued sw [.slast 0] (waits (takeCredit cr t)))) ∧
     (¬ lost → okDest → myOwe s + cr ≤ (myLaunch s).window → outRoom s s.core s.ctx.task (mPri w) img.length = none →
       exec (.rlsend sw d a l) s = .next (issued sw [.slast 1] s)))

/-- 11 R250 to R254, R256, R258, R259, R265, R266, 08 R181: a matrix instruction with legal descriptors, a declared slot and an
aligned completion pair posts its command with what it snapshots; an illegal tile descriptor raises ILLEGAL with the word, and
beside a legal one an illegal completion descriptor raises it with wc. TILEXY, EDGEM, SETE and GETE complete at once. -/
def Obligations.MatrixPosts : Prop :=
  ∀ (s : State) (sw : Bool) (d a b c : BitVec 4) (h f z k : BitVec 1) (n : BitVec 2) (r : BitVec 4) (e : BitVec 3)
    (br : Option (Nat × W64)),
    let A := readW s a
    let B := readW s b
    let two := if h = 1 ∨ f = 1 then readWn s b 1 else 0
    let fine := n.toNat < s.ctx.na ∧ DescOk s c ∧ NamesBarrier s d br
    let slot := slotOf s n
    let ma (gather gb : Bool) : CmdOp := .mma gather gb (f == 1) (h == 1) slot A B two (readE s (tdEidx A))
      (if gb then 0x3F800000 else readE s (tdEidx B))
    let quiet (i : Instr) (op : CmdOp) : Prop :=
      (n.toNat < s.ctx.na → 16 ≤ s.core.matq.length → exec i s = .next (wait (.queue 0) s)) ∧
      (n.toNat < s.ctx.na → s.core.matq.length < 16 →
        exec i s = .next (issued sw [.slast 0] (pushCmd s.core.id 0 (mkCmd s op 0 0 0 (nextNum s.core 0) none) s))) ∧
      (s.ctx.na ≤ n.toNat → Traps i s 0x0E (wordOf i))
    let checked (ok : Bool) (i : Instr) : Prop :=
      (ok = false → wcLegal (readW s c) = true → Traps i s 0x01 (wordOf i)) ∧
      (ok = true → wcLegal (readW s c) = false → Traps i s 0x01 (readW s c))
    let M := (geomA s).toNat % 2 ^ 32
    let N := (geomA s).toNat / 2 ^ 32
    (fine → stepOk false false A B = true → TileAligned A → TileAligned B →
      PostsTo (.mma sw d a b c 0 h f n) s sw d c 0 (ma false false) 0 br) ∧
    (fine → stepOk true false A B = true → TileAligned A → TileAligned B →
      PostsTo (.mmag sw d a b c 0 h f n) s sw d c 0 (ma true false) 0 br) ∧
    (fine → stepOk false true A B = true → TileAligned A → B.toNat % 4096 = 0 → vaAccel B = s.accel.toNat →
      PostsTo (.mma sw d a b c 1 h f n) s sw d c 0 (ma false true) 0 br) ∧
    (fine → stepOk true true A B = true → TileAligned A → B.toNat % 4096 = 0 → vaAccel B = s.accel.toNat →
      PostsTo (.mmag sw d a b c 1 h f n) s sw d c 0 (ma true true) 0 br) ∧
    (∀ q : BitVec 1, checked (stepOk false (q == 1) A B) (.mma sw d a b c q h f n) ∧
      checked (stepOk true (q == 1) A B) (.mmag sw d a b c q h f n)) ∧
    (fine → mmrOk A = true → TileAligned A → PostsTo (.mmr sw d a c z k n) s sw d c 0
      (.mmr (k == 1) (z == 1) slot A (readE s (tdEidx A)) (edgeWord s)) 0 br) ∧
    (fine → mmrlOk A = true → TileAligned A →
      PostsTo (.mmrl sw d a c z k n) s sw d c 0 (.mmrl (k == 1) (z == 1) slot A (edgeWord s)) 0 br) ∧
    checked (mmrOk A) (.mmr sw d a c z k n) ∧ checked (mmrlOk A) (.mmrl sw d a c z k n) ∧
    quiet (.mmz sw n) (.mmz slot) ∧ quiet (.mmrank sw r n) (.mmrank slot (r.toNat + 1)) ∧
    exec (.tilexy sw d) s = .next (issued sw [.gpr d (w64 (relY s + relX s * 2 ^ 8 +
      (if 32 * relY s < M ∧ 32 * relX s < N then 2 ^ 16 else 0)))] s) ∧
    (∃ v : W64, exec (.edgem sw d) s = .next (issued sw [.gpr d v] s) ∧
      ∀ i < 32, (v.getLsbD i = decide (32 * relY s + i < M)) ∧ (v.getLsbD (32 + i) = decide (32 * relX s + i < N))) ∧
    exec (.sete sw a e) s = .next (issued sw [.ereg e (low32 s a)] s) ∧
    exec (.gete sw d e) s = .next (issued sw [.gpr d ((readE s e).zeroExtend 64)] s)

/-- 12 R270 to R288: a copy-engine instruction with a legal control word, aligned operands on this module and an aligned
completion pair posts its command; an illegal control word beside a legal completion descriptor raises ILLEGAL, and so does an
illegal completion descriptor beside a legal control word, with wc; a global side elsewhere raises REMOTE. 12 R290, R291: SCHADV raises STAGE once and completes when no due entry is left; CSEAL closes a batch at the highest
number of the COPY timeline, and CWAITN completes while at most `imm` batches are unfinished, acquiring the effects of the
finished ones. -/
def Obligations.CopyInstructions : Prop :=
  (
   ∀ (s : State) (sw : Bool) (d a b c : BitVec 4) (z : BitVec 1),
     let D := readW s d
     let A := readW s a
     let B := readW s b
     let here (v : W64) : Prop := vaAccel v = s.accel.toNat
     let posts (i : Instr) (op : CmdOp) (cr : Nat) : Prop := PostsTo i s sw d c 1 op cr none
     let badWc (i : Instr) : Prop := wcLegal (readW s c) = false → Traps i s 0x01 (readW s c)
     let dec := ctlDec B
     let red (i : Instr) (isMax slice : Bool) : Prop :=
       (credOk slice B = true → DescOk s c → D.toNat % 32 = 0 → (wrapped s A).toNat % redSrcBytes (redStype B) = 0 →
         posts i (.cred isMax slice D A B) 0) ∧
       (credOk slice B = false → wcLegal (readW s c) = true → Traps i s 0x01 (wordOf i)) ∧
       (credOk slice B = true → badWc i)
     let off : W64 := w64 (bits D 0 19)
     let atom (op : Nat) (wide : Bool) (i : Instr) : Prop :=
       DescOk s c → A.toNat % (if wide then 8 else 4) = 0 → (wrapped s off).toNat % 8 = 0 →
         posts i (.catom op wide off A B (if op = 10 then readWn s b 1 else 0)) 8
     let zz : Bool := z == 1
     (cpyCtlOk 0 B = true → DescOk s c → (dec = 0 ∨ (wrapped s D).toNat % decSize dec = 0) → here A →
       posts (.cpyG2l sw d a b c) (.cpy 0 D A B) (ctlLen B)) ∧
     (cpyCtlOk 1 B = true → DescOk s c → here D → posts (.cpyL2g sw d a b c) (.cpy 1 D A B) 0) ∧
     (cpyCtlOk 2 B = true → DescOk s c → here D → here A → posts (.cpyG2g sw d a b c) (.cpy 2 D A B) 0) ∧
     (cpyCtlOk 3 B = true → DescOk s c → posts (.cpyrL sw d a b c) (.cpyr false D A B) (ctlLen B) ∧
       posts (.cpywL sw d a b c) (.cpyw false D A B) 0) ∧
     (cpyCtlOk 3 B = true → DescOk s c → here D → posts (.cpyrG sw d a b c) (.cpyr true D A B) 0) ∧
     (cpyCtlOk 3 B = true → DescOk s c → here A → posts (.cpywG sw d a b c) (.cpyw true D A B) 0) ∧
     (cpyCtlOk 0 B = false → wcLegal (readW s c) = true → Traps (.cpyG2l sw d a b c) s 0x01 B) ∧
     (cpyCtlOk 3 B = true → badWc (.cpyrL sw d a b c) ∧ badWc (.cpyrG sw d a b c) ∧ badWc (.cpywL sw d a b c) ∧
       badWc (.cpywG sw d a b c)) ∧
     (cpyCtlOk 1 B = true → DescOk s c → ¬ here D → Traps (.cpyL2g sw d a b c) s 0x04 D) ∧
     red (.credAdd sw d a b c) false false ∧ red (.credMax sw d a b c) true false ∧
     red (.credAddSlice sw d a b c) false true ∧ red (.credMaxSlice sw d a b c) true true ∧
     atom 0 zz (.catomAdd sw d a b c z) ∧ atom 1 zz (.catomAnd sw d a b c z) ∧ atom 2 zz (.catomOr sw d a b c z) ∧
     atom 3 zz (.catomXor sw d a b c z) ∧ atom 4 zz (.catomMin sw d a b c z) ∧ atom 5 zz (.catomMax sw d a b c z) ∧
     atom 6 zz (.catomMinu sw d a b c z) ∧ atom 7 zz (.catomMaxu sw d a b c z) ∧ atom 8 zz (.catomSwap sw d a b c z) ∧
     atom 9 false (.catomFadd sw d a b c) ∧ atom 10 zz (.catomCas sw d a b c z) ∧
     (zeroIn B [(12, 4), (25, 7), (51, 13)] = true → 1 ≤ cmcLen B → cmcLen B ≤ 256 → DescOk s c → cmcAck B % 32 = 0 →
       vaLoc D % 32 = 0 → posts (.cmc sw d a b c) (.cmc D A B) 32) ∧
     (cstorOk B = true → DescOk s c → posts (.cstorL sw d a b c) (.cstor false D A B) 0) ∧
     (cstorOk B = true → DescOk s c → here D → posts (.cstorG sw d a b c) (.cstor true D A B) 0) ∧
     (cstorOk B = false → wcLegal (readW s c) = true → Traps (.cstorL sw d a b c) s 0x01 (wordOf (.cstorL sw d a b c))) ∧
     (hasDecomp s = true → cdecCtlOk B = true → DescOk s c → A.toNat % 4096 = 0 → here A →
       posts (.cdec sw d a b c) (.cdec off A B) (bits B 0 20)) ∧
     (hasDecomp s = true → DescOk s c → (wrapped s A).toNat % 8 = 0 → posts (.cdtab sw d a c) (.cdtab (bits D 0 2) A) 0) ∧
     (hasDecomp s = false → wcLegal (readW s c) = true → Traps (.cdtab sw d a c) s 0x09 (wordOf (.cdtab sw d a c)))) ∧
  (
   ∀ (s : State) (sw : Bool) (d : BitVec 4) (imm : BitVec 13),
     let k := s.core.id
     let raised := updRes s.ctx.task (fun r => { r with stage := min (r.stage + imm.toNat) 0xFFFF }) s
     let put := postDue k s.ctx.task raised
     let t := s.core.tls.get 0
     let n := s.core.sealed + 1
     (s.ctx.got = none → (myLaunch s).sched = [] → exec (.schadv sw imm) s = .next (issued sw [] raised)) ∧
     (s.ctx.got = none → dueLeft put k s.ctx.task = false → ∃ t, exec (.schadv sw imm) s = .next t ∧ CtxIssued sw [] s t ∧
       t.core.copyq = put.core.copyq ∧ t.mem = s.mem) ∧
     (s.ctx.got = none → dueLeft put k s.ctx.task = true → ∃ t, exec (.schadv sw imm) s = .next t ∧
       t.ctx.status = .waiting (.queue 1) ∧ t.ctx.pend = s.ctx.pend ∧ t.ctx.got = some 0) ∧
     (∀ r, resOf s.core s.ctx.task = some r →
       exec (.schrd sw d) s = .next (issued sw [.gpr d (w64 (r.stage + r.posted * 2 ^ 32))] s)) ∧
     (s.core.batches.length < 64 → exec (.cseal sw d) s = .next (issued sw [.gpr d (w64 (n % 2 ^ 32))]
       { s with core := { s.core with
         sealed := n, batches := if t.issued ≤ t.mark then s.core.batches else s.core.batches ++ [t.issued] } })) ∧
     (64 ≤ s.core.batches.length → exec (.cseal sw d) s = .next (wait (.batches 64) s)) ∧
     (s.core.batches.length ≤ imm.toNat → exec (.cwaitn sw imm) s = .next (issued sw [] (acquireSys s))) ∧
     (imm.toNat < s.core.batches.length → exec (.cwaitn sw imm) s = .next (wait (.batches (imm.toNat + 1)) s)))

/-- 13 R298, R299, R307 to R313, 08 R176, R182: sends, receive buffers and group entries. A send to this module or with a stray bit
gets BADDEST. A buffer joins the queue that its launch has bound or binds, at once, behind the stores that its post releases; that a
VA on die 6 or 7 is outside its limits is the model's choice (assumption 15). An image replaces its group entry when it is
consistent, for the owner or at system level. -/
def Obligations.NetworkInstructions : Prop :=
  ∀ (s : State) (sw : Bool) (d a b c : BitVec 4) (r : BitVec 8),
    let D := readW s d
    let A := readW s a
    let B := readW s b
    let ctl := readWn s a 1
    let sends (i : Instr) (glob : Bool) : Prop :=
      hasNet s = true → DescOk s c → bits B 27 37 = 0 → (glob = true → vaAccel A = s.accel.toNat) →
        (nsendDest s D = true → PostsTo i s sw d c 2 (.nsend glob D A B) 0 none) ∧
        (nsendDest s D = false → exec i s = .next (issued sw [.gpr d 0, .slast 2] s))
    let x := recvQueue s r.toNat
    let mine := x.bound = some s.ctx.task
    let short := wcReply (readW s c) = true ∧ myOwe s + 1 > (myLaunch s).window
    let joined := setRecvQueue r.toNat { x with
      bound := some s.ctx.task, bufs := x.bufs ++ [{ mkBuf s A ctl (readW s c) (readWn s c 1) with after := mineOut s }] } s
    let okBuf := hasNet s = true ∧ DescOk s c ∧ npostOk ctl = true ∧ vaDie A ≤ 5 ∧ A.toNat % 64 = 0 ∧ vaAccel A = s.accel.toNat
    let buf := Instr.npost sw a c r
    let seen := if x.bound = none ∨ mine ∨ s.ctx.trap.level = true then (x.bound.getD 0).toNat * 2 ^ 20 + x.landNum % 2 ^ 32 * 2 ^ 32 else 0
    let g := bits A 0 12
    let e := groupOf s g
    let off := wrapped s D
    let ws := wordsOf 20 (spRead s off 160)
    let mayOwn := s.ctx.trap.level = true ∨ e.owner = s.ctx.trap.asid.toNat
    sends (.nsendG sw d a b c) true ∧ sends (.nsendL sw d a b c) false ∧
    (okBuf → short → exec buf s = .next (issued sw [.slast 3] s)) ∧
    (okBuf → ¬ short → (∃ t, x.bound = some t ∧ t ≠ s.ctx.task) → exec buf s = .next (issued sw [.slast 5] s)) ∧
    (okBuf → ¬ short → (mine ∨ x.bound = none) → 64 ≤ x.bufs.length → exec buf s = .next (issued sw [.slast 1] s)) ∧
    (okBuf → ¬ short → (mine ∨ x.bound = none) → x.bufs.length < 64 →
      exec buf s = .next (issued sw [.slast 0] (if wcReply (readW s c) = true then takeCredit 1 joined else joined))) ∧
    (hasNet s = true → exec (.nrqstat sw d r) s = .next (issued sw [.gpr d (w64 (x.bufs.length + toBit x.bound.isSome * 2 ^ 7 +
      (if mine then 2 ^ 8 else 0) + seen))] s)) ∧
    (hasNet s = false → Traps (.nrqstat sw d r) s 0x09 (wordOf (.nrqstat sw d r))) ∧
    (¬ mayOwn → Traps (.grpset sw d a) s 0x02 (wordOf (.grpset sw d a))) ∧
    (mayOwn → off.toNat % 8 = 0 → spPoison s off 160 = false →
      (imageOk g ws = true →
        exec (.grpset sw d a) s = .next (issued sw [.slast 0] (setGroup g { e with words := ws } (observe off 160 s)))) ∧
      (imageOk g ws = false → exec (.grpset sw d a) s = .next (issued sw [.slast 5] (observe off 160 s)))) ∧
    (s.ctx.trap.level = false → Traps (.grpsetOwn sw d a) s 0x02 (wordOf (.grpsetOwn sw d a))) ∧
    (s.ctx.trap.level = true →
      exec (.grpsetOwn sw d a) s = .next (issued sw [] (setGroup g { e with owner := bits D 0 16 } s))) ∧
    exec (.grpget sw d a) s = .next (issued sw [.gpr d (w64 (bits (wordAt e.words 0) 0 42 +
      toBit (grpMember e (bits A 16 10)) * 2 ^ 42))] s)

/-- 14 R336 to R343: the routing instructions and their statuses: BADARG, NOCFG, BUSY, BADCFG and NOENTRY leave all as it was;
otherwise the command is posted, the configuration taken, or the entry's event applied by the die's ingress. That RTCFG waits for
the stores of its context, that ERTQ writes 0 beside a failing status, and the read of the map by NGRP entries are the model's
choices (assumptions 53, 16, 82). -/
def Obligations.RoutingInstructions : Prop :=
  ∀ (s s1 : State) (sw : Bool) (d a b : BitVec 4), hasRouting s = true →
    let A := readW s a
    let B := readW s b
    let k := myDie s
    let r := routeOf s k
    let holds (i : Instr) (ws : List RegWrite) : Prop := exec i s = .next (issued sw ws s)
    let posted (i : Instr) (op : CmdOp) : Prop :=
      (routesMine s = false → holds i [.rtlast 1]) ∧
      (routesMine s = true → 16 ≤ s.core.routeq.length → exec i s = .next (wait (.queue 3) s)) ∧
      (routesMine s = true → s.core.routeq.length < 16 → exec i s = .next (issued sw [.rtlast 0]
        (pushCmd s.core.id 3 (mkCmd s op 0 0 0 (nextNum s.core 3) none) s)))
    let off := wrapped s A
    let busy := (∃ c, r.cfg = some c ∧ c.task ≠ s.ctx.task) ∨ (r.cfg ≠ none ∧ routeBusy r = true)
    let record (ks : List Nat) : Prop := A.toNat % 64 = 0 ∧ vaAccel A = s.accel.toNat ∧
      pieceKeys s true false (pieces A 128) = .ok ks ∧ ∀ q ∈ ks, viewPoison s q 1 = false
    let words (ks : List Nat) := wordsOf 16 (ks.map (viewByte s))
    let read (ks : List Nat) : State := releaseFrom s.core.id (sawAt ks s)
    let free := r.pend = [] ∧ holdOf s (.place k) = none
    let event (i : Instr) (argOk : Prop) (e : Nat) (m : Ing → RegM Nat) : Prop :=
      (¬ argOk → holds i [.rtlast 2]) ∧
      (argOk → ingOf s k = none → holds i [.rtlast 1]) ∧
      (∀ x, argOk → ingOf s k = some x → e ∉ x.cfg.homed → holds i [.rtlast 5]) ∧
      (∀ x code, argOk → ingOf s k = some x → e ∈ x.cfg.homed → r.pend = [] →
        runRegion (.place k) x.l none 3 (m x) s = (s1, some code) → exec i s = .next (issued sw [.rtlast code] s1))
    let e := bits A 0 16
    let badQ := bits A 20 44 ≠ 0 ∨ (if bit A 16 = true then e ≠ 0 else bits A 17 3 ≠ 0)
    let H := readW s d
    let handed := if bits H 48 16 = 0 then heldDie s (bits H 0 16) (bits H 16 32) else none
    (off.toNat % 4 = 0 → bits B 34 30 ≠ 0 → holds (.rtgate sw a b) [.rtlast 2]) ∧
    (off.toNat % 4 = 0 → bits B 34 30 = 0 → posted (.rtgate sw a b) (.rtgate off B)) ∧
    (off.toNat % 4 ≠ 0 → Traps (.rtgate sw a b) s 0x03 off) ∧
    posted (.rtflush sw) .rtflush ∧
    (A.toNat % 64 = 0 → busy → holds (.rtcfg sw a) [.rtlast 3]) ∧
    (A.toNat % 64 = 0 → ¬ busy → mineOut s ≠ [] → exec (.rtcfg sw a) s = .next (wait (.stores (mineOut s)) s)) ∧
    (∀ ks, record ks → ¬ busy → mineOut s = [] → free → entryFailed s k (wordAt (words ks) 10) = false →
      cfgFieldsOk s k (words ks) = false → exec (.rtcfg sw a) s = .next (issued sw [.rtlast 4] (read ks))) ∧
    (∀ ks cfg, record ks → ¬ busy → mineOut s = [] → free →
      runRegion (.place k) (myLaunch s) none 3 (checkCfg (myLaunch s) k (words ks)) (read ks) = (s1, some (some cfg)) →
      exec (.rtcfg sw a) s = .next (issued sw [.rtlast 0]
        (updRoute k (fun r => { Route.reset with cfg := some cfg, incoming := r.incoming, old := r.old }) s1))) ∧
    (∀ ks, record ks → ¬ busy → mineOut s = [] → free →
      runRegion (.place k) (myLaunch s) none 3 (checkCfg (myLaunch s) k (words ks)) (read ks) = (s1, some none) →
      exec (.rtcfg sw a) s = .next (issued sw [.rtlast 4] s1)) ∧
    (∀ ks, record ks → ¬ busy → mineOut s = [] → entryFailed s k (wordAt (words ks) 10) = true →
      exec (.rtcfg sw a) s = .next (issued sw [.rtlast 4] (unhold (.place k) (read ks)))) ∧
    event (.ertset sw a b) (bits A 18 46 = 0) e (ertsetOp (bits A 16 2) e B) ∧
    event (.ertpin sw a) True A.toNat (pinOp A.toNat) ∧ event (.ertunpin sw a) True A.toNat (unpinOp A.toNat) ∧
    (∀ x ks, bits A 16 48 = 0 → ingOf s k = some x → e ∈ x.cfg.homed → free →
      rangeKeys s (regionReq s x.l none false true) (pieces (ertVa x.cfg e + 8) 8) = .ok ks →
      exec (.ertset sw a b) s = .next (issued sw [.rtlast 0] (perform s (ks.zip (toBytes 8 B.toNat))))) ∧
    (badQ → holds (.ertq sw d a) [.gpr d 0, .rtlast 2]) ∧
    (¬ badQ → ingOf s k = none → holds (.ertq sw d a) [.gpr d 0, .rtlast 1]) ∧
    (∀ x, ¬ badQ → ingOf s k = some x →
      (bit A 16 = true → ∀ n : Fin 8, n.val = bits A 17 3 → holds (.ertq sw d a) [.gpr d (r.counters.get n), .rtlast 0]) ∧
      (bit A 16 = false → e ∉ x.cfg.homed → holds (.ertq sw d a) [.gpr d 0, .rtlast 5]) ∧
      (∀ w, bit A 16 = false → e ∈ x.cfg.homed → r.pend = [] → runRegion (.place k) x.l none 3 (ertRead x e) s = (s1, some w) →
        exec (.ertq sw d a) s = .next (issued sw [.gpr d w, .rtlast 0] s1))) ∧
    (handed = none → holds (.rtbuf sw d) [.gpr d (BitVec.allOnes 64), .rtlast 2]) ∧
    (∀ q x n, handed = some q → ingOf s q = some x → (routeOf s q).pend = [] →
      runRegion (.place q) x.l none 3 (releaseBuf x (bits H 0 16)) s = (s1, some n) →
      exec (.rtbuf sw d) s = .next (issued sw [.gpr d (w64 n), .rtlast 0] s1))

/-- 15 R370 to R373, 08 R190 at system level: TLBGEN raises the generation of an ASID on every Retort and completes with the earlier
stores performed and visible on every die, TLBPROBE reads the leaf, FLTRES resolves a fault and makes its framed activations
restorable, CTXSAVE stores the frame of a held context and CTXREST ignores a frame of no activation. That TLBGEN waits for every
store of the module, that FLTRES waits for those of its context, what CTXREST compares, and that naming the issuing context is an
operand check with read_w(a) in TRAPV are the model's choices (assumptions 47, 53, 17, 141). -/
def Obligations.SystemInstructions : Prop :=
  ∀ (s : State) (sw : Bool) (d a : BitVec 4) (ks : List Nat), s.ctx.trap.level = true →
    let v := readW s a
    let raised : State := { s with retorts := s.retorts.map (raiseGen v.toNat) }
    let n := bits v 0 4
    let va := v &&& ~~~1023
    let x := ctxOf s s.core.id n
    let named := bits v 4 6 = 0 ∧ n ≠ s.ctx.num.toNat
    let ret := bits v 18 3
    let fid := bits v 0 16
    let fails : Bool := bits v 16 2 == 1
    (v.toNat < 2 ^ 16 → s.ctx.got = none → allStoresDone s = true → exec (.tlbgen sw a) s = .next (issued sw []
      (releaseFrom s.core.id raised))) ∧
    (∀ (r : Retort) (i j : Nat), genOf (raiseGen i r) j = if j = i then (genOf r i + 1) % 2 ^ 32 else genOf r j) ∧
    (2 ^ 16 ≤ v.toNat → Traps (.tlbgen sw a) s 0x01 v) ∧
    (v.toNat < 2 ^ 16 → s.ctx.got = none → allStoresDone s = false → ∃ t, exec (.tlbgen sw a) s = .next t ∧
      t.ctx.status = .waiting .allStores ∧ t.retorts = raised.retorts ∧ t.ctx.got = some 0) ∧
    (vaAccel v = s.accel.toNat → exec (.tlbprobe sw d a) s = .next (issued sw [.gpr d (probe s v)] s)) ∧
    (vaAccel v ≠ s.accel.toNat → Traps (.tlbprobe sw d a) s 0x04 v) ∧
    (bits v 21 43 = 0 → bits v 16 2 ≤ 1 → ret ≤ 5 → mineOut s ≠ [] → exec (.fltres sw a) s = .next (wait (.stores (mineOut s)) s)) ∧
    (bits v 21 43 = 0 → bits v 16 2 ≤ 1 → ret ≤ 5 → mineOut s = [] →
      ((∀ f ∈ (retortOf s ret).faults, f.fid ≠ fid) → exec (.fltres sw a) s = .next (issued sw [] (releaseFrom s.core.id s))) ∧
      ((∃ f ∈ (retortOf s ret).faults, f.fid = fid) → ∃ t, exec (.fltres sw a) s = .next t ∧
        t.core.parked = s.core.parked.map (wakeFramed ret fid fails))) ∧
    (¬ (bits v 21 43 = 0 ∧ bits v 16 2 ≤ 1 ∧ ret ≤ 5) → Traps (.fltres sw a) s 0x01 v) ∧
    (named → ctxHeld s n = false → exec (.ctxsave sw a) s = .next (wait (.stopped n) s) ∧
      exec (.ctxrest sw a) s = .next (wait (.stopped n) s)) ∧
    (¬ named → Traps (.ctxsave sw a) s 0x01 v ∧ Traps (.ctxrest sw a) s 0x01 v) ∧
    (named → x.status = .free → vaAccel va = s.accel.toNat → pieceKeys s false true (pieces va 1024) = .ok ks →
      exec (.ctxsave sw a) s = .next (issued sw [] (storeGlobal (ks.zip (List.replicate 1024 0)) s))) ∧
    (named → ctxHeld s n = true → x.status ≠ .free → vaAccel va = s.accel.toNat →
      pieceKeys s false true (pieces va (frameBytes s x).length) = .ok ks →
      exec (.ctxsave sw a) s = .next (issued sw [] (storeGlobal (ks.zip (frameBytes s x)) s))) ∧
    (named → ctxHeld s n = true → vaAccel va = s.accel.toNat → pieceKeys s true false (pieces va (frameLen x)) = .ok ks →
      (∀ k ∈ ks, viewPoison s k 1 = false) →
      (let s0 := sawAt ks s
       exec (.ctxrest sw a) s = .next (issued sw [] (updCtx s.core.id n (restoreCtx s0 (ks.map (viewByte s)))
        { s0 with core := { s0.core with reuse := s0.core.reuse.filter (fun p => p.ctx.toNat != n) } }))) ∧
      (frameMatches (ks.map (viewByte s)) x = false → restoreCtx s (ks.map (viewByte s)) x = x))

/-- 03 R45, 05 R120, 07 R170, 08 R174, R175, 09 R199, 15 R356, R357, R362 to R365: the steps of a core besides its
instructions. Each is taken whenever its condition holds. The order in which pipes grant, the choice of stores, and the transit of
stores to other dies with its order are the model's choices (assumptions 7, 52, 54, 128). -/
def Obligations.CoreEvents : Prop :=
  ∀ (s : State) (k c x : Nat) (task : Nat) (w : W32),
    let core := coreOf s k
    let cx := ctxOf s k c
    let timeUp := s.ctx.wto ≠ 0 ∧ (∃ t0, s.ctx.since = some t0 ∧ t0 + s.ctx.wto.toNat ≤ s.clk) ∧
      stopped s s.core s.ctx = false
    let idle := (∀ d < 4, (routeOf s d).pend = []) ∧ (∀ l ∈ s.launches, l.errPend = []) ∧ s.tails = []
    (core.vecq ≠ [] → ∀ p, ∃ j ∈ quadCores k, pipeNext s k p = some j ∧ (coreOf s j).vecq ≠ []) ∧
    (∀ p, pipeFor s k = some p → exec (.vectorPipeGrant k) s = .next
      { updCore k vecDone s with pipes := alPut s.pipes (pipeNo k p) ((quadCores k).findIdx (fun j => j == k)) }) ∧
    (vecDone core).vecq = core.vecq.drop 1 ∧
    (cx.status ≠ .free → (∀ d f, cx.status ≠ .parked d f) → stopped s core cx = false → 2 ^ cx.limit ≤ cycOf s cx →
      Happens (.watchdog k c) s (fun t => (ctxOf t k c).status = .free ∧ (ctxOf t k c).inc = cx.inc)) ∧
    (∀ d sw, Focused s k c → s.ctx.status = .waiting (.recvw d sw) → timeUp → heldFor s.core s.ctx false = [] →
      (∀ p ∈ s.core.pulls, ¬ (p.ctx = s.ctx.num ∧ p.inc = s.ctx.inc)) →
      exec (.recvwTimeout k c) s = .next (issued sw [.rstat 3] s)) ∧
    (∀ g key, Focused s k c → s.ctx.status = .waiting (.word g key) → timeUp →
      Happens (.waitwTimeout k c) s (fun t => t.ctx = { s.ctx with status := .ready } ∧ t.mem = s.mem ∧
        (∀ v ∈ t.watches, ¬ (v.core = k ∧ v.ctx = s.ctx.num)) ∧ ∀ v ∈ t.core.watches, v.ctx ≠ s.ctx.num)) ∧
    ((∃ v ∈ s.watches, v.core = k ∧ v.ctx.toNat = c ∧ v.hit = none ∧ v.next ≤ s.clk) →
      exec (.watchPeriodic k c) s = .next { s with watches := s.watches.map (fun v =>
        if v.core == k && v.ctx.toNat == c && v.hit.isNone && v.next ≤ s.clk then
          { wakeWatches s.mem [v.addr] v with next := v.next + 4096 } else v) }) ∧
    (∀ e rest, core.stores = e :: rest → e.num = x →
      (e.die ≠ coreDie k → Happens (.storeBufferDrain k x) s (fun t => (coreOf t k).stores = rest ∧ t.mem = s.mem ∧
        t.transit = s.transit ++ [e])) ∧
      (e.die = coreDie k → mayPerform s core e = true → s.host.watches = [] → Happens (.storeBufferDrain k x) s (fun t =>
        (coreOf t k).stores = rest ∧ Wrote s t e.cells ∧ t.transit = s.transit))) ∧
    (∀ e, s.transit[x]? = some e → (s.transit.take x).any (sameByte e) = false → mayPerform s (coreOf s e.core) e = true →
      s.host.watches = [] →
      Happens (.memoryAgentRequest x) s (fun t => t.transit = s.transit.eraseIdx x ∧ Wrote s t e.cells)) ∧
    (∀ e, s.transit.length ≤ x → lagOn s (x - s.transit.length) = some e →
      exec (.memoryAgentRequest x) s = .next { s with lag := s.lag.set (x - s.transit.length) { e with seen := some s.clk } }) ∧
    (∀ p, core.parked.find? (fun p => p.frame == x) = some p → restorable s k p = true → p.saved.num = p.ctx →
      Happens (.contextRestore k x) s (fun t => (ctxOf t k p.ctx.toNat).status = .ready ∧ t.mem = s.mem ∧
        (ctxOf t k p.ctx.toNat).pc = dwordAt s (frameKey core p.frame + 0x200) ∧
        ∀ q ∈ (coreOf t k).parked, q.frame ≠ x)) ∧
    (∀ v d, v ∈ (retortOf s d).walks.take 256 → d < 6 → d = vaDie v.req.va → idle →
      (retortOf s d).walks.find? (fun y => y.num == v.num) = some v →
      let gone (t : State) : Prop := ∀ y ∈ (retortOf t d).walks, y.num ≠ v.num
      (∀ leaf, walkEnd s v = .leaf leaf → (∀ p ∈ walkersOf s v, permFault p.2 leaf = none) →
        Happens (.walkComplete d v.num) s (fun t => gone t ∧ t.mem = s.mem ∧
          { asid := v.req.asid, gen := v.gen, sub := v.req.sub, die := d, page := pageNo v.req.sub (vaLoc v.req.va),
            leaf := leaf } ∈ (retortOf t d).cache ∧
          ∀ j n q, (Walker.ctx j n, q) ∈ walkersOf s v →
            (ctxOf t j n.toNat).status = .ready ∧ (ctxOf t j n.toNat).xfail = none)) ∧
      (walkEnd s v = .again → Happens (.walkComplete d v.num) s (fun t => gone t ∧ t.mem = s.mem ∧
        (retortOf t d).cache = (retortOf s d).cache ∧ ∀ j n q, (Walker.ctx j n, q) ∈ walkersOf s v →
          (ctxOf t j n.toNat).status = .ready ∧ (ctxOf t j n.toNat).xfail = none)) ∧
      (walkEnd s v = .bad → Happens (.walkComplete d v.num) s (fun t => gone t ∧ t.mem = s.mem ∧
        ∀ j n q, (Walker.ctx j n, q) ∈ walkersOf s v → expired s (ctxOf s j n.toNat) = false →
          (ctxOf t j n.toNat).status = .ready ∧ (ctxOf t j n.toNat).xfail = some q.va)) ∧
      (∀ kind q, walkersOf s v = [(.ctx k s.ctx.num, q)] → judge (walkEnd s v) q = .fault kind → Focused s k c →
        expired s s.ctx = false → firstLook s v (.ctx k s.ctx.num) = false →
        vaDie q.va = d → s.ctx.pend = [] → canFault s v.req v.num = true → freeFrame s.core = none →
        Happens (.walkComplete d v.num) s (fun t => gone t ∧ ∃ fid, t.ctx.status = .parked d fid ∧ t.ctx.fva = some q.va ∧
          t.ctx.pc = instrPc s.ctx ∧ ∃ f ∈ (retortOf t d).faults, f.fid = fid)) ∧
      (lacksRecord s v = true → v.num ∉ (retortOf s d).faultq → exec (.walkComplete d v.num) s =
        .next (setRetort s d { retortOf s d with faultq := (retortOf s d).faultq ++ [v.num] }))) ∧
    Happens (.dbgHalt k) s (fun t => (coreOf t k).regs = { core.regs with halt := true } ∧ OtherCores s t k ∧ t.mem = s.mem) ∧
    Happens (.dbgDrain k task) s (fun t => (coreOf t k).regs = { core.regs with
      drain := true, drained := false, dtask := BitVec.ofNat 12 task } ∧ OtherCores s t k ∧ t.mem = s.mem) ∧
    exec (.illegalWord w true) s = .next { s with ctx := { s.ctx with pc := s.ctx.pc + 4, run := s.ctx.run ++ [w] } }

/-- 05 R96, R99, R100, R102 to R105, R107, R108, R113: messages in the mesh and at the interfaces. An admitted message joins the
queue of its launch, or the ones held for the activation it names; a placed one that is not accepted walks on; control
messages give back what they name. That the reason of a NACK stands in Msg.dst, that the first packet of a bulk message announces
it, whose queue decides on a placed one, and its walk around fenced clusters are the model's choices (assumptions 41, 43, 18, 19,
and 11 for where a walk starts). -/
def Obligations.MessageEvents : Prop :=
  ∀ (s : State) (k x : Nat) (m : Msg) (p : Packet) (site : BitVec 16) (t : Ctl) (f : Flight) (l : Launch) (r : Resident) (u : Pull) (e : OutEnt),
    let task := hTask f.msg.w2
    let at_ := f.at_
    let mode2 := mMode f.msg.w0 == 2
    let admitted (i : Instr) : Prop :=
      (∀ high dem, launchOf s task = some l → resAt s at_ task = some r → f.org ≠ .steal →
        storeFor (coreOf s at_) l (owedKind f != .none) (mPri f.msg.w0 && mClass f.msg.w0 == 0) mode2 = some (.chip, high, dem) →
        (mode2 = false → Happens i s (fun y => (∀ g ∈ y.flights, g.num ≠ x) ∧ ∃ r', resAt y at_ task = some r' ∧
          (r'.high.map (fun q => q.msg) = r.high.map (fun q => q.msg) ++ (if high then [f.msg] else [])) ∧
          (r'.low.map (fun q => q.msg) = r.low.map (fun q => q.msg) ++ (if high then [] else [f.msg])))) ∧
        (mode2 = true → isLive s at_ (mCtx f.msg.w0) (mInc f.msg.w0) task = true → Happens i s (fun y =>
          (∀ g ∈ y.flights, g.num ≠ x) ∧ (coreOf y at_).held.map (fun h => (h.task, h.ctx.toNat, h.inc.toNat, h.q.msg)) =
            (coreOf s at_).held.map (fun h => (h.task, h.ctx.toNat, h.inc.toNat, h.q.msg)) ++
              [(task, mCtx f.msg.w0, mInc f.msg.w0, f.msg)]))) ∧
      (resAt s at_ task = none → Happens i s (fun y => (∀ g ∈ y.flights, g.num ≠ x) ∧
        (coreOf y at_).regs.stalecnt = (coreOf s at_).regs.stalecnt + 1))
    let arrived := flightOf s x = some f ∧ f.hold ≤ s.clk ∧ behindSlot s f = false
    let pulled := pullFor (coreOf s k) site p = some u ∧ pullOf (coreOf s k) u.num = some u ∧ packetOk u.q.msg p = true ∧
      pullHalted s k u = false
    let ix := hPidx p.w2
    let got := setInsert ix u.got
    let last := got.length = hPcnt u.q.msg.w2 + 1
    let enters (y : State) (n : Msg) : Prop := y.flights.length = s.flights.length + 1 ∧ y.mem = s.mem ∧
      ∃ g ∈ y.flights, g.msg = n ∧ g.hint = mCore m.w0 ∧ g.org = .outside
    let offered := outOf (coreOf s k) x = some e ∧ e.st = .ready ∧ e.slots = [] ∧ heldOn s (.out k x) = false ∧ e.num = x ∧
      storesDone s (coreOf s k) e.after = true ∧ (coreOf s k).out.any (blocks s e) = false ∧
      ∀ g ∈ (coreOf s k).out, g.num < x → offerable s k g = false
    (arrived → f.walks = false → admitted (.admission x)) ∧
    (arrived → f.walks = true → accepts s at_ f = true → admitted (.placedOffer x)) ∧
    (arrived → f.walks = true → accepts s at_ f = false → at_ ≠ f.hint →
      exec (.placedOffer x) s = .next (updFlight x (fun g => { g with at_ := walkNext s g.at_ g.hint }) s)) ∧
    (arrived → f.walks = true → accepts s at_ f = false → at_ = f.hint →
      exec (.placedOffer x) s = .next (updFlight x (fun g => { g with walks := false }) s)) ∧
    (ingressRefused m = true → exec (.ioDieIngress m) s = .next { s with net := { s.net with dropped := s.net.dropped + 1 } }) ∧
    (ingressRefused m = false → hBulk m.w3 = false → Happens (.ioDieIngress m) s (fun y => enters y m)) ∧
    (ingressRefused m = false → hBulk m.w3 = true → partOf s m = none →
      (firstOk m = true → Happens (.ioDieIngress m) s (fun y => enters y (announced m) ∧ y.parts = s.parts ++
        [{ ssite := m.ssite.toNat, key := mKey m.w2, len := hLen m.w3, pcnt := hPcnt m.w2, got := [(hPidx m.w2, m.bulk)],
           closed := false }])) ∧
      (firstOk m = false → exec (.ioDieIngress m) s = .next (countStale (mCore m.w0) s))) ∧
    (pullFor (coreOf s k) site p = none → exec (.bulkPacketArrival k site p) s = .next (countStale k s)) ∧
    (pullFor (coreOf s k) site p = some u → packetOk u.q.msg p = false →
      exec (.bulkPacketArrival k site p) s = .next (countStale k s)) ∧
    (pulled → u.got.contains ix = true → exec (.bulkPacketArrival k site p) s = .next s) ∧
    (pulled → u.got.contains ix = false → ¬ last → Happens (.bulkPacketArrival k site p) s (fun y =>
      pullOf (coreOf y k) u.num = some { u with got := got } ∧ y.mem = s.mem ∧
      ∀ b, resAt s k (hTask u.q.msg.w2) = some b → 8 ≤ b.logspad → ∀ j < p.data.length,
        memGet (coreOf y k).spad (b.base + (u.q.msg.dst.toNat + hPoff p.w3 + j) % 2 ^ b.logspad) = p.data.getD j 0)) ∧
    (pulled → u.got.contains ix = false → last → u.reply = false → (ctxOf s k u.ctx.toNat).status = .pulling u.num →
      Happens (.bulkPacketArrival k site p) s (fun y => (ctxOf y k u.ctx.toNat).status = .ready ∧ pullOf (coreOf y k) u.num = none)) ∧
    (pullOf (coreOf s k) x = some u → u.since + 2 ^ 20 ≤ s.clk → Happens (.reassemblyTimeout k x) s (fun y =>
      pullOf (coreOf y k) x = none ∧ (u.reply = false → (ctxOf y k u.ctx.toNat).status = .free))) ∧
    Happens (.admitMsg t) s (fun y => y.ctls = s.ctls.erase t ∧ y.mem = s.mem ∧
      ∀ a, resAt s t.core t.task = some a →
        (resAt y t.core t.task).map (fun b => b.owe) = some (if t.hi then a.owe - 1 else a.owe)) ∧
    Happens (.retry t) s (fun y => y.ctls = s.ctls.erase t ∧ y.mem = s.mem ∧ (coreOf y t.core).out =
      replaceFirst (fun e => e.ctx == t.ctx && e.inc == t.inc && e.seq == t.seq && (e.st == .offered || e.sent != 0))
        (fun e => { e with st := .bounced s.clk, sent := 0 }) (coreOf s t.core).out) ∧
    (t.req = true → t.core < 2048 → Happens (.nack t) s (fun y => y.ctls = s.ctls.erase t ∧ y.flights.length = s.flights.length + 1 ∧
      ∃ g ∈ y.flights, mClass g.msg.w0 = 4 ∧ g.at_ = t.core ∧ g.msg.dst = BitVec.ofNat 19 t.reason)) ∧
    (t.req = false → (ctxOf s t.core t.ctx.toNat).status ≠ .free → (ctxOf s t.core t.ctx.toNat).inc = t.inc →
      (ctxOf s t.core t.ctx.toNat).task = t.task → Happens (.nack t) s (fun y =>
        (ctxOf y t.core t.ctx.toNat).msg.sstat = lostWord t.reason (ctxOf s t.core t.ctx.toNat).msg.sstat ∧ y.mem = s.mem)) ∧
    (offered → leavesSite s e.msg.w0 = false → leavesPod s e.msg.w0 = false →
      Happens (.outboundOffer k x) s (fun y => y.mem = s.mem ∧
        y.flights.map (fun g => (g.msg, g.hint)) = s.flights.map (fun g => (g.msg, g.hint)) ++
          (targetsOf s e.task e.msg.w0).map (fun c => (e.msg, c)) ∧
        (coreOf y k).out = (coreOf s k).out.map (fun o => if o.num == x then { o with st := .offered } else o))) ∧
    (offered → leavesSite s e.msg.w0 = false → leavesPod s e.msg.w0 = true → upPorts s ≠ [] →
      Happens (.outboundOffer k x) s (fun y => y.mem = s.mem ∧ y.flights = s.flights ∧
        y.egress = s.egress ++ (msgPackets e.msg).map (fun n =>
          .fabric (portOf s (mAccel n.w0) n.w1) { accel := mAccel n.w0, tag := 0, op := .omf n })))

/-- 05 R109 to R112, 06 R130: the fill of an entry word, and the start of the message that the dispatcher chooses: a fresh
incarnation, w0 to w15 from the inline words, the pc behind the entry word, and no trap; a bulk message starts by pulling its
payload. A head with a bad entry word leaves its queue with an error record, and so does one whose entry word is on another
module. -/
def Obligations.EntryAndDispatch : Prop :=
  ∀ (s : State) (k : Nat) (l : Launch) (r r1 : Resident) (pick : Pick) (q : QMsg) (high : Bool) (w : W64) (x : Ctx) (pc : W64),
    let core := coreOf s k
    let task := r.task
    let va := entryVa q.msg
    let seqAfter := if (l.errSeq + 1) % 2 ^ 32 = 0 then 1 else (l.errSeq + 1) % 2 ^ 32
    let refused (t : State) : Prop := (∃ b, resAt t k task = some b ∧ b.low = r.low.erase q ∧ b.high = r.high.erase q) ∧
      (launchOf t task).map (fun y => y.errSeq) = some seqAfter
    let fills := launchOf s task = some l ∧ resOf core task = some r ∧ (∃ p ∈ headsOf r, entryVa p.1.msg = pc) ∧
      entryCached core task pc = none ∧ holdOf s (.entry k pc task) = none ∧ taskHeld s k task = false
    let starts := restorePending s k = false ∧ (∀ a ∈ core.res, badHead s k a = none) ∧ nextResident s k = some r ∧
      r.saved = false ∧ pickAt s k r = some (pick, r1) ∧ pickedMsg r pick = some (q, high) ∧ q.store = .chip ∧
      launchOf s task = some l ∧ entryCached core task va = some w ∧
      (ctxsOf s k).find? (fun y => y.status == .free) = some x
    (∀ ks, fills → vaAccel pc = s.accel.toNat → rangeKeys s (entryReq s l (some k)) [(pc, 8)] = .ok ks →
      (∀ a ∈ ks, a ∉ s.poison) → core.ecache.length ≤ 63 →
      Happens (.entryWordFill k task.toNat pc) s (fun t => t.mem = s.mem ∧
        entryCached (coreOf t k) task pc = some (w64 (ofBytes (ks.map (memGet s.mem)))))) ∧
    (∀ a, fills → vaAccel pc = s.accel.toNat → rangeKeys s (entryReq s l (some k)) [(pc, 8)] = .error (a, .miss) →
      Happens (.entryWordFill k task.toNat pc) s (fun t => heldOn t (.entry k pc task) = true ∧ t.mem = s.mem)) ∧
    (fills → vaAccel pc ≠ s.accel.toNat → headWith s k task pc = some q →
      Happens (.entryWordFill k task.toNat pc) s refused) ∧
    (starts → Happens (.dispatch k) s (fun t =>
      let y := ctxOf t k x.num.toNat
      y.status = (if hBulk q.msg.w3 then .pulling core.outNum else .ready) ∧ y.task = task ∧
      y.pc = (if isCont q.msg then q.msg.w1 else va + 8) ∧
      (∀ j : BitVec 4, y.reg j = wordAt q.msg.words j.toNat) ∧ y.depth = 0 ∧ y.sb = 0 ∧
      y.inc = nextInc core x.num.toNat x.inc ∧ y.trap.intrap = false ∧ y.trap.level = l.firmware ∧
      y.nv = entVregs w ∧ y.nl = entLists w ∧ y.na = entAcc w ∧ y.msg.hdr0 = q.msg.w0 ∧ y.msg.hdr2 = q.msg.w2 ∧
      y.msg.hdr3 = q.msg.w3 ∧ y.run = [] ∧ y.pend = [] ∧ t.mem = s.mem ∧
      ∃ b, resAt t k task = some b ∧ b.low = r1.low ∧ b.high = r1.high)) ∧
    (restorePending s k = false → core.res.findSome? (fun a => (badHead s k a).map (fun b => (a.task, b))) = some (task, q) →
      resOf core task = some r → launchOf s task = some l → Happens (.dispatch k) s refused)

/-- 06 R126 to R128, R131 to R136, R141, R147, 15 R366: the steps of the launch controller, the event and group units, the
deques and the scratchpad regions. The model's choices in it: what needs a region and when it is saved (assumptions 44, 133), a
failed read of the schedule (46), quiescence (81), the end of a drain (83), the class of a host (21), stolen records that come too
late (22), and the seeds' level (23). -/
def Obligations.LaunchEvents : Prop :=
  ∀ (s : State) (k : Nat) (task : BitVec 12) (va : W64) (asid : Nat) (l : Launch) (r : Resident) (ks : List Nat) (z : Steal)
    (a : Arrival) (e : EvReq) (q0 : QMsg),
    let n := task.toNat
    let ws := wordsOf 16 (ks.map (memGet s.mem))
    let rec_ := launchOfRecord ws
    let ended (t : State) : Prop := ∀ y, launchOf t task = some y → y.ending = true
    let read := rangeKeys s (recordReq asid) (pieces va 128) = .ok ks ∧ (∀ q ∈ ks, q ∉ s.poison)
    let seed := wordsOf 20 (ks.map (memGet s.mem))
    let sm := seedMsg s l seed
    let told (c : Nat) : Prop := exec (.hostLaunchSubmit va asid) s = .next { s with egress := s.egress ++ [.hostStatus c] }
    let bare := wordAt ws 11 = 0
    let fenced := ∃ c ∈ launchCores rec_, coreFenced s c = true
    let full := ∃ c ∈ launchCores rec_, allocBase s c rec_ = none
    let victim := (coreOf s z.victim).deque
    let give := if victim.task = z.task then min (victim.recs.length / 2) z.room else 0
    let thief := (coreOf s z.thief).deque
    let own := thief.task = z.task ∨ thief.recs = []
    let joined := joinRound a { s with arrivals := s.arrivals.erase a }
    let nextSeedReady := launchOf s task = some l ∧ l.ending = false ∧ l.doomed = none ∧ l.setup = true ∧
      l.seedNext < l.seedn ∧ l.seedWait = false ∧ holdOf s (.seed task) = none ∧
      rangeKeys s (seedReq l) (pieces (l.seeds + w64 (160 * l.seedNext)) 160) = .ok ks ∧ ∀ q ∈ ks, q ∉ s.poison
    let counted (t : State) : Prop := t.mem = s.mem ∧ (launchOf t task).map (fun y => y.seedNext) = some (l.seedNext + 1)
    let ran (out : List Waiter) (v : W64) (s1 : State) : Prop := eventOk s l e.id = true ∧
      runRegion (.event e.num) l none 0 (evRun l e) (releaseFrom e.core s) = (s1, some (out, v))
    let name (w : Waiter) := (w.task, w.id, w.core, w.ctx, w.inc, w.slot)
    let done (s1 : State) : State := { s1 with evq := s1.evq.filter (fun y => y.num != e.num) }
    let told_ (t : State) : Prop := exec (.eventOp e.num) s = .next t
    (holdOf s (.submit va asid) = none → read →
      (asid ≠ rec_.asid → told 5) ∧
      (asid = rec_.asid → (∃ y ∈ s.launches, y.task = rec_.task) → told 1) ∧
      (asid = rec_.asid → (∀ y ∈ s.launches, y.task ≠ rec_.task) →
        (recordOk s ws rec_ = false → told 2) ∧
        (recordOk s ws rec_ = true → bare → fenced → told 3) ∧
        (recordOk s ws rec_ = true → bare → ¬ fenced → full → told 4) ∧
        (recordOk s ws rec_ = true → bare → ¬ fenced → ¬ full → exec (.hostLaunchSubmit va asid) s =
          .next (hostStatus 0 (startLaunch { rec_ with sched := [] } (wordAt ws 8) (wordAt ws 9) s))))) ∧
    (∀ q, holdOf s (.submit va asid) = none → rangeKeys s (recordReq asid) (pieces va 128) = .error (q, .miss) →
      Happens (.hostLaunchSubmit va asid) s (fun t => heldOn t (.submit va asid) = true ∧ t.mem = s.mem)) ∧
    (launchOf s task = none → exec (.hostKill n) s = .next s) ∧
    Happens (.hostKill n) s ended ∧
    (launchOf s task = some l → l.ending = false → (l.doomed.isSome = true ∨ (l.autoend = true ∧ quiescent s l = true)) →
      Happens (.autoend n) s ended) ∧
    (launchOf s task = some l → l.ending = true → cmdsLeft s l = false →
      Happens (.autoend n) s (fun t => launchOf t task = none)) ∧
    (nextSeedReady → seedOk s l seed = true → leavesSite s sm.w0 = false → leavesPod s sm.w0 = false →
      Happens (.seedSend n) s (fun t => counted t ∧
        t.flights.map (fun g => (g.msg, g.hint)) = s.flights.map (fun g => (g.msg, g.hint)) ++
          (targetsOf s task sm.w0).map (fun c => (sm, c)))) ∧
    (nextSeedReady → seedOk s l seed = false → Happens (.seedSend n) s (fun t => t.flights = s.flights ∧
      (launchOf t task).map (fun y => y.seedNext) = some (l.seedNext + 1))) ∧
    (resAt s k task = some r → r.saved = false → victimStill s k task = true →
      (coreOf s k).res.any (fun y => meets r y && wants s k y) = true → holdOf s (.region k task) = none → launchOf s task = some l →
      rangeKeys s (regionReq s l (some k) false true) (pieces (saveVa l k) (2 ^ r.logspad)) = .ok ks →
      Happens (.scratchpadSave k n) s (fun t => (resAt t k task).map (fun y => y.saved) = some true ∧
        (s.host.watches = [] → Wrote s t (ks.zip (spadRead (coreOf s k) r.base r.logspad 0 (2 ^ r.logspad)))) ∧
        ∀ p, r.base ≤ p → p < r.base + 2 ^ r.logspad → memGet (coreOf t k).spad p = 0)) ∧
    (scratchpadRestoreOn s k n = true → resAt s k task = some r → launchOf s task = some l →
      (r.blank = false → holdOf s (.region k task) = none →
        rangeKeys s (regionReq s l (some k) true false) (pieces (saveVa l k) (2 ^ r.logspad)) = .ok ks → (∀ q ∈ ks, q ∉ s.poison) →
        Happens (.scratchpadRestore k n) s (fun t => (resAt t k task).map (fun y => y.saved) = some false ∧ t.mem = s.mem ∧
          ∀ i < 2 ^ r.logspad, memGet (coreOf t k).spad (r.base + i) = memGet s.mem (ks.getD i 0))) ∧
      (r.blank = true → Happens (.scratchpadRestore k n) s (fun t => (resAt t k task).map (fun y => y.saved) = some false ∧
        t.mem = s.mem ∧ ∀ i < 2 ^ r.logspad, memGet (coreOf t k).spad (r.base + i) = 0))) ∧
    (eventOpOn s e.num = true → s.evq.find? (fun y => y.num == e.num) = some e → launchOf s e.task = some l →
      (∀ s1 out v, ran out v s1 →
        (e.op ≠ .read → told_ (releaseAll e.task e.id out (done s1))) ∧
        (e.op = .read → told_ (releaseAll e.task e.id out (evReply e v (done s1)))) ∧
        (∀ y j, e.op = .send y j → s1.waiters = s.waiters ++
          [{ task := e.task, id := e.id, core := e.core, ctx := e.ctx, inc := e.inc, msg := y, slot := j }]) ∧
        (out = [] ∨ out.map name = (s1.waiters.filter (fun y => y.task == e.task && y.id == e.id)).map name)) ∧
      (eventOk s l e.id = false → Happens (.eventOp e.num) s (fun t => ∀ y ∈ t.evq, y.num ≠ e.num))) ∧
    (∀ out, out ≠ [] → ∀ y ∈ (releaseAll e.task e.id out s).waiters, ¬ (y.task = e.task ∧ y.id = e.id)) ∧
    (z ∈ s.steals → Happens (.stealRequest z) s (fun t => t.steals = s.steals.erase z ∧ t.mem = s.mem ∧
      t.flights.map (fun g => (g.msg, g.at_, g.org)) = s.flights.map (fun g => (g.msg, g.at_, g.org)) ++
        [(stealMsg s z (victim.recs.drop (victim.recs.length - give)), z.thief, .steal)] ∧
      (coreOf t z.victim).deque = { victim with recs := victim.recs.take (victim.recs.length - give) })) ∧
    (∀ s1 m1, answerOf s z = some q0 → launchOf s z.task = some l → storeRead l z.thief true q0 s = (s1, some m1) →
      Happens (.stealAnswer z) s (fun t =>
      (coreOf t z.thief).answers = (coreOf s z.thief).answers.erase q0 ∧ t.mem = s.mem ∧
      (own → (coreOf t z.thief).deque.recs = thief.recs ++ z.recs) ∧ (¬ own → (coreOf t z.thief).deque.recs = thief.recs) ∧
      (coreOf t z.thief).deque.pend = false ∧ (coreOf t z.thief).deque.room = 0 ∧ (coreOf t z.thief).deque.last = z.recs.length)) ∧
    (a ∈ firstArrivals s → launchOf s a.task = none → exec (.groupArrival a) s = .next { s with arrivals := s.arrivals.erase a }) ∧
    (a ∈ firstArrivals s → launchOf s a.task = some l →
      (joined.2.arr.length ≠ (subCores l a.code).length → exec (.groupArrival a) s = .next joined.1) ∧
      (joined.2.arr.length = (subCores l a.code).length → Happens (.groupArrival a) s (fun t =>
        t.mem = s.mem ∧ t.flights.map (fun g => g.at_) = s.flights.map (fun g => g.at_) ++ joined.2.arr.map (fun b => b.core) ∧
        ∀ y ∈ t.rounds, ¬ (y.task = a.task ∧ y.code = a.code ∧ y.num = joined.2.num)))) ∧
    ((coreOf s k).regs.drain = true → (coreOf s k).regs.drained = false → victimIdle s k (coreOf s k).regs.dtask = true →
      heldOn s (.region k (coreOf s k).regs.dtask) = false → resAt s k (coreOf s k).regs.dtask = none →
      Happens (.drainComplete k) s (fun t => (coreOf t k).regs = { (coreOf s k).regs with drained := true } ∧ t.mem = s.mem)) ∧
    (task = (coreOf s k).regs.dtask → (coreOf s k).regs.drain = true → victimIdle s k task = true →
      holdOf s (.region k task) = none → resAt s k task = some r → r.saved = false → r.drained = false → launchOf s task = some l →
      rangeKeys s (regionReq s l (some k) false true) (pieces (saveVa l k) (2 ^ r.logspad)) = .ok ks →
      Happens (.drainComplete k) s (fun t => (coreOf t k).regs.drained = true ∧
        (resAt t k task).map (fun y => (y.saved, y.drained)) = some (true, true)))

/-- 11 R247, R252, R253 to R260, R265, 08 R178, R180, R182: the matrix engine on the command that the arbiter lets issue, and the
completion of any engine's command: it leaves its queue, its number is complete, and signal and credit are made. A step that is
skipped needs no latch and reads no row (11 R257). SAT of a step that ends a list goes to the activation that posted it, in its
context or in its frame (10 R231). The order in which MERR counts errors (rows of A, then of B, then cells), the one step in which
a tile step reads its rows, and how many sectors a read-out writes at a time are the model's choice (assumptions 63, 65, 67
and 4). -/
def Obligations.MatrixEvents : Prop :=
  ∀ (s : State) (k eng num : Nat) (q : Cmd) (gather gb fin bnd clip z : Bool) (n kk : Nat) (a b b1 : W64) (ea eb ed : W32) (edge : W64),
    let c := coreOf s k
    let v := slotAt c n
    let head := headCmd s k 0 = some q ∧ cmdFree s k 0 q = true
    let turn := matTurn s k = some q
    let step := q.op = .mma gather gb fin bnd n a b b1 ea eb
    let burst := Config.burst s.freeNum + 1
    let last (ws : List (Nat × List Byte)) : Prop := (outSectors (outCells ws)).length ≤ q.done + burst
    let x := ctxOf s k q.ctx.toNat
    let saturates (sat : Bool) (y : State) : Prop :=
      (sat = false → y.mem = s.mem) ∧
      (sat = true → x.status ≠ .free → x.inc = q.inc → y.mem = s.mem ∧ ctxOf y k q.ctx.toNat = { x with rlstat := x.rlstat ||| 8 }) ∧
      (sat = true → (x.status = .free ∨ x.inc ≠ q.inc) → s.host.watches = [] →
        ∀ p, c.parked.find? (fun p => p.ctx == q.ctx && p.inc == q.inc) = some p →
          dwordAt y (frameKey c p.frame + 0x288) = dwordAt s (frameKey c p.frame + 0x288) ||| 8)
    let stepped (i : Instr) (fa fb : Nat) (int : Bool) (as bs : List RowRead) : Prop :=
      let errs := stepErrs as bs v.bad
      let v1 : Slot := { v with cells := (stepCells fa fb int as bs v).1, bad := [], int := int, tscA := ea, tscB := eb }
      let fs := finishSlot (bits b1 0 32) (bs.map (fun r => r.ix)) v1
      let ends := fin && v.ranked
      (stepSkips bnd (w32 (bits b1 32 32)) v = true → Happens i s (fun y => Executed y k 0 q.num ∧
        saturates (ends && v.lists.any (fun l => 2 ^ 32 - 1 ≤ l.skips + 1)) y ∧
        slotAt (coreOf y k) n = skipSlot ends { v with mark := true })) ∧
      (stepSkips bnd (w32 (bits b1 32 32)) v = false → Happens i s (fun y => Executed y k 0 q.num ∧
        saturates (ends && fs.2.2) y ∧
        (coreOf y k).spad = c.spad ∧ (coreOf y k).regs.merr = logErrs n errs c.regs.merr ∧
        slotAt (coreOf y k) n = if ends then fs.1 else v1))
    (head → step → gb = true → q.done = 0 → cmdFailed s k 0 q = false →
      (∀ t, gbTile s q (tdFmt a) b = .ok t → Happens (.gbTileArrival k) s (fun y => y.mem = s.mem ∧ (coreOf y k).spad = c.spad ∧
        (coreOf y k).matq = c.matq.map (fun p => if p.num == q.num then { p with done := 1 } else p))) ∧
      (gbTile s q (tdFmt a) b = .error .badfmt → Happens (.gbTileArrival k) s (fun y => Executed y k 0 q.num ∧
        ∀ p ∈ (coreOf y k).matq, p.num = q.num → p.status &&& msBadfmt = msBadfmt))) ∧
    (head → step → gather = true → q.latch = none → stepSkips bnd (w32 (bits b1 32 32)) v = false → (gb = true → q.done = 1) → (∀ kd, stepDepth s q gb a b = some kd →
      Happens (.gatherLatchFill k) s (fun y => y.mem = s.mem ∧ (coreOf y k).spad = c.spad ∧
        (coreOf y k).matq = c.matq.map (fun p => if p.num == q.num then { p with latch := some (gathered c q gb a b kd) } else p)))) ∧
    (turn → step → gb = false → ∀ kd int, stepShape (tdFmt a) (tdFmt b) = some (kd, int) →
      stepped (.tileStep k) (tdFmt a) (tdFmt b) int (operandRows c q Latch.as a kd) (operandRows c q Latch.bs b kd)) ∧
    (turn → step → gb = true → ∀ t, gbTile s q (tdFmt a) b = .ok t → (∀ l, q.latch = some l → l.kd = t.kd) →
      stepped (.tileStep k) (tdFmt a) t.fmt t.int (operandRows c q Latch.as a t.kd) t.rows) ∧
    (turn → q.op = .mmr clip z n a ed edge →
      let ws := ((List.range 32).map (readRowOut v clip a ed edge)).flatMap (fun r => r.1)
      Happens (.matrixReadout k) s (fun y => y.mem = s.mem ∧
        (coreOf y k).spad = (coreOf (writeSectors k q (outCells ws) q.done burst s) k).spad ∧
        (last ws → Executed y k 0 q.num ∧ slotAt (coreOf y k) n =
          if z then { v with cells := [], bad := [], int := false, tscA := 0x3F800000, tscB := 0x3F800000 } else v) ∧
        (¬ last ws → slotAt (coreOf y k) n = v ∧
          (coreOf y k).matq = c.matq.map (fun p => if p.num == q.num then { p with done := q.done + burst } else p)))) ∧
    (turn → q.op = .mmrl clip z n a edge →
      let ws := listOut v clip a edge
      let cleared := { v with lists := v.lists.map (fun l => { l with ents := [], nans := 0, skips := 0 }) }
      (v.ranked = false → Happens (.matrixListReadout k) s (fun y => Executed y k 0 q.num ∧ y.mem = s.mem ∧
        (coreOf y k).spad = c.spad ∧ slotAt (coreOf y k) n = v)) ∧
      (v.ranked = true → Happens (.matrixListReadout k) s (fun y => y.mem = s.mem ∧
        (coreOf y k).spad = (coreOf (writeSectors k q (outCells ws) q.done burst s) k).spad ∧
        (last ws → Executed y k 0 q.num ∧ slotAt (coreOf y k) n = if z then cleared else v) ∧
        (¬ last ws → slotAt (coreOf y k) n = v)))) ∧
    (turn → q.op = .mmz n → Happens (.slotReset k) s (fun y => Executed y k 0 q.num ∧ y.mem = s.mem ∧
      slotAt (coreOf y k) n = { Slot.reset with held := v.held })) ∧
    (turn → q.op = .mmrank n kk → Happens (.slotReset k) s (fun y => Executed y k 0 q.num ∧ y.mem = s.mem ∧
      slotAt (coreOf y k) n = { Slot.reset with
        held := v.held, ranked := true, lists := List.replicate 32 { RList.fresh with k := kk } })) ∧
    (eng < 4 → (c.queue eng).find? (fun p => p.num == num) = some q → q.st = .done → s.launches = [] →
      Happens (.completionActions k eng num) s (fun y => y.mem = s.mem ∧
        (coreOf y k).queue eng = (c.queue eng).filter (fun p => p.num != num) ∧
        (coreOf y k).tls.get (tlIx eng) = (c.tls.get (tlIx eng)).complete num ∧
        (wcSignal q.wc = false → wcCredit q.wc = false → (coreOf y k).spad = c.spad) ∧
        (wcSignal q.wc = true → wcCredit q.wc = false → 3 ≤ q.logspad →
          w64 (ofBytes (spadRead (coreOf y k) q.spbase q.logspad (wcSoff q.wc) 8)) =
            (if wcReply q.wc then w64 num else q.wc1))))

/-- 12 R271 to R278, R285 to R287: copies, drive reads and decompression at the head of a channel. A copy moves whole sectors
in order and ends behind its last one; each other command ends with the status its rule gives, or leaves for the unit that
answers it. A read of a drive takes an entry of its submission queue, whose 64 bytes the rules do not give, and rings its doorbell.
How many sectors a step moves, the 32-byte extent of uncorrectable data, what later commands of a channel wait for, w3 of a
decompression, the size of a remote read and the free bytes of a queue entry are the model's choice (assumptions 4, 87, 94, 92, 95
and 146). -/
def Obligations.CopyEvents : Prop :=
  ∀ (s : State) (k : Nat) (q : Cmd) (kind slot : Nat) (glob : Bool) (dst src ctl lba : W64) (d : Drive) (pa : PageAttr)
    (data scales : List (Byte × Bool)),
    let c := coreOf s k
    let fine := cmdFailed s k 1 q = false
    let len := ctlLen ctl
    let oneSector (x : Nat) : Prop := 0 < len ∧ x % 32 + len ≤ 32 ∧ q.done = 0
    let mark (f : Cmd → Cmd) : List Cmd := c.copyq.map (fun p => if p.num == q.num then f p else p)
    let ended (i : Instr) (st : W64) : Prop := Happens i s (fun y => Executed y k 1 q.num ∧ y.mem = s.mem ∧
      (coreOf y k).copyq = mark (fun p => { p with status := p.status ||| st, st := .done }))
    (copyTurn s k isCpy = some q → fine → q.op = .cpy kind dst src ctl → ctlDec ctl = 0 →
      (len = 0 → ended (.copyExecute k) 0) ∧
      (kind = 0 → oneSector (bits dst 0 19) → len ≤ 2 ^ q.logspad →
        ∀ ks, rangeKeys s (cmdReq q true false) (pieces src len) = .ok ks →
        (∀ x ∈ ks, anyPoison s.poison (x / 32 * 32) 32 = false) → Happens (.copyExecute k) s (fun y =>
          Executed y k 1 q.num ∧ y.mem = s.mem ∧
          spadRead (coreOf y k) q.spbase q.logspad (bits dst 0 19) len = ks.map (memGet s.mem))) ∧
      (kind = 1 → oneSector dst.toNat → s.host.watches = [] →
        ∀ ks, rangeKeys s (cmdReq q false true) (pieces dst len) = .ok ks → Happens (.copyExecute k) s (fun y =>
          Executed y k 1 q.num ∧ Wrote s y (ks.zip (spadRead c q.spbase q.logspad src.toNat len))))) ∧
    (copyTurn s k isCpy = some q → fine → q.op = .cpy 0 dst src ctl → ctlDec ctl ≠ 0 →
      let osize := decSize (ctlDec ctl)
      let n := len / osize
      (0 < n → decSource s q src n (ctlDec ctl) = .error .badfmt → ended (.copyExecute k) csBadfmt) ∧
      (oneSector dst.toNat → len % osize = 0 → len ≤ 2 ^ q.logspad → decSource s q src n (ctlDec ctl) = .ok (pa, data, scales) →
        let es := decElems pa n (ctlDec ctl) osize data scales
        Happens (.copyExecute k) s (fun y => Executed y k 1 q.num ∧ y.mem = s.mem ∧
          spadRead (coreOf y k) q.spbase q.logspad dst.toNat len = es.flatMap (fun e => e.1)))) ∧
    (copyTurn s k isRemote = some q → fine → q.op = .cpyr false dst src ctl → vaAccel src ≠ s.accel.toNat →
      (len = 0 → txsOf s k q.num = [] → ended (.remoteCopyExecute k) 0) ∧
      (let base := bits dst 0 19
       q.done < cuts 128 base len → s.fab.txs.length < 2 ^ 15 → remoteReady s k q true = none →
        let lo := cutAt 128 base len q.done
        let va := src + w64 lo
        Happens (.remoteCopyExecute k) s (fun y => y.mem = s.mem ∧ ∃ x ∈ y.fab.txs, x.accel = vaAccel src ∧ x.core = k ∧ x.cmd = q.num ∧
          x.off = lo ∧ x.op = .read va q.asid (inSub q.spa va) (cutAt 128 base len (q.done + 1) - lo))) ∧
      (∀ x bs, remoteReady s k q true = some x → x.op = .answer bs 0 0 →
        Happens (.remoteCopyExecute k) s (fun y => y.mem = s.mem ∧ (∀ z ∈ y.fab.txs, z.tag ≠ x.tag) ∧
          (bs.length ≤ 2 ^ q.logspad → spadRead (coreOf y k) q.spbase q.logspad (bits dst 0 19 + x.off) bs.length = bs)))) ∧
    (copyTurn s k isRemote = some q → fine → q.op = .cpyw false dst src ctl → vaAccel dst ≠ s.accel.toNat →
      s.fab.txs.length < 2 ^ 15 → remoteReady s k q false = none → q.done < cuts 32 dst.toNat len →
        let lo := cutAt 32 dst.toNat len q.done
        let va := dst + w64 lo
        let bs := spadSector c q (src.toNat + lo) (cutAt 32 dst.toNat len (q.done + 1) - lo)
        Happens (.remoteCopyExecute k) s (fun y => y.mem = s.mem ∧ ∃ x ∈ y.fab.txs, x.accel = vaAccel dst ∧ x.core = k ∧ x.cmd = q.num ∧
          x.off = lo ∧ x.op = .write va q.asid (inSub q.spa va) (plain bs) (bs.any (fun b => b.2))
            (if q.done = 0 then s.fab.xfer else q.xfer) q.done)) ∧
    (copyTurn s k isCstor = some q → q.op = .cstor glob dst lba ctl →
      (fine → driveOf s (cstorDrive ctl) = none → ended (.cstorExecute k) csNodrive) ∧
      (fine → driveOf s (cstorDrive ctl) = some d →
        let n := cstorBlocks ctl * d.block
        (glob = false → 2 ^ q.logspad < n → Happens (.cstorExecute k) s (fun y => Executed y k 1 q.num ∧ y.mem = s.mem ∧
          y.egress = s.egress ∧ ∀ p ∈ (coreOf y k).copyq, p.num = q.num → p.status &&& csToobig = csToobig ∧ p.credit = n)) ∧
        (glob = true → Happens (.cstorExecute k) s (fun y =>
          (coreOf y k).copyq = mark (fun p => { p with st := .away s.host.readNum }) ∧
          (0 < n → n ≤ driveMost d → s.host.watches = [] → (∀ r ∈ s.host.reads, r.handle ≠ d.handle) →
            y.host.readNum = s.host.readNum + 1 ∧
            y.egress = s.egress ++ [.driveRead d.handle lba.toNat n, .doorbell d.handle false ((d.tail + 1) % 256)] ∧
            ∀ a, (a < physKey d.die (d.queue + 64 * d.tail) ∨ physKey d.die (d.queue + 64 * d.tail) + 64 ≤ a) →
              memGet y.mem a = memGet s.mem a))))) ∧
    (copyTurn s k isCdtab = some q → fine → q.op = .cdtab slot src → slot < 4 → (∀ b ∈ spadSector c q src.toNat 288, b.2 = false) →
      Happens (.cdtabExecute k) s (fun y => Executed y k 1 q.num ∧
        (coreOf y k).tabs.get ⟨slot % 4, Nat.mod_lt _ (by decide)⟩ = tableOf ((spadSector c q src.toNat 288).map (fun b => b.1)))) ∧
    (copyTurn s k isCdec = some q → fine → q.op = .cdec dst src ctl →
      (c.tabs.get ⟨bits ctl 20 2 % 4, Nat.mod_lt _ (by decide)⟩ = none → ended (.cdecExecute k) csBadtab) ∧
      (∀ tab, c.tabs.get ⟨bits ctl 20 2 % 4, Nat.mod_lt _ (by decide)⟩ = some tab →
        let m := bits ctl 0 20
        let r := decodeAll tab (fun o n => readSpot s k q (.glob src) o n) m
        0 < m → dst.toNat % 32 + m ≤ 32 → m ≤ 2 ^ q.logspad → q.done = 0 → r.fault = none →
        Happens (.cdecExecute k) s (fun y => Executed y k 1 q.num ∧ y.mem = s.mem ∧
          spadRead (coreOf y k) q.spbase q.logspad dst.toNat r.out.length = r.out ∧
          ∀ p ∈ (coreOf y k).copyq, p.num = q.num →
            p.w2 = w64 r.out.length ∧ p.w3 = w64 r.chunks ∧ p.status &&& r.status = r.status)))

/-- 12 R280 to R284, 13 R300, R301: reductions, remote atomics and multicasts. An element of an arrival-mode reduction is one
read-modify-write; a slice waits at the memory agent until its record is full; a multicast counts one response from
each member. The user level of what an agent does for another unit, POISON for sectors that a line covers only in part, reason 5 at
COUNT 0, the size of a transaction and the line of the issuing module's own membership are the model's choice (assumptions 25, 26,
93, 95 and 139). -/
def Obligations.ReductionsAndMulticast : Prop :=
  ∀ (s : State) (k op x : Nat) (q : Cmd) (isMax wide : Bool) (dst src ctl va v nv : W64) (t : RedMsg) (r : RedRec)
    (ln : CmcLine) (rp : CmcResp) (m : Multicast),
    let c := coreOf s k
    let fine := cmdFailed s k 1 q = false
    let mark (f : Cmd → Cmd) : List Cmd := c.copyq.map (fun p => if p.num == q.num then f p else p)
    let here (x : W64) : Prop := vaAccel x = s.accel.toNat
    let room := s.fab.txs.length < 2 ^ 15
    let away (i : Instr) (n : Nat) : Prop := Happens i s (fun y => y.mem = s.mem ∧
      (coreOf y k).copyq = mark (fun p => { p with st := .away n }))
    let els := redElems c q src.toNat (redNel ctl) (redStype ctl)
    let wid := if redStype ctl = 2 then 8 else 4
    let refused (w : W64) : State := answerRed t.src w t.va { s with redq := s.redq.filter (fun x => x != t) }
    let ending := (∃ l, launchOf s t.task = some l ∧ l.ending = true)
    let contributes := t ∈ s.redq ∧ heldOn s (.red t.va t.task) = false ∧ sliceDue s t = true
    let closes (r : RedRec) : Prop :=
      holdOf s (.red t.va t.task) = none → s.host.watches = [] →
      ∀ ks, rangeKeys s (agentReq r.first.asid r.first.sub false true)
          (pieces t.va (redDstBytes r.first.stype r.first.dtype * r.first.nel)) = .ok ks →
        Happens (.reductionContribution t) s (fun y => Wrote s y (ks.zip (redResult r).1.flatten) ∧
          y.reds = s.reds.filter (fun x => !recIs t x) ∧ y.redq = s.redq.filter (fun x => x != t))
    let cut := lineCut ln
    let counted (c : Multicast) : Prop := c.num = rp.x ∧ c.noAck = false ∧ rp.member ∈ c.members ∧ rp.member ∉ c.pos ∧
      ∀ p ∈ c.neg, p.1 ≠ rp.member
    (copyTurn s k isCred = some q → fine → room → q.op = .cred isMax true dst src ctl → here dst → holdOf s (.cmd k 1 q.num) = none →
      els.any (fun e => e.2) = false →
      away (.credExecute k) 0 ∧ Happens (.credExecute k) s (fun y => ∃ m, y.redq = s.redq ++ [m] ∧ m.va = dst ∧ m.task = q.task ∧
        m.slice = redSlice ctl ∧ m.cnt = redScnt ctl ∧ m.data = els.map (fun e => e.1))) ∧
    (copyTurn s k isCred = some q → fine → room → q.op = .cred isMax false dst src ctl → ¬ here dst →
      els.any (fun e => e.2) = false → away (.credExecute k) 0 ∧ (0 < redNel ctl → Happens (.credExecute k) s (fun y =>
        ∃ x ∈ y.fab.txs, x.accel = vaAccel dst ∧ x.core = k ∧ x.cmd = q.num ∧
          x.op = .reduce dst q.asid (inSub q.spa dst) isMax (redStype ctl) ((els.take 32).map (fun e => e.1)) []))) ∧
    (copyTurn s k isCred = some q → fine → room → q.op = .cred isMax true dst src ctl → ¬ here dst →
      els.any (fun e => e.2) = false → away (.credExecute k) 0 ∧ (0 < redNel ctl → Happens (.credExecute k) s (fun y =>
        ∃ x ∈ y.fab.txs, x.accel = vaAccel dst ∧ x.core = k ∧ x.cmd = q.num ∧ ∃ m, x.op = .slice m ∧ m.va = dst ∧ m.task = q.task ∧
          m.slice = redSlice ctl ∧ m.cnt = redScnt ctl ∧ m.num = s.fab.xfer ∧ m.first = 0 ∧ m.bad = [] ∧
          m.data = (els.take 32).map (fun e => e.1)))) ∧
    (copyTurn s k isCred = some q → fine → room → q.op = .cred isMax false dst src ctl → here dst → redNel ctl = 1 → q.done = 0 →
      s.host.watches = [] → ∀ ks e, rangeKeys s (cmdReq q true true) [(dst, wid)] = .ok ks → els = [e] →
      Happens (.credExecute k) s (fun y => Executed y k 1 q.num ∧ Wrote s y (ks.zip
        (toBytes wid (redCombine isMax (redStype ctl) (w64 (ofBytes (ks.map (memGet s.mem)))) e.1).1.toNat)))) ∧
    (contributes → s.reds.find? (recIs t) = none →
      let fits := t.slice < t.cnt + 1 ∧ s.reds.countP (fun x => vaDie x.va == vaDie t.va) < 64
      (t.cnt + 1 ≤ t.slice → exec (.reductionContribution t) s = .next (refused csBadslice)) ∧
      (t.slice < t.cnt + 1 → 64 ≤ s.reds.countP (fun x => vaDie x.va == vaDie t.va) →
        exec (.reductionContribution t) s = .next (refused csBusy)) ∧
      (fits → t.cnt = 0 → closes { va := t.va, task := t.task, first := t, parts := [t] }) ∧
      (fits → 0 < t.cnt → ending → exec (.reductionContribution t) s = .next (refused csAborted)) ∧
      (fits → 0 < t.cnt → ¬ ending →
        exec (.reductionContribution t) s = .next { s with
          reds := s.reds ++ [{ va := t.va, task := t.task, first := t, parts := [t] }], redq := s.redq.filter (fun x => x != t) })) ∧
    (contributes → s.reds.find? (recIs t) = some r →
      let fits := redMatches t r = true ∧ t.slice < r.first.cnt + 1 ∧ (∀ p ∈ r.parts, p.slice ≠ t.slice)
      (redMatches t r = false → exec (.reductionContribution t) s = .next (refused csMismatch)) ∧
      (redMatches t r = true → r.first.cnt + 1 ≤ t.slice → exec (.reductionContribution t) s = .next (refused csBadslice)) ∧
      (redMatches t r = true → t.slice < r.first.cnt + 1 → (∃ p ∈ r.parts, p.slice = t.slice) →
        exec (.reductionContribution t) s = .next (refused csDupslice)) ∧
      (fits → r.parts.length + 1 = r.first.cnt + 1 → closes { r with parts := r.parts ++ [t] }) ∧
      (fits → r.parts.length + 1 ≠ r.first.cnt + 1 → exec (.reductionContribution t) s = .next { s with
          reds := replaceFirst (recIs t) (fun r => { r with parts := r.parts ++ [t] }) s.reds,
          redq := s.redq.filter (fun x => x != t) })) ∧
    (copyTurn s k isCatom = some q → fine → room → q.op = .catom op wide dst va v nv → here va →
      s.host.watches = [] → ∀ ks, rangeKeys s (cmdReq q true true) [(va, if wide then 8 else 4)] = .ok ks →
      (∀ x ∈ ks, x ∉ s.poison) →
      let old := ofBytes (ks.map (memGet s.mem))
      let n := if wide then 8 else 4
      Happens (.catomExecute k) s (fun y => Executed y k 1 q.num ∧
        (∀ p ∈ (coreOf y k).copyq, p.num = q.num → p.w2 = (if wide then w64 old else sext old 32)) ∧
        (∀ x, x ∉ ks → memGet y.mem x = memGet s.mem x) ∧
        ((atomStore op n old v nv).1 = none → y.mem = s.mem) ∧
        ((∀ x ∈ ks, keyDie x ≠ 6) → ∀ w, (atomStore op n old v nv).1 = some w → Wrote s y (ks.zip (toBytes n w))))) ∧
    (copyTurn s k isCatom = some q → room → q.op = .catom op wide dst va v nv → ¬ here va → fine → away (.catomExecute k) 0) ∧
    (copyTurn s k isCmc = some q → fine → room → q.op = .cmc dst src ctl →
      (grpValid (groupOf s (cmcGroup ctl)) = false → (∀ p ∈ c.copyq, p.num = q.num → p = q) →
        Happens (.cmcExecute k) s (fun y => y.fab = s.fab ∧ y.mem = s.mem ∧ Executed y k 1 q.num)) ∧
      (grpValid (groupOf s (cmcGroup ctl)) = true →
        Happens (.cmcExecute k) s (fun y => y.fab.castNum = s.fab.castNum + 1 ∧ y.mem = s.mem ∧
          (s.accel.toNat ∈ grpMembers (groupOf s (cmcGroup ctl)) → ∃ l ∈ y.fab.lines, l.va = setBits dst 54 10 s.accel.toNat ∧
            l.tag = s.fab.castNum ∧ l.ack = !grpNoAck (groupOf s (cmcGroup ctl)) ∧
            l.data = plain (spadSector c q src.toNat (cmcLen ctl))) ∧
          ((∃ m ∈ grpMembers (groupOf s (cmcGroup ctl)), m ≠ s.accel.toNat) → upPorts s ≠ [] →
            (∀ c ∈ s.fab.casts, c.num ≠ s.fab.castNum) →
            ∃ z, y.fab.txs = s.fab.txs ++ [z] ∧ z.accel = grpSwid (groupOf s (cmcGroup ctl)) ∧ z.off = s.fab.castNum ∧
              ∃ l, z.op = .line l ∧ l.tag = z.tag ∧ l.swid = grpSwid (groupOf s (cmcGroup ctl)) ∧ l.va = dst ∧
                l.data = plain (spadSector c q src.toNat (cmcLen ctl)))))) ∧
    (ln ∈ s.fab.lines → heldOn s (.line ln.src ln.tag) = false → s.host.watches = [] →
      (∀ ks, rangeKeys s (agentReq ln.asid ln.sub false true) (pieces ln.va ln.data.length) = .ok ks →
        (ln.begun = true ∨ mergeBad s ks = false) →
        Happens (.multicastMemberWrite ln) s (fun y => Wrote s y ((ks.take cut).zip (ln.data.take cut)) ∧
          (cut < ln.data.length → y.fab.lines = lineRest ln :: s.fab.lines.erase ln ∧ y.fab.resps = s.fab.resps) ∧
          (ln.data.length ≤ cut → y.fab.lines = s.fab.lines.erase ln ∧
            (ln.ack = true → ln.src = s.accel.toNat → y.fab.resps = s.fab.resps ++ [⟨ln.tag, s.accel.toNat, 0⟩])))) ∧
      (∀ ks, rangeKeys s (agentReq ln.asid ln.sub false true) (pieces ln.va ln.data.length) = .ok ks →
        ln.begun = false → mergeBad s ks = true → Happens (.multicastMemberWrite ln) s (fun y => y.mem = s.mem ∧
          y.fab.lines = s.fab.lines.erase ln ∧
          (ln.ack = true → ln.src = s.accel.toNat → y.fab.resps = s.fab.resps ++ [⟨ln.tag, s.accel.toNat, 2⟩]))) ∧
      (∀ f, rangeKeys s (agentReq ln.asid ln.sub false true) (pieces ln.va ln.data.length) = .error f →
        (f.2 = .miss → holdFailed s (.line ln.src ln.tag) = true) → Happens (.multicastMemberWrite ln) s (fun y => y.mem = s.mem ∧
          y.fab.lines = s.fab.lines.erase ln ∧
          (ln.ack = true → ln.src = s.accel.toNat → y.fab.resps = s.fab.resps ++ [⟨ln.tag, s.accel.toNat, 1⟩])))) ∧
    (rp ∈ s.fab.resps → s.fab.casts = [m] → Happens (.multicastResponse rp) s (fun y => y.mem = s.mem ∧
      y.fab.resps = s.fab.resps.erase rp ∧
      (¬ counted m → m.num ≠ rp.x → y.fab.casts = [m]) ∧
      (counted m → m.pos.length + m.neg.length + 1 = m.members.length → y.fab.casts = []) ∧
      (counted m → m.pos.length + m.neg.length + 1 ≠ m.members.length → rp.reason = 0 →
        y.fab.casts = [{ m with pos := m.pos ++ [rp.member] }]))) ∧
    ((∃ c ∈ s.fab.casts, c.num = x ∧ c.noAck = false ∧ c.since + 2 ^ 22 ≤ s.clk) →
      Happens (.multicastResponseTimeout x) s (fun y => y.mem = s.mem ∧ y.fab.resps = s.fab.resps ∧
        (s.fab.casts = [m] → m.num = x → m.pos = [] → m.neg = [] → y.fab.casts = [] ∧
          (∀ z ∈ y.fab.txs, z ∈ s.fab.txs ∧ (z.off = x → ∀ l, z.op ≠ .line l)) ∧
          ∀ p, (coreOf s m.core).copyq.find? (fun q => q.num == m.cmd) = some p → isCmc p.op = true →
            Executed y m.core 1 m.cmd))) ∧
    (s.fab.casts.find? (fun c => c.num == x) = some m → m.noAck = true → Happens (.switchTierDeparture x) s (fun y =>
      y.mem = s.mem ∧ y.fab.casts = s.fab.casts.filter (fun c => c.num != x) ∧
      (∀ z ∈ y.fab.txs, z ∈ s.fab.txs ∧ (z.off = x → ∀ l, z.op ≠ .line l)) ∧
      ∀ p, (coreOf s m.core).copyq.find? (fun q => q.num == m.cmd) = some p → isCmc p.op = true → Executed y m.core 1 m.cmd))

/-- 13 R294 to R297, R322: transactions of other modules and their answers, the reissue of silent ones, and the health of the
ports. A clean access is made and answered; a sector write waits for the lower sectors of its transfer; an answer for no
open tag changes nothing; a part of a slice contribution waits for the others; a port goes down at its score limit and comes back
with a fresh score, and its rate is reported when it has changed. The number of a transfer and of its sectors, the translation of a
range as a whole, the user level of an agent, the counter of records that reach no die, and that a lost link does not retrain of
itself are the model's choice (assumptions 99, 100, 25, 102 and 101). -/
def Obligations.FabricEvents : Prop :=
  ∀ (s : State) (t : FabTx) (x port asid len xfer ix : Nat) (sub poison ok : Bool) (va : W64) (data : List Byte) (ks : List Nat) (z : Tx)
    (v : W64) (st : Nat) (r : FlitResult) (rm : RedMsg) (tr' : Transfer) (num total pos n : Nat),
    let answered (op : FabOp) (y : State) : Prop :=
      y.egress = s.egress ++ [.fabric (portOf s t.accel va) { accel := t.accel, tag := t.tag, op := op }]
    let free := holdOf s (.fabric t.accel t.tag) = none
    let p := portAt s port
    let open_ := openTx s x = some z
    let up := upPorts s ≠ []
    let tr := xferOf s t.accel xfer
    (free → up → t.op = .read va asid sub len → rangeKeys s (agentReq asid sub true false) (pieces va len) = .ok ks → s.poison = [] →
      Happens (.remoteTransaction t) s (fun y => y.mem = s.mem ∧ answered (.answer (ks.map (sysByte s)) 0 0) y)) ∧
    (t.op = .write va asid sub data poison xfer ix →
      (free → up → tr.refused = false → tr.next = ix → s.host.watches = [] →
        rangeKeys s (agentReq asid sub false true) (pieces va data.length) = .ok ks →
        Happens (.remoteTransaction t) s (fun y => Wrote s y (ks.zip data) ∧ answered (.answer [] 0 0) y ∧
          (xferOf y t.accel xfer).next = ix + 1 ∧ (xferOf y t.accel xfer).refused = false)) ∧
      (up → ix < tr.next → Happens (.remoteTransaction t) s (fun y => y.mem = s.mem ∧ answered (.answer [] 0 0) y)) ∧
      (tr.refused = false → tr.next < ix → exec (.remoteTransaction t) s = .next s) ∧
      (up → tr.refused = true → tr.next ≤ ix → Happens (.remoteTransaction t) s (fun y => y.mem = s.mem ∧
        answered (.answer [] 0 csRemoteerr.toNat) y))) ∧
    (t.op = .answer data v st → openTx s t.tag = none → exec (.remoteTransaction t) s = .next s) ∧
    (t.op = .answer data v st → openTx s t.tag = some z → z.accel = t.accel → z.op = .read va asid sub len →
      Happens (.remoteTransaction t) s (fun y => y.mem = s.mem ∧ y.fab.txs =
        s.fab.txs.map (fun w => if w.tag == z.tag then { w with op := .answer data v st } else w))) ∧
    (open_ → responds z = true → z.since + 2 ^ 20 ≤ s.clk → up → unreachable s z = false →
      Happens (.transactionReissue x) s (fun y => y.mem = s.mem ∧ y.egress =
        s.egress ++ [.fabric (portOf s z.accel (opVa z.op)) { accel := z.accel, tag := z.tag, op := z.op }])) ∧
    (open_ → unreachable s z = true → (∀ a b c d e f, z.op ≠ .tokens a b c d e f) → z.eng ≠ 4 → (∃ q ∈ (coreOf s z.core).copyq, q.num = z.cmd) →
      Happens (.fabricUnreachable x) s (fun y => y.mem = s.mem ∧ Executed y z.core 1 z.cmd)) ∧
    (open_ → unreachable s z = true → z.op = .tokens tr' num ix total pos n → Happens (.fabricUnreachable x) s (fun y =>
      y.mem = s.mem ∧ (routeOf y (tr'.sdie % 4)).counters.get 7 = (routeOf s (tr'.sdie % 4)).counters.get 7 + w64 n ∧
      (∀ w ∈ y.fab.txs, w ∈ s.fab.txs ∧ ofTransfer num w.op = false))) ∧
    (t.op = .slice rm → seenAnswer s t = none → sliceHere s t.accel t.tag = false → slicesOf s t.accel rm.num = [] → rm.first = 0 →
      (rm.data.length < rm.nel → exec (.remoteTransaction t) s = .next { s with fab := { s.fab with pieces := s.fab.pieces ++ [t] } }) ∧
      (rm.nel ≤ rm.data.length → 0 < rm.nel → rm.nel ≤ 32 → Happens (.remoteTransaction t) s (fun y => y.mem = s.mem ∧
        y.redq = s.redq ++ [{ rm with src := .pod t.accel [t.tag] }]))) ∧
    (port < 64 → p.up = true → p.score + flitScore r < 0x4000 →
      exec (.flitArrival port r) s = .next (setPort port { p with score := p.score + flitScore r } s)) ∧
    (port < 64 → p.up = true → 0x4000 ≤ p.score + flitScore r → Happens (.flitArrival port r) s (fun y =>
      (portAt y port).up = false ∧ (portAt y port).retrain = decide (p.rate < 2) ∧
      (portAt y port).rate = (if p.rate < 2 then p.rate + 1 else p.rate))) ∧
    (64 ≤ port ∨ p.up = false → exec (.flitArrival port r) s = .next s ∧ exec (.linkLoss port) s = .next s) ∧
    (s.fab.aged + 2 ^ 24 ≤ s.clk → Happens .healthAgeing s (fun y => y.mem = s.mem ∧
      ∀ n, (portAt y n).score = (portAt s n).score / 2 ∧ (portAt y n).up = (portAt s n).up)) ∧
    (port < 64 → p.retrain = true → ok = true → Happens (.portRetrainComplete port ok) s (fun y =>
      portAt y port = { p with score := 0, was := p.rate, up := true, retrain := false } ∧
      (s.host.eventRing = 0 → y.host.reports =
        s.host.reports ++ .portState port true :: (if p.rate = p.was then [] else [.rate port p.rate])))) ∧
    (port < 64 → p.retrain = true → ok = false →
      exec (.portRetrainComplete port ok) s = .next (setPort port { p with retrain := false } s)) ∧
    (64 ≤ port ∨ p.retrain = false → exec (.portRetrainComplete port ok) s = .next s) ∧
    (port < 64 → p.up = true → Happens (.linkLoss port) s (fun y =>
      portAt y port = { p with up := false, retrain := false }))

/-- 13 R302 to R311: sends, the sequence layer, landings, acknowledgements, closes and timers of the network endpoint. A unit
that is not for the module is discarded and counted; a duplicate is acknowledged again without effect; data lands in
the buffer that its queue holds; a silent packet is offered again sixteen times. A unit of the own site crosses the scale-up fabric
in parts of up to 256 bytes, and has the effect there that it has at a port. The withdrawal of packets of a send that ends, the news
in an acknowledgement, units on the fabric, the count of discarded units and UNREACH without a port are the model's choice
(assumptions 28, 30, 97, 109 and 110). -/
def Obligations.NetworkEvents : Prop :=
  ∀ (s : State) (k x a : Nat) (q : Cmd) (p : SendParts) (u : UeUnit) (m : Msg) (w : Peer) (b : RecvBuf) (rest : List RecvBuf)
    (ks : List Nat) (v : Unacked) (z : Sending) (t n : Nat),
    let own (ty : Nat) := unitFor s ty u = true
    let peer (s : State) := peerOf s u.ssite u.sacc
    let head := netHead s k = some q ∧ sendParts s q.op = some p ∧ cmdFailed s k 2 q = false
    let left (y : State) (e : UeUnit) : Prop := y.egress = s.egress ++
      (if e.dsite ≠ s.site.toNat then [.unit (ueWords e) e]
       else if upPorts s = [] then []
       else (List.range (max 1 ((unitLen e + 255) / 256))).map (fun i => .fabric (portOf s e.dacc 0)
        { accel := e.dacc, tag := 0, op := .unit (unitPart e (256 * i)) s.fab.xfer (256 * i) }))
    let sends (i : Instr) (ty : Nat) (P : UeUnit → Prop) : Prop := Happens i s (fun y => y.mem = s.mem ∧
      ∃ e, left y e ∧ e.ty = ty ∧ P e)
    let opens := (landingOf s u).filter landingOpen = none
    let seen (r : Arrived) : Prop := peer s = some w ∧ arrivedAs w u.seq = r
    let rq := recvQueue s u.rq
    let timer := (waitingUnits s)[x]? = some (w, some v) ∧ unitDue s w (some v) = true
    (head → sendingOf s k q.num = none → p.site ≠ s.site.toNat → bits s.feat 28 4 = 0 → Happens (.netSendExecute k) s (fun y =>
      y.mem = s.mem ∧ Executed y k 2 q.num ∧ ∀ c ∈ (coreOf y k).netq, c.num = q.num → bit c.status 2 = true)) ∧
    (head → sendingOf s k q.num = none → (p.site = s.site.toNat ∨ bits s.feat 28 4 ≠ 0) → peerRoom s p.site p.accel = true →
      q.done = 0 → p.len ≤ 4096 → p.src = .spad a → sends (.netSendExecute k) 1 (fun e => e.dsite = p.site ∧ e.dacc = p.accel ∧
        e.rq = p.rq ∧ e.total = p.len ∧ e.off = 0 ∧ e.sendid = s.net.sendId ∧ e.data = spadRead (coreOf s k) q.spbase q.logspad a p.len)) ∧
    (¬ own 0 → exec (.ueOmfPacket u) s = .next (discardUnit s)) ∧ (¬ own 1 → exec (.ueSendData u) s = .next (discardUnit s)) ∧
    (¬ own 2 → exec (.ueAcknowledgement u) s = .next (discardUnit s)) ∧
    (¬ own 3 → exec (.ueReceiverNotReady u) s = .next (discardUnit s)) ∧ (¬ own 4 → exec (.ueClose u) s = .next (discardUnit s)) ∧
    (¬ own 5 → exec (.ueCloseAnswer u) s = .next (discardUnit s)) ∧
    (own 0 → u.omf = some m → seen .again → sends (.ueOmfPacket u) 2 (fun e => e.seq = w.h ∧ e.dsite = u.ssite ∧ e.dacc = u.sacc)) ∧
    (own 0 → u.omf = some m → seen .fresh → w.got = [] → w.h < 2 ^ 24 → u.seq = (w.h + 1) % 2 ^ 24 →
      sends (.ueOmfPacket u) 2 (fun e => e.seq = u.seq)) ∧
    (own 1 → seen .again → sends (.ueSendData u) 2 (fun e => e.seq = w.h)) ∧
    (own 1 → seen .fresh → opens → headBehind s u.rq = false → rq.bound = none ∨ (rq.bufs = b :: rest ∧ b.ptask ≠ 0xFFF ∧ b.ptask ≠ u.stask.toNat) →
      sends (.ueSendData u) 2 (fun e => ∃ n ∈ e.news, n.sendid = u.sendid ∧ n.status = nsDenied.toNat ∧ n.landed = 0)) ∧
    (own 1 → seen .fresh → opens → rq.bound.isSome = true → rq.bufs = [] →
      sends (.ueSendData u) 3 (fun e => e.sendid = u.sendid ∧ e.dsite = u.ssite ∧ e.dacc = u.sacc)) ∧
    (own 1 → seen .fresh → opens → headBehind s u.rq = false → rq.bound.isSome = true → rq.bufs = b :: rest →
      (b.ptask = 0xFFF ∨ b.ptask = u.stask.toNat) → s.host.watches = [] → holdOf s (.unit u.ssite u.sacc u.seq) = none →
      let n := min (unitLen u) (min u.total b.len)
      u.off = 0 → u.bad = 0 → 0 < n → n ≤ u.data.length → b.va.toNat % 32 + n ≤ 32 → rangeKeys s (landReq b) [(b.va, n)] = .ok ks →
      Happens (.ueSendData u) s (fun y => Wrote s y (ks.zip (u.data.take n)) ∧
        (n = min u.total b.len → wcSignal b.wc = false → wcCredit b.wc = false →
          ∃ l ∈ y.net.landings, l.sendid = u.sendid ∧ l.buf = some b ∧ l.upTo = n ∧ l.lost = 0 ∧
            l.ended = some ((rq.landNum + 1) % 2 ^ 32)))) ∧
    (u.data = [] → u.bad = 0 → s.fab.pieces = [] → u.ty = 2 →
      exec (.remoteTransaction { accel := u.sacc, tag := 0, op := .unit u n 0 }) s = exec (.ueAcknowledgement u) s) ∧
    (own 2 → peer s = none → exec (.ueAcknowledgement u) s = .next s) ∧
    (own 2 → peer s = some w → Happens (.ueAcknowledgement u) s (fun y => y.mem = s.mem ∧
      (peer y).map (fun p => p.unacked) = some (w.unacked.filter (fun k => !covers u.seq k.seq)) ∧
      (z ∈ s.net.sends → z.site = u.ssite → z.accel = u.sacc → z.left = 0 → (∃ c ∈ (coreOf s z.core).netq, c.num = z.cmd) →
        (∀ k ∈ w.unacked, k.pkt.ty = 1 → k.core = z.core → k.cmd = z.cmd → covers u.seq k.seq = true) → Executed y z.core 2 z.cmd))) ∧
    (own 3 → Happens (.ueReceiverNotReady u) s (fun y => y.mem = s.mem ∧ y.egress = s.egress ∧
      ((∃ e ∈ s.net.sends, e.site = u.ssite ∧ e.accel = u.sacc ∧ e.id = u.sendid) →
        ∃ e ∈ y.net.sends, e.id = u.sendid ∧ e.rnr.isSome = true ∧ e.first.isSome = true))) ∧
    (own 4 → peer s = none → sends (.ueClose u) 5 (fun e => e.refuse = false ∧ e.dsite = u.ssite ∧ e.dacc = u.sacc)) ∧
    (own 4 → peer s = some w → ((w.h + 1) % 2 ^ 24 = u.seq ∧ w.unacked = []) →
      Happens (.ueClose u) s (fun y => peer y = none ∧ ∃ e, left y e ∧ e.ty = 5 ∧ e.refuse = false)) ∧
    (own 4 → peer s = some w → ¬ ((w.h + 1) % 2 ^ 24 = u.seq ∧ w.unacked = []) →
      Happens (.ueClose u) s (fun y => (peer y).isSome = true ∧ ∃ e, left y e ∧ e.ty = 5 ∧ e.refuse = true)) ∧
    (own 5 → peer s = some w → w.closing.isSome = true → u.refuse = false →
      Happens (.ueCloseAnswer u) s (fun y => peer y = none ∧ y.mem = s.mem)) ∧
    (own 5 → (∀ w, peer s = some w → w.closing = none) → exec (.ueCloseAnswer u) s = .next s) ∧
    (timer → v.tries < 16 → sends (.ueRetransmit x) v.pkt.ty (fun e => e.seq = v.pkt.seq ∧ e.data = v.pkt.data ∧
      e.path = (v.pkt.path + 1) % 16)) ∧
    (timer → 16 ≤ v.tries → v.pkt.ty = 1 → sendOfPacket s v = some z → Happens (.ueRetransmit x) s (fun y => y.mem = s.mem ∧
      y.egress = s.egress ∧ ∀ e ∈ y.net.sends, ¬ (e.core = z.core ∧ e.cmd = z.cmd))) ∧
    ((waitingUnits s)[x]? = some (w, none) → w.closing = some (t, n) → t + retryAfter w ≤ s.clk → n < 16 →
      sends (.ueRetransmit x) 4 (fun e => e.seq = w.next ∧ e.dsite = w.site ∧ e.dacc = w.accel)) ∧
    (s.net.sends[x]? = some z → z.rnr = some t → t + 4096 ≤ s.clk → (peerOf s z.site z.accel).isSome = true →
      (∀ v ∈ unackedOf s z, v.pkt.dsite ≠ s.site.toNat ∨ (upPorts s ≠ [] ∧ unitLen v.pkt ≤ 256)) →
      Happens (.ueRnrReoffer x) s (fun y => y.mem = s.mem ∧ y.egress.length = s.egress.length + (unackedOf s z).length)) ∧
    (s.net.sends[x]? = some z → z.rnr.isSome = true → z.first = some t → t + 2 ^ 24 ≤ s.clk →
      Happens (.ueNobufTimeout x) s (fun y => y.mem = s.mem ∧ (∀ e ∈ y.net.sends, ¬ (e.core = z.core ∧ e.cmd = z.cmd)) ∧
        ∀ c ∈ (coreOf y z.core).netq, c.num = z.cmd → c.st = .done ∧ bit c.status 3 = true))

/-- 14 R320 to R332, R344, 12 R285: the source side, the ingress, the fetches of a routing engine, and the completions of drive
reads. Records join the list of their group's home die; lists leave as transfers; an intake takes one record at a time;
a buffer is handed out once; a fetch makes its entry resident, or absent again. The counter of records that reach no die, commands
behind an RTFLUSH, the faults of an ingress, the hand-out of a buffer with its fetch and the bytes of a drive's queues are the model's
choice (assumptions 102, 105, 107, 136 and 146). -/
def Obligations.RoutingEvents : Prop :=
  ∀ (s s1 s2 : State) (k die x e g i j : Nat) (es : List Nat) (q : Cmd) (off tok w v : W64) (a : Ing) (l : SendList) (t : Transfer)
    (rest : List Transfer) (rec : TokRec) (f : Fetch) (bs data : List Byte) (rd : DriveRead) (status : Nat) (c : Cmd)
    (dst lba ctl : W64),
    let r := routeOf s die
    let cmd := routeHead s k = some q ∧ cmdFree s k 3 q = true
    let row := gateRow s k q off (bits (cfgW a.cfg 0) 0 10)
    let lists (y : State) := (routeOf y die).lists
    let bare (t : Transfer) : Transfer := { t with recs := t.recs.map (fun r => { r with spa := [], row := [] }) }
    let away (y : State) : Prop := ∀ p ∈ (coreOf y k).routeq, p.num = q.num → p.st = .away 0
    let serving := ingOf s die = some a ∧ die < 4
    let takes := die < 4 ∧ heldOn s (.place die) = false ∧ r.agings = 0 ∧ r.pend = []
    let free (key : HoldKey) := holdOf s key = none
    let lost (y : State) (d : Nat) : Prop := (routeOf y d).counters.get 7 = (routeOf s d).counters.get 7 + w64 t.recs.length
    (cmd → q.op = .rtgate off tok → ingOf s (coreDie k) = none →
      Happens (.routeGateExecute k) s (fun y => Executed y k 3 q.num ∧ y.mem = s.mem ∧ y.routes = s.routes)) ∧
    (cmd → q.op = .rtgate off tok → die = coreDie k → serving → a.cfg.task = q.task → chooseGroups a.cfg row = [g] → lists s = [] →
      1 < bits (cfgW a.cfg 1) 10 9 → Happens (.routeGateExecute k) s (fun y => Executed y k 3 q.num ∧ y.mem = s.mem ∧
        lists y = [⟨gmapEnt a.cfg g % 1024, gmapEnt a.cfg g / 1024 % 4,
          [tokenRecord s a.cfg die q.spa tok row (row.any isNan32) g 0], s.clk⟩])) ∧
    (serving → canRead s die x = false → canDepart s die x = false → r.lists.find? (fun l => destNo l.accel l.die == x) = some l →
      l.since + bits (cfgW a.cfg 2) 0 32 ≤ s.clk → Happens (.sendListTimeout die x) s (fun y =>
        (∀ m ∈ lists y, ¬ (m.accel = l.accel ∧ m.die = l.die)) ∧
        (routeOf y die).outgoing.map bare = (r.outgoing ++ [formTransfer s die a.cfg l none]).map bare)) ∧
    (serving → canRead s die x = true → unreadRec s die x = some rec → unreadCount s die x = 1 →
      (rowNow s die x (cfgRow a.cfg) a.l.asid rec.spa rec.arow = .row bs 0 → Happens (.sendListTimeout die x) s (fun y => y.mem = s.mem ∧
        (routeOf y die).outgoing = (routeOf (setRow die x bs s) die).outgoing)) ∧
      (∀ p, rowNow s die x (cfgRow a.cfg) a.l.asid rec.spa rec.arow = .miss p → Happens (.sendListTimeout die x) s (fun y => y.mem = s.mem ∧
        (routeOf y die).outgoing = r.outgoing ∧ heldOn y (.transfer die x) = true)) ∧
      (rowNow s die x (cfgRow a.cfg) a.l.asid rec.spa rec.arow = .ask → 0 < cfgRow a.cfg → Happens (.sendListTimeout die x) s (fun y =>
        y.mem = s.mem ∧ (routeOf y die).outgoing = r.outgoing ∧
        ∃ z ∈ y.fab.txs, z.accel = vaAccel rec.arow ∧ z.eng = 4 ∧ z.core = die ∧ z.cmd = x))) ∧
    (die < 4 → canRead s die x = false → canDepart s die x = true → waitingTransfer s die x = some t →
      (t.dacc = s.accel.toNat → Happens (.sendListTimeout die x) s (fun y => y.mem = s.mem ∧
        (routeOf y t.ddie).incoming = (routeOf s t.ddie).incoming ++ [t] ∧ (routeOf y die).outgoing = r.outgoing.erase t)) ∧
      (t.dacc ≠ s.accel.toNat → t.sent = 0 → (partsOf t).length ≤ 1024 → Happens (.sendListTimeout die x) s (fun y => y.mem = s.mem ∧
        (routeOf y die).outgoing = r.outgoing.erase t ∧ ∀ p, (partsOf t)[i]? = some p → ∃ z ∈ y.fab.txs, z.accel = t.dacc ∧
          z.op = .tokens { t with sent := 0, tag := 0, recs := p.2 } s.fab.xfer i (partsOf t).length p.1 t.recs.length))) ∧
    (cmd → q.op = .rtflush → q.st = .queued → die = coreDie k → serving → a.cfg.task = q.task →
      Happens (.routeFlushExecute k) s (fun y => away y ∧ lists y = [] ∧ (routeOf y die).outgoing.map bare =
        (r.outgoing ++ r.lists.map (fun l => formTransfer s die a.cfg l (some (k, q.num)))).map bare)) ∧
    (routeHead s k = some q → q.op = .rtflush → q.st = .away 0 → flushOver s k q.num = true →
      Happens (.routeFlushExecute k) s (fun y => Executed y k 3 q.num ∧ y.mem = s.mem)) ∧
    (takes → r.intake = none → r.incoming = t :: rest →
      ((servesJob s die t).isSome = true → Happens (.ingressTransfer die) s (fun y => y.mem = s.mem ∧
        (routeOf y die).intake = some (t, 0, 0, []) ∧ (routeOf y die).incoming = rest)) ∧
      (servesJob s die t = none → t.sacc = s.accel.toNat → t.sdie < 4 → Happens (.ingressTransfer die) s (fun y =>
        y.mem = s.mem ∧ (routeOf y die).intake = none ∧ (routeOf y die).incoming = rest ∧ lost y t.sdie))) ∧
    (takes → r.intake = some (t, i, j, es) → servesJob s die t = some a → free (.place die) →
      (i = t.recs.length → t.flush = none → Happens (.ingressTransfer die) s (fun y =>
        y.mem = s.mem ∧ (routeOf y die).intake = none)) ∧
      (∀ rec, t.recs[i]? = some rec → homedHere s a (recGroup rec) = false → Happens (.ingressTransfer die) s (fun y =>
        y.mem = s.mem ∧ (routeOf y die).intake = some (t, i + 1, 0, es) ∧
        (routeOf y die).counters.get 7 = r.counters.get 7 + 1)) ∧
      (∀ rec alt ent, t.recs[i]? = some rec → homedHere s a (recGroup rec) = true → r.paused = none →
        placementOf a.cfg rec j = some (e, alt, ent) → ertRead a e s = .ok (w, s) → ertState w ≠ 2 →
        ertWrite a e (setBits w 32 16 (satAdd 16 (ertFreq w) 1)) s = .ok ((), s1) → cfgWq a.cfg ≤ (wqOf r e).ents.length →
        Happens (.ingressTransfer die) s (fun y => y.mem = s1.mem ∧ (routeOf y die).paused = some (e, ent, true) ∧
          (routeOf y die).intake = r.intake)) ∧
      (∀ rec alt ent, t.recs[i]? = some rec → homedHere s a (recGroup rec) = true → r.paused = none →
        placementOf a.cfg rec j = some (e, alt, ent) → ertRead a e s = .ok (w, s) → ertState w = 2 →
        ertWrite a e (setBits w 32 16 (satAdd 16 (ertFreq w) 1)) s = .ok ((), s1) →
        let b := bufOf r e
        let base := bufVa a.cfg e
        let put := placeFlags ent false false false
        b.out = false → b.count + 1 < cfgC a.cfg →
        (do rWrite a.l none (base + w64 (64 * b.count)) (bytesOf (recWords put.2))
            rWrite a.l none (base + w64 (64 * cfgC a.cfg + 8 * b.count)) (toBytes 8 put.1.toNat)
            rWrite a.l none (base + w64 (72 * cfgC a.cfg + cfgRow a.cfg * b.count)) (put.2.row.take (cfgRow a.cfg)) : RegM Unit) s1 =
          .ok ((), s2) →
        ertRead a e s2 = .ok (v, s2) → ertState v ≠ 0 → ertRef v = true →
        Happens (.ingressTransfer die) s (fun y => y.mem = s2.mem ∧ (routeOf y die).paused = none ∧
          (bufOf (routeOf y die) e).count = b.count + 1 ∧ (bufOf (routeOf y die) e).out = false ∧
          (routeOf y die).counters.get 0 = r.counters.get 0 + 1 ∧
          (routeOf y die).intake = some (t, if j + 1 = cfgTope a.cfg then i + 1 else i, if j + 1 = cfgTope a.cfg then 0 else j + 1,
            setInsert e es)))) ∧
    (serving → r.pend = [] → free (.place die) → (bufOf r e).out = false → 0 < (bufOf r e).count →
      (∀ p ∈ r.fetching, p.1 ≠ e) → e ∉ r.requests → ertState w = 2 →
      (bufOf r e).since + bits (cfgW a.cfg 2) 32 32 ≤ s.clk → ertRead a e s = .ok (w, s) →
      Happens (.bufferTimeout die e) s (fun y => y.mem = s.mem ∧ (bufOf (routeOf y die) e).out = true ∧
        ∃ fl, y.flights = s.flights ++ [fl] ∧ fl.org = .route die e ∧ fl.msg.w1 = cfgW a.cfg 10)) ∧
    (serving → r.pend = [] → free (.place die) → 0 < r.agings → ageAll a a.cfg.homed s = .ok ((), s1) →
      Happens (.freqAgeing die) s (fun y => y.mem = s1.mem ∧ (routeOf y die).agings + 1 = r.agings)) ∧
    (readyFetch s die e = some f → f.old = true → free (.fetch die e) → ertRead f.x e s = .ok (w, s) →
      (bit f.home 63 = false → fetchResult s f = .ok bs →
        (do rWrite f.x.l none (slotVa f.x.cfg (ertSlot w)) bs; ertWrite f.x e (setBits w 16 2 2) : RegM Unit) s = .ok ((), s1) →
        Happens (.fetchComplete die e) s (fun y => y.mem = s1.mem ∧ (routeOf y die).old.length + 1 = r.old.length)) ∧
      (bit f.home 63 = true → fetchReads s die e = false →
        ertWrite f.x e (setBits (setBits (setBits w 16 2 0) 20 12 0) 48 16 0) s = .ok ((), s1) →
        Happens (.fetchFail die e) s (fun y => y.mem = s1.mem ∧ (routeOf y die).old.length + 1 = r.old.length))) ∧
    (readyFetch s die e = some f → f.old = false → free (.fetch die e) → ertRead f.x e s = .ok (w, s) → (wqOf r e).ents = [] →
      alGet r.failing e 0 = 0 → (bufOf r e).out = false →
      (bit f.home 63 = false → fetchResult s f = .ok bs →
        (do rWrite f.x.l none (slotVa f.x.cfg (ertSlot w)) bs; ertWrite f.x e (setBits w 16 2 2) : RegM Unit) s = .ok ((), s1) →
        ertRead f.x e s1 = .ok (v, s1) → ertState v = 2 →
        ((bufOf r e).count = 0 → cfgC f.x.cfg ≠ 0 → ertRef v = false → Happens (.fetchComplete die e) s (fun y => y.mem = s1.mem ∧
          y.flights = s.flights ∧ (routeOf y die).fetching = r.fetching.filter (fun p => p.1 != e))) ∧
        (0 < (bufOf r e).count → (bufOf r e).count = cfgC f.x.cfg → ertRef v = true → Happens (.fetchComplete die e) s (fun y =>
          y.mem = s1.mem ∧ (bufOf (routeOf y die) e).out = true ∧ ∃ fl, y.flights = s.flights ++ [fl] ∧ fl.org = .route die e))) ∧
      (bit f.home 63 = true → fetchReads s die e = false → (bufOf r e).count = 0 → r.requests = [] →
        ertWrite f.x e (setBits (setBits (setBits w 16 2 0) 20 12 0) 48 16 0) s = .ok ((), s1) →
        Happens (.fetchFail die e) s (fun y => y.mem = s1.mem ∧
          (routeOf y die).fetching = r.fetching.filter (fun p => p.1 != e)))) ∧
    (s.host.reads.find? (fun r => r.num == x) = none → exec (.nvmeCompletion x status data) s = .next s) ∧
    (s.host.reads.find? (fun r => r.num == x) = some rd → rd.expert = none →
      (coreOf s rd.core).copyq.find? (fun p => p.num == rd.cmd) = some c → c.op = .cstor false dst lba ctl → cmdFailed s rd.core 1 c = false →
      c.status &&& csFault = 0 → s.host.watches = [] → (∀ d, driveOf s rd.handle = some d → d.head < 256 ∧ d.tail < 256) →
      let keeps (y : State) : Prop := ∀ n, (∀ d, driveOf s rd.handle = some d →
        n < physKey d.die d.queue ∨ physKey d.die d.queue + 20480 ≤ n) → memGet y.mem n = memGet s.mem n
      let at_ := bits dst 0 19 + rd.off
      let alone := ∀ z ∈ s.host.reads, z.core = rd.core → z.cmd = rd.cmd → z.expert = none → z.num = x
      let fits := 0 < data.length ∧ data.length ≤ rd.bytes ∧ at_ % 32 + data.length ≤ 32 ∧ c.done = 0 ∧ data.length ≤ 2 ^ c.logspad
      (status ≠ 0 → data = [] → alone → Happens (.nvmeCompletion x status data) s (fun y => keeps y ∧
        (∀ z ∈ y.host.reads, z.num ≠ x) ∧ ∀ p ∈ (coreOf y rd.core).copyq, p.num = rd.cmd →
          p.st = .done ∧ bit p.status 14 = true ∧ p.w3 = w64 (status % 2 ^ 15))) ∧
      (status = 0 → fits → Happens (.nvmeCompletion x status data) s (fun y => keeps y ∧
        (∀ z ∈ y.host.reads, z.num ≠ x) ∧ spadRead (coreOf y rd.core) c.spbase c.logspad at_ data.length = data ∧
        (alone → Executed y rd.core 1 rd.cmd) ∧
        (¬ alone → ∀ p ∈ (coreOf y rd.core).copyq, p.num = rd.cmd → p.st = .away x ∧ p.done = 0))))

/-- 16 R376 to R390, 15 R359, R364: the host's accesses and registers, the watch table, drives, reset, bring-up, attestation, heat
and monitors. A faulting host read gives all ones and a report; an entry arms only on a doubleword of the module; a failed
step of the bring-up shows in the journal. The layout of a report and its wait for the ring, the free bytes of host reads, what a
reset keeps, the records that end a recovery, how a unit of the bring-up is found to fail, and the functions that stand for the
signatures of the image and of the identity key are the model's choice (assumptions 27, 33, 34, 35, 111 and 3). -/
def Obligations.HostEvents : Prop :=
  ∀ (s : State) (ap off n h block most die m value step : Nat) (data : List Byte) (ks : List Nat) (w2 v : W64) (b : BootReport)
    (write : Bool),
    let a := apertureOf s ap
    let inside := ap < 16 ∧ off + data.length ≤ 2 ^ 32 ∧ holdFailed s (.aperture ap) = false
    let walk (write : Bool) := rangeKeys s (apertureReq a write) (pieces (a.va + w64 off) data.length)
    let read (y : State) (bs : List Byte) : Prop := y.egress = s.egress ++ [.hostRead bs]
    let ones : List Egress := if write then [] else [.hostRead (List.replicate data.length 0xFF)]
    let told (pre : List Egress) (r : HostReport) (y : State) : Prop :=
      if s.host.eventRing = 0 then y.egress = s.egress ++ pre ∧ y.host.reports = s.host.reports ++ [r]
      else y.egress = s.egress ++ pre ++ [.report r]
    let ent := watchAt s n
    let armed := setBits (setBits w2 3 1 (bits ent.w2 3 1)) 16 32 (bits ent.w2 16 32)
    let fresh := n < 256 ∧ holdFailed s (.watch n) = false
    let mon (y : State) := monAt y (monNo die m)
    let src := bits (mon s).ctl 0 4
    let on := bit (mon s).ctl 4 = true
    let sample := s.host.samples.find? (fun p => p.die == die && p.mon == m && p.value == value)
    let sampled := (∃ p, sample = some p ∧ p.src = src) ∨ (sample = none ∧ monOutside s die m = true)
    let stale := (∃ p, sample = some p ∧ p.src ≠ src) ∨ (8 ≤ src ∧ ∀ p ∈ s.host.samples, p.src < 8)
    let gone (y : State) : Prop := y.mem = [] ∧ y.launches = [] ∧ y.host.running = false
    let begun := updHost (fun h => { h with rom := b.rom, fuses := b.fuses, identity := b.identity }) (powerOff s)
    (inside → walk false = .ok ks → s.poison = [] → Happens (.hostApertureAccess ap off false data) s (fun y => y.mem = s.mem ∧
      read y (ks.map (sysByte s)))) ∧
    (inside → walk true = .ok ks → s.host.watches = [] → Happens (.hostApertureAccess ap off true data) s (fun y =>
      Wrote s y (ks.zip data) ∧ y.egress = s.egress)) ∧
    (s.host.watches = [] → (¬ inside ∨ ∃ q, walk write = .error (q, .invalid)) →
      Happens (.hostApertureAccess ap off write data) s (told ones (.apertureFault ap))) ∧
    (inside → (∃ q, walk write = .error (q, .miss)) → holdOf s (.aperture ap) = none →
      Happens (.hostApertureAccess ap off write data) s (fun y =>
        y.mem = s.mem ∧ y.egress = s.egress ∧ heldOn y (.aperture ap) = true)) ∧
    (256 ≤ n → exec (.watchTableArm n w2) s = .next s) ∧
    (n < 256 → bit w2 2 = false → Happens (.watchTableArm n w2) s (fun y => y.mem = s.mem ∧ (watchAt y n).place = none ∧
      (watchAt y n).w2 = armed)) ∧
    (fresh → bit w2 2 = true → watchPlace s ent.w0 armed = .invalid → Happens (.watchTableArm n w2) s (fun y => y.mem = s.mem ∧
      (watchAt y n).place = none ∧ bit (watchAt y n).w2 2 = false ∧ bit (watchAt y n).w2 3 = true)) ∧
    (fresh → bit w2 2 = true → watchPlace s ent.w0 armed = .miss → holdOf s (.watch n) = none →
      Happens (.watchTableArm n w2) s (fun y => y.mem = s.mem ∧ watchAt y n = ent ∧ heldOn y (.watch n) = true)) ∧
    (∀ key leaf, fresh → bit w2 2 = true → watchPlace s ent.w0 armed = .ok key leaf →
      condHolds (bits w2 0 2) (dwordAt s key) ent.w1 = false → Happens (.watchTableArm n w2) s (fun y => y.mem = s.mem ∧
        (watchAt y n).place = some key ∧ (watchAt y n).arg = ent.w1 ∧ (watchAt y n).caddr = ent.w3)) ∧
    (n < 256 → Happens (.hostRegisterWrite (.bar (watchOff n 0) v)) s (fun y => watchAt y n = { ent with w0 := v } ∧ y.mem = s.mem) ∧
      Happens (.hostRegisterWrite (.bar (watchOff n 1) v)) s (fun y => watchAt y n = { ent with w1 := v } ∧ y.mem = s.mem) ∧
      Happens (.hostRegisterWrite (.bar (watchOff n 3) v)) s (fun y => watchAt y n = { ent with w3 := v } ∧ y.mem = s.mem) ∧
      exec (.hostRegisterWrite (.bar (watchOff n 2) v)) s = exec (.watchTableArm n v) s ∧
      ∀ w < 4, Happens (.hostRegisterWrite (.barRead (watchOff n w))) s (fun y => y.mem = s.mem ∧ read y (bytesOf [watchWord ent w]))) ∧
    (∀ va asid, n < 16 → Happens (.hostRegisterWrite (.aperture n va asid)) s (fun y => y.mem = s.mem ∧
      apertureOf y n = { va := setBits va 0 32 0, asid := asid } ∧ ∀ j < 16, j ≠ n → apertureOf y j = apertureOf s j)) ∧
    (s.host.reports = [] → Happens (.hostRegisterWrite (.eventRing n)) s (fun y => y.host.eventRing = n ∧ y.mem = s.mem)) ∧
    Happens (.hostRegisterWrite (.asidDirectory die n)) s (fun y => (retortOf y die).dir = n ∧ y.mem = s.mem) ∧
    Happens (.hostRegisterWrite .clearJournal) s (fun y => y.host.journal = [] ∧ y.host.defects = HostSide.reset.defects ∧
      y.mem = s.mem) ∧
    Happens (.hostRegisterWrite (.debug n v)) s (fun y => (coreOf y n).regs.halt = bit v 0 ∧ (coreOf y n).regs.drain = bit v 2 ∧
      OtherCores s y n ∧ y.mem = s.mem) ∧
    (s.host.watches = [] → Happens (.hostRegisterWrite (.hostMemory n data)) s (fun y => Wrote s y (cellsAt (physKey 6 n) data))) ∧
    (die = 4 ∨ die = 5 → Happens (.hostRegisterWrite (.cxlPoison die n m)) s (fun y => y.mem = s.mem ∧
      ∀ i < m, physKey die (n + i) ∈ y.poison)) ∧
    (die < 6 → m < 16 → Happens (.hostRegisterWrite (.monCtl die m v)) s (fun y => y.mem = s.mem ∧
        mon y = { mon s with ctl := v &&& 0x3FF1F }) ∧
      Happens (.hostRegisterWrite (.monRead die m n)) s (fun y => y.mem = s.mem ∧ read y (bytesOf [monWord (mon s) n]))) ∧
    (h < 64 → (block = 512 ∨ block = 4096) → Happens (.driveGrant h ⟨block, most, die, n⟩) s (fun y => y.mem = s.mem ∧
      y.host.drives = s.host.drives.filter (fun d => d.handle != h) ++ [⟨h, block, most, die % 4, n, 0, 0⟩])) ∧
    (64 ≤ h ∨ (block ≠ 512 ∧ block ≠ 4096) → exec (.driveGrant h ⟨block, most, die, n⟩) s = .next s) ∧
    Happens (.driveRevoke h) s (fun y => y.mem = s.mem ∧ y.host.drives = s.host.drives.filter (fun d => d.handle != h) ∧
      y.host.reads = s.host.reads.filter (fun r => r.handle != h || r.sent) ∧
      ∀ r ∈ s.host.reads, r.handle = h → r.sent = false → r.expert = none →
        ∀ p ∈ (coreOf y r.core).copyq, p.num = r.cmd → bit p.status 13 = true) ∧
    Happens .deviceReset s (fun y => y.mem = s.mem ∧ y.launches = [] ∧ y.core = State.reset.core ∧ y.ctx = State.reset.ctx ∧
      y.cores = [] ∧ y.holds = [] ∧ y.host.journal = s.host.journal ∧ y.fenced = s.fenced ∧ y.feat = s.feat) ∧
    (failedStep s 1 = true → Happens (.powerOn b) s (fun y => gone y ∧ y.egress = s.egress ++ [.i3c 1])) ∧
    (failedStep s 1 = false → failedStep s 2 = true ∨ failedStep s 8 = true → Happens (.powerOn b) s (fun y =>
      gone y ∧ y.host.recovery = true)) ∧
    (s.host.journal = [] → b.romOk = false → Happens (.powerOn b) s (fun y => gone y ∧ y.host.recovery = false ∧
      y.host.journal.map (fun r => (r.step, r.ok)) = [(1, none), (1, some false)])) ∧
    (failedStep s 1 = false → failedStep s 2 = false → failedStep s 8 = false → Happens (.powerOn b) s (fun y =>
      y.host.running = (bringUp b begun).go ∧ y.host.recovery = false ∧
      (b.romOk = true → imageGood b.fuses s.host.image = true → b.stackFails = [] → ∀ c ∈ s.host.defects.clusters, c ∈ y.fenced) ∧
      (b.romOk = true → imageGood b.fuses s.host.image = true → brokenOff s 3 = true → ∀ n < stackCount b,
        alGet s.host.defects.hbm n 0 < 3 → alGet s.host.defects.hbm n 0 < alGet y.host.defects.hbm n 0) ∧
      (failedStep s 7 = true → s.host.journal.length ≤ 240 → y.host.running = true → bit y.feat 3 = false))) ∧
    (s.host.recovery = true → Happens (.recoveryImageWrite data b) s (fun y =>
      if imageGood s.host.fuses data then y.host.image = data ∧ (failedStep s 1 = false → y.host.recovery = false) else y = s)) ∧
    (s.host.recovery = false → exec (.recoveryImageWrite data b) s = .next s) ∧
    (1 ≤ n → n ≤ 4 → exec (.spdmGetMeasurements n) s =
      .next { s with
        egress := s.egress ++ [.digest n (sha3 (measurement s n))
          (Config.identitySignature s.host.identity n (sha3 (measurement s n)) s.freeNum)],
        freeNum := s.freeNum + 1 }) ∧
    (n = 0 ∨ 4 < n → exec (.spdmGetMeasurements n) s = .next s) ∧
    (s.host.watches = [] → Happens (.thermalLimit die) s (fun y => die ∈ y.host.hot ∧ told [] (.thermal die) y)) ∧
    Happens (.temperatureFallsBack die) s (fun y => die ∉ y.host.hot ∧ (∀ d, d ≠ die → (d ∈ y.host.hot ↔ d ∈ s.host.hot)) ∧ y.mem = s.mem) ∧
    (die < 6 → m < 16 → sampled → on → Happens (.monitorSample die m value) s (fun y => y.mem = s.mem ∧
      (mon y).mmin = (if value < (mon s).mmin.toNat then w64 value else (mon s).mmin) ∧
      (mon y).mmax = (if (mon s).mmax.toNat < value then w64 value else (mon s).mmax) ∧
      ∀ i, alGet (mon y).bins i 0 = if i = binNo value then
        (if alGet (mon s).bins i 0 = BitVec.allOnes 32 then alGet (mon s).bins i 0 else alGet (mon s).bins i 0 + 1) else alGet (mon s).bins i 0)) ∧
    (die < 6 → m < 16 → (¬ on ∨ stale) → Happens (.monitorSample die m value) s (fun y => mon y = mon s ∧ y.mem = s.mem)) ∧
    (sample = none → monOutside s die m = false → exec (.monitorSample die m value) s = .next s) ∧
    Happens (.powerLoss step) s (fun y => gone y ∧ (step = 0 → y.host.journal = s.host.journal) ∧
      (1 ≤ step → step ≤ 8 → failedStep y step = true))
end

