-- ==== Sys2Proof/Laws/Bits.lean ====
section
/-! SUPPORT. Keyed lists, bit fields, sign extension and byte order. -/
set_option Elab.async false
namespace Sys2Proof.Machine

/-! ## Keyed lists -/

theorem alGet?_alPut_same {α : Type} (l : List (Nat × α)) (i : Nat) (v : α) : alGet? (alPut l i v) i = some v := by
  induction l with
  | nil => simp [alPut, alGet?]
  | cons p r ih =>
    obtain ⟨k, x⟩ := p
    simp only [alPut]
    split
    · simp [alGet?]
    · split
      · simp [alGet?]
      · rename_i h1 h2
        simp only [alGet?, ih]
        rw [if_neg (by simpa using fun h : k = i => h2 (by simp [h]))]

theorem alGet?_alPut_other {α : Type} (l : List (Nat × α)) {i j : Nat} (v : α) (h : j ≠ i) :
    alGet? (alPut l i v) j = alGet? l j := by
  induction l with
  | nil => simp [alPut, alGet?, Ne.symm h]
  | cons p r ih =>
    obtain ⟨k, x⟩ := p
    simp only [alPut]
    split
    · simp [alGet?, Ne.symm h]
    · split
      · rename_i h1 h2
        have e : i = k := by simpa using h2
        subst e
        simp [alGet?, Ne.symm h]
      · simp only [alGet?, ih]

theorem alGet?_alDel_other {α : Type} (l : List (Nat × α)) {i j : Nat} (h : j ≠ i) :
    alGet? (alDel l i) j = alGet? l j := by
  unfold alDel
  induction l with
  | nil => rfl
  | cons p r ih =>
    obtain ⟨k, x⟩ := p
    by_cases hk : k = i
    · subst hk; simp [alGet?, Ne.symm h, ih]
    · simp [hk, alGet?, ih]

theorem alGet?_alDel_same {α : Type} (l : List (Nat × α)) (i : Nat) : alGet? (alDel l i) i = none := by
  unfold alDel
  induction l with
  | nil => rfl
  | cons p r ih =>
    obtain ⟨k, x⟩ := p
    by_cases hk : k = i
    · subst hk; simpa using ih
    · simp [hk, alGet?, ih]

/-- The entry just set. -/
@[simp] theorem alGet_alPut_same {α : Type} (l : List (Nat × α)) (i : Nat) (v d : α) : alGet (alPut l i v) i d = v := by
  simp [alGet, alGet?_alPut_same]

/-- The other entries. -/
@[simp] theorem alGet_alPut_other {α : Type} (l : List (Nat × α)) {i j : Nat} (v d : α) (h : j ≠ i) :
    alGet (alPut l i v) j d = alGet l j d := by
  simp [alGet, alGet?_alPut_other l v h]

/-- The entries that a removal leaves. -/
@[simp] theorem alGet_alDel_other {α : Type} (l : List (Nat × α)) {i j : Nat} (d : α) (h : j ≠ i) :
    alGet (alDel l i) j d = alGet l j d := by
  simp [alGet, alGet?_alDel_other l h]

/-- What stands in a keyed list after an entry was set. -/
theorem mem_alPut {α : Type} (l : List (Nat × α)) (i : Nat) (v : α) (p : Nat × α) (h : p ∈ alPut l i v) :
    p = (i, v) ∨ p ∈ l := by
  induction l with
  | nil => simpa [alPut] using h
  | cons q r ih =>
    obtain ⟨k, x⟩ := q
    simp only [alPut] at h
    split at h
    · simpa using h
    · split at h
      · rcases List.mem_cons.1 h with h | h
        · exact .inl h
        · exact .inr (List.mem_cons_of_mem _ h)
      · rcases List.mem_cons.1 h with h | h
        · exact .inr (h ▸ List.mem_cons_self)
        · rcases ih h with h | h
          · exact .inl h
          · exact .inr (List.mem_cons_of_mem _ h)

/-- What stands in a keyed list after a removal. -/
theorem mem_alDel {α : Type} (l : List (Nat × α)) (i : Nat) (p : Nat × α) (h : p ∈ alDel l i) : p ∈ l :=
  (List.mem_filter.1 h).1

/-- The entry read is one of the list, or what an unlisted key holds. -/
theorem alGet_mem {α : Type} (l : List (Nat × α)) (i : Nat) (d : α) : alGet l i d = d ∨ (i, alGet l i d) ∈ l := by
  induction l with
  | nil => exact .inl rfl
  | cons p r ih =>
    obtain ⟨k, x⟩ := p
    by_cases h : k = i
    · subst h; right; simp [alGet, alGet?]
    · have e : alGet ((k, x) :: r) i d = alGet r i d := by simp [alGet, alGet?, h]
      rw [e]
      exact ih.imp id (List.mem_cons_of_mem _)

/-! ## Sign extension -/

/-- The signed reading of an n-bit number is that of the bit vector. -/
theorem sInt_toInt {n : Nat} (v : BitVec n) (h : 0 < n) : sInt v.toNat n = v.toInt := by
  have := v.isLt
  have h2 : 2 ^ n = 2 * 2 ^ (n - 1) := by rw [← Nat.pow_succ']; congr 1; omega
  simp only [sInt, BitVec.toInt, Nat.mod_eq_of_lt this]
  split <;> split <;> omega

/-- Sign extension to 64 bits. -/
theorem sext_signExtend {n : Nat} (x : BitVec n) (h : 0 < n) : sext x.toNat n = x.signExtend 64 := by
  rw [sext, sInt_toInt x h]; rfl

/-- A number of 32 bits, sign-extended. -/
theorem sext_32 (v : Nat) (h : v < 2 ^ 32) : sext v 32 = (BitVec.ofNat 32 v).signExtend 64 := by
  have e : (BitVec.ofNat 32 v).toNat = v := Nat.mod_eq_of_lt h
  rw [← sext_signExtend _ (by omega), e]

/-- The two halves of a word as a number. -/
theorem append_toNat {m n : Nat} (x : BitVec m) (y : BitVec n) : (x ++ y).toNat = x.toNat * 2 ^ n + y.toNat := by
  rw [BitVec.toNat_append, Nat.shiftLeft_eq, Nat.mul_comm, ← Nat.two_pow_add_eq_or_of_lt y.isLt]

/-! ## Bytes -/

theorem toBytes_length (n v : Nat) : (toBytes n v).length = n := by
  induction n generalizing v with
  | zero => rfl
  | succ n ih => simp [toBytes, ih]

/-- The number of the bytes of a number (00 R2). -/
theorem ofBytes_toBytes (n v : Nat) : ofBytes (toBytes n v) = v % 256 ^ n := by
  induction n generalizing v with
  | zero => simp [toBytes, ofBytes, Nat.mod_one]
  | succ n ih =>
    have h : v % (256 ^ n * 256) = v % 256 + 256 * (v / 256 % 256 ^ n) := by
      rw [Nat.mul_comm (256 ^ n) 256, Nat.mod_mul]
    simp [toBytes, ofBytes, ih, Nat.pow_succ, h]

/-- Byte `j` of a number. -/
theorem toBytes_getElem (n v j : Nat) (h : j < (toBytes n v).length) : (toBytes n v)[j] = BitVec.ofNat 8 (v / 256 ^ j) := by
  induction n generalizing v j with
  | zero => simp [toBytes] at h
  | succ n ih =>
    cases j with
    | zero => simp [toBytes]
    | succ j =>
      have e : (toBytes (n + 1) v)[j + 1] = (toBytes n (v / 256))[j]'(by simpa [toBytes] using h) := rfl
      rw [e, ih, Nat.div_div_eq_div_mul, Nat.pow_succ, Nat.mul_comm 256]

end Sys2Proof.Machine
end

