-- ==== Sys2Proof/Laws/State.lean ====
section
/-! SUPPORT. One lemma for every field that a shared update of the state leaves alone, each true by unfolding, so that no
proof unfolds a record update. -/
set_option Elab.async false
namespace Sys2Proof.Machine

/-! ## put -/

@[simp] theorem put_core (w : RegWrite) (s : State) : (put w s).core = s.core := rfl
@[simp] theorem put_cores (w : RegWrite) (s : State) : (put w s).cores = s.cores := rfl
@[simp] theorem put_mem (w : RegWrite) (s : State) : (put w s).mem = s.mem := rfl
@[simp] theorem put_poison (w : RegWrite) (s : State) : (put w s).poison = s.poison := rfl
@[simp] theorem put_launches (w : RegWrite) (s : State) : (put w s).launches = s.launches := rfl
@[simp] theorem put_tails (w : RegWrite) (s : State) : (put w s).tails = s.tails := rfl
@[simp] theorem put_orderNum (w : RegWrite) (s : State) : (put w s).orderNum = s.orderNum := rfl
@[simp] theorem put_flights (w : RegWrite) (s : State) : (put w s).flights = s.flights := rfl
@[simp] theorem put_flightNum (w : RegWrite) (s : State) : (put w s).flightNum = s.flightNum := rfl
@[simp] theorem put_ctls (w : RegWrite) (s : State) : (put w s).ctls = s.ctls := rfl
@[simp] theorem put_retorts (w : RegWrite) (s : State) : (put w s).retorts = s.retorts := rfl
@[simp] theorem put_holds (w : RegWrite) (s : State) : (put w s).holds = s.holds := rfl
@[simp] theorem put_evq (w : RegWrite) (s : State) : (put w s).evq = s.evq := rfl
@[simp] theorem put_evNum (w : RegWrite) (s : State) : (put w s).evNum = s.evNum := rfl
@[simp] theorem put_waiters (w : RegWrite) (s : State) : (put w s).waiters = s.waiters := rfl
@[simp] theorem put_arrivals (w : RegWrite) (s : State) : (put w s).arrivals = s.arrivals := rfl
@[simp] theorem put_rounds (w : RegWrite) (s : State) : (put w s).rounds = s.rounds := rfl
@[simp] theorem put_roundNum (w : RegWrite) (s : State) : (put w s).roundNum = s.roundNum := rfl
@[simp] theorem put_steals (w : RegWrite) (s : State) : (put w s).steals = s.steals := rfl
@[simp] theorem put_parts (w : RegWrite) (s : State) : (put w s).parts = s.parts := rfl
@[simp] theorem put_transit (w : RegWrite) (s : State) : (put w s).transit = s.transit := rfl
@[simp] theorem put_lag (w : RegWrite) (s : State) : (put w s).lag = s.lag := rfl
@[simp] theorem put_hidden (w : RegWrite) (s : State) : (put w s).hidden = s.hidden := rfl
@[simp] theorem put_watches (w : RegWrite) (s : State) : (put w s).watches = s.watches := rfl
@[simp] theorem put_reds (w : RegWrite) (s : State) : (put w s).reds = s.reds := rfl
@[simp] theorem put_redq (w : RegWrite) (s : State) : (put w s).redq = s.redq := rfl
@[simp] theorem put_fab (w : RegWrite) (s : State) : (put w s).fab = s.fab := rfl
@[simp] theorem put_net (w : RegWrite) (s : State) : (put w s).net = s.net := rfl
@[simp] theorem put_routes (w : RegWrite) (s : State) : (put w s).routes = s.routes := rfl
@[simp] theorem put_host (w : RegWrite) (s : State) : (put w s).host = s.host := rfl
@[simp] theorem put_accel (w : RegWrite) (s : State) : (put w s).accel = s.accel := rfl
@[simp] theorem put_site (w : RegWrite) (s : State) : (put w s).site = s.site := rfl
@[simp] theorem put_feat (w : RegWrite) (s : State) : (put w s).feat = s.feat := rfl
@[simp] theorem put_fenced (w : RegWrite) (s : State) : (put w s).fenced = s.fenced := rfl
@[simp] theorem put_arb (w : RegWrite) (s : State) : (put w s).arb = s.arb := rfl
@[simp] theorem put_pipes (w : RegWrite) (s : State) : (put w s).pipes = s.pipes := rfl
@[simp] theorem put_inputs (w : RegWrite) (s : State) : (put w s).inputs = s.inputs := rfl
@[simp] theorem put_egress (w : RegWrite) (s : State) : (put w s).egress = s.egress := rfl
@[simp] theorem put_clk (w : RegWrite) (s : State) : (put w s).clk = s.clk := rfl
@[simp] theorem put_tick (w : RegWrite) (s : State) : (put w s).tick = s.tick := rfl
@[simp] theorem put_waits (w : RegWrite) (s : State) : (put w s).waits = s.waits := rfl
@[simp] theorem put_freeNum (w : RegWrite) (s : State) : (put w s).freeNum = s.freeNum := rfl
@[simp] theorem put_rest (w : RegWrite) (s : State) : (put w s).rest = s.rest := rfl

/-! ## flagFp -/

@[simp] theorem flagFp_core (f : BitVec 6) (s : State) : (flagFp f s).core = s.core := rfl
@[simp] theorem flagFp_cores (f : BitVec 6) (s : State) : (flagFp f s).cores = s.cores := rfl
@[simp] theorem flagFp_mem (f : BitVec 6) (s : State) : (flagFp f s).mem = s.mem := rfl
@[simp] theorem flagFp_poison (f : BitVec 6) (s : State) : (flagFp f s).poison = s.poison := rfl
@[simp] theorem flagFp_launches (f : BitVec 6) (s : State) : (flagFp f s).launches = s.launches := rfl
@[simp] theorem flagFp_tails (f : BitVec 6) (s : State) : (flagFp f s).tails = s.tails := rfl
@[simp] theorem flagFp_orderNum (f : BitVec 6) (s : State) : (flagFp f s).orderNum = s.orderNum := rfl
@[simp] theorem flagFp_flights (f : BitVec 6) (s : State) : (flagFp f s).flights = s.flights := rfl
@[simp] theorem flagFp_flightNum (f : BitVec 6) (s : State) : (flagFp f s).flightNum = s.flightNum := rfl
@[simp] theorem flagFp_ctls (f : BitVec 6) (s : State) : (flagFp f s).ctls = s.ctls := rfl
@[simp] theorem flagFp_retorts (f : BitVec 6) (s : State) : (flagFp f s).retorts = s.retorts := rfl
@[simp] theorem flagFp_holds (f : BitVec 6) (s : State) : (flagFp f s).holds = s.holds := rfl
@[simp] theorem flagFp_evq (f : BitVec 6) (s : State) : (flagFp f s).evq = s.evq := rfl
@[simp] theorem flagFp_evNum (f : BitVec 6) (s : State) : (flagFp f s).evNum = s.evNum := rfl
@[simp] theorem flagFp_waiters (f : BitVec 6) (s : State) : (flagFp f s).waiters = s.waiters := rfl
@[simp] theorem flagFp_arrivals (f : BitVec 6) (s : State) : (flagFp f s).arrivals = s.arrivals := rfl
@[simp] theorem flagFp_rounds (f : BitVec 6) (s : State) : (flagFp f s).rounds = s.rounds := rfl
@[simp] theorem flagFp_roundNum (f : BitVec 6) (s : State) : (flagFp f s).roundNum = s.roundNum := rfl
@[simp] theorem flagFp_steals (f : BitVec 6) (s : State) : (flagFp f s).steals = s.steals := rfl
@[simp] theorem flagFp_parts (f : BitVec 6) (s : State) : (flagFp f s).parts = s.parts := rfl
@[simp] theorem flagFp_transit (f : BitVec 6) (s : State) : (flagFp f s).transit = s.transit := rfl
@[simp] theorem flagFp_lag (f : BitVec 6) (s : State) : (flagFp f s).lag = s.lag := rfl
@[simp] theorem flagFp_hidden (f : BitVec 6) (s : State) : (flagFp f s).hidden = s.hidden := rfl
@[simp] theorem flagFp_watches (f : BitVec 6) (s : State) : (flagFp f s).watches = s.watches := rfl
@[simp] theorem flagFp_reds (f : BitVec 6) (s : State) : (flagFp f s).reds = s.reds := rfl
@[simp] theorem flagFp_redq (f : BitVec 6) (s : State) : (flagFp f s).redq = s.redq := rfl
@[simp] theorem flagFp_fab (f : BitVec 6) (s : State) : (flagFp f s).fab = s.fab := rfl
@[simp] theorem flagFp_net (f : BitVec 6) (s : State) : (flagFp f s).net = s.net := rfl
@[simp] theorem flagFp_routes (f : BitVec 6) (s : State) : (flagFp f s).routes = s.routes := rfl
@[simp] theorem flagFp_host (f : BitVec 6) (s : State) : (flagFp f s).host = s.host := rfl
@[simp] theorem flagFp_accel (f : BitVec 6) (s : State) : (flagFp f s).accel = s.accel := rfl
@[simp] theorem flagFp_site (f : BitVec 6) (s : State) : (flagFp f s).site = s.site := rfl
@[simp] theorem flagFp_feat (f : BitVec 6) (s : State) : (flagFp f s).feat = s.feat := rfl
@[simp] theorem flagFp_fenced (f : BitVec 6) (s : State) : (flagFp f s).fenced = s.fenced := rfl
@[simp] theorem flagFp_arb (f : BitVec 6) (s : State) : (flagFp f s).arb = s.arb := rfl
@[simp] theorem flagFp_pipes (f : BitVec 6) (s : State) : (flagFp f s).pipes = s.pipes := rfl
@[simp] theorem flagFp_inputs (f : BitVec 6) (s : State) : (flagFp f s).inputs = s.inputs := rfl
@[simp] theorem flagFp_egress (f : BitVec 6) (s : State) : (flagFp f s).egress = s.egress := rfl
@[simp] theorem flagFp_clk (f : BitVec 6) (s : State) : (flagFp f s).clk = s.clk := rfl
@[simp] theorem flagFp_tick (f : BitVec 6) (s : State) : (flagFp f s).tick = s.tick := rfl
@[simp] theorem flagFp_waits (f : BitVec 6) (s : State) : (flagFp f s).waits = s.waits := rfl
@[simp] theorem flagFp_freeNum (f : BitVec 6) (s : State) : (flagFp f s).freeNum = s.freeNum := rfl
@[simp] theorem flagFp_rest (f : BitVec 6) (s : State) : (flagFp f s).rest = s.rest := rfl

/-! ## flagRl -/

@[simp] theorem flagRl_core (f : BitVec 4) (s : State) : (flagRl f s).core = s.core := rfl
@[simp] theorem flagRl_cores (f : BitVec 4) (s : State) : (flagRl f s).cores = s.cores := rfl
@[simp] theorem flagRl_mem (f : BitVec 4) (s : State) : (flagRl f s).mem = s.mem := rfl
@[simp] theorem flagRl_poison (f : BitVec 4) (s : State) : (flagRl f s).poison = s.poison := rfl
@[simp] theorem flagRl_launches (f : BitVec 4) (s : State) : (flagRl f s).launches = s.launches := rfl
@[simp] theorem flagRl_tails (f : BitVec 4) (s : State) : (flagRl f s).tails = s.tails := rfl
@[simp] theorem flagRl_orderNum (f : BitVec 4) (s : State) : (flagRl f s).orderNum = s.orderNum := rfl
@[simp] theorem flagRl_flights (f : BitVec 4) (s : State) : (flagRl f s).flights = s.flights := rfl
@[simp] theorem flagRl_flightNum (f : BitVec 4) (s : State) : (flagRl f s).flightNum = s.flightNum := rfl
@[simp] theorem flagRl_ctls (f : BitVec 4) (s : State) : (flagRl f s).ctls = s.ctls := rfl
@[simp] theorem flagRl_retorts (f : BitVec 4) (s : State) : (flagRl f s).retorts = s.retorts := rfl
@[simp] theorem flagRl_holds (f : BitVec 4) (s : State) : (flagRl f s).holds = s.holds := rfl
@[simp] theorem flagRl_evq (f : BitVec 4) (s : State) : (flagRl f s).evq = s.evq := rfl
@[simp] theorem flagRl_evNum (f : BitVec 4) (s : State) : (flagRl f s).evNum = s.evNum := rfl
@[simp] theorem flagRl_waiters (f : BitVec 4) (s : State) : (flagRl f s).waiters = s.waiters := rfl
@[simp] theorem flagRl_arrivals (f : BitVec 4) (s : State) : (flagRl f s).arrivals = s.arrivals := rfl
@[simp] theorem flagRl_rounds (f : BitVec 4) (s : State) : (flagRl f s).rounds = s.rounds := rfl
@[simp] theorem flagRl_roundNum (f : BitVec 4) (s : State) : (flagRl f s).roundNum = s.roundNum := rfl
@[simp] theorem flagRl_steals (f : BitVec 4) (s : State) : (flagRl f s).steals = s.steals := rfl
@[simp] theorem flagRl_parts (f : BitVec 4) (s : State) : (flagRl f s).parts = s.parts := rfl
@[simp] theorem flagRl_transit (f : BitVec 4) (s : State) : (flagRl f s).transit = s.transit := rfl
@[simp] theorem flagRl_lag (f : BitVec 4) (s : State) : (flagRl f s).lag = s.lag := rfl
@[simp] theorem flagRl_hidden (f : BitVec 4) (s : State) : (flagRl f s).hidden = s.hidden := rfl
@[simp] theorem flagRl_watches (f : BitVec 4) (s : State) : (flagRl f s).watches = s.watches := rfl
@[simp] theorem flagRl_reds (f : BitVec 4) (s : State) : (flagRl f s).reds = s.reds := rfl
@[simp] theorem flagRl_redq (f : BitVec 4) (s : State) : (flagRl f s).redq = s.redq := rfl
@[simp] theorem flagRl_fab (f : BitVec 4) (s : State) : (flagRl f s).fab = s.fab := rfl
@[simp] theorem flagRl_net (f : BitVec 4) (s : State) : (flagRl f s).net = s.net := rfl
@[simp] theorem flagRl_routes (f : BitVec 4) (s : State) : (flagRl f s).routes = s.routes := rfl
@[simp] theorem flagRl_host (f : BitVec 4) (s : State) : (flagRl f s).host = s.host := rfl
@[simp] theorem flagRl_accel (f : BitVec 4) (s : State) : (flagRl f s).accel = s.accel := rfl
@[simp] theorem flagRl_site (f : BitVec 4) (s : State) : (flagRl f s).site = s.site := rfl
@[simp] theorem flagRl_feat (f : BitVec 4) (s : State) : (flagRl f s).feat = s.feat := rfl
@[simp] theorem flagRl_fenced (f : BitVec 4) (s : State) : (flagRl f s).fenced = s.fenced := rfl
@[simp] theorem flagRl_arb (f : BitVec 4) (s : State) : (flagRl f s).arb = s.arb := rfl
@[simp] theorem flagRl_pipes (f : BitVec 4) (s : State) : (flagRl f s).pipes = s.pipes := rfl
@[simp] theorem flagRl_inputs (f : BitVec 4) (s : State) : (flagRl f s).inputs = s.inputs := rfl
@[simp] theorem flagRl_egress (f : BitVec 4) (s : State) : (flagRl f s).egress = s.egress := rfl
@[simp] theorem flagRl_clk (f : BitVec 4) (s : State) : (flagRl f s).clk = s.clk := rfl
@[simp] theorem flagRl_tick (f : BitVec 4) (s : State) : (flagRl f s).tick = s.tick := rfl
@[simp] theorem flagRl_waits (f : BitVec 4) (s : State) : (flagRl f s).waits = s.waits := rfl
@[simp] theorem flagRl_freeNum (f : BitVec 4) (s : State) : (flagRl f s).freeNum = s.freeNum := rfl
@[simp] theorem flagRl_rest (f : BitVec 4) (s : State) : (flagRl f s).rest = s.rest := rfl

/-! ## finish -/

@[simp] theorem finish_core (sw : Bool) (s : State) : (finish sw s).core = s.core := rfl
@[simp] theorem finish_cores (sw : Bool) (s : State) : (finish sw s).cores = s.cores := rfl
@[simp] theorem finish_mem (sw : Bool) (s : State) : (finish sw s).mem = s.mem := rfl
@[simp] theorem finish_poison (sw : Bool) (s : State) : (finish sw s).poison = s.poison := rfl
@[simp] theorem finish_launches (sw : Bool) (s : State) : (finish sw s).launches = s.launches := rfl
@[simp] theorem finish_tails (sw : Bool) (s : State) : (finish sw s).tails = s.tails := rfl
@[simp] theorem finish_orderNum (sw : Bool) (s : State) : (finish sw s).orderNum = s.orderNum := rfl
@[simp] theorem finish_flights (sw : Bool) (s : State) : (finish sw s).flights = s.flights := rfl
@[simp] theorem finish_flightNum (sw : Bool) (s : State) : (finish sw s).flightNum = s.flightNum := rfl
@[simp] theorem finish_ctls (sw : Bool) (s : State) : (finish sw s).ctls = s.ctls := rfl
@[simp] theorem finish_retorts (sw : Bool) (s : State) : (finish sw s).retorts = s.retorts := rfl
@[simp] theorem finish_holds (sw : Bool) (s : State) : (finish sw s).holds = s.holds := rfl
@[simp] theorem finish_evq (sw : Bool) (s : State) : (finish sw s).evq = s.evq := rfl
@[simp] theorem finish_evNum (sw : Bool) (s : State) : (finish sw s).evNum = s.evNum := rfl
@[simp] theorem finish_waiters (sw : Bool) (s : State) : (finish sw s).waiters = s.waiters := rfl
@[simp] theorem finish_arrivals (sw : Bool) (s : State) : (finish sw s).arrivals = s.arrivals := rfl
@[simp] theorem finish_rounds (sw : Bool) (s : State) : (finish sw s).rounds = s.rounds := rfl
@[simp] theorem finish_roundNum (sw : Bool) (s : State) : (finish sw s).roundNum = s.roundNum := rfl
@[simp] theorem finish_steals (sw : Bool) (s : State) : (finish sw s).steals = s.steals := rfl
@[simp] theorem finish_parts (sw : Bool) (s : State) : (finish sw s).parts = s.parts := rfl
@[simp] theorem finish_transit (sw : Bool) (s : State) : (finish sw s).transit = s.transit := rfl
@[simp] theorem finish_lag (sw : Bool) (s : State) : (finish sw s).lag = s.lag := rfl
@[simp] theorem finish_hidden (sw : Bool) (s : State) : (finish sw s).hidden = s.hidden := rfl
@[simp] theorem finish_watches (sw : Bool) (s : State) : (finish sw s).watches = s.watches := rfl
@[simp] theorem finish_reds (sw : Bool) (s : State) : (finish sw s).reds = s.reds := rfl
@[simp] theorem finish_redq (sw : Bool) (s : State) : (finish sw s).redq = s.redq := rfl
@[simp] theorem finish_fab (sw : Bool) (s : State) : (finish sw s).fab = s.fab := rfl
@[simp] theorem finish_net (sw : Bool) (s : State) : (finish sw s).net = s.net := rfl
@[simp] theorem finish_routes (sw : Bool) (s : State) : (finish sw s).routes = s.routes := rfl
@[simp] theorem finish_host (sw : Bool) (s : State) : (finish sw s).host = s.host := rfl
@[simp] theorem finish_accel (sw : Bool) (s : State) : (finish sw s).accel = s.accel := rfl
@[simp] theorem finish_site (sw : Bool) (s : State) : (finish sw s).site = s.site := rfl
@[simp] theorem finish_feat (sw : Bool) (s : State) : (finish sw s).feat = s.feat := rfl
@[simp] theorem finish_fenced (sw : Bool) (s : State) : (finish sw s).fenced = s.fenced := rfl
@[simp] theorem finish_arb (sw : Bool) (s : State) : (finish sw s).arb = s.arb := rfl
@[simp] theorem finish_pipes (sw : Bool) (s : State) : (finish sw s).pipes = s.pipes := rfl
@[simp] theorem finish_inputs (sw : Bool) (s : State) : (finish sw s).inputs = s.inputs := rfl
@[simp] theorem finish_egress (sw : Bool) (s : State) : (finish sw s).egress = s.egress := rfl
@[simp] theorem finish_clk (sw : Bool) (s : State) : (finish sw s).clk = s.clk := rfl
@[simp] theorem finish_tick (sw : Bool) (s : State) : (finish sw s).tick = s.tick := rfl
@[simp] theorem finish_waits (sw : Bool) (s : State) : (finish sw s).waits = s.waits := rfl
@[simp] theorem finish_freeNum (sw : Bool) (s : State) : (finish sw s).freeNum = s.freeNum := rfl
@[simp] theorem finish_rest (sw : Bool) (s : State) : (finish sw s).rest = s.rest := rfl

/-! ## close -/

@[simp] theorem close_core (a : CloseAct) (s : State) : (close a s).core = s.core := rfl
@[simp] theorem close_cores (a : CloseAct) (s : State) : (close a s).cores = s.cores := rfl
@[simp] theorem close_mem (a : CloseAct) (s : State) : (close a s).mem = s.mem := rfl
@[simp] theorem close_poison (a : CloseAct) (s : State) : (close a s).poison = s.poison := rfl
@[simp] theorem close_launches (a : CloseAct) (s : State) : (close a s).launches = s.launches := rfl
@[simp] theorem close_tails (a : CloseAct) (s : State) : (close a s).tails = s.tails := rfl
@[simp] theorem close_orderNum (a : CloseAct) (s : State) : (close a s).orderNum = s.orderNum := rfl
@[simp] theorem close_flights (a : CloseAct) (s : State) : (close a s).flights = s.flights := rfl
@[simp] theorem close_flightNum (a : CloseAct) (s : State) : (close a s).flightNum = s.flightNum := rfl
@[simp] theorem close_ctls (a : CloseAct) (s : State) : (close a s).ctls = s.ctls := rfl
@[simp] theorem close_retorts (a : CloseAct) (s : State) : (close a s).retorts = s.retorts := rfl
@[simp] theorem close_holds (a : CloseAct) (s : State) : (close a s).holds = s.holds := rfl
@[simp] theorem close_evq (a : CloseAct) (s : State) : (close a s).evq = s.evq := rfl
@[simp] theorem close_evNum (a : CloseAct) (s : State) : (close a s).evNum = s.evNum := rfl
@[simp] theorem close_waiters (a : CloseAct) (s : State) : (close a s).waiters = s.waiters := rfl
@[simp] theorem close_arrivals (a : CloseAct) (s : State) : (close a s).arrivals = s.arrivals := rfl
@[simp] theorem close_rounds (a : CloseAct) (s : State) : (close a s).rounds = s.rounds := rfl
@[simp] theorem close_roundNum (a : CloseAct) (s : State) : (close a s).roundNum = s.roundNum := rfl
@[simp] theorem close_steals (a : CloseAct) (s : State) : (close a s).steals = s.steals := rfl
@[simp] theorem close_parts (a : CloseAct) (s : State) : (close a s).parts = s.parts := rfl
@[simp] theorem close_transit (a : CloseAct) (s : State) : (close a s).transit = s.transit := rfl
@[simp] theorem close_lag (a : CloseAct) (s : State) : (close a s).lag = s.lag := rfl
@[simp] theorem close_hidden (a : CloseAct) (s : State) : (close a s).hidden = s.hidden := rfl
@[simp] theorem close_watches (a : CloseAct) (s : State) : (close a s).watches = s.watches := rfl
@[simp] theorem close_reds (a : CloseAct) (s : State) : (close a s).reds = s.reds := rfl
@[simp] theorem close_redq (a : CloseAct) (s : State) : (close a s).redq = s.redq := rfl
@[simp] theorem close_fab (a : CloseAct) (s : State) : (close a s).fab = s.fab := rfl
@[simp] theorem close_net (a : CloseAct) (s : State) : (close a s).net = s.net := rfl
@[simp] theorem close_routes (a : CloseAct) (s : State) : (close a s).routes = s.routes := rfl
@[simp] theorem close_host (a : CloseAct) (s : State) : (close a s).host = s.host := rfl
@[simp] theorem close_accel (a : CloseAct) (s : State) : (close a s).accel = s.accel := rfl
@[simp] theorem close_site (a : CloseAct) (s : State) : (close a s).site = s.site := rfl
@[simp] theorem close_feat (a : CloseAct) (s : State) : (close a s).feat = s.feat := rfl
@[simp] theorem close_fenced (a : CloseAct) (s : State) : (close a s).fenced = s.fenced := rfl
@[simp] theorem close_arb (a : CloseAct) (s : State) : (close a s).arb = s.arb := rfl
@[simp] theorem close_pipes (a : CloseAct) (s : State) : (close a s).pipes = s.pipes := rfl
@[simp] theorem close_inputs (a : CloseAct) (s : State) : (close a s).inputs = s.inputs := rfl
@[simp] theorem close_egress (a : CloseAct) (s : State) : (close a s).egress = s.egress := rfl
@[simp] theorem close_clk (a : CloseAct) (s : State) : (close a s).clk = s.clk := rfl
@[simp] theorem close_tick (a : CloseAct) (s : State) : (close a s).tick = s.tick := rfl
@[simp] theorem close_waits (a : CloseAct) (s : State) : (close a s).waits = s.waits := rfl
@[simp] theorem close_freeNum (a : CloseAct) (s : State) : (close a s).freeNum = s.freeNum := rfl
@[simp] theorem close_rest (a : CloseAct) (s : State) : (close a s).rest = s.rest := rfl

/-! ## wait -/

@[simp] theorem wait_core (w : Wait) (s : State) : (wait w s).core = s.core := rfl
@[simp] theorem wait_cores (w : Wait) (s : State) : (wait w s).cores = s.cores := rfl
@[simp] theorem wait_mem (w : Wait) (s : State) : (wait w s).mem = s.mem := rfl
@[simp] theorem wait_poison (w : Wait) (s : State) : (wait w s).poison = s.poison := rfl
@[simp] theorem wait_launches (w : Wait) (s : State) : (wait w s).launches = s.launches := rfl
@[simp] theorem wait_tails (w : Wait) (s : State) : (wait w s).tails = s.tails := rfl
@[simp] theorem wait_orderNum (w : Wait) (s : State) : (wait w s).orderNum = s.orderNum := rfl
@[simp] theorem wait_flights (w : Wait) (s : State) : (wait w s).flights = s.flights := rfl
@[simp] theorem wait_flightNum (w : Wait) (s : State) : (wait w s).flightNum = s.flightNum := rfl
@[simp] theorem wait_ctls (w : Wait) (s : State) : (wait w s).ctls = s.ctls := rfl
@[simp] theorem wait_retorts (w : Wait) (s : State) : (wait w s).retorts = s.retorts := rfl
@[simp] theorem wait_holds (w : Wait) (s : State) : (wait w s).holds = s.holds := rfl
@[simp] theorem wait_evq (w : Wait) (s : State) : (wait w s).evq = s.evq := rfl
@[simp] theorem wait_evNum (w : Wait) (s : State) : (wait w s).evNum = s.evNum := rfl
@[simp] theorem wait_waiters (w : Wait) (s : State) : (wait w s).waiters = s.waiters := rfl
@[simp] theorem wait_arrivals (w : Wait) (s : State) : (wait w s).arrivals = s.arrivals := rfl
@[simp] theorem wait_rounds (w : Wait) (s : State) : (wait w s).rounds = s.rounds := rfl
@[simp] theorem wait_roundNum (w : Wait) (s : State) : (wait w s).roundNum = s.roundNum := rfl
@[simp] theorem wait_steals (w : Wait) (s : State) : (wait w s).steals = s.steals := rfl
@[simp] theorem wait_parts (w : Wait) (s : State) : (wait w s).parts = s.parts := rfl
@[simp] theorem wait_transit (w : Wait) (s : State) : (wait w s).transit = s.transit := rfl
@[simp] theorem wait_lag (w : Wait) (s : State) : (wait w s).lag = s.lag := rfl
@[simp] theorem wait_hidden (w : Wait) (s : State) : (wait w s).hidden = s.hidden := rfl
@[simp] theorem wait_watches (w : Wait) (s : State) : (wait w s).watches = s.watches := rfl
@[simp] theorem wait_reds (w : Wait) (s : State) : (wait w s).reds = s.reds := rfl
@[simp] theorem wait_redq (w : Wait) (s : State) : (wait w s).redq = s.redq := rfl
@[simp] theorem wait_fab (w : Wait) (s : State) : (wait w s).fab = s.fab := rfl
@[simp] theorem wait_net (w : Wait) (s : State) : (wait w s).net = s.net := rfl
@[simp] theorem wait_routes (w : Wait) (s : State) : (wait w s).routes = s.routes := rfl
@[simp] theorem wait_host (w : Wait) (s : State) : (wait w s).host = s.host := rfl
@[simp] theorem wait_accel (w : Wait) (s : State) : (wait w s).accel = s.accel := rfl
@[simp] theorem wait_site (w : Wait) (s : State) : (wait w s).site = s.site := rfl
@[simp] theorem wait_feat (w : Wait) (s : State) : (wait w s).feat = s.feat := rfl
@[simp] theorem wait_fenced (w : Wait) (s : State) : (wait w s).fenced = s.fenced := rfl
@[simp] theorem wait_arb (w : Wait) (s : State) : (wait w s).arb = s.arb := rfl
@[simp] theorem wait_pipes (w : Wait) (s : State) : (wait w s).pipes = s.pipes := rfl
@[simp] theorem wait_inputs (w : Wait) (s : State) : (wait w s).inputs = s.inputs := rfl
@[simp] theorem wait_egress (w : Wait) (s : State) : (wait w s).egress = s.egress := rfl
@[simp] theorem wait_clk (w : Wait) (s : State) : (wait w s).clk = s.clk := rfl
@[simp] theorem wait_tick (w : Wait) (s : State) : (wait w s).tick = s.tick := rfl
@[simp] theorem wait_waits (w : Wait) (s : State) : (wait w s).waits = s.waits := rfl
@[simp] theorem wait_freeNum (w : Wait) (s : State) : (wait w s).freeNum = s.freeNum := rfl
@[simp] theorem wait_rest (w : Wait) (s : State) : (wait w s).rest = s.rest := rfl

/-! ## issued -/

@[simp] theorem issued_core (sw : Bool) (ws : List RegWrite) (s : State) : (issued sw ws s).core = s.core := rfl
@[simp] theorem issued_cores (sw : Bool) (ws : List RegWrite) (s : State) : (issued sw ws s).cores = s.cores := rfl
@[simp] theorem issued_mem (sw : Bool) (ws : List RegWrite) (s : State) : (issued sw ws s).mem = s.mem := rfl
@[simp] theorem issued_poison (sw : Bool) (ws : List RegWrite) (s : State) : (issued sw ws s).poison = s.poison := rfl
@[simp] theorem issued_launches (sw : Bool) (ws : List RegWrite) (s : State) : (issued sw ws s).launches = s.launches := rfl
@[simp] theorem issued_tails (sw : Bool) (ws : List RegWrite) (s : State) : (issued sw ws s).tails = s.tails := rfl
@[simp] theorem issued_orderNum (sw : Bool) (ws : List RegWrite) (s : State) : (issued sw ws s).orderNum = s.orderNum := rfl
@[simp] theorem issued_flights (sw : Bool) (ws : List RegWrite) (s : State) : (issued sw ws s).flights = s.flights := rfl
@[simp] theorem issued_flightNum (sw : Bool) (ws : List RegWrite) (s : State) : (issued sw ws s).flightNum = s.flightNum := rfl
@[simp] theorem issued_ctls (sw : Bool) (ws : List RegWrite) (s : State) : (issued sw ws s).ctls = s.ctls := rfl
@[simp] theorem issued_retorts (sw : Bool) (ws : List RegWrite) (s : State) : (issued sw ws s).retorts = s.retorts := rfl
@[simp] theorem issued_holds (sw : Bool) (ws : List RegWrite) (s : State) : (issued sw ws s).holds = s.holds := rfl
@[simp] theorem issued_evq (sw : Bool) (ws : List RegWrite) (s : State) : (issued sw ws s).evq = s.evq := rfl
@[simp] theorem issued_evNum (sw : Bool) (ws : List RegWrite) (s : State) : (issued sw ws s).evNum = s.evNum := rfl
@[simp] theorem issued_waiters (sw : Bool) (ws : List RegWrite) (s : State) : (issued sw ws s).waiters = s.waiters := rfl
@[simp] theorem issued_arrivals (sw : Bool) (ws : List RegWrite) (s : State) : (issued sw ws s).arrivals = s.arrivals := rfl
@[simp] theorem issued_rounds (sw : Bool) (ws : List RegWrite) (s : State) : (issued sw ws s).rounds = s.rounds := rfl
@[simp] theorem issued_roundNum (sw : Bool) (ws : List RegWrite) (s : State) : (issued sw ws s).roundNum = s.roundNum := rfl
@[simp] theorem issued_steals (sw : Bool) (ws : List RegWrite) (s : State) : (issued sw ws s).steals = s.steals := rfl
@[simp] theorem issued_parts (sw : Bool) (ws : List RegWrite) (s : State) : (issued sw ws s).parts = s.parts := rfl
@[simp] theorem issued_transit (sw : Bool) (ws : List RegWrite) (s : State) : (issued sw ws s).transit = s.transit := rfl
@[simp] theorem issued_lag (sw : Bool) (ws : List RegWrite) (s : State) : (issued sw ws s).lag = s.lag := rfl
@[simp] theorem issued_hidden (sw : Bool) (ws : List RegWrite) (s : State) : (issued sw ws s).hidden = s.hidden := rfl
@[simp] theorem issued_watches (sw : Bool) (ws : List RegWrite) (s : State) : (issued sw ws s).watches = s.watches := rfl
@[simp] theorem issued_reds (sw : Bool) (ws : List RegWrite) (s : State) : (issued sw ws s).reds = s.reds := rfl
@[simp] theorem issued_redq (sw : Bool) (ws : List RegWrite) (s : State) : (issued sw ws s).redq = s.redq := rfl
@[simp] theorem issued_fab (sw : Bool) (ws : List RegWrite) (s : State) : (issued sw ws s).fab = s.fab := rfl
@[simp] theorem issued_net (sw : Bool) (ws : List RegWrite) (s : State) : (issued sw ws s).net = s.net := rfl
@[simp] theorem issued_routes (sw : Bool) (ws : List RegWrite) (s : State) : (issued sw ws s).routes = s.routes := rfl
@[simp] theorem issued_host (sw : Bool) (ws : List RegWrite) (s : State) : (issued sw ws s).host = s.host := rfl
@[simp] theorem issued_accel (sw : Bool) (ws : List RegWrite) (s : State) : (issued sw ws s).accel = s.accel := rfl
@[simp] theorem issued_site (sw : Bool) (ws : List RegWrite) (s : State) : (issued sw ws s).site = s.site := rfl
@[simp] theorem issued_feat (sw : Bool) (ws : List RegWrite) (s : State) : (issued sw ws s).feat = s.feat := rfl
@[simp] theorem issued_fenced (sw : Bool) (ws : List RegWrite) (s : State) : (issued sw ws s).fenced = s.fenced := rfl
@[simp] theorem issued_arb (sw : Bool) (ws : List RegWrite) (s : State) : (issued sw ws s).arb = s.arb := rfl
@[simp] theorem issued_pipes (sw : Bool) (ws : List RegWrite) (s : State) : (issued sw ws s).pipes = s.pipes := rfl
@[simp] theorem issued_inputs (sw : Bool) (ws : List RegWrite) (s : State) : (issued sw ws s).inputs = s.inputs := rfl
@[simp] theorem issued_egress (sw : Bool) (ws : List RegWrite) (s : State) : (issued sw ws s).egress = s.egress := rfl
@[simp] theorem issued_clk (sw : Bool) (ws : List RegWrite) (s : State) : (issued sw ws s).clk = s.clk := rfl
@[simp] theorem issued_tick (sw : Bool) (ws : List RegWrite) (s : State) : (issued sw ws s).tick = s.tick := rfl
@[simp] theorem issued_waits (sw : Bool) (ws : List RegWrite) (s : State) : (issued sw ws s).waits = s.waits := rfl
@[simp] theorem issued_freeNum (sw : Bool) (ws : List RegWrite) (s : State) : (issued sw ws s).freeNum = s.freeNum := rfl
@[simp] theorem issued_rest (sw : Bool) (ws : List RegWrite) (s : State) : (issued sw ws s).rest = s.rest := rfl

/-! ## closes -/

@[simp] theorem closes_core (a : CloseAct) (s : State) : (closes a s).core = s.core := rfl
@[simp] theorem closes_cores (a : CloseAct) (s : State) : (closes a s).cores = s.cores := rfl
@[simp] theorem closes_mem (a : CloseAct) (s : State) : (closes a s).mem = s.mem := rfl
@[simp] theorem closes_poison (a : CloseAct) (s : State) : (closes a s).poison = s.poison := rfl
@[simp] theorem closes_launches (a : CloseAct) (s : State) : (closes a s).launches = s.launches := rfl
@[simp] theorem closes_tails (a : CloseAct) (s : State) : (closes a s).tails = s.tails := rfl
@[simp] theorem closes_orderNum (a : CloseAct) (s : State) : (closes a s).orderNum = s.orderNum := rfl
@[simp] theorem closes_flights (a : CloseAct) (s : State) : (closes a s).flights = s.flights := rfl
@[simp] theorem closes_flightNum (a : CloseAct) (s : State) : (closes a s).flightNum = s.flightNum := rfl
@[simp] theorem closes_ctls (a : CloseAct) (s : State) : (closes a s).ctls = s.ctls := rfl
@[simp] theorem closes_retorts (a : CloseAct) (s : State) : (closes a s).retorts = s.retorts := rfl
@[simp] theorem closes_holds (a : CloseAct) (s : State) : (closes a s).holds = s.holds := rfl
@[simp] theorem closes_evq (a : CloseAct) (s : State) : (closes a s).evq = s.evq := rfl
@[simp] theorem closes_evNum (a : CloseAct) (s : State) : (closes a s).evNum = s.evNum := rfl
@[simp] theorem closes_waiters (a : CloseAct) (s : State) : (closes a s).waiters = s.waiters := rfl
@[simp] theorem closes_arrivals (a : CloseAct) (s : State) : (closes a s).arrivals = s.arrivals := rfl
@[simp] theorem closes_rounds (a : CloseAct) (s : State) : (closes a s).rounds = s.rounds := rfl
@[simp] theorem closes_roundNum (a : CloseAct) (s : State) : (closes a s).roundNum = s.roundNum := rfl
@[simp] theorem closes_steals (a : CloseAct) (s : State) : (closes a s).steals = s.steals := rfl
@[simp] theorem closes_parts (a : CloseAct) (s : State) : (closes a s).parts = s.parts := rfl
@[simp] theorem closes_transit (a : CloseAct) (s : State) : (closes a s).transit = s.transit := rfl
@[simp] theorem closes_lag (a : CloseAct) (s : State) : (closes a s).lag = s.lag := rfl
@[simp] theorem closes_hidden (a : CloseAct) (s : State) : (closes a s).hidden = s.hidden := rfl
@[simp] theorem closes_watches (a : CloseAct) (s : State) : (closes a s).watches = s.watches := rfl
@[simp] theorem closes_reds (a : CloseAct) (s : State) : (closes a s).reds = s.reds := rfl
@[simp] theorem closes_redq (a : CloseAct) (s : State) : (closes a s).redq = s.redq := rfl
@[simp] theorem closes_fab (a : CloseAct) (s : State) : (closes a s).fab = s.fab := rfl
@[simp] theorem closes_net (a : CloseAct) (s : State) : (closes a s).net = s.net := rfl
@[simp] theorem closes_routes (a : CloseAct) (s : State) : (closes a s).routes = s.routes := rfl
@[simp] theorem closes_host (a : CloseAct) (s : State) : (closes a s).host = s.host := rfl
@[simp] theorem closes_accel (a : CloseAct) (s : State) : (closes a s).accel = s.accel := rfl
@[simp] theorem closes_site (a : CloseAct) (s : State) : (closes a s).site = s.site := rfl
@[simp] theorem closes_feat (a : CloseAct) (s : State) : (closes a s).feat = s.feat := rfl
@[simp] theorem closes_fenced (a : CloseAct) (s : State) : (closes a s).fenced = s.fenced := rfl
@[simp] theorem closes_arb (a : CloseAct) (s : State) : (closes a s).arb = s.arb := rfl
@[simp] theorem closes_pipes (a : CloseAct) (s : State) : (closes a s).pipes = s.pipes := rfl
@[simp] theorem closes_inputs (a : CloseAct) (s : State) : (closes a s).inputs = s.inputs := rfl
@[simp] theorem closes_egress (a : CloseAct) (s : State) : (closes a s).egress = s.egress := rfl
@[simp] theorem closes_clk (a : CloseAct) (s : State) : (closes a s).clk = s.clk := rfl
@[simp] theorem closes_tick (a : CloseAct) (s : State) : (closes a s).tick = s.tick := rfl
@[simp] theorem closes_waits (a : CloseAct) (s : State) : (closes a s).waits = s.waits := rfl
@[simp] theorem closes_freeNum (a : CloseAct) (s : State) : (closes a s).freeNum = s.freeNum := rfl
@[simp] theorem closes_rest (a : CloseAct) (s : State) : (closes a s).rest = s.rest := rfl

/-! ## The context after them -/

@[simp] theorem put_ctx_num (w : RegWrite) (s : State) : (put w s).ctx.num = s.ctx.num := rfl
@[simp] theorem put_ctx_status (w : RegWrite) (s : State) : (put w s).ctx.status = s.ctx.status := rfl
@[simp] theorem put_ctx_task (w : RegWrite) (s : State) : (put w s).ctx.task = s.ctx.task := rfl
@[simp] theorem put_ctx_cls (w : RegWrite) (s : State) : (put w s).ctx.cls = s.ctx.cls := rfl
@[simp] theorem put_ctx_rank (w : RegWrite) (s : State) : (put w s).ctx.rank = s.ctx.rank := rfl
@[simp] theorem put_ctx_inc (w : RegWrite) (s : State) : (put w s).ctx.inc = s.ctx.inc := rfl
@[simp] theorem put_ctx_pc (w : RegWrite) (s : State) : (put w s).ctx.pc = s.ctx.pc := rfl
@[simp] theorem put_ctx_run (w : RegWrite) (s : State) : (put w s).ctx.run = s.ctx.run := rfl
@[simp] theorem put_ctx_gcount (w : RegWrite) (s : State) : (put w s).ctx.gcount = s.ctx.gcount := rfl
@[simp] theorem put_ctx_pendFp (w : RegWrite) (s : State) : (put w s).ctx.pendFp = s.ctx.pendFp := rfl
@[simp] theorem put_ctx_pendRl (w : RegWrite) (s : State) : (put w s).ctx.pendRl = s.ctx.pendRl := rfl
@[simp] theorem put_ctx_stack (w : RegWrite) (s : State) : (put w s).ctx.stack = s.ctx.stack := rfl
@[simp] theorem put_ctx_depth (w : RegWrite) (s : State) : (put w s).ctx.depth = s.ctx.depth := rfl
@[simp] theorem put_ctx_sb (w : RegWrite) (s : State) : (put w s).ctx.sb = s.ctx.sb := rfl
@[simp] theorem put_ctx_nv (w : RegWrite) (s : State) : (put w s).ctx.nv = s.ctx.nv := rfl
@[simp] theorem put_ctx_nl (w : RegWrite) (s : State) : (put w s).ctx.nl = s.ctx.nl := rfl
@[simp] theorem put_ctx_na (w : RegWrite) (s : State) : (put w s).ctx.na = s.ctx.na := rfl
@[simp] theorem put_ctx_vregs (w : RegWrite) (s : State) : (put w s).ctx.vregs = s.ctx.vregs := rfl
@[simp] theorem put_ctx_masks (w : RegWrite) (s : State) : (put w s).ctx.masks = s.ctx.masks := rfl
@[simp] theorem put_ctx_lists (w : RegWrite) (s : State) : (put w s).ctx.lists = s.ctx.lists := rfl
@[simp] theorem put_ctx_eregs (w : RegWrite) (s : State) : (put w s).ctx.eregs = s.ctx.eregs := rfl
@[simp] theorem put_ctx_slots (w : RegWrite) (s : State) : (put w s).ctx.slots = s.ctx.slots := rfl
@[simp] theorem put_ctx_entry (w : RegWrite) (s : State) : (put w s).ctx.entry = s.ctx.entry := rfl
@[simp] theorem put_ctx_msg (w : RegWrite) (s : State) : (put w s).ctx.msg = s.ctx.msg := rfl
@[simp] theorem put_ctx_trap (w : RegWrite) (s : State) : (put w s).ctx.trap = s.ctx.trap := rfl
@[simp] theorem put_ctx_wto (w : RegWrite) (s : State) : (put w s).ctx.wto = s.ctx.wto := rfl
@[simp] theorem put_ctx_fpflags (w : RegWrite) (s : State) : (put w s).ctx.fpflags = s.ctx.fpflags := rfl
@[simp] theorem put_ctx_fprnd (w : RegWrite) (s : State) : (put w s).ctx.fprnd = s.ctx.fprnd := rfl
@[simp] theorem put_ctx_rlstat (w : RegWrite) (s : State) : (put w s).ctx.rlstat = s.ctx.rlstat := rfl
@[simp] theorem put_ctx_rtstat (w : RegWrite) (s : State) : (put w s).ctx.rtstat = s.ctx.rtstat := rfl
@[simp] theorem put_ctx_limit (w : RegWrite) (s : State) : (put w s).ctx.limit = s.ctx.limit := rfl
@[simp] theorem put_ctx_start (w : RegWrite) (s : State) : (put w s).ctx.start = s.ctx.start := rfl
@[simp] theorem put_ctx_spbase (w : RegWrite) (s : State) : (put w s).ctx.spbase = s.ctx.spbase := rfl
@[simp] theorem put_ctx_logspad (w : RegWrite) (s : State) : (put w s).ctx.logspad = s.ctx.logspad := rfl
@[simp] theorem put_ctx_seq (w : RegWrite) (s : State) : (put w s).ctx.seq = s.ctx.seq := rfl
@[simp] theorem put_ctx_rqOwed (w : RegWrite) (s : State) : (put w s).ctx.rqOwed = s.ctx.rqOwed := rfl
@[simp] theorem put_ctx_m2wait (w : RegWrite) (s : State) : (put w s).ctx.m2wait = s.ctx.m2wait := rfl
@[simp] theorem put_ctx_since (w : RegWrite) (s : State) : (put w s).ctx.since = s.ctx.since := rfl
@[simp] theorem put_ctx_got (w : RegWrite) (s : State) : (put w s).ctx.got = s.ctx.got := rfl
@[simp] theorem put_ctx_fva (w : RegWrite) (s : State) : (put w s).ctx.fva = s.ctx.fva := rfl
@[simp] theorem put_ctx_xfail (w : RegWrite) (s : State) : (put w s).ctx.xfail = s.ctx.xfail := rfl
@[simp] theorem put_ctx_fresh (w : RegWrite) (s : State) : (put w s).ctx.fresh = s.ctx.fresh := rfl
@[simp] theorem put_ctx_freshSys (w : RegWrite) (s : State) : (put w s).ctx.freshSys = s.ctx.freshSys := rfl
@[simp] theorem put_ctx_saw (w : RegWrite) (s : State) : (put w s).ctx.saw = s.ctx.saw := rfl
@[simp] theorem put_ctx_scope (w : RegWrite) (s : State) : (put w s).ctx.scope = s.ctx.scope := rfl

@[simp] theorem flagFp_ctx_num (f : BitVec 6) (s : State) : (flagFp f s).ctx.num = s.ctx.num := rfl
@[simp] theorem flagFp_ctx_status (f : BitVec 6) (s : State) : (flagFp f s).ctx.status = s.ctx.status := rfl
@[simp] theorem flagFp_ctx_task (f : BitVec 6) (s : State) : (flagFp f s).ctx.task = s.ctx.task := rfl
@[simp] theorem flagFp_ctx_cls (f : BitVec 6) (s : State) : (flagFp f s).ctx.cls = s.ctx.cls := rfl
@[simp] theorem flagFp_ctx_rank (f : BitVec 6) (s : State) : (flagFp f s).ctx.rank = s.ctx.rank := rfl
@[simp] theorem flagFp_ctx_inc (f : BitVec 6) (s : State) : (flagFp f s).ctx.inc = s.ctx.inc := rfl
@[simp] theorem flagFp_ctx_pc (f : BitVec 6) (s : State) : (flagFp f s).ctx.pc = s.ctx.pc := rfl
@[simp] theorem flagFp_ctx_run (f : BitVec 6) (s : State) : (flagFp f s).ctx.run = s.ctx.run := rfl
@[simp] theorem flagFp_ctx_gcount (f : BitVec 6) (s : State) : (flagFp f s).ctx.gcount = s.ctx.gcount := rfl
@[simp] theorem flagFp_ctx_pend (f : BitVec 6) (s : State) : (flagFp f s).ctx.pend = s.ctx.pend := rfl
@[simp] theorem flagFp_ctx_pendRl (f : BitVec 6) (s : State) : (flagFp f s).ctx.pendRl = s.ctx.pendRl := rfl
@[simp] theorem flagFp_ctx_stack (f : BitVec 6) (s : State) : (flagFp f s).ctx.stack = s.ctx.stack := rfl
@[simp] theorem flagFp_ctx_depth (f : BitVec 6) (s : State) : (flagFp f s).ctx.depth = s.ctx.depth := rfl
@[simp] theorem flagFp_ctx_sb (f : BitVec 6) (s : State) : (flagFp f s).ctx.sb = s.ctx.sb := rfl
@[simp] theorem flagFp_ctx_nv (f : BitVec 6) (s : State) : (flagFp f s).ctx.nv = s.ctx.nv := rfl
@[simp] theorem flagFp_ctx_nl (f : BitVec 6) (s : State) : (flagFp f s).ctx.nl = s.ctx.nl := rfl
@[simp] theorem flagFp_ctx_na (f : BitVec 6) (s : State) : (flagFp f s).ctx.na = s.ctx.na := rfl
@[simp] theorem flagFp_ctx_vregs (f : BitVec 6) (s : State) : (flagFp f s).ctx.vregs = s.ctx.vregs := rfl
@[simp] theorem flagFp_ctx_masks (f : BitVec 6) (s : State) : (flagFp f s).ctx.masks = s.ctx.masks := rfl
@[simp] theorem flagFp_ctx_lists (f : BitVec 6) (s : State) : (flagFp f s).ctx.lists = s.ctx.lists := rfl
@[simp] theorem flagFp_ctx_eregs (f : BitVec 6) (s : State) : (flagFp f s).ctx.eregs = s.ctx.eregs := rfl
@[simp] theorem flagFp_ctx_slots (f : BitVec 6) (s : State) : (flagFp f s).ctx.slots = s.ctx.slots := rfl
@[simp] theorem flagFp_ctx_entry (f : BitVec 6) (s : State) : (flagFp f s).ctx.entry = s.ctx.entry := rfl
@[simp] theorem flagFp_ctx_msg (f : BitVec 6) (s : State) : (flagFp f s).ctx.msg = s.ctx.msg := rfl
@[simp] theorem flagFp_ctx_trap (f : BitVec 6) (s : State) : (flagFp f s).ctx.trap = s.ctx.trap := rfl
@[simp] theorem flagFp_ctx_wto (f : BitVec 6) (s : State) : (flagFp f s).ctx.wto = s.ctx.wto := rfl
@[simp] theorem flagFp_ctx_fpflags (f : BitVec 6) (s : State) : (flagFp f s).ctx.fpflags = s.ctx.fpflags := rfl
@[simp] theorem flagFp_ctx_fprnd (f : BitVec 6) (s : State) : (flagFp f s).ctx.fprnd = s.ctx.fprnd := rfl
@[simp] theorem flagFp_ctx_rlstat (f : BitVec 6) (s : State) : (flagFp f s).ctx.rlstat = s.ctx.rlstat := rfl
@[simp] theorem flagFp_ctx_rtstat (f : BitVec 6) (s : State) : (flagFp f s).ctx.rtstat = s.ctx.rtstat := rfl
@[simp] theorem flagFp_ctx_limit (f : BitVec 6) (s : State) : (flagFp f s).ctx.limit = s.ctx.limit := rfl
@[simp] theorem flagFp_ctx_start (f : BitVec 6) (s : State) : (flagFp f s).ctx.start = s.ctx.start := rfl
@[simp] theorem flagFp_ctx_spbase (f : BitVec 6) (s : State) : (flagFp f s).ctx.spbase = s.ctx.spbase := rfl
@[simp] theorem flagFp_ctx_logspad (f : BitVec 6) (s : State) : (flagFp f s).ctx.logspad = s.ctx.logspad := rfl
@[simp] theorem flagFp_ctx_seq (f : BitVec 6) (s : State) : (flagFp f s).ctx.seq = s.ctx.seq := rfl
@[simp] theorem flagFp_ctx_rqOwed (f : BitVec 6) (s : State) : (flagFp f s).ctx.rqOwed = s.ctx.rqOwed := rfl
@[simp] theorem flagFp_ctx_m2wait (f : BitVec 6) (s : State) : (flagFp f s).ctx.m2wait = s.ctx.m2wait := rfl
@[simp] theorem flagFp_ctx_since (f : BitVec 6) (s : State) : (flagFp f s).ctx.since = s.ctx.since := rfl
@[simp] theorem flagFp_ctx_got (f : BitVec 6) (s : State) : (flagFp f s).ctx.got = s.ctx.got := rfl
@[simp] theorem flagFp_ctx_fva (f : BitVec 6) (s : State) : (flagFp f s).ctx.fva = s.ctx.fva := rfl
@[simp] theorem flagFp_ctx_xfail (f : BitVec 6) (s : State) : (flagFp f s).ctx.xfail = s.ctx.xfail := rfl
@[simp] theorem flagFp_ctx_fresh (f : BitVec 6) (s : State) : (flagFp f s).ctx.fresh = s.ctx.fresh := rfl
@[simp] theorem flagFp_ctx_freshSys (f : BitVec 6) (s : State) : (flagFp f s).ctx.freshSys = s.ctx.freshSys := rfl
@[simp] theorem flagFp_ctx_saw (f : BitVec 6) (s : State) : (flagFp f s).ctx.saw = s.ctx.saw := rfl
@[simp] theorem flagFp_ctx_scope (f : BitVec 6) (s : State) : (flagFp f s).ctx.scope = s.ctx.scope := rfl

@[simp] theorem flagRl_ctx_num (f : BitVec 4) (s : State) : (flagRl f s).ctx.num = s.ctx.num := rfl
@[simp] theorem flagRl_ctx_status (f : BitVec 4) (s : State) : (flagRl f s).ctx.status = s.ctx.status := rfl
@[simp] theorem flagRl_ctx_task (f : BitVec 4) (s : State) : (flagRl f s).ctx.task = s.ctx.task := rfl
@[simp] theorem flagRl_ctx_cls (f : BitVec 4) (s : State) : (flagRl f s).ctx.cls = s.ctx.cls := rfl
@[simp] theorem flagRl_ctx_rank (f : BitVec 4) (s : State) : (flagRl f s).ctx.rank = s.ctx.rank := rfl
@[simp] theorem flagRl_ctx_inc (f : BitVec 4) (s : State) : (flagRl f s).ctx.inc = s.ctx.inc := rfl
@[simp] theorem flagRl_ctx_pc (f : BitVec 4) (s : State) : (flagRl f s).ctx.pc = s.ctx.pc := rfl
@[simp] theorem flagRl_ctx_run (f : BitVec 4) (s : State) : (flagRl f s).ctx.run = s.ctx.run := rfl
@[simp] theorem flagRl_ctx_gcount (f : BitVec 4) (s : State) : (flagRl f s).ctx.gcount = s.ctx.gcount := rfl
@[simp] theorem flagRl_ctx_pend (f : BitVec 4) (s : State) : (flagRl f s).ctx.pend = s.ctx.pend := rfl
@[simp] theorem flagRl_ctx_pendFp (f : BitVec 4) (s : State) : (flagRl f s).ctx.pendFp = s.ctx.pendFp := rfl
@[simp] theorem flagRl_ctx_stack (f : BitVec 4) (s : State) : (flagRl f s).ctx.stack = s.ctx.stack := rfl
@[simp] theorem flagRl_ctx_depth (f : BitVec 4) (s : State) : (flagRl f s).ctx.depth = s.ctx.depth := rfl
@[simp] theorem flagRl_ctx_sb (f : BitVec 4) (s : State) : (flagRl f s).ctx.sb = s.ctx.sb := rfl
@[simp] theorem flagRl_ctx_nv (f : BitVec 4) (s : State) : (flagRl f s).ctx.nv = s.ctx.nv := rfl
@[simp] theorem flagRl_ctx_nl (f : BitVec 4) (s : State) : (flagRl f s).ctx.nl = s.ctx.nl := rfl
@[simp] theorem flagRl_ctx_na (f : BitVec 4) (s : State) : (flagRl f s).ctx.na = s.ctx.na := rfl
@[simp] theorem flagRl_ctx_vregs (f : BitVec 4) (s : State) : (flagRl f s).ctx.vregs = s.ctx.vregs := rfl
@[simp] theorem flagRl_ctx_masks (f : BitVec 4) (s : State) : (flagRl f s).ctx.masks = s.ctx.masks := rfl
@[simp] theorem flagRl_ctx_lists (f : BitVec 4) (s : State) : (flagRl f s).ctx.lists = s.ctx.lists := rfl
@[simp] theorem flagRl_ctx_eregs (f : BitVec 4) (s : State) : (flagRl f s).ctx.eregs = s.ctx.eregs := rfl
@[simp] theorem flagRl_ctx_slots (f : BitVec 4) (s : State) : (flagRl f s).ctx.slots = s.ctx.slots := rfl
@[simp] theorem flagRl_ctx_entry (f : BitVec 4) (s : State) : (flagRl f s).ctx.entry = s.ctx.entry := rfl
@[simp] theorem flagRl_ctx_msg (f : BitVec 4) (s : State) : (flagRl f s).ctx.msg = s.ctx.msg := rfl
@[simp] theorem flagRl_ctx_trap (f : BitVec 4) (s : State) : (flagRl f s).ctx.trap = s.ctx.trap := rfl
@[simp] theorem flagRl_ctx_wto (f : BitVec 4) (s : State) : (flagRl f s).ctx.wto = s.ctx.wto := rfl
@[simp] theorem flagRl_ctx_fpflags (f : BitVec 4) (s : State) : (flagRl f s).ctx.fpflags = s.ctx.fpflags := rfl
@[simp] theorem flagRl_ctx_fprnd (f : BitVec 4) (s : State) : (flagRl f s).ctx.fprnd = s.ctx.fprnd := rfl
@[simp] theorem flagRl_ctx_rlstat (f : BitVec 4) (s : State) : (flagRl f s).ctx.rlstat = s.ctx.rlstat := rfl
@[simp] theorem flagRl_ctx_rtstat (f : BitVec 4) (s : State) : (flagRl f s).ctx.rtstat = s.ctx.rtstat := rfl
@[simp] theorem flagRl_ctx_limit (f : BitVec 4) (s : State) : (flagRl f s).ctx.limit = s.ctx.limit := rfl
@[simp] theorem flagRl_ctx_start (f : BitVec 4) (s : State) : (flagRl f s).ctx.start = s.ctx.start := rfl
@[simp] theorem flagRl_ctx_spbase (f : BitVec 4) (s : State) : (flagRl f s).ctx.spbase = s.ctx.spbase := rfl
@[simp] theorem flagRl_ctx_logspad (f : BitVec 4) (s : State) : (flagRl f s).ctx.logspad = s.ctx.logspad := rfl
@[simp] theorem flagRl_ctx_seq (f : BitVec 4) (s : State) : (flagRl f s).ctx.seq = s.ctx.seq := rfl
@[simp] theorem flagRl_ctx_rqOwed (f : BitVec 4) (s : State) : (flagRl f s).ctx.rqOwed = s.ctx.rqOwed := rfl
@[simp] theorem flagRl_ctx_m2wait (f : BitVec 4) (s : State) : (flagRl f s).ctx.m2wait = s.ctx.m2wait := rfl
@[simp] theorem flagRl_ctx_since (f : BitVec 4) (s : State) : (flagRl f s).ctx.since = s.ctx.since := rfl
@[simp] theorem flagRl_ctx_got (f : BitVec 4) (s : State) : (flagRl f s).ctx.got = s.ctx.got := rfl
@[simp] theorem flagRl_ctx_fva (f : BitVec 4) (s : State) : (flagRl f s).ctx.fva = s.ctx.fva := rfl
@[simp] theorem flagRl_ctx_xfail (f : BitVec 4) (s : State) : (flagRl f s).ctx.xfail = s.ctx.xfail := rfl
@[simp] theorem flagRl_ctx_fresh (f : BitVec 4) (s : State) : (flagRl f s).ctx.fresh = s.ctx.fresh := rfl
@[simp] theorem flagRl_ctx_freshSys (f : BitVec 4) (s : State) : (flagRl f s).ctx.freshSys = s.ctx.freshSys := rfl
@[simp] theorem flagRl_ctx_saw (f : BitVec 4) (s : State) : (flagRl f s).ctx.saw = s.ctx.saw := rfl
@[simp] theorem flagRl_ctx_scope (f : BitVec 4) (s : State) : (flagRl f s).ctx.scope = s.ctx.scope := rfl

@[simp] theorem finish_ctx_num (sw : Bool) (s : State) : (finish sw s).ctx.num = s.ctx.num := rfl
@[simp] theorem finish_ctx_task (sw : Bool) (s : State) : (finish sw s).ctx.task = s.ctx.task := rfl
@[simp] theorem finish_ctx_cls (sw : Bool) (s : State) : (finish sw s).ctx.cls = s.ctx.cls := rfl
@[simp] theorem finish_ctx_rank (sw : Bool) (s : State) : (finish sw s).ctx.rank = s.ctx.rank := rfl
@[simp] theorem finish_ctx_inc (sw : Bool) (s : State) : (finish sw s).ctx.inc = s.ctx.inc := rfl
@[simp] theorem finish_ctx_pend (sw : Bool) (s : State) : (finish sw s).ctx.pend = s.ctx.pend := rfl
@[simp] theorem finish_ctx_pendFp (sw : Bool) (s : State) : (finish sw s).ctx.pendFp = s.ctx.pendFp := rfl
@[simp] theorem finish_ctx_pendRl (sw : Bool) (s : State) : (finish sw s).ctx.pendRl = s.ctx.pendRl := rfl
@[simp] theorem finish_ctx_stack (sw : Bool) (s : State) : (finish sw s).ctx.stack = s.ctx.stack := rfl
@[simp] theorem finish_ctx_depth (sw : Bool) (s : State) : (finish sw s).ctx.depth = s.ctx.depth := rfl
@[simp] theorem finish_ctx_sb (sw : Bool) (s : State) : (finish sw s).ctx.sb = s.ctx.sb := rfl
@[simp] theorem finish_ctx_nv (sw : Bool) (s : State) : (finish sw s).ctx.nv = s.ctx.nv := rfl
@[simp] theorem finish_ctx_nl (sw : Bool) (s : State) : (finish sw s).ctx.nl = s.ctx.nl := rfl
@[simp] theorem finish_ctx_na (sw : Bool) (s : State) : (finish sw s).ctx.na = s.ctx.na := rfl
@[simp] theorem finish_ctx_vregs (sw : Bool) (s : State) : (finish sw s).ctx.vregs = s.ctx.vregs := rfl
@[simp] theorem finish_ctx_masks (sw : Bool) (s : State) : (finish sw s).ctx.masks = s.ctx.masks := rfl
@[simp] theorem finish_ctx_lists (sw : Bool) (s : State) : (finish sw s).ctx.lists = s.ctx.lists := rfl
@[simp] theorem finish_ctx_eregs (sw : Bool) (s : State) : (finish sw s).ctx.eregs = s.ctx.eregs := rfl
@[simp] theorem finish_ctx_slots (sw : Bool) (s : State) : (finish sw s).ctx.slots = s.ctx.slots := rfl
@[simp] theorem finish_ctx_entry (sw : Bool) (s : State) : (finish sw s).ctx.entry = s.ctx.entry := rfl
@[simp] theorem finish_ctx_msg (sw : Bool) (s : State) : (finish sw s).ctx.msg = s.ctx.msg := rfl
@[simp] theorem finish_ctx_trap (sw : Bool) (s : State) : (finish sw s).ctx.trap = s.ctx.trap := rfl
@[simp] theorem finish_ctx_wto (sw : Bool) (s : State) : (finish sw s).ctx.wto = s.ctx.wto := rfl
@[simp] theorem finish_ctx_fpflags (sw : Bool) (s : State) : (finish sw s).ctx.fpflags = s.ctx.fpflags := rfl
@[simp] theorem finish_ctx_fprnd (sw : Bool) (s : State) : (finish sw s).ctx.fprnd = s.ctx.fprnd := rfl
@[simp] theorem finish_ctx_rlstat (sw : Bool) (s : State) : (finish sw s).ctx.rlstat = s.ctx.rlstat := rfl
@[simp] theorem finish_ctx_rtstat (sw : Bool) (s : State) : (finish sw s).ctx.rtstat = s.ctx.rtstat := rfl
@[simp] theorem finish_ctx_limit (sw : Bool) (s : State) : (finish sw s).ctx.limit = s.ctx.limit := rfl
@[simp] theorem finish_ctx_start (sw : Bool) (s : State) : (finish sw s).ctx.start = s.ctx.start := rfl
@[simp] theorem finish_ctx_spbase (sw : Bool) (s : State) : (finish sw s).ctx.spbase = s.ctx.spbase := rfl
@[simp] theorem finish_ctx_logspad (sw : Bool) (s : State) : (finish sw s).ctx.logspad = s.ctx.logspad := rfl
@[simp] theorem finish_ctx_seq (sw : Bool) (s : State) : (finish sw s).ctx.seq = s.ctx.seq := rfl
@[simp] theorem finish_ctx_rqOwed (sw : Bool) (s : State) : (finish sw s).ctx.rqOwed = s.ctx.rqOwed := rfl
@[simp] theorem finish_ctx_m2wait (sw : Bool) (s : State) : (finish sw s).ctx.m2wait = s.ctx.m2wait := rfl
@[simp] theorem finish_ctx_fva (sw : Bool) (s : State) : (finish sw s).ctx.fva = s.ctx.fva := rfl
@[simp] theorem finish_ctx_xfail (sw : Bool) (s : State) : (finish sw s).ctx.xfail = s.ctx.xfail := rfl
@[simp] theorem finish_ctx_fresh (sw : Bool) (s : State) : (finish sw s).ctx.fresh = s.ctx.fresh := rfl
@[simp] theorem finish_ctx_freshSys (sw : Bool) (s : State) : (finish sw s).ctx.freshSys = s.ctx.freshSys := rfl
@[simp] theorem finish_ctx_saw (sw : Bool) (s : State) : (finish sw s).ctx.saw = s.ctx.saw := rfl
@[simp] theorem finish_ctx_scope (sw : Bool) (s : State) : (finish sw s).ctx.scope = s.ctx.scope := rfl

@[simp] theorem close_ctx_num (a : CloseAct) (s : State) : (close a s).ctx.num = s.ctx.num := rfl
@[simp] theorem close_ctx_task (a : CloseAct) (s : State) : (close a s).ctx.task = s.ctx.task := rfl
@[simp] theorem close_ctx_cls (a : CloseAct) (s : State) : (close a s).ctx.cls = s.ctx.cls := rfl
@[simp] theorem close_ctx_rank (a : CloseAct) (s : State) : (close a s).ctx.rank = s.ctx.rank := rfl
@[simp] theorem close_ctx_inc (a : CloseAct) (s : State) : (close a s).ctx.inc = s.ctx.inc := rfl
@[simp] theorem close_ctx_pc (a : CloseAct) (s : State) : (close a s).ctx.pc = s.ctx.pc := rfl
@[simp] theorem close_ctx_pend (a : CloseAct) (s : State) : (close a s).ctx.pend = s.ctx.pend := rfl
@[simp] theorem close_ctx_pendFp (a : CloseAct) (s : State) : (close a s).ctx.pendFp = s.ctx.pendFp := rfl
@[simp] theorem close_ctx_pendRl (a : CloseAct) (s : State) : (close a s).ctx.pendRl = s.ctx.pendRl := rfl
@[simp] theorem close_ctx_stack (a : CloseAct) (s : State) : (close a s).ctx.stack = s.ctx.stack := rfl
@[simp] theorem close_ctx_depth (a : CloseAct) (s : State) : (close a s).ctx.depth = s.ctx.depth := rfl
@[simp] theorem close_ctx_sb (a : CloseAct) (s : State) : (close a s).ctx.sb = s.ctx.sb := rfl
@[simp] theorem close_ctx_nv (a : CloseAct) (s : State) : (close a s).ctx.nv = s.ctx.nv := rfl
@[simp] theorem close_ctx_nl (a : CloseAct) (s : State) : (close a s).ctx.nl = s.ctx.nl := rfl
@[simp] theorem close_ctx_na (a : CloseAct) (s : State) : (close a s).ctx.na = s.ctx.na := rfl
@[simp] theorem close_ctx_vregs (a : CloseAct) (s : State) : (close a s).ctx.vregs = s.ctx.vregs := rfl
@[simp] theorem close_ctx_masks (a : CloseAct) (s : State) : (close a s).ctx.masks = s.ctx.masks := rfl
@[simp] theorem close_ctx_lists (a : CloseAct) (s : State) : (close a s).ctx.lists = s.ctx.lists := rfl
@[simp] theorem close_ctx_eregs (a : CloseAct) (s : State) : (close a s).ctx.eregs = s.ctx.eregs := rfl
@[simp] theorem close_ctx_slots (a : CloseAct) (s : State) : (close a s).ctx.slots = s.ctx.slots := rfl
@[simp] theorem close_ctx_entry (a : CloseAct) (s : State) : (close a s).ctx.entry = s.ctx.entry := rfl
@[simp] theorem close_ctx_msg (a : CloseAct) (s : State) : (close a s).ctx.msg = s.ctx.msg := rfl
@[simp] theorem close_ctx_trap (a : CloseAct) (s : State) : (close a s).ctx.trap = s.ctx.trap := rfl
@[simp] theorem close_ctx_wto (a : CloseAct) (s : State) : (close a s).ctx.wto = s.ctx.wto := rfl
@[simp] theorem close_ctx_fpflags (a : CloseAct) (s : State) : (close a s).ctx.fpflags = s.ctx.fpflags := rfl
@[simp] theorem close_ctx_fprnd (a : CloseAct) (s : State) : (close a s).ctx.fprnd = s.ctx.fprnd := rfl
@[simp] theorem close_ctx_rlstat (a : CloseAct) (s : State) : (close a s).ctx.rlstat = s.ctx.rlstat := rfl
@[simp] theorem close_ctx_rtstat (a : CloseAct) (s : State) : (close a s).ctx.rtstat = s.ctx.rtstat := rfl
@[simp] theorem close_ctx_limit (a : CloseAct) (s : State) : (close a s).ctx.limit = s.ctx.limit := rfl
@[simp] theorem close_ctx_start (a : CloseAct) (s : State) : (close a s).ctx.start = s.ctx.start := rfl
@[simp] theorem close_ctx_spbase (a : CloseAct) (s : State) : (close a s).ctx.spbase = s.ctx.spbase := rfl
@[simp] theorem close_ctx_logspad (a : CloseAct) (s : State) : (close a s).ctx.logspad = s.ctx.logspad := rfl
@[simp] theorem close_ctx_seq (a : CloseAct) (s : State) : (close a s).ctx.seq = s.ctx.seq := rfl
@[simp] theorem close_ctx_rqOwed (a : CloseAct) (s : State) : (close a s).ctx.rqOwed = s.ctx.rqOwed := rfl
@[simp] theorem close_ctx_m2wait (a : CloseAct) (s : State) : (close a s).ctx.m2wait = s.ctx.m2wait := rfl
@[simp] theorem close_ctx_fva (a : CloseAct) (s : State) : (close a s).ctx.fva = s.ctx.fva := rfl
@[simp] theorem close_ctx_xfail (a : CloseAct) (s : State) : (close a s).ctx.xfail = s.ctx.xfail := rfl
@[simp] theorem close_ctx_fresh (a : CloseAct) (s : State) : (close a s).ctx.fresh = s.ctx.fresh := rfl
@[simp] theorem close_ctx_freshSys (a : CloseAct) (s : State) : (close a s).ctx.freshSys = s.ctx.freshSys := rfl
@[simp] theorem close_ctx_saw (a : CloseAct) (s : State) : (close a s).ctx.saw = s.ctx.saw := rfl
@[simp] theorem close_ctx_scope (a : CloseAct) (s : State) : (close a s).ctx.scope = s.ctx.scope := rfl

@[simp] theorem wait_ctx_num (w : Wait) (s : State) : (wait w s).ctx.num = s.ctx.num := rfl
@[simp] theorem wait_ctx_task (w : Wait) (s : State) : (wait w s).ctx.task = s.ctx.task := rfl
@[simp] theorem wait_ctx_cls (w : Wait) (s : State) : (wait w s).ctx.cls = s.ctx.cls := rfl
@[simp] theorem wait_ctx_rank (w : Wait) (s : State) : (wait w s).ctx.rank = s.ctx.rank := rfl
@[simp] theorem wait_ctx_inc (w : Wait) (s : State) : (wait w s).ctx.inc = s.ctx.inc := rfl
@[simp] theorem wait_ctx_pc (w : Wait) (s : State) : (wait w s).ctx.pc = s.ctx.pc := rfl
@[simp] theorem wait_ctx_run (w : Wait) (s : State) : (wait w s).ctx.run = s.ctx.run := rfl
@[simp] theorem wait_ctx_gcount (w : Wait) (s : State) : (wait w s).ctx.gcount = s.ctx.gcount := rfl
@[simp] theorem wait_ctx_pend (w : Wait) (s : State) : (wait w s).ctx.pend = s.ctx.pend := rfl
@[simp] theorem wait_ctx_pendFp (w : Wait) (s : State) : (wait w s).ctx.pendFp = s.ctx.pendFp := rfl
@[simp] theorem wait_ctx_pendRl (w : Wait) (s : State) : (wait w s).ctx.pendRl = s.ctx.pendRl := rfl
@[simp] theorem wait_ctx_stack (w : Wait) (s : State) : (wait w s).ctx.stack = s.ctx.stack := rfl
@[simp] theorem wait_ctx_depth (w : Wait) (s : State) : (wait w s).ctx.depth = s.ctx.depth := rfl
@[simp] theorem wait_ctx_sb (w : Wait) (s : State) : (wait w s).ctx.sb = s.ctx.sb := rfl
@[simp] theorem wait_ctx_nv (w : Wait) (s : State) : (wait w s).ctx.nv = s.ctx.nv := rfl
@[simp] theorem wait_ctx_nl (w : Wait) (s : State) : (wait w s).ctx.nl = s.ctx.nl := rfl
@[simp] theorem wait_ctx_na (w : Wait) (s : State) : (wait w s).ctx.na = s.ctx.na := rfl
@[simp] theorem wait_ctx_vregs (w : Wait) (s : State) : (wait w s).ctx.vregs = s.ctx.vregs := rfl
@[simp] theorem wait_ctx_masks (w : Wait) (s : State) : (wait w s).ctx.masks = s.ctx.masks := rfl
@[simp] theorem wait_ctx_lists (w : Wait) (s : State) : (wait w s).ctx.lists = s.ctx.lists := rfl
@[simp] theorem wait_ctx_eregs (w : Wait) (s : State) : (wait w s).ctx.eregs = s.ctx.eregs := rfl
@[simp] theorem wait_ctx_slots (w : Wait) (s : State) : (wait w s).ctx.slots = s.ctx.slots := rfl
@[simp] theorem wait_ctx_entry (w : Wait) (s : State) : (wait w s).ctx.entry = s.ctx.entry := rfl
@[simp] theorem wait_ctx_msg (w : Wait) (s : State) : (wait w s).ctx.msg = s.ctx.msg := rfl
@[simp] theorem wait_ctx_trap (w : Wait) (s : State) : (wait w s).ctx.trap = s.ctx.trap := rfl
@[simp] theorem wait_ctx_wto (w : Wait) (s : State) : (wait w s).ctx.wto = s.ctx.wto := rfl
@[simp] theorem wait_ctx_fpflags (w : Wait) (s : State) : (wait w s).ctx.fpflags = s.ctx.fpflags := rfl
@[simp] theorem wait_ctx_fprnd (w : Wait) (s : State) : (wait w s).ctx.fprnd = s.ctx.fprnd := rfl
@[simp] theorem wait_ctx_rlstat (w : Wait) (s : State) : (wait w s).ctx.rlstat = s.ctx.rlstat := rfl
@[simp] theorem wait_ctx_rtstat (w : Wait) (s : State) : (wait w s).ctx.rtstat = s.ctx.rtstat := rfl
@[simp] theorem wait_ctx_limit (w : Wait) (s : State) : (wait w s).ctx.limit = s.ctx.limit := rfl
@[simp] theorem wait_ctx_start (w : Wait) (s : State) : (wait w s).ctx.start = s.ctx.start := rfl
@[simp] theorem wait_ctx_spbase (w : Wait) (s : State) : (wait w s).ctx.spbase = s.ctx.spbase := rfl
@[simp] theorem wait_ctx_logspad (w : Wait) (s : State) : (wait w s).ctx.logspad = s.ctx.logspad := rfl
@[simp] theorem wait_ctx_seq (w : Wait) (s : State) : (wait w s).ctx.seq = s.ctx.seq := rfl
@[simp] theorem wait_ctx_rqOwed (w : Wait) (s : State) : (wait w s).ctx.rqOwed = s.ctx.rqOwed := rfl
@[simp] theorem wait_ctx_m2wait (w : Wait) (s : State) : (wait w s).ctx.m2wait = s.ctx.m2wait := rfl
@[simp] theorem wait_ctx_got (w : Wait) (s : State) : (wait w s).ctx.got = s.ctx.got := rfl
@[simp] theorem wait_ctx_fva (w : Wait) (s : State) : (wait w s).ctx.fva = s.ctx.fva := rfl
@[simp] theorem wait_ctx_xfail (w : Wait) (s : State) : (wait w s).ctx.xfail = s.ctx.xfail := rfl
@[simp] theorem wait_ctx_fresh (w : Wait) (s : State) : (wait w s).ctx.fresh = s.ctx.fresh := rfl
@[simp] theorem wait_ctx_freshSys (w : Wait) (s : State) : (wait w s).ctx.freshSys = s.ctx.freshSys := rfl
@[simp] theorem wait_ctx_saw (w : Wait) (s : State) : (wait w s).ctx.saw = s.ctx.saw := rfl
@[simp] theorem wait_ctx_scope (w : Wait) (s : State) : (wait w s).ctx.scope = s.ctx.scope := rfl

@[simp] theorem issued_ctx_num (sw : Bool) (ws : List RegWrite) (s : State) : (issued sw ws s).ctx.num = s.ctx.num := rfl
@[simp] theorem issued_ctx_task (sw : Bool) (ws : List RegWrite) (s : State) : (issued sw ws s).ctx.task = s.ctx.task := rfl
@[simp] theorem issued_ctx_cls (sw : Bool) (ws : List RegWrite) (s : State) : (issued sw ws s).ctx.cls = s.ctx.cls := rfl
@[simp] theorem issued_ctx_rank (sw : Bool) (ws : List RegWrite) (s : State) : (issued sw ws s).ctx.rank = s.ctx.rank := rfl
@[simp] theorem issued_ctx_inc (sw : Bool) (ws : List RegWrite) (s : State) : (issued sw ws s).ctx.inc = s.ctx.inc := rfl
@[simp] theorem issued_ctx_pendFp (sw : Bool) (ws : List RegWrite) (s : State) : (issued sw ws s).ctx.pendFp = s.ctx.pendFp := rfl
@[simp] theorem issued_ctx_pendRl (sw : Bool) (ws : List RegWrite) (s : State) : (issued sw ws s).ctx.pendRl = s.ctx.pendRl := rfl
@[simp] theorem issued_ctx_stack (sw : Bool) (ws : List RegWrite) (s : State) : (issued sw ws s).ctx.stack = s.ctx.stack := rfl
@[simp] theorem issued_ctx_depth (sw : Bool) (ws : List RegWrite) (s : State) : (issued sw ws s).ctx.depth = s.ctx.depth := rfl
@[simp] theorem issued_ctx_sb (sw : Bool) (ws : List RegWrite) (s : State) : (issued sw ws s).ctx.sb = s.ctx.sb := rfl
@[simp] theorem issued_ctx_nv (sw : Bool) (ws : List RegWrite) (s : State) : (issued sw ws s).ctx.nv = s.ctx.nv := rfl
@[simp] theorem issued_ctx_nl (sw : Bool) (ws : List RegWrite) (s : State) : (issued sw ws s).ctx.nl = s.ctx.nl := rfl
@[simp] theorem issued_ctx_na (sw : Bool) (ws : List RegWrite) (s : State) : (issued sw ws s).ctx.na = s.ctx.na := rfl
@[simp] theorem issued_ctx_vregs (sw : Bool) (ws : List RegWrite) (s : State) : (issued sw ws s).ctx.vregs = s.ctx.vregs := rfl
@[simp] theorem issued_ctx_masks (sw : Bool) (ws : List RegWrite) (s : State) : (issued sw ws s).ctx.masks = s.ctx.masks := rfl
@[simp] theorem issued_ctx_lists (sw : Bool) (ws : List RegWrite) (s : State) : (issued sw ws s).ctx.lists = s.ctx.lists := rfl
@[simp] theorem issued_ctx_eregs (sw : Bool) (ws : List RegWrite) (s : State) : (issued sw ws s).ctx.eregs = s.ctx.eregs := rfl
@[simp] theorem issued_ctx_slots (sw : Bool) (ws : List RegWrite) (s : State) : (issued sw ws s).ctx.slots = s.ctx.slots := rfl
@[simp] theorem issued_ctx_entry (sw : Bool) (ws : List RegWrite) (s : State) : (issued sw ws s).ctx.entry = s.ctx.entry := rfl
@[simp] theorem issued_ctx_msg (sw : Bool) (ws : List RegWrite) (s : State) : (issued sw ws s).ctx.msg = s.ctx.msg := rfl
@[simp] theorem issued_ctx_trap (sw : Bool) (ws : List RegWrite) (s : State) : (issued sw ws s).ctx.trap = s.ctx.trap := rfl
@[simp] theorem issued_ctx_wto (sw : Bool) (ws : List RegWrite) (s : State) : (issued sw ws s).ctx.wto = s.ctx.wto := rfl
@[simp] theorem issued_ctx_fpflags (sw : Bool) (ws : List RegWrite) (s : State) : (issued sw ws s).ctx.fpflags = s.ctx.fpflags := rfl
@[simp] theorem issued_ctx_fprnd (sw : Bool) (ws : List RegWrite) (s : State) : (issued sw ws s).ctx.fprnd = s.ctx.fprnd := rfl
@[simp] theorem issued_ctx_rlstat (sw : Bool) (ws : List RegWrite) (s : State) : (issued sw ws s).ctx.rlstat = s.ctx.rlstat := rfl
@[simp] theorem issued_ctx_rtstat (sw : Bool) (ws : List RegWrite) (s : State) : (issued sw ws s).ctx.rtstat = s.ctx.rtstat := rfl
@[simp] theorem issued_ctx_limit (sw : Bool) (ws : List RegWrite) (s : State) : (issued sw ws s).ctx.limit = s.ctx.limit := rfl
@[simp] theorem issued_ctx_start (sw : Bool) (ws : List RegWrite) (s : State) : (issued sw ws s).ctx.start = s.ctx.start := rfl
@[simp] theorem issued_ctx_spbase (sw : Bool) (ws : List RegWrite) (s : State) : (issued sw ws s).ctx.spbase = s.ctx.spbase := rfl
@[simp] theorem issued_ctx_logspad (sw : Bool) (ws : List RegWrite) (s : State) : (issued sw ws s).ctx.logspad = s.ctx.logspad := rfl
@[simp] theorem issued_ctx_seq (sw : Bool) (ws : List RegWrite) (s : State) : (issued sw ws s).ctx.seq = s.ctx.seq := rfl
@[simp] theorem issued_ctx_rqOwed (sw : Bool) (ws : List RegWrite) (s : State) : (issued sw ws s).ctx.rqOwed = s.ctx.rqOwed := rfl
@[simp] theorem issued_ctx_m2wait (sw : Bool) (ws : List RegWrite) (s : State) : (issued sw ws s).ctx.m2wait = s.ctx.m2wait := rfl
@[simp] theorem issued_ctx_fva (sw : Bool) (ws : List RegWrite) (s : State) : (issued sw ws s).ctx.fva = s.ctx.fva := rfl
@[simp] theorem issued_ctx_xfail (sw : Bool) (ws : List RegWrite) (s : State) : (issued sw ws s).ctx.xfail = s.ctx.xfail := rfl
@[simp] theorem issued_ctx_fresh (sw : Bool) (ws : List RegWrite) (s : State) : (issued sw ws s).ctx.fresh = s.ctx.fresh := rfl
@[simp] theorem issued_ctx_freshSys (sw : Bool) (ws : List RegWrite) (s : State) : (issued sw ws s).ctx.freshSys = s.ctx.freshSys := rfl
@[simp] theorem issued_ctx_saw (sw : Bool) (ws : List RegWrite) (s : State) : (issued sw ws s).ctx.saw = s.ctx.saw := rfl
@[simp] theorem issued_ctx_scope (sw : Bool) (ws : List RegWrite) (s : State) : (issued sw ws s).ctx.scope = s.ctx.scope := rfl

@[simp] theorem closes_ctx_num (a : CloseAct) (s : State) : (closes a s).ctx.num = s.ctx.num := rfl
@[simp] theorem closes_ctx_task (a : CloseAct) (s : State) : (closes a s).ctx.task = s.ctx.task := rfl
@[simp] theorem closes_ctx_cls (a : CloseAct) (s : State) : (closes a s).ctx.cls = s.ctx.cls := rfl
@[simp] theorem closes_ctx_rank (a : CloseAct) (s : State) : (closes a s).ctx.rank = s.ctx.rank := rfl
@[simp] theorem closes_ctx_inc (a : CloseAct) (s : State) : (closes a s).ctx.inc = s.ctx.inc := rfl
@[simp] theorem closes_ctx_pc (a : CloseAct) (s : State) : (closes a s).ctx.pc = s.ctx.pc := rfl
@[simp] theorem closes_ctx_pend (a : CloseAct) (s : State) : (closes a s).ctx.pend = s.ctx.pend := rfl
@[simp] theorem closes_ctx_pendFp (a : CloseAct) (s : State) : (closes a s).ctx.pendFp = s.ctx.pendFp := rfl
@[simp] theorem closes_ctx_pendRl (a : CloseAct) (s : State) : (closes a s).ctx.pendRl = s.ctx.pendRl := rfl
@[simp] theorem closes_ctx_stack (a : CloseAct) (s : State) : (closes a s).ctx.stack = s.ctx.stack := rfl
@[simp] theorem closes_ctx_depth (a : CloseAct) (s : State) : (closes a s).ctx.depth = s.ctx.depth := rfl
@[simp] theorem closes_ctx_sb (a : CloseAct) (s : State) : (closes a s).ctx.sb = s.ctx.sb := rfl
@[simp] theorem closes_ctx_nv (a : CloseAct) (s : State) : (closes a s).ctx.nv = s.ctx.nv := rfl
@[simp] theorem closes_ctx_nl (a : CloseAct) (s : State) : (closes a s).ctx.nl = s.ctx.nl := rfl
@[simp] theorem closes_ctx_na (a : CloseAct) (s : State) : (closes a s).ctx.na = s.ctx.na := rfl
@[simp] theorem closes_ctx_vregs (a : CloseAct) (s : State) : (closes a s).ctx.vregs = s.ctx.vregs := rfl
@[simp] theorem closes_ctx_masks (a : CloseAct) (s : State) : (closes a s).ctx.masks = s.ctx.masks := rfl
@[simp] theorem closes_ctx_lists (a : CloseAct) (s : State) : (closes a s).ctx.lists = s.ctx.lists := rfl
@[simp] theorem closes_ctx_eregs (a : CloseAct) (s : State) : (closes a s).ctx.eregs = s.ctx.eregs := rfl
@[simp] theorem closes_ctx_slots (a : CloseAct) (s : State) : (closes a s).ctx.slots = s.ctx.slots := rfl
@[simp] theorem closes_ctx_entry (a : CloseAct) (s : State) : (closes a s).ctx.entry = s.ctx.entry := rfl
@[simp] theorem closes_ctx_msg (a : CloseAct) (s : State) : (closes a s).ctx.msg = s.ctx.msg := rfl
@[simp] theorem closes_ctx_trap (a : CloseAct) (s : State) : (closes a s).ctx.trap = s.ctx.trap := rfl
@[simp] theorem closes_ctx_wto (a : CloseAct) (s : State) : (closes a s).ctx.wto = s.ctx.wto := rfl
@[simp] theorem closes_ctx_fpflags (a : CloseAct) (s : State) : (closes a s).ctx.fpflags = s.ctx.fpflags := rfl
@[simp] theorem closes_ctx_fprnd (a : CloseAct) (s : State) : (closes a s).ctx.fprnd = s.ctx.fprnd := rfl
@[simp] theorem closes_ctx_rlstat (a : CloseAct) (s : State) : (closes a s).ctx.rlstat = s.ctx.rlstat := rfl
@[simp] theorem closes_ctx_rtstat (a : CloseAct) (s : State) : (closes a s).ctx.rtstat = s.ctx.rtstat := rfl
@[simp] theorem closes_ctx_limit (a : CloseAct) (s : State) : (closes a s).ctx.limit = s.ctx.limit := rfl
@[simp] theorem closes_ctx_start (a : CloseAct) (s : State) : (closes a s).ctx.start = s.ctx.start := rfl
@[simp] theorem closes_ctx_spbase (a : CloseAct) (s : State) : (closes a s).ctx.spbase = s.ctx.spbase := rfl
@[simp] theorem closes_ctx_logspad (a : CloseAct) (s : State) : (closes a s).ctx.logspad = s.ctx.logspad := rfl
@[simp] theorem closes_ctx_seq (a : CloseAct) (s : State) : (closes a s).ctx.seq = s.ctx.seq := rfl
@[simp] theorem closes_ctx_rqOwed (a : CloseAct) (s : State) : (closes a s).ctx.rqOwed = s.ctx.rqOwed := rfl
@[simp] theorem closes_ctx_m2wait (a : CloseAct) (s : State) : (closes a s).ctx.m2wait = s.ctx.m2wait := rfl
@[simp] theorem closes_ctx_fva (a : CloseAct) (s : State) : (closes a s).ctx.fva = s.ctx.fva := rfl
@[simp] theorem closes_ctx_xfail (a : CloseAct) (s : State) : (closes a s).ctx.xfail = s.ctx.xfail := rfl
@[simp] theorem closes_ctx_fresh (a : CloseAct) (s : State) : (closes a s).ctx.fresh = s.ctx.fresh := rfl
@[simp] theorem closes_ctx_freshSys (a : CloseAct) (s : State) : (closes a s).ctx.freshSys = s.ctx.freshSys := rfl
@[simp] theorem closes_ctx_saw (a : CloseAct) (s : State) : (closes a s).ctx.saw = s.ctx.saw := rfl
@[simp] theorem closes_ctx_scope (a : CloseAct) (s : State) : (closes a s).ctx.scope = s.ctx.scope := rfl

@[simp] theorem put_ctx_pend (w : RegWrite) (s : State) : (put w s).ctx.pend = s.ctx.pend ++ [w] := rfl
@[simp] theorem finish_ctx_pc (sw : Bool) (s : State) : (finish sw s).ctx.pc = s.ctx.pc + 4 := rfl
@[simp] theorem issued_ctx_pc (sw : Bool) (ws : List RegWrite) (s : State) : (issued sw ws s).ctx.pc = s.ctx.pc + 4 := rfl
@[simp] theorem issued_ctx_pend (sw : Bool) (ws : List RegWrite) (s : State) :
    (issued sw ws s).ctx.pend = s.ctx.pend ++ ws := rfl
@[simp] theorem close_ctx_status (a : CloseAct) (s : State) : (close a s).ctx.status = .closing a := rfl
@[simp] theorem wait_ctx_status (w : Wait) (s : State) : (wait w s).ctx.status = .waiting w := rfl

/-! ## A change of the core in focus -/

@[simp] theorem updRes_ctx (t : BitVec 12) (f : Resident → Resident) (s : State) : (updRes t f s).ctx = s.ctx := rfl
@[simp] theorem updRes_cores (t : BitVec 12) (f : Resident → Resident) (s : State) : (updRes t f s).cores = s.cores := rfl
@[simp] theorem updRes_mem (t : BitVec 12) (f : Resident → Resident) (s : State) : (updRes t f s).mem = s.mem := rfl
@[simp] theorem updRes_poison (t : BitVec 12) (f : Resident → Resident) (s : State) : (updRes t f s).poison = s.poison := rfl
@[simp] theorem updRes_launches (t : BitVec 12) (f : Resident → Resident) (s : State) : (updRes t f s).launches = s.launches := rfl
@[simp] theorem updRes_tails (t : BitVec 12) (f : Resident → Resident) (s : State) : (updRes t f s).tails = s.tails := rfl
@[simp] theorem updRes_orderNum (t : BitVec 12) (f : Resident → Resident) (s : State) : (updRes t f s).orderNum = s.orderNum := rfl
@[simp] theorem updRes_flights (t : BitVec 12) (f : Resident → Resident) (s : State) : (updRes t f s).flights = s.flights := rfl
@[simp] theorem updRes_flightNum (t : BitVec 12) (f : Resident → Resident) (s : State) : (updRes t f s).flightNum = s.flightNum := rfl
@[simp] theorem updRes_ctls (t : BitVec 12) (f : Resident → Resident) (s : State) : (updRes t f s).ctls = s.ctls := rfl
@[simp] theorem updRes_retorts (t : BitVec 12) (f : Resident → Resident) (s : State) : (updRes t f s).retorts = s.retorts := rfl
@[simp] theorem updRes_holds (t : BitVec 12) (f : Resident → Resident) (s : State) : (updRes t f s).holds = s.holds := rfl
@[simp] theorem updRes_evq (t : BitVec 12) (f : Resident → Resident) (s : State) : (updRes t f s).evq = s.evq := rfl
@[simp] theorem updRes_evNum (t : BitVec 12) (f : Resident → Resident) (s : State) : (updRes t f s).evNum = s.evNum := rfl
@[simp] theorem updRes_waiters (t : BitVec 12) (f : Resident → Resident) (s : State) : (updRes t f s).waiters = s.waiters := rfl
@[simp] theorem updRes_arrivals (t : BitVec 12) (f : Resident → Resident) (s : State) : (updRes t f s).arrivals = s.arrivals := rfl
@[simp] theorem updRes_rounds (t : BitVec 12) (f : Resident → Resident) (s : State) : (updRes t f s).rounds = s.rounds := rfl
@[simp] theorem updRes_roundNum (t : BitVec 12) (f : Resident → Resident) (s : State) : (updRes t f s).roundNum = s.roundNum := rfl
@[simp] theorem updRes_steals (t : BitVec 12) (f : Resident → Resident) (s : State) : (updRes t f s).steals = s.steals := rfl
@[simp] theorem updRes_parts (t : BitVec 12) (f : Resident → Resident) (s : State) : (updRes t f s).parts = s.parts := rfl
@[simp] theorem updRes_transit (t : BitVec 12) (f : Resident → Resident) (s : State) : (updRes t f s).transit = s.transit := rfl
@[simp] theorem updRes_lag (t : BitVec 12) (f : Resident → Resident) (s : State) : (updRes t f s).lag = s.lag := rfl
@[simp] theorem updRes_hidden (t : BitVec 12) (f : Resident → Resident) (s : State) : (updRes t f s).hidden = s.hidden := rfl
@[simp] theorem updRes_watches (t : BitVec 12) (f : Resident → Resident) (s : State) : (updRes t f s).watches = s.watches := rfl
@[simp] theorem updRes_reds (t : BitVec 12) (f : Resident → Resident) (s : State) : (updRes t f s).reds = s.reds := rfl
@[simp] theorem updRes_redq (t : BitVec 12) (f : Resident → Resident) (s : State) : (updRes t f s).redq = s.redq := rfl
@[simp] theorem updRes_fab (t : BitVec 12) (f : Resident → Resident) (s : State) : (updRes t f s).fab = s.fab := rfl
@[simp] theorem updRes_net (t : BitVec 12) (f : Resident → Resident) (s : State) : (updRes t f s).net = s.net := rfl
@[simp] theorem updRes_routes (t : BitVec 12) (f : Resident → Resident) (s : State) : (updRes t f s).routes = s.routes := rfl
@[simp] theorem updRes_host (t : BitVec 12) (f : Resident → Resident) (s : State) : (updRes t f s).host = s.host := rfl
@[simp] theorem updRes_accel (t : BitVec 12) (f : Resident → Resident) (s : State) : (updRes t f s).accel = s.accel := rfl
@[simp] theorem updRes_site (t : BitVec 12) (f : Resident → Resident) (s : State) : (updRes t f s).site = s.site := rfl
@[simp] theorem updRes_feat (t : BitVec 12) (f : Resident → Resident) (s : State) : (updRes t f s).feat = s.feat := rfl
@[simp] theorem updRes_fenced (t : BitVec 12) (f : Resident → Resident) (s : State) : (updRes t f s).fenced = s.fenced := rfl
@[simp] theorem updRes_arb (t : BitVec 12) (f : Resident → Resident) (s : State) : (updRes t f s).arb = s.arb := rfl
@[simp] theorem updRes_pipes (t : BitVec 12) (f : Resident → Resident) (s : State) : (updRes t f s).pipes = s.pipes := rfl
@[simp] theorem updRes_inputs (t : BitVec 12) (f : Resident → Resident) (s : State) : (updRes t f s).inputs = s.inputs := rfl
@[simp] theorem updRes_egress (t : BitVec 12) (f : Resident → Resident) (s : State) : (updRes t f s).egress = s.egress := rfl
@[simp] theorem updRes_clk (t : BitVec 12) (f : Resident → Resident) (s : State) : (updRes t f s).clk = s.clk := rfl
@[simp] theorem updRes_tick (t : BitVec 12) (f : Resident → Resident) (s : State) : (updRes t f s).tick = s.tick := rfl
@[simp] theorem updRes_waits (t : BitVec 12) (f : Resident → Resident) (s : State) : (updRes t f s).waits = s.waits := rfl
@[simp] theorem updRes_freeNum (t : BitVec 12) (f : Resident → Resident) (s : State) : (updRes t f s).freeNum = s.freeNum := rfl
@[simp] theorem Core.updRes_id (c : Core) (t : BitVec 12) (f : Resident → Resident) : (c.updRes t f).id = c.id := rfl
@[simp] theorem Core.updRes_ctxs (c : Core) (t : BitVec 12) (f : Resident → Resident) : (c.updRes t f).ctxs = c.ctxs := rfl
@[simp] theorem Core.updRes_rr (c : Core) (t : BitVec 12) (f : Resident → Resident) : (c.updRes t f).rr = c.rr := rfl
@[simp] theorem Core.updRes_spad (c : Core) (t : BitVec 12) (f : Resident → Resident) : (c.updRes t f).spad = c.spad := rfl
@[simp] theorem Core.updRes_spoison (c : Core) (t : BitVec 12) (f : Resident → Resident) : (c.updRes t f).spoison = c.spoison := rfl
@[simp] theorem Core.updRes_turn (c : Core) (t : BitVec 12) (f : Resident → Resident) : (c.updRes t f).turn = c.turn := rfl
@[simp] theorem Core.updRes_held (c : Core) (t : BitVec 12) (f : Resident → Resident) : (c.updRes t f).held = c.held := rfl
@[simp] theorem Core.updRes_answers (c : Core) (t : BitVec 12) (f : Resident → Resident) : (c.updRes t f).answers = c.answers := rfl
@[simp] theorem Core.updRes_out (c : Core) (t : BitVec 12) (f : Resident → Resident) : (c.updRes t f).out = c.out := rfl
@[simp] theorem Core.updRes_outNum (c : Core) (t : BitVec 12) (f : Resident → Resident) : (c.updRes t f).outNum = c.outNum := rfl
@[simp] theorem Core.updRes_reserve (c : Core) (t : BitVec 12) (f : Resident → Resident) : (c.updRes t f).reserve = c.reserve := rfl
@[simp] theorem Core.updRes_pulls (c : Core) (t : BitVec 12) (f : Resident → Resident) : (c.updRes t f).pulls = c.pulls := rfl
@[simp] theorem Core.updRes_ecache (c : Core) (t : BitVec 12) (f : Resident → Resident) : (c.updRes t f).ecache = c.ecache := rfl
@[simp] theorem Core.updRes_icache (c : Core) (t : BitVec 12) (f : Resident → Resident) : (c.updRes t f).icache = c.icache := rfl
@[simp] theorem Core.updRes_vecq (c : Core) (t : BitVec 12) (f : Resident → Resident) : (c.updRes t f).vecq = c.vecq := rfl
@[simp] theorem Core.updRes_vheld (c : Core) (t : BitVec 12) (f : Resident → Resident) : (c.updRes t f).vheld = c.vheld := rfl
@[simp] theorem Core.updRes_reuse (c : Core) (t : BitVec 12) (f : Resident → Resident) : (c.updRes t f).reuse = c.reuse := rfl
@[simp] theorem Core.updRes_tls (c : Core) (t : BitVec 12) (f : Resident → Resident) : (c.updRes t f).tls = c.tls := rfl
@[simp] theorem Core.updRes_matq (c : Core) (t : BitVec 12) (f : Resident → Resident) : (c.updRes t f).matq = c.matq := rfl
@[simp] theorem Core.updRes_copyq (c : Core) (t : BitVec 12) (f : Resident → Resident) : (c.updRes t f).copyq = c.copyq := rfl
@[simp] theorem Core.updRes_netq (c : Core) (t : BitVec 12) (f : Resident → Resident) : (c.updRes t f).netq = c.netq := rfl
@[simp] theorem Core.updRes_routeq (c : Core) (t : BitVec 12) (f : Resident → Resident) : (c.updRes t f).routeq = c.routeq := rfl
@[simp] theorem Core.updRes_slots (c : Core) (t : BitVec 12) (f : Resident → Resident) : (c.updRes t f).slots = c.slots := rfl
@[simp] theorem Core.updRes_tabs (c : Core) (t : BitVec 12) (f : Resident → Resident) : (c.updRes t f).tabs = c.tabs := rfl
@[simp] theorem Core.updRes_sealed (c : Core) (t : BitVec 12) (f : Resident → Resident) : (c.updRes t f).sealed = c.sealed := rfl
@[simp] theorem Core.updRes_batches (c : Core) (t : BitVec 12) (f : Resident → Resident) : (c.updRes t f).batches = c.batches := rfl
@[simp] theorem Core.updRes_stores (c : Core) (t : BitVec 12) (f : Resident → Resident) : (c.updRes t f).stores = c.stores := rfl
@[simp] theorem Core.updRes_storeNum (c : Core) (t : BitVec 12) (f : Resident → Resident) : (c.updRes t f).storeNum = c.storeNum := rfl
@[simp] theorem Core.updRes_signals (c : Core) (t : BitVec 12) (f : Resident → Resident) : (c.updRes t f).signals = c.signals := rfl
@[simp] theorem Core.updRes_watches (c : Core) (t : BitVec 12) (f : Resident → Resident) : (c.updRes t f).watches = c.watches := rfl
@[simp] theorem Core.updRes_deque (c : Core) (t : BitVec 12) (f : Resident → Resident) : (c.updRes t f).deque = c.deque := rfl
@[simp] theorem Core.updRes_parked (c : Core) (t : BitVec 12) (f : Resident → Resident) : (c.updRes t f).parked = c.parked := rfl
@[simp] theorem Core.updRes_regs (c : Core) (t : BitVec 12) (f : Resident → Resident) : (c.updRes t f).regs = c.regs := rfl

/-! ## A scratchpad write -/

@[simp] theorem spWrite_ctx (a : W64) (bs : List Byte) (s : State) : (spWrite a bs s).ctx = s.ctx := rfl
@[simp] theorem spWrite_cores (a : W64) (bs : List Byte) (s : State) : (spWrite a bs s).cores = s.cores := rfl
@[simp] theorem spWrite_mem (a : W64) (bs : List Byte) (s : State) : (spWrite a bs s).mem = s.mem := rfl
@[simp] theorem spWrite_poison (a : W64) (bs : List Byte) (s : State) : (spWrite a bs s).poison = s.poison := rfl
@[simp] theorem spWrite_launches (a : W64) (bs : List Byte) (s : State) : (spWrite a bs s).launches = s.launches := rfl
@[simp] theorem spWrite_tails (a : W64) (bs : List Byte) (s : State) : (spWrite a bs s).tails = s.tails := rfl
@[simp] theorem spWrite_orderNum (a : W64) (bs : List Byte) (s : State) : (spWrite a bs s).orderNum = s.orderNum := rfl
@[simp] theorem spWrite_flights (a : W64) (bs : List Byte) (s : State) : (spWrite a bs s).flights = s.flights := rfl
@[simp] theorem spWrite_flightNum (a : W64) (bs : List Byte) (s : State) : (spWrite a bs s).flightNum = s.flightNum := rfl
@[simp] theorem spWrite_ctls (a : W64) (bs : List Byte) (s : State) : (spWrite a bs s).ctls = s.ctls := rfl
@[simp] theorem spWrite_retorts (a : W64) (bs : List Byte) (s : State) : (spWrite a bs s).retorts = s.retorts := rfl
@[simp] theorem spWrite_holds (a : W64) (bs : List Byte) (s : State) : (spWrite a bs s).holds = s.holds := rfl
@[simp] theorem spWrite_evq (a : W64) (bs : List Byte) (s : State) : (spWrite a bs s).evq = s.evq := rfl
@[simp] theorem spWrite_evNum (a : W64) (bs : List Byte) (s : State) : (spWrite a bs s).evNum = s.evNum := rfl
@[simp] theorem spWrite_waiters (a : W64) (bs : List Byte) (s : State) : (spWrite a bs s).waiters = s.waiters := rfl
@[simp] theorem spWrite_arrivals (a : W64) (bs : List Byte) (s : State) : (spWrite a bs s).arrivals = s.arrivals := rfl
@[simp] theorem spWrite_rounds (a : W64) (bs : List Byte) (s : State) : (spWrite a bs s).rounds = s.rounds := rfl
@[simp] theorem spWrite_roundNum (a : W64) (bs : List Byte) (s : State) : (spWrite a bs s).roundNum = s.roundNum := rfl
@[simp] theorem spWrite_steals (a : W64) (bs : List Byte) (s : State) : (spWrite a bs s).steals = s.steals := rfl
@[simp] theorem spWrite_parts (a : W64) (bs : List Byte) (s : State) : (spWrite a bs s).parts = s.parts := rfl
@[simp] theorem spWrite_transit (a : W64) (bs : List Byte) (s : State) : (spWrite a bs s).transit = s.transit := rfl
@[simp] theorem spWrite_lag (a : W64) (bs : List Byte) (s : State) : (spWrite a bs s).lag = s.lag := rfl
@[simp] theorem spWrite_hidden (a : W64) (bs : List Byte) (s : State) : (spWrite a bs s).hidden = s.hidden := rfl
@[simp] theorem spWrite_watches (a : W64) (bs : List Byte) (s : State) : (spWrite a bs s).watches = s.watches := rfl
@[simp] theorem spWrite_reds (a : W64) (bs : List Byte) (s : State) : (spWrite a bs s).reds = s.reds := rfl
@[simp] theorem spWrite_redq (a : W64) (bs : List Byte) (s : State) : (spWrite a bs s).redq = s.redq := rfl
@[simp] theorem spWrite_fab (a : W64) (bs : List Byte) (s : State) : (spWrite a bs s).fab = s.fab := rfl
@[simp] theorem spWrite_net (a : W64) (bs : List Byte) (s : State) : (spWrite a bs s).net = s.net := rfl
@[simp] theorem spWrite_routes (a : W64) (bs : List Byte) (s : State) : (spWrite a bs s).routes = s.routes := rfl
@[simp] theorem spWrite_host (a : W64) (bs : List Byte) (s : State) : (spWrite a bs s).host = s.host := rfl
@[simp] theorem spWrite_accel (a : W64) (bs : List Byte) (s : State) : (spWrite a bs s).accel = s.accel := rfl
@[simp] theorem spWrite_site (a : W64) (bs : List Byte) (s : State) : (spWrite a bs s).site = s.site := rfl
@[simp] theorem spWrite_feat (a : W64) (bs : List Byte) (s : State) : (spWrite a bs s).feat = s.feat := rfl
@[simp] theorem spWrite_fenced (a : W64) (bs : List Byte) (s : State) : (spWrite a bs s).fenced = s.fenced := rfl
@[simp] theorem spWrite_arb (a : W64) (bs : List Byte) (s : State) : (spWrite a bs s).arb = s.arb := rfl
@[simp] theorem spWrite_pipes (a : W64) (bs : List Byte) (s : State) : (spWrite a bs s).pipes = s.pipes := rfl
@[simp] theorem spWrite_inputs (a : W64) (bs : List Byte) (s : State) : (spWrite a bs s).inputs = s.inputs := rfl
@[simp] theorem spWrite_egress (a : W64) (bs : List Byte) (s : State) : (spWrite a bs s).egress = s.egress := rfl
@[simp] theorem spWrite_clk (a : W64) (bs : List Byte) (s : State) : (spWrite a bs s).clk = s.clk := rfl
@[simp] theorem spWrite_tick (a : W64) (bs : List Byte) (s : State) : (spWrite a bs s).tick = s.tick := rfl
@[simp] theorem spWrite_waits (a : W64) (bs : List Byte) (s : State) : (spWrite a bs s).waits = s.waits := rfl
@[simp] theorem spWrite_freeNum (a : W64) (bs : List Byte) (s : State) : (spWrite a bs s).freeNum = s.freeNum := rfl
@[simp] theorem Core.spadWrite_id (c : Core) (b l a : Nat) (bs : List Byte) : (c.spadWrite b l a bs).id = c.id := rfl
@[simp] theorem Core.spadWrite_ctxs (c : Core) (b l a : Nat) (bs : List Byte) : (c.spadWrite b l a bs).ctxs = c.ctxs := rfl
@[simp] theorem Core.spadWrite_rr (c : Core) (b l a : Nat) (bs : List Byte) : (c.spadWrite b l a bs).rr = c.rr := rfl
@[simp] theorem Core.spadWrite_res (c : Core) (b l a : Nat) (bs : List Byte) : (c.spadWrite b l a bs).res = c.res := rfl
@[simp] theorem Core.spadWrite_turn (c : Core) (b l a : Nat) (bs : List Byte) : (c.spadWrite b l a bs).turn = c.turn := rfl
@[simp] theorem Core.spadWrite_held (c : Core) (b l a : Nat) (bs : List Byte) : (c.spadWrite b l a bs).held = c.held := rfl
@[simp] theorem Core.spadWrite_answers (c : Core) (b l a : Nat) (bs : List Byte) : (c.spadWrite b l a bs).answers = c.answers := rfl
@[simp] theorem Core.spadWrite_out (c : Core) (b l a : Nat) (bs : List Byte) : (c.spadWrite b l a bs).out = c.out := rfl
@[simp] theorem Core.spadWrite_outNum (c : Core) (b l a : Nat) (bs : List Byte) : (c.spadWrite b l a bs).outNum = c.outNum := rfl
@[simp] theorem Core.spadWrite_reserve (c : Core) (b l a : Nat) (bs : List Byte) : (c.spadWrite b l a bs).reserve = c.reserve := rfl
@[simp] theorem Core.spadWrite_pulls (c : Core) (b l a : Nat) (bs : List Byte) : (c.spadWrite b l a bs).pulls = c.pulls := rfl
@[simp] theorem Core.spadWrite_ecache (c : Core) (b l a : Nat) (bs : List Byte) : (c.spadWrite b l a bs).ecache = c.ecache := rfl
@[simp] theorem Core.spadWrite_icache (c : Core) (b l a : Nat) (bs : List Byte) : (c.spadWrite b l a bs).icache = c.icache := rfl
@[simp] theorem Core.spadWrite_vecq (c : Core) (b l a : Nat) (bs : List Byte) : (c.spadWrite b l a bs).vecq = c.vecq := rfl
@[simp] theorem Core.spadWrite_vheld (c : Core) (b l a : Nat) (bs : List Byte) : (c.spadWrite b l a bs).vheld = c.vheld := rfl
@[simp] theorem Core.spadWrite_reuse (c : Core) (b l a : Nat) (bs : List Byte) : (c.spadWrite b l a bs).reuse = c.reuse := rfl
@[simp] theorem Core.spadWrite_tls (c : Core) (b l a : Nat) (bs : List Byte) : (c.spadWrite b l a bs).tls = c.tls := rfl
@[simp] theorem Core.spadWrite_matq (c : Core) (b l a : Nat) (bs : List Byte) : (c.spadWrite b l a bs).matq = c.matq := rfl
@[simp] theorem Core.spadWrite_copyq (c : Core) (b l a : Nat) (bs : List Byte) : (c.spadWrite b l a bs).copyq = c.copyq := rfl
@[simp] theorem Core.spadWrite_netq (c : Core) (b l a : Nat) (bs : List Byte) : (c.spadWrite b l a bs).netq = c.netq := rfl
@[simp] theorem Core.spadWrite_routeq (c : Core) (b l a : Nat) (bs : List Byte) : (c.spadWrite b l a bs).routeq = c.routeq := rfl
@[simp] theorem Core.spadWrite_slots (c : Core) (b l a : Nat) (bs : List Byte) : (c.spadWrite b l a bs).slots = c.slots := rfl
@[simp] theorem Core.spadWrite_tabs (c : Core) (b l a : Nat) (bs : List Byte) : (c.spadWrite b l a bs).tabs = c.tabs := rfl
@[simp] theorem Core.spadWrite_sealed (c : Core) (b l a : Nat) (bs : List Byte) : (c.spadWrite b l a bs).sealed = c.sealed := rfl
@[simp] theorem Core.spadWrite_batches (c : Core) (b l a : Nat) (bs : List Byte) : (c.spadWrite b l a bs).batches = c.batches := rfl
@[simp] theorem Core.spadWrite_stores (c : Core) (b l a : Nat) (bs : List Byte) : (c.spadWrite b l a bs).stores = c.stores := rfl
@[simp] theorem Core.spadWrite_storeNum (c : Core) (b l a : Nat) (bs : List Byte) : (c.spadWrite b l a bs).storeNum = c.storeNum := rfl
@[simp] theorem Core.spadWrite_deque (c : Core) (b l a : Nat) (bs : List Byte) : (c.spadWrite b l a bs).deque = c.deque := rfl
@[simp] theorem Core.spadWrite_parked (c : Core) (b l a : Nat) (bs : List Byte) : (c.spadWrite b l a bs).parked = c.parked := rfl
@[simp] theorem Core.spadWrite_regs (c : Core) (b l a : Nat) (bs : List Byte) : (c.spadWrite b l a bs).regs = c.regs := rfl

/-! ## A write of memory -/

@[simp] theorem writeCells_ctx (s : State) (cs : List Host.Cell) : (writeCells s cs).ctx = s.ctx := rfl
@[simp] theorem writeCells_core (s : State) (cs : List Host.Cell) : (writeCells s cs).core = s.core := rfl
@[simp] theorem writeCells_cores (s : State) (cs : List Host.Cell) : (writeCells s cs).cores = s.cores := rfl
@[simp] theorem writeCells_launches (s : State) (cs : List Host.Cell) : (writeCells s cs).launches = s.launches := rfl
@[simp] theorem writeCells_tails (s : State) (cs : List Host.Cell) : (writeCells s cs).tails = s.tails := rfl
@[simp] theorem writeCells_orderNum (s : State) (cs : List Host.Cell) : (writeCells s cs).orderNum = s.orderNum := rfl
@[simp] theorem writeCells_flights (s : State) (cs : List Host.Cell) : (writeCells s cs).flights = s.flights := rfl
@[simp] theorem writeCells_flightNum (s : State) (cs : List Host.Cell) : (writeCells s cs).flightNum = s.flightNum := rfl
@[simp] theorem writeCells_ctls (s : State) (cs : List Host.Cell) : (writeCells s cs).ctls = s.ctls := rfl
@[simp] theorem writeCells_retorts (s : State) (cs : List Host.Cell) : (writeCells s cs).retorts = s.retorts := rfl
@[simp] theorem writeCells_holds (s : State) (cs : List Host.Cell) : (writeCells s cs).holds = s.holds := rfl
@[simp] theorem writeCells_evq (s : State) (cs : List Host.Cell) : (writeCells s cs).evq = s.evq := rfl
@[simp] theorem writeCells_evNum (s : State) (cs : List Host.Cell) : (writeCells s cs).evNum = s.evNum := rfl
@[simp] theorem writeCells_waiters (s : State) (cs : List Host.Cell) : (writeCells s cs).waiters = s.waiters := rfl
@[simp] theorem writeCells_arrivals (s : State) (cs : List Host.Cell) : (writeCells s cs).arrivals = s.arrivals := rfl
@[simp] theorem writeCells_rounds (s : State) (cs : List Host.Cell) : (writeCells s cs).rounds = s.rounds := rfl
@[simp] theorem writeCells_roundNum (s : State) (cs : List Host.Cell) : (writeCells s cs).roundNum = s.roundNum := rfl
@[simp] theorem writeCells_steals (s : State) (cs : List Host.Cell) : (writeCells s cs).steals = s.steals := rfl
@[simp] theorem writeCells_parts (s : State) (cs : List Host.Cell) : (writeCells s cs).parts = s.parts := rfl
@[simp] theorem writeCells_transit (s : State) (cs : List Host.Cell) : (writeCells s cs).transit = s.transit := rfl
@[simp] theorem writeCells_reds (s : State) (cs : List Host.Cell) : (writeCells s cs).reds = s.reds := rfl
@[simp] theorem writeCells_redq (s : State) (cs : List Host.Cell) : (writeCells s cs).redq = s.redq := rfl
@[simp] theorem writeCells_fab (s : State) (cs : List Host.Cell) : (writeCells s cs).fab = s.fab := rfl
@[simp] theorem writeCells_net (s : State) (cs : List Host.Cell) : (writeCells s cs).net = s.net := rfl
@[simp] theorem writeCells_routes (s : State) (cs : List Host.Cell) : (writeCells s cs).routes = s.routes := rfl
@[simp] theorem writeCells_host (s : State) (cs : List Host.Cell) : (writeCells s cs).host = s.host := rfl
@[simp] theorem writeCells_accel (s : State) (cs : List Host.Cell) : (writeCells s cs).accel = s.accel := rfl
@[simp] theorem writeCells_site (s : State) (cs : List Host.Cell) : (writeCells s cs).site = s.site := rfl
@[simp] theorem writeCells_feat (s : State) (cs : List Host.Cell) : (writeCells s cs).feat = s.feat := rfl
@[simp] theorem writeCells_fenced (s : State) (cs : List Host.Cell) : (writeCells s cs).fenced = s.fenced := rfl
@[simp] theorem writeCells_arb (s : State) (cs : List Host.Cell) : (writeCells s cs).arb = s.arb := rfl
@[simp] theorem writeCells_pipes (s : State) (cs : List Host.Cell) : (writeCells s cs).pipes = s.pipes := rfl
@[simp] theorem writeCells_inputs (s : State) (cs : List Host.Cell) : (writeCells s cs).inputs = s.inputs := rfl
@[simp] theorem writeCells_egress (s : State) (cs : List Host.Cell) : (writeCells s cs).egress = s.egress := rfl
@[simp] theorem writeCells_clk (s : State) (cs : List Host.Cell) : (writeCells s cs).clk = s.clk := rfl
@[simp] theorem writeCells_tick (s : State) (cs : List Host.Cell) : (writeCells s cs).tick = s.tick := rfl
@[simp] theorem writeCells_waits (s : State) (cs : List Host.Cell) : (writeCells s cs).waits = s.waits := rfl
@[simp] theorem writeCells_freeNum (s : State) (cs : List Host.Cell) : (writeCells s cs).freeNum = s.freeNum := rfl

/-! ## A window register -/

@[simp] theorem Ctx.setReg_num (c : Ctx) (r : BitVec 4) (v : W64) : (c.setReg r v).num = c.num := rfl
@[simp] theorem Ctx.setReg_status (c : Ctx) (r : BitVec 4) (v : W64) : (c.setReg r v).status = c.status := rfl
@[simp] theorem Ctx.setReg_task (c : Ctx) (r : BitVec 4) (v : W64) : (c.setReg r v).task = c.task := rfl
@[simp] theorem Ctx.setReg_cls (c : Ctx) (r : BitVec 4) (v : W64) : (c.setReg r v).cls = c.cls := rfl
@[simp] theorem Ctx.setReg_rank (c : Ctx) (r : BitVec 4) (v : W64) : (c.setReg r v).rank = c.rank := rfl
@[simp] theorem Ctx.setReg_inc (c : Ctx) (r : BitVec 4) (v : W64) : (c.setReg r v).inc = c.inc := rfl
@[simp] theorem Ctx.setReg_pc (c : Ctx) (r : BitVec 4) (v : W64) : (c.setReg r v).pc = c.pc := rfl
@[simp] theorem Ctx.setReg_run (c : Ctx) (r : BitVec 4) (v : W64) : (c.setReg r v).run = c.run := rfl
@[simp] theorem Ctx.setReg_gcount (c : Ctx) (r : BitVec 4) (v : W64) : (c.setReg r v).gcount = c.gcount := rfl
@[simp] theorem Ctx.setReg_pend (c : Ctx) (r : BitVec 4) (v : W64) : (c.setReg r v).pend = c.pend := rfl
@[simp] theorem Ctx.setReg_pendFp (c : Ctx) (r : BitVec 4) (v : W64) : (c.setReg r v).pendFp = c.pendFp := rfl
@[simp] theorem Ctx.setReg_pendRl (c : Ctx) (r : BitVec 4) (v : W64) : (c.setReg r v).pendRl = c.pendRl := rfl
@[simp] theorem Ctx.setReg_depth (c : Ctx) (r : BitVec 4) (v : W64) : (c.setReg r v).depth = c.depth := rfl
@[simp] theorem Ctx.setReg_sb (c : Ctx) (r : BitVec 4) (v : W64) : (c.setReg r v).sb = c.sb := rfl
@[simp] theorem Ctx.setReg_nv (c : Ctx) (r : BitVec 4) (v : W64) : (c.setReg r v).nv = c.nv := rfl
@[simp] theorem Ctx.setReg_nl (c : Ctx) (r : BitVec 4) (v : W64) : (c.setReg r v).nl = c.nl := rfl
@[simp] theorem Ctx.setReg_na (c : Ctx) (r : BitVec 4) (v : W64) : (c.setReg r v).na = c.na := rfl
@[simp] theorem Ctx.setReg_vregs (c : Ctx) (r : BitVec 4) (v : W64) : (c.setReg r v).vregs = c.vregs := rfl
@[simp] theorem Ctx.setReg_masks (c : Ctx) (r : BitVec 4) (v : W64) : (c.setReg r v).masks = c.masks := rfl
@[simp] theorem Ctx.setReg_lists (c : Ctx) (r : BitVec 4) (v : W64) : (c.setReg r v).lists = c.lists := rfl
@[simp] theorem Ctx.setReg_eregs (c : Ctx) (r : BitVec 4) (v : W64) : (c.setReg r v).eregs = c.eregs := rfl
@[simp] theorem Ctx.setReg_slots (c : Ctx) (r : BitVec 4) (v : W64) : (c.setReg r v).slots = c.slots := rfl
@[simp] theorem Ctx.setReg_entry (c : Ctx) (r : BitVec 4) (v : W64) : (c.setReg r v).entry = c.entry := rfl
@[simp] theorem Ctx.setReg_msg (c : Ctx) (r : BitVec 4) (v : W64) : (c.setReg r v).msg = c.msg := rfl
@[simp] theorem Ctx.setReg_trap (c : Ctx) (r : BitVec 4) (v : W64) : (c.setReg r v).trap = c.trap := rfl
@[simp] theorem Ctx.setReg_wto (c : Ctx) (r : BitVec 4) (v : W64) : (c.setReg r v).wto = c.wto := rfl
@[simp] theorem Ctx.setReg_fpflags (c : Ctx) (r : BitVec 4) (v : W64) : (c.setReg r v).fpflags = c.fpflags := rfl
@[simp] theorem Ctx.setReg_fprnd (c : Ctx) (r : BitVec 4) (v : W64) : (c.setReg r v).fprnd = c.fprnd := rfl
@[simp] theorem Ctx.setReg_rlstat (c : Ctx) (r : BitVec 4) (v : W64) : (c.setReg r v).rlstat = c.rlstat := rfl
@[simp] theorem Ctx.setReg_rtstat (c : Ctx) (r : BitVec 4) (v : W64) : (c.setReg r v).rtstat = c.rtstat := rfl
@[simp] theorem Ctx.setReg_limit (c : Ctx) (r : BitVec 4) (v : W64) : (c.setReg r v).limit = c.limit := rfl
@[simp] theorem Ctx.setReg_start (c : Ctx) (r : BitVec 4) (v : W64) : (c.setReg r v).start = c.start := rfl
@[simp] theorem Ctx.setReg_spbase (c : Ctx) (r : BitVec 4) (v : W64) : (c.setReg r v).spbase = c.spbase := rfl
@[simp] theorem Ctx.setReg_logspad (c : Ctx) (r : BitVec 4) (v : W64) : (c.setReg r v).logspad = c.logspad := rfl
@[simp] theorem Ctx.setReg_seq (c : Ctx) (r : BitVec 4) (v : W64) : (c.setReg r v).seq = c.seq := rfl
@[simp] theorem Ctx.setReg_rqOwed (c : Ctx) (r : BitVec 4) (v : W64) : (c.setReg r v).rqOwed = c.rqOwed := rfl
@[simp] theorem Ctx.setReg_m2wait (c : Ctx) (r : BitVec 4) (v : W64) : (c.setReg r v).m2wait = c.m2wait := rfl
@[simp] theorem Ctx.setReg_since (c : Ctx) (r : BitVec 4) (v : W64) : (c.setReg r v).since = c.since := rfl
@[simp] theorem Ctx.setReg_got (c : Ctx) (r : BitVec 4) (v : W64) : (c.setReg r v).got = c.got := rfl
@[simp] theorem Ctx.setReg_fva (c : Ctx) (r : BitVec 4) (v : W64) : (c.setReg r v).fva = c.fva := rfl
@[simp] theorem Ctx.setReg_xfail (c : Ctx) (r : BitVec 4) (v : W64) : (c.setReg r v).xfail = c.xfail := rfl
@[simp] theorem Ctx.setReg_fresh (c : Ctx) (r : BitVec 4) (v : W64) : (c.setReg r v).fresh = c.fresh := rfl
@[simp] theorem Ctx.setReg_freshSys (c : Ctx) (r : BitVec 4) (v : W64) : (c.setReg r v).freshSys = c.freshSys := rfl
@[simp] theorem Ctx.setReg_saw (c : Ctx) (r : BitVec 4) (v : W64) : (c.setReg r v).saw = c.saw := rfl
@[simp] theorem Ctx.setReg_scope (c : Ctx) (r : BitVec 4) (v : W64) : (c.setReg r v).scope = c.scope := rfl

/-! ## An instruction that holds writes is the statement's `issued` -/

/-- Holding one write and going on. -/
theorem finish_put (sw : Bool) (w : RegWrite) (s : State) : finish sw (put w s) = issued sw [w] s := rfl

/-- Holding two writes and going on. -/
theorem finish_put_put (sw : Bool) (w x : RegWrite) (s : State) : finish sw (put x (put w s)) = issued sw [w, x] s := by
  simp [finish, put, issued, Ctx.advance]

/-- Holding no write and going on. -/
theorem finish_issued (sw : Bool) (s : State) : finish sw s = issued sw [] s := by
  simp [finish, issued, Ctx.advance]

/-- Writes held one after the other are held together. -/
theorem issued_put (sw : Bool) (w : RegWrite) (ws : List RegWrite) (s : State) :
    issued sw ws (put w s) = issued sw (w :: ws) s := by
  simp [put, issued]

/-- Closing is the statement's `closes`. -/
theorem close_closes (a : CloseAct) (s : State) : close a s = closes a s := rfl

end Sys2Proof.Machine
end

