-- ==== Sys2Proof/Laws/Alu.lean ====
section
/-! SUPPORT. The operations of the ALU majors (04 R82) as bit-vector operations, and immediates with their extension
(03 R61). -/
set_option Elab.async false
namespace Sys2Proof.Machine

/-! ## The operations at a width -/

/-- Narrowing an exact result. -/
theorem ofNat_emod (n : Nat) (i : Int) : BitVec.ofNat n ((i % ((2 ^ n : Nat) : Int)).toNat) = BitVec.ofInt n i := by
  apply BitVec.eq_of_toNat_eq
  simp
  apply Nat.mod_eq_of_lt
  have h : 0 ≤ i % (2 ^ n) := Int.emod_nonneg _ (by have : (0 : Int) < 2 ^ n := Int.pow_pos (by omega); omega)
  have h2 : i % (2 ^ n) < 2 ^ n := Int.emod_lt_of_pos _ (Int.pow_pos (by omega))
  have : ((2 : Nat) ^ n : Int) = (2 : Int) ^ n := by simp
  omega

/-- All ones. -/
theorem ofNat_allOnes (n : Nat) : BitVec.ofNat n (2 ^ n - 1) = BitVec.allOnes n := by
  apply BitVec.eq_of_toNat_eq
  rw [BitVec.toNat_ofNat, BitVec.toNat_allOnes]
  exact Nat.mod_eq_of_lt (Nat.sub_lt (Nat.two_pow_pos n) (by omega))

section
variable {n : Nat} (A B : BitVec n)

theorem alu_add : BitVec.ofNat n (alu n .add A.toNat B.toNat) = A + B := by
  apply BitVec.eq_of_toNat_eq; simp [alu]
theorem alu_sub : BitVec.ofNat n (alu n .sub A.toNat B.toNat) = A - B := by
  apply BitVec.eq_of_toNat_eq
  have := B.isLt
  simp only [alu, BitVec.toNat_ofNat, BitVec.toNat_sub, Nat.mod_mod]
  congr 1; omega
theorem alu_and : BitVec.ofNat n (alu n .and A.toNat B.toNat) = A &&& B := by
  apply BitVec.eq_of_toNat_eq; simp [alu]
theorem alu_or : BitVec.ofNat n (alu n .or A.toNat B.toNat) = A ||| B := by
  apply BitVec.eq_of_toNat_eq; simp [alu]
theorem alu_xor : BitVec.ofNat n (alu n .xor A.toNat B.toNat) = A ^^^ B := by
  apply BitVec.eq_of_toNat_eq; simp [alu]
theorem alu_andn : BitVec.ofNat n (alu n .andn A.toNat B.toNat) = A &&& ~~~B := by
  apply BitVec.eq_of_toNat_eq
  have h : 2 ^ n - 1 - B.toNat = (~~~B).toNat := by rw [BitVec.toNat_not]
  rw [alu, h, BitVec.toNat_ofNat, ← BitVec.toNat_and, Nat.mod_eq_of_lt (A &&& ~~~B).isLt]
theorem alu_shl : BitVec.ofNat n (alu n .shl A.toNat B.toNat) = A <<< (B.toNat % n) := by
  apply BitVec.eq_of_toNat_eq; simp [alu, Nat.shiftLeft_eq]
theorem alu_shr : BitVec.ofNat n (alu n .shr A.toNat B.toNat) = A >>> (B.toNat % n) := by
  apply BitVec.eq_of_toNat_eq
  simp [alu, Nat.shiftRight_eq_div_pow]
  exact Nat.mod_eq_of_lt (Nat.lt_of_le_of_lt (Nat.div_le_self _ _) A.isLt)
theorem alu_minu : BitVec.ofNat n (alu n .minu A.toNat B.toNat) = if B.ult A then B else A := by
  simp only [alu, BitVec.ult]; split <;> split <;> simp_all <;> omega
theorem alu_maxu : BitVec.ofNat n (alu n .maxu A.toNat B.toNat) = if A.ult B then B else A := by
  simp only [alu, BitVec.ult]
  by_cases h : A.toNat ≤ B.toNat <;> by_cases h2 : A.toNat < B.toNat <;> simp [h, h2]
  · exact (BitVec.eq_of_toNat_eq (by omega : A.toNat = B.toNat)).symm
  · omega
theorem alu_mul : BitVec.ofNat n (alu n .mul A.toNat B.toNat) = A * B := by
  apply BitVec.eq_of_toNat_eq; simp [alu]
theorem alu_divu : BitVec.ofNat n (alu n .divu A.toNat B.toNat) = if B = 0 then BitVec.allOnes n else A / B := by
  simp only [alu, beq_iff_eq]
  by_cases h : B = 0
  · subst h; simp [ofNat_allOnes]
  · have : B.toNat ≠ 0 := fun h' => h (BitVec.eq_of_toNat_eq (by simpa using h'))
    simp only [h, this, if_false]
    apply BitVec.eq_of_toNat_eq; simp; exact Nat.mod_eq_of_lt (Nat.lt_of_le_of_lt (Nat.div_le_self _ _) A.isLt)
theorem alu_remu : BitVec.ofNat n (alu n .remu A.toNat B.toNat) = if B = 0 then A else A % B := by
  simp only [alu, beq_iff_eq]
  by_cases h : B = 0
  · subst h; simp
  · have : B.toNat ≠ 0 := fun h' => h (BitVec.eq_of_toNat_eq (by simpa using h'))
    simp only [h, this, if_false]
    apply BitVec.eq_of_toNat_eq; simp; exact Nat.mod_eq_of_lt (Nat.lt_of_le_of_lt (Nat.mod_le _ _) A.isLt)
theorem alu_sltu : BitVec.ofNat n (alu n .sltu A.toNat B.toNat) = if A.ult B then 1 else 0 := by
  simp only [alu, BitVec.ult, toBit]; split <;> simp
theorem alu_seq : BitVec.ofNat n (alu n .seq A.toNat B.toNat) = if A = B then 1 else 0 := by
  simp only [alu, toBit, beq_iff_eq, BitVec.toNat_inj]; split <;> simp
theorem alu_mulhu : BitVec.ofNat n (alu n .mulhu A.toNat B.toNat) =
    (A.zeroExtend (2 * n) * B.zeroExtend (2 * n)).extractLsb' n n := by
  apply BitVec.eq_of_toNat_eq
  have h1 := A.isLt; have h2 := B.isLt
  have h3 : A.toNat * B.toNat < 2 ^ (2 * n) := by rw [Nat.two_mul, Nat.pow_add]; exact Nat.mul_lt_mul'' h1 h2
  have h4 : 2 ^ n ≤ 2 ^ (2 * n) := Nat.pow_le_pow_right (by omega) (by omega)
  simp [alu, Nat.shiftRight_eq_div_pow, Nat.mod_eq_of_lt (Nat.lt_of_lt_of_le h1 h4),
    Nat.mod_eq_of_lt (Nat.lt_of_lt_of_le h2 h4), Nat.mod_eq_of_lt h3]

variable (hn : 0 < n)
include hn

theorem alu_sar : BitVec.ofNat n (alu n .sar A.toNat B.toNat) = A.sshiftRight (B.toNat % n) := by
  simp only [alu, ofNat_emod, sInt_toInt _ hn, BitVec.sshiftRight, Int.shiftRight_eq_div_pow]
theorem alu_mulh : BitVec.ofNat n (alu n .mulh A.toNat B.toNat) =
    (A.signExtend (2 * n) * B.signExtend (2 * n)).extractLsb' n n := by
  simp only [alu, sInt_toInt _ hn, ofNat_emod]
  have e : A.signExtend (2 * n) * B.signExtend (2 * n) = BitVec.ofInt (2 * n) (A.toInt * B.toInt) := by
    simp only [BitVec.signExtend, BitVec.ofInt_mul]
  rw [e]
  generalize A.toInt * B.toInt = z
  apply BitVec.eq_of_toNat_eq
  have hp : (0 : Int) < 2 ^ n := Int.pow_pos (by omega)
  have q : (z % (2 ^ n * 2 ^ n)) / 2 ^ n = (z / 2 ^ n) % 2 ^ n := by
    rw [Int.emod_def, Int.emod_def, Int.mul_assoc, Int.sub_eq_add_neg, ← Int.mul_neg,
      Int.add_mul_ediv_left _ _ (by omega), Int.ediv_ediv_of_nonneg (by omega)]
    omega
  have h0 : 0 ≤ z % (2 ^ n * 2 ^ n) := Int.emod_nonneg _ (Int.ne_of_gt (Int.mul_pos hp hp))
  rw [BitVec.extractLsb'_toNat, BitVec.toNat_ofInt, BitVec.toNat_ofInt, Nat.shiftRight_eq_div_pow]
  have c : ((2 ^ (2 * n) : Nat) : Int) = 2 ^ n * 2 ^ n := by rw [Nat.two_mul, Nat.pow_add]; simp
  have d : ((2 ^ n : Nat) : Int) = 2 ^ n := by simp
  rw [c, d, ← q]
  have r : (z % (2 ^ n * 2 ^ n)).toNat / 2 ^ n = (z % (2 ^ n * 2 ^ n) / 2 ^ n).toNat := by
    apply Int.ofNat_inj.1
    rw [Int.toNat_of_nonneg (Int.ediv_nonneg h0 (by omega))]
    show (((z % (2 ^ n * 2 ^ n)).toNat / 2 ^ n : Nat) : Int) = _
    rw [Int.natCast_ediv, Int.toNat_of_nonneg h0, d]
  rw [r, Nat.mod_eq_of_lt]
  rw [q]
  have h1 := Int.emod_nonneg (z / 2 ^ n) (Int.ne_of_gt hp)
  have h2 := Int.emod_lt_of_pos (z / 2 ^ n) hp
  omega
theorem alu_min : BitVec.ofNat n (alu n .min A.toNat B.toNat) = if B.slt A then B else A := by
  simp only [alu, sInt_toInt _ hn, BitVec.slt]; split <;> split <;> simp_all <;> omega
theorem alu_max : BitVec.ofNat n (alu n .max A.toNat B.toNat) = if A.slt B then B else A := by
  simp only [alu, sInt_toInt _ hn, BitVec.slt]
  by_cases h : A.toInt ≤ B.toInt <;> by_cases h2 : A.toInt < B.toInt <;> simp [h, h2]
  · exact (BitVec.eq_of_toInt_eq (by omega : A.toInt = B.toInt)).symm
  · omega
theorem alu_div : BitVec.ofNat n (alu n .div A.toNat B.toNat) = if B = 0 then BitVec.allOnes n else A.sdiv B := by
  simp only [alu, sInt_toInt _ hn, beq_iff_eq]
  by_cases h : B = 0
  · subst h; simp [ofNat_allOnes]
  · have : B.toNat ≠ 0 := fun h' => h (BitVec.eq_of_toNat_eq (by simpa using h'))
    simp only [h, this, if_false, ofNat_emod]
    apply BitVec.eq_of_toInt_eq; simp [BitVec.toInt_sdiv, BitVec.toInt_ofInt]
theorem alu_rem : BitVec.ofNat n (alu n .rem A.toNat B.toNat) = if B = 0 then A else A.srem B := by
  simp only [alu, beq_iff_eq]
  by_cases h : B = 0
  · subst h; simp
  · have : B.toNat ≠ 0 := fun h' => h (BitVec.eq_of_toNat_eq (by simpa using h'))
    simp only [h, this, if_false, ofNat_emod]
    apply BitVec.eq_of_toInt_eq
    rw [sInt_toInt _ hn, sInt_toInt _ hn, ← BitVec.toInt_srem, BitVec.ofInt_toInt]
theorem alu_slt : BitVec.ofNat n (alu n .slt A.toNat B.toNat) = if A.slt B then 1 else 0 := by
  simp only [alu, sInt_toInt _ hn, BitVec.slt, toBit]; split <;> simp_all
end

/-- Every operation answers a number of its width. -/
theorem alu_lt {n : Nat} (op : AluOp) (A B : BitVec n) (h : 0 < n) : alu n op A.toNat B.toNat < 2 ^ n := by
  have ha := A.isLt
  have hb := B.isLt
  have hp := Nat.two_pow_pos n
  have hlow : ∀ i : Int, (i % ((2 ^ n : Nat) : Int)).toNat < 2 ^ n := by
    intro i
    have h1 := Int.emod_nonneg i (show ((2 ^ n : Nat) : Int) ≠ 0 by omega)
    have h2 := Int.emod_lt_of_pos i (show (0 : Int) < ((2 ^ n : Nat) : Int) by omega)
    omega
  have hbit : ∀ b : Bool, toBit b < 2 ^ n := by
    intro b
    have : 2 ≤ 2 ^ n := Nat.pow_le_pow_right (n := 2) (by omega) h
    cases b <;> simp [toBit] <;> omega
  cases op <;> simp only [alu]
  case add | sub | shl | mul => exact Nat.mod_lt _ hp
  case and => exact Nat.lt_of_le_of_lt Nat.and_le_left ha
  case or => exact Nat.or_lt_two_pow ha hb
  case xor => exact Nat.xor_lt_two_pow ha hb
  case andn => exact Nat.lt_of_le_of_lt Nat.and_le_left ha
  case shr => exact Nat.lt_of_le_of_lt (Nat.div_le_self _ _) ha
  case sar | mulh => exact hlow _
  case min | max | minu | maxu => split <;> assumption
  case mulhu => exact (Nat.div_lt_iff_lt_mul hp).2 (Nat.mul_lt_mul'' ha hb)
  case div | divu | rem | remu =>
    split
    · first | omega | exact ha
    · first | exact hlow _ | exact Nat.lt_of_le_of_lt (Nat.div_le_self _ _) ha | exact Nat.lt_of_le_of_lt (Nat.mod_le _ _) ha
  case slt | sltu | seq => exact hbit _

/-! ## The shared forms -/

/-- `OP wd, wa, wb`: completes and holds the result for wd. -/
theorem aluReg_issued (op : AluOp) (sw : Bool) (d a b : BitVec 4) (s : State) :
    aluReg op sw d a b s = issued sw [.gpr d (alu64 op (readW s a) (readW s b))] s := rfl

/-- `OPI wd, wa, imm`. -/
theorem aluImm_issued (op : AluOp) (sw : Bool) (d a : BitVec 4) (imm : BitVec 13) (s : State) :
    aluImm op sw d a imm s = issued sw [.gpr d (alu64 op (readW s a) (immS s 13 imm.toNat))] s := rfl

theorem low32_bits (s : State) (r : BitVec 4) : bits (readW s r) 0 32 = (low32 s r).toNat := by simp [bits, low32]

/-- The .W form of an operation (04 R81): the 32-bit result on the low halves, sign-extended. -/
theorem alu32_signExtend (op : AluOp) (s : State) (a b : BitVec 4) :
    alu32 op (readW s a) (readW s b) =
      (BitVec.ofNat 32 (alu 32 op (low32 s a).toNat (low32 s b).toNat)).signExtend 64 := by
  rw [alu32, low32_bits, low32_bits, sext_32 _ (alu_lt _ _ _ (by omega))]

/-- `OP.W wd, wa, wb`. -/
theorem aluRegW_issued (op : AluOp) (sw : Bool) (d a b : BitVec 4) (s : State) :
    aluRegW op sw d a b s =
      issued sw [.gpr d ((BitVec.ofNat 32 (alu 32 op (low32 s a).toNat (low32 s b).toNat)).signExtend 64)] s := by
  rw [← alu32_signExtend]; rfl

/-! ## Immediates -/

theorem hxImm_fields (h : BitVec 21) :
    (encode (.hxImm h)).toNat / 2 ^ 21 % 16 = 0 ∧ (encode (.hxImm h)).toNat % 2 ^ 21 = h.toNat := by
  have := h.isLt
  simp [encode, encodeNat, encHxImm]; omega

/-- What a run of HX.IMM words asks for. -/
theorem hxOf_imms (s : State) (hs : List (BitVec 21)) (h : ExtendedBy s hs) :
    hxOf s = { imms := hs.map BitVec.toNat, rnd := none, reuse := 0, nt := false, pri := none } := by
  have go : ∀ (hs : List (BitVec 21)) (x : Hx), ((hs.map (fun h => encode (.hxImm h))).foldl hxAdd x) =
      { x with imms := x.imms ++ hs.map BitVec.toNat } := by
    intro hs
    induction hs with
    | nil => intro x; simp
    | cons a r ih =>
      intro x
      simp only [List.map_cons, List.foldl_cons, ih, hxAdd, (hxImm_fields a).1, (hxImm_fields a).2]; simp
  unfold hxOf; rw [h, go]; simp

/-- Without a run nothing is asked for. -/
theorem hxOf_unprefixed (s : State) (h : Unprefixed s) :
    hxOf s = { imms := [], rnd := none, reuse := 0, nt := false, pri := none } := by
  unfold hxOf; rw [h]; rfl

/-- No run is a run of no HX.IMM. -/
theorem Unprefixed.extendedBy (s : State) (h : Unprefixed s) : ExtendedBy s [] := h

/-- A sign extension from 64 bits on keeps the low 64 bits of a wider number. -/
theorem sext_64_setWidth {n : Nat} (x : BitVec n) (h : 64 ≤ n) : sext x.toNat 64 = x.signExtend 64 := by
  rw [BitVec.signExtend_eq_setWidth_of_le x h]
  have e : sext x.toNat 64 = sext (x.setWidth 64).toNat 64 := by
    simp only [sext, sInt, BitVec.toNat_setWidth, Nat.mod_mod]
  rw [e, sext_signExtend _ (by omega), BitVec.signExtend_eq]

/-- A signed immediate with its HX.IMM words (03 R61). -/
theorem immS_wide {f : Nat} (s : State) (hs : List (BitVec 21)) (imm : BitVec f) (hf : 0 < f) (h : ExtendedBy s hs)
    (hl : hs.length ≤ 2) : immS s f imm.toNat = wide hs imm := by
  unfold immS
  rw [hxOf_imms s hs h]
  match hs, hl with
  | [], _ => exact sext_signExtend imm hf
  | [a], _ =>
    simp only [extended, wide, List.map_cons, List.map_nil, ← append_toNat]
    by_cases hw : f + 21 ≤ 64
    · rw [Nat.min_eq_right hw, Nat.add_comm f 21]; exact sext_signExtend _ (by omega)
    · rw [Nat.min_eq_left (by omega)]; exact sext_64_setWidth _ (by omega)
  | [a, b], _ =>
    simp only [extended, wide, List.map_cons, List.map_nil]
    have e : a.toNat * 2 ^ (f + 21) + b.toNat * 2 ^ f + imm.toNat = (a ++ b ++ imm).toNat := by
      rw [append_toNat, append_toNat, Nat.add_mul, Nat.mul_assoc, ← Nat.pow_add, Nat.add_comm f 21]
    rw [e]
    by_cases hw : f + 42 ≤ 64
    · rw [Nat.min_eq_right hw, show f + 42 = 21 + 21 + f by omega]; exact sext_signExtend _ (by omega)
    · rw [Nat.min_eq_left (by omega)]; exact sext_64_setWidth _ (by omega)

/-- The word of an instruction as TRAPV receives it. -/
theorem wordOf_insn (i : Instr) (h : encodeNat i < 2 ^ 32) : wordOf i = insn (encodeNat i) := by
  apply BitVec.eq_of_toNat_eq; simp [wordOf, encode, insn, w64]; omega

end Sys2Proof.Machine
end

