-- ==== Sys2Proof/Laws/Mem.lean ====
section
/-! SUPPORT. Memory: a read after a write, and every write keeps the canonical form. -/
set_option Elab.async false
namespace Sys2Proof.Machine

/-! ## Reads after writes -/

theorem memGet_nil (a : Nat) : memGet [] a = unlisted := rfl

theorem memGet_memInsert_same (m : List Host.Cell) (a : Nat) (b : Byte) : memGet (memInsert m a b) a = b := by
  induction m with
  | nil => simp [memInsert, memGet]
  | cons p r ih =>
    obtain ⟨c, x⟩ := p
    simp only [memInsert]
    split
    · simp [memGet]
    · split
      · simp [memGet]
      · rename_i h1 h2
        simp only [memGet, ih]
        rw [if_neg (by simpa using fun h : c = a => h2 (by simp [h]))]

theorem memGet_memInsert_other (m : List Host.Cell) {a k : Nat} (b : Byte) (h : k ≠ a) :
    memGet (memInsert m a b) k = memGet m k := by
  induction m with
  | nil => simp [memInsert, memGet, Ne.symm h, unlisted]
  | cons p r ih =>
    obtain ⟨c, x⟩ := p
    simp only [memInsert]
    split
    · simp [memGet, Ne.symm h]
    · split
      · rename_i h1 h2
        have e : a = c := by simpa using h2
        subst e
        simp [memGet, Ne.symm h]
      · simp only [memGet, ih]

theorem memGet_filter_same (m : List Host.Cell) (a : Nat) : memGet (m.filter (fun c => c.1 != a)) a = unlisted := by
  induction m with
  | nil => rfl
  | cons p r ih =>
    obtain ⟨c, x⟩ := p
    by_cases h : c = a
    · subst h; simpa using ih
    · simp [h, memGet, ih]

theorem memGet_filter_other (m : List Host.Cell) {a k : Nat} (h : k ≠ a) :
    memGet (m.filter (fun c => c.1 != a)) k = memGet m k := by
  induction m with
  | nil => rfl
  | cons p r ih =>
    obtain ⟨c, x⟩ := p
    by_cases hc : c = a
    · subst hc; simp [memGet, Ne.symm h, ih]
    · simp [hc, memGet, ih]

/-- A read of the byte just written gives it. -/
@[simp] theorem memGet_memPut_same (m : List Host.Cell) (a : Nat) (b : Byte) : memGet (memPut m a b) a = b := by
  unfold memPut
  split
  · rename_i h
    rw [memGet_filter_same]
    exact (by simpa using h : b = unlisted).symm
  · exact memGet_memInsert_same m a b

/-- A write leaves every other byte alone. -/
@[simp] theorem memGet_memPut_other (m : List Host.Cell) {a k : Nat} (b : Byte) (h : k ≠ a) :
    memGet (memPut m a b) k = memGet m k := by
  unfold memPut
  split
  · exact memGet_filter_other m h
  · exact memGet_memInsert_other m b h

/-- The read of any byte after one write. -/
theorem memGet_memPut (m : List Host.Cell) (a k : Nat) (b : Byte) :
    memGet (memPut m a b) k = if k = a then b else memGet m k := by
  split
  · rename_i h; subst h; simp
  · rename_i h; exact memGet_memPut_other m b h

/-- The read of any byte after cells were written in order: the last of them at its address, or what stood there. -/
theorem memGet_memWriteCells (cs m : List Host.Cell) (k : Nat) :
    memGet (memWriteCells m cs) k =
      ((cs.reverse.find? (fun c => c.1 == k)).map (fun c => c.2)).getD (memGet m k) := by
  unfold memWriteCells
  induction cs generalizing m with
  | nil => simp
  | cons c r ih =>
    rw [List.foldl_cons, ih, List.reverse_cons, List.find?_append]
    cases h : r.reverse.find? (fun c => c.1 == k) with
    | some x => simp
    | none =>
      simp only [Option.map_none, Option.getD_none, Option.none_or, List.find?_cons, List.find?_nil]
      by_cases hc : c.1 = k
      · subst hc; simp
      · rw [memGet_memPut_other _ _ (Ne.symm hc), show (c.1 == k) = false by simpa using hc]; rfl

/-- Bytes outside the cells written stay. -/
theorem memGet_memWriteCells_other (cs m : List Host.Cell) (k : Nat) (h : ∀ c ∈ cs, c.1 ≠ k) :
    memGet (memWriteCells m cs) k = memGet m k := by
  rw [memGet_memWriteCells, List.find?_eq_none.2]
  · rfl
  · intro c hc; simpa using h c (List.mem_reverse.1 hc)

/-- The read of any byte after a run of bytes was written. -/
theorem memGet_memWrite (bs : List Byte) (m : List Host.Cell) (a k : Nat) :
    memGet (memWrite m a bs) k = if a ≤ k then bs.getD (k - a) (memGet m k) else memGet m k := by
  induction bs generalizing m a with
  | nil => simp [memWrite]
  | cons b r ih =>
    rw [memWrite, ih]
    by_cases h : k = a
    · subst h
      rw [if_neg (by omega), if_pos (Nat.le_refl k), memGet_memPut_same, Nat.sub_self]; rfl
    · rw [memGet_memPut_other _ _ h]
      by_cases h1 : a + 1 ≤ k
      · rw [if_pos h1, if_pos (by omega), show k - a = (k - (a + 1)) + 1 by omega]; rfl
      · rw [if_neg h1, if_neg (by omega)]

/-! ## The canonical form -/

/-- Every address of a canonical list that follows an entry lies above it, and its byte is listed. -/
theorem Memory.wf_iff (m : List Host.Cell) :
    Memory.wf m = true ↔ m.Pairwise (fun p q => p.1 < q.1) ∧ ∀ p ∈ m, p.2 ≠ unlisted := by
  induction m with
  | nil => simp [Memory.wf]
  | cons p r ih =>
    obtain ⟨a, x⟩ := p
    cases r with
    | nil => simp [Memory.wf]
    | cons q t =>
      obtain ⟨b, y⟩ := q
      simp only [Memory.wf, Bool.and_eq_true, decide_eq_true_eq, ih, bne_iff_ne, List.pairwise_cons,
        List.forall_mem_cons]
      constructor
      · rintro ⟨⟨h1, h2⟩, ⟨h3, h4⟩, h5, h6⟩
        exact ⟨⟨⟨h1, fun c hc => Nat.lt_trans h1 (h3 c hc)⟩, h3, h4⟩, h2, h5, h6⟩
      · rintro ⟨⟨⟨h1, _⟩, h3, h4⟩, h2, h5, h6⟩
        exact ⟨⟨h1, h2⟩, ⟨h3, h4⟩, h5, h6⟩

theorem memInsert_fst (m : List Host.Cell) (a : Nat) (b : Byte) (p : Host.Cell) (h : p ∈ memInsert m a b) :
    p = (a, b) ∨ p ∈ m := by
  induction m with
  | nil => simpa [memInsert] using h
  | cons q r ih =>
    obtain ⟨c, x⟩ := q
    simp only [memInsert] at h
    split at h
    · simpa using h
    · split at h
      · rcases List.mem_cons.1 h with h | h
        · exact .inl h
        · exact .inr (List.mem_cons_of_mem _ h)
      · rcases List.mem_cons.1 h with h | h
        · exact .inr (h ▸ List.mem_cons_self)
        · rcases ih h with h | h
          · exact .inl h
          · exact .inr (List.mem_cons_of_mem _ h)

/-- A listed byte enters in its place. -/
theorem memInsert_wf (m : List Host.Cell) (a : Nat) (b : Byte) (hb : b ≠ unlisted) (h : Memory.wf m = true) :
    Memory.wf (memInsert m a b) = true := by
  rw [Memory.wf_iff] at h ⊢
  obtain ⟨h1, h2⟩ := h
  refine ⟨?_, fun p hp => (memInsert_fst m a b p hp).elim (fun e => e ▸ hb) (h2 p)⟩
  induction m with
  | nil => simp [memInsert]
  | cons q r ih =>
    obtain ⟨c, x⟩ := q
    obtain ⟨h3, h4⟩ := List.pairwise_cons.1 h1
    simp only [memInsert]
    split
    · rename_i hlt
      exact List.pairwise_cons.2 ⟨fun p hp => (List.mem_cons.1 hp).elim (fun e => e ▸ hlt)
        (fun hp => Nat.lt_trans hlt (h3 p hp)), h1⟩
    · split
      · rename_i _ he
        have e : a = c := by simpa using he
        exact List.pairwise_cons.2 ⟨fun p hp => e ▸ h3 p hp, h4⟩
      · rename_i hlt hne
        refine List.pairwise_cons.2 ⟨fun p hp => ?_, ih h4 (fun p hp => h2 p (List.mem_cons_of_mem _ hp))⟩
        rcases memInsert_fst r a b p hp with e | hp
        · subst e
          have : a ≠ c := by simpa using hne
          show c < a
          omega
        · exact h3 p hp

/-- A write of one byte keeps the canonical form. -/
theorem memPut_wf (m : List Host.Cell) (a : Nat) (b : Byte) (h : Memory.wf m = true) : Memory.wf (memPut m a b) = true := by
  unfold memPut
  split
  · rw [Memory.wf_iff] at h ⊢
    exact ⟨h.1.filter _, fun p hp => h.2 p (List.mem_filter.1 hp).1⟩
  · rename_i hb
    exact memInsert_wf m a b (by simpa using hb) h

/-- A write of a run of bytes keeps the canonical form. -/
theorem memWrite_wf (bs : List Byte) (m : List Host.Cell) (a : Nat) (h : Memory.wf m = true) :
    Memory.wf (memWrite m a bs) = true := by
  induction bs generalizing m a with
  | nil => exact h
  | cons b r ih => exact ih _ _ (memPut_wf m a b h)

/-- A write of cells keeps the canonical form. -/
theorem memWriteCells_wf (cs m : List Host.Cell) (h : Memory.wf m = true) : Memory.wf (memWriteCells m cs) = true := by
  unfold memWriteCells
  induction cs generalizing m with
  | nil => exact h
  | cons c r ih => exact ih _ (memPut_wf m c.1 c.2 h)

/-- Equal memories are equal data: canonical lists that read alike are the same. -/
theorem Memory.ext (m n : List Host.Cell) (hm : Memory.wf m = true) (hn : Memory.wf n = true)
    (h : ∀ a, memGet m a = memGet n a) : m = n := by
  rw [Memory.wf_iff] at hm hn
  have below : ∀ (l : List Host.Cell) (a : Nat), (∀ p ∈ l, a < p.1) → memGet l a = unlisted := by
    intro l a hl
    induction l with
    | nil => rfl
    | cons p r ih =>
      have : p.1 ≠ a := Nat.ne_of_gt (hl p List.mem_cons_self)
      simp only [memGet]
      rw [if_neg (by simpa using this)]
      exact ih (fun q hq => hl q (List.mem_cons_of_mem _ hq))
  induction m generalizing n with
  | nil =>
    cases n with
    | nil => rfl
    | cons q t =>
      have := h q.1
      simp only [memGet, beq_self_eq_true, if_true] at this
      exact absurd this.symm (hn.2 q List.mem_cons_self)
  | cons p r ih =>
    cases n with
    | nil =>
      have := h p.1
      simp only [memGet, beq_self_eq_true, if_true] at this
      exact absurd this (hm.2 p List.mem_cons_self)
    | cons q t =>
      obtain ⟨pm, rm⟩ := List.pairwise_cons.1 hm.1
      obtain ⟨pn, rn⟩ := List.pairwise_cons.1 hn.1
      have key : p.1 = q.1 := by
        rcases Nat.lt_trichotomy p.1 q.1 with hl | he | hg
        · have h1 := h p.1
          rw [below (q :: t) p.1 (fun x hx => (List.mem_cons.1 hx).elim (fun e => e ▸ hl)
            (fun hx => Nat.lt_trans hl (pn x hx)))] at h1
          simp only [memGet, beq_self_eq_true, if_true] at h1
          exact absurd h1 (hm.2 p List.mem_cons_self)
        · exact he
        · have h1 := h q.1
          rw [below (p :: r) q.1 (fun x hx => (List.mem_cons.1 hx).elim (fun e => e ▸ hg)
            (fun hx => Nat.lt_trans hg (pm x hx)))] at h1
          simp only [memGet, beq_self_eq_true, if_true] at h1
          exact absurd h1.symm (hn.2 q List.mem_cons_self)
      have val : p.2 = q.2 := by
        have h1 := h p.1
        simpa [memGet, key] using h1
      have tails : r = t := by
        refine ih t ⟨rm, fun x hx => hm.2 x (List.mem_cons_of_mem _ hx)⟩
          ⟨rn, fun x hx => hn.2 x (List.mem_cons_of_mem _ hx)⟩ (fun a => ?_)
        by_cases ha : p.1 = a
        · subst ha
          rw [below r p.1 pm, below t p.1 (fun x hx => key ▸ pn x hx)]
        · have h1 := h a
          have ha2 : q.1 ≠ a := fun e => ha (key.trans e)
          simp only [memGet] at h1
          rwa [if_neg (by simpa using ha), if_neg (by simpa using ha2)] at h1
      rw [tails, show p = q from Prod.ext key val]

end Sys2Proof.Machine
end

