-- ==== Sys2Proof/Laws/Regs.lean ====
section
/-! SUPPORT. The window, the register banks and the delivery of a group's writes (03 R46, 04 R72). -/
set_option Elab.async false
namespace Sys2Proof.Machine

/-! ## The window (04 R72) -/

/-- Two names of one depth are different entries of the stack. -/
theorem winIx_inj (d : Nat) (q r : BitVec 4) : winIx d q.toNat = winIx d r.toNat ↔ q = r := by
  constructor
  · intro h
    have h1 := congrArg Fin.val h
    simp only [winIx] at h1
    apply BitVec.eq_of_toNat_eq
    omega
  · intro h; rw [h]

/-- A register just set. -/
@[simp] theorem reg_setReg_same (c : Ctx) (r : BitVec 4) (v : W64) : (c.setReg r v).reg r = v := by
  exact Vector.getElem_set_self _

/-- The other registers of the window. -/
@[simp] theorem reg_setReg_other (c : Ctx) {q r : BitVec 4} (v : W64) (h : q ≠ r) : (c.setReg r v).reg q = c.reg q := by
  have hne : (winIx c.depth r.toNat).val ≠ (winIx c.depth q.toNat).val :=
    fun e => h ((winIx_inj c.depth q r).1 (Fin.ext e.symm))
  simp only [Ctx.reg, Ctx.setReg]
  exact Vector.getElem_set_ne _ _ hne

/-- An entry of the stack that the window does not name stays. -/
theorem stack_setReg_other (c : Ctx) (r : BitVec 4) (v : W64) (i : Fin 64) (h : winIx c.depth r.toNat ≠ i) :
    (c.setReg r v).stack.get i = c.stack.get i := by
  simp only [Ctx.setReg]
  exact Vector.getElem_set_ne _ _ (fun e => h (Fin.ext e))

/-- A read does not see the writes of its group (03 R46). -/
@[simp] theorem readW_put (w : RegWrite) (s : State) (r : BitVec 4) : readW (put w s) r = readW s r := rfl
@[simp] theorem readV_put (w : RegWrite) (s : State) (r : BitVec 5) : readV (put w s) r = readV s r := rfl
@[simp] theorem readM_put (w : RegWrite) (s : State) (r : BitVec 3) : readM (put w s) r = readM s r := rfl
@[simp] theorem readL_put (w : RegWrite) (s : State) (r : BitVec 2) : readL (put w s) r = readL s r := rfl
@[simp] theorem readE_put (w : RegWrite) (s : State) (r : BitVec 3) : readE (put w s) r = readE s r := rfl

/-- m0 reads as all ones whatever it holds (03 R54). -/
@[simp] theorem readM_zero (s : State) : readM s 0 = BitVec.allOnes 128 := rfl

/-! ## The delivery of writes (03 R46, R49) -/

/-- One write of a window register; the copies of the register go. -/
theorem applyWrite_gpr (sys : Bool) (s : State) (r : BitVec 4) (v : W64) :
    applyWrite sys s (.gpr r v) =
      forget s.ctx.num true (fun e => e == (winIx s.ctx.depth r.toNat).val) { s with ctx := s.ctx.setReg r v } := rfl

/-- Writes of window registers change the stack, and drop copies of registers. -/
theorem foldl_gpr_frame (sys : Bool) (ws : List (BitVec 4 × W64)) (s : State) :
    ∃ st re, (ws.map (fun w => RegWrite.gpr w.1 w.2)).foldl (applyWrite sys) s =
      { s with ctx := { s.ctx with stack := st }, core := { s.core with reuse := re } } := by
  induction ws generalizing s with
  | nil => exact ⟨s.ctx.stack, s.core.reuse, rfl⟩
  | cons w r ih =>
    obtain ⟨st, re, h⟩ := ih (applyWrite sys s (.gpr w.1 w.2))
    exact ⟨st, re, by rw [List.map_cons, List.foldl_cons, h]; rfl⟩

/-- The last write to a register stands. -/
theorem foldl_gpr_reg (sys : Bool) (ws : List (BitVec 4 × W64)) (s : State) (r : BitVec 4) :
    ((ws.map (fun w => RegWrite.gpr w.1 w.2)).foldl (applyWrite sys) s).ctx.reg r =
      ((ws.reverse.find? (fun w => w.1 == r)).map (fun w => w.2)).getD (s.ctx.reg r) := by
  induction ws generalizing s with
  | nil => rfl
  | cons w t ih =>
    rw [List.map_cons, List.foldl_cons, ih, List.reverse_cons, List.find?_append]
    cases h : t.reverse.find? (fun w => w.1 == r) with
    | some x => simp
    | none =>
      simp only [Option.map_none, Option.getD_none, Option.none_or, List.find?_cons, List.find?_nil, applyWrite_gpr, forget]
      by_cases hr : w.1 = r
      · subst hr; simp
      · rw [reg_setReg_other _ _ (Ne.symm hr), show (w.1 == r) = false by simpa using hr]; rfl

/-- Entries of the stack that no write of the group names stay. -/
theorem foldl_gpr_stack (sys : Bool) (ws : List (BitVec 4 × W64)) (s : State) (i : Fin 64)
    (h : ∀ r : BitVec 4, winIx s.ctx.depth r.toNat ≠ i) :
    ((ws.map (fun w => RegWrite.gpr w.1 w.2)).foldl (applyWrite sys) s).ctx.stack.get i = s.ctx.stack.get i := by
  induction ws generalizing s with
  | nil => rfl
  | cons w t ih =>
    rw [List.map_cons, List.foldl_cons, ih (applyWrite sys s (.gpr w.1 w.2)) h, applyWrite_gpr]
    exact stack_setReg_other _ _ _ _ (h w.1)

/-- A group that holds nothing delivers nothing but its flags. -/
theorem deliver_empty (s : State) (h : s.ctx.pend = []) (hf : s.ctx.pendFp = 0) (hr : s.ctx.pendRl = 0) :
    deliver s = s := by
  obtain ⟨ctx⟩ := s
  obtain ⟨_⟩ := ctx
  simp_all [deliver, applyFlags]

/-- No write changes what identifies a context, its place in the program, or what it waits for. -/
theorem applyWrite_frame (sys : Bool) (s : State) (w : RegWrite) :
    (applyWrite sys s w).mem = s.mem ∧ (applyWrite sys s w).ctx.num = s.ctx.num ∧ (applyWrite sys s w).ctx.task = s.ctx.task ∧
    (applyWrite sys s w).ctx.inc = s.ctx.inc ∧ (applyWrite sys s w).ctx.pc = s.ctx.pc ∧
    (applyWrite sys s w).ctx.status = s.ctx.status ∧ (applyWrite sys s w).core.id = s.core.id ∧
    (applyWrite sys s w).core.spad = s.core.spad ∧ (applyWrite sys s w).cores = s.cores := by
  cases w with
  | sreg n v =>
    simp only [applyWrite]
    unfold srWrite
    dsimp only
    split <;>
      first
      | exact ⟨rfl, rfl, rfl, rfl, rfl, rfl, rfl, rfl, rfl⟩
      | (split <;> first
          | exact ⟨rfl, rfl, rfl, rfl, rfl, rfl, rfl, rfl, rfl⟩
          | (unfold setWdepth; dsimp only; split <;> exact ⟨rfl, rfl, rfl, rfl, rfl, rfl, rfl, rfl, rfl⟩))
  | _ => exact ⟨rfl, rfl, rfl, rfl, rfl, rfl, rfl, rfl, rfl⟩

end Sys2Proof.Machine
end

