-- ==== Sys2Proof/Laws/Ops.lean ====
section
/-! SUPPORT. Everything that each shared operation can do, said once: the checks of 03 R59, control transfers, traps and
returns from them, accesses of memory and of scratchpad, and changes of cores and contexts by number. -/
set_option Elab.async false
namespace Sys2Proof.Machine

/-! ## Checks at issue (03 R59): pass, or the trap that the check names -/

@[simp] theorem legal_true (v : W64) (k : State → State) (s : State) : legal true v k s = k s := rfl
@[simp] theorem legal_false (v : W64) (k : State → State) (s : State) : legal false v k s = raise 0x01 v s := rfl
@[simp] theorem present_true (v : W64) (k : State → State) (s : State) : present true v k s = k s := rfl
@[simp] theorem present_false (v : W64) (k : State → State) (s : State) : present false v k s = raise 0x09 v s := rfl
@[simp] theorem declared_true (v : W64) (k : State → State) (s : State) : declared true v k s = k s := rfl
@[simp] theorem declared_false (v : W64) (k : State → State) (s : State) : declared false v k s = raise 0x0E v s := rfl
@[simp] theorem clean_false (v : W64) (k : State → State) (s : State) : clean false v k s = k s := rfl
@[simp] theorem clean_true (v : W64) (k : State → State) (s : State) : clean true v k s = raise 0x07 v s := rfl

theorem system_level (w : W64) (k : State → State) (s : State) (h : s.ctx.trap.level = true) : system w k s = k s := by
  simp [system, h]
theorem system_user (w : W64) (k : State → State) (s : State) (h : s.ctx.trap.level = false) :
    system w k s = raise 0x02 w s := by simp [system, h]
theorem aligned_ok (v : W64) (n : Nat) (k : State → State) (s : State) (h : v.toNat % n = 0) : aligned v n k s = k s := by
  simp [aligned, h]
theorem aligned_bad (v : W64) (n : Nat) (k : State → State) (s : State) (h : v.toNat % n ≠ 0) :
    aligned v n k s = raise 0x03 v s := by simp [aligned, h]
theorem onModule_ok (va : W64) (k : State → State) (s : State) (h : vaAccel va = s.accel.toNat) :
    onModule va k s = k s := by simp [onModule, h]
theorem onModule_bad (va : W64) (k : State → State) (s : State) (h : vaAccel va ≠ s.accel.toNat) :
    onModule va k s = raise 0x04 va s := by simp [onModule, h]

/-! ## Control transfers (03 R43, R45, R48) -/

/-- A target that is aligned and on this module is reached at the close of the group. -/
theorem transfer_ok (t : W64) (a : CloseAct) (s : State) (h : t.toNat % 4 = 0) (hv : vaAccel t = s.accel.toNat) :
    transfer t a s = closes a s := by
  rw [transfer, aligned_ok _ _ _ _ h, onModule_ok _ _ _ hv]; rfl
/-- A target with bits [1:0] set raises MISALIGN. -/
theorem transfer_misaligned (t : W64) (a : CloseAct) (s : State) (h : t.toNat % 4 ≠ 0) :
    transfer t a s = raise 0x03 t s := aligned_bad _ _ _ _ h
/-- A target on another module raises REMOTE. -/
theorem transfer_remote (t : W64) (a : CloseAct) (s : State) (h : t.toNat % 4 = 0) (hv : vaAccel t ≠ s.accel.toNat) :
    transfer t a s = raise 0x04 t s := by
  rw [transfer, aligned_ok _ _ _ _ h, onModule_bad _ _ _ hv]

/-- The target of a branch: its own address plus four times its extended offset. -/
theorem branchTarget_wide {f : Nat} (s : State) (hs : List (BitVec 21)) (o : BitVec f) (hf : 0 < f)
    (h : ExtendedBy s hs) (hl : hs.length ≤ 2) : branchTarget s f o.toNat = s.ctx.pc + 4 * wide hs o := by
  rw [branchTarget, immS_wide s hs o hf h hl, BitVec.mul_comm]

/-- Four times an offset keeps the pc aligned. -/
theorem branchTarget_aligned (pc w : W64) (h : pc.toNat % 4 = 0) : (pc + 4 * w).toNat % 4 = 0 := by
  simp only [BitVec.toNat_add, BitVec.toNat_mul]
  rw [show (4 : W64).toNat = 4 from rfl]
  omega

/-! ## Traps and returns (15 R348, R369) -/

/-- A trap outside a trap, where the core has a vector: entry, the group's earlier writes having been delivered. -/
theorem raise_entry (cause : Nat) (v : W64) (s : State) (hi : (deliver s).ctx.trap.intrap = false)
    (ht : (deliver s).core.regs.tvec ≠ 0) :
    raise cause v s =
      { forgetSaved (deliver s) with ctx := enterTrap cause v (instrPc s.ctx) (deliver s).core.regs.tvec (deliver s).ctx } := by
  simp only [raise, trapAt, hi, Bool.false_or]
  rw [if_neg (by simpa using ht)]

/-- A trap within a trap, or on a core without a vector, kills the activation. -/
theorem raise_double (cause : Nat) (v : W64) (s : State)
    (h : (deliver s).ctx.trap.intrap = true ∨ (deliver s).core.regs.tvec = 0) :
    raise cause v s = errOfCtx (deliver s).core.id (deliver s).ctx cause true true (instrPc s.ctx) v
      (retire (deliver s).core.id (deliver s).ctx.num.toNat .killed (deliver s)) := by
  simp only [raise, trapAt]
  rw [if_pos (by simpa using h)]

/-- What entry writes: the registers of the trap, and the pc. -/
theorem enterTrap_fields (cause : Nat) (v pc vec : W64) (c : Ctx) :
    (enterTrap cause v pc vec c).pc = vec ∧ (enterTrap cause v pc vec c).status = .ready ∧
    (enterTrap cause v pc vec c).trap.trapc = w64 cause ∧ (enterTrap cause v pc vec c).trap.trappc = pc ∧
    (enterTrap cause v pc vec c).trap.trapv = v ∧ (enterTrap cause v pc vec c).trap.prev = c.trap.level ∧
    (enterTrap cause v pc vec c).trap.level = true ∧ (enterTrap cause v pc vec c).trap.intrap = true ∧
    (enterTrap cause v pc vec c).depth = c.depth ∧ (enterTrap cause v pc vec c).pend = c.pend := by
  simp only [enterTrap, swapSaved, Ctx.setReg_depth, Ctx.setReg_pend, and_self]

/-- The window after the exchange. -/
theorem swapSaved_reg (c : Ctx) (r : BitVec 4) : (swapSaved c).reg r =
    ((((c.setReg 12 (c.trap.tsave.get 0)).setReg 13 (c.trap.tsave.get 1)).setReg 14 (c.trap.tsave.get 2)).setReg 15
      (c.trap.tsave.get 3)).reg r := rfl

/-- w12 to w15 are exchanged with TSAVE0 to TSAVE3. -/
theorem swapSaved_saved (c : Ctx) (j : Fin 4) :
    (swapSaved c).reg (savedReg j) = c.trap.tsave.get j ∧ (swapSaved c).trap.tsave.get j = c.reg (savedReg j) := by
  rw [swapSaved_reg]
  match j with
  | 0 =>
    refine ⟨?_, rfl⟩
    rw [reg_setReg_other _ _ (by decide), reg_setReg_other _ _ (by decide), reg_setReg_other _ _ (by decide)]
    exact reg_setReg_same _ _ _
  | 1 =>
    refine ⟨?_, rfl⟩
    rw [reg_setReg_other _ _ (by decide), reg_setReg_other _ _ (by decide)]
    exact reg_setReg_same _ _ _
  | 2 =>
    refine ⟨?_, rfl⟩
    rw [reg_setReg_other _ _ (by decide)]
    exact reg_setReg_same _ _ _
  | 3 => exact ⟨reg_setReg_same _ _ _, rfl⟩

/-- The other registers of the window stay. -/
theorem swapSaved_other (c : Ctx) (r : BitVec 4) (h : r.toNat < 12) : (swapSaved c).reg r = c.reg r := by
  have ne : ∀ x : BitVec 4, 12 ≤ x.toNat → r ≠ x := fun x hx e => absurd hx (e ▸ Nat.not_le.2 h)
  rw [swapSaved_reg, reg_setReg_other _ _ (ne 15 (by decide)), reg_setReg_other _ _ (ne 14 (by decide)),
    reg_setReg_other _ _ (ne 13 (by decide)), reg_setReg_other _ _ (ne 12 (by decide))]

theorem swapSaved_prev (c : Ctx) : (swapSaved c).trap.prev = c.trap.prev := rfl

/-- A return undoes an entry: LEVEL from PREV, INTRAP cleared, the pc restored. -/
theorem trapReturn_fields (pc : W64) (c : Ctx) :
    (trapReturn pc c).pc = pc ∧ (trapReturn pc c).trap.level = c.trap.prev ∧ (trapReturn pc c).trap.intrap = false := by
  refine ⟨rfl, ?_, rfl⟩
  show (swapSaved c).trap.prev = _
  exact swapSaved_prev c

/-- The window after a return is that of the exchange. -/
theorem trapReturn_stack (pc : W64) (c : Ctx) : (trapReturn pc c).stack = (swapSaved c).stack := rfl

/-- The saved registers after a return are those of the exchange. -/
theorem trapReturn_tsave (pc : W64) (c : Ctx) : (trapReturn pc c).trap.tsave = (swapSaved c).trap.tsave := rfl

/-! ## Global accesses (07 R150, 15 R357) -/

/-- An aligned scalar access lies in one piece. -/
theorem pieces_scalar (va : W64) (n : Nat) (h0 : 0 < n) (hn : n ∣ 1024) (h : va.toNat % n = 0) :
    pieces va n = [(va, n)] := by
  have hle : n ≤ 1024 - bits va 0 10 := by
    have hb : bits va 0 10 = va.toNat % 1024 := by simp [bits]
    obtain ⟨c, hc⟩ := hn
    have h1 : va.toNat % 1024 % n = 0 := by rw [hc, Nat.mod_mul_right_mod]; exact h
    have h2 : va.toNat % 1024 < 1024 := Nat.mod_lt _ (by omega)
    obtain ⟨q, hq⟩ := Nat.dvd_of_mod_eq_zero h1
    rw [hb, hq]
    have : q < c := by
      apply Nat.lt_of_mul_lt_mul_left (a := n)
      omega
    have : n * (q + 1) ≤ n * c := Nat.mul_le_mul_left n this
    rw [Nat.mul_add] at this
    omega
  rw [pieces, show n / 1024 + 2 = (n / 1024 + 1) + 1 by omega, piecesGo]
  rw [if_neg (by simpa using Nat.ne_of_gt h0), if_pos hle]

/-- A scalar access that maps reaches its bytes. -/
theorem access_maps (va : W64) (n : Nat) (rd wr : Bool) (k : List Nat → State → State) (s : State) (key : Nat)
    (h0 : 0 < n) (hn : n ∣ 1024) (ha : va.toNat % n = 0) (hm : Maps s va rd wr key) :
    access va n rd wr k s =
      k ((List.range n).map (fun i => key + i)) (if rd then sawAt ((List.range n).map (fun i => key + i)) s else s) := by
  rw [access, onModule_ok _ _ _ hm.1, pieces_scalar va n h0 hn ha]
  simp [pieceKeys, hm.2, Except.map]

/-- A poisoned run of bytes, byte by byte. -/
theorem poisonAt_run (s : State) (key n : Nat) :
    poisonAt s ((List.range n).map (fun i => key + i)) = viewPoison s key n := by
  rw [Bool.eq_iff_iff]
  simp only [poisonAt, viewPoison, List.any_map, List.any_eq_true, List.mem_range, Function.comp_apply,
    Bool.and_eq_true, decide_eq_true_eq]
  constructor
  · rintro ⟨i, hi, x, hx, ⟨h1, h2⟩, h3⟩
    exact ⟨x, hx, ⟨by omega, by omega⟩, h3⟩
  · rintro ⟨x, hx, ⟨h1, h2⟩, h3⟩
    exact ⟨x - key, by omega, x, hx, ⟨by omega, by omega⟩, h3⟩

/-- What a load has seen changes no byte that the core sees. -/
@[simp] theorem viewByte_sawAt (ks : List Nat) (s : State) (k : Nat) : viewByte (sawAt ks s) k = viewByte s k := rfl
@[simp] theorem viewPoison_sawAt (ks : List Nat) (s : State) (k n : Nat) : viewPoison (sawAt ks s) k n = viewPoison s k n := rfl

/-- A load that can be made gives the bytes as the core sees them. -/
theorem loadBytes_reaches (va : W64) (n : Nat) (k : List Byte → State → State) (s : State) (key : Nat) (h0 : 0 < n)
    (hn : n ∣ 1024) (h : Reaches s va n true false key) : loadBytes va n k s = k (viewBytes s key n) (sawRange key n s) := by
  rw [loadBytes, access_maps va n true false _ s key h0 hn h.1 h.2.1, if_pos rfl, poisonAt_run, viewPoison_sawAt, h.2.2 rfl,
    clean_false]
  simp [viewAt, viewBytes, sawRange, List.map_map, Function.comp_def]

/-- A store that can be made enters the store buffer. -/
theorem storeBytes_maps (va : W64) (bs : List Byte) (k : State → State) (s : State) (key : Nat) (h0 : 0 < bs.length)
    (hn : bs.length ∣ 1024) (ha : va.toNat % bs.length = 0) (h : Maps s va false true key) :
    storeBytes va bs k s = k (storeGlobal (((List.range bs.length).map (fun i => key + i)).zip bs) s) := by
  rw [storeBytes, access_maps va bs.length false true _ s key h0 hn ha h, if_neg (by decide)]

/-- The store buffer after bytes have entered it. -/
theorem storeGlobal_cons (c : Host.Cell) (cs : List Host.Cell) (s : State) :
    storeGlobal (c :: cs) s = buffered [] s.ctx.scope (c :: cs) c.1 s := rfl

/-- The core sees its own youngest store (08 R174). -/
theorem viewByte_buffered (ns : List Nat) (scope : Nat) (cs : List Host.Cell) (key : Nat) (s : State) (k : Nat) :
    viewByte (buffered ns scope cs key s) k = ((cs.reverse.find? (fun c => c.1 == k)).map (fun c => c.2)).getD (viewByte s k) := by
  have e : pendingCells (buffered ns scope cs key s) = pendingCells s ++ cs := by
    simp [pendingCells, storesOf, buffered]
  simp only [viewByte, e, List.reverse_append, List.find?_append]
  cases h : cs.reverse.find? (fun c => c.1 == k) with
  | some x => simp
  | none => simp only [Option.none_or, Option.map_none, Option.getD_none]; rfl

/-! ## Writes of memory -/

/-- Where no host watch is armed, a write changes the bytes alone. -/
theorem evalHostWatch_unarmed (s : State) (p : Nat × HostWatch) (h : p.2.place = none) : evalHostWatch s p = s := by
  simp [evalHostWatch, h]

/-- A write performed where no host watch is set. -/
theorem perform_unwatched (s : State) (cs : List Host.Cell) (h : s.host.watches = []) : perform s cs = writeCells s cs := by
  simp [perform, h]

/-- The bytes after a write. -/
theorem writeCells_get (s : State) (cs : List Host.Cell) (a : Nat) :
    memGet (writeCells s cs).mem a = ((cs.reverse.find? (fun c => c.1 == a)).map (fun c => c.2)).getD (memGet s.mem a) :=
  memGet_memWriteCells cs s.mem a

/-- Every write keeps the canonical form. -/
theorem writeCells_wf (s : State) (cs : List Host.Cell) (h : Memory.wf s.mem = true) :
    Memory.wf (writeCells s cs).mem = true := memWriteCells_wf cs s.mem h

theorem fireHostWatch_wf (s : State) (i : Nat) (w : HostWatch) (v : W64) (h : Memory.wf s.mem = true) :
    Memory.wf (fireHostWatch s i w v).mem = true := memWriteCells_wf _ _ h

/-- A write with its watches keeps the canonical form. -/
theorem perform_wf (s : State) (cs : List Host.Cell) (h : Memory.wf s.mem = true) : Memory.wf (perform s cs).mem = true := by
  have go : ∀ (l : List (Nat × HostWatch)) (t : State), Memory.wf t.mem = true →
      Memory.wf (l.foldl evalHostWatch t).mem = true := by
    intro l
    induction l with
    | nil => exact fun t ht => ht
    | cons p r ih =>
      intro t ht
      refine ih _ ?_
      unfold evalHostWatch
      split
      · exact ht
      · split
        · exact fireHostWatch_wf _ _ _ _ ht
        · exact ht
  exact go _ _ (writeCells_wf s cs h)

/-! ## Scratchpad (07 R149) -/

/-- A scratchpad write keeps the canonical form. -/
theorem spadWrite_wf (c : Core) (b l a : Nat) (bs : List Byte) (h : Memory.wf c.spad = true) :
    Memory.wf (c.spadWrite b l a bs).spad = true := memWriteCells_wf _ _ h

/-- A byte of scratchpad outside the bytes written stays. -/
theorem spadWrite_other (c : Core) (b l a : Nat) (bs : List Byte) (p : Nat)
    (h : ∀ j < bs.length, p ≠ spOff b l (a + j)) : memGet (c.spadWrite b l a bs).spad p = memGet c.spad p := by
  refine memGet_memWriteCells_other _ _ _ (fun x hx => ?_)
  obtain ⟨j, hj, rfl⟩ := List.mem_mapIdx.1 hx
  exact Ne.symm (h j hj)

/-- Bytes that do not wrap onto each other read back. -/
theorem spadWrite_same (c : Core) (b l a : Nat) (bs : List Byte) (hw : bs.length ≤ 2 ^ l) (j : Nat) (h : j < bs.length) :
    memGet (c.spadWrite b l a bs).spad (spOff b l (a + j)) = bs[j] := by
  show memGet (memWriteCells _ _) _ = _
  rw [memGet_memWriteCells]
  have hp := Nat.two_pow_pos l
  have hf : (bs.mapIdx (fun i x => (spOff b l (a + i), x))).reverse.find? (fun c => c.1 == spOff b l (a + j)) =
      some (spOff b l (a + j), bs[j]) := by
    rw [List.find?_eq_some_iff_getElem]
    refine ⟨by simp, ?_⟩
    refine ⟨bs.length - 1 - j, by simp; omega, ?_, ?_⟩
    · have e : bs.length - 1 - (bs.length - 1 - j) = j := by omega
      simp [e]
    · intro i hi
      simp only [List.getElem_reverse, List.getElem_mapIdx, List.length_mapIdx, Bool.not_eq_true', beq_eq_false_iff_ne]
      intro he
      have hne : (a + (bs.length - 1 - i)) % 2 ^ l = (a + j) % 2 ^ l := by simpa [spOff] using he
      have h1 := Nat.sub_mod_eq_zero_of_mod_eq hne
      have h2 : a + (bs.length - 1 - i) - (a + j) < 2 ^ l := by omega
      rw [Nat.mod_eq_of_lt h2] at h1
      omega
  rw [hf]; rfl

/-! ## Cores and contexts by number -/

/-- The core just changed. -/
@[simp] theorem coreOf_updCore_same (k : Nat) (f : Core → Core) (s : State) (h : ∀ c, (f c).id = c.id) :
    coreOf (updCore k f s) k = f (coreOf s k) := by
  unfold coreOf updCore
  split
  · rename_i hk
    have hk' : s.core.id = k := by simpa using hk
    simp [h, hk']
  · rename_i hk
    simp

/-- The other cores. -/
theorem coreOf_updCore_other {k j : Nat} (f : Core → Core) (s : State) (h : ∀ c, (f c).id = c.id) (hj : j ≠ k) :
    coreOf (updCore k f s) j = coreOf s j := by
  unfold coreOf updCore
  split
  · rename_i hk
    have hk' : s.core.id = k := by simpa using hk
    simp [h, hk', Ne.symm hj]
  · simp [hj]

/-- Changing a core changes nothing else. -/
theorem updCore_frame (k : Nat) (f : Core → Core) (s : State) :
    (updCore k f s).ctx = s.ctx ∧ (updCore k f s).mem = s.mem ∧ (updCore k f s).launches = s.launches ∧
    (updCore k f s).flights = s.flights ∧ (updCore k f s).retorts = s.retorts ∧ (updCore k f s).egress = s.egress ∧
    (updCore k f s).inputs = s.inputs ∧ (updCore k f s).clk = s.clk ∧ (updCore k f s).host = s.host := by
  unfold updCore; split <;> exact ⟨rfl, rfl, rfl, rfl, rfl, rfl, rfl, rfl, rfl⟩

/-- A focus already held changes nothing. -/
theorem focus_focused (k c : Nat) (s : State) (h : Focused s k c) : focus k c s = s := by
  simp [focus, focusCore, focusCtx, h.1, h.2]

/-- The context in focus by its number. -/
theorem ctxOf_focused (k c : Nat) (s : State) (h : Focused s k c) : ctxOf s k c = s.ctx := by
  simp [ctxOf, h.1, h.2]

/-- The core in focus by its number. -/
@[simp] theorem coreOf_focused (s : State) : coreOf s s.core.id = s.core := by simp [coreOf]

/-! ## Visibility of stores (08 R173 to R177) -/

/-- A release changes only since when the dies may see the stores that its die sees. -/
theorem releaseFrom_frame (k : Nat) (s : State) : ∃ ls, releaseFrom k s = { s with lag := ls } := ⟨_, rfl⟩

/-- Behind a release every store that its die sees is visible on every die. -/
theorem releaseFrom_released (s : State) : ReleasedFrom s (releaseFrom s.core.id s) := by
  intro e he hs
  simp only [releaseFrom, List.mem_map] at he
  obtain ⟨x, -, rfl⟩ := he
  split at hs
  · simp at hs
  · rename_i h
    split
    · rename_i h2; exact absurd h2 h
    · simp only [hs, Option.isNone_none, Bool.true_and, Bool.not_eq_true', Bool.not_eq_false] at h
      exact h

/-- A release at SYS scope changes the visibility of stores alone. -/
theorem publish_frame (k : Nat) (s : State) : ∃ ls hs, publish k s = { s with lag := ls, hidden := hs } := ⟨_, _, rfl⟩

/-- A read of memory itself changes only what its die may still see. -/
theorem seeAt_frame (ks : List Nat) (s : State) : ∃ ls, seeAt ks s = { s with lag := ls } := ⟨_, rfl⟩

/-- A look at scratchpad acquires or leaves the state as it is. -/
theorem observe_cases (a : W64) (n : Nat) (s : State) : observe a n s = acquireSys s ∨ observe a n s = s := by
  unfold observe; split
  · exact .inl rfl
  · exact .inr rfl

@[simp] theorem releaseFrom_mem (k : Nat) (s : State) : (releaseFrom k s).mem = s.mem := rfl
@[simp] theorem releaseFrom_ctx (k : Nat) (s : State) : (releaseFrom k s).ctx = s.ctx := rfl
@[simp] theorem releaseFrom_core (k : Nat) (s : State) : (releaseFrom k s).core = s.core := rfl
@[simp] theorem publish_mem (k : Nat) (s : State) : (publish k s).mem = s.mem := rfl
@[simp] theorem acquire_mem (s : State) : (acquire s).mem = s.mem := rfl
@[simp] theorem acquire_core (s : State) : (acquire s).core = s.core := rfl
@[simp] theorem acquireSys_mem (s : State) : (acquireSys s).mem = s.mem := rfl
@[simp] theorem acquireSys_core (s : State) : (acquireSys s).core = s.core := rfl
@[simp] theorem observe_mem (a : W64) (n : Nat) (s : State) : (observe a n s).mem = s.mem := by
  obtain h | h := observe_cases a n s <;> rw [h]; rfl
@[simp] theorem observe_core (a : W64) (n : Nat) (s : State) : (observe a n s).core = s.core := by
  obtain h | h := observe_cases a n s <;> rw [h]; rfl

/-- A performed store keeps memory canonical. -/
theorem performStore_wf (e : StoreEnt) (s : State) (h : Memory.wf s.mem = true) : Memory.wf (performStore e s).mem = true := by
  simp only [performStore]
  split <;> exact perform_wf _ _ h

end Sys2Proof.Machine
end

