-- ==== Sys2Proof/Laws/Lanes.lean ====
section
/-! SUPPORT. The elements of a vector register: what a register built by elements holds in each (09 R196, R198), and what
the issue of a vector instruction can do (09 R199). -/
set_option Elab.async false
namespace Sys2Proof.Machine

/-- An element as a field of the register. -/
theorem lane_elem (w : Nat) (v : VReg) (j : Nat) : lane w v j = BitVec.ofNat w (elem v w j) := by
  apply BitVec.eq_of_toNat_eq
  simp [lane, elem, Nat.shiftRight_eq_div_pow]

/-- Elements packed fill no more than their bits. -/
theorem packElems_lt (w : Nat) (xs : List Nat) : packElems w xs < 2 ^ (w * xs.length) := by
  induction xs with
  | nil => simp [packElems]
  | cons x r ih =>
    have h1 : x % 2 ^ w < 2 ^ w := Nat.mod_lt _ (Nat.two_pow_pos w)
    have h2 : 2 ^ w * (packElems w r + 1) ≤ 2 ^ w * 2 ^ (w * r.length) := Nat.mul_le_mul_left _ ih
    rw [packElems, List.length_cons, Nat.mul_add, Nat.mul_one, Nat.add_comm (w * r.length), Nat.pow_add]
    rw [Nat.mul_add] at h2
    omega

/-- An element of packed elements. -/
theorem packElems_get (w : Nat) (xs : List Nat) (j : Nat) (h : j < xs.length) :
    packElems w xs / 2 ^ (w * j) % 2 ^ w = xs[j] % 2 ^ w := by
  induction xs generalizing j with
  | nil => simp at h
  | cons x r ih =>
    have hp := Nat.two_pow_pos w
    cases j with
    | zero => simp [packElems]
    | succ j =>
      have e : packElems w (x :: r) / 2 ^ (w * (j + 1)) = packElems w r / 2 ^ (w * j) := by
        rw [packElems, Nat.mul_add, Nat.mul_one, Nat.add_comm (w * j), Nat.pow_add, ← Nat.div_div_eq_div_mul,
          Nat.add_mul_div_left _ _ hp, Nat.div_eq_of_lt (Nat.mod_lt _ hp), Nat.zero_add]
      rw [e]
      exact ih j (by simpa using h)

/-- An element of a register built from elements. -/
theorem lane_ofElems (w : Nat) (xs : List Nat) (j : Nat) (h : j < xs.length) (hl : w * xs.length ≤ 4096) :
    lane w (ofElems w xs) j = BitVec.ofNat w xs[j] := by
  rw [lane_elem]
  apply BitVec.eq_of_toNat_eq
  have hlt : packElems w xs < 2 ^ 4096 :=
    Nat.lt_of_lt_of_le (packElems_lt w xs) (Nat.pow_le_pow_right Nat.zero_lt_two hl)
  simp only [elem, ofElems, BitVec.toNat_ofNat, Nat.mod_eq_of_lt hlt, packElems_get w xs j h, Nat.mod_mod]

/-- Each element of a register built over an old one: the new value, or the old element. -/
theorem lane_buildLanes (w : Nat) (old : VReg) (f : Nat → Option (Nat × BitVec 6)) (j : Nat) (h : j < 4096 / w) :
    lane w (buildLanes w old f).1 j =
      match f j with
      | some p => BitVec.ofNat w p.1
      | none => lane w old j := by
  have hl : w * (4096 / w) ≤ 4096 := Nat.mul_div_le 4096 w
  have hlen : (((List.range (lanesOf w)).map f).mapIdx
      (fun i o => (o.map (fun p => p.1)).getD (elem old w i))).length = 4096 / w := by simp [lanesOf]
  unfold buildLanes
  dsimp only
  rw [lane_ofElems w _ j (by rw [hlen]; exact h) (by rw [hlen]; exact hl)]
  simp only [List.getElem_mapIdx, List.getElem_map, List.getElem_range]
  cases f j with
  | some p => rfl
  | none => exact (lane_elem w old j).symm

/-- A flag of the whole result is raised when one of its elements raises it. -/
theorem buildLanes_flags (w : Nat) (old : VReg) (f : Nat → Option (Nat × BitVec 6)) (b : Nat) :
    (buildLanes w old f).2.getLsbD b =
      (List.range (4096 / w)).any (fun j => ((f j).map (fun p => p.2.getLsbD b)).getD false) := by
  have go : ∀ (xs : List (Option (Nat × BitVec 6))) (a : BitVec 6),
      (xs.foldl (fun a o => a ||| ((o.map (fun p => p.2)).getD 0)) a).getLsbD b =
        (a.getLsbD b || xs.any (fun o => (o.map (fun p => p.2.getLsbD b)).getD false)) := by
    intro xs
    induction xs with
    | nil => intro a; simp
    | cons o r ih =>
      intro a
      rw [List.foldl_cons, ih]
      cases o <;> simp [Bool.or_assoc]
  unfold buildLanes
  dsimp only
  rw [go, lanesOf]
  simp [List.any_map, Function.comp_def]

/-- The issue of a vector instruction: it waits while the dispatch queue is full, and otherwise joins it. -/
theorem vecIssue_full (srcs : List (Nat × Src)) (k : State → State) (s : State) (h : 8 ≤ s.core.vecq.length) :
    vecIssue srcs k s = wait .vecQueue s := by
  unfold vecIssue; rw [if_pos h]

theorem vecIssue_joins (srcs : List (Nat × Src)) (k : State → State) (s : State) (h : s.core.vecq.length < 8) :
    vecIssue srcs k s =
      k { s with core := { s.core with vecq := s.core.vecq ++ [(s.ctx.num, s.ctx.inc)], reuse := keepSlots s srcs } } := by
  unfold vecIssue; rw [if_neg (by omega)]

/-- A vector result held with its flags. -/
theorem finish_writeV (sw : Bool) (v : BitVec 5) (r : VReg × BitVec 6) (s : State) :
    finish sw (writeV v r s) = issued sw [.vec v r.1] { s with ctx := { s.ctx with pendFp := s.ctx.pendFp ||| r.2 } } := rfl

end Sys2Proof.Machine
end

