-- ==== Sys2Proof/Laws/PerInstr.lean ====
section
/-! SUPPORT. The family Roundtrip, one lemma for each constructor: decoding the word of a well-formed instruction gives the
instruction back, with every operand. A word is taken apart once for each layout of fields (lemmas lay1 to lay83). -/
set_option Elab.async false
namespace Sys2Proof.Laws.Roundtrip

/-- The statement of the family: decoding the word of a well-formed encoded instruction gives it back. -/
def Statement (i : Instr) : Prop := i.wf = true → i.encoded = true → decode (encode i) = .ok i

/-- A field of a word: its width and its bits. -/
abbrev Digit := (n : Nat) × BitVec n

/-- The number whose fields are given from the lowest upward. -/
def mixB : List Digit → Nat
  | [] => 0
  | d :: r => d.2.toNat + 2 ^ d.1 * mixB r

/-- The width of a run of fields. -/
def widths : List Digit → Nat
  | [] => 0
  | d :: r => d.1 + widths r

theorem mixB_lt (l : List Digit) : mixB l < 2 ^ widths l := by
  induction l with
  | nil => exact Nat.one_pos
  | cons d r ih =>
    have h := d.2.isLt
    have h2 : 2 ^ d.1 * (mixB r + 1) ≤ 2 ^ d.1 * 2 ^ widths r := Nat.mul_le_mul_left _ ih
    rw [Nat.mul_add, Nat.mul_one] at h2
    simp only [mixB, widths, Nat.pow_add]
    omega

/-- The number behind the fields of `pre`. -/
theorem mixB_div (pre post : List Digit) : mixB (pre ++ post) / 2 ^ widths pre = mixB post := by
  induction pre with
  | nil => exact Nat.div_one _
  | cons d r ih =>
    show (d.2.toNat + 2 ^ d.1 * mixB (r ++ post)) / 2 ^ (d.1 + widths r) = _
    rw [Nat.pow_add, ← Nat.div_div_eq_div_mul, Nat.add_mul_div_left _ _ (Nat.two_pow_pos _), Nat.div_eq_of_lt d.2.isLt,
      Nat.zero_add, ih]

/-- Reading a field gives its bits. -/
theorem segB (pre : List Digit) {n : Nat} (x : BitVec n) (post : List Digit) :
    seg (mixB (pre ++ ⟨n, x⟩ :: post)) (widths pre) n = x.toNat := by
  unfold seg
  rw [mixB_div]
  show (x.toNat + 2 ^ n * mixB post) % 2 ^ n = _
  rw [Nat.add_mul_mod_self_left, Nat.mod_eq_of_lt x.isLt]

theorem fldB (pre : List Digit) {n : Nat} (x : BitVec n) (post : List Digit) :
    fld (mixB (pre ++ ⟨n, x⟩ :: post)) (widths pre) n = x := by
  apply BitVec.eq_of_toNat_eq
  unfold fld
  rw [BitVec.toNat_ofNat]
  exact segB pre x post

theorem flagB (pre : List Digit) (b : Bool) (post : List Digit) :
    flag (mixB (pre ++ ⟨1, BitVec.ofBool b⟩ :: post)) (widths pre) = b := by
  unfold flag
  rw [segB]
  cases b <;> rfl

theorem b2n_eq (b : Bool) : b2n b = (BitVec.ofBool b).toNat := by cases b <;> rfl

theorem leaf_ok {ok : Bool} {i : Instr} (h : ok = true) (hw : i.wf = true) : leaf ok i = .ok i := by
  unfold leaf
  rw [if_pos h, if_pos hw]

theorem roundtrip {i : Instr} {l : List Digit} (h : encodeNat i = mixB l) (hl : widths l = 32)
    (hd : ∀ w, w = mixB l → decodeNat w = .ok i) : decode (encode i) = .ok i := by
  have hw : (encode i).toNat = mixB l := by
    unfold encode
    rw [h, BitVec.toNat_ofNat]
    exact Nat.mod_eq_of_lt (hl ▸ mixB_lt l)
  unfold decode
  exact hd _ hw

theorem atMajor01 (w : Nat) (h : seg w 25 6 = 1) : decodeNat w = decMajor01 w := by unfold decodeNat; rw [h]; rfl
theorem atMajor02 (w : Nat) (h : seg w 25 6 = 2) : decodeNat w = decMajor02 w := by unfold decodeNat; rw [h]; rfl
theorem atMajor03 (w : Nat) (h : seg w 25 6 = 3) : decodeNat w = decMajor03 w := by unfold decodeNat; rw [h]; rfl
theorem atMajor04 (w : Nat) (h : seg w 25 6 = 4) : decodeNat w = decMajor04 w := by unfold decodeNat; rw [h]; rfl
theorem atMajor05 (w : Nat) (h : seg w 25 6 = 5) : decodeNat w = decMajor05 w := by unfold decodeNat; rw [h]; rfl
theorem atMajor06 (w : Nat) (h : seg w 25 6 = 6) : decodeNat w = decMajor06 w := by unfold decodeNat; rw [h]; rfl
theorem atMajor07 (w : Nat) (h : seg w 25 6 = 7) : decodeNat w = decMajor07 w := by unfold decodeNat; rw [h]; rfl
theorem atMajor08 (w : Nat) (h : seg w 25 6 = 8) : decodeNat w = decMajor08 w := by unfold decodeNat; rw [h]; rfl
theorem atMajor09 (w : Nat) (h : seg w 25 6 = 9) : decodeNat w = decMajor09 w := by unfold decodeNat; rw [h]; rfl
theorem atMajor0A (w : Nat) (h : seg w 25 6 = 10) : decodeNat w = decMajor0A w := by unfold decodeNat; rw [h]; rfl
theorem atMajor0B (w : Nat) (h : seg w 25 6 = 11) : decodeNat w = decMajor0B w := by unfold decodeNat; rw [h]; rfl
theorem atMajor0C (w : Nat) (h : seg w 25 6 = 12) : decodeNat w = decMajor0C w := by unfold decodeNat; rw [h]; rfl
theorem atMajor10 (w : Nat) (h : seg w 25 6 = 16) : decodeNat w = decMajor10 w := by unfold decodeNat; rw [h]; rfl
theorem atMajor11 (w : Nat) (h : seg w 25 6 = 17) : decodeNat w = decMajor11 w := by unfold decodeNat; rw [h]; rfl
theorem atMajor12 (w : Nat) (h : seg w 25 6 = 18) : decodeNat w = decMajor12 w := by unfold decodeNat; rw [h]; rfl
theorem atMajor13 (w : Nat) (h : seg w 25 6 = 19) : decodeNat w = decMajor13 w := by unfold decodeNat; rw [h]; rfl
theorem atMajor14 (w : Nat) (h : seg w 25 6 = 20) : decodeNat w = decMajor14 w := by unfold decodeNat; rw [h]; rfl
theorem atMajor15 (w : Nat) (h : seg w 25 6 = 21) : decodeNat w = decMajor15 w := by unfold decodeNat; rw [h]; rfl
theorem atMajor16 (w : Nat) (h : seg w 25 6 = 22) : decodeNat w = decMajor16 w := by unfold decodeNat; rw [h]; rfl
theorem atMajor17 (w : Nat) (h : seg w 25 6 = 23) : decodeNat w = decMajor17 w := by unfold decodeNat; rw [h]; rfl
theorem atMajor18 (w : Nat) (h : seg w 25 6 = 24) : decodeNat w = decMajor18 w := by unfold decodeNat; rw [h]; rfl
theorem atMajor19 (w : Nat) (h : seg w 25 6 = 25) : decodeNat w = decMajor19 w := by unfold decodeNat; rw [h]; rfl
theorem atMajor1A (w : Nat) (h : seg w 25 6 = 26) : decodeNat w = decMajor1A w := by unfold decodeNat; rw [h]; rfl
theorem atMajor1B (w : Nat) (h : seg w 25 6 = 27) : decodeNat w = decMajor1B w := by unfold decodeNat; rw [h]; rfl
theorem atMajor1C (w : Nat) (h : seg w 25 6 = 28) : decodeNat w = decMajor1C w := by unfold decodeNat; rw [h]; rfl
theorem atMajor1D (w : Nat) (h : seg w 25 6 = 29) : decodeNat w = decMajor1D w := by unfold decodeNat; rw [h]; rfl
theorem atMajor1E (w : Nat) (h : seg w 25 6 = 30) : decodeNat w = decMajor1E w := by unfold decodeNat; rw [h]; rfl
theorem atMajor1F (w : Nat) (h : seg w 25 6 = 31) : decodeNat w = decMajor1F w := by unfold decodeNat; rw [h]; rfl
theorem atMajor20 (w : Nat) (h : seg w 25 6 = 32) : decodeNat w = decMajor20 w := by unfold decodeNat; rw [h]; rfl
theorem atMajor21 (w : Nat) (h : seg w 25 6 = 33) : decodeNat w = decMajor21 w := by unfold decodeNat; rw [h]; rfl
theorem atMajor22 (w : Nat) (h : seg w 25 6 = 34) : decodeNat w = decMajor22 w := by unfold decodeNat; rw [h]; rfl
theorem atMajor23 (w : Nat) (h : seg w 25 6 = 35) : decodeNat w = decMajor23 w := by unfold decodeNat; rw [h]; rfl
theorem atMajor24 (w : Nat) (h : seg w 25 6 = 36) : decodeNat w = decMajor24 w := by unfold decodeNat; rw [h]; rfl
theorem atMajor25 (w : Nat) (h : seg w 25 6 = 37) : decodeNat w = decMajor25 w := by unfold decodeNat; rw [h]; rfl
theorem atMajor26 (w : Nat) (h : seg w 25 6 = 38) : decodeNat w = decMajor26 w := by unfold decodeNat; rw [h]; rfl
theorem atMajor27 (w : Nat) (h : seg w 25 6 = 39) : decodeNat w = decMajor27 w := by unfold decodeNat; rw [h]; rfl
theorem atMajor28 (w : Nat) (h : seg w 25 6 = 40) : decodeNat w = decMajor28 w := by unfold decodeNat; rw [h]; rfl
theorem atMajor29 (w : Nat) (h : seg w 25 6 = 41) : decodeNat w = decMajor29 w := by unfold decodeNat; rw [h]; rfl
theorem atMajor2C (w : Nat) (h : seg w 25 6 = 44) : decodeNat w = decMajor2C w := by unfold decodeNat; rw [h]; rfl
theorem atMajor2D (w : Nat) (h : seg w 25 6 = 45) : decodeNat w = decMajor2D w := by unfold decodeNat; rw [h]; rfl
theorem atMajor2E (w : Nat) (h : seg w 25 6 = 46) : decodeNat w = decMajor2E w := by unfold decodeNat; rw [h]; rfl
theorem atMajor2F (w : Nat) (h : seg w 25 6 = 47) : decodeNat w = decMajor2F w := by unfold decodeNat; rw [h]; rfl
theorem atMajor32 (w : Nat) (h : seg w 25 6 = 50) : decodeNat w = decMajor32 w := by unfold decodeNat; rw [h]; rfl
theorem atMajor33 (w : Nat) (h : seg w 25 6 = 51) : decodeNat w = decMajor33 w := by unfold decodeNat; rw [h]; rfl
theorem atMajor34 (w : Nat) (h : seg w 25 6 = 52) : decodeNat w = decMajor34 w := by unfold decodeNat; rw [h]; rfl
theorem atMajor35 (w : Nat) (h : seg w 25 6 = 53) : decodeNat w = decMajor35 w := by unfold decodeNat; rw [h]; rfl
theorem atMajor36 (w : Nat) (h : seg w 25 6 = 54) : decodeNat w = decMajor36 w := by unfold decodeNat; rw [h]; rfl
theorem atMajor37 (w : Nat) (h : seg w 25 6 = 55) : decodeNat w = decMajor37 w := by unfold decodeNat; rw [h]; rfl
theorem atMajor38 (w : Nat) (h : seg w 25 6 = 56) : decodeNat w = decMajor38 w := by unfold decodeNat; rw [h]; rfl
theorem atMajor39 (w : Nat) (h : seg w 25 6 = 57) : decodeNat w = decMajor39 w := by unfold decodeNat; rw [h]; rfl
theorem atMajor3A (w : Nat) (h : seg w 25 6 = 58) : decodeNat w = decMajor3A w := by unfold decodeNat; rw [h]; rfl
theorem atMajor3B (w : Nat) (h : seg w 25 6 = 59) : decodeNat w = decMajor3B w := by unfold decodeNat; rw [h]; rfl
theorem atMajor3C (w : Nat) (h : seg w 25 6 = 60) : decodeNat w = decMajor3C w := by unfold decodeNat; rw [h]; rfl
theorem atMajor3D (w : Nat) (h : seg w 25 6 = 61) : decodeNat w = decMajor3D w := by unfold decodeNat; rw [h]; rfl
theorem atMajor3E (w : Nat) (h : seg w 25 6 = 62) : decodeNat w = decMajor3E w := by unfold decodeNat; rw [h]; rfl
theorem atMajor3F (w : Nat) (h : seg w 25 6 = 63) : decodeNat w = decMajor3F w := by unfold decodeNat; rw [h]; rfl

theorem lay1 {w : Nat} {x0 : BitVec 5} {x1 : BitVec 8} {x2 : BitVec 4} {x3 : BitVec 4} {x4 : BitVec 4} {x5 : BitVec 6} {x6 : Bool}
    (h : w = mixB [⟨5, x0⟩, ⟨8, x1⟩, ⟨4, x2⟩, ⟨4, x3⟩, ⟨4, x4⟩, ⟨6, x5⟩, ⟨1, BitVec.ofBool x6⟩]) :
    seg w 0 5 = x0.toNat ∧ seg w 5 8 = x1.toNat ∧ fld w 13 4 = x2 ∧ fld w 17 4 = x3 ∧ fld w 21 4 = x4 ∧ seg w 25 6 = x5.toNat ∧ flag w 31 = x6 := by
  exact ⟨h ▸ segB [] x0 [⟨8, x1⟩, ⟨4, x2⟩, ⟨4, x3⟩, ⟨4, x4⟩, ⟨6, x5⟩, ⟨1, BitVec.ofBool x6⟩],
    h ▸ segB [⟨5, x0⟩] x1 [⟨4, x2⟩, ⟨4, x3⟩, ⟨4, x4⟩, ⟨6, x5⟩, ⟨1, BitVec.ofBool x6⟩],
    h ▸ fldB [⟨5, x0⟩, ⟨8, x1⟩] x2 [⟨4, x3⟩, ⟨4, x4⟩, ⟨6, x5⟩, ⟨1, BitVec.ofBool x6⟩],
    h ▸ fldB [⟨5, x0⟩, ⟨8, x1⟩, ⟨4, x2⟩] x3 [⟨4, x4⟩, ⟨6, x5⟩, ⟨1, BitVec.ofBool x6⟩],
    h ▸ fldB [⟨5, x0⟩, ⟨8, x1⟩, ⟨4, x2⟩, ⟨4, x3⟩] x4 [⟨6, x5⟩, ⟨1, BitVec.ofBool x6⟩],
    h ▸ segB [⟨5, x0⟩, ⟨8, x1⟩, ⟨4, x2⟩, ⟨4, x3⟩, ⟨4, x4⟩] x5 [⟨1, BitVec.ofBool x6⟩],
    h ▸ flagB [⟨5, x0⟩, ⟨8, x1⟩, ⟨4, x2⟩, ⟨4, x3⟩, ⟨4, x4⟩, ⟨6, x5⟩] x6 []⟩

theorem lay2 {w : Nat} {x0 : BitVec 5} {x1 : BitVec 8} {x2 : BitVec 4} {x3 : BitVec 4} {x4 : BitVec 4} {x5 : BitVec 6} {x6 : Bool}
    (h : w = mixB [⟨5, x0⟩, ⟨8, x1⟩, ⟨4, x2⟩, ⟨4, x3⟩, ⟨4, x4⟩, ⟨6, x5⟩, ⟨1, BitVec.ofBool x6⟩]) :
    seg w 0 5 = x0.toNat ∧ seg w 5 8 = x1.toNat ∧ seg w 13 4 = x2.toNat ∧ fld w 17 4 = x3 ∧ fld w 21 4 = x4 ∧ seg w 25 6 = x5.toNat ∧ flag w 31 = x6 := by
  exact ⟨h ▸ segB [] x0 [⟨8, x1⟩, ⟨4, x2⟩, ⟨4, x3⟩, ⟨4, x4⟩, ⟨6, x5⟩, ⟨1, BitVec.ofBool x6⟩],
    h ▸ segB [⟨5, x0⟩] x1 [⟨4, x2⟩, ⟨4, x3⟩, ⟨4, x4⟩, ⟨6, x5⟩, ⟨1, BitVec.ofBool x6⟩],
    h ▸ segB [⟨5, x0⟩, ⟨8, x1⟩] x2 [⟨4, x3⟩, ⟨4, x4⟩, ⟨6, x5⟩, ⟨1, BitVec.ofBool x6⟩],
    h ▸ fldB [⟨5, x0⟩, ⟨8, x1⟩, ⟨4, x2⟩] x3 [⟨4, x4⟩, ⟨6, x5⟩, ⟨1, BitVec.ofBool x6⟩],
    h ▸ fldB [⟨5, x0⟩, ⟨8, x1⟩, ⟨4, x2⟩, ⟨4, x3⟩] x4 [⟨6, x5⟩, ⟨1, BitVec.ofBool x6⟩],
    h ▸ segB [⟨5, x0⟩, ⟨8, x1⟩, ⟨4, x2⟩, ⟨4, x3⟩, ⟨4, x4⟩] x5 [⟨1, BitVec.ofBool x6⟩],
    h ▸ flagB [⟨5, x0⟩, ⟨8, x1⟩, ⟨4, x2⟩, ⟨4, x3⟩, ⟨4, x4⟩, ⟨6, x5⟩] x6 []⟩

theorem lay3 {w : Nat} {x0 : BitVec 4} {x1 : BitVec 1} {x2 : BitVec 8} {x3 : BitVec 4} {x4 : BitVec 4} {x5 : BitVec 4} {x6 : BitVec 6} {x7 : Bool}
    (h : w = mixB [⟨4, x0⟩, ⟨1, x1⟩, ⟨8, x2⟩, ⟨4, x3⟩, ⟨4, x4⟩, ⟨4, x5⟩, ⟨6, x6⟩, ⟨1, BitVec.ofBool x7⟩]) :
    fld w 0 4 = x0 ∧ seg w 4 1 = x1.toNat ∧ seg w 5 8 = x2.toNat ∧ fld w 13 4 = x3 ∧ fld w 17 4 = x4 ∧ fld w 21 4 = x5 ∧ seg w 25 6 = x6.toNat ∧ flag w 31 = x7 := by
  exact ⟨h ▸ fldB [] x0 [⟨1, x1⟩, ⟨8, x2⟩, ⟨4, x3⟩, ⟨4, x4⟩, ⟨4, x5⟩, ⟨6, x6⟩, ⟨1, BitVec.ofBool x7⟩],
    h ▸ segB [⟨4, x0⟩] x1 [⟨8, x2⟩, ⟨4, x3⟩, ⟨4, x4⟩, ⟨4, x5⟩, ⟨6, x6⟩, ⟨1, BitVec.ofBool x7⟩],
    h ▸ segB [⟨4, x0⟩, ⟨1, x1⟩] x2 [⟨4, x3⟩, ⟨4, x4⟩, ⟨4, x5⟩, ⟨6, x6⟩, ⟨1, BitVec.ofBool x7⟩],
    h ▸ fldB [⟨4, x0⟩, ⟨1, x1⟩, ⟨8, x2⟩] x3 [⟨4, x4⟩, ⟨4, x5⟩, ⟨6, x6⟩, ⟨1, BitVec.ofBool x7⟩],
    h ▸ fldB [⟨4, x0⟩, ⟨1, x1⟩, ⟨8, x2⟩, ⟨4, x3⟩] x4 [⟨4, x5⟩, ⟨6, x6⟩, ⟨1, BitVec.ofBool x7⟩],
    h ▸ fldB [⟨4, x0⟩, ⟨1, x1⟩, ⟨8, x2⟩, ⟨4, x3⟩, ⟨4, x4⟩] x5 [⟨6, x6⟩, ⟨1, BitVec.ofBool x7⟩],
    h ▸ segB [⟨4, x0⟩, ⟨1, x1⟩, ⟨8, x2⟩, ⟨4, x3⟩, ⟨4, x4⟩, ⟨4, x5⟩] x6 [⟨1, BitVec.ofBool x7⟩],
    h ▸ flagB [⟨4, x0⟩, ⟨1, x1⟩, ⟨8, x2⟩, ⟨4, x3⟩, ⟨4, x4⟩, ⟨4, x5⟩, ⟨6, x6⟩] x7 []⟩

theorem lay4 {w : Nat} {x0 : BitVec 13} {x1 : BitVec 4} {x2 : BitVec 4} {x3 : BitVec 4} {x4 : BitVec 6} {x5 : Bool}
    (h : w = mixB [⟨13, x0⟩, ⟨4, x1⟩, ⟨4, x2⟩, ⟨4, x3⟩, ⟨6, x4⟩, ⟨1, BitVec.ofBool x5⟩]) :
    fld w 0 13 = x0 ∧ seg w 13 4 = x1.toNat ∧ fld w 17 4 = x2 ∧ fld w 21 4 = x3 ∧ seg w 25 6 = x4.toNat ∧ flag w 31 = x5 := by
  exact ⟨h ▸ fldB [] x0 [⟨4, x1⟩, ⟨4, x2⟩, ⟨4, x3⟩, ⟨6, x4⟩, ⟨1, BitVec.ofBool x5⟩],
    h ▸ segB [⟨13, x0⟩] x1 [⟨4, x2⟩, ⟨4, x3⟩, ⟨6, x4⟩, ⟨1, BitVec.ofBool x5⟩],
    h ▸ fldB [⟨13, x0⟩, ⟨4, x1⟩] x2 [⟨4, x3⟩, ⟨6, x4⟩, ⟨1, BitVec.ofBool x5⟩],
    h ▸ fldB [⟨13, x0⟩, ⟨4, x1⟩, ⟨4, x2⟩] x3 [⟨6, x4⟩, ⟨1, BitVec.ofBool x5⟩],
    h ▸ segB [⟨13, x0⟩, ⟨4, x1⟩, ⟨4, x2⟩, ⟨4, x3⟩] x4 [⟨1, BitVec.ofBool x5⟩],
    h ▸ flagB [⟨13, x0⟩, ⟨4, x1⟩, ⟨4, x2⟩, ⟨4, x3⟩, ⟨6, x4⟩] x5 []⟩

theorem lay5 {w : Nat} {x0 : BitVec 21} {x1 : BitVec 4} {x2 : BitVec 6} {x3 : Bool}
    (h : w = mixB [⟨21, x0⟩, ⟨4, x1⟩, ⟨6, x2⟩, ⟨1, BitVec.ofBool x3⟩]) :
    fld w 0 21 = x0 ∧ fld w 21 4 = x1 ∧ seg w 25 6 = x2.toNat ∧ flag w 31 = x3 := by
  exact ⟨h ▸ fldB [] x0 [⟨4, x1⟩, ⟨6, x2⟩, ⟨1, BitVec.ofBool x3⟩],
    h ▸ fldB [⟨21, x0⟩] x1 [⟨6, x2⟩, ⟨1, BitVec.ofBool x3⟩],
    h ▸ segB [⟨21, x0⟩, ⟨4, x1⟩] x2 [⟨1, BitVec.ofBool x3⟩],
    h ▸ flagB [⟨21, x0⟩, ⟨4, x1⟩, ⟨6, x2⟩] x3 []⟩

theorem lay6 {w : Nat} {x0 : BitVec 5} {x1 : BitVec 8} {x2 : BitVec 4} {x3 : BitVec 4} {x4 : BitVec 4} {x5 : BitVec 6} {x6 : Bool}
    (h : w = mixB [⟨5, x0⟩, ⟨8, x1⟩, ⟨4, x2⟩, ⟨4, x3⟩, ⟨4, x4⟩, ⟨6, x5⟩, ⟨1, BitVec.ofBool x6⟩]) :
    fld w 0 5 = x0 ∧ seg w 5 8 = x1.toNat ∧ fld w 13 4 = x2 ∧ fld w 17 4 = x3 ∧ fld w 21 4 = x4 ∧ seg w 25 6 = x5.toNat ∧ flag w 31 = x6 := by
  exact ⟨h ▸ fldB [] x0 [⟨8, x1⟩, ⟨4, x2⟩, ⟨4, x3⟩, ⟨4, x4⟩, ⟨6, x5⟩, ⟨1, BitVec.ofBool x6⟩],
    h ▸ segB [⟨5, x0⟩] x1 [⟨4, x2⟩, ⟨4, x3⟩, ⟨4, x4⟩, ⟨6, x5⟩, ⟨1, BitVec.ofBool x6⟩],
    h ▸ fldB [⟨5, x0⟩, ⟨8, x1⟩] x2 [⟨4, x3⟩, ⟨4, x4⟩, ⟨6, x5⟩, ⟨1, BitVec.ofBool x6⟩],
    h ▸ fldB [⟨5, x0⟩, ⟨8, x1⟩, ⟨4, x2⟩] x3 [⟨4, x4⟩, ⟨6, x5⟩, ⟨1, BitVec.ofBool x6⟩],
    h ▸ fldB [⟨5, x0⟩, ⟨8, x1⟩, ⟨4, x2⟩, ⟨4, x3⟩] x4 [⟨6, x5⟩, ⟨1, BitVec.ofBool x6⟩],
    h ▸ segB [⟨5, x0⟩, ⟨8, x1⟩, ⟨4, x2⟩, ⟨4, x3⟩, ⟨4, x4⟩] x5 [⟨1, BitVec.ofBool x6⟩],
    h ▸ flagB [⟨5, x0⟩, ⟨8, x1⟩, ⟨4, x2⟩, ⟨4, x3⟩, ⟨4, x4⟩, ⟨6, x5⟩] x6 []⟩

theorem lay7 {w : Nat} {x0 : BitVec 6} {x1 : BitVec 6} {x2 : BitVec 1} {x3 : BitVec 4} {x4 : BitVec 4} {x5 : BitVec 4} {x6 : BitVec 6} {x7 : Bool}
    (h : w = mixB [⟨6, x0⟩, ⟨6, x1⟩, ⟨1, x2⟩, ⟨4, x3⟩, ⟨4, x4⟩, ⟨4, x5⟩, ⟨6, x6⟩, ⟨1, BitVec.ofBool x7⟩]) :
    fld w 0 6 = x0 ∧ fld w 6 6 = x1 ∧ seg w 12 1 = x2.toNat ∧ seg w 13 4 = x3.toNat ∧ fld w 17 4 = x4 ∧ fld w 21 4 = x5 ∧ seg w 25 6 = x6.toNat ∧ flag w 31 = x7 := by
  exact ⟨h ▸ fldB [] x0 [⟨6, x1⟩, ⟨1, x2⟩, ⟨4, x3⟩, ⟨4, x4⟩, ⟨4, x5⟩, ⟨6, x6⟩, ⟨1, BitVec.ofBool x7⟩],
    h ▸ fldB [⟨6, x0⟩] x1 [⟨1, x2⟩, ⟨4, x3⟩, ⟨4, x4⟩, ⟨4, x5⟩, ⟨6, x6⟩, ⟨1, BitVec.ofBool x7⟩],
    h ▸ segB [⟨6, x0⟩, ⟨6, x1⟩] x2 [⟨4, x3⟩, ⟨4, x4⟩, ⟨4, x5⟩, ⟨6, x6⟩, ⟨1, BitVec.ofBool x7⟩],
    h ▸ segB [⟨6, x0⟩, ⟨6, x1⟩, ⟨1, x2⟩] x3 [⟨4, x4⟩, ⟨4, x5⟩, ⟨6, x6⟩, ⟨1, BitVec.ofBool x7⟩],
    h ▸ fldB [⟨6, x0⟩, ⟨6, x1⟩, ⟨1, x2⟩, ⟨4, x3⟩] x4 [⟨4, x5⟩, ⟨6, x6⟩, ⟨1, BitVec.ofBool x7⟩],
    h ▸ fldB [⟨6, x0⟩, ⟨6, x1⟩, ⟨1, x2⟩, ⟨4, x3⟩, ⟨4, x4⟩] x5 [⟨6, x6⟩, ⟨1, BitVec.ofBool x7⟩],
    h ▸ segB [⟨6, x0⟩, ⟨6, x1⟩, ⟨1, x2⟩, ⟨4, x3⟩, ⟨4, x4⟩, ⟨4, x5⟩] x6 [⟨1, BitVec.ofBool x7⟩],
    h ▸ flagB [⟨6, x0⟩, ⟨6, x1⟩, ⟨1, x2⟩, ⟨4, x3⟩, ⟨4, x4⟩, ⟨4, x5⟩, ⟨6, x6⟩] x7 []⟩

theorem lay8 {w : Nat} {x0 : BitVec 14} {x1 : BitVec 4} {x2 : BitVec 4} {x3 : BitVec 3} {x4 : BitVec 6} {x5 : Bool}
    (h : w = mixB [⟨14, x0⟩, ⟨4, x1⟩, ⟨4, x2⟩, ⟨3, x3⟩, ⟨6, x4⟩, ⟨1, BitVec.ofBool x5⟩]) :
    fld w 0 14 = x0 ∧ fld w 14 4 = x1 ∧ fld w 18 4 = x2 ∧ seg w 22 3 = x3.toNat ∧ seg w 25 6 = x4.toNat ∧ flag w 31 = x5 := by
  exact ⟨h ▸ fldB [] x0 [⟨4, x1⟩, ⟨4, x2⟩, ⟨3, x3⟩, ⟨6, x4⟩, ⟨1, BitVec.ofBool x5⟩],
    h ▸ fldB [⟨14, x0⟩] x1 [⟨4, x2⟩, ⟨3, x3⟩, ⟨6, x4⟩, ⟨1, BitVec.ofBool x5⟩],
    h ▸ fldB [⟨14, x0⟩, ⟨4, x1⟩] x2 [⟨3, x3⟩, ⟨6, x4⟩, ⟨1, BitVec.ofBool x5⟩],
    h ▸ segB [⟨14, x0⟩, ⟨4, x1⟩, ⟨4, x2⟩] x3 [⟨6, x4⟩, ⟨1, BitVec.ofBool x5⟩],
    h ▸ segB [⟨14, x0⟩, ⟨4, x1⟩, ⟨4, x2⟩, ⟨3, x3⟩] x4 [⟨1, BitVec.ofBool x5⟩],
    h ▸ flagB [⟨14, x0⟩, ⟨4, x1⟩, ⟨4, x2⟩, ⟨3, x3⟩, ⟨6, x4⟩] x5 []⟩

theorem lay9 {w : Nat} {x0 : BitVec 14} {x1 : BitVec 4} {x2 : BitVec 4} {x3 : BitVec 3} {x4 : BitVec 6} {x5 : Bool}
    (h : w = mixB [⟨14, x0⟩, ⟨4, x1⟩, ⟨4, x2⟩, ⟨3, x3⟩, ⟨6, x4⟩, ⟨1, BitVec.ofBool x5⟩]) :
    fld w 0 14 = x0 ∧ seg w 14 4 = x1.toNat ∧ fld w 18 4 = x2 ∧ seg w 22 3 = x3.toNat ∧ seg w 25 6 = x4.toNat ∧ flag w 31 = x5 := by
  exact ⟨h ▸ fldB [] x0 [⟨4, x1⟩, ⟨4, x2⟩, ⟨3, x3⟩, ⟨6, x4⟩, ⟨1, BitVec.ofBool x5⟩],
    h ▸ segB [⟨14, x0⟩] x1 [⟨4, x2⟩, ⟨3, x3⟩, ⟨6, x4⟩, ⟨1, BitVec.ofBool x5⟩],
    h ▸ fldB [⟨14, x0⟩, ⟨4, x1⟩] x2 [⟨3, x3⟩, ⟨6, x4⟩, ⟨1, BitVec.ofBool x5⟩],
    h ▸ segB [⟨14, x0⟩, ⟨4, x1⟩, ⟨4, x2⟩] x3 [⟨6, x4⟩, ⟨1, BitVec.ofBool x5⟩],
    h ▸ segB [⟨14, x0⟩, ⟨4, x1⟩, ⟨4, x2⟩, ⟨3, x3⟩] x4 [⟨1, BitVec.ofBool x5⟩],
    h ▸ flagB [⟨14, x0⟩, ⟨4, x1⟩, ⟨4, x2⟩, ⟨3, x3⟩, ⟨6, x4⟩] x5 []⟩

theorem lay10 {w : Nat} {x0 : BitVec 25} {x1 : BitVec 6} {x2 : Bool}
    (h : w = mixB [⟨25, x0⟩, ⟨6, x1⟩, ⟨1, BitVec.ofBool x2⟩]) :
    fld w 0 25 = x0 ∧ seg w 25 6 = x1.toNat ∧ flag w 31 = x2 := by
  exact ⟨h ▸ fldB [] x0 [⟨6, x1⟩, ⟨1, BitVec.ofBool x2⟩],
    h ▸ segB [⟨25, x0⟩] x1 [⟨1, BitVec.ofBool x2⟩],
    h ▸ flagB [⟨25, x0⟩, ⟨6, x1⟩] x2 []⟩

theorem lay11 {w : Nat} {x0 : BitVec 5} {x1 : BitVec 8} {x2 : BitVec 12} {x3 : BitVec 6} {x4 : Bool}
    (h : w = mixB [⟨5, x0⟩, ⟨8, x1⟩, ⟨12, x2⟩, ⟨6, x3⟩, ⟨1, BitVec.ofBool x4⟩]) :
    seg w 0 5 = x0.toNat ∧ seg w 5 8 = x1.toNat ∧ seg w 13 12 = x2.toNat ∧ seg w 25 6 = x3.toNat ∧ flag w 31 = x4 := by
  exact ⟨h ▸ segB [] x0 [⟨8, x1⟩, ⟨12, x2⟩, ⟨6, x3⟩, ⟨1, BitVec.ofBool x4⟩],
    h ▸ segB [⟨5, x0⟩] x1 [⟨12, x2⟩, ⟨6, x3⟩, ⟨1, BitVec.ofBool x4⟩],
    h ▸ segB [⟨5, x0⟩, ⟨8, x1⟩] x2 [⟨6, x3⟩, ⟨1, BitVec.ofBool x4⟩],
    h ▸ segB [⟨5, x0⟩, ⟨8, x1⟩, ⟨12, x2⟩] x3 [⟨1, BitVec.ofBool x4⟩],
    h ▸ flagB [⟨5, x0⟩, ⟨8, x1⟩, ⟨12, x2⟩, ⟨6, x3⟩] x4 []⟩

theorem lay12 {w : Nat} {x0 : BitVec 5} {x1 : BitVec 8} {x2 : BitVec 4} {x3 : BitVec 4} {x4 : BitVec 4} {x5 : BitVec 6} {x6 : Bool}
    (h : w = mixB [⟨5, x0⟩, ⟨8, x1⟩, ⟨4, x2⟩, ⟨4, x3⟩, ⟨4, x4⟩, ⟨6, x5⟩, ⟨1, BitVec.ofBool x6⟩]) :
    seg w 0 5 = x0.toNat ∧ seg w 5 8 = x1.toNat ∧ seg w 13 4 = x2.toNat ∧ fld w 17 4 = x3 ∧ seg w 21 4 = x4.toNat ∧ seg w 25 6 = x5.toNat ∧ flag w 31 = x6 := by
  exact ⟨h ▸ segB [] x0 [⟨8, x1⟩, ⟨4, x2⟩, ⟨4, x3⟩, ⟨4, x4⟩, ⟨6, x5⟩, ⟨1, BitVec.ofBool x6⟩],
    h ▸ segB [⟨5, x0⟩] x1 [⟨4, x2⟩, ⟨4, x3⟩, ⟨4, x4⟩, ⟨6, x5⟩, ⟨1, BitVec.ofBool x6⟩],
    h ▸ segB [⟨5, x0⟩, ⟨8, x1⟩] x2 [⟨4, x3⟩, ⟨4, x4⟩, ⟨6, x5⟩, ⟨1, BitVec.ofBool x6⟩],
    h ▸ fldB [⟨5, x0⟩, ⟨8, x1⟩, ⟨4, x2⟩] x3 [⟨4, x4⟩, ⟨6, x5⟩, ⟨1, BitVec.ofBool x6⟩],
    h ▸ segB [⟨5, x0⟩, ⟨8, x1⟩, ⟨4, x2⟩, ⟨4, x3⟩] x4 [⟨6, x5⟩, ⟨1, BitVec.ofBool x6⟩],
    h ▸ segB [⟨5, x0⟩, ⟨8, x1⟩, ⟨4, x2⟩, ⟨4, x3⟩, ⟨4, x4⟩] x5 [⟨1, BitVec.ofBool x6⟩],
    h ▸ flagB [⟨5, x0⟩, ⟨8, x1⟩, ⟨4, x2⟩, ⟨4, x3⟩, ⟨4, x4⟩, ⟨6, x5⟩] x6 []⟩

theorem lay13 {w : Nat} {x0 : BitVec 13} {x1 : BitVec 8} {x2 : BitVec 4} {x3 : BitVec 6} {x4 : Bool}
    (h : w = mixB [⟨13, x0⟩, ⟨8, x1⟩, ⟨4, x2⟩, ⟨6, x3⟩, ⟨1, BitVec.ofBool x4⟩]) :
    seg w 0 13 = x0.toNat ∧ fld w 13 8 = x1 ∧ fld w 21 4 = x2 ∧ seg w 25 6 = x3.toNat ∧ flag w 31 = x4 := by
  exact ⟨h ▸ segB [] x0 [⟨8, x1⟩, ⟨4, x2⟩, ⟨6, x3⟩, ⟨1, BitVec.ofBool x4⟩],
    h ▸ fldB [⟨13, x0⟩] x1 [⟨4, x2⟩, ⟨6, x3⟩, ⟨1, BitVec.ofBool x4⟩],
    h ▸ fldB [⟨13, x0⟩, ⟨8, x1⟩] x2 [⟨6, x3⟩, ⟨1, BitVec.ofBool x4⟩],
    h ▸ segB [⟨13, x0⟩, ⟨8, x1⟩, ⟨4, x2⟩] x3 [⟨1, BitVec.ofBool x4⟩],
    h ▸ flagB [⟨13, x0⟩, ⟨8, x1⟩, ⟨4, x2⟩, ⟨6, x3⟩] x4 []⟩

theorem lay14 {w : Nat} {x0 : BitVec 21} {x1 : BitVec 4} {x2 : BitVec 6} {x3 : BitVec 1}
    (h : w = mixB [⟨21, x0⟩, ⟨4, x1⟩, ⟨6, x2⟩, ⟨1, x3⟩]) :
    fld w 0 21 = x0 ∧ seg w 21 4 = x1.toNat ∧ seg w 25 6 = x2.toNat ∧ seg w 31 1 = x3.toNat := by
  exact ⟨h ▸ fldB [] x0 [⟨4, x1⟩, ⟨6, x2⟩, ⟨1, x3⟩],
    h ▸ segB [⟨21, x0⟩] x1 [⟨6, x2⟩, ⟨1, x3⟩],
    h ▸ segB [⟨21, x0⟩, ⟨4, x1⟩] x2 [⟨1, x3⟩],
    h ▸ segB [⟨21, x0⟩, ⟨4, x1⟩, ⟨6, x2⟩] x3 []⟩

theorem lay15 {w : Nat} {x0 : BitVec 3} {x1 : BitVec 18} {x2 : BitVec 4} {x3 : BitVec 6} {x4 : BitVec 1}
    (h : w = mixB [⟨3, x0⟩, ⟨18, x1⟩, ⟨4, x2⟩, ⟨6, x3⟩, ⟨1, x4⟩]) :
    fld w 0 3 = x0 ∧ seg w 3 18 = x1.toNat ∧ seg w 21 4 = x2.toNat ∧ seg w 25 6 = x3.toNat ∧ seg w 31 1 = x4.toNat := by
  exact ⟨h ▸ fldB [] x0 [⟨18, x1⟩, ⟨4, x2⟩, ⟨6, x3⟩, ⟨1, x4⟩],
    h ▸ segB [⟨3, x0⟩] x1 [⟨4, x2⟩, ⟨6, x3⟩, ⟨1, x4⟩],
    h ▸ segB [⟨3, x0⟩, ⟨18, x1⟩] x2 [⟨6, x3⟩, ⟨1, x4⟩],
    h ▸ segB [⟨3, x0⟩, ⟨18, x1⟩, ⟨4, x2⟩] x3 [⟨1, x4⟩],
    h ▸ segB [⟨3, x0⟩, ⟨18, x1⟩, ⟨4, x2⟩, ⟨6, x3⟩] x4 []⟩

theorem lay16 {w : Nat} {x0 : BitVec 21} {x1 : BitVec 4} {x2 : BitVec 6} {x3 : BitVec 1}
    (h : w = mixB [⟨21, x0⟩, ⟨4, x1⟩, ⟨6, x2⟩, ⟨1, x3⟩]) :
    seg w 0 21 = x0.toNat ∧ seg w 21 4 = x1.toNat ∧ seg w 25 6 = x2.toNat ∧ seg w 31 1 = x3.toNat := by
  exact ⟨h ▸ segB [] x0 [⟨4, x1⟩, ⟨6, x2⟩, ⟨1, x3⟩],
    h ▸ segB [⟨21, x0⟩] x1 [⟨6, x2⟩, ⟨1, x3⟩],
    h ▸ segB [⟨21, x0⟩, ⟨4, x1⟩] x2 [⟨1, x3⟩],
    h ▸ segB [⟨21, x0⟩, ⟨4, x1⟩, ⟨6, x2⟩] x3 []⟩

theorem lay17 {w : Nat} {x0 : BitVec 1} {x1 : BitVec 20} {x2 : BitVec 4} {x3 : BitVec 6} {x4 : BitVec 1}
    (h : w = mixB [⟨1, x0⟩, ⟨20, x1⟩, ⟨4, x2⟩, ⟨6, x3⟩, ⟨1, x4⟩]) :
    fld w 0 1 = x0 ∧ seg w 1 20 = x1.toNat ∧ seg w 21 4 = x2.toNat ∧ seg w 25 6 = x3.toNat ∧ seg w 31 1 = x4.toNat := by
  exact ⟨h ▸ fldB [] x0 [⟨20, x1⟩, ⟨4, x2⟩, ⟨6, x3⟩, ⟨1, x4⟩],
    h ▸ segB [⟨1, x0⟩] x1 [⟨4, x2⟩, ⟨6, x3⟩, ⟨1, x4⟩],
    h ▸ segB [⟨1, x0⟩, ⟨20, x1⟩] x2 [⟨6, x3⟩, ⟨1, x4⟩],
    h ▸ segB [⟨1, x0⟩, ⟨20, x1⟩, ⟨4, x2⟩] x3 [⟨1, x4⟩],
    h ▸ segB [⟨1, x0⟩, ⟨20, x1⟩, ⟨4, x2⟩, ⟨6, x3⟩] x4 []⟩

theorem lay18 {w : Nat} {x0 : BitVec 8} {x1 : BitVec 5} {x2 : BitVec 4} {x3 : BitVec 4} {x4 : BitVec 4} {x5 : BitVec 6} {x6 : Bool}
    (h : w = mixB [⟨8, x0⟩, ⟨5, x1⟩, ⟨4, x2⟩, ⟨4, x3⟩, ⟨4, x4⟩, ⟨6, x5⟩, ⟨1, BitVec.ofBool x6⟩]) :
    seg w 0 8 = x0.toNat ∧ fld w 8 5 = x1 ∧ fld w 13 4 = x2 ∧ fld w 17 4 = x3 ∧ fld w 21 4 = x4 ∧ seg w 25 6 = x5.toNat ∧ flag w 31 = x6 := by
  exact ⟨h ▸ segB [] x0 [⟨5, x1⟩, ⟨4, x2⟩, ⟨4, x3⟩, ⟨4, x4⟩, ⟨6, x5⟩, ⟨1, BitVec.ofBool x6⟩],
    h ▸ fldB [⟨8, x0⟩] x1 [⟨4, x2⟩, ⟨4, x3⟩, ⟨4, x4⟩, ⟨6, x5⟩, ⟨1, BitVec.ofBool x6⟩],
    h ▸ fldB [⟨8, x0⟩, ⟨5, x1⟩] x2 [⟨4, x3⟩, ⟨4, x4⟩, ⟨6, x5⟩, ⟨1, BitVec.ofBool x6⟩],
    h ▸ fldB [⟨8, x0⟩, ⟨5, x1⟩, ⟨4, x2⟩] x3 [⟨4, x4⟩, ⟨6, x5⟩, ⟨1, BitVec.ofBool x6⟩],
    h ▸ fldB [⟨8, x0⟩, ⟨5, x1⟩, ⟨4, x2⟩, ⟨4, x3⟩] x4 [⟨6, x5⟩, ⟨1, BitVec.ofBool x6⟩],
    h ▸ segB [⟨8, x0⟩, ⟨5, x1⟩, ⟨4, x2⟩, ⟨4, x3⟩, ⟨4, x4⟩] x5 [⟨1, BitVec.ofBool x6⟩],
    h ▸ flagB [⟨8, x0⟩, ⟨5, x1⟩, ⟨4, x2⟩, ⟨4, x3⟩, ⟨4, x4⟩, ⟨6, x5⟩] x6 []⟩

theorem lay19 {w : Nat} {x0 : BitVec 8} {x1 : BitVec 5} {x2 : BitVec 4} {x3 : BitVec 4} {x4 : BitVec 4} {x5 : BitVec 6} {x6 : Bool}
    (h : w = mixB [⟨8, x0⟩, ⟨5, x1⟩, ⟨4, x2⟩, ⟨4, x3⟩, ⟨4, x4⟩, ⟨6, x5⟩, ⟨1, BitVec.ofBool x6⟩]) :
    seg w 0 8 = x0.toNat ∧ seg w 8 5 = x1.toNat ∧ fld w 13 4 = x2 ∧ fld w 17 4 = x3 ∧ fld w 21 4 = x4 ∧ seg w 25 6 = x5.toNat ∧ flag w 31 = x6 := by
  exact ⟨h ▸ segB [] x0 [⟨5, x1⟩, ⟨4, x2⟩, ⟨4, x3⟩, ⟨4, x4⟩, ⟨6, x5⟩, ⟨1, BitVec.ofBool x6⟩],
    h ▸ segB [⟨8, x0⟩] x1 [⟨4, x2⟩, ⟨4, x3⟩, ⟨4, x4⟩, ⟨6, x5⟩, ⟨1, BitVec.ofBool x6⟩],
    h ▸ fldB [⟨8, x0⟩, ⟨5, x1⟩] x2 [⟨4, x3⟩, ⟨4, x4⟩, ⟨6, x5⟩, ⟨1, BitVec.ofBool x6⟩],
    h ▸ fldB [⟨8, x0⟩, ⟨5, x1⟩, ⟨4, x2⟩] x3 [⟨4, x4⟩, ⟨6, x5⟩, ⟨1, BitVec.ofBool x6⟩],
    h ▸ fldB [⟨8, x0⟩, ⟨5, x1⟩, ⟨4, x2⟩, ⟨4, x3⟩] x4 [⟨6, x5⟩, ⟨1, BitVec.ofBool x6⟩],
    h ▸ segB [⟨8, x0⟩, ⟨5, x1⟩, ⟨4, x2⟩, ⟨4, x3⟩, ⟨4, x4⟩] x5 [⟨1, BitVec.ofBool x6⟩],
    h ▸ flagB [⟨8, x0⟩, ⟨5, x1⟩, ⟨4, x2⟩, ⟨4, x3⟩, ⟨4, x4⟩, ⟨6, x5⟩] x6 []⟩

theorem lay20 {w : Nat} {x0 : BitVec 8} {x1 : BitVec 5} {x2 : BitVec 4} {x3 : BitVec 8} {x4 : BitVec 6} {x5 : Bool}
    (h : w = mixB [⟨8, x0⟩, ⟨5, x1⟩, ⟨4, x2⟩, ⟨8, x3⟩, ⟨6, x4⟩, ⟨1, BitVec.ofBool x5⟩]) :
    seg w 0 8 = x0.toNat ∧ fld w 8 5 = x1 ∧ fld w 13 4 = x2 ∧ seg w 17 8 = x3.toNat ∧ seg w 25 6 = x4.toNat ∧ flag w 31 = x5 := by
  exact ⟨h ▸ segB [] x0 [⟨5, x1⟩, ⟨4, x2⟩, ⟨8, x3⟩, ⟨6, x4⟩, ⟨1, BitVec.ofBool x5⟩],
    h ▸ fldB [⟨8, x0⟩] x1 [⟨4, x2⟩, ⟨8, x3⟩, ⟨6, x4⟩, ⟨1, BitVec.ofBool x5⟩],
    h ▸ fldB [⟨8, x0⟩, ⟨5, x1⟩] x2 [⟨8, x3⟩, ⟨6, x4⟩, ⟨1, BitVec.ofBool x5⟩],
    h ▸ segB [⟨8, x0⟩, ⟨5, x1⟩, ⟨4, x2⟩] x3 [⟨6, x4⟩, ⟨1, BitVec.ofBool x5⟩],
    h ▸ segB [⟨8, x0⟩, ⟨5, x1⟩, ⟨4, x2⟩, ⟨8, x3⟩] x4 [⟨1, BitVec.ofBool x5⟩],
    h ▸ flagB [⟨8, x0⟩, ⟨5, x1⟩, ⟨4, x2⟩, ⟨8, x3⟩, ⟨6, x4⟩] x5 []⟩

theorem lay21 {w : Nat} {x0 : BitVec 8} {x1 : BitVec 5} {x2 : BitVec 4} {x3 : BitVec 8} {x4 : BitVec 6} {x5 : Bool}
    (h : w = mixB [⟨8, x0⟩, ⟨5, x1⟩, ⟨4, x2⟩, ⟨8, x3⟩, ⟨6, x4⟩, ⟨1, BitVec.ofBool x5⟩]) :
    seg w 0 8 = x0.toNat ∧ seg w 8 5 = x1.toNat ∧ fld w 13 4 = x2 ∧ seg w 17 8 = x3.toNat ∧ seg w 25 6 = x4.toNat ∧ flag w 31 = x5 := by
  exact ⟨h ▸ segB [] x0 [⟨5, x1⟩, ⟨4, x2⟩, ⟨8, x3⟩, ⟨6, x4⟩, ⟨1, BitVec.ofBool x5⟩],
    h ▸ segB [⟨8, x0⟩] x1 [⟨4, x2⟩, ⟨8, x3⟩, ⟨6, x4⟩, ⟨1, BitVec.ofBool x5⟩],
    h ▸ fldB [⟨8, x0⟩, ⟨5, x1⟩] x2 [⟨8, x3⟩, ⟨6, x4⟩, ⟨1, BitVec.ofBool x5⟩],
    h ▸ segB [⟨8, x0⟩, ⟨5, x1⟩, ⟨4, x2⟩] x3 [⟨6, x4⟩, ⟨1, BitVec.ofBool x5⟩],
    h ▸ segB [⟨8, x0⟩, ⟨5, x1⟩, ⟨4, x2⟩, ⟨8, x3⟩] x4 [⟨1, BitVec.ofBool x5⟩],
    h ▸ flagB [⟨8, x0⟩, ⟨5, x1⟩, ⟨4, x2⟩, ⟨8, x3⟩, ⟨6, x4⟩] x5 []⟩

theorem lay22 {w : Nat} {x0 : BitVec 8} {x1 : BitVec 9} {x2 : BitVec 4} {x3 : BitVec 4} {x4 : BitVec 6} {x5 : BitVec 1}
    (h : w = mixB [⟨8, x0⟩, ⟨9, x1⟩, ⟨4, x2⟩, ⟨4, x3⟩, ⟨6, x4⟩, ⟨1, x5⟩]) :
    seg w 0 8 = x0.toNat ∧ seg w 8 9 = x1.toNat ∧ fld w 17 4 = x2 ∧ seg w 21 4 = x3.toNat ∧ seg w 25 6 = x4.toNat ∧ seg w 31 1 = x5.toNat := by
  exact ⟨h ▸ segB [] x0 [⟨9, x1⟩, ⟨4, x2⟩, ⟨4, x3⟩, ⟨6, x4⟩, ⟨1, x5⟩],
    h ▸ segB [⟨8, x0⟩] x1 [⟨4, x2⟩, ⟨4, x3⟩, ⟨6, x4⟩, ⟨1, x5⟩],
    h ▸ fldB [⟨8, x0⟩, ⟨9, x1⟩] x2 [⟨4, x3⟩, ⟨6, x4⟩, ⟨1, x5⟩],
    h ▸ segB [⟨8, x0⟩, ⟨9, x1⟩, ⟨4, x2⟩] x3 [⟨6, x4⟩, ⟨1, x5⟩],
    h ▸ segB [⟨8, x0⟩, ⟨9, x1⟩, ⟨4, x2⟩, ⟨4, x3⟩] x4 [⟨1, x5⟩],
    h ▸ segB [⟨8, x0⟩, ⟨9, x1⟩, ⟨4, x2⟩, ⟨4, x3⟩, ⟨6, x4⟩] x5 []⟩

theorem lay23 {w : Nat} {x0 : BitVec 8} {x1 : BitVec 13} {x2 : BitVec 4} {x3 : BitVec 6} {x4 : BitVec 1}
    (h : w = mixB [⟨8, x0⟩, ⟨13, x1⟩, ⟨4, x2⟩, ⟨6, x3⟩, ⟨1, x4⟩]) :
    seg w 0 8 = x0.toNat ∧ seg w 8 13 = x1.toNat ∧ fld w 21 4 = x2 ∧ seg w 25 6 = x3.toNat ∧ seg w 31 1 = x4.toNat := by
  exact ⟨h ▸ segB [] x0 [⟨13, x1⟩, ⟨4, x2⟩, ⟨6, x3⟩, ⟨1, x4⟩],
    h ▸ segB [⟨8, x0⟩] x1 [⟨4, x2⟩, ⟨6, x3⟩, ⟨1, x4⟩],
    h ▸ fldB [⟨8, x0⟩, ⟨13, x1⟩] x2 [⟨6, x3⟩, ⟨1, x4⟩],
    h ▸ segB [⟨8, x0⟩, ⟨13, x1⟩, ⟨4, x2⟩] x3 [⟨1, x4⟩],
    h ▸ segB [⟨8, x0⟩, ⟨13, x1⟩, ⟨4, x2⟩, ⟨6, x3⟩] x4 []⟩

theorem lay24 {w : Nat} {x0 : BitVec 8} {x1 : BitVec 13} {x2 : BitVec 4} {x3 : BitVec 6} {x4 : Bool}
    (h : w = mixB [⟨8, x0⟩, ⟨13, x1⟩, ⟨4, x2⟩, ⟨6, x3⟩, ⟨1, BitVec.ofBool x4⟩]) :
    seg w 0 8 = x0.toNat ∧ seg w 8 13 = x1.toNat ∧ fld w 21 4 = x2 ∧ seg w 25 6 = x3.toNat ∧ flag w 31 = x4 := by
  exact ⟨h ▸ segB [] x0 [⟨13, x1⟩, ⟨4, x2⟩, ⟨6, x3⟩, ⟨1, BitVec.ofBool x4⟩],
    h ▸ segB [⟨8, x0⟩] x1 [⟨4, x2⟩, ⟨6, x3⟩, ⟨1, BitVec.ofBool x4⟩],
    h ▸ fldB [⟨8, x0⟩, ⟨13, x1⟩] x2 [⟨6, x3⟩, ⟨1, BitVec.ofBool x4⟩],
    h ▸ segB [⟨8, x0⟩, ⟨13, x1⟩, ⟨4, x2⟩] x3 [⟨1, BitVec.ofBool x4⟩],
    h ▸ flagB [⟨8, x0⟩, ⟨13, x1⟩, ⟨4, x2⟩, ⟨6, x3⟩] x4 []⟩

theorem lay25 {w : Nat} {x0 : BitVec 8} {x1 : BitVec 9} {x2 : BitVec 4} {x3 : BitVec 4} {x4 : BitVec 6} {x5 : Bool}
    (h : w = mixB [⟨8, x0⟩, ⟨9, x1⟩, ⟨4, x2⟩, ⟨4, x3⟩, ⟨6, x4⟩, ⟨1, BitVec.ofBool x5⟩]) :
    seg w 0 8 = x0.toNat ∧ seg w 8 9 = x1.toNat ∧ fld w 17 4 = x2 ∧ fld w 21 4 = x3 ∧ seg w 25 6 = x4.toNat ∧ flag w 31 = x5 := by
  exact ⟨h ▸ segB [] x0 [⟨9, x1⟩, ⟨4, x2⟩, ⟨4, x3⟩, ⟨6, x4⟩, ⟨1, BitVec.ofBool x5⟩],
    h ▸ segB [⟨8, x0⟩] x1 [⟨4, x2⟩, ⟨4, x3⟩, ⟨6, x4⟩, ⟨1, BitVec.ofBool x5⟩],
    h ▸ fldB [⟨8, x0⟩, ⟨9, x1⟩] x2 [⟨4, x3⟩, ⟨6, x4⟩, ⟨1, BitVec.ofBool x5⟩],
    h ▸ fldB [⟨8, x0⟩, ⟨9, x1⟩, ⟨4, x2⟩] x3 [⟨6, x4⟩, ⟨1, BitVec.ofBool x5⟩],
    h ▸ segB [⟨8, x0⟩, ⟨9, x1⟩, ⟨4, x2⟩, ⟨4, x3⟩] x4 [⟨1, BitVec.ofBool x5⟩],
    h ▸ flagB [⟨8, x0⟩, ⟨9, x1⟩, ⟨4, x2⟩, ⟨4, x3⟩, ⟨6, x4⟩] x5 []⟩

theorem lay26 {w : Nat} {x0 : BitVec 5} {x1 : BitVec 8} {x2 : BitVec 4} {x3 : BitVec 4} {x4 : BitVec 4} {x5 : BitVec 6} {x6 : Bool}
    (h : w = mixB [⟨5, x0⟩, ⟨8, x1⟩, ⟨4, x2⟩, ⟨4, x3⟩, ⟨4, x4⟩, ⟨6, x5⟩, ⟨1, BitVec.ofBool x6⟩]) :
    seg w 0 5 = x0.toNat ∧ seg w 5 8 = x1.toNat ∧ fld w 13 4 = x2 ∧ fld w 17 4 = x3 ∧ seg w 21 4 = x4.toNat ∧ seg w 25 6 = x5.toNat ∧ flag w 31 = x6 := by
  exact ⟨h ▸ segB [] x0 [⟨8, x1⟩, ⟨4, x2⟩, ⟨4, x3⟩, ⟨4, x4⟩, ⟨6, x5⟩, ⟨1, BitVec.ofBool x6⟩],
    h ▸ segB [⟨5, x0⟩] x1 [⟨4, x2⟩, ⟨4, x3⟩, ⟨4, x4⟩, ⟨6, x5⟩, ⟨1, BitVec.ofBool x6⟩],
    h ▸ fldB [⟨5, x0⟩, ⟨8, x1⟩] x2 [⟨4, x3⟩, ⟨4, x4⟩, ⟨6, x5⟩, ⟨1, BitVec.ofBool x6⟩],
    h ▸ fldB [⟨5, x0⟩, ⟨8, x1⟩, ⟨4, x2⟩] x3 [⟨4, x4⟩, ⟨6, x5⟩, ⟨1, BitVec.ofBool x6⟩],
    h ▸ segB [⟨5, x0⟩, ⟨8, x1⟩, ⟨4, x2⟩, ⟨4, x3⟩] x4 [⟨6, x5⟩, ⟨1, BitVec.ofBool x6⟩],
    h ▸ segB [⟨5, x0⟩, ⟨8, x1⟩, ⟨4, x2⟩, ⟨4, x3⟩, ⟨4, x4⟩] x5 [⟨1, BitVec.ofBool x6⟩],
    h ▸ flagB [⟨5, x0⟩, ⟨8, x1⟩, ⟨4, x2⟩, ⟨4, x3⟩, ⟨4, x4⟩, ⟨6, x5⟩] x6 []⟩

theorem lay27 {w : Nat} {x0 : BitVec 5} {x1 : BitVec 8} {x2 : BitVec 4} {x3 : BitVec 8} {x4 : BitVec 6} {x5 : Bool}
    (h : w = mixB [⟨5, x0⟩, ⟨8, x1⟩, ⟨4, x2⟩, ⟨8, x3⟩, ⟨6, x4⟩, ⟨1, BitVec.ofBool x5⟩]) :
    seg w 0 5 = x0.toNat ∧ seg w 5 8 = x1.toNat ∧ fld w 13 4 = x2 ∧ seg w 17 8 = x3.toNat ∧ seg w 25 6 = x4.toNat ∧ flag w 31 = x5 := by
  exact ⟨h ▸ segB [] x0 [⟨8, x1⟩, ⟨4, x2⟩, ⟨8, x3⟩, ⟨6, x4⟩, ⟨1, BitVec.ofBool x5⟩],
    h ▸ segB [⟨5, x0⟩] x1 [⟨4, x2⟩, ⟨8, x3⟩, ⟨6, x4⟩, ⟨1, BitVec.ofBool x5⟩],
    h ▸ fldB [⟨5, x0⟩, ⟨8, x1⟩] x2 [⟨8, x3⟩, ⟨6, x4⟩, ⟨1, BitVec.ofBool x5⟩],
    h ▸ segB [⟨5, x0⟩, ⟨8, x1⟩, ⟨4, x2⟩] x3 [⟨6, x4⟩, ⟨1, BitVec.ofBool x5⟩],
    h ▸ segB [⟨5, x0⟩, ⟨8, x1⟩, ⟨4, x2⟩, ⟨8, x3⟩] x4 [⟨1, BitVec.ofBool x5⟩],
    h ▸ flagB [⟨5, x0⟩, ⟨8, x1⟩, ⟨4, x2⟩, ⟨8, x3⟩, ⟨6, x4⟩] x5 []⟩

theorem lay28 {w : Nat} {x0 : BitVec 5} {x1 : BitVec 8} {x2 : BitVec 8} {x3 : BitVec 4} {x4 : BitVec 6} {x5 : Bool}
    (h : w = mixB [⟨5, x0⟩, ⟨8, x1⟩, ⟨8, x2⟩, ⟨4, x3⟩, ⟨6, x4⟩, ⟨1, BitVec.ofBool x5⟩]) :
    seg w 0 5 = x0.toNat ∧ seg w 5 8 = x1.toNat ∧ seg w 13 8 = x2.toNat ∧ fld w 21 4 = x3 ∧ seg w 25 6 = x4.toNat ∧ flag w 31 = x5 := by
  exact ⟨h ▸ segB [] x0 [⟨8, x1⟩, ⟨8, x2⟩, ⟨4, x3⟩, ⟨6, x4⟩, ⟨1, BitVec.ofBool x5⟩],
    h ▸ segB [⟨5, x0⟩] x1 [⟨8, x2⟩, ⟨4, x3⟩, ⟨6, x4⟩, ⟨1, BitVec.ofBool x5⟩],
    h ▸ segB [⟨5, x0⟩, ⟨8, x1⟩] x2 [⟨4, x3⟩, ⟨6, x4⟩, ⟨1, BitVec.ofBool x5⟩],
    h ▸ fldB [⟨5, x0⟩, ⟨8, x1⟩, ⟨8, x2⟩] x3 [⟨6, x4⟩, ⟨1, BitVec.ofBool x5⟩],
    h ▸ segB [⟨5, x0⟩, ⟨8, x1⟩, ⟨8, x2⟩, ⟨4, x3⟩] x4 [⟨1, BitVec.ofBool x5⟩],
    h ▸ flagB [⟨5, x0⟩, ⟨8, x1⟩, ⟨8, x2⟩, ⟨4, x3⟩, ⟨6, x4⟩] x5 []⟩

theorem lay29 {w : Nat} {x0 : BitVec 13} {x1 : BitVec 4} {x2 : BitVec 4} {x3 : BitVec 4} {x4 : BitVec 6} {x5 : Bool}
    (h : w = mixB [⟨13, x0⟩, ⟨4, x1⟩, ⟨4, x2⟩, ⟨4, x3⟩, ⟨6, x4⟩, ⟨1, BitVec.ofBool x5⟩]) :
    fld w 0 13 = x0 ∧ seg w 13 4 = x1.toNat ∧ fld w 17 4 = x2 ∧ seg w 21 4 = x3.toNat ∧ seg w 25 6 = x4.toNat ∧ flag w 31 = x5 := by
  exact ⟨h ▸ fldB [] x0 [⟨4, x1⟩, ⟨4, x2⟩, ⟨4, x3⟩, ⟨6, x4⟩, ⟨1, BitVec.ofBool x5⟩],
    h ▸ segB [⟨13, x0⟩] x1 [⟨4, x2⟩, ⟨4, x3⟩, ⟨6, x4⟩, ⟨1, BitVec.ofBool x5⟩],
    h ▸ fldB [⟨13, x0⟩, ⟨4, x1⟩] x2 [⟨4, x3⟩, ⟨6, x4⟩, ⟨1, BitVec.ofBool x5⟩],
    h ▸ segB [⟨13, x0⟩, ⟨4, x1⟩, ⟨4, x2⟩] x3 [⟨6, x4⟩, ⟨1, BitVec.ofBool x5⟩],
    h ▸ segB [⟨13, x0⟩, ⟨4, x1⟩, ⟨4, x2⟩, ⟨4, x3⟩] x4 [⟨1, BitVec.ofBool x5⟩],
    h ▸ flagB [⟨13, x0⟩, ⟨4, x1⟩, ⟨4, x2⟩, ⟨4, x3⟩, ⟨6, x4⟩] x5 []⟩

theorem lay30 {w : Nat} {x0 : BitVec 13} {x1 : BitVec 4} {x2 : BitVec 4} {x3 : BitVec 4} {x4 : BitVec 6} {x5 : Bool}
    (h : w = mixB [⟨13, x0⟩, ⟨4, x1⟩, ⟨4, x2⟩, ⟨4, x3⟩, ⟨6, x4⟩, ⟨1, BitVec.ofBool x5⟩]) :
    fld w 0 13 = x0 ∧ seg w 13 4 = x1.toNat ∧ seg w 17 4 = x2.toNat ∧ fld w 21 4 = x3 ∧ seg w 25 6 = x4.toNat ∧ flag w 31 = x5 := by
  exact ⟨h ▸ fldB [] x0 [⟨4, x1⟩, ⟨4, x2⟩, ⟨4, x3⟩, ⟨6, x4⟩, ⟨1, BitVec.ofBool x5⟩],
    h ▸ segB [⟨13, x0⟩] x1 [⟨4, x2⟩, ⟨4, x3⟩, ⟨6, x4⟩, ⟨1, BitVec.ofBool x5⟩],
    h ▸ segB [⟨13, x0⟩, ⟨4, x1⟩] x2 [⟨4, x3⟩, ⟨6, x4⟩, ⟨1, BitVec.ofBool x5⟩],
    h ▸ fldB [⟨13, x0⟩, ⟨4, x1⟩, ⟨4, x2⟩] x3 [⟨6, x4⟩, ⟨1, BitVec.ofBool x5⟩],
    h ▸ segB [⟨13, x0⟩, ⟨4, x1⟩, ⟨4, x2⟩, ⟨4, x3⟩] x4 [⟨1, BitVec.ofBool x5⟩],
    h ▸ flagB [⟨13, x0⟩, ⟨4, x1⟩, ⟨4, x2⟩, ⟨4, x3⟩, ⟨6, x4⟩] x5 []⟩

theorem lay31 {w : Nat} {x0 : BitVec 11} {x1 : BitVec 2} {x2 : BitVec 4} {x3 : BitVec 4} {x4 : BitVec 4} {x5 : BitVec 6} {x6 : Bool}
    (h : w = mixB [⟨11, x0⟩, ⟨2, x1⟩, ⟨4, x2⟩, ⟨4, x3⟩, ⟨4, x4⟩, ⟨6, x5⟩, ⟨1, BitVec.ofBool x6⟩]) :
    fld w 0 11 = x0 ∧ seg w 11 2 = x1.toNat ∧ seg w 13 4 = x2.toNat ∧ fld w 17 4 = x3 ∧ fld w 21 4 = x4 ∧ seg w 25 6 = x5.toNat ∧ flag w 31 = x6 := by
  exact ⟨h ▸ fldB [] x0 [⟨2, x1⟩, ⟨4, x2⟩, ⟨4, x3⟩, ⟨4, x4⟩, ⟨6, x5⟩, ⟨1, BitVec.ofBool x6⟩],
    h ▸ segB [⟨11, x0⟩] x1 [⟨4, x2⟩, ⟨4, x3⟩, ⟨4, x4⟩, ⟨6, x5⟩, ⟨1, BitVec.ofBool x6⟩],
    h ▸ segB [⟨11, x0⟩, ⟨2, x1⟩] x2 [⟨4, x3⟩, ⟨4, x4⟩, ⟨6, x5⟩, ⟨1, BitVec.ofBool x6⟩],
    h ▸ fldB [⟨11, x0⟩, ⟨2, x1⟩, ⟨4, x2⟩] x3 [⟨4, x4⟩, ⟨6, x5⟩, ⟨1, BitVec.ofBool x6⟩],
    h ▸ fldB [⟨11, x0⟩, ⟨2, x1⟩, ⟨4, x2⟩, ⟨4, x3⟩] x4 [⟨6, x5⟩, ⟨1, BitVec.ofBool x6⟩],
    h ▸ segB [⟨11, x0⟩, ⟨2, x1⟩, ⟨4, x2⟩, ⟨4, x3⟩, ⟨4, x4⟩] x5 [⟨1, BitVec.ofBool x6⟩],
    h ▸ flagB [⟨11, x0⟩, ⟨2, x1⟩, ⟨4, x2⟩, ⟨4, x3⟩, ⟨4, x4⟩, ⟨6, x5⟩] x6 []⟩

theorem lay32 {w : Nat} {x0 : BitVec 8} {x1 : BitVec 5} {x2 : BitVec 3} {x3 : BitVec 4} {x4 : BitVec 5} {x5 : BitVec 6} {x6 : Bool}
    (h : w = mixB [⟨8, x0⟩, ⟨5, x1⟩, ⟨3, x2⟩, ⟨4, x3⟩, ⟨5, x4⟩, ⟨6, x5⟩, ⟨1, BitVec.ofBool x6⟩]) :
    fld w 0 8 = x0 ∧ seg w 8 5 = x1.toNat ∧ fld w 13 3 = x2 ∧ fld w 16 4 = x3 ∧ fld w 20 5 = x4 ∧ seg w 25 6 = x5.toNat ∧ flag w 31 = x6 := by
  exact ⟨h ▸ fldB [] x0 [⟨5, x1⟩, ⟨3, x2⟩, ⟨4, x3⟩, ⟨5, x4⟩, ⟨6, x5⟩, ⟨1, BitVec.ofBool x6⟩],
    h ▸ segB [⟨8, x0⟩] x1 [⟨3, x2⟩, ⟨4, x3⟩, ⟨5, x4⟩, ⟨6, x5⟩, ⟨1, BitVec.ofBool x6⟩],
    h ▸ fldB [⟨8, x0⟩, ⟨5, x1⟩] x2 [⟨4, x3⟩, ⟨5, x4⟩, ⟨6, x5⟩, ⟨1, BitVec.ofBool x6⟩],
    h ▸ fldB [⟨8, x0⟩, ⟨5, x1⟩, ⟨3, x2⟩] x3 [⟨5, x4⟩, ⟨6, x5⟩, ⟨1, BitVec.ofBool x6⟩],
    h ▸ fldB [⟨8, x0⟩, ⟨5, x1⟩, ⟨3, x2⟩, ⟨4, x3⟩] x4 [⟨6, x5⟩, ⟨1, BitVec.ofBool x6⟩],
    h ▸ segB [⟨8, x0⟩, ⟨5, x1⟩, ⟨3, x2⟩, ⟨4, x3⟩, ⟨5, x4⟩] x5 [⟨1, BitVec.ofBool x6⟩],
    h ▸ flagB [⟨8, x0⟩, ⟨5, x1⟩, ⟨3, x2⟩, ⟨4, x3⟩, ⟨5, x4⟩, ⟨6, x5⟩] x6 []⟩

theorem lay33 {w : Nat} {x0 : BitVec 8} {x1 : BitVec 3} {x2 : BitVec 4} {x3 : BitVec 4} {x4 : BitVec 1} {x5 : BitVec 5} {x6 : BitVec 6} {x7 : Bool}
    (h : w = mixB [⟨8, x0⟩, ⟨3, x1⟩, ⟨4, x2⟩, ⟨4, x3⟩, ⟨1, x4⟩, ⟨5, x5⟩, ⟨6, x6⟩, ⟨1, BitVec.ofBool x7⟩]) :
    seg w 0 8 = x0.toNat ∧ fld w 8 3 = x1 ∧ fld w 11 4 = x2 ∧ fld w 15 4 = x3 ∧ seg w 19 1 = x4.toNat ∧ fld w 20 5 = x5 ∧ seg w 25 6 = x6.toNat ∧ flag w 31 = x7 := by
  exact ⟨h ▸ segB [] x0 [⟨3, x1⟩, ⟨4, x2⟩, ⟨4, x3⟩, ⟨1, x4⟩, ⟨5, x5⟩, ⟨6, x6⟩, ⟨1, BitVec.ofBool x7⟩],
    h ▸ fldB [⟨8, x0⟩] x1 [⟨4, x2⟩, ⟨4, x3⟩, ⟨1, x4⟩, ⟨5, x5⟩, ⟨6, x6⟩, ⟨1, BitVec.ofBool x7⟩],
    h ▸ fldB [⟨8, x0⟩, ⟨3, x1⟩] x2 [⟨4, x3⟩, ⟨1, x4⟩, ⟨5, x5⟩, ⟨6, x6⟩, ⟨1, BitVec.ofBool x7⟩],
    h ▸ fldB [⟨8, x0⟩, ⟨3, x1⟩, ⟨4, x2⟩] x3 [⟨1, x4⟩, ⟨5, x5⟩, ⟨6, x6⟩, ⟨1, BitVec.ofBool x7⟩],
    h ▸ segB [⟨8, x0⟩, ⟨3, x1⟩, ⟨4, x2⟩, ⟨4, x3⟩] x4 [⟨5, x5⟩, ⟨6, x6⟩, ⟨1, BitVec.ofBool x7⟩],
    h ▸ fldB [⟨8, x0⟩, ⟨3, x1⟩, ⟨4, x2⟩, ⟨4, x3⟩, ⟨1, x4⟩] x5 [⟨6, x6⟩, ⟨1, BitVec.ofBool x7⟩],
    h ▸ segB [⟨8, x0⟩, ⟨3, x1⟩, ⟨4, x2⟩, ⟨4, x3⟩, ⟨1, x4⟩, ⟨5, x5⟩] x6 [⟨1, BitVec.ofBool x7⟩],
    h ▸ flagB [⟨8, x0⟩, ⟨3, x1⟩, ⟨4, x2⟩, ⟨4, x3⟩, ⟨1, x4⟩, ⟨5, x5⟩, ⟨6, x6⟩] x7 []⟩

theorem lay34 {w : Nat} {x0 : BitVec 8} {x1 : BitVec 3} {x2 : BitVec 4} {x3 : BitVec 5} {x4 : BitVec 5} {x5 : BitVec 6} {x6 : Bool}
    (h : w = mixB [⟨8, x0⟩, ⟨3, x1⟩, ⟨4, x2⟩, ⟨5, x3⟩, ⟨5, x4⟩, ⟨6, x5⟩, ⟨1, BitVec.ofBool x6⟩]) :
    seg w 0 8 = x0.toNat ∧ seg w 8 3 = x1.toNat ∧ fld w 11 4 = x2 ∧ seg w 15 5 = x3.toNat ∧ fld w 20 5 = x4 ∧ seg w 25 6 = x5.toNat ∧ flag w 31 = x6 := by
  exact ⟨h ▸ segB [] x0 [⟨3, x1⟩, ⟨4, x2⟩, ⟨5, x3⟩, ⟨5, x4⟩, ⟨6, x5⟩, ⟨1, BitVec.ofBool x6⟩],
    h ▸ segB [⟨8, x0⟩] x1 [⟨4, x2⟩, ⟨5, x3⟩, ⟨5, x4⟩, ⟨6, x5⟩, ⟨1, BitVec.ofBool x6⟩],
    h ▸ fldB [⟨8, x0⟩, ⟨3, x1⟩] x2 [⟨5, x3⟩, ⟨5, x4⟩, ⟨6, x5⟩, ⟨1, BitVec.ofBool x6⟩],
    h ▸ segB [⟨8, x0⟩, ⟨3, x1⟩, ⟨4, x2⟩] x3 [⟨5, x4⟩, ⟨6, x5⟩, ⟨1, BitVec.ofBool x6⟩],
    h ▸ fldB [⟨8, x0⟩, ⟨3, x1⟩, ⟨4, x2⟩, ⟨5, x3⟩] x4 [⟨6, x5⟩, ⟨1, BitVec.ofBool x6⟩],
    h ▸ segB [⟨8, x0⟩, ⟨3, x1⟩, ⟨4, x2⟩, ⟨5, x3⟩, ⟨5, x4⟩] x5 [⟨1, BitVec.ofBool x6⟩],
    h ▸ flagB [⟨8, x0⟩, ⟨3, x1⟩, ⟨4, x2⟩, ⟨5, x3⟩, ⟨5, x4⟩, ⟨6, x5⟩] x6 []⟩

theorem lay35 {w : Nat} {x0 : BitVec 5} {x1 : BitVec 8} {x2 : BitVec 4} {x3 : BitVec 4} {x4 : BitVec 4} {x5 : BitVec 6} {x6 : BitVec 1}
    (h : w = mixB [⟨5, x0⟩, ⟨8, x1⟩, ⟨4, x2⟩, ⟨4, x3⟩, ⟨4, x4⟩, ⟨6, x5⟩, ⟨1, x6⟩]) :
    seg w 0 5 = x0.toNat ∧ seg w 5 8 = x1.toNat ∧ fld w 13 4 = x2 ∧ fld w 17 4 = x3 ∧ fld w 21 4 = x4 ∧ seg w 25 6 = x5.toNat ∧ seg w 31 1 = x6.toNat := by
  exact ⟨h ▸ segB [] x0 [⟨8, x1⟩, ⟨4, x2⟩, ⟨4, x3⟩, ⟨4, x4⟩, ⟨6, x5⟩, ⟨1, x6⟩],
    h ▸ segB [⟨5, x0⟩] x1 [⟨4, x2⟩, ⟨4, x3⟩, ⟨4, x4⟩, ⟨6, x5⟩, ⟨1, x6⟩],
    h ▸ fldB [⟨5, x0⟩, ⟨8, x1⟩] x2 [⟨4, x3⟩, ⟨4, x4⟩, ⟨6, x5⟩, ⟨1, x6⟩],
    h ▸ fldB [⟨5, x0⟩, ⟨8, x1⟩, ⟨4, x2⟩] x3 [⟨4, x4⟩, ⟨6, x5⟩, ⟨1, x6⟩],
    h ▸ fldB [⟨5, x0⟩, ⟨8, x1⟩, ⟨4, x2⟩, ⟨4, x3⟩] x4 [⟨6, x5⟩, ⟨1, x6⟩],
    h ▸ segB [⟨5, x0⟩, ⟨8, x1⟩, ⟨4, x2⟩, ⟨4, x3⟩, ⟨4, x4⟩] x5 [⟨1, x6⟩],
    h ▸ segB [⟨5, x0⟩, ⟨8, x1⟩, ⟨4, x2⟩, ⟨4, x3⟩, ⟨4, x4⟩, ⟨6, x5⟩] x6 []⟩

theorem lay36 {w : Nat} {x0 : BitVec 5} {x1 : BitVec 4} {x2 : BitVec 1} {x3 : BitVec 3} {x4 : BitVec 4} {x5 : BitVec 4} {x6 : BitVec 4} {x7 : BitVec 6} {x8 : Bool}
    (h : w = mixB [⟨5, x0⟩, ⟨4, x1⟩, ⟨1, x2⟩, ⟨3, x3⟩, ⟨4, x4⟩, ⟨4, x5⟩, ⟨4, x6⟩, ⟨6, x7⟩, ⟨1, BitVec.ofBool x8⟩]) :
    seg w 0 5 = x0.toNat ∧ seg w 5 4 = x1.toNat ∧ fld w 9 1 = x2 ∧ seg w 10 3 = x3.toNat ∧ fld w 13 4 = x4 ∧ fld w 17 4 = x5 ∧ fld w 21 4 = x6 ∧ seg w 25 6 = x7.toNat ∧ flag w 31 = x8 := by
  exact ⟨h ▸ segB [] x0 [⟨4, x1⟩, ⟨1, x2⟩, ⟨3, x3⟩, ⟨4, x4⟩, ⟨4, x5⟩, ⟨4, x6⟩, ⟨6, x7⟩, ⟨1, BitVec.ofBool x8⟩],
    h ▸ segB [⟨5, x0⟩] x1 [⟨1, x2⟩, ⟨3, x3⟩, ⟨4, x4⟩, ⟨4, x5⟩, ⟨4, x6⟩, ⟨6, x7⟩, ⟨1, BitVec.ofBool x8⟩],
    h ▸ fldB [⟨5, x0⟩, ⟨4, x1⟩] x2 [⟨3, x3⟩, ⟨4, x4⟩, ⟨4, x5⟩, ⟨4, x6⟩, ⟨6, x7⟩, ⟨1, BitVec.ofBool x8⟩],
    h ▸ segB [⟨5, x0⟩, ⟨4, x1⟩, ⟨1, x2⟩] x3 [⟨4, x4⟩, ⟨4, x5⟩, ⟨4, x6⟩, ⟨6, x7⟩, ⟨1, BitVec.ofBool x8⟩],
    h ▸ fldB [⟨5, x0⟩, ⟨4, x1⟩, ⟨1, x2⟩, ⟨3, x3⟩] x4 [⟨4, x5⟩, ⟨4, x6⟩, ⟨6, x7⟩, ⟨1, BitVec.ofBool x8⟩],
    h ▸ fldB [⟨5, x0⟩, ⟨4, x1⟩, ⟨1, x2⟩, ⟨3, x3⟩, ⟨4, x4⟩] x5 [⟨4, x6⟩, ⟨6, x7⟩, ⟨1, BitVec.ofBool x8⟩],
    h ▸ fldB [⟨5, x0⟩, ⟨4, x1⟩, ⟨1, x2⟩, ⟨3, x3⟩, ⟨4, x4⟩, ⟨4, x5⟩] x6 [⟨6, x7⟩, ⟨1, BitVec.ofBool x8⟩],
    h ▸ segB [⟨5, x0⟩, ⟨4, x1⟩, ⟨1, x2⟩, ⟨3, x3⟩, ⟨4, x4⟩, ⟨4, x5⟩, ⟨4, x6⟩] x7 [⟨1, BitVec.ofBool x8⟩],
    h ▸ flagB [⟨5, x0⟩, ⟨4, x1⟩, ⟨1, x2⟩, ⟨3, x3⟩, ⟨4, x4⟩, ⟨4, x5⟩, ⟨4, x6⟩, ⟨6, x7⟩] x8 []⟩

theorem lay37 {w : Nat} {x0 : BitVec 5} {x1 : BitVec 4} {x2 : BitVec 1} {x3 : BitVec 3} {x4 : BitVec 4} {x5 : BitVec 4} {x6 : BitVec 4} {x7 : BitVec 6} {x8 : Bool}
    (h : w = mixB [⟨5, x0⟩, ⟨4, x1⟩, ⟨1, x2⟩, ⟨3, x3⟩, ⟨4, x4⟩, ⟨4, x5⟩, ⟨4, x6⟩, ⟨6, x7⟩, ⟨1, BitVec.ofBool x8⟩]) :
    seg w 0 5 = x0.toNat ∧ seg w 5 4 = x1.toNat ∧ seg w 9 1 = x2.toNat ∧ seg w 10 3 = x3.toNat ∧ fld w 13 4 = x4 ∧ fld w 17 4 = x5 ∧ fld w 21 4 = x6 ∧ seg w 25 6 = x7.toNat ∧ flag w 31 = x8 := by
  exact ⟨h ▸ segB [] x0 [⟨4, x1⟩, ⟨1, x2⟩, ⟨3, x3⟩, ⟨4, x4⟩, ⟨4, x5⟩, ⟨4, x6⟩, ⟨6, x7⟩, ⟨1, BitVec.ofBool x8⟩],
    h ▸ segB [⟨5, x0⟩] x1 [⟨1, x2⟩, ⟨3, x3⟩, ⟨4, x4⟩, ⟨4, x5⟩, ⟨4, x6⟩, ⟨6, x7⟩, ⟨1, BitVec.ofBool x8⟩],
    h ▸ segB [⟨5, x0⟩, ⟨4, x1⟩] x2 [⟨3, x3⟩, ⟨4, x4⟩, ⟨4, x5⟩, ⟨4, x6⟩, ⟨6, x7⟩, ⟨1, BitVec.ofBool x8⟩],
    h ▸ segB [⟨5, x0⟩, ⟨4, x1⟩, ⟨1, x2⟩] x3 [⟨4, x4⟩, ⟨4, x5⟩, ⟨4, x6⟩, ⟨6, x7⟩, ⟨1, BitVec.ofBool x8⟩],
    h ▸ fldB [⟨5, x0⟩, ⟨4, x1⟩, ⟨1, x2⟩, ⟨3, x3⟩] x4 [⟨4, x5⟩, ⟨4, x6⟩, ⟨6, x7⟩, ⟨1, BitVec.ofBool x8⟩],
    h ▸ fldB [⟨5, x0⟩, ⟨4, x1⟩, ⟨1, x2⟩, ⟨3, x3⟩, ⟨4, x4⟩] x5 [⟨4, x6⟩, ⟨6, x7⟩, ⟨1, BitVec.ofBool x8⟩],
    h ▸ fldB [⟨5, x0⟩, ⟨4, x1⟩, ⟨1, x2⟩, ⟨3, x3⟩, ⟨4, x4⟩, ⟨4, x5⟩] x6 [⟨6, x7⟩, ⟨1, BitVec.ofBool x8⟩],
    h ▸ segB [⟨5, x0⟩, ⟨4, x1⟩, ⟨1, x2⟩, ⟨3, x3⟩, ⟨4, x4⟩, ⟨4, x5⟩, ⟨4, x6⟩] x7 [⟨1, BitVec.ofBool x8⟩],
    h ▸ flagB [⟨5, x0⟩, ⟨4, x1⟩, ⟨1, x2⟩, ⟨3, x3⟩, ⟨4, x4⟩, ⟨4, x5⟩, ⟨4, x6⟩, ⟨6, x7⟩] x8 []⟩

theorem lay38 {w : Nat} {x0 : BitVec 9} {x1 : BitVec 1} {x2 : BitVec 3} {x3 : BitVec 4} {x4 : BitVec 4} {x5 : BitVec 4} {x6 : BitVec 6} {x7 : Bool}
    (h : w = mixB [⟨9, x0⟩, ⟨1, x1⟩, ⟨3, x2⟩, ⟨4, x3⟩, ⟨4, x4⟩, ⟨4, x5⟩, ⟨6, x6⟩, ⟨1, BitVec.ofBool x7⟩]) :
    seg w 0 9 = x0.toNat ∧ fld w 9 1 = x1 ∧ seg w 10 3 = x2.toNat ∧ fld w 13 4 = x3 ∧ fld w 17 4 = x4 ∧ fld w 21 4 = x5 ∧ seg w 25 6 = x6.toNat ∧ flag w 31 = x7 := by
  exact ⟨h ▸ segB [] x0 [⟨1, x1⟩, ⟨3, x2⟩, ⟨4, x3⟩, ⟨4, x4⟩, ⟨4, x5⟩, ⟨6, x6⟩, ⟨1, BitVec.ofBool x7⟩],
    h ▸ fldB [⟨9, x0⟩] x1 [⟨3, x2⟩, ⟨4, x3⟩, ⟨4, x4⟩, ⟨4, x5⟩, ⟨6, x6⟩, ⟨1, BitVec.ofBool x7⟩],
    h ▸ segB [⟨9, x0⟩, ⟨1, x1⟩] x2 [⟨4, x3⟩, ⟨4, x4⟩, ⟨4, x5⟩, ⟨6, x6⟩, ⟨1, BitVec.ofBool x7⟩],
    h ▸ fldB [⟨9, x0⟩, ⟨1, x1⟩, ⟨3, x2⟩] x3 [⟨4, x4⟩, ⟨4, x5⟩, ⟨6, x6⟩, ⟨1, BitVec.ofBool x7⟩],
    h ▸ fldB [⟨9, x0⟩, ⟨1, x1⟩, ⟨3, x2⟩, ⟨4, x3⟩] x4 [⟨4, x5⟩, ⟨6, x6⟩, ⟨1, BitVec.ofBool x7⟩],
    h ▸ fldB [⟨9, x0⟩, ⟨1, x1⟩, ⟨3, x2⟩, ⟨4, x3⟩, ⟨4, x4⟩] x5 [⟨6, x6⟩, ⟨1, BitVec.ofBool x7⟩],
    h ▸ segB [⟨9, x0⟩, ⟨1, x1⟩, ⟨3, x2⟩, ⟨4, x3⟩, ⟨4, x4⟩, ⟨4, x5⟩] x6 [⟨1, BitVec.ofBool x7⟩],
    h ▸ flagB [⟨9, x0⟩, ⟨1, x1⟩, ⟨3, x2⟩, ⟨4, x3⟩, ⟨4, x4⟩, ⟨4, x5⟩, ⟨6, x6⟩] x7 []⟩

theorem lay39 {w : Nat} {x0 : BitVec 5} {x1 : BitVec 2} {x2 : BitVec 3} {x3 : BitVec 3} {x4 : BitVec 4} {x5 : BitVec 4} {x6 : BitVec 4} {x7 : BitVec 6} {x8 : Bool}
    (h : w = mixB [⟨5, x0⟩, ⟨2, x1⟩, ⟨3, x2⟩, ⟨3, x3⟩, ⟨4, x4⟩, ⟨4, x5⟩, ⟨4, x6⟩, ⟨6, x7⟩, ⟨1, BitVec.ofBool x8⟩]) :
    seg w 0 5 = x0.toNat ∧ fld w 5 2 = x1 ∧ seg w 7 3 = x2.toNat ∧ seg w 10 3 = x3.toNat ∧ fld w 13 4 = x4 ∧ fld w 17 4 = x5 ∧ fld w 21 4 = x6 ∧ seg w 25 6 = x7.toNat ∧ flag w 31 = x8 := by
  exact ⟨h ▸ segB [] x0 [⟨2, x1⟩, ⟨3, x2⟩, ⟨3, x3⟩, ⟨4, x4⟩, ⟨4, x5⟩, ⟨4, x6⟩, ⟨6, x7⟩, ⟨1, BitVec.ofBool x8⟩],
    h ▸ fldB [⟨5, x0⟩] x1 [⟨3, x2⟩, ⟨3, x3⟩, ⟨4, x4⟩, ⟨4, x5⟩, ⟨4, x6⟩, ⟨6, x7⟩, ⟨1, BitVec.ofBool x8⟩],
    h ▸ segB [⟨5, x0⟩, ⟨2, x1⟩] x2 [⟨3, x3⟩, ⟨4, x4⟩, ⟨4, x5⟩, ⟨4, x6⟩, ⟨6, x7⟩, ⟨1, BitVec.ofBool x8⟩],
    h ▸ segB [⟨5, x0⟩, ⟨2, x1⟩, ⟨3, x2⟩] x3 [⟨4, x4⟩, ⟨4, x5⟩, ⟨4, x6⟩, ⟨6, x7⟩, ⟨1, BitVec.ofBool x8⟩],
    h ▸ fldB [⟨5, x0⟩, ⟨2, x1⟩, ⟨3, x2⟩, ⟨3, x3⟩] x4 [⟨4, x5⟩, ⟨4, x6⟩, ⟨6, x7⟩, ⟨1, BitVec.ofBool x8⟩],
    h ▸ fldB [⟨5, x0⟩, ⟨2, x1⟩, ⟨3, x2⟩, ⟨3, x3⟩, ⟨4, x4⟩] x5 [⟨4, x6⟩, ⟨6, x7⟩, ⟨1, BitVec.ofBool x8⟩],
    h ▸ fldB [⟨5, x0⟩, ⟨2, x1⟩, ⟨3, x2⟩, ⟨3, x3⟩, ⟨4, x4⟩, ⟨4, x5⟩] x6 [⟨6, x7⟩, ⟨1, BitVec.ofBool x8⟩],
    h ▸ segB [⟨5, x0⟩, ⟨2, x1⟩, ⟨3, x2⟩, ⟨3, x3⟩, ⟨4, x4⟩, ⟨4, x5⟩, ⟨4, x6⟩] x7 [⟨1, BitVec.ofBool x8⟩],
    h ▸ flagB [⟨5, x0⟩, ⟨2, x1⟩, ⟨3, x2⟩, ⟨3, x3⟩, ⟨4, x4⟩, ⟨4, x5⟩, ⟨4, x6⟩, ⟨6, x7⟩] x8 []⟩

theorem lay40 {w : Nat} {x0 : BitVec 4} {x1 : BitVec 1} {x2 : BitVec 2} {x3 : BitVec 6} {x4 : BitVec 12} {x5 : BitVec 6} {x6 : Bool}
    (h : w = mixB [⟨4, x0⟩, ⟨1, x1⟩, ⟨2, x2⟩, ⟨6, x3⟩, ⟨12, x4⟩, ⟨6, x5⟩, ⟨1, BitVec.ofBool x6⟩]) :
    fld w 0 4 = x0 ∧ seg w 4 1 = x1.toNat ∧ fld w 5 2 = x2 ∧ seg w 7 6 = x3.toNat ∧ seg w 13 12 = x4.toNat ∧ seg w 25 6 = x5.toNat ∧ flag w 31 = x6 := by
  exact ⟨h ▸ fldB [] x0 [⟨1, x1⟩, ⟨2, x2⟩, ⟨6, x3⟩, ⟨12, x4⟩, ⟨6, x5⟩, ⟨1, BitVec.ofBool x6⟩],
    h ▸ segB [⟨4, x0⟩] x1 [⟨2, x2⟩, ⟨6, x3⟩, ⟨12, x4⟩, ⟨6, x5⟩, ⟨1, BitVec.ofBool x6⟩],
    h ▸ fldB [⟨4, x0⟩, ⟨1, x1⟩] x2 [⟨6, x3⟩, ⟨12, x4⟩, ⟨6, x5⟩, ⟨1, BitVec.ofBool x6⟩],
    h ▸ segB [⟨4, x0⟩, ⟨1, x1⟩, ⟨2, x2⟩] x3 [⟨12, x4⟩, ⟨6, x5⟩, ⟨1, BitVec.ofBool x6⟩],
    h ▸ segB [⟨4, x0⟩, ⟨1, x1⟩, ⟨2, x2⟩, ⟨6, x3⟩] x4 [⟨6, x5⟩, ⟨1, BitVec.ofBool x6⟩],
    h ▸ segB [⟨4, x0⟩, ⟨1, x1⟩, ⟨2, x2⟩, ⟨6, x3⟩, ⟨12, x4⟩] x5 [⟨1, BitVec.ofBool x6⟩],
    h ▸ flagB [⟨4, x0⟩, ⟨1, x1⟩, ⟨2, x2⟩, ⟨6, x3⟩, ⟨12, x4⟩, ⟨6, x5⟩] x6 []⟩

theorem lay41 {w : Nat} {x0 : BitVec 2} {x1 : BitVec 3} {x2 : BitVec 2} {x3 : BitVec 6} {x4 : BitVec 4} {x5 : BitVec 4} {x6 : BitVec 4} {x7 : BitVec 6} {x8 : Bool}
    (h : w = mixB [⟨2, x0⟩, ⟨3, x1⟩, ⟨2, x2⟩, ⟨6, x3⟩, ⟨4, x4⟩, ⟨4, x5⟩, ⟨4, x6⟩, ⟨6, x7⟩, ⟨1, BitVec.ofBool x8⟩]) :
    fld w 0 2 = x0 ∧ seg w 2 3 = x1.toNat ∧ seg w 5 2 = x2.toNat ∧ seg w 7 6 = x3.toNat ∧ seg w 13 4 = x4.toNat ∧ fld w 17 4 = x5 ∧ seg w 21 4 = x6.toNat ∧ seg w 25 6 = x7.toNat ∧ flag w 31 = x8 := by
  exact ⟨h ▸ fldB [] x0 [⟨3, x1⟩, ⟨2, x2⟩, ⟨6, x3⟩, ⟨4, x4⟩, ⟨4, x5⟩, ⟨4, x6⟩, ⟨6, x7⟩, ⟨1, BitVec.ofBool x8⟩],
    h ▸ segB [⟨2, x0⟩] x1 [⟨2, x2⟩, ⟨6, x3⟩, ⟨4, x4⟩, ⟨4, x5⟩, ⟨4, x6⟩, ⟨6, x7⟩, ⟨1, BitVec.ofBool x8⟩],
    h ▸ segB [⟨2, x0⟩, ⟨3, x1⟩] x2 [⟨6, x3⟩, ⟨4, x4⟩, ⟨4, x5⟩, ⟨4, x6⟩, ⟨6, x7⟩, ⟨1, BitVec.ofBool x8⟩],
    h ▸ segB [⟨2, x0⟩, ⟨3, x1⟩, ⟨2, x2⟩] x3 [⟨4, x4⟩, ⟨4, x5⟩, ⟨4, x6⟩, ⟨6, x7⟩, ⟨1, BitVec.ofBool x8⟩],
    h ▸ segB [⟨2, x0⟩, ⟨3, x1⟩, ⟨2, x2⟩, ⟨6, x3⟩] x4 [⟨4, x5⟩, ⟨4, x6⟩, ⟨6, x7⟩, ⟨1, BitVec.ofBool x8⟩],
    h ▸ fldB [⟨2, x0⟩, ⟨3, x1⟩, ⟨2, x2⟩, ⟨6, x3⟩, ⟨4, x4⟩] x5 [⟨4, x6⟩, ⟨6, x7⟩, ⟨1, BitVec.ofBool x8⟩],
    h ▸ segB [⟨2, x0⟩, ⟨3, x1⟩, ⟨2, x2⟩, ⟨6, x3⟩, ⟨4, x4⟩, ⟨4, x5⟩] x6 [⟨6, x7⟩, ⟨1, BitVec.ofBool x8⟩],
    h ▸ segB [⟨2, x0⟩, ⟨3, x1⟩, ⟨2, x2⟩, ⟨6, x3⟩, ⟨4, x4⟩, ⟨4, x5⟩, ⟨4, x6⟩] x7 [⟨1, BitVec.ofBool x8⟩],
    h ▸ flagB [⟨2, x0⟩, ⟨3, x1⟩, ⟨2, x2⟩, ⟨6, x3⟩, ⟨4, x4⟩, ⟨4, x5⟩, ⟨4, x6⟩, ⟨6, x7⟩] x8 []⟩

theorem lay42 {w : Nat} {x0 : BitVec 2} {x1 : BitVec 3} {x2 : BitVec 2} {x3 : BitVec 6} {x4 : BitVec 8} {x5 : BitVec 4} {x6 : BitVec 6} {x7 : Bool}
    (h : w = mixB [⟨2, x0⟩, ⟨3, x1⟩, ⟨2, x2⟩, ⟨6, x3⟩, ⟨8, x4⟩, ⟨4, x5⟩, ⟨6, x6⟩, ⟨1, BitVec.ofBool x7⟩]) :
    fld w 0 2 = x0 ∧ seg w 2 3 = x1.toNat ∧ seg w 5 2 = x2.toNat ∧ seg w 7 6 = x3.toNat ∧ seg w 13 8 = x4.toNat ∧ fld w 21 4 = x5 ∧ seg w 25 6 = x6.toNat ∧ flag w 31 = x7 := by
  exact ⟨h ▸ fldB [] x0 [⟨3, x1⟩, ⟨2, x2⟩, ⟨6, x3⟩, ⟨8, x4⟩, ⟨4, x5⟩, ⟨6, x6⟩, ⟨1, BitVec.ofBool x7⟩],
    h ▸ segB [⟨2, x0⟩] x1 [⟨2, x2⟩, ⟨6, x3⟩, ⟨8, x4⟩, ⟨4, x5⟩, ⟨6, x6⟩, ⟨1, BitVec.ofBool x7⟩],
    h ▸ segB [⟨2, x0⟩, ⟨3, x1⟩] x2 [⟨6, x3⟩, ⟨8, x4⟩, ⟨4, x5⟩, ⟨6, x6⟩, ⟨1, BitVec.ofBool x7⟩],
    h ▸ segB [⟨2, x0⟩, ⟨3, x1⟩, ⟨2, x2⟩] x3 [⟨8, x4⟩, ⟨4, x5⟩, ⟨6, x6⟩, ⟨1, BitVec.ofBool x7⟩],
    h ▸ segB [⟨2, x0⟩, ⟨3, x1⟩, ⟨2, x2⟩, ⟨6, x3⟩] x4 [⟨4, x5⟩, ⟨6, x6⟩, ⟨1, BitVec.ofBool x7⟩],
    h ▸ fldB [⟨2, x0⟩, ⟨3, x1⟩, ⟨2, x2⟩, ⟨6, x3⟩, ⟨8, x4⟩] x5 [⟨6, x6⟩, ⟨1, BitVec.ofBool x7⟩],
    h ▸ segB [⟨2, x0⟩, ⟨3, x1⟩, ⟨2, x2⟩, ⟨6, x3⟩, ⟨8, x4⟩, ⟨4, x5⟩] x6 [⟨1, BitVec.ofBool x7⟩],
    h ▸ flagB [⟨2, x0⟩, ⟨3, x1⟩, ⟨2, x2⟩, ⟨6, x3⟩, ⟨8, x4⟩, ⟨4, x5⟩, ⟨6, x6⟩] x7 []⟩

theorem lay43 {w : Nat} {x0 : BitVec 5} {x1 : BitVec 2} {x2 : BitVec 3} {x3 : BitVec 5} {x4 : BitVec 5} {x5 : BitVec 5} {x6 : BitVec 6} {x7 : Bool}
    (h : w = mixB [⟨5, x0⟩, ⟨2, x1⟩, ⟨3, x2⟩, ⟨5, x3⟩, ⟨5, x4⟩, ⟨5, x5⟩, ⟨6, x6⟩, ⟨1, BitVec.ofBool x7⟩]) :
    seg w 0 5 = x0.toNat ∧ fld w 5 2 = x1 ∧ fld w 7 3 = x2 ∧ fld w 10 5 = x3 ∧ fld w 15 5 = x4 ∧ fld w 20 5 = x5 ∧ seg w 25 6 = x6.toNat ∧ flag w 31 = x7 := by
  exact ⟨h ▸ segB [] x0 [⟨2, x1⟩, ⟨3, x2⟩, ⟨5, x3⟩, ⟨5, x4⟩, ⟨5, x5⟩, ⟨6, x6⟩, ⟨1, BitVec.ofBool x7⟩],
    h ▸ fldB [⟨5, x0⟩] x1 [⟨3, x2⟩, ⟨5, x3⟩, ⟨5, x4⟩, ⟨5, x5⟩, ⟨6, x6⟩, ⟨1, BitVec.ofBool x7⟩],
    h ▸ fldB [⟨5, x0⟩, ⟨2, x1⟩] x2 [⟨5, x3⟩, ⟨5, x4⟩, ⟨5, x5⟩, ⟨6, x6⟩, ⟨1, BitVec.ofBool x7⟩],
    h ▸ fldB [⟨5, x0⟩, ⟨2, x1⟩, ⟨3, x2⟩] x3 [⟨5, x4⟩, ⟨5, x5⟩, ⟨6, x6⟩, ⟨1, BitVec.ofBool x7⟩],
    h ▸ fldB [⟨5, x0⟩, ⟨2, x1⟩, ⟨3, x2⟩, ⟨5, x3⟩] x4 [⟨5, x5⟩, ⟨6, x6⟩, ⟨1, BitVec.ofBool x7⟩],
    h ▸ fldB [⟨5, x0⟩, ⟨2, x1⟩, ⟨3, x2⟩, ⟨5, x3⟩, ⟨5, x4⟩] x5 [⟨6, x6⟩, ⟨1, BitVec.ofBool x7⟩],
    h ▸ segB [⟨5, x0⟩, ⟨2, x1⟩, ⟨3, x2⟩, ⟨5, x3⟩, ⟨5, x4⟩, ⟨5, x5⟩] x6 [⟨1, BitVec.ofBool x7⟩],
    h ▸ flagB [⟨5, x0⟩, ⟨2, x1⟩, ⟨3, x2⟩, ⟨5, x3⟩, ⟨5, x4⟩, ⟨5, x5⟩, ⟨6, x6⟩] x7 []⟩

theorem lay44 {w : Nat} {x0 : BitVec 5} {x1 : BitVec 2} {x2 : BitVec 3} {x3 : BitVec 5} {x4 : BitVec 5} {x5 : BitVec 5} {x6 : BitVec 6} {x7 : Bool}
    (h : w = mixB [⟨5, x0⟩, ⟨2, x1⟩, ⟨3, x2⟩, ⟨5, x3⟩, ⟨5, x4⟩, ⟨5, x5⟩, ⟨6, x6⟩, ⟨1, BitVec.ofBool x7⟩]) :
    seg w 0 5 = x0.toNat ∧ fld w 5 2 = x1 ∧ fld w 7 3 = x2 ∧ seg w 10 5 = x3.toNat ∧ fld w 15 5 = x4 ∧ fld w 20 5 = x5 ∧ seg w 25 6 = x6.toNat ∧ flag w 31 = x7 := by
  exact ⟨h ▸ segB [] x0 [⟨2, x1⟩, ⟨3, x2⟩, ⟨5, x3⟩, ⟨5, x4⟩, ⟨5, x5⟩, ⟨6, x6⟩, ⟨1, BitVec.ofBool x7⟩],
    h ▸ fldB [⟨5, x0⟩] x1 [⟨3, x2⟩, ⟨5, x3⟩, ⟨5, x4⟩, ⟨5, x5⟩, ⟨6, x6⟩, ⟨1, BitVec.ofBool x7⟩],
    h ▸ fldB [⟨5, x0⟩, ⟨2, x1⟩] x2 [⟨5, x3⟩, ⟨5, x4⟩, ⟨5, x5⟩, ⟨6, x6⟩, ⟨1, BitVec.ofBool x7⟩],
    h ▸ segB [⟨5, x0⟩, ⟨2, x1⟩, ⟨3, x2⟩] x3 [⟨5, x4⟩, ⟨5, x5⟩, ⟨6, x6⟩, ⟨1, BitVec.ofBool x7⟩],
    h ▸ fldB [⟨5, x0⟩, ⟨2, x1⟩, ⟨3, x2⟩, ⟨5, x3⟩] x4 [⟨5, x5⟩, ⟨6, x6⟩, ⟨1, BitVec.ofBool x7⟩],
    h ▸ fldB [⟨5, x0⟩, ⟨2, x1⟩, ⟨3, x2⟩, ⟨5, x3⟩, ⟨5, x4⟩] x5 [⟨6, x6⟩, ⟨1, BitVec.ofBool x7⟩],
    h ▸ segB [⟨5, x0⟩, ⟨2, x1⟩, ⟨3, x2⟩, ⟨5, x3⟩, ⟨5, x4⟩, ⟨5, x5⟩] x6 [⟨1, BitVec.ofBool x7⟩],
    h ▸ flagB [⟨5, x0⟩, ⟨2, x1⟩, ⟨3, x2⟩, ⟨5, x3⟩, ⟨5, x4⟩, ⟨5, x5⟩, ⟨6, x6⟩] x7 []⟩

theorem lay45 {w : Nat} {x0 : BitVec 5} {x1 : BitVec 2} {x2 : BitVec 3} {x3 : BitVec 5} {x4 : BitVec 5} {x5 : BitVec 5} {x6 : BitVec 6} {x7 : Bool}
    (h : w = mixB [⟨5, x0⟩, ⟨2, x1⟩, ⟨3, x2⟩, ⟨5, x3⟩, ⟨5, x4⟩, ⟨5, x5⟩, ⟨6, x6⟩, ⟨1, BitVec.ofBool x7⟩]) :
    seg w 0 5 = x0.toNat ∧ seg w 5 2 = x1.toNat ∧ fld w 7 3 = x2 ∧ fld w 10 5 = x3 ∧ fld w 15 5 = x4 ∧ fld w 20 5 = x5 ∧ seg w 25 6 = x6.toNat ∧ flag w 31 = x7 := by
  exact ⟨h ▸ segB [] x0 [⟨2, x1⟩, ⟨3, x2⟩, ⟨5, x3⟩, ⟨5, x4⟩, ⟨5, x5⟩, ⟨6, x6⟩, ⟨1, BitVec.ofBool x7⟩],
    h ▸ segB [⟨5, x0⟩] x1 [⟨3, x2⟩, ⟨5, x3⟩, ⟨5, x4⟩, ⟨5, x5⟩, ⟨6, x6⟩, ⟨1, BitVec.ofBool x7⟩],
    h ▸ fldB [⟨5, x0⟩, ⟨2, x1⟩] x2 [⟨5, x3⟩, ⟨5, x4⟩, ⟨5, x5⟩, ⟨6, x6⟩, ⟨1, BitVec.ofBool x7⟩],
    h ▸ fldB [⟨5, x0⟩, ⟨2, x1⟩, ⟨3, x2⟩] x3 [⟨5, x4⟩, ⟨5, x5⟩, ⟨6, x6⟩, ⟨1, BitVec.ofBool x7⟩],
    h ▸ fldB [⟨5, x0⟩, ⟨2, x1⟩, ⟨3, x2⟩, ⟨5, x3⟩] x4 [⟨5, x5⟩, ⟨6, x6⟩, ⟨1, BitVec.ofBool x7⟩],
    h ▸ fldB [⟨5, x0⟩, ⟨2, x1⟩, ⟨3, x2⟩, ⟨5, x3⟩, ⟨5, x4⟩] x5 [⟨6, x6⟩, ⟨1, BitVec.ofBool x7⟩],
    h ▸ segB [⟨5, x0⟩, ⟨2, x1⟩, ⟨3, x2⟩, ⟨5, x3⟩, ⟨5, x4⟩, ⟨5, x5⟩] x6 [⟨1, BitVec.ofBool x7⟩],
    h ▸ flagB [⟨5, x0⟩, ⟨2, x1⟩, ⟨3, x2⟩, ⟨5, x3⟩, ⟨5, x4⟩, ⟨5, x5⟩, ⟨6, x6⟩] x7 []⟩

theorem lay46 {w : Nat} {x0 : BitVec 1} {x1 : BitVec 2} {x2 : BitVec 4} {x3 : BitVec 3} {x4 : BitVec 4} {x5 : BitVec 1} {x6 : BitVec 5} {x7 : BitVec 5} {x8 : BitVec 6} {x9 : Bool}
    (h : w = mixB [⟨1, x0⟩, ⟨2, x1⟩, ⟨4, x2⟩, ⟨3, x3⟩, ⟨4, x4⟩, ⟨1, x5⟩, ⟨5, x6⟩, ⟨5, x7⟩, ⟨6, x8⟩, ⟨1, BitVec.ofBool x9⟩]) :
    seg w 0 1 = x0.toNat ∧ fld w 1 2 = x1 ∧ fld w 3 4 = x2 ∧ fld w 7 3 = x3 ∧ fld w 10 4 = x4 ∧ seg w 14 1 = x5.toNat ∧ fld w 15 5 = x6 ∧ fld w 20 5 = x7 ∧ seg w 25 6 = x8.toNat ∧ flag w 31 = x9 := by
  exact ⟨h ▸ segB [] x0 [⟨2, x1⟩, ⟨4, x2⟩, ⟨3, x3⟩, ⟨4, x4⟩, ⟨1, x5⟩, ⟨5, x6⟩, ⟨5, x7⟩, ⟨6, x8⟩, ⟨1, BitVec.ofBool x9⟩],
    h ▸ fldB [⟨1, x0⟩] x1 [⟨4, x2⟩, ⟨3, x3⟩, ⟨4, x4⟩, ⟨1, x5⟩, ⟨5, x6⟩, ⟨5, x7⟩, ⟨6, x8⟩, ⟨1, BitVec.ofBool x9⟩],
    h ▸ fldB [⟨1, x0⟩, ⟨2, x1⟩] x2 [⟨3, x3⟩, ⟨4, x4⟩, ⟨1, x5⟩, ⟨5, x6⟩, ⟨5, x7⟩, ⟨6, x8⟩, ⟨1, BitVec.ofBool x9⟩],
    h ▸ fldB [⟨1, x0⟩, ⟨2, x1⟩, ⟨4, x2⟩] x3 [⟨4, x4⟩, ⟨1, x5⟩, ⟨5, x6⟩, ⟨5, x7⟩, ⟨6, x8⟩, ⟨1, BitVec.ofBool x9⟩],
    h ▸ fldB [⟨1, x0⟩, ⟨2, x1⟩, ⟨4, x2⟩, ⟨3, x3⟩] x4 [⟨1, x5⟩, ⟨5, x6⟩, ⟨5, x7⟩, ⟨6, x8⟩, ⟨1, BitVec.ofBool x9⟩],
    h ▸ segB [⟨1, x0⟩, ⟨2, x1⟩, ⟨4, x2⟩, ⟨3, x3⟩, ⟨4, x4⟩] x5 [⟨5, x6⟩, ⟨5, x7⟩, ⟨6, x8⟩, ⟨1, BitVec.ofBool x9⟩],
    h ▸ fldB [⟨1, x0⟩, ⟨2, x1⟩, ⟨4, x2⟩, ⟨3, x3⟩, ⟨4, x4⟩, ⟨1, x5⟩] x6 [⟨5, x7⟩, ⟨6, x8⟩, ⟨1, BitVec.ofBool x9⟩],
    h ▸ fldB [⟨1, x0⟩, ⟨2, x1⟩, ⟨4, x2⟩, ⟨3, x3⟩, ⟨4, x4⟩, ⟨1, x5⟩, ⟨5, x6⟩] x7 [⟨6, x8⟩, ⟨1, BitVec.ofBool x9⟩],
    h ▸ segB [⟨1, x0⟩, ⟨2, x1⟩, ⟨4, x2⟩, ⟨3, x3⟩, ⟨4, x4⟩, ⟨1, x5⟩, ⟨5, x6⟩, ⟨5, x7⟩] x8 [⟨1, BitVec.ofBool x9⟩],
    h ▸ flagB [⟨1, x0⟩, ⟨2, x1⟩, ⟨4, x2⟩, ⟨3, x3⟩, ⟨4, x4⟩, ⟨1, x5⟩, ⟨5, x6⟩, ⟨5, x7⟩, ⟨6, x8⟩] x9 []⟩

theorem lay47 {w : Nat} {x0 : BitVec 2} {x1 : BitVec 2} {x2 : BitVec 4} {x3 : BitVec 3} {x4 : BitVec 4} {x5 : BitVec 5} {x6 : BitVec 5} {x7 : BitVec 6} {x8 : Bool}
    (h : w = mixB [⟨2, x0⟩, ⟨2, x1⟩, ⟨4, x2⟩, ⟨3, x3⟩, ⟨4, x4⟩, ⟨5, x5⟩, ⟨5, x6⟩, ⟨6, x7⟩, ⟨1, BitVec.ofBool x8⟩]) :
    fld w 0 2 = x0 ∧ fld w 2 2 = x1 ∧ fld w 4 4 = x2 ∧ fld w 8 3 = x3 ∧ fld w 11 4 = x4 ∧ fld w 15 5 = x5 ∧ fld w 20 5 = x6 ∧ seg w 25 6 = x7.toNat ∧ flag w 31 = x8 := by
  exact ⟨h ▸ fldB [] x0 [⟨2, x1⟩, ⟨4, x2⟩, ⟨3, x3⟩, ⟨4, x4⟩, ⟨5, x5⟩, ⟨5, x6⟩, ⟨6, x7⟩, ⟨1, BitVec.ofBool x8⟩],
    h ▸ fldB [⟨2, x0⟩] x1 [⟨4, x2⟩, ⟨3, x3⟩, ⟨4, x4⟩, ⟨5, x5⟩, ⟨5, x6⟩, ⟨6, x7⟩, ⟨1, BitVec.ofBool x8⟩],
    h ▸ fldB [⟨2, x0⟩, ⟨2, x1⟩] x2 [⟨3, x3⟩, ⟨4, x4⟩, ⟨5, x5⟩, ⟨5, x6⟩, ⟨6, x7⟩, ⟨1, BitVec.ofBool x8⟩],
    h ▸ fldB [⟨2, x0⟩, ⟨2, x1⟩, ⟨4, x2⟩] x3 [⟨4, x4⟩, ⟨5, x5⟩, ⟨5, x6⟩, ⟨6, x7⟩, ⟨1, BitVec.ofBool x8⟩],
    h ▸ fldB [⟨2, x0⟩, ⟨2, x1⟩, ⟨4, x2⟩, ⟨3, x3⟩] x4 [⟨5, x5⟩, ⟨5, x6⟩, ⟨6, x7⟩, ⟨1, BitVec.ofBool x8⟩],
    h ▸ fldB [⟨2, x0⟩, ⟨2, x1⟩, ⟨4, x2⟩, ⟨3, x3⟩, ⟨4, x4⟩] x5 [⟨5, x6⟩, ⟨6, x7⟩, ⟨1, BitVec.ofBool x8⟩],
    h ▸ fldB [⟨2, x0⟩, ⟨2, x1⟩, ⟨4, x2⟩, ⟨3, x3⟩, ⟨4, x4⟩, ⟨5, x5⟩] x6 [⟨6, x7⟩, ⟨1, BitVec.ofBool x8⟩],
    h ▸ segB [⟨2, x0⟩, ⟨2, x1⟩, ⟨4, x2⟩, ⟨3, x3⟩, ⟨4, x4⟩, ⟨5, x5⟩, ⟨5, x6⟩] x7 [⟨1, BitVec.ofBool x8⟩],
    h ▸ flagB [⟨2, x0⟩, ⟨2, x1⟩, ⟨4, x2⟩, ⟨3, x3⟩, ⟨4, x4⟩, ⟨5, x5⟩, ⟨5, x6⟩, ⟨6, x7⟩] x8 []⟩

theorem lay48 {w : Nat} {x0 : BitVec 2} {x1 : BitVec 4} {x2 : BitVec 1} {x3 : BitVec 3} {x4 : BitVec 3} {x5 : BitVec 2} {x6 : BitVec 3} {x7 : BitVec 2} {x8 : BitVec 3} {x9 : BitVec 2} {x10 : BitVec 6} {x11 : Bool}
    (h : w = mixB [⟨2, x0⟩, ⟨4, x1⟩, ⟨1, x2⟩, ⟨3, x3⟩, ⟨3, x4⟩, ⟨2, x5⟩, ⟨3, x6⟩, ⟨2, x7⟩, ⟨3, x8⟩, ⟨2, x9⟩, ⟨6, x10⟩, ⟨1, BitVec.ofBool x11⟩]) :
    seg w 0 2 = x0.toNat ∧ seg w 2 4 = x1.toNat ∧ seg w 6 1 = x2.toNat ∧ seg w 7 3 = x3.toNat ∧ fld w 10 3 = x4 ∧ seg w 13 2 = x5.toNat ∧ fld w 15 3 = x6 ∧ seg w 18 2 = x7.toNat ∧ fld w 20 3 = x8 ∧ seg w 23 2 = x9.toNat ∧ seg w 25 6 = x10.toNat ∧ flag w 31 = x11 := by
  exact ⟨h ▸ segB [] x0 [⟨4, x1⟩, ⟨1, x2⟩, ⟨3, x3⟩, ⟨3, x4⟩, ⟨2, x5⟩, ⟨3, x6⟩, ⟨2, x7⟩, ⟨3, x8⟩, ⟨2, x9⟩, ⟨6, x10⟩, ⟨1, BitVec.ofBool x11⟩],
    h ▸ segB [⟨2, x0⟩] x1 [⟨1, x2⟩, ⟨3, x3⟩, ⟨3, x4⟩, ⟨2, x5⟩, ⟨3, x6⟩, ⟨2, x7⟩, ⟨3, x8⟩, ⟨2, x9⟩, ⟨6, x10⟩, ⟨1, BitVec.ofBool x11⟩],
    h ▸ segB [⟨2, x0⟩, ⟨4, x1⟩] x2 [⟨3, x3⟩, ⟨3, x4⟩, ⟨2, x5⟩, ⟨3, x6⟩, ⟨2, x7⟩, ⟨3, x8⟩, ⟨2, x9⟩, ⟨6, x10⟩, ⟨1, BitVec.ofBool x11⟩],
    h ▸ segB [⟨2, x0⟩, ⟨4, x1⟩, ⟨1, x2⟩] x3 [⟨3, x4⟩, ⟨2, x5⟩, ⟨3, x6⟩, ⟨2, x7⟩, ⟨3, x8⟩, ⟨2, x9⟩, ⟨6, x10⟩, ⟨1, BitVec.ofBool x11⟩],
    h ▸ fldB [⟨2, x0⟩, ⟨4, x1⟩, ⟨1, x2⟩, ⟨3, x3⟩] x4 [⟨2, x5⟩, ⟨3, x6⟩, ⟨2, x7⟩, ⟨3, x8⟩, ⟨2, x9⟩, ⟨6, x10⟩, ⟨1, BitVec.ofBool x11⟩],
    h ▸ segB [⟨2, x0⟩, ⟨4, x1⟩, ⟨1, x2⟩, ⟨3, x3⟩, ⟨3, x4⟩] x5 [⟨3, x6⟩, ⟨2, x7⟩, ⟨3, x8⟩, ⟨2, x9⟩, ⟨6, x10⟩, ⟨1, BitVec.ofBool x11⟩],
    h ▸ fldB [⟨2, x0⟩, ⟨4, x1⟩, ⟨1, x2⟩, ⟨3, x3⟩, ⟨3, x4⟩, ⟨2, x5⟩] x6 [⟨2, x7⟩, ⟨3, x8⟩, ⟨2, x9⟩, ⟨6, x10⟩, ⟨1, BitVec.ofBool x11⟩],
    h ▸ segB [⟨2, x0⟩, ⟨4, x1⟩, ⟨1, x2⟩, ⟨3, x3⟩, ⟨3, x4⟩, ⟨2, x5⟩, ⟨3, x6⟩] x7 [⟨3, x8⟩, ⟨2, x9⟩, ⟨6, x10⟩, ⟨1, BitVec.ofBool x11⟩],
    h ▸ fldB [⟨2, x0⟩, ⟨4, x1⟩, ⟨1, x2⟩, ⟨3, x3⟩, ⟨3, x4⟩, ⟨2, x5⟩, ⟨3, x6⟩, ⟨2, x7⟩] x8 [⟨2, x9⟩, ⟨6, x10⟩, ⟨1, BitVec.ofBool x11⟩],
    h ▸ segB [⟨2, x0⟩, ⟨4, x1⟩, ⟨1, x2⟩, ⟨3, x3⟩, ⟨3, x4⟩, ⟨2, x5⟩, ⟨3, x6⟩, ⟨2, x7⟩, ⟨3, x8⟩] x9 [⟨6, x10⟩, ⟨1, BitVec.ofBool x11⟩],
    h ▸ segB [⟨2, x0⟩, ⟨4, x1⟩, ⟨1, x2⟩, ⟨3, x3⟩, ⟨3, x4⟩, ⟨2, x5⟩, ⟨3, x6⟩, ⟨2, x7⟩, ⟨3, x8⟩, ⟨2, x9⟩] x10 [⟨1, BitVec.ofBool x11⟩],
    h ▸ flagB [⟨2, x0⟩, ⟨4, x1⟩, ⟨1, x2⟩, ⟨3, x3⟩, ⟨3, x4⟩, ⟨2, x5⟩, ⟨3, x6⟩, ⟨2, x7⟩, ⟨3, x8⟩, ⟨2, x9⟩, ⟨6, x10⟩] x11 []⟩

theorem lay49 {w : Nat} {x0 : BitVec 2} {x1 : BitVec 4} {x2 : BitVec 1} {x3 : BitVec 8} {x4 : BitVec 3} {x5 : BitVec 2} {x6 : BitVec 3} {x7 : BitVec 2} {x8 : BitVec 6} {x9 : Bool}
    (h : w = mixB [⟨2, x0⟩, ⟨4, x1⟩, ⟨1, x2⟩, ⟨8, x3⟩, ⟨3, x4⟩, ⟨2, x5⟩, ⟨3, x6⟩, ⟨2, x7⟩, ⟨6, x8⟩, ⟨1, BitVec.ofBool x9⟩]) :
    seg w 0 2 = x0.toNat ∧ seg w 2 4 = x1.toNat ∧ seg w 6 1 = x2.toNat ∧ seg w 7 8 = x3.toNat ∧ fld w 15 3 = x4 ∧ seg w 18 2 = x5.toNat ∧ fld w 20 3 = x6 ∧ seg w 23 2 = x7.toNat ∧ seg w 25 6 = x8.toNat ∧ flag w 31 = x9 := by
  exact ⟨h ▸ segB [] x0 [⟨4, x1⟩, ⟨1, x2⟩, ⟨8, x3⟩, ⟨3, x4⟩, ⟨2, x5⟩, ⟨3, x6⟩, ⟨2, x7⟩, ⟨6, x8⟩, ⟨1, BitVec.ofBool x9⟩],
    h ▸ segB [⟨2, x0⟩] x1 [⟨1, x2⟩, ⟨8, x3⟩, ⟨3, x4⟩, ⟨2, x5⟩, ⟨3, x6⟩, ⟨2, x7⟩, ⟨6, x8⟩, ⟨1, BitVec.ofBool x9⟩],
    h ▸ segB [⟨2, x0⟩, ⟨4, x1⟩] x2 [⟨8, x3⟩, ⟨3, x4⟩, ⟨2, x5⟩, ⟨3, x6⟩, ⟨2, x7⟩, ⟨6, x8⟩, ⟨1, BitVec.ofBool x9⟩],
    h ▸ segB [⟨2, x0⟩, ⟨4, x1⟩, ⟨1, x2⟩] x3 [⟨3, x4⟩, ⟨2, x5⟩, ⟨3, x6⟩, ⟨2, x7⟩, ⟨6, x8⟩, ⟨1, BitVec.ofBool x9⟩],
    h ▸ fldB [⟨2, x0⟩, ⟨4, x1⟩, ⟨1, x2⟩, ⟨8, x3⟩] x4 [⟨2, x5⟩, ⟨3, x6⟩, ⟨2, x7⟩, ⟨6, x8⟩, ⟨1, BitVec.ofBool x9⟩],
    h ▸ segB [⟨2, x0⟩, ⟨4, x1⟩, ⟨1, x2⟩, ⟨8, x3⟩, ⟨3, x4⟩] x5 [⟨3, x6⟩, ⟨2, x7⟩, ⟨6, x8⟩, ⟨1, BitVec.ofBool x9⟩],
    h ▸ fldB [⟨2, x0⟩, ⟨4, x1⟩, ⟨1, x2⟩, ⟨8, x3⟩, ⟨3, x4⟩, ⟨2, x5⟩] x6 [⟨2, x7⟩, ⟨6, x8⟩, ⟨1, BitVec.ofBool x9⟩],
    h ▸ segB [⟨2, x0⟩, ⟨4, x1⟩, ⟨1, x2⟩, ⟨8, x3⟩, ⟨3, x4⟩, ⟨2, x5⟩, ⟨3, x6⟩] x7 [⟨6, x8⟩, ⟨1, BitVec.ofBool x9⟩],
    h ▸ segB [⟨2, x0⟩, ⟨4, x1⟩, ⟨1, x2⟩, ⟨8, x3⟩, ⟨3, x4⟩, ⟨2, x5⟩, ⟨3, x6⟩, ⟨2, x7⟩] x8 [⟨1, BitVec.ofBool x9⟩],
    h ▸ flagB [⟨2, x0⟩, ⟨4, x1⟩, ⟨1, x2⟩, ⟨8, x3⟩, ⟨3, x4⟩, ⟨2, x5⟩, ⟨3, x6⟩, ⟨2, x7⟩, ⟨6, x8⟩] x9 []⟩

theorem lay50 {w : Nat} {x0 : BitVec 2} {x1 : BitVec 4} {x2 : BitVec 1} {x3 : BitVec 3} {x4 : BitVec 5} {x5 : BitVec 5} {x6 : BitVec 5} {x7 : BitVec 6} {x8 : Bool}
    (h : w = mixB [⟨2, x0⟩, ⟨4, x1⟩, ⟨1, x2⟩, ⟨3, x3⟩, ⟨5, x4⟩, ⟨5, x5⟩, ⟨5, x6⟩, ⟨6, x7⟩, ⟨1, BitVec.ofBool x8⟩]) :
    seg w 0 2 = x0.toNat ∧ seg w 2 4 = x1.toNat ∧ seg w 6 1 = x2.toNat ∧ fld w 7 3 = x3 ∧ fld w 10 5 = x4 ∧ fld w 15 5 = x5 ∧ fld w 20 5 = x6 ∧ seg w 25 6 = x7.toNat ∧ flag w 31 = x8 := by
  exact ⟨h ▸ segB [] x0 [⟨4, x1⟩, ⟨1, x2⟩, ⟨3, x3⟩, ⟨5, x4⟩, ⟨5, x5⟩, ⟨5, x6⟩, ⟨6, x7⟩, ⟨1, BitVec.ofBool x8⟩],
    h ▸ segB [⟨2, x0⟩] x1 [⟨1, x2⟩, ⟨3, x3⟩, ⟨5, x4⟩, ⟨5, x5⟩, ⟨5, x6⟩, ⟨6, x7⟩, ⟨1, BitVec.ofBool x8⟩],
    h ▸ segB [⟨2, x0⟩, ⟨4, x1⟩] x2 [⟨3, x3⟩, ⟨5, x4⟩, ⟨5, x5⟩, ⟨5, x6⟩, ⟨6, x7⟩, ⟨1, BitVec.ofBool x8⟩],
    h ▸ fldB [⟨2, x0⟩, ⟨4, x1⟩, ⟨1, x2⟩] x3 [⟨5, x4⟩, ⟨5, x5⟩, ⟨5, x6⟩, ⟨6, x7⟩, ⟨1, BitVec.ofBool x8⟩],
    h ▸ fldB [⟨2, x0⟩, ⟨4, x1⟩, ⟨1, x2⟩, ⟨3, x3⟩] x4 [⟨5, x5⟩, ⟨5, x6⟩, ⟨6, x7⟩, ⟨1, BitVec.ofBool x8⟩],
    h ▸ fldB [⟨2, x0⟩, ⟨4, x1⟩, ⟨1, x2⟩, ⟨3, x3⟩, ⟨5, x4⟩] x5 [⟨5, x6⟩, ⟨6, x7⟩, ⟨1, BitVec.ofBool x8⟩],
    h ▸ fldB [⟨2, x0⟩, ⟨4, x1⟩, ⟨1, x2⟩, ⟨3, x3⟩, ⟨5, x4⟩, ⟨5, x5⟩] x6 [⟨6, x7⟩, ⟨1, BitVec.ofBool x8⟩],
    h ▸ segB [⟨2, x0⟩, ⟨4, x1⟩, ⟨1, x2⟩, ⟨3, x3⟩, ⟨5, x4⟩, ⟨5, x5⟩, ⟨5, x6⟩] x7 [⟨1, BitVec.ofBool x8⟩],
    h ▸ flagB [⟨2, x0⟩, ⟨4, x1⟩, ⟨1, x2⟩, ⟨3, x3⟩, ⟨5, x4⟩, ⟨5, x5⟩, ⟨5, x6⟩, ⟨6, x7⟩] x8 []⟩

theorem lay51 {w : Nat} {x0 : BitVec 2} {x1 : BitVec 4} {x2 : BitVec 1} {x3 : BitVec 3} {x4 : BitVec 5} {x5 : BitVec 5} {x6 : BitVec 5} {x7 : BitVec 6} {x8 : Bool}
    (h : w = mixB [⟨2, x0⟩, ⟨4, x1⟩, ⟨1, x2⟩, ⟨3, x3⟩, ⟨5, x4⟩, ⟨5, x5⟩, ⟨5, x6⟩, ⟨6, x7⟩, ⟨1, BitVec.ofBool x8⟩]) :
    fld w 0 2 = x0 ∧ seg w 2 4 = x1.toNat ∧ seg w 6 1 = x2.toNat ∧ fld w 7 3 = x3 ∧ seg w 10 5 = x4.toNat ∧ fld w 15 5 = x5 ∧ fld w 20 5 = x6 ∧ seg w 25 6 = x7.toNat ∧ flag w 31 = x8 := by
  exact ⟨h ▸ fldB [] x0 [⟨4, x1⟩, ⟨1, x2⟩, ⟨3, x3⟩, ⟨5, x4⟩, ⟨5, x5⟩, ⟨5, x6⟩, ⟨6, x7⟩, ⟨1, BitVec.ofBool x8⟩],
    h ▸ segB [⟨2, x0⟩] x1 [⟨1, x2⟩, ⟨3, x3⟩, ⟨5, x4⟩, ⟨5, x5⟩, ⟨5, x6⟩, ⟨6, x7⟩, ⟨1, BitVec.ofBool x8⟩],
    h ▸ segB [⟨2, x0⟩, ⟨4, x1⟩] x2 [⟨3, x3⟩, ⟨5, x4⟩, ⟨5, x5⟩, ⟨5, x6⟩, ⟨6, x7⟩, ⟨1, BitVec.ofBool x8⟩],
    h ▸ fldB [⟨2, x0⟩, ⟨4, x1⟩, ⟨1, x2⟩] x3 [⟨5, x4⟩, ⟨5, x5⟩, ⟨5, x6⟩, ⟨6, x7⟩, ⟨1, BitVec.ofBool x8⟩],
    h ▸ segB [⟨2, x0⟩, ⟨4, x1⟩, ⟨1, x2⟩, ⟨3, x3⟩] x4 [⟨5, x5⟩, ⟨5, x6⟩, ⟨6, x7⟩, ⟨1, BitVec.ofBool x8⟩],
    h ▸ fldB [⟨2, x0⟩, ⟨4, x1⟩, ⟨1, x2⟩, ⟨3, x3⟩, ⟨5, x4⟩] x5 [⟨5, x6⟩, ⟨6, x7⟩, ⟨1, BitVec.ofBool x8⟩],
    h ▸ fldB [⟨2, x0⟩, ⟨4, x1⟩, ⟨1, x2⟩, ⟨3, x3⟩, ⟨5, x4⟩, ⟨5, x5⟩] x6 [⟨6, x7⟩, ⟨1, BitVec.ofBool x8⟩],
    h ▸ segB [⟨2, x0⟩, ⟨4, x1⟩, ⟨1, x2⟩, ⟨3, x3⟩, ⟨5, x4⟩, ⟨5, x5⟩, ⟨5, x6⟩] x7 [⟨1, BitVec.ofBool x8⟩],
    h ▸ flagB [⟨2, x0⟩, ⟨4, x1⟩, ⟨1, x2⟩, ⟨3, x3⟩, ⟨5, x4⟩, ⟨5, x5⟩, ⟨5, x6⟩, ⟨6, x7⟩] x8 []⟩

theorem lay52 {w : Nat} {x0 : BitVec 3} {x1 : BitVec 3} {x2 : BitVec 1} {x3 : BitVec 3} {x4 : BitVec 5} {x5 : BitVec 5} {x6 : BitVec 3} {x7 : BitVec 2} {x8 : BitVec 6} {x9 : Bool}
    (h : w = mixB [⟨3, x0⟩, ⟨3, x1⟩, ⟨1, x2⟩, ⟨3, x3⟩, ⟨5, x4⟩, ⟨5, x5⟩, ⟨3, x6⟩, ⟨2, x7⟩, ⟨6, x8⟩, ⟨1, BitVec.ofBool x9⟩]) :
    fld w 0 3 = x0 ∧ fld w 3 3 = x1 ∧ seg w 6 1 = x2.toNat ∧ fld w 7 3 = x3 ∧ fld w 10 5 = x4 ∧ fld w 15 5 = x5 ∧ fld w 20 3 = x6 ∧ seg w 23 2 = x7.toNat ∧ seg w 25 6 = x8.toNat ∧ flag w 31 = x9 := by
  exact ⟨h ▸ fldB [] x0 [⟨3, x1⟩, ⟨1, x2⟩, ⟨3, x3⟩, ⟨5, x4⟩, ⟨5, x5⟩, ⟨3, x6⟩, ⟨2, x7⟩, ⟨6, x8⟩, ⟨1, BitVec.ofBool x9⟩],
    h ▸ fldB [⟨3, x0⟩] x1 [⟨1, x2⟩, ⟨3, x3⟩, ⟨5, x4⟩, ⟨5, x5⟩, ⟨3, x6⟩, ⟨2, x7⟩, ⟨6, x8⟩, ⟨1, BitVec.ofBool x9⟩],
    h ▸ segB [⟨3, x0⟩, ⟨3, x1⟩] x2 [⟨3, x3⟩, ⟨5, x4⟩, ⟨5, x5⟩, ⟨3, x6⟩, ⟨2, x7⟩, ⟨6, x8⟩, ⟨1, BitVec.ofBool x9⟩],
    h ▸ fldB [⟨3, x0⟩, ⟨3, x1⟩, ⟨1, x2⟩] x3 [⟨5, x4⟩, ⟨5, x5⟩, ⟨3, x6⟩, ⟨2, x7⟩, ⟨6, x8⟩, ⟨1, BitVec.ofBool x9⟩],
    h ▸ fldB [⟨3, x0⟩, ⟨3, x1⟩, ⟨1, x2⟩, ⟨3, x3⟩] x4 [⟨5, x5⟩, ⟨3, x6⟩, ⟨2, x7⟩, ⟨6, x8⟩, ⟨1, BitVec.ofBool x9⟩],
    h ▸ fldB [⟨3, x0⟩, ⟨3, x1⟩, ⟨1, x2⟩, ⟨3, x3⟩, ⟨5, x4⟩] x5 [⟨3, x6⟩, ⟨2, x7⟩, ⟨6, x8⟩, ⟨1, BitVec.ofBool x9⟩],
    h ▸ fldB [⟨3, x0⟩, ⟨3, x1⟩, ⟨1, x2⟩, ⟨3, x3⟩, ⟨5, x4⟩, ⟨5, x5⟩] x6 [⟨2, x7⟩, ⟨6, x8⟩, ⟨1, BitVec.ofBool x9⟩],
    h ▸ segB [⟨3, x0⟩, ⟨3, x1⟩, ⟨1, x2⟩, ⟨3, x3⟩, ⟨5, x4⟩, ⟨5, x5⟩, ⟨3, x6⟩] x7 [⟨6, x8⟩, ⟨1, BitVec.ofBool x9⟩],
    h ▸ segB [⟨3, x0⟩, ⟨3, x1⟩, ⟨1, x2⟩, ⟨3, x3⟩, ⟨5, x4⟩, ⟨5, x5⟩, ⟨3, x6⟩, ⟨2, x7⟩] x8 [⟨1, BitVec.ofBool x9⟩],
    h ▸ flagB [⟨3, x0⟩, ⟨3, x1⟩, ⟨1, x2⟩, ⟨3, x3⟩, ⟨5, x4⟩, ⟨5, x5⟩, ⟨3, x6⟩, ⟨2, x7⟩, ⟨6, x8⟩] x9 []⟩

theorem lay53 {w : Nat} {x0 : BitVec 2} {x1 : BitVec 4} {x2 : BitVec 2} {x3 : BitVec 3} {x4 : BitVec 4} {x5 : BitVec 3} {x6 : BitVec 7} {x7 : BitVec 6} {x8 : Bool}
    (h : w = mixB [⟨2, x0⟩, ⟨4, x1⟩, ⟨2, x2⟩, ⟨3, x3⟩, ⟨4, x4⟩, ⟨3, x5⟩, ⟨7, x6⟩, ⟨6, x7⟩, ⟨1, BitVec.ofBool x8⟩]) :
    seg w 0 2 = x0.toNat ∧ seg w 2 4 = x1.toNat ∧ seg w 6 2 = x2.toNat ∧ fld w 8 3 = x3 ∧ fld w 11 4 = x4 ∧ fld w 15 3 = x5 ∧ seg w 18 7 = x6.toNat ∧ seg w 25 6 = x7.toNat ∧ flag w 31 = x8 := by
  exact ⟨h ▸ segB [] x0 [⟨4, x1⟩, ⟨2, x2⟩, ⟨3, x3⟩, ⟨4, x4⟩, ⟨3, x5⟩, ⟨7, x6⟩, ⟨6, x7⟩, ⟨1, BitVec.ofBool x8⟩],
    h ▸ segB [⟨2, x0⟩] x1 [⟨2, x2⟩, ⟨3, x3⟩, ⟨4, x4⟩, ⟨3, x5⟩, ⟨7, x6⟩, ⟨6, x7⟩, ⟨1, BitVec.ofBool x8⟩],
    h ▸ segB [⟨2, x0⟩, ⟨4, x1⟩] x2 [⟨3, x3⟩, ⟨4, x4⟩, ⟨3, x5⟩, ⟨7, x6⟩, ⟨6, x7⟩, ⟨1, BitVec.ofBool x8⟩],
    h ▸ fldB [⟨2, x0⟩, ⟨4, x1⟩, ⟨2, x2⟩] x3 [⟨4, x4⟩, ⟨3, x5⟩, ⟨7, x6⟩, ⟨6, x7⟩, ⟨1, BitVec.ofBool x8⟩],
    h ▸ fldB [⟨2, x0⟩, ⟨4, x1⟩, ⟨2, x2⟩, ⟨3, x3⟩] x4 [⟨3, x5⟩, ⟨7, x6⟩, ⟨6, x7⟩, ⟨1, BitVec.ofBool x8⟩],
    h ▸ fldB [⟨2, x0⟩, ⟨4, x1⟩, ⟨2, x2⟩, ⟨3, x3⟩, ⟨4, x4⟩] x5 [⟨7, x6⟩, ⟨6, x7⟩, ⟨1, BitVec.ofBool x8⟩],
    h ▸ segB [⟨2, x0⟩, ⟨4, x1⟩, ⟨2, x2⟩, ⟨3, x3⟩, ⟨4, x4⟩, ⟨3, x5⟩] x6 [⟨6, x7⟩, ⟨1, BitVec.ofBool x8⟩],
    h ▸ segB [⟨2, x0⟩, ⟨4, x1⟩, ⟨2, x2⟩, ⟨3, x3⟩, ⟨4, x4⟩, ⟨3, x5⟩, ⟨7, x6⟩] x7 [⟨1, BitVec.ofBool x8⟩],
    h ▸ flagB [⟨2, x0⟩, ⟨4, x1⟩, ⟨2, x2⟩, ⟨3, x3⟩, ⟨4, x4⟩, ⟨3, x5⟩, ⟨7, x6⟩, ⟨6, x7⟩] x8 []⟩

theorem lay54 {w : Nat} {x0 : BitVec 2} {x1 : BitVec 4} {x2 : BitVec 2} {x3 : BitVec 3} {x4 : BitVec 4} {x5 : BitVec 5} {x6 : BitVec 5} {x7 : BitVec 6} {x8 : Bool}
    (h : w = mixB [⟨2, x0⟩, ⟨4, x1⟩, ⟨2, x2⟩, ⟨3, x3⟩, ⟨4, x4⟩, ⟨5, x5⟩, ⟨5, x6⟩, ⟨6, x7⟩, ⟨1, BitVec.ofBool x8⟩]) :
    seg w 0 2 = x0.toNat ∧ seg w 2 4 = x1.toNat ∧ seg w 6 2 = x2.toNat ∧ fld w 8 3 = x3 ∧ fld w 11 4 = x4 ∧ seg w 15 5 = x5.toNat ∧ fld w 20 5 = x6 ∧ seg w 25 6 = x7.toNat ∧ flag w 31 = x8 := by
  exact ⟨h ▸ segB [] x0 [⟨4, x1⟩, ⟨2, x2⟩, ⟨3, x3⟩, ⟨4, x4⟩, ⟨5, x5⟩, ⟨5, x6⟩, ⟨6, x7⟩, ⟨1, BitVec.ofBool x8⟩],
    h ▸ segB [⟨2, x0⟩] x1 [⟨2, x2⟩, ⟨3, x3⟩, ⟨4, x4⟩, ⟨5, x5⟩, ⟨5, x6⟩, ⟨6, x7⟩, ⟨1, BitVec.ofBool x8⟩],
    h ▸ segB [⟨2, x0⟩, ⟨4, x1⟩] x2 [⟨3, x3⟩, ⟨4, x4⟩, ⟨5, x5⟩, ⟨5, x6⟩, ⟨6, x7⟩, ⟨1, BitVec.ofBool x8⟩],
    h ▸ fldB [⟨2, x0⟩, ⟨4, x1⟩, ⟨2, x2⟩] x3 [⟨4, x4⟩, ⟨5, x5⟩, ⟨5, x6⟩, ⟨6, x7⟩, ⟨1, BitVec.ofBool x8⟩],
    h ▸ fldB [⟨2, x0⟩, ⟨4, x1⟩, ⟨2, x2⟩, ⟨3, x3⟩] x4 [⟨5, x5⟩, ⟨5, x6⟩, ⟨6, x7⟩, ⟨1, BitVec.ofBool x8⟩],
    h ▸ segB [⟨2, x0⟩, ⟨4, x1⟩, ⟨2, x2⟩, ⟨3, x3⟩, ⟨4, x4⟩] x5 [⟨5, x6⟩, ⟨6, x7⟩, ⟨1, BitVec.ofBool x8⟩],
    h ▸ fldB [⟨2, x0⟩, ⟨4, x1⟩, ⟨2, x2⟩, ⟨3, x3⟩, ⟨4, x4⟩, ⟨5, x5⟩] x6 [⟨6, x7⟩, ⟨1, BitVec.ofBool x8⟩],
    h ▸ segB [⟨2, x0⟩, ⟨4, x1⟩, ⟨2, x2⟩, ⟨3, x3⟩, ⟨4, x4⟩, ⟨5, x5⟩, ⟨5, x6⟩] x7 [⟨1, BitVec.ofBool x8⟩],
    h ▸ flagB [⟨2, x0⟩, ⟨4, x1⟩, ⟨2, x2⟩, ⟨3, x3⟩, ⟨4, x4⟩, ⟨5, x5⟩, ⟨5, x6⟩, ⟨6, x7⟩] x8 []⟩

theorem lay55 {w : Nat} {x0 : BitVec 2} {x1 : BitVec 4} {x2 : BitVec 2} {x3 : BitVec 3} {x4 : BitVec 4} {x5 : BitVec 5} {x6 : BitVec 5} {x7 : BitVec 6} {x8 : Bool}
    (h : w = mixB [⟨2, x0⟩, ⟨4, x1⟩, ⟨2, x2⟩, ⟨3, x3⟩, ⟨4, x4⟩, ⟨5, x5⟩, ⟨5, x6⟩, ⟨6, x7⟩, ⟨1, BitVec.ofBool x8⟩]) :
    seg w 0 2 = x0.toNat ∧ seg w 2 4 = x1.toNat ∧ seg w 6 2 = x2.toNat ∧ fld w 8 3 = x3 ∧ fld w 11 4 = x4 ∧ fld w 15 5 = x5 ∧ fld w 20 5 = x6 ∧ seg w 25 6 = x7.toNat ∧ flag w 31 = x8 := by
  exact ⟨h ▸ segB [] x0 [⟨4, x1⟩, ⟨2, x2⟩, ⟨3, x3⟩, ⟨4, x4⟩, ⟨5, x5⟩, ⟨5, x6⟩, ⟨6, x7⟩, ⟨1, BitVec.ofBool x8⟩],
    h ▸ segB [⟨2, x0⟩] x1 [⟨2, x2⟩, ⟨3, x3⟩, ⟨4, x4⟩, ⟨5, x5⟩, ⟨5, x6⟩, ⟨6, x7⟩, ⟨1, BitVec.ofBool x8⟩],
    h ▸ segB [⟨2, x0⟩, ⟨4, x1⟩] x2 [⟨3, x3⟩, ⟨4, x4⟩, ⟨5, x5⟩, ⟨5, x6⟩, ⟨6, x7⟩, ⟨1, BitVec.ofBool x8⟩],
    h ▸ fldB [⟨2, x0⟩, ⟨4, x1⟩, ⟨2, x2⟩] x3 [⟨4, x4⟩, ⟨5, x5⟩, ⟨5, x6⟩, ⟨6, x7⟩, ⟨1, BitVec.ofBool x8⟩],
    h ▸ fldB [⟨2, x0⟩, ⟨4, x1⟩, ⟨2, x2⟩, ⟨3, x3⟩] x4 [⟨5, x5⟩, ⟨5, x6⟩, ⟨6, x7⟩, ⟨1, BitVec.ofBool x8⟩],
    h ▸ fldB [⟨2, x0⟩, ⟨4, x1⟩, ⟨2, x2⟩, ⟨3, x3⟩, ⟨4, x4⟩] x5 [⟨5, x6⟩, ⟨6, x7⟩, ⟨1, BitVec.ofBool x8⟩],
    h ▸ fldB [⟨2, x0⟩, ⟨4, x1⟩, ⟨2, x2⟩, ⟨3, x3⟩, ⟨4, x4⟩, ⟨5, x5⟩] x6 [⟨6, x7⟩, ⟨1, BitVec.ofBool x8⟩],
    h ▸ segB [⟨2, x0⟩, ⟨4, x1⟩, ⟨2, x2⟩, ⟨3, x3⟩, ⟨4, x4⟩, ⟨5, x5⟩, ⟨5, x6⟩] x7 [⟨1, BitVec.ofBool x8⟩],
    h ▸ flagB [⟨2, x0⟩, ⟨4, x1⟩, ⟨2, x2⟩, ⟨3, x3⟩, ⟨4, x4⟩, ⟨5, x5⟩, ⟨5, x6⟩, ⟨6, x7⟩] x8 []⟩

theorem lay56 {w : Nat} {x0 : BitVec 2} {x1 : BitVec 4} {x2 : BitVec 2} {x3 : BitVec 3} {x4 : BitVec 4} {x5 : BitVec 5} {x6 : BitVec 5} {x7 : BitVec 6} {x8 : Bool}
    (h : w = mixB [⟨2, x0⟩, ⟨4, x1⟩, ⟨2, x2⟩, ⟨3, x3⟩, ⟨4, x4⟩, ⟨5, x5⟩, ⟨5, x6⟩, ⟨6, x7⟩, ⟨1, BitVec.ofBool x8⟩]) :
    fld w 0 2 = x0 ∧ seg w 2 4 = x1.toNat ∧ seg w 6 2 = x2.toNat ∧ fld w 8 3 = x3 ∧ seg w 11 4 = x4.toNat ∧ fld w 15 5 = x5 ∧ fld w 20 5 = x6 ∧ seg w 25 6 = x7.toNat ∧ flag w 31 = x8 := by
  exact ⟨h ▸ fldB [] x0 [⟨4, x1⟩, ⟨2, x2⟩, ⟨3, x3⟩, ⟨4, x4⟩, ⟨5, x5⟩, ⟨5, x6⟩, ⟨6, x7⟩, ⟨1, BitVec.ofBool x8⟩],
    h ▸ segB [⟨2, x0⟩] x1 [⟨2, x2⟩, ⟨3, x3⟩, ⟨4, x4⟩, ⟨5, x5⟩, ⟨5, x6⟩, ⟨6, x7⟩, ⟨1, BitVec.ofBool x8⟩],
    h ▸ segB [⟨2, x0⟩, ⟨4, x1⟩] x2 [⟨3, x3⟩, ⟨4, x4⟩, ⟨5, x5⟩, ⟨5, x6⟩, ⟨6, x7⟩, ⟨1, BitVec.ofBool x8⟩],
    h ▸ fldB [⟨2, x0⟩, ⟨4, x1⟩, ⟨2, x2⟩] x3 [⟨4, x4⟩, ⟨5, x5⟩, ⟨5, x6⟩, ⟨6, x7⟩, ⟨1, BitVec.ofBool x8⟩],
    h ▸ segB [⟨2, x0⟩, ⟨4, x1⟩, ⟨2, x2⟩, ⟨3, x3⟩] x4 [⟨5, x5⟩, ⟨5, x6⟩, ⟨6, x7⟩, ⟨1, BitVec.ofBool x8⟩],
    h ▸ fldB [⟨2, x0⟩, ⟨4, x1⟩, ⟨2, x2⟩, ⟨3, x3⟩, ⟨4, x4⟩] x5 [⟨5, x6⟩, ⟨6, x7⟩, ⟨1, BitVec.ofBool x8⟩],
    h ▸ fldB [⟨2, x0⟩, ⟨4, x1⟩, ⟨2, x2⟩, ⟨3, x3⟩, ⟨4, x4⟩, ⟨5, x5⟩] x6 [⟨6, x7⟩, ⟨1, BitVec.ofBool x8⟩],
    h ▸ segB [⟨2, x0⟩, ⟨4, x1⟩, ⟨2, x2⟩, ⟨3, x3⟩, ⟨4, x4⟩, ⟨5, x5⟩, ⟨5, x6⟩] x7 [⟨1, BitVec.ofBool x8⟩],
    h ▸ flagB [⟨2, x0⟩, ⟨4, x1⟩, ⟨2, x2⟩, ⟨3, x3⟩, ⟨4, x4⟩, ⟨5, x5⟩, ⟨5, x6⟩, ⟨6, x7⟩] x8 []⟩

theorem lay57 {w : Nat} {x0 : BitVec 2} {x1 : BitVec 4} {x2 : BitVec 2} {x3 : BitVec 3} {x4 : BitVec 4} {x5 : BitVec 5} {x6 : BitVec 5} {x7 : BitVec 6} {x8 : Bool}
    (h : w = mixB [⟨2, x0⟩, ⟨4, x1⟩, ⟨2, x2⟩, ⟨3, x3⟩, ⟨4, x4⟩, ⟨5, x5⟩, ⟨5, x6⟩, ⟨6, x7⟩, ⟨1, BitVec.ofBool x8⟩]) :
    fld w 0 2 = x0 ∧ fld w 2 4 = x1 ∧ seg w 6 2 = x2.toNat ∧ seg w 8 3 = x3.toNat ∧ fld w 11 4 = x4 ∧ fld w 15 5 = x5 ∧ seg w 20 5 = x6.toNat ∧ seg w 25 6 = x7.toNat ∧ flag w 31 = x8 := by
  exact ⟨h ▸ fldB [] x0 [⟨4, x1⟩, ⟨2, x2⟩, ⟨3, x3⟩, ⟨4, x4⟩, ⟨5, x5⟩, ⟨5, x6⟩, ⟨6, x7⟩, ⟨1, BitVec.ofBool x8⟩],
    h ▸ fldB [⟨2, x0⟩] x1 [⟨2, x2⟩, ⟨3, x3⟩, ⟨4, x4⟩, ⟨5, x5⟩, ⟨5, x6⟩, ⟨6, x7⟩, ⟨1, BitVec.ofBool x8⟩],
    h ▸ segB [⟨2, x0⟩, ⟨4, x1⟩] x2 [⟨3, x3⟩, ⟨4, x4⟩, ⟨5, x5⟩, ⟨5, x6⟩, ⟨6, x7⟩, ⟨1, BitVec.ofBool x8⟩],
    h ▸ segB [⟨2, x0⟩, ⟨4, x1⟩, ⟨2, x2⟩] x3 [⟨4, x4⟩, ⟨5, x5⟩, ⟨5, x6⟩, ⟨6, x7⟩, ⟨1, BitVec.ofBool x8⟩],
    h ▸ fldB [⟨2, x0⟩, ⟨4, x1⟩, ⟨2, x2⟩, ⟨3, x3⟩] x4 [⟨5, x5⟩, ⟨5, x6⟩, ⟨6, x7⟩, ⟨1, BitVec.ofBool x8⟩],
    h ▸ fldB [⟨2, x0⟩, ⟨4, x1⟩, ⟨2, x2⟩, ⟨3, x3⟩, ⟨4, x4⟩] x5 [⟨5, x6⟩, ⟨6, x7⟩, ⟨1, BitVec.ofBool x8⟩],
    h ▸ segB [⟨2, x0⟩, ⟨4, x1⟩, ⟨2, x2⟩, ⟨3, x3⟩, ⟨4, x4⟩, ⟨5, x5⟩] x6 [⟨6, x7⟩, ⟨1, BitVec.ofBool x8⟩],
    h ▸ segB [⟨2, x0⟩, ⟨4, x1⟩, ⟨2, x2⟩, ⟨3, x3⟩, ⟨4, x4⟩, ⟨5, x5⟩, ⟨5, x6⟩] x7 [⟨1, BitVec.ofBool x8⟩],
    h ▸ flagB [⟨2, x0⟩, ⟨4, x1⟩, ⟨2, x2⟩, ⟨3, x3⟩, ⟨4, x4⟩, ⟨5, x5⟩, ⟨5, x6⟩, ⟨6, x7⟩] x8 []⟩

theorem lay58 {w : Nat} {x0 : BitVec 2} {x1 : BitVec 4} {x2 : BitVec 2} {x3 : BitVec 3} {x4 : BitVec 4} {x5 : BitVec 5} {x6 : BitVec 5} {x7 : BitVec 6} {x8 : Bool}
    (h : w = mixB [⟨2, x0⟩, ⟨4, x1⟩, ⟨2, x2⟩, ⟨3, x3⟩, ⟨4, x4⟩, ⟨5, x5⟩, ⟨5, x6⟩, ⟨6, x7⟩, ⟨1, BitVec.ofBool x8⟩]) :
    fld w 0 2 = x0 ∧ seg w 2 4 = x1.toNat ∧ seg w 6 2 = x2.toNat ∧ seg w 8 3 = x3.toNat ∧ fld w 11 4 = x4 ∧ fld w 15 5 = x5 ∧ fld w 20 5 = x6 ∧ seg w 25 6 = x7.toNat ∧ flag w 31 = x8 := by
  exact ⟨h ▸ fldB [] x0 [⟨4, x1⟩, ⟨2, x2⟩, ⟨3, x3⟩, ⟨4, x4⟩, ⟨5, x5⟩, ⟨5, x6⟩, ⟨6, x7⟩, ⟨1, BitVec.ofBool x8⟩],
    h ▸ segB [⟨2, x0⟩] x1 [⟨2, x2⟩, ⟨3, x3⟩, ⟨4, x4⟩, ⟨5, x5⟩, ⟨5, x6⟩, ⟨6, x7⟩, ⟨1, BitVec.ofBool x8⟩],
    h ▸ segB [⟨2, x0⟩, ⟨4, x1⟩] x2 [⟨3, x3⟩, ⟨4, x4⟩, ⟨5, x5⟩, ⟨5, x6⟩, ⟨6, x7⟩, ⟨1, BitVec.ofBool x8⟩],
    h ▸ segB [⟨2, x0⟩, ⟨4, x1⟩, ⟨2, x2⟩] x3 [⟨4, x4⟩, ⟨5, x5⟩, ⟨5, x6⟩, ⟨6, x7⟩, ⟨1, BitVec.ofBool x8⟩],
    h ▸ fldB [⟨2, x0⟩, ⟨4, x1⟩, ⟨2, x2⟩, ⟨3, x3⟩] x4 [⟨5, x5⟩, ⟨5, x6⟩, ⟨6, x7⟩, ⟨1, BitVec.ofBool x8⟩],
    h ▸ fldB [⟨2, x0⟩, ⟨4, x1⟩, ⟨2, x2⟩, ⟨3, x3⟩, ⟨4, x4⟩] x5 [⟨5, x6⟩, ⟨6, x7⟩, ⟨1, BitVec.ofBool x8⟩],
    h ▸ fldB [⟨2, x0⟩, ⟨4, x1⟩, ⟨2, x2⟩, ⟨3, x3⟩, ⟨4, x4⟩, ⟨5, x5⟩] x6 [⟨6, x7⟩, ⟨1, BitVec.ofBool x8⟩],
    h ▸ segB [⟨2, x0⟩, ⟨4, x1⟩, ⟨2, x2⟩, ⟨3, x3⟩, ⟨4, x4⟩, ⟨5, x5⟩, ⟨5, x6⟩] x7 [⟨1, BitVec.ofBool x8⟩],
    h ▸ flagB [⟨2, x0⟩, ⟨4, x1⟩, ⟨2, x2⟩, ⟨3, x3⟩, ⟨4, x4⟩, ⟨5, x5⟩, ⟨5, x6⟩, ⟨6, x7⟩] x8 []⟩

theorem lay59 {w : Nat} {x0 : BitVec 7} {x1 : BitVec 3} {x2 : BitVec 4} {x3 : BitVec 1} {x4 : BitVec 5} {x5 : BitVec 2} {x6 : BitVec 3} {x7 : BitVec 6} {x8 : Bool}
    (h : w = mixB [⟨7, x0⟩, ⟨3, x1⟩, ⟨4, x2⟩, ⟨1, x3⟩, ⟨5, x4⟩, ⟨2, x5⟩, ⟨3, x6⟩, ⟨6, x7⟩, ⟨1, BitVec.ofBool x8⟩]) :
    seg w 0 7 = x0.toNat ∧ fld w 7 3 = x1 ∧ fld w 10 4 = x2 ∧ seg w 14 1 = x3.toNat ∧ fld w 15 5 = x4 ∧ fld w 20 2 = x5 ∧ seg w 22 3 = x6.toNat ∧ seg w 25 6 = x7.toNat ∧ flag w 31 = x8 := by
  exact ⟨h ▸ segB [] x0 [⟨3, x1⟩, ⟨4, x2⟩, ⟨1, x3⟩, ⟨5, x4⟩, ⟨2, x5⟩, ⟨3, x6⟩, ⟨6, x7⟩, ⟨1, BitVec.ofBool x8⟩],
    h ▸ fldB [⟨7, x0⟩] x1 [⟨4, x2⟩, ⟨1, x3⟩, ⟨5, x4⟩, ⟨2, x5⟩, ⟨3, x6⟩, ⟨6, x7⟩, ⟨1, BitVec.ofBool x8⟩],
    h ▸ fldB [⟨7, x0⟩, ⟨3, x1⟩] x2 [⟨1, x3⟩, ⟨5, x4⟩, ⟨2, x5⟩, ⟨3, x6⟩, ⟨6, x7⟩, ⟨1, BitVec.ofBool x8⟩],
    h ▸ segB [⟨7, x0⟩, ⟨3, x1⟩, ⟨4, x2⟩] x3 [⟨5, x4⟩, ⟨2, x5⟩, ⟨3, x6⟩, ⟨6, x7⟩, ⟨1, BitVec.ofBool x8⟩],
    h ▸ fldB [⟨7, x0⟩, ⟨3, x1⟩, ⟨4, x2⟩, ⟨1, x3⟩] x4 [⟨2, x5⟩, ⟨3, x6⟩, ⟨6, x7⟩, ⟨1, BitVec.ofBool x8⟩],
    h ▸ fldB [⟨7, x0⟩, ⟨3, x1⟩, ⟨4, x2⟩, ⟨1, x3⟩, ⟨5, x4⟩] x5 [⟨3, x6⟩, ⟨6, x7⟩, ⟨1, BitVec.ofBool x8⟩],
    h ▸ segB [⟨7, x0⟩, ⟨3, x1⟩, ⟨4, x2⟩, ⟨1, x3⟩, ⟨5, x4⟩, ⟨2, x5⟩] x6 [⟨6, x7⟩, ⟨1, BitVec.ofBool x8⟩],
    h ▸ segB [⟨7, x0⟩, ⟨3, x1⟩, ⟨4, x2⟩, ⟨1, x3⟩, ⟨5, x4⟩, ⟨2, x5⟩, ⟨3, x6⟩] x7 [⟨1, BitVec.ofBool x8⟩],
    h ▸ flagB [⟨7, x0⟩, ⟨3, x1⟩, ⟨4, x2⟩, ⟨1, x3⟩, ⟨5, x4⟩, ⟨2, x5⟩, ⟨3, x6⟩, ⟨6, x7⟩] x8 []⟩

theorem lay60 {w : Nat} {x0 : BitVec 7} {x1 : BitVec 3} {x2 : BitVec 5} {x3 : BitVec 5} {x4 : BitVec 2} {x5 : BitVec 3} {x6 : BitVec 6} {x7 : Bool}
    (h : w = mixB [⟨7, x0⟩, ⟨3, x1⟩, ⟨5, x2⟩, ⟨5, x3⟩, ⟨2, x4⟩, ⟨3, x5⟩, ⟨6, x6⟩, ⟨1, BitVec.ofBool x7⟩]) :
    seg w 0 7 = x0.toNat ∧ fld w 7 3 = x1 ∧ fld w 10 5 = x2 ∧ fld w 15 5 = x3 ∧ fld w 20 2 = x4 ∧ seg w 22 3 = x5.toNat ∧ seg w 25 6 = x6.toNat ∧ flag w 31 = x7 := by
  exact ⟨h ▸ segB [] x0 [⟨3, x1⟩, ⟨5, x2⟩, ⟨5, x3⟩, ⟨2, x4⟩, ⟨3, x5⟩, ⟨6, x6⟩, ⟨1, BitVec.ofBool x7⟩],
    h ▸ fldB [⟨7, x0⟩] x1 [⟨5, x2⟩, ⟨5, x3⟩, ⟨2, x4⟩, ⟨3, x5⟩, ⟨6, x6⟩, ⟨1, BitVec.ofBool x7⟩],
    h ▸ fldB [⟨7, x0⟩, ⟨3, x1⟩] x2 [⟨5, x3⟩, ⟨2, x4⟩, ⟨3, x5⟩, ⟨6, x6⟩, ⟨1, BitVec.ofBool x7⟩],
    h ▸ fldB [⟨7, x0⟩, ⟨3, x1⟩, ⟨5, x2⟩] x3 [⟨2, x4⟩, ⟨3, x5⟩, ⟨6, x6⟩, ⟨1, BitVec.ofBool x7⟩],
    h ▸ fldB [⟨7, x0⟩, ⟨3, x1⟩, ⟨5, x2⟩, ⟨5, x3⟩] x4 [⟨3, x5⟩, ⟨6, x6⟩, ⟨1, BitVec.ofBool x7⟩],
    h ▸ segB [⟨7, x0⟩, ⟨3, x1⟩, ⟨5, x2⟩, ⟨5, x3⟩, ⟨2, x4⟩] x5 [⟨6, x6⟩, ⟨1, BitVec.ofBool x7⟩],
    h ▸ segB [⟨7, x0⟩, ⟨3, x1⟩, ⟨5, x2⟩, ⟨5, x3⟩, ⟨2, x4⟩, ⟨3, x5⟩] x6 [⟨1, BitVec.ofBool x7⟩],
    h ▸ flagB [⟨7, x0⟩, ⟨3, x1⟩, ⟨5, x2⟩, ⟨5, x3⟩, ⟨2, x4⟩, ⟨3, x5⟩, ⟨6, x6⟩] x7 []⟩

theorem lay61 {w : Nat} {x0 : BitVec 7} {x1 : BitVec 3} {x2 : BitVec 2} {x3 : BitVec 3} {x4 : BitVec 5} {x5 : BitVec 3} {x6 : BitVec 2} {x7 : BitVec 6} {x8 : Bool}
    (h : w = mixB [⟨7, x0⟩, ⟨3, x1⟩, ⟨2, x2⟩, ⟨3, x3⟩, ⟨5, x4⟩, ⟨3, x5⟩, ⟨2, x6⟩, ⟨6, x7⟩, ⟨1, BitVec.ofBool x8⟩]) :
    seg w 0 7 = x0.toNat ∧ fld w 7 3 = x1 ∧ fld w 10 2 = x2 ∧ seg w 12 3 = x3.toNat ∧ fld w 15 5 = x4 ∧ fld w 20 3 = x5 ∧ seg w 23 2 = x6.toNat ∧ seg w 25 6 = x7.toNat ∧ flag w 31 = x8 := by
  exact ⟨h ▸ segB [] x0 [⟨3, x1⟩, ⟨2, x2⟩, ⟨3, x3⟩, ⟨5, x4⟩, ⟨3, x5⟩, ⟨2, x6⟩, ⟨6, x7⟩, ⟨1, BitVec.ofBool x8⟩],
    h ▸ fldB [⟨7, x0⟩] x1 [⟨2, x2⟩, ⟨3, x3⟩, ⟨5, x4⟩, ⟨3, x5⟩, ⟨2, x6⟩, ⟨6, x7⟩, ⟨1, BitVec.ofBool x8⟩],
    h ▸ fldB [⟨7, x0⟩, ⟨3, x1⟩] x2 [⟨3, x3⟩, ⟨5, x4⟩, ⟨3, x5⟩, ⟨2, x6⟩, ⟨6, x7⟩, ⟨1, BitVec.ofBool x8⟩],
    h ▸ segB [⟨7, x0⟩, ⟨3, x1⟩, ⟨2, x2⟩] x3 [⟨5, x4⟩, ⟨3, x5⟩, ⟨2, x6⟩, ⟨6, x7⟩, ⟨1, BitVec.ofBool x8⟩],
    h ▸ fldB [⟨7, x0⟩, ⟨3, x1⟩, ⟨2, x2⟩, ⟨3, x3⟩] x4 [⟨3, x5⟩, ⟨2, x6⟩, ⟨6, x7⟩, ⟨1, BitVec.ofBool x8⟩],
    h ▸ fldB [⟨7, x0⟩, ⟨3, x1⟩, ⟨2, x2⟩, ⟨3, x3⟩, ⟨5, x4⟩] x5 [⟨2, x6⟩, ⟨6, x7⟩, ⟨1, BitVec.ofBool x8⟩],
    h ▸ segB [⟨7, x0⟩, ⟨3, x1⟩, ⟨2, x2⟩, ⟨3, x3⟩, ⟨5, x4⟩, ⟨3, x5⟩] x6 [⟨6, x7⟩, ⟨1, BitVec.ofBool x8⟩],
    h ▸ segB [⟨7, x0⟩, ⟨3, x1⟩, ⟨2, x2⟩, ⟨3, x3⟩, ⟨5, x4⟩, ⟨3, x5⟩, ⟨2, x6⟩] x7 [⟨1, BitVec.ofBool x8⟩],
    h ▸ flagB [⟨7, x0⟩, ⟨3, x1⟩, ⟨2, x2⟩, ⟨3, x3⟩, ⟨5, x4⟩, ⟨3, x5⟩, ⟨2, x6⟩, ⟨6, x7⟩] x8 []⟩

theorem lay62 {w : Nat} {x0 : BitVec 7} {x1 : BitVec 8} {x2 : BitVec 2} {x3 : BitVec 3} {x4 : BitVec 2} {x5 : BitVec 3} {x6 : BitVec 6} {x7 : Bool}
    (h : w = mixB [⟨7, x0⟩, ⟨8, x1⟩, ⟨2, x2⟩, ⟨3, x3⟩, ⟨2, x4⟩, ⟨3, x5⟩, ⟨6, x6⟩, ⟨1, BitVec.ofBool x7⟩]) :
    seg w 0 7 = x0.toNat ∧ seg w 7 8 = x1.toNat ∧ fld w 15 2 = x2 ∧ seg w 17 3 = x3.toNat ∧ fld w 20 2 = x4 ∧ seg w 22 3 = x5.toNat ∧ seg w 25 6 = x6.toNat ∧ flag w 31 = x7 := by
  exact ⟨h ▸ segB [] x0 [⟨8, x1⟩, ⟨2, x2⟩, ⟨3, x3⟩, ⟨2, x4⟩, ⟨3, x5⟩, ⟨6, x6⟩, ⟨1, BitVec.ofBool x7⟩],
    h ▸ segB [⟨7, x0⟩] x1 [⟨2, x2⟩, ⟨3, x3⟩, ⟨2, x4⟩, ⟨3, x5⟩, ⟨6, x6⟩, ⟨1, BitVec.ofBool x7⟩],
    h ▸ fldB [⟨7, x0⟩, ⟨8, x1⟩] x2 [⟨3, x3⟩, ⟨2, x4⟩, ⟨3, x5⟩, ⟨6, x6⟩, ⟨1, BitVec.ofBool x7⟩],
    h ▸ segB [⟨7, x0⟩, ⟨8, x1⟩, ⟨2, x2⟩] x3 [⟨2, x4⟩, ⟨3, x5⟩, ⟨6, x6⟩, ⟨1, BitVec.ofBool x7⟩],
    h ▸ fldB [⟨7, x0⟩, ⟨8, x1⟩, ⟨2, x2⟩, ⟨3, x3⟩] x4 [⟨3, x5⟩, ⟨6, x6⟩, ⟨1, BitVec.ofBool x7⟩],
    h ▸ segB [⟨7, x0⟩, ⟨8, x1⟩, ⟨2, x2⟩, ⟨3, x3⟩, ⟨2, x4⟩] x5 [⟨6, x6⟩, ⟨1, BitVec.ofBool x7⟩],
    h ▸ segB [⟨7, x0⟩, ⟨8, x1⟩, ⟨2, x2⟩, ⟨3, x3⟩, ⟨2, x4⟩, ⟨3, x5⟩] x6 [⟨1, BitVec.ofBool x7⟩],
    h ▸ flagB [⟨7, x0⟩, ⟨8, x1⟩, ⟨2, x2⟩, ⟨3, x3⟩, ⟨2, x4⟩, ⟨3, x5⟩, ⟨6, x6⟩] x7 []⟩

theorem lay63 {w : Nat} {x0 : BitVec 7} {x1 : BitVec 13} {x2 : BitVec 2} {x3 : BitVec 3} {x4 : BitVec 6} {x5 : Bool}
    (h : w = mixB [⟨7, x0⟩, ⟨13, x1⟩, ⟨2, x2⟩, ⟨3, x3⟩, ⟨6, x4⟩, ⟨1, BitVec.ofBool x5⟩]) :
    seg w 0 7 = x0.toNat ∧ seg w 7 13 = x1.toNat ∧ fld w 20 2 = x2 ∧ seg w 22 3 = x3.toNat ∧ seg w 25 6 = x4.toNat ∧ flag w 31 = x5 := by
  exact ⟨h ▸ segB [] x0 [⟨13, x1⟩, ⟨2, x2⟩, ⟨3, x3⟩, ⟨6, x4⟩, ⟨1, BitVec.ofBool x5⟩],
    h ▸ segB [⟨7, x0⟩] x1 [⟨2, x2⟩, ⟨3, x3⟩, ⟨6, x4⟩, ⟨1, BitVec.ofBool x5⟩],
    h ▸ fldB [⟨7, x0⟩, ⟨13, x1⟩] x2 [⟨3, x3⟩, ⟨6, x4⟩, ⟨1, BitVec.ofBool x5⟩],
    h ▸ segB [⟨7, x0⟩, ⟨13, x1⟩, ⟨2, x2⟩] x3 [⟨6, x4⟩, ⟨1, BitVec.ofBool x5⟩],
    h ▸ segB [⟨7, x0⟩, ⟨13, x1⟩, ⟨2, x2⟩, ⟨3, x3⟩] x4 [⟨1, BitVec.ofBool x5⟩],
    h ▸ flagB [⟨7, x0⟩, ⟨13, x1⟩, ⟨2, x2⟩, ⟨3, x3⟩, ⟨6, x4⟩] x5 []⟩

theorem lay64 {w : Nat} {x0 : BitVec 2} {x1 : BitVec 7} {x2 : BitVec 4} {x3 : BitVec 4} {x4 : BitVec 8} {x5 : BitVec 6} {x6 : Bool}
    (h : w = mixB [⟨2, x0⟩, ⟨7, x1⟩, ⟨4, x2⟩, ⟨4, x3⟩, ⟨8, x4⟩, ⟨6, x5⟩, ⟨1, BitVec.ofBool x6⟩]) :
    fld w 0 2 = x0 ∧ fld w 2 7 = x1 ∧ seg w 9 4 = x2.toNat ∧ seg w 13 4 = x3.toNat ∧ seg w 17 8 = x4.toNat ∧ seg w 25 6 = x5.toNat ∧ flag w 31 = x6 := by
  exact ⟨h ▸ fldB [] x0 [⟨7, x1⟩, ⟨4, x2⟩, ⟨4, x3⟩, ⟨8, x4⟩, ⟨6, x5⟩, ⟨1, BitVec.ofBool x6⟩],
    h ▸ fldB [⟨2, x0⟩] x1 [⟨4, x2⟩, ⟨4, x3⟩, ⟨8, x4⟩, ⟨6, x5⟩, ⟨1, BitVec.ofBool x6⟩],
    h ▸ segB [⟨2, x0⟩, ⟨7, x1⟩] x2 [⟨4, x3⟩, ⟨8, x4⟩, ⟨6, x5⟩, ⟨1, BitVec.ofBool x6⟩],
    h ▸ segB [⟨2, x0⟩, ⟨7, x1⟩, ⟨4, x2⟩] x3 [⟨8, x4⟩, ⟨6, x5⟩, ⟨1, BitVec.ofBool x6⟩],
    h ▸ segB [⟨2, x0⟩, ⟨7, x1⟩, ⟨4, x2⟩, ⟨4, x3⟩] x4 [⟨6, x5⟩, ⟨1, BitVec.ofBool x6⟩],
    h ▸ segB [⟨2, x0⟩, ⟨7, x1⟩, ⟨4, x2⟩, ⟨4, x3⟩, ⟨8, x4⟩] x5 [⟨1, BitVec.ofBool x6⟩],
    h ▸ flagB [⟨2, x0⟩, ⟨7, x1⟩, ⟨4, x2⟩, ⟨4, x3⟩, ⟨8, x4⟩, ⟨6, x5⟩] x6 []⟩

theorem lay65 {w : Nat} {x0 : BitVec 2} {x1 : BitVec 11} {x2 : BitVec 4} {x3 : BitVec 4} {x4 : BitVec 4} {x5 : BitVec 6} {x6 : Bool}
    (h : w = mixB [⟨2, x0⟩, ⟨11, x1⟩, ⟨4, x2⟩, ⟨4, x3⟩, ⟨4, x4⟩, ⟨6, x5⟩, ⟨1, BitVec.ofBool x6⟩]) :
    fld w 0 2 = x0 ∧ seg w 2 11 = x1.toNat ∧ seg w 13 4 = x2.toNat ∧ seg w 17 4 = x3.toNat ∧ fld w 21 4 = x4 ∧ seg w 25 6 = x5.toNat ∧ flag w 31 = x6 := by
  exact ⟨h ▸ fldB [] x0 [⟨11, x1⟩, ⟨4, x2⟩, ⟨4, x3⟩, ⟨4, x4⟩, ⟨6, x5⟩, ⟨1, BitVec.ofBool x6⟩],
    h ▸ segB [⟨2, x0⟩] x1 [⟨4, x2⟩, ⟨4, x3⟩, ⟨4, x4⟩, ⟨6, x5⟩, ⟨1, BitVec.ofBool x6⟩],
    h ▸ segB [⟨2, x0⟩, ⟨11, x1⟩] x2 [⟨4, x3⟩, ⟨4, x4⟩, ⟨6, x5⟩, ⟨1, BitVec.ofBool x6⟩],
    h ▸ segB [⟨2, x0⟩, ⟨11, x1⟩, ⟨4, x2⟩] x3 [⟨4, x4⟩, ⟨6, x5⟩, ⟨1, BitVec.ofBool x6⟩],
    h ▸ fldB [⟨2, x0⟩, ⟨11, x1⟩, ⟨4, x2⟩, ⟨4, x3⟩] x4 [⟨6, x5⟩, ⟨1, BitVec.ofBool x6⟩],
    h ▸ segB [⟨2, x0⟩, ⟨11, x1⟩, ⟨4, x2⟩, ⟨4, x3⟩, ⟨4, x4⟩] x5 [⟨1, BitVec.ofBool x6⟩],
    h ▸ flagB [⟨2, x0⟩, ⟨11, x1⟩, ⟨4, x2⟩, ⟨4, x3⟩, ⟨4, x4⟩, ⟨6, x5⟩] x6 []⟩

theorem lay66 {w : Nat} {x0 : BitVec 2} {x1 : BitVec 11} {x2 : BitVec 4} {x3 : BitVec 4} {x4 : BitVec 4} {x5 : BitVec 6} {x6 : Bool}
    (h : w = mixB [⟨2, x0⟩, ⟨11, x1⟩, ⟨4, x2⟩, ⟨4, x3⟩, ⟨4, x4⟩, ⟨6, x5⟩, ⟨1, BitVec.ofBool x6⟩]) :
    fld w 0 2 = x0 ∧ seg w 2 11 = x1.toNat ∧ seg w 13 4 = x2.toNat ∧ fld w 17 4 = x3 ∧ fld w 21 4 = x4 ∧ seg w 25 6 = x5.toNat ∧ flag w 31 = x6 := by
  exact ⟨h ▸ fldB [] x0 [⟨11, x1⟩, ⟨4, x2⟩, ⟨4, x3⟩, ⟨4, x4⟩, ⟨6, x5⟩, ⟨1, BitVec.ofBool x6⟩],
    h ▸ segB [⟨2, x0⟩] x1 [⟨4, x2⟩, ⟨4, x3⟩, ⟨4, x4⟩, ⟨6, x5⟩, ⟨1, BitVec.ofBool x6⟩],
    h ▸ segB [⟨2, x0⟩, ⟨11, x1⟩] x2 [⟨4, x3⟩, ⟨4, x4⟩, ⟨6, x5⟩, ⟨1, BitVec.ofBool x6⟩],
    h ▸ fldB [⟨2, x0⟩, ⟨11, x1⟩, ⟨4, x2⟩] x3 [⟨4, x4⟩, ⟨6, x5⟩, ⟨1, BitVec.ofBool x6⟩],
    h ▸ fldB [⟨2, x0⟩, ⟨11, x1⟩, ⟨4, x2⟩, ⟨4, x3⟩] x4 [⟨6, x5⟩, ⟨1, BitVec.ofBool x6⟩],
    h ▸ segB [⟨2, x0⟩, ⟨11, x1⟩, ⟨4, x2⟩, ⟨4, x3⟩, ⟨4, x4⟩] x5 [⟨1, BitVec.ofBool x6⟩],
    h ▸ flagB [⟨2, x0⟩, ⟨11, x1⟩, ⟨4, x2⟩, ⟨4, x3⟩, ⟨4, x4⟩, ⟨6, x5⟩] x6 []⟩

theorem lay67 {w : Nat} {x0 : BitVec 2} {x1 : BitVec 11} {x2 : BitVec 4} {x3 : BitVec 4} {x4 : BitVec 4} {x5 : BitVec 6} {x6 : Bool}
    (h : w = mixB [⟨2, x0⟩, ⟨11, x1⟩, ⟨4, x2⟩, ⟨4, x3⟩, ⟨4, x4⟩, ⟨6, x5⟩, ⟨1, BitVec.ofBool x6⟩]) :
    fld w 0 2 = x0 ∧ seg w 2 11 = x1.toNat ∧ seg w 13 4 = x2.toNat ∧ fld w 17 4 = x3 ∧ seg w 21 4 = x4.toNat ∧ seg w 25 6 = x5.toNat ∧ flag w 31 = x6 := by
  exact ⟨h ▸ fldB [] x0 [⟨11, x1⟩, ⟨4, x2⟩, ⟨4, x3⟩, ⟨4, x4⟩, ⟨6, x5⟩, ⟨1, BitVec.ofBool x6⟩],
    h ▸ segB [⟨2, x0⟩] x1 [⟨4, x2⟩, ⟨4, x3⟩, ⟨4, x4⟩, ⟨6, x5⟩, ⟨1, BitVec.ofBool x6⟩],
    h ▸ segB [⟨2, x0⟩, ⟨11, x1⟩] x2 [⟨4, x3⟩, ⟨4, x4⟩, ⟨6, x5⟩, ⟨1, BitVec.ofBool x6⟩],
    h ▸ fldB [⟨2, x0⟩, ⟨11, x1⟩, ⟨4, x2⟩] x3 [⟨4, x4⟩, ⟨6, x5⟩, ⟨1, BitVec.ofBool x6⟩],
    h ▸ segB [⟨2, x0⟩, ⟨11, x1⟩, ⟨4, x2⟩, ⟨4, x3⟩] x4 [⟨6, x5⟩, ⟨1, BitVec.ofBool x6⟩],
    h ▸ segB [⟨2, x0⟩, ⟨11, x1⟩, ⟨4, x2⟩, ⟨4, x3⟩, ⟨4, x4⟩] x5 [⟨1, BitVec.ofBool x6⟩],
    h ▸ flagB [⟨2, x0⟩, ⟨11, x1⟩, ⟨4, x2⟩, ⟨4, x3⟩, ⟨4, x4⟩, ⟨6, x5⟩] x6 []⟩

theorem lay68 {w : Nat} {x0 : BitVec 2} {x1 : BitVec 1} {x2 : BitVec 1} {x3 : BitVec 1} {x4 : BitVec 1} {x5 : BitVec 3} {x6 : BitVec 4} {x7 : BitVec 4} {x8 : BitVec 4} {x9 : BitVec 4} {x10 : BitVec 6} {x11 : Bool}
    (h : w = mixB [⟨2, x0⟩, ⟨1, x1⟩, ⟨1, x2⟩, ⟨1, x3⟩, ⟨1, x4⟩, ⟨3, x5⟩, ⟨4, x6⟩, ⟨4, x7⟩, ⟨4, x8⟩, ⟨4, x9⟩, ⟨6, x10⟩, ⟨1, BitVec.ofBool x11⟩]) :
    fld w 0 2 = x0 ∧ seg w 2 1 = x1.toNat ∧ fld w 3 1 = x2 ∧ fld w 4 1 = x3 ∧ fld w 5 1 = x4 ∧ seg w 6 3 = x5.toNat ∧ fld w 9 4 = x6 ∧ fld w 13 4 = x7 ∧ fld w 17 4 = x8 ∧ fld w 21 4 = x9 ∧ seg w 25 6 = x10.toNat ∧ flag w 31 = x11 := by
  exact ⟨h ▸ fldB [] x0 [⟨1, x1⟩, ⟨1, x2⟩, ⟨1, x3⟩, ⟨1, x4⟩, ⟨3, x5⟩, ⟨4, x6⟩, ⟨4, x7⟩, ⟨4, x8⟩, ⟨4, x9⟩, ⟨6, x10⟩, ⟨1, BitVec.ofBool x11⟩],
    h ▸ segB [⟨2, x0⟩] x1 [⟨1, x2⟩, ⟨1, x3⟩, ⟨1, x4⟩, ⟨3, x5⟩, ⟨4, x6⟩, ⟨4, x7⟩, ⟨4, x8⟩, ⟨4, x9⟩, ⟨6, x10⟩, ⟨1, BitVec.ofBool x11⟩],
    h ▸ fldB [⟨2, x0⟩, ⟨1, x1⟩] x2 [⟨1, x3⟩, ⟨1, x4⟩, ⟨3, x5⟩, ⟨4, x6⟩, ⟨4, x7⟩, ⟨4, x8⟩, ⟨4, x9⟩, ⟨6, x10⟩, ⟨1, BitVec.ofBool x11⟩],
    h ▸ fldB [⟨2, x0⟩, ⟨1, x1⟩, ⟨1, x2⟩] x3 [⟨1, x4⟩, ⟨3, x5⟩, ⟨4, x6⟩, ⟨4, x7⟩, ⟨4, x8⟩, ⟨4, x9⟩, ⟨6, x10⟩, ⟨1, BitVec.ofBool x11⟩],
    h ▸ fldB [⟨2, x0⟩, ⟨1, x1⟩, ⟨1, x2⟩, ⟨1, x3⟩] x4 [⟨3, x5⟩, ⟨4, x6⟩, ⟨4, x7⟩, ⟨4, x8⟩, ⟨4, x9⟩, ⟨6, x10⟩, ⟨1, BitVec.ofBool x11⟩],
    h ▸ segB [⟨2, x0⟩, ⟨1, x1⟩, ⟨1, x2⟩, ⟨1, x3⟩, ⟨1, x4⟩] x5 [⟨4, x6⟩, ⟨4, x7⟩, ⟨4, x8⟩, ⟨4, x9⟩, ⟨6, x10⟩, ⟨1, BitVec.ofBool x11⟩],
    h ▸ fldB [⟨2, x0⟩, ⟨1, x1⟩, ⟨1, x2⟩, ⟨1, x3⟩, ⟨1, x4⟩, ⟨3, x5⟩] x6 [⟨4, x7⟩, ⟨4, x8⟩, ⟨4, x9⟩, ⟨6, x10⟩, ⟨1, BitVec.ofBool x11⟩],
    h ▸ fldB [⟨2, x0⟩, ⟨1, x1⟩, ⟨1, x2⟩, ⟨1, x3⟩, ⟨1, x4⟩, ⟨3, x5⟩, ⟨4, x6⟩] x7 [⟨4, x8⟩, ⟨4, x9⟩, ⟨6, x10⟩, ⟨1, BitVec.ofBool x11⟩],
    h ▸ fldB [⟨2, x0⟩, ⟨1, x1⟩, ⟨1, x2⟩, ⟨1, x3⟩, ⟨1, x4⟩, ⟨3, x5⟩, ⟨4, x6⟩, ⟨4, x7⟩] x8 [⟨4, x9⟩, ⟨6, x10⟩, ⟨1, BitVec.ofBool x11⟩],
    h ▸ fldB [⟨2, x0⟩, ⟨1, x1⟩, ⟨1, x2⟩, ⟨1, x3⟩, ⟨1, x4⟩, ⟨3, x5⟩, ⟨4, x6⟩, ⟨4, x7⟩, ⟨4, x8⟩] x9 [⟨6, x10⟩, ⟨1, BitVec.ofBool x11⟩],
    h ▸ segB [⟨2, x0⟩, ⟨1, x1⟩, ⟨1, x2⟩, ⟨1, x3⟩, ⟨1, x4⟩, ⟨3, x5⟩, ⟨4, x6⟩, ⟨4, x7⟩, ⟨4, x8⟩, ⟨4, x9⟩] x10 [⟨1, BitVec.ofBool x11⟩],
    h ▸ flagB [⟨2, x0⟩, ⟨1, x1⟩, ⟨1, x2⟩, ⟨1, x3⟩, ⟨1, x4⟩, ⟨3, x5⟩, ⟨4, x6⟩, ⟨4, x7⟩, ⟨4, x8⟩, ⟨4, x9⟩, ⟨6, x10⟩] x11 []⟩

theorem lay69 {w : Nat} {x0 : BitVec 2} {x1 : BitVec 1} {x2 : BitVec 1} {x3 : BitVec 1} {x4 : BitVec 4} {x5 : BitVec 4} {x6 : BitVec 4} {x7 : BitVec 4} {x8 : BitVec 4} {x9 : BitVec 6} {x10 : Bool}
    (h : w = mixB [⟨2, x0⟩, ⟨1, x1⟩, ⟨1, x2⟩, ⟨1, x3⟩, ⟨4, x4⟩, ⟨4, x5⟩, ⟨4, x6⟩, ⟨4, x7⟩, ⟨4, x8⟩, ⟨6, x9⟩, ⟨1, BitVec.ofBool x10⟩]) :
    fld w 0 2 = x0 ∧ seg w 2 1 = x1.toNat ∧ fld w 3 1 = x2 ∧ fld w 4 1 = x3 ∧ seg w 5 4 = x4.toNat ∧ fld w 9 4 = x5 ∧ seg w 13 4 = x6.toNat ∧ fld w 17 4 = x7 ∧ fld w 21 4 = x8 ∧ seg w 25 6 = x9.toNat ∧ flag w 31 = x10 := by
  exact ⟨h ▸ fldB [] x0 [⟨1, x1⟩, ⟨1, x2⟩, ⟨1, x3⟩, ⟨4, x4⟩, ⟨4, x5⟩, ⟨4, x6⟩, ⟨4, x7⟩, ⟨4, x8⟩, ⟨6, x9⟩, ⟨1, BitVec.ofBool x10⟩],
    h ▸ segB [⟨2, x0⟩] x1 [⟨1, x2⟩, ⟨1, x3⟩, ⟨4, x4⟩, ⟨4, x5⟩, ⟨4, x6⟩, ⟨4, x7⟩, ⟨4, x8⟩, ⟨6, x9⟩, ⟨1, BitVec.ofBool x10⟩],
    h ▸ fldB [⟨2, x0⟩, ⟨1, x1⟩] x2 [⟨1, x3⟩, ⟨4, x4⟩, ⟨4, x5⟩, ⟨4, x6⟩, ⟨4, x7⟩, ⟨4, x8⟩, ⟨6, x9⟩, ⟨1, BitVec.ofBool x10⟩],
    h ▸ fldB [⟨2, x0⟩, ⟨1, x1⟩, ⟨1, x2⟩] x3 [⟨4, x4⟩, ⟨4, x5⟩, ⟨4, x6⟩, ⟨4, x7⟩, ⟨4, x8⟩, ⟨6, x9⟩, ⟨1, BitVec.ofBool x10⟩],
    h ▸ segB [⟨2, x0⟩, ⟨1, x1⟩, ⟨1, x2⟩, ⟨1, x3⟩] x4 [⟨4, x5⟩, ⟨4, x6⟩, ⟨4, x7⟩, ⟨4, x8⟩, ⟨6, x9⟩, ⟨1, BitVec.ofBool x10⟩],
    h ▸ fldB [⟨2, x0⟩, ⟨1, x1⟩, ⟨1, x2⟩, ⟨1, x3⟩, ⟨4, x4⟩] x5 [⟨4, x6⟩, ⟨4, x7⟩, ⟨4, x8⟩, ⟨6, x9⟩, ⟨1, BitVec.ofBool x10⟩],
    h ▸ segB [⟨2, x0⟩, ⟨1, x1⟩, ⟨1, x2⟩, ⟨1, x3⟩, ⟨4, x4⟩, ⟨4, x5⟩] x6 [⟨4, x7⟩, ⟨4, x8⟩, ⟨6, x9⟩, ⟨1, BitVec.ofBool x10⟩],
    h ▸ fldB [⟨2, x0⟩, ⟨1, x1⟩, ⟨1, x2⟩, ⟨1, x3⟩, ⟨4, x4⟩, ⟨4, x5⟩, ⟨4, x6⟩] x7 [⟨4, x8⟩, ⟨6, x9⟩, ⟨1, BitVec.ofBool x10⟩],
    h ▸ fldB [⟨2, x0⟩, ⟨1, x1⟩, ⟨1, x2⟩, ⟨1, x3⟩, ⟨4, x4⟩, ⟨4, x5⟩, ⟨4, x6⟩, ⟨4, x7⟩] x8 [⟨6, x9⟩, ⟨1, BitVec.ofBool x10⟩],
    h ▸ segB [⟨2, x0⟩, ⟨1, x1⟩, ⟨1, x2⟩, ⟨1, x3⟩, ⟨4, x4⟩, ⟨4, x5⟩, ⟨4, x6⟩, ⟨4, x7⟩, ⟨4, x8⟩] x9 [⟨1, BitVec.ofBool x10⟩],
    h ▸ flagB [⟨2, x0⟩, ⟨1, x1⟩, ⟨1, x2⟩, ⟨1, x3⟩, ⟨4, x4⟩, ⟨4, x5⟩, ⟨4, x6⟩, ⟨4, x7⟩, ⟨4, x8⟩, ⟨6, x9⟩] x10 []⟩

theorem lay70 {w : Nat} {x0 : BitVec 2} {x1 : BitVec 1} {x2 : BitVec 22} {x3 : BitVec 6} {x4 : Bool}
    (h : w = mixB [⟨2, x0⟩, ⟨1, x1⟩, ⟨22, x2⟩, ⟨6, x3⟩, ⟨1, BitVec.ofBool x4⟩]) :
    fld w 0 2 = x0 ∧ seg w 2 1 = x1.toNat ∧ seg w 3 22 = x2.toNat ∧ seg w 25 6 = x3.toNat ∧ flag w 31 = x4 := by
  exact ⟨h ▸ fldB [] x0 [⟨1, x1⟩, ⟨22, x2⟩, ⟨6, x3⟩, ⟨1, BitVec.ofBool x4⟩],
    h ▸ segB [⟨2, x0⟩] x1 [⟨22, x2⟩, ⟨6, x3⟩, ⟨1, BitVec.ofBool x4⟩],
    h ▸ segB [⟨2, x0⟩, ⟨1, x1⟩] x2 [⟨6, x3⟩, ⟨1, BitVec.ofBool x4⟩],
    h ▸ segB [⟨2, x0⟩, ⟨1, x1⟩, ⟨22, x2⟩] x3 [⟨1, BitVec.ofBool x4⟩],
    h ▸ flagB [⟨2, x0⟩, ⟨1, x1⟩, ⟨22, x2⟩, ⟨6, x3⟩] x4 []⟩

theorem lay71 {w : Nat} {x0 : BitVec 2} {x1 : BitVec 1} {x2 : BitVec 4} {x3 : BitVec 18} {x4 : BitVec 6} {x5 : Bool}
    (h : w = mixB [⟨2, x0⟩, ⟨1, x1⟩, ⟨4, x2⟩, ⟨18, x3⟩, ⟨6, x4⟩, ⟨1, BitVec.ofBool x5⟩]) :
    fld w 0 2 = x0 ∧ seg w 2 1 = x1.toNat ∧ fld w 3 4 = x2 ∧ seg w 7 18 = x3.toNat ∧ seg w 25 6 = x4.toNat ∧ flag w 31 = x5 := by
  exact ⟨h ▸ fldB [] x0 [⟨1, x1⟩, ⟨4, x2⟩, ⟨18, x3⟩, ⟨6, x4⟩, ⟨1, BitVec.ofBool x5⟩],
    h ▸ segB [⟨2, x0⟩] x1 [⟨4, x2⟩, ⟨18, x3⟩, ⟨6, x4⟩, ⟨1, BitVec.ofBool x5⟩],
    h ▸ fldB [⟨2, x0⟩, ⟨1, x1⟩] x2 [⟨18, x3⟩, ⟨6, x4⟩, ⟨1, BitVec.ofBool x5⟩],
    h ▸ segB [⟨2, x0⟩, ⟨1, x1⟩, ⟨4, x2⟩] x3 [⟨6, x4⟩, ⟨1, BitVec.ofBool x5⟩],
    h ▸ segB [⟨2, x0⟩, ⟨1, x1⟩, ⟨4, x2⟩, ⟨18, x3⟩] x4 [⟨1, BitVec.ofBool x5⟩],
    h ▸ flagB [⟨2, x0⟩, ⟨1, x1⟩, ⟨4, x2⟩, ⟨18, x3⟩, ⟨6, x4⟩] x5 []⟩

theorem lay72 {w : Nat} {x0 : BitVec 3} {x1 : BitVec 2} {x2 : BitVec 8} {x3 : BitVec 4} {x4 : BitVec 4} {x5 : BitVec 4} {x6 : BitVec 6} {x7 : Bool}
    (h : w = mixB [⟨3, x0⟩, ⟨2, x1⟩, ⟨8, x2⟩, ⟨4, x3⟩, ⟨4, x4⟩, ⟨4, x5⟩, ⟨6, x6⟩, ⟨1, BitVec.ofBool x7⟩]) :
    fld w 0 3 = x0 ∧ seg w 3 2 = x1.toNat ∧ seg w 5 8 = x2.toNat ∧ seg w 13 4 = x3.toNat ∧ fld w 17 4 = x4 ∧ seg w 21 4 = x5.toNat ∧ seg w 25 6 = x6.toNat ∧ flag w 31 = x7 := by
  exact ⟨h ▸ fldB [] x0 [⟨2, x1⟩, ⟨8, x2⟩, ⟨4, x3⟩, ⟨4, x4⟩, ⟨4, x5⟩, ⟨6, x6⟩, ⟨1, BitVec.ofBool x7⟩],
    h ▸ segB [⟨3, x0⟩] x1 [⟨8, x2⟩, ⟨4, x3⟩, ⟨4, x4⟩, ⟨4, x5⟩, ⟨6, x6⟩, ⟨1, BitVec.ofBool x7⟩],
    h ▸ segB [⟨3, x0⟩, ⟨2, x1⟩] x2 [⟨4, x3⟩, ⟨4, x4⟩, ⟨4, x5⟩, ⟨6, x6⟩, ⟨1, BitVec.ofBool x7⟩],
    h ▸ segB [⟨3, x0⟩, ⟨2, x1⟩, ⟨8, x2⟩] x3 [⟨4, x4⟩, ⟨4, x5⟩, ⟨6, x6⟩, ⟨1, BitVec.ofBool x7⟩],
    h ▸ fldB [⟨3, x0⟩, ⟨2, x1⟩, ⟨8, x2⟩, ⟨4, x3⟩] x4 [⟨4, x5⟩, ⟨6, x6⟩, ⟨1, BitVec.ofBool x7⟩],
    h ▸ segB [⟨3, x0⟩, ⟨2, x1⟩, ⟨8, x2⟩, ⟨4, x3⟩, ⟨4, x4⟩] x5 [⟨6, x6⟩, ⟨1, BitVec.ofBool x7⟩],
    h ▸ segB [⟨3, x0⟩, ⟨2, x1⟩, ⟨8, x2⟩, ⟨4, x3⟩, ⟨4, x4⟩, ⟨4, x5⟩] x6 [⟨1, BitVec.ofBool x7⟩],
    h ▸ flagB [⟨3, x0⟩, ⟨2, x1⟩, ⟨8, x2⟩, ⟨4, x3⟩, ⟨4, x4⟩, ⟨4, x5⟩, ⟨6, x6⟩] x7 []⟩

theorem lay73 {w : Nat} {x0 : BitVec 3} {x1 : BitVec 2} {x2 : BitVec 8} {x3 : BitVec 8} {x4 : BitVec 4} {x5 : BitVec 6} {x6 : Bool}
    (h : w = mixB [⟨3, x0⟩, ⟨2, x1⟩, ⟨8, x2⟩, ⟨8, x3⟩, ⟨4, x4⟩, ⟨6, x5⟩, ⟨1, BitVec.ofBool x6⟩]) :
    fld w 0 3 = x0 ∧ seg w 3 2 = x1.toNat ∧ seg w 5 8 = x2.toNat ∧ seg w 13 8 = x3.toNat ∧ fld w 21 4 = x4 ∧ seg w 25 6 = x5.toNat ∧ flag w 31 = x6 := by
  exact ⟨h ▸ fldB [] x0 [⟨2, x1⟩, ⟨8, x2⟩, ⟨8, x3⟩, ⟨4, x4⟩, ⟨6, x5⟩, ⟨1, BitVec.ofBool x6⟩],
    h ▸ segB [⟨3, x0⟩] x1 [⟨8, x2⟩, ⟨8, x3⟩, ⟨4, x4⟩, ⟨6, x5⟩, ⟨1, BitVec.ofBool x6⟩],
    h ▸ segB [⟨3, x0⟩, ⟨2, x1⟩] x2 [⟨8, x3⟩, ⟨4, x4⟩, ⟨6, x5⟩, ⟨1, BitVec.ofBool x6⟩],
    h ▸ segB [⟨3, x0⟩, ⟨2, x1⟩, ⟨8, x2⟩] x3 [⟨4, x4⟩, ⟨6, x5⟩, ⟨1, BitVec.ofBool x6⟩],
    h ▸ fldB [⟨3, x0⟩, ⟨2, x1⟩, ⟨8, x2⟩, ⟨8, x3⟩] x4 [⟨6, x5⟩, ⟨1, BitVec.ofBool x6⟩],
    h ▸ segB [⟨3, x0⟩, ⟨2, x1⟩, ⟨8, x2⟩, ⟨8, x3⟩, ⟨4, x4⟩] x5 [⟨1, BitVec.ofBool x6⟩],
    h ▸ flagB [⟨3, x0⟩, ⟨2, x1⟩, ⟨8, x2⟩, ⟨8, x3⟩, ⟨4, x4⟩, ⟨6, x5⟩] x6 []⟩

theorem lay74 {w : Nat} {x0 : BitVec 9} {x1 : BitVec 4} {x2 : BitVec 4} {x3 : BitVec 4} {x4 : BitVec 4} {x5 : BitVec 6} {x6 : Bool}
    (h : w = mixB [⟨9, x0⟩, ⟨4, x1⟩, ⟨4, x2⟩, ⟨4, x3⟩, ⟨4, x4⟩, ⟨6, x5⟩, ⟨1, BitVec.ofBool x6⟩]) :
    seg w 0 9 = x0.toNat ∧ fld w 9 4 = x1 ∧ fld w 13 4 = x2 ∧ fld w 17 4 = x3 ∧ fld w 21 4 = x4 ∧ seg w 25 6 = x5.toNat ∧ flag w 31 = x6 := by
  exact ⟨h ▸ segB [] x0 [⟨4, x1⟩, ⟨4, x2⟩, ⟨4, x3⟩, ⟨4, x4⟩, ⟨6, x5⟩, ⟨1, BitVec.ofBool x6⟩],
    h ▸ fldB [⟨9, x0⟩] x1 [⟨4, x2⟩, ⟨4, x3⟩, ⟨4, x4⟩, ⟨6, x5⟩, ⟨1, BitVec.ofBool x6⟩],
    h ▸ fldB [⟨9, x0⟩, ⟨4, x1⟩] x2 [⟨4, x3⟩, ⟨4, x4⟩, ⟨6, x5⟩, ⟨1, BitVec.ofBool x6⟩],
    h ▸ fldB [⟨9, x0⟩, ⟨4, x1⟩, ⟨4, x2⟩] x3 [⟨4, x4⟩, ⟨6, x5⟩, ⟨1, BitVec.ofBool x6⟩],
    h ▸ fldB [⟨9, x0⟩, ⟨4, x1⟩, ⟨4, x2⟩, ⟨4, x3⟩] x4 [⟨6, x5⟩, ⟨1, BitVec.ofBool x6⟩],
    h ▸ segB [⟨9, x0⟩, ⟨4, x1⟩, ⟨4, x2⟩, ⟨4, x3⟩, ⟨4, x4⟩] x5 [⟨1, BitVec.ofBool x6⟩],
    h ▸ flagB [⟨9, x0⟩, ⟨4, x1⟩, ⟨4, x2⟩, ⟨4, x3⟩, ⟨4, x4⟩, ⟨6, x5⟩] x6 []⟩

theorem lay75 {w : Nat} {x0 : BitVec 4} {x1 : BitVec 1} {x2 : BitVec 4} {x3 : BitVec 4} {x4 : BitVec 4} {x5 : BitVec 4} {x6 : BitVec 4} {x7 : BitVec 6} {x8 : Bool}
    (h : w = mixB [⟨4, x0⟩, ⟨1, x1⟩, ⟨4, x2⟩, ⟨4, x3⟩, ⟨4, x4⟩, ⟨4, x5⟩, ⟨4, x6⟩, ⟨6, x7⟩, ⟨1, BitVec.ofBool x8⟩]) :
    seg w 0 4 = x0.toNat ∧ fld w 4 1 = x1 ∧ seg w 5 4 = x2.toNat ∧ fld w 9 4 = x3 ∧ fld w 13 4 = x4 ∧ fld w 17 4 = x5 ∧ fld w 21 4 = x6 ∧ seg w 25 6 = x7.toNat ∧ flag w 31 = x8 := by
  exact ⟨h ▸ segB [] x0 [⟨1, x1⟩, ⟨4, x2⟩, ⟨4, x3⟩, ⟨4, x4⟩, ⟨4, x5⟩, ⟨4, x6⟩, ⟨6, x7⟩, ⟨1, BitVec.ofBool x8⟩],
    h ▸ fldB [⟨4, x0⟩] x1 [⟨4, x2⟩, ⟨4, x3⟩, ⟨4, x4⟩, ⟨4, x5⟩, ⟨4, x6⟩, ⟨6, x7⟩, ⟨1, BitVec.ofBool x8⟩],
    h ▸ segB [⟨4, x0⟩, ⟨1, x1⟩] x2 [⟨4, x3⟩, ⟨4, x4⟩, ⟨4, x5⟩, ⟨4, x6⟩, ⟨6, x7⟩, ⟨1, BitVec.ofBool x8⟩],
    h ▸ fldB [⟨4, x0⟩, ⟨1, x1⟩, ⟨4, x2⟩] x3 [⟨4, x4⟩, ⟨4, x5⟩, ⟨4, x6⟩, ⟨6, x7⟩, ⟨1, BitVec.ofBool x8⟩],
    h ▸ fldB [⟨4, x0⟩, ⟨1, x1⟩, ⟨4, x2⟩, ⟨4, x3⟩] x4 [⟨4, x5⟩, ⟨4, x6⟩, ⟨6, x7⟩, ⟨1, BitVec.ofBool x8⟩],
    h ▸ fldB [⟨4, x0⟩, ⟨1, x1⟩, ⟨4, x2⟩, ⟨4, x3⟩, ⟨4, x4⟩] x5 [⟨4, x6⟩, ⟨6, x7⟩, ⟨1, BitVec.ofBool x8⟩],
    h ▸ fldB [⟨4, x0⟩, ⟨1, x1⟩, ⟨4, x2⟩, ⟨4, x3⟩, ⟨4, x4⟩, ⟨4, x5⟩] x6 [⟨6, x7⟩, ⟨1, BitVec.ofBool x8⟩],
    h ▸ segB [⟨4, x0⟩, ⟨1, x1⟩, ⟨4, x2⟩, ⟨4, x3⟩, ⟨4, x4⟩, ⟨4, x5⟩, ⟨4, x6⟩] x7 [⟨1, BitVec.ofBool x8⟩],
    h ▸ flagB [⟨4, x0⟩, ⟨1, x1⟩, ⟨4, x2⟩, ⟨4, x3⟩, ⟨4, x4⟩, ⟨4, x5⟩, ⟨4, x6⟩, ⟨6, x7⟩] x8 []⟩

theorem lay76 {w : Nat} {x0 : BitVec 4} {x1 : BitVec 5} {x2 : BitVec 4} {x3 : BitVec 4} {x4 : BitVec 4} {x5 : BitVec 4} {x6 : BitVec 6} {x7 : Bool}
    (h : w = mixB [⟨4, x0⟩, ⟨5, x1⟩, ⟨4, x2⟩, ⟨4, x3⟩, ⟨4, x4⟩, ⟨4, x5⟩, ⟨6, x6⟩, ⟨1, BitVec.ofBool x7⟩]) :
    seg w 0 4 = x0.toNat ∧ seg w 4 5 = x1.toNat ∧ fld w 9 4 = x2 ∧ fld w 13 4 = x3 ∧ fld w 17 4 = x4 ∧ fld w 21 4 = x5 ∧ seg w 25 6 = x6.toNat ∧ flag w 31 = x7 := by
  exact ⟨h ▸ segB [] x0 [⟨5, x1⟩, ⟨4, x2⟩, ⟨4, x3⟩, ⟨4, x4⟩, ⟨4, x5⟩, ⟨6, x6⟩, ⟨1, BitVec.ofBool x7⟩],
    h ▸ segB [⟨4, x0⟩] x1 [⟨4, x2⟩, ⟨4, x3⟩, ⟨4, x4⟩, ⟨4, x5⟩, ⟨6, x6⟩, ⟨1, BitVec.ofBool x7⟩],
    h ▸ fldB [⟨4, x0⟩, ⟨5, x1⟩] x2 [⟨4, x3⟩, ⟨4, x4⟩, ⟨4, x5⟩, ⟨6, x6⟩, ⟨1, BitVec.ofBool x7⟩],
    h ▸ fldB [⟨4, x0⟩, ⟨5, x1⟩, ⟨4, x2⟩] x3 [⟨4, x4⟩, ⟨4, x5⟩, ⟨6, x6⟩, ⟨1, BitVec.ofBool x7⟩],
    h ▸ fldB [⟨4, x0⟩, ⟨5, x1⟩, ⟨4, x2⟩, ⟨4, x3⟩] x4 [⟨4, x5⟩, ⟨6, x6⟩, ⟨1, BitVec.ofBool x7⟩],
    h ▸ fldB [⟨4, x0⟩, ⟨5, x1⟩, ⟨4, x2⟩, ⟨4, x3⟩, ⟨4, x4⟩] x5 [⟨6, x6⟩, ⟨1, BitVec.ofBool x7⟩],
    h ▸ segB [⟨4, x0⟩, ⟨5, x1⟩, ⟨4, x2⟩, ⟨4, x3⟩, ⟨4, x4⟩, ⟨4, x5⟩] x6 [⟨1, BitVec.ofBool x7⟩],
    h ▸ flagB [⟨4, x0⟩, ⟨5, x1⟩, ⟨4, x2⟩, ⟨4, x3⟩, ⟨4, x4⟩, ⟨4, x5⟩, ⟨6, x6⟩] x7 []⟩

theorem lay77 {w : Nat} {x0 : BitVec 9} {x1 : BitVec 4} {x2 : BitVec 4} {x3 : BitVec 4} {x4 : BitVec 4} {x5 : BitVec 6} {x6 : Bool}
    (h : w = mixB [⟨9, x0⟩, ⟨4, x1⟩, ⟨4, x2⟩, ⟨4, x3⟩, ⟨4, x4⟩, ⟨6, x5⟩, ⟨1, BitVec.ofBool x6⟩]) :
    seg w 0 9 = x0.toNat ∧ fld w 9 4 = x1 ∧ seg w 13 4 = x2.toNat ∧ fld w 17 4 = x3 ∧ fld w 21 4 = x4 ∧ seg w 25 6 = x5.toNat ∧ flag w 31 = x6 := by
  exact ⟨h ▸ segB [] x0 [⟨4, x1⟩, ⟨4, x2⟩, ⟨4, x3⟩, ⟨4, x4⟩, ⟨6, x5⟩, ⟨1, BitVec.ofBool x6⟩],
    h ▸ fldB [⟨9, x0⟩] x1 [⟨4, x2⟩, ⟨4, x3⟩, ⟨4, x4⟩, ⟨6, x5⟩, ⟨1, BitVec.ofBool x6⟩],
    h ▸ segB [⟨9, x0⟩, ⟨4, x1⟩] x2 [⟨4, x3⟩, ⟨4, x4⟩, ⟨6, x5⟩, ⟨1, BitVec.ofBool x6⟩],
    h ▸ fldB [⟨9, x0⟩, ⟨4, x1⟩, ⟨4, x2⟩] x3 [⟨4, x4⟩, ⟨6, x5⟩, ⟨1, BitVec.ofBool x6⟩],
    h ▸ fldB [⟨9, x0⟩, ⟨4, x1⟩, ⟨4, x2⟩, ⟨4, x3⟩] x4 [⟨6, x5⟩, ⟨1, BitVec.ofBool x6⟩],
    h ▸ segB [⟨9, x0⟩, ⟨4, x1⟩, ⟨4, x2⟩, ⟨4, x3⟩, ⟨4, x4⟩] x5 [⟨1, BitVec.ofBool x6⟩],
    h ▸ flagB [⟨9, x0⟩, ⟨4, x1⟩, ⟨4, x2⟩, ⟨4, x3⟩, ⟨4, x4⟩, ⟨6, x5⟩] x6 []⟩

theorem lay78 {w : Nat} {x0 : BitVec 13} {x1 : BitVec 4} {x2 : BitVec 8} {x3 : BitVec 6} {x4 : Bool}
    (h : w = mixB [⟨13, x0⟩, ⟨4, x1⟩, ⟨8, x2⟩, ⟨6, x3⟩, ⟨1, BitVec.ofBool x4⟩]) :
    fld w 0 13 = x0 ∧ seg w 13 4 = x1.toNat ∧ seg w 17 8 = x2.toNat ∧ seg w 25 6 = x3.toNat ∧ flag w 31 = x4 := by
  exact ⟨h ▸ fldB [] x0 [⟨4, x1⟩, ⟨8, x2⟩, ⟨6, x3⟩, ⟨1, BitVec.ofBool x4⟩],
    h ▸ segB [⟨13, x0⟩] x1 [⟨8, x2⟩, ⟨6, x3⟩, ⟨1, BitVec.ofBool x4⟩],
    h ▸ segB [⟨13, x0⟩, ⟨4, x1⟩] x2 [⟨6, x3⟩, ⟨1, BitVec.ofBool x4⟩],
    h ▸ segB [⟨13, x0⟩, ⟨4, x1⟩, ⟨8, x2⟩] x3 [⟨1, BitVec.ofBool x4⟩],
    h ▸ flagB [⟨13, x0⟩, ⟨4, x1⟩, ⟨8, x2⟩, ⟨6, x3⟩] x4 []⟩

theorem lay79 {w : Nat} {x0 : BitVec 13} {x1 : BitVec 4} {x2 : BitVec 4} {x3 : BitVec 4} {x4 : BitVec 6} {x5 : Bool}
    (h : w = mixB [⟨13, x0⟩, ⟨4, x1⟩, ⟨4, x2⟩, ⟨4, x3⟩, ⟨6, x4⟩, ⟨1, BitVec.ofBool x5⟩]) :
    seg w 0 13 = x0.toNat ∧ seg w 13 4 = x1.toNat ∧ seg w 17 4 = x2.toNat ∧ fld w 21 4 = x3 ∧ seg w 25 6 = x4.toNat ∧ flag w 31 = x5 := by
  exact ⟨h ▸ segB [] x0 [⟨4, x1⟩, ⟨4, x2⟩, ⟨4, x3⟩, ⟨6, x4⟩, ⟨1, BitVec.ofBool x5⟩],
    h ▸ segB [⟨13, x0⟩] x1 [⟨4, x2⟩, ⟨4, x3⟩, ⟨6, x4⟩, ⟨1, BitVec.ofBool x5⟩],
    h ▸ segB [⟨13, x0⟩, ⟨4, x1⟩] x2 [⟨4, x3⟩, ⟨6, x4⟩, ⟨1, BitVec.ofBool x5⟩],
    h ▸ fldB [⟨13, x0⟩, ⟨4, x1⟩, ⟨4, x2⟩] x3 [⟨6, x4⟩, ⟨1, BitVec.ofBool x5⟩],
    h ▸ segB [⟨13, x0⟩, ⟨4, x1⟩, ⟨4, x2⟩, ⟨4, x3⟩] x4 [⟨1, BitVec.ofBool x5⟩],
    h ▸ flagB [⟨13, x0⟩, ⟨4, x1⟩, ⟨4, x2⟩, ⟨4, x3⟩, ⟨6, x4⟩] x5 []⟩

theorem lay80 {w : Nat} {x0 : BitVec 8} {x1 : BitVec 1} {x2 : BitVec 4} {x3 : BitVec 4} {x4 : BitVec 4} {x5 : BitVec 4} {x6 : BitVec 6} {x7 : Bool}
    (h : w = mixB [⟨8, x0⟩, ⟨1, x1⟩, ⟨4, x2⟩, ⟨4, x3⟩, ⟨4, x4⟩, ⟨4, x5⟩, ⟨6, x6⟩, ⟨1, BitVec.ofBool x7⟩]) :
    fld w 0 8 = x0 ∧ seg w 8 1 = x1.toNat ∧ fld w 9 4 = x2 ∧ seg w 13 4 = x3.toNat ∧ fld w 17 4 = x4 ∧ seg w 21 4 = x5.toNat ∧ seg w 25 6 = x6.toNat ∧ flag w 31 = x7 := by
  exact ⟨h ▸ fldB [] x0 [⟨1, x1⟩, ⟨4, x2⟩, ⟨4, x3⟩, ⟨4, x4⟩, ⟨4, x5⟩, ⟨6, x6⟩, ⟨1, BitVec.ofBool x7⟩],
    h ▸ segB [⟨8, x0⟩] x1 [⟨4, x2⟩, ⟨4, x3⟩, ⟨4, x4⟩, ⟨4, x5⟩, ⟨6, x6⟩, ⟨1, BitVec.ofBool x7⟩],
    h ▸ fldB [⟨8, x0⟩, ⟨1, x1⟩] x2 [⟨4, x3⟩, ⟨4, x4⟩, ⟨4, x5⟩, ⟨6, x6⟩, ⟨1, BitVec.ofBool x7⟩],
    h ▸ segB [⟨8, x0⟩, ⟨1, x1⟩, ⟨4, x2⟩] x3 [⟨4, x4⟩, ⟨4, x5⟩, ⟨6, x6⟩, ⟨1, BitVec.ofBool x7⟩],
    h ▸ fldB [⟨8, x0⟩, ⟨1, x1⟩, ⟨4, x2⟩, ⟨4, x3⟩] x4 [⟨4, x5⟩, ⟨6, x6⟩, ⟨1, BitVec.ofBool x7⟩],
    h ▸ segB [⟨8, x0⟩, ⟨1, x1⟩, ⟨4, x2⟩, ⟨4, x3⟩, ⟨4, x4⟩] x5 [⟨6, x6⟩, ⟨1, BitVec.ofBool x7⟩],
    h ▸ segB [⟨8, x0⟩, ⟨1, x1⟩, ⟨4, x2⟩, ⟨4, x3⟩, ⟨4, x4⟩, ⟨4, x5⟩] x6 [⟨1, BitVec.ofBool x7⟩],
    h ▸ flagB [⟨8, x0⟩, ⟨1, x1⟩, ⟨4, x2⟩, ⟨4, x3⟩, ⟨4, x4⟩, ⟨4, x5⟩, ⟨6, x6⟩] x7 []⟩

theorem lay81 {w : Nat} {x0 : BitVec 8} {x1 : BitVec 5} {x2 : BitVec 4} {x3 : BitVec 4} {x4 : BitVec 4} {x5 : BitVec 6} {x6 : Bool}
    (h : w = mixB [⟨8, x0⟩, ⟨5, x1⟩, ⟨4, x2⟩, ⟨4, x3⟩, ⟨4, x4⟩, ⟨6, x5⟩, ⟨1, BitVec.ofBool x6⟩]) :
    fld w 0 8 = x0 ∧ seg w 8 5 = x1.toNat ∧ seg w 13 4 = x2.toNat ∧ seg w 17 4 = x3.toNat ∧ fld w 21 4 = x4 ∧ seg w 25 6 = x5.toNat ∧ flag w 31 = x6 := by
  exact ⟨h ▸ fldB [] x0 [⟨5, x1⟩, ⟨4, x2⟩, ⟨4, x3⟩, ⟨4, x4⟩, ⟨6, x5⟩, ⟨1, BitVec.ofBool x6⟩],
    h ▸ segB [⟨8, x0⟩] x1 [⟨4, x2⟩, ⟨4, x3⟩, ⟨4, x4⟩, ⟨6, x5⟩, ⟨1, BitVec.ofBool x6⟩],
    h ▸ segB [⟨8, x0⟩, ⟨5, x1⟩] x2 [⟨4, x3⟩, ⟨4, x4⟩, ⟨6, x5⟩, ⟨1, BitVec.ofBool x6⟩],
    h ▸ segB [⟨8, x0⟩, ⟨5, x1⟩, ⟨4, x2⟩] x3 [⟨4, x4⟩, ⟨6, x5⟩, ⟨1, BitVec.ofBool x6⟩],
    h ▸ fldB [⟨8, x0⟩, ⟨5, x1⟩, ⟨4, x2⟩, ⟨4, x3⟩] x4 [⟨6, x5⟩, ⟨1, BitVec.ofBool x6⟩],
    h ▸ segB [⟨8, x0⟩, ⟨5, x1⟩, ⟨4, x2⟩, ⟨4, x3⟩, ⟨4, x4⟩] x5 [⟨1, BitVec.ofBool x6⟩],
    h ▸ flagB [⟨8, x0⟩, ⟨5, x1⟩, ⟨4, x2⟩, ⟨4, x3⟩, ⟨4, x4⟩, ⟨6, x5⟩] x6 []⟩

theorem lay82 {w : Nat} {x0 : BitVec 13} {x1 : BitVec 4} {x2 : BitVec 4} {x3 : BitVec 4} {x4 : BitVec 6} {x5 : Bool}
    (h : w = mixB [⟨13, x0⟩, ⟨4, x1⟩, ⟨4, x2⟩, ⟨4, x3⟩, ⟨6, x4⟩, ⟨1, BitVec.ofBool x5⟩]) :
    seg w 0 13 = x0.toNat ∧ seg w 13 4 = x1.toNat ∧ fld w 17 4 = x2 ∧ fld w 21 4 = x3 ∧ seg w 25 6 = x4.toNat ∧ flag w 31 = x5 := by
  exact ⟨h ▸ segB [] x0 [⟨4, x1⟩, ⟨4, x2⟩, ⟨4, x3⟩, ⟨6, x4⟩, ⟨1, BitVec.ofBool x5⟩],
    h ▸ segB [⟨13, x0⟩] x1 [⟨4, x2⟩, ⟨4, x3⟩, ⟨6, x4⟩, ⟨1, BitVec.ofBool x5⟩],
    h ▸ fldB [⟨13, x0⟩, ⟨4, x1⟩] x2 [⟨4, x3⟩, ⟨6, x4⟩, ⟨1, BitVec.ofBool x5⟩],
    h ▸ fldB [⟨13, x0⟩, ⟨4, x1⟩, ⟨4, x2⟩] x3 [⟨6, x4⟩, ⟨1, BitVec.ofBool x5⟩],
    h ▸ segB [⟨13, x0⟩, ⟨4, x1⟩, ⟨4, x2⟩, ⟨4, x3⟩] x4 [⟨1, BitVec.ofBool x5⟩],
    h ▸ flagB [⟨13, x0⟩, ⟨4, x1⟩, ⟨4, x2⟩, ⟨4, x3⟩, ⟨6, x4⟩] x5 []⟩

theorem lay83 {w : Nat} {x0 : BitVec 13} {x1 : BitVec 4} {x2 : BitVec 8} {x3 : BitVec 6} {x4 : BitVec 1}
    (h : w = mixB [⟨13, x0⟩, ⟨4, x1⟩, ⟨8, x2⟩, ⟨6, x3⟩, ⟨1, x4⟩]) :
    seg w 0 13 = x0.toNat ∧ seg w 13 4 = x1.toNat ∧ seg w 17 8 = x2.toNat ∧ seg w 25 6 = x3.toNat ∧ seg w 31 1 = x4.toNat := by
  exact ⟨h ▸ segB [] x0 [⟨4, x1⟩, ⟨8, x2⟩, ⟨6, x3⟩, ⟨1, x4⟩],
    h ▸ segB [⟨13, x0⟩] x1 [⟨8, x2⟩, ⟨6, x3⟩, ⟨1, x4⟩],
    h ▸ segB [⟨13, x0⟩, ⟨4, x1⟩] x2 [⟨6, x3⟩, ⟨1, x4⟩],
    h ▸ segB [⟨13, x0⟩, ⟨4, x1⟩, ⟨8, x2⟩] x3 [⟨1, x4⟩],
    h ▸ segB [⟨13, x0⟩, ⟨4, x1⟩, ⟨8, x2⟩, ⟨6, x3⟩] x4 []⟩

theorem add (sw : Bool) (d : BitVec 4) (a : BitVec 4) (b : BitVec 4) : Statement (.add sw d a b) := by
  intro hwf _
  refine roundtrip (l := [⟨5, 0#5⟩, ⟨8, 0#8⟩, ⟨4, b⟩, ⟨4, a⟩, ⟨4, d⟩, ⟨6, 1#6⟩, ⟨1, BitVec.ofBool sw⟩]) ?_ rfl ?_
  · show encAdd sw d a b = _
    simp only [encAdd, mixB, b2n_eq, BitVec.toNat_ofNat, Nat.reducePow, Nat.reduceMod]; omega
  · intro wd hwd
    obtain ⟨s0, s5, s13, s17, s21, s25, s31⟩ := lay1 hwd
    rw [atMajor01 wd s25]; unfold decMajor01
    rw [s5]
    show leaf (seg wd 0 5 == 0) (.add (flag wd 31) (fld wd 21 4) (fld wd 17 4) (fld wd 13 4)) = _
    rw [s0, s31, s21, s17, s13]
    exact leaf_ok rfl hwf

theorem addW (sw : Bool) (d : BitVec 4) (a : BitVec 4) (b : BitVec 4) : Statement (.addW sw d a b) := by
  intro hwf _
  refine roundtrip (l := [⟨5, 0#5⟩, ⟨8, 0#8⟩, ⟨4, b⟩, ⟨4, a⟩, ⟨4, d⟩, ⟨6, 2#6⟩, ⟨1, BitVec.ofBool sw⟩]) ?_ rfl ?_
  · show encAddW sw d a b = _
    simp only [encAddW, mixB, b2n_eq, BitVec.toNat_ofNat, Nat.reducePow, Nat.reduceMod]; omega
  · intro wd hwd
    obtain ⟨s0, s5, s13, s17, s21, s25, s31⟩ := lay1 hwd
    rw [atMajor02 wd s25]; unfold decMajor02
    rw [s5]
    show leaf (seg wd 0 5 == 0) (.addW (flag wd 31) (fld wd 21 4) (fld wd 17 4) (fld wd 13 4)) = _
    rw [s0, s31, s21, s17, s13]
    exact leaf_ok rfl hwf

theorem sub (sw : Bool) (d : BitVec 4) (a : BitVec 4) (b : BitVec 4) : Statement (.sub sw d a b) := by
  intro hwf _
  refine roundtrip (l := [⟨5, 0#5⟩, ⟨8, 1#8⟩, ⟨4, b⟩, ⟨4, a⟩, ⟨4, d⟩, ⟨6, 1#6⟩, ⟨1, BitVec.ofBool sw⟩]) ?_ rfl ?_
  · show encSub sw d a b = _
    simp only [encSub, mixB, b2n_eq, BitVec.toNat_ofNat, Nat.reducePow, Nat.reduceMod]; omega
  · intro wd hwd
    obtain ⟨s0, s5, s13, s17, s21, s25, s31⟩ := lay1 hwd
    rw [atMajor01 wd s25]; unfold decMajor01
    rw [s5]
    show leaf (seg wd 0 5 == 0) (.sub (flag wd 31) (fld wd 21 4) (fld wd 17 4) (fld wd 13 4)) = _
    rw [s0, s31, s21, s17, s13]
    exact leaf_ok rfl hwf

theorem subW (sw : Bool) (d : BitVec 4) (a : BitVec 4) (b : BitVec 4) : Statement (.subW sw d a b) := by
  intro hwf _
  refine roundtrip (l := [⟨5, 0#5⟩, ⟨8, 1#8⟩, ⟨4, b⟩, ⟨4, a⟩, ⟨4, d⟩, ⟨6, 2#6⟩, ⟨1, BitVec.ofBool sw⟩]) ?_ rfl ?_
  · show encSubW sw d a b = _
    simp only [encSubW, mixB, b2n_eq, BitVec.toNat_ofNat, Nat.reducePow, Nat.reduceMod]; omega
  · intro wd hwd
    obtain ⟨s0, s5, s13, s17, s21, s25, s31⟩ := lay1 hwd
    rw [atMajor02 wd s25]; unfold decMajor02
    rw [s5]
    show leaf (seg wd 0 5 == 0) (.subW (flag wd 31) (fld wd 21 4) (fld wd 17 4) (fld wd 13 4)) = _
    rw [s0, s31, s21, s17, s13]
    exact leaf_ok rfl hwf

theorem and (sw : Bool) (d : BitVec 4) (a : BitVec 4) (b : BitVec 4) : Statement (.and sw d a b) := by
  intro hwf _
  refine roundtrip (l := [⟨5, 0#5⟩, ⟨8, 2#8⟩, ⟨4, b⟩, ⟨4, a⟩, ⟨4, d⟩, ⟨6, 1#6⟩, ⟨1, BitVec.ofBool sw⟩]) ?_ rfl ?_
  · show encAnd sw d a b = _
    simp only [encAnd, mixB, b2n_eq, BitVec.toNat_ofNat, Nat.reducePow, Nat.reduceMod]; omega
  · intro wd hwd
    obtain ⟨s0, s5, s13, s17, s21, s25, s31⟩ := lay1 hwd
    rw [atMajor01 wd s25]; unfold decMajor01
    rw [s5]
    show leaf (seg wd 0 5 == 0) (.and (flag wd 31) (fld wd 21 4) (fld wd 17 4) (fld wd 13 4)) = _
    rw [s0, s31, s21, s17, s13]
    exact leaf_ok rfl hwf

theorem andW (sw : Bool) (d : BitVec 4) (a : BitVec 4) (b : BitVec 4) : Statement (.andW sw d a b) := by
  intro hwf _
  refine roundtrip (l := [⟨5, 0#5⟩, ⟨8, 2#8⟩, ⟨4, b⟩, ⟨4, a⟩, ⟨4, d⟩, ⟨6, 2#6⟩, ⟨1, BitVec.ofBool sw⟩]) ?_ rfl ?_
  · show encAndW sw d a b = _
    simp only [encAndW, mixB, b2n_eq, BitVec.toNat_ofNat, Nat.reducePow, Nat.reduceMod]; omega
  · intro wd hwd
    obtain ⟨s0, s5, s13, s17, s21, s25, s31⟩ := lay1 hwd
    rw [atMajor02 wd s25]; unfold decMajor02
    rw [s5]
    show leaf (seg wd 0 5 == 0) (.andW (flag wd 31) (fld wd 21 4) (fld wd 17 4) (fld wd 13 4)) = _
    rw [s0, s31, s21, s17, s13]
    exact leaf_ok rfl hwf

theorem or (sw : Bool) (d : BitVec 4) (a : BitVec 4) (b : BitVec 4) : Statement (.or sw d a b) := by
  intro hwf _
  refine roundtrip (l := [⟨5, 0#5⟩, ⟨8, 3#8⟩, ⟨4, b⟩, ⟨4, a⟩, ⟨4, d⟩, ⟨6, 1#6⟩, ⟨1, BitVec.ofBool sw⟩]) ?_ rfl ?_
  · show encOr sw d a b = _
    simp only [encOr, mixB, b2n_eq, BitVec.toNat_ofNat, Nat.reducePow, Nat.reduceMod]; omega
  · intro wd hwd
    obtain ⟨s0, s5, s13, s17, s21, s25, s31⟩ := lay1 hwd
    rw [atMajor01 wd s25]; unfold decMajor01
    rw [s5]
    show leaf (seg wd 0 5 == 0) (.or (flag wd 31) (fld wd 21 4) (fld wd 17 4) (fld wd 13 4)) = _
    rw [s0, s31, s21, s17, s13]
    exact leaf_ok rfl hwf

theorem orW (sw : Bool) (d : BitVec 4) (a : BitVec 4) (b : BitVec 4) : Statement (.orW sw d a b) := by
  intro hwf _
  refine roundtrip (l := [⟨5, 0#5⟩, ⟨8, 3#8⟩, ⟨4, b⟩, ⟨4, a⟩, ⟨4, d⟩, ⟨6, 2#6⟩, ⟨1, BitVec.ofBool sw⟩]) ?_ rfl ?_
  · show encOrW sw d a b = _
    simp only [encOrW, mixB, b2n_eq, BitVec.toNat_ofNat, Nat.reducePow, Nat.reduceMod]; omega
  · intro wd hwd
    obtain ⟨s0, s5, s13, s17, s21, s25, s31⟩ := lay1 hwd
    rw [atMajor02 wd s25]; unfold decMajor02
    rw [s5]
    show leaf (seg wd 0 5 == 0) (.orW (flag wd 31) (fld wd 21 4) (fld wd 17 4) (fld wd 13 4)) = _
    rw [s0, s31, s21, s17, s13]
    exact leaf_ok rfl hwf

theorem xor (sw : Bool) (d : BitVec 4) (a : BitVec 4) (b : BitVec 4) : Statement (.xor sw d a b) := by
  intro hwf _
  refine roundtrip (l := [⟨5, 0#5⟩, ⟨8, 4#8⟩, ⟨4, b⟩, ⟨4, a⟩, ⟨4, d⟩, ⟨6, 1#6⟩, ⟨1, BitVec.ofBool sw⟩]) ?_ rfl ?_
  · show encXor sw d a b = _
    simp only [encXor, mixB, b2n_eq, BitVec.toNat_ofNat, Nat.reducePow, Nat.reduceMod]; omega
  · intro wd hwd
    obtain ⟨s0, s5, s13, s17, s21, s25, s31⟩ := lay1 hwd
    rw [atMajor01 wd s25]; unfold decMajor01
    rw [s5]
    show leaf (seg wd 0 5 == 0) (.xor (flag wd 31) (fld wd 21 4) (fld wd 17 4) (fld wd 13 4)) = _
    rw [s0, s31, s21, s17, s13]
    exact leaf_ok rfl hwf

theorem xorW (sw : Bool) (d : BitVec 4) (a : BitVec 4) (b : BitVec 4) : Statement (.xorW sw d a b) := by
  intro hwf _
  refine roundtrip (l := [⟨5, 0#5⟩, ⟨8, 4#8⟩, ⟨4, b⟩, ⟨4, a⟩, ⟨4, d⟩, ⟨6, 2#6⟩, ⟨1, BitVec.ofBool sw⟩]) ?_ rfl ?_
  · show encXorW sw d a b = _
    simp only [encXorW, mixB, b2n_eq, BitVec.toNat_ofNat, Nat.reducePow, Nat.reduceMod]; omega
  · intro wd hwd
    obtain ⟨s0, s5, s13, s17, s21, s25, s31⟩ := lay1 hwd
    rw [atMajor02 wd s25]; unfold decMajor02
    rw [s5]
    show leaf (seg wd 0 5 == 0) (.xorW (flag wd 31) (fld wd 21 4) (fld wd 17 4) (fld wd 13 4)) = _
    rw [s0, s31, s21, s17, s13]
    exact leaf_ok rfl hwf

theorem andn (sw : Bool) (d : BitVec 4) (a : BitVec 4) (b : BitVec 4) : Statement (.andn sw d a b) := by
  intro hwf _
  refine roundtrip (l := [⟨5, 0#5⟩, ⟨8, 5#8⟩, ⟨4, b⟩, ⟨4, a⟩, ⟨4, d⟩, ⟨6, 1#6⟩, ⟨1, BitVec.ofBool sw⟩]) ?_ rfl ?_
  · show encAndn sw d a b = _
    simp only [encAndn, mixB, b2n_eq, BitVec.toNat_ofNat, Nat.reducePow, Nat.reduceMod]; omega
  · intro wd hwd
    obtain ⟨s0, s5, s13, s17, s21, s25, s31⟩ := lay1 hwd
    rw [atMajor01 wd s25]; unfold decMajor01
    rw [s5]
    show leaf (seg wd 0 5 == 0) (.andn (flag wd 31) (fld wd 21 4) (fld wd 17 4) (fld wd 13 4)) = _
    rw [s0, s31, s21, s17, s13]
    exact leaf_ok rfl hwf

theorem andnW (sw : Bool) (d : BitVec 4) (a : BitVec 4) (b : BitVec 4) : Statement (.andnW sw d a b) := by
  intro hwf _
  refine roundtrip (l := [⟨5, 0#5⟩, ⟨8, 5#8⟩, ⟨4, b⟩, ⟨4, a⟩, ⟨4, d⟩, ⟨6, 2#6⟩, ⟨1, BitVec.ofBool sw⟩]) ?_ rfl ?_
  · show encAndnW sw d a b = _
    simp only [encAndnW, mixB, b2n_eq, BitVec.toNat_ofNat, Nat.reducePow, Nat.reduceMod]; omega
  · intro wd hwd
    obtain ⟨s0, s5, s13, s17, s21, s25, s31⟩ := lay1 hwd
    rw [atMajor02 wd s25]; unfold decMajor02
    rw [s5]
    show leaf (seg wd 0 5 == 0) (.andnW (flag wd 31) (fld wd 21 4) (fld wd 17 4) (fld wd 13 4)) = _
    rw [s0, s31, s21, s17, s13]
    exact leaf_ok rfl hwf

theorem shl (sw : Bool) (d : BitVec 4) (a : BitVec 4) (b : BitVec 4) : Statement (.shl sw d a b) := by
  intro hwf _
  refine roundtrip (l := [⟨5, 0#5⟩, ⟨8, 6#8⟩, ⟨4, b⟩, ⟨4, a⟩, ⟨4, d⟩, ⟨6, 1#6⟩, ⟨1, BitVec.ofBool sw⟩]) ?_ rfl ?_
  · show encShl sw d a b = _
    simp only [encShl, mixB, b2n_eq, BitVec.toNat_ofNat, Nat.reducePow, Nat.reduceMod]; omega
  · intro wd hwd
    obtain ⟨s0, s5, s13, s17, s21, s25, s31⟩ := lay1 hwd
    rw [atMajor01 wd s25]; unfold decMajor01
    rw [s5]
    show leaf (seg wd 0 5 == 0) (.shl (flag wd 31) (fld wd 21 4) (fld wd 17 4) (fld wd 13 4)) = _
    rw [s0, s31, s21, s17, s13]
    exact leaf_ok rfl hwf

theorem shlW (sw : Bool) (d : BitVec 4) (a : BitVec 4) (b : BitVec 4) : Statement (.shlW sw d a b) := by
  intro hwf _
  refine roundtrip (l := [⟨5, 0#5⟩, ⟨8, 6#8⟩, ⟨4, b⟩, ⟨4, a⟩, ⟨4, d⟩, ⟨6, 2#6⟩, ⟨1, BitVec.ofBool sw⟩]) ?_ rfl ?_
  · show encShlW sw d a b = _
    simp only [encShlW, mixB, b2n_eq, BitVec.toNat_ofNat, Nat.reducePow, Nat.reduceMod]; omega
  · intro wd hwd
    obtain ⟨s0, s5, s13, s17, s21, s25, s31⟩ := lay1 hwd
    rw [atMajor02 wd s25]; unfold decMajor02
    rw [s5]
    show leaf (seg wd 0 5 == 0) (.shlW (flag wd 31) (fld wd 21 4) (fld wd 17 4) (fld wd 13 4)) = _
    rw [s0, s31, s21, s17, s13]
    exact leaf_ok rfl hwf

theorem shr (sw : Bool) (d : BitVec 4) (a : BitVec 4) (b : BitVec 4) : Statement (.shr sw d a b) := by
  intro hwf _
  refine roundtrip (l := [⟨5, 0#5⟩, ⟨8, 7#8⟩, ⟨4, b⟩, ⟨4, a⟩, ⟨4, d⟩, ⟨6, 1#6⟩, ⟨1, BitVec.ofBool sw⟩]) ?_ rfl ?_
  · show encShr sw d a b = _
    simp only [encShr, mixB, b2n_eq, BitVec.toNat_ofNat, Nat.reducePow, Nat.reduceMod]; omega
  · intro wd hwd
    obtain ⟨s0, s5, s13, s17, s21, s25, s31⟩ := lay1 hwd
    rw [atMajor01 wd s25]; unfold decMajor01
    rw [s5]
    show leaf (seg wd 0 5 == 0) (.shr (flag wd 31) (fld wd 21 4) (fld wd 17 4) (fld wd 13 4)) = _
    rw [s0, s31, s21, s17, s13]
    exact leaf_ok rfl hwf

theorem shrW (sw : Bool) (d : BitVec 4) (a : BitVec 4) (b : BitVec 4) : Statement (.shrW sw d a b) := by
  intro hwf _
  refine roundtrip (l := [⟨5, 0#5⟩, ⟨8, 7#8⟩, ⟨4, b⟩, ⟨4, a⟩, ⟨4, d⟩, ⟨6, 2#6⟩, ⟨1, BitVec.ofBool sw⟩]) ?_ rfl ?_
  · show encShrW sw d a b = _
    simp only [encShrW, mixB, b2n_eq, BitVec.toNat_ofNat, Nat.reducePow, Nat.reduceMod]; omega
  · intro wd hwd
    obtain ⟨s0, s5, s13, s17, s21, s25, s31⟩ := lay1 hwd
    rw [atMajor02 wd s25]; unfold decMajor02
    rw [s5]
    show leaf (seg wd 0 5 == 0) (.shrW (flag wd 31) (fld wd 21 4) (fld wd 17 4) (fld wd 13 4)) = _
    rw [s0, s31, s21, s17, s13]
    exact leaf_ok rfl hwf

theorem sar (sw : Bool) (d : BitVec 4) (a : BitVec 4) (b : BitVec 4) : Statement (.sar sw d a b) := by
  intro hwf _
  refine roundtrip (l := [⟨5, 0#5⟩, ⟨8, 8#8⟩, ⟨4, b⟩, ⟨4, a⟩, ⟨4, d⟩, ⟨6, 1#6⟩, ⟨1, BitVec.ofBool sw⟩]) ?_ rfl ?_
  · show encSar sw d a b = _
    simp only [encSar, mixB, b2n_eq, BitVec.toNat_ofNat, Nat.reducePow, Nat.reduceMod]; omega
  · intro wd hwd
    obtain ⟨s0, s5, s13, s17, s21, s25, s31⟩ := lay1 hwd
    rw [atMajor01 wd s25]; unfold decMajor01
    rw [s5]
    show leaf (seg wd 0 5 == 0) (.sar (flag wd 31) (fld wd 21 4) (fld wd 17 4) (fld wd 13 4)) = _
    rw [s0, s31, s21, s17, s13]
    exact leaf_ok rfl hwf

theorem sarW (sw : Bool) (d : BitVec 4) (a : BitVec 4) (b : BitVec 4) : Statement (.sarW sw d a b) := by
  intro hwf _
  refine roundtrip (l := [⟨5, 0#5⟩, ⟨8, 8#8⟩, ⟨4, b⟩, ⟨4, a⟩, ⟨4, d⟩, ⟨6, 2#6⟩, ⟨1, BitVec.ofBool sw⟩]) ?_ rfl ?_
  · show encSarW sw d a b = _
    simp only [encSarW, mixB, b2n_eq, BitVec.toNat_ofNat, Nat.reducePow, Nat.reduceMod]; omega
  · intro wd hwd
    obtain ⟨s0, s5, s13, s17, s21, s25, s31⟩ := lay1 hwd
    rw [atMajor02 wd s25]; unfold decMajor02
    rw [s5]
    show leaf (seg wd 0 5 == 0) (.sarW (flag wd 31) (fld wd 21 4) (fld wd 17 4) (fld wd 13 4)) = _
    rw [s0, s31, s21, s17, s13]
    exact leaf_ok rfl hwf

theorem min (sw : Bool) (d : BitVec 4) (a : BitVec 4) (b : BitVec 4) : Statement (.min sw d a b) := by
  intro hwf _
  refine roundtrip (l := [⟨5, 0#5⟩, ⟨8, 9#8⟩, ⟨4, b⟩, ⟨4, a⟩, ⟨4, d⟩, ⟨6, 1#6⟩, ⟨1, BitVec.ofBool sw⟩]) ?_ rfl ?_
  · show encMin sw d a b = _
    simp only [encMin, mixB, b2n_eq, BitVec.toNat_ofNat, Nat.reducePow, Nat.reduceMod]; omega
  · intro wd hwd
    obtain ⟨s0, s5, s13, s17, s21, s25, s31⟩ := lay1 hwd
    rw [atMajor01 wd s25]; unfold decMajor01
    rw [s5]
    show leaf (seg wd 0 5 == 0) (.min (flag wd 31) (fld wd 21 4) (fld wd 17 4) (fld wd 13 4)) = _
    rw [s0, s31, s21, s17, s13]
    exact leaf_ok rfl hwf

theorem minW (sw : Bool) (d : BitVec 4) (a : BitVec 4) (b : BitVec 4) : Statement (.minW sw d a b) := by
  intro hwf _
  refine roundtrip (l := [⟨5, 0#5⟩, ⟨8, 9#8⟩, ⟨4, b⟩, ⟨4, a⟩, ⟨4, d⟩, ⟨6, 2#6⟩, ⟨1, BitVec.ofBool sw⟩]) ?_ rfl ?_
  · show encMinW sw d a b = _
    simp only [encMinW, mixB, b2n_eq, BitVec.toNat_ofNat, Nat.reducePow, Nat.reduceMod]; omega
  · intro wd hwd
    obtain ⟨s0, s5, s13, s17, s21, s25, s31⟩ := lay1 hwd
    rw [atMajor02 wd s25]; unfold decMajor02
    rw [s5]
    show leaf (seg wd 0 5 == 0) (.minW (flag wd 31) (fld wd 21 4) (fld wd 17 4) (fld wd 13 4)) = _
    rw [s0, s31, s21, s17, s13]
    exact leaf_ok rfl hwf

theorem max (sw : Bool) (d : BitVec 4) (a : BitVec 4) (b : BitVec 4) : Statement (.max sw d a b) := by
  intro hwf _
  refine roundtrip (l := [⟨5, 0#5⟩, ⟨8, 10#8⟩, ⟨4, b⟩, ⟨4, a⟩, ⟨4, d⟩, ⟨6, 1#6⟩, ⟨1, BitVec.ofBool sw⟩]) ?_ rfl ?_
  · show encMax sw d a b = _
    simp only [encMax, mixB, b2n_eq, BitVec.toNat_ofNat, Nat.reducePow, Nat.reduceMod]; omega
  · intro wd hwd
    obtain ⟨s0, s5, s13, s17, s21, s25, s31⟩ := lay1 hwd
    rw [atMajor01 wd s25]; unfold decMajor01
    rw [s5]
    show leaf (seg wd 0 5 == 0) (.max (flag wd 31) (fld wd 21 4) (fld wd 17 4) (fld wd 13 4)) = _
    rw [s0, s31, s21, s17, s13]
    exact leaf_ok rfl hwf

theorem maxW (sw : Bool) (d : BitVec 4) (a : BitVec 4) (b : BitVec 4) : Statement (.maxW sw d a b) := by
  intro hwf _
  refine roundtrip (l := [⟨5, 0#5⟩, ⟨8, 10#8⟩, ⟨4, b⟩, ⟨4, a⟩, ⟨4, d⟩, ⟨6, 2#6⟩, ⟨1, BitVec.ofBool sw⟩]) ?_ rfl ?_
  · show encMaxW sw d a b = _
    simp only [encMaxW, mixB, b2n_eq, BitVec.toNat_ofNat, Nat.reducePow, Nat.reduceMod]; omega
  · intro wd hwd
    obtain ⟨s0, s5, s13, s17, s21, s25, s31⟩ := lay1 hwd
    rw [atMajor02 wd s25]; unfold decMajor02
    rw [s5]
    show leaf (seg wd 0 5 == 0) (.maxW (flag wd 31) (fld wd 21 4) (fld wd 17 4) (fld wd 13 4)) = _
    rw [s0, s31, s21, s17, s13]
    exact leaf_ok rfl hwf

theorem minu (sw : Bool) (d : BitVec 4) (a : BitVec 4) (b : BitVec 4) : Statement (.minu sw d a b) := by
  intro hwf _
  refine roundtrip (l := [⟨5, 0#5⟩, ⟨8, 11#8⟩, ⟨4, b⟩, ⟨4, a⟩, ⟨4, d⟩, ⟨6, 1#6⟩, ⟨1, BitVec.ofBool sw⟩]) ?_ rfl ?_
  · show encMinu sw d a b = _
    simp only [encMinu, mixB, b2n_eq, BitVec.toNat_ofNat, Nat.reducePow, Nat.reduceMod]; omega
  · intro wd hwd
    obtain ⟨s0, s5, s13, s17, s21, s25, s31⟩ := lay1 hwd
    rw [atMajor01 wd s25]; unfold decMajor01
    rw [s5]
    show leaf (seg wd 0 5 == 0) (.minu (flag wd 31) (fld wd 21 4) (fld wd 17 4) (fld wd 13 4)) = _
    rw [s0, s31, s21, s17, s13]
    exact leaf_ok rfl hwf

theorem minuW (sw : Bool) (d : BitVec 4) (a : BitVec 4) (b : BitVec 4) : Statement (.minuW sw d a b) := by
  intro hwf _
  refine roundtrip (l := [⟨5, 0#5⟩, ⟨8, 11#8⟩, ⟨4, b⟩, ⟨4, a⟩, ⟨4, d⟩, ⟨6, 2#6⟩, ⟨1, BitVec.ofBool sw⟩]) ?_ rfl ?_
  · show encMinuW sw d a b = _
    simp only [encMinuW, mixB, b2n_eq, BitVec.toNat_ofNat, Nat.reducePow, Nat.reduceMod]; omega
  · intro wd hwd
    obtain ⟨s0, s5, s13, s17, s21, s25, s31⟩ := lay1 hwd
    rw [atMajor02 wd s25]; unfold decMajor02
    rw [s5]
    show leaf (seg wd 0 5 == 0) (.minuW (flag wd 31) (fld wd 21 4) (fld wd 17 4) (fld wd 13 4)) = _
    rw [s0, s31, s21, s17, s13]
    exact leaf_ok rfl hwf

theorem maxu (sw : Bool) (d : BitVec 4) (a : BitVec 4) (b : BitVec 4) : Statement (.maxu sw d a b) := by
  intro hwf _
  refine roundtrip (l := [⟨5, 0#5⟩, ⟨8, 12#8⟩, ⟨4, b⟩, ⟨4, a⟩, ⟨4, d⟩, ⟨6, 1#6⟩, ⟨1, BitVec.ofBool sw⟩]) ?_ rfl ?_
  · show encMaxu sw d a b = _
    simp only [encMaxu, mixB, b2n_eq, BitVec.toNat_ofNat, Nat.reducePow, Nat.reduceMod]; omega
  · intro wd hwd
    obtain ⟨s0, s5, s13, s17, s21, s25, s31⟩ := lay1 hwd
    rw [atMajor01 wd s25]; unfold decMajor01
    rw [s5]
    show leaf (seg wd 0 5 == 0) (.maxu (flag wd 31) (fld wd 21 4) (fld wd 17 4) (fld wd 13 4)) = _
    rw [s0, s31, s21, s17, s13]
    exact leaf_ok rfl hwf

theorem maxuW (sw : Bool) (d : BitVec 4) (a : BitVec 4) (b : BitVec 4) : Statement (.maxuW sw d a b) := by
  intro hwf _
  refine roundtrip (l := [⟨5, 0#5⟩, ⟨8, 12#8⟩, ⟨4, b⟩, ⟨4, a⟩, ⟨4, d⟩, ⟨6, 2#6⟩, ⟨1, BitVec.ofBool sw⟩]) ?_ rfl ?_
  · show encMaxuW sw d a b = _
    simp only [encMaxuW, mixB, b2n_eq, BitVec.toNat_ofNat, Nat.reducePow, Nat.reduceMod]; omega
  · intro wd hwd
    obtain ⟨s0, s5, s13, s17, s21, s25, s31⟩ := lay1 hwd
    rw [atMajor02 wd s25]; unfold decMajor02
    rw [s5]
    show leaf (seg wd 0 5 == 0) (.maxuW (flag wd 31) (fld wd 21 4) (fld wd 17 4) (fld wd 13 4)) = _
    rw [s0, s31, s21, s17, s13]
    exact leaf_ok rfl hwf

theorem mul (sw : Bool) (d : BitVec 4) (a : BitVec 4) (b : BitVec 4) : Statement (.mul sw d a b) := by
  intro hwf _
  refine roundtrip (l := [⟨5, 0#5⟩, ⟨8, 13#8⟩, ⟨4, b⟩, ⟨4, a⟩, ⟨4, d⟩, ⟨6, 1#6⟩, ⟨1, BitVec.ofBool sw⟩]) ?_ rfl ?_
  · show encMul sw d a b = _
    simp only [encMul, mixB, b2n_eq, BitVec.toNat_ofNat, Nat.reducePow, Nat.reduceMod]; omega
  · intro wd hwd
    obtain ⟨s0, s5, s13, s17, s21, s25, s31⟩ := lay1 hwd
    rw [atMajor01 wd s25]; unfold decMajor01
    rw [s5]
    show leaf (seg wd 0 5 == 0) (.mul (flag wd 31) (fld wd 21 4) (fld wd 17 4) (fld wd 13 4)) = _
    rw [s0, s31, s21, s17, s13]
    exact leaf_ok rfl hwf

theorem mulW (sw : Bool) (d : BitVec 4) (a : BitVec 4) (b : BitVec 4) : Statement (.mulW sw d a b) := by
  intro hwf _
  refine roundtrip (l := [⟨5, 0#5⟩, ⟨8, 13#8⟩, ⟨4, b⟩, ⟨4, a⟩, ⟨4, d⟩, ⟨6, 2#6⟩, ⟨1, BitVec.ofBool sw⟩]) ?_ rfl ?_
  · show encMulW sw d a b = _
    simp only [encMulW, mixB, b2n_eq, BitVec.toNat_ofNat, Nat.reducePow, Nat.reduceMod]; omega
  · intro wd hwd
    obtain ⟨s0, s5, s13, s17, s21, s25, s31⟩ := lay1 hwd
    rw [atMajor02 wd s25]; unfold decMajor02
    rw [s5]
    show leaf (seg wd 0 5 == 0) (.mulW (flag wd 31) (fld wd 21 4) (fld wd 17 4) (fld wd 13 4)) = _
    rw [s0, s31, s21, s17, s13]
    exact leaf_ok rfl hwf

theorem mulh (sw : Bool) (d : BitVec 4) (a : BitVec 4) (b : BitVec 4) : Statement (.mulh sw d a b) := by
  intro hwf _
  refine roundtrip (l := [⟨5, 0#5⟩, ⟨8, 14#8⟩, ⟨4, b⟩, ⟨4, a⟩, ⟨4, d⟩, ⟨6, 1#6⟩, ⟨1, BitVec.ofBool sw⟩]) ?_ rfl ?_
  · show encMulh sw d a b = _
    simp only [encMulh, mixB, b2n_eq, BitVec.toNat_ofNat, Nat.reducePow, Nat.reduceMod]; omega
  · intro wd hwd
    obtain ⟨s0, s5, s13, s17, s21, s25, s31⟩ := lay1 hwd
    rw [atMajor01 wd s25]; unfold decMajor01
    rw [s5]
    show leaf (seg wd 0 5 == 0) (.mulh (flag wd 31) (fld wd 21 4) (fld wd 17 4) (fld wd 13 4)) = _
    rw [s0, s31, s21, s17, s13]
    exact leaf_ok rfl hwf

theorem mulhW (sw : Bool) (d : BitVec 4) (a : BitVec 4) (b : BitVec 4) : Statement (.mulhW sw d a b) := by
  intro hwf _
  refine roundtrip (l := [⟨5, 0#5⟩, ⟨8, 14#8⟩, ⟨4, b⟩, ⟨4, a⟩, ⟨4, d⟩, ⟨6, 2#6⟩, ⟨1, BitVec.ofBool sw⟩]) ?_ rfl ?_
  · show encMulhW sw d a b = _
    simp only [encMulhW, mixB, b2n_eq, BitVec.toNat_ofNat, Nat.reducePow, Nat.reduceMod]; omega
  · intro wd hwd
    obtain ⟨s0, s5, s13, s17, s21, s25, s31⟩ := lay1 hwd
    rw [atMajor02 wd s25]; unfold decMajor02
    rw [s5]
    show leaf (seg wd 0 5 == 0) (.mulhW (flag wd 31) (fld wd 21 4) (fld wd 17 4) (fld wd 13 4)) = _
    rw [s0, s31, s21, s17, s13]
    exact leaf_ok rfl hwf

theorem mulhu (sw : Bool) (d : BitVec 4) (a : BitVec 4) (b : BitVec 4) : Statement (.mulhu sw d a b) := by
  intro hwf _
  refine roundtrip (l := [⟨5, 0#5⟩, ⟨8, 15#8⟩, ⟨4, b⟩, ⟨4, a⟩, ⟨4, d⟩, ⟨6, 1#6⟩, ⟨1, BitVec.ofBool sw⟩]) ?_ rfl ?_
  · show encMulhu sw d a b = _
    simp only [encMulhu, mixB, b2n_eq, BitVec.toNat_ofNat, Nat.reducePow, Nat.reduceMod]; omega
  · intro wd hwd
    obtain ⟨s0, s5, s13, s17, s21, s25, s31⟩ := lay1 hwd
    rw [atMajor01 wd s25]; unfold decMajor01
    rw [s5]
    show leaf (seg wd 0 5 == 0) (.mulhu (flag wd 31) (fld wd 21 4) (fld wd 17 4) (fld wd 13 4)) = _
    rw [s0, s31, s21, s17, s13]
    exact leaf_ok rfl hwf

theorem mulhuW (sw : Bool) (d : BitVec 4) (a : BitVec 4) (b : BitVec 4) : Statement (.mulhuW sw d a b) := by
  intro hwf _
  refine roundtrip (l := [⟨5, 0#5⟩, ⟨8, 15#8⟩, ⟨4, b⟩, ⟨4, a⟩, ⟨4, d⟩, ⟨6, 2#6⟩, ⟨1, BitVec.ofBool sw⟩]) ?_ rfl ?_
  · show encMulhuW sw d a b = _
    simp only [encMulhuW, mixB, b2n_eq, BitVec.toNat_ofNat, Nat.reducePow, Nat.reduceMod]; omega
  · intro wd hwd
    obtain ⟨s0, s5, s13, s17, s21, s25, s31⟩ := lay1 hwd
    rw [atMajor02 wd s25]; unfold decMajor02
    rw [s5]
    show leaf (seg wd 0 5 == 0) (.mulhuW (flag wd 31) (fld wd 21 4) (fld wd 17 4) (fld wd 13 4)) = _
    rw [s0, s31, s21, s17, s13]
    exact leaf_ok rfl hwf

theorem div (sw : Bool) (d : BitVec 4) (a : BitVec 4) (b : BitVec 4) : Statement (.div sw d a b) := by
  intro hwf _
  refine roundtrip (l := [⟨5, 0#5⟩, ⟨8, 16#8⟩, ⟨4, b⟩, ⟨4, a⟩, ⟨4, d⟩, ⟨6, 1#6⟩, ⟨1, BitVec.ofBool sw⟩]) ?_ rfl ?_
  · show encDiv sw d a b = _
    simp only [encDiv, mixB, b2n_eq, BitVec.toNat_ofNat, Nat.reducePow, Nat.reduceMod]; omega
  · intro wd hwd
    obtain ⟨s0, s5, s13, s17, s21, s25, s31⟩ := lay1 hwd
    rw [atMajor01 wd s25]; unfold decMajor01
    rw [s5]
    show leaf (seg wd 0 5 == 0) (.div (flag wd 31) (fld wd 21 4) (fld wd 17 4) (fld wd 13 4)) = _
    rw [s0, s31, s21, s17, s13]
    exact leaf_ok rfl hwf

theorem divW (sw : Bool) (d : BitVec 4) (a : BitVec 4) (b : BitVec 4) : Statement (.divW sw d a b) := by
  intro hwf _
  refine roundtrip (l := [⟨5, 0#5⟩, ⟨8, 16#8⟩, ⟨4, b⟩, ⟨4, a⟩, ⟨4, d⟩, ⟨6, 2#6⟩, ⟨1, BitVec.ofBool sw⟩]) ?_ rfl ?_
  · show encDivW sw d a b = _
    simp only [encDivW, mixB, b2n_eq, BitVec.toNat_ofNat, Nat.reducePow, Nat.reduceMod]; omega
  · intro wd hwd
    obtain ⟨s0, s5, s13, s17, s21, s25, s31⟩ := lay1 hwd
    rw [atMajor02 wd s25]; unfold decMajor02
    rw [s5]
    show leaf (seg wd 0 5 == 0) (.divW (flag wd 31) (fld wd 21 4) (fld wd 17 4) (fld wd 13 4)) = _
    rw [s0, s31, s21, s17, s13]
    exact leaf_ok rfl hwf

theorem divu (sw : Bool) (d : BitVec 4) (a : BitVec 4) (b : BitVec 4) : Statement (.divu sw d a b) := by
  intro hwf _
  refine roundtrip (l := [⟨5, 0#5⟩, ⟨8, 17#8⟩, ⟨4, b⟩, ⟨4, a⟩, ⟨4, d⟩, ⟨6, 1#6⟩, ⟨1, BitVec.ofBool sw⟩]) ?_ rfl ?_
  · show encDivu sw d a b = _
    simp only [encDivu, mixB, b2n_eq, BitVec.toNat_ofNat, Nat.reducePow, Nat.reduceMod]; omega
  · intro wd hwd
    obtain ⟨s0, s5, s13, s17, s21, s25, s31⟩ := lay1 hwd
    rw [atMajor01 wd s25]; unfold decMajor01
    rw [s5]
    show leaf (seg wd 0 5 == 0) (.divu (flag wd 31) (fld wd 21 4) (fld wd 17 4) (fld wd 13 4)) = _
    rw [s0, s31, s21, s17, s13]
    exact leaf_ok rfl hwf

theorem divuW (sw : Bool) (d : BitVec 4) (a : BitVec 4) (b : BitVec 4) : Statement (.divuW sw d a b) := by
  intro hwf _
  refine roundtrip (l := [⟨5, 0#5⟩, ⟨8, 17#8⟩, ⟨4, b⟩, ⟨4, a⟩, ⟨4, d⟩, ⟨6, 2#6⟩, ⟨1, BitVec.ofBool sw⟩]) ?_ rfl ?_
  · show encDivuW sw d a b = _
    simp only [encDivuW, mixB, b2n_eq, BitVec.toNat_ofNat, Nat.reducePow, Nat.reduceMod]; omega
  · intro wd hwd
    obtain ⟨s0, s5, s13, s17, s21, s25, s31⟩ := lay1 hwd
    rw [atMajor02 wd s25]; unfold decMajor02
    rw [s5]
    show leaf (seg wd 0 5 == 0) (.divuW (flag wd 31) (fld wd 21 4) (fld wd 17 4) (fld wd 13 4)) = _
    rw [s0, s31, s21, s17, s13]
    exact leaf_ok rfl hwf

theorem rem (sw : Bool) (d : BitVec 4) (a : BitVec 4) (b : BitVec 4) : Statement (.rem sw d a b) := by
  intro hwf _
  refine roundtrip (l := [⟨5, 0#5⟩, ⟨8, 18#8⟩, ⟨4, b⟩, ⟨4, a⟩, ⟨4, d⟩, ⟨6, 1#6⟩, ⟨1, BitVec.ofBool sw⟩]) ?_ rfl ?_
  · show encRem sw d a b = _
    simp only [encRem, mixB, b2n_eq, BitVec.toNat_ofNat, Nat.reducePow, Nat.reduceMod]; omega
  · intro wd hwd
    obtain ⟨s0, s5, s13, s17, s21, s25, s31⟩ := lay1 hwd
    rw [atMajor01 wd s25]; unfold decMajor01
    rw [s5]
    show leaf (seg wd 0 5 == 0) (.rem (flag wd 31) (fld wd 21 4) (fld wd 17 4) (fld wd 13 4)) = _
    rw [s0, s31, s21, s17, s13]
    exact leaf_ok rfl hwf

theorem remW (sw : Bool) (d : BitVec 4) (a : BitVec 4) (b : BitVec 4) : Statement (.remW sw d a b) := by
  intro hwf _
  refine roundtrip (l := [⟨5, 0#5⟩, ⟨8, 18#8⟩, ⟨4, b⟩, ⟨4, a⟩, ⟨4, d⟩, ⟨6, 2#6⟩, ⟨1, BitVec.ofBool sw⟩]) ?_ rfl ?_
  · show encRemW sw d a b = _
    simp only [encRemW, mixB, b2n_eq, BitVec.toNat_ofNat, Nat.reducePow, Nat.reduceMod]; omega
  · intro wd hwd
    obtain ⟨s0, s5, s13, s17, s21, s25, s31⟩ := lay1 hwd
    rw [atMajor02 wd s25]; unfold decMajor02
    rw [s5]
    show leaf (seg wd 0 5 == 0) (.remW (flag wd 31) (fld wd 21 4) (fld wd 17 4) (fld wd 13 4)) = _
    rw [s0, s31, s21, s17, s13]
    exact leaf_ok rfl hwf

theorem remu (sw : Bool) (d : BitVec 4) (a : BitVec 4) (b : BitVec 4) : Statement (.remu sw d a b) := by
  intro hwf _
  refine roundtrip (l := [⟨5, 0#5⟩, ⟨8, 19#8⟩, ⟨4, b⟩, ⟨4, a⟩, ⟨4, d⟩, ⟨6, 1#6⟩, ⟨1, BitVec.ofBool sw⟩]) ?_ rfl ?_
  · show encRemu sw d a b = _
    simp only [encRemu, mixB, b2n_eq, BitVec.toNat_ofNat, Nat.reducePow, Nat.reduceMod]; omega
  · intro wd hwd
    obtain ⟨s0, s5, s13, s17, s21, s25, s31⟩ := lay1 hwd
    rw [atMajor01 wd s25]; unfold decMajor01
    rw [s5]
    show leaf (seg wd 0 5 == 0) (.remu (flag wd 31) (fld wd 21 4) (fld wd 17 4) (fld wd 13 4)) = _
    rw [s0, s31, s21, s17, s13]
    exact leaf_ok rfl hwf

theorem remuW (sw : Bool) (d : BitVec 4) (a : BitVec 4) (b : BitVec 4) : Statement (.remuW sw d a b) := by
  intro hwf _
  refine roundtrip (l := [⟨5, 0#5⟩, ⟨8, 19#8⟩, ⟨4, b⟩, ⟨4, a⟩, ⟨4, d⟩, ⟨6, 2#6⟩, ⟨1, BitVec.ofBool sw⟩]) ?_ rfl ?_
  · show encRemuW sw d a b = _
    simp only [encRemuW, mixB, b2n_eq, BitVec.toNat_ofNat, Nat.reducePow, Nat.reduceMod]; omega
  · intro wd hwd
    obtain ⟨s0, s5, s13, s17, s21, s25, s31⟩ := lay1 hwd
    rw [atMajor02 wd s25]; unfold decMajor02
    rw [s5]
    show leaf (seg wd 0 5 == 0) (.remuW (flag wd 31) (fld wd 21 4) (fld wd 17 4) (fld wd 13 4)) = _
    rw [s0, s31, s21, s17, s13]
    exact leaf_ok rfl hwf

theorem slt (sw : Bool) (d : BitVec 4) (a : BitVec 4) (b : BitVec 4) : Statement (.slt sw d a b) := by
  intro hwf _
  refine roundtrip (l := [⟨5, 0#5⟩, ⟨8, 20#8⟩, ⟨4, b⟩, ⟨4, a⟩, ⟨4, d⟩, ⟨6, 1#6⟩, ⟨1, BitVec.ofBool sw⟩]) ?_ rfl ?_
  · show encSlt sw d a b = _
    simp only [encSlt, mixB, b2n_eq, BitVec.toNat_ofNat, Nat.reducePow, Nat.reduceMod]; omega
  · intro wd hwd
    obtain ⟨s0, s5, s13, s17, s21, s25, s31⟩ := lay1 hwd
    rw [atMajor01 wd s25]; unfold decMajor01
    rw [s5]
    show leaf (seg wd 0 5 == 0) (.slt (flag wd 31) (fld wd 21 4) (fld wd 17 4) (fld wd 13 4)) = _
    rw [s0, s31, s21, s17, s13]
    exact leaf_ok rfl hwf

theorem sltW (sw : Bool) (d : BitVec 4) (a : BitVec 4) (b : BitVec 4) : Statement (.sltW sw d a b) := by
  intro hwf _
  refine roundtrip (l := [⟨5, 0#5⟩, ⟨8, 20#8⟩, ⟨4, b⟩, ⟨4, a⟩, ⟨4, d⟩, ⟨6, 2#6⟩, ⟨1, BitVec.ofBool sw⟩]) ?_ rfl ?_
  · show encSltW sw d a b = _
    simp only [encSltW, mixB, b2n_eq, BitVec.toNat_ofNat, Nat.reducePow, Nat.reduceMod]; omega
  · intro wd hwd
    obtain ⟨s0, s5, s13, s17, s21, s25, s31⟩ := lay1 hwd
    rw [atMajor02 wd s25]; unfold decMajor02
    rw [s5]
    show leaf (seg wd 0 5 == 0) (.sltW (flag wd 31) (fld wd 21 4) (fld wd 17 4) (fld wd 13 4)) = _
    rw [s0, s31, s21, s17, s13]
    exact leaf_ok rfl hwf

theorem sltu (sw : Bool) (d : BitVec 4) (a : BitVec 4) (b : BitVec 4) : Statement (.sltu sw d a b) := by
  intro hwf _
  refine roundtrip (l := [⟨5, 0#5⟩, ⟨8, 21#8⟩, ⟨4, b⟩, ⟨4, a⟩, ⟨4, d⟩, ⟨6, 1#6⟩, ⟨1, BitVec.ofBool sw⟩]) ?_ rfl ?_
  · show encSltu sw d a b = _
    simp only [encSltu, mixB, b2n_eq, BitVec.toNat_ofNat, Nat.reducePow, Nat.reduceMod]; omega
  · intro wd hwd
    obtain ⟨s0, s5, s13, s17, s21, s25, s31⟩ := lay1 hwd
    rw [atMajor01 wd s25]; unfold decMajor01
    rw [s5]
    show leaf (seg wd 0 5 == 0) (.sltu (flag wd 31) (fld wd 21 4) (fld wd 17 4) (fld wd 13 4)) = _
    rw [s0, s31, s21, s17, s13]
    exact leaf_ok rfl hwf

theorem sltuW (sw : Bool) (d : BitVec 4) (a : BitVec 4) (b : BitVec 4) : Statement (.sltuW sw d a b) := by
  intro hwf _
  refine roundtrip (l := [⟨5, 0#5⟩, ⟨8, 21#8⟩, ⟨4, b⟩, ⟨4, a⟩, ⟨4, d⟩, ⟨6, 2#6⟩, ⟨1, BitVec.ofBool sw⟩]) ?_ rfl ?_
  · show encSltuW sw d a b = _
    simp only [encSltuW, mixB, b2n_eq, BitVec.toNat_ofNat, Nat.reducePow, Nat.reduceMod]; omega
  · intro wd hwd
    obtain ⟨s0, s5, s13, s17, s21, s25, s31⟩ := lay1 hwd
    rw [atMajor02 wd s25]; unfold decMajor02
    rw [s5]
    show leaf (seg wd 0 5 == 0) (.sltuW (flag wd 31) (fld wd 21 4) (fld wd 17 4) (fld wd 13 4)) = _
    rw [s0, s31, s21, s17, s13]
    exact leaf_ok rfl hwf

theorem seq (sw : Bool) (d : BitVec 4) (a : BitVec 4) (b : BitVec 4) : Statement (.seq sw d a b) := by
  intro hwf _
  refine roundtrip (l := [⟨5, 0#5⟩, ⟨8, 22#8⟩, ⟨4, b⟩, ⟨4, a⟩, ⟨4, d⟩, ⟨6, 1#6⟩, ⟨1, BitVec.ofBool sw⟩]) ?_ rfl ?_
  · show encSeq sw d a b = _
    simp only [encSeq, mixB, b2n_eq, BitVec.toNat_ofNat, Nat.reducePow, Nat.reduceMod]; omega
  · intro wd hwd
    obtain ⟨s0, s5, s13, s17, s21, s25, s31⟩ := lay1 hwd
    rw [atMajor01 wd s25]; unfold decMajor01
    rw [s5]
    show leaf (seg wd 0 5 == 0) (.seq (flag wd 31) (fld wd 21 4) (fld wd 17 4) (fld wd 13 4)) = _
    rw [s0, s31, s21, s17, s13]
    exact leaf_ok rfl hwf

theorem seqW (sw : Bool) (d : BitVec 4) (a : BitVec 4) (b : BitVec 4) : Statement (.seqW sw d a b) := by
  intro hwf _
  refine roundtrip (l := [⟨5, 0#5⟩, ⟨8, 22#8⟩, ⟨4, b⟩, ⟨4, a⟩, ⟨4, d⟩, ⟨6, 2#6⟩, ⟨1, BitVec.ofBool sw⟩]) ?_ rfl ?_
  · show encSeqW sw d a b = _
    simp only [encSeqW, mixB, b2n_eq, BitVec.toNat_ofNat, Nat.reducePow, Nat.reduceMod]; omega
  · intro wd hwd
    obtain ⟨s0, s5, s13, s17, s21, s25, s31⟩ := lay1 hwd
    rw [atMajor02 wd s25]; unfold decMajor02
    rw [s5]
    show leaf (seg wd 0 5 == 0) (.seqW (flag wd 31) (fld wd 21 4) (fld wd 17 4) (fld wd 13 4)) = _
    rw [s0, s31, s21, s17, s13]
    exact leaf_ok rfl hwf

theorem clz (sw : Bool) (d : BitVec 4) (a : BitVec 4) : Statement (.clz sw d a) := by
  intro hwf _
  refine roundtrip (l := [⟨5, 0#5⟩, ⟨8, 23#8⟩, ⟨4, 0#4⟩, ⟨4, a⟩, ⟨4, d⟩, ⟨6, 1#6⟩, ⟨1, BitVec.ofBool sw⟩]) ?_ rfl ?_
  · show encClz sw d a = _
    simp only [encClz, mixB, b2n_eq, BitVec.toNat_ofNat, Nat.reducePow, Nat.reduceMod]; omega
  · intro wd hwd
    obtain ⟨s0, s5, s13, s17, s21, s25, s31⟩ := lay2 hwd
    rw [atMajor01 wd s25]; unfold decMajor01
    rw [s5]
    show leaf (seg wd 13 4 == 0 && seg wd 0 5 == 0) (.clz (flag wd 31) (fld wd 21 4) (fld wd 17 4)) = _
    rw [s13, s0, s31, s21, s17]
    exact leaf_ok rfl hwf

theorem clzW (sw : Bool) (d : BitVec 4) (a : BitVec 4) : Statement (.clzW sw d a) := by
  intro hwf _
  refine roundtrip (l := [⟨5, 0#5⟩, ⟨8, 23#8⟩, ⟨4, 0#4⟩, ⟨4, a⟩, ⟨4, d⟩, ⟨6, 2#6⟩, ⟨1, BitVec.ofBool sw⟩]) ?_ rfl ?_
  · show encClzW sw d a = _
    simp only [encClzW, mixB, b2n_eq, BitVec.toNat_ofNat, Nat.reducePow, Nat.reduceMod]; omega
  · intro wd hwd
    obtain ⟨s0, s5, s13, s17, s21, s25, s31⟩ := lay2 hwd
    rw [atMajor02 wd s25]; unfold decMajor02
    rw [s5]
    show leaf (seg wd 13 4 == 0 && seg wd 0 5 == 0) (.clzW (flag wd 31) (fld wd 21 4) (fld wd 17 4)) = _
    rw [s13, s0, s31, s21, s17]
    exact leaf_ok rfl hwf

theorem ctz (sw : Bool) (d : BitVec 4) (a : BitVec 4) : Statement (.ctz sw d a) := by
  intro hwf _
  refine roundtrip (l := [⟨5, 0#5⟩, ⟨8, 24#8⟩, ⟨4, 0#4⟩, ⟨4, a⟩, ⟨4, d⟩, ⟨6, 1#6⟩, ⟨1, BitVec.ofBool sw⟩]) ?_ rfl ?_
  · show encCtz sw d a = _
    simp only [encCtz, mixB, b2n_eq, BitVec.toNat_ofNat, Nat.reducePow, Nat.reduceMod]; omega
  · intro wd hwd
    obtain ⟨s0, s5, s13, s17, s21, s25, s31⟩ := lay2 hwd
    rw [atMajor01 wd s25]; unfold decMajor01
    rw [s5]
    show leaf (seg wd 13 4 == 0 && seg wd 0 5 == 0) (.ctz (flag wd 31) (fld wd 21 4) (fld wd 17 4)) = _
    rw [s13, s0, s31, s21, s17]
    exact leaf_ok rfl hwf

theorem ctzW (sw : Bool) (d : BitVec 4) (a : BitVec 4) : Statement (.ctzW sw d a) := by
  intro hwf _
  refine roundtrip (l := [⟨5, 0#5⟩, ⟨8, 24#8⟩, ⟨4, 0#4⟩, ⟨4, a⟩, ⟨4, d⟩, ⟨6, 2#6⟩, ⟨1, BitVec.ofBool sw⟩]) ?_ rfl ?_
  · show encCtzW sw d a = _
    simp only [encCtzW, mixB, b2n_eq, BitVec.toNat_ofNat, Nat.reducePow, Nat.reduceMod]; omega
  · intro wd hwd
    obtain ⟨s0, s5, s13, s17, s21, s25, s31⟩ := lay2 hwd
    rw [atMajor02 wd s25]; unfold decMajor02
    rw [s5]
    show leaf (seg wd 13 4 == 0 && seg wd 0 5 == 0) (.ctzW (flag wd 31) (fld wd 21 4) (fld wd 17 4)) = _
    rw [s13, s0, s31, s21, s17]
    exact leaf_ok rfl hwf

theorem popc (sw : Bool) (d : BitVec 4) (a : BitVec 4) : Statement (.popc sw d a) := by
  intro hwf _
  refine roundtrip (l := [⟨5, 0#5⟩, ⟨8, 25#8⟩, ⟨4, 0#4⟩, ⟨4, a⟩, ⟨4, d⟩, ⟨6, 1#6⟩, ⟨1, BitVec.ofBool sw⟩]) ?_ rfl ?_
  · show encPopc sw d a = _
    simp only [encPopc, mixB, b2n_eq, BitVec.toNat_ofNat, Nat.reducePow, Nat.reduceMod]; omega
  · intro wd hwd
    obtain ⟨s0, s5, s13, s17, s21, s25, s31⟩ := lay2 hwd
    rw [atMajor01 wd s25]; unfold decMajor01
    rw [s5]
    show leaf (seg wd 13 4 == 0 && seg wd 0 5 == 0) (.popc (flag wd 31) (fld wd 21 4) (fld wd 17 4)) = _
    rw [s13, s0, s31, s21, s17]
    exact leaf_ok rfl hwf

theorem popcW (sw : Bool) (d : BitVec 4) (a : BitVec 4) : Statement (.popcW sw d a) := by
  intro hwf _
  refine roundtrip (l := [⟨5, 0#5⟩, ⟨8, 25#8⟩, ⟨4, 0#4⟩, ⟨4, a⟩, ⟨4, d⟩, ⟨6, 2#6⟩, ⟨1, BitVec.ofBool sw⟩]) ?_ rfl ?_
  · show encPopcW sw d a = _
    simp only [encPopcW, mixB, b2n_eq, BitVec.toNat_ofNat, Nat.reducePow, Nat.reduceMod]; omega
  · intro wd hwd
    obtain ⟨s0, s5, s13, s17, s21, s25, s31⟩ := lay2 hwd
    rw [atMajor02 wd s25]; unfold decMajor02
    rw [s5]
    show leaf (seg wd 13 4 == 0 && seg wd 0 5 == 0) (.popcW (flag wd 31) (fld wd 21 4) (fld wd 17 4)) = _
    rw [s13, s0, s31, s21, s17]
    exact leaf_ok rfl hwf

theorem sel (sw : Bool) (d : BitVec 4) (a : BitVec 4) (b : BitVec 4) (c : BitVec 4) : Statement (.sel sw d a b c) := by
  intro hwf _
  refine roundtrip (l := [⟨4, c⟩, ⟨1, 0#1⟩, ⟨8, 26#8⟩, ⟨4, b⟩, ⟨4, a⟩, ⟨4, d⟩, ⟨6, 1#6⟩, ⟨1, BitVec.ofBool sw⟩]) ?_ rfl ?_
  · show encSel sw d a b c = _
    simp only [encSel, mixB, b2n_eq, BitVec.toNat_ofNat, Nat.reducePow, Nat.reduceMod]; omega
  · intro wd hwd
    obtain ⟨s0, s4, s5, s13, s17, s21, s25, s31⟩ := lay3 hwd
    rw [atMajor01 wd s25]; unfold decMajor01
    rw [s5]
    show leaf (seg wd 4 1 == 0) (.sel (flag wd 31) (fld wd 21 4) (fld wd 17 4) (fld wd 13 4) (fld wd 0 4)) = _
    rw [s4, s31, s21, s17, s13, s0]
    exact leaf_ok rfl hwf

theorem selW (sw : Bool) (d : BitVec 4) (a : BitVec 4) (b : BitVec 4) (c : BitVec 4) : Statement (.selW sw d a b c) := by
  intro hwf _
  refine roundtrip (l := [⟨4, c⟩, ⟨1, 0#1⟩, ⟨8, 26#8⟩, ⟨4, b⟩, ⟨4, a⟩, ⟨4, d⟩, ⟨6, 2#6⟩, ⟨1, BitVec.ofBool sw⟩]) ?_ rfl ?_
  · show encSelW sw d a b c = _
    simp only [encSelW, mixB, b2n_eq, BitVec.toNat_ofNat, Nat.reducePow, Nat.reduceMod]; omega
  · intro wd hwd
    obtain ⟨s0, s4, s5, s13, s17, s21, s25, s31⟩ := lay3 hwd
    rw [atMajor02 wd s25]; unfold decMajor02
    rw [s5]
    show leaf (seg wd 4 1 == 0) (.selW (flag wd 31) (fld wd 21 4) (fld wd 17 4) (fld wd 13 4) (fld wd 0 4)) = _
    rw [s4, s31, s21, s17, s13, s0]
    exact leaf_ok rfl hwf

theorem addi (sw : Bool) (d : BitVec 4) (a : BitVec 4) (imm : BitVec 13) : Statement (.addi sw d a imm) := by
  intro hwf _
  refine roundtrip (l := [⟨13, imm⟩, ⟨4, 0#4⟩, ⟨4, a⟩, ⟨4, d⟩, ⟨6, 3#6⟩, ⟨1, BitVec.ofBool sw⟩]) ?_ rfl ?_
  · show encAddi sw d a imm = _
    simp only [encAddi, mixB, b2n_eq, BitVec.toNat_ofNat, Nat.reducePow, Nat.reduceMod]; omega
  · intro wd hwd
    obtain ⟨s0, s13, s17, s21, s25, s31⟩ := lay4 hwd
    rw [atMajor03 wd s25]; unfold decMajor03
    rw [s13]
    show leaf true (.addi (flag wd 31) (fld wd 21 4) (fld wd 17 4) (fld wd 0 13)) = _
    rw [s31, s21, s17, s0]
    exact leaf_ok rfl hwf

theorem andi (sw : Bool) (d : BitVec 4) (a : BitVec 4) (imm : BitVec 13) : Statement (.andi sw d a imm) := by
  intro hwf _
  refine roundtrip (l := [⟨13, imm⟩, ⟨4, 1#4⟩, ⟨4, a⟩, ⟨4, d⟩, ⟨6, 3#6⟩, ⟨1, BitVec.ofBool sw⟩]) ?_ rfl ?_
  · show encAndi sw d a imm = _
    simp only [encAndi, mixB, b2n_eq, BitVec.toNat_ofNat, Nat.reducePow, Nat.reduceMod]; omega
  · intro wd hwd
    obtain ⟨s0, s13, s17, s21, s25, s31⟩ := lay4 hwd
    rw [atMajor03 wd s25]; unfold decMajor03
    rw [s13]
    show leaf true (.andi (flag wd 31) (fld wd 21 4) (fld wd 17 4) (fld wd 0 13)) = _
    rw [s31, s21, s17, s0]
    exact leaf_ok rfl hwf

theorem ori (sw : Bool) (d : BitVec 4) (a : BitVec 4) (imm : BitVec 13) : Statement (.ori sw d a imm) := by
  intro hwf _
  refine roundtrip (l := [⟨13, imm⟩, ⟨4, 2#4⟩, ⟨4, a⟩, ⟨4, d⟩, ⟨6, 3#6⟩, ⟨1, BitVec.ofBool sw⟩]) ?_ rfl ?_
  · show encOri sw d a imm = _
    simp only [encOri, mixB, b2n_eq, BitVec.toNat_ofNat, Nat.reducePow, Nat.reduceMod]; omega
  · intro wd hwd
    obtain ⟨s0, s13, s17, s21, s25, s31⟩ := lay4 hwd
    rw [atMajor03 wd s25]; unfold decMajor03
    rw [s13]
    show leaf true (.ori (flag wd 31) (fld wd 21 4) (fld wd 17 4) (fld wd 0 13)) = _
    rw [s31, s21, s17, s0]
    exact leaf_ok rfl hwf

theorem xori (sw : Bool) (d : BitVec 4) (a : BitVec 4) (imm : BitVec 13) : Statement (.xori sw d a imm) := by
  intro hwf _
  refine roundtrip (l := [⟨13, imm⟩, ⟨4, 3#4⟩, ⟨4, a⟩, ⟨4, d⟩, ⟨6, 3#6⟩, ⟨1, BitVec.ofBool sw⟩]) ?_ rfl ?_
  · show encXori sw d a imm = _
    simp only [encXori, mixB, b2n_eq, BitVec.toNat_ofNat, Nat.reducePow, Nat.reduceMod]; omega
  · intro wd hwd
    obtain ⟨s0, s13, s17, s21, s25, s31⟩ := lay4 hwd
    rw [atMajor03 wd s25]; unfold decMajor03
    rw [s13]
    show leaf true (.xori (flag wd 31) (fld wd 21 4) (fld wd 17 4) (fld wd 0 13)) = _
    rw [s31, s21, s17, s0]
    exact leaf_ok rfl hwf

theorem shli (sw : Bool) (d : BitVec 4) (a : BitVec 4) (imm : BitVec 13) : Statement (.shli sw d a imm) := by
  intro hwf _
  refine roundtrip (l := [⟨13, imm⟩, ⟨4, 4#4⟩, ⟨4, a⟩, ⟨4, d⟩, ⟨6, 3#6⟩, ⟨1, BitVec.ofBool sw⟩]) ?_ rfl ?_
  · show encShli sw d a imm = _
    simp only [encShli, mixB, b2n_eq, BitVec.toNat_ofNat, Nat.reducePow, Nat.reduceMod]; omega
  · intro wd hwd
    obtain ⟨s0, s13, s17, s21, s25, s31⟩ := lay4 hwd
    rw [atMajor03 wd s25]; unfold decMajor03
    rw [s13]
    show leaf true (.shli (flag wd 31) (fld wd 21 4) (fld wd 17 4) (fld wd 0 13)) = _
    rw [s31, s21, s17, s0]
    exact leaf_ok rfl hwf

theorem shri (sw : Bool) (d : BitVec 4) (a : BitVec 4) (imm : BitVec 13) : Statement (.shri sw d a imm) := by
  intro hwf _
  refine roundtrip (l := [⟨13, imm⟩, ⟨4, 5#4⟩, ⟨4, a⟩, ⟨4, d⟩, ⟨6, 3#6⟩, ⟨1, BitVec.ofBool sw⟩]) ?_ rfl ?_
  · show encShri sw d a imm = _
    simp only [encShri, mixB, b2n_eq, BitVec.toNat_ofNat, Nat.reducePow, Nat.reduceMod]; omega
  · intro wd hwd
    obtain ⟨s0, s13, s17, s21, s25, s31⟩ := lay4 hwd
    rw [atMajor03 wd s25]; unfold decMajor03
    rw [s13]
    show leaf true (.shri (flag wd 31) (fld wd 21 4) (fld wd 17 4) (fld wd 0 13)) = _
    rw [s31, s21, s17, s0]
    exact leaf_ok rfl hwf

theorem sari (sw : Bool) (d : BitVec 4) (a : BitVec 4) (imm : BitVec 13) : Statement (.sari sw d a imm) := by
  intro hwf _
  refine roundtrip (l := [⟨13, imm⟩, ⟨4, 6#4⟩, ⟨4, a⟩, ⟨4, d⟩, ⟨6, 3#6⟩, ⟨1, BitVec.ofBool sw⟩]) ?_ rfl ?_
  · show encSari sw d a imm = _
    simp only [encSari, mixB, b2n_eq, BitVec.toNat_ofNat, Nat.reducePow, Nat.reduceMod]; omega
  · intro wd hwd
    obtain ⟨s0, s13, s17, s21, s25, s31⟩ := lay4 hwd
    rw [atMajor03 wd s25]; unfold decMajor03
    rw [s13]
    show leaf true (.sari (flag wd 31) (fld wd 21 4) (fld wd 17 4) (fld wd 0 13)) = _
    rw [s31, s21, s17, s0]
    exact leaf_ok rfl hwf

theorem slti (sw : Bool) (d : BitVec 4) (a : BitVec 4) (imm : BitVec 13) : Statement (.slti sw d a imm) := by
  intro hwf _
  refine roundtrip (l := [⟨13, imm⟩, ⟨4, 7#4⟩, ⟨4, a⟩, ⟨4, d⟩, ⟨6, 3#6⟩, ⟨1, BitVec.ofBool sw⟩]) ?_ rfl ?_
  · show encSlti sw d a imm = _
    simp only [encSlti, mixB, b2n_eq, BitVec.toNat_ofNat, Nat.reducePow, Nat.reduceMod]; omega
  · intro wd hwd
    obtain ⟨s0, s13, s17, s21, s25, s31⟩ := lay4 hwd
    rw [atMajor03 wd s25]; unfold decMajor03
    rw [s13]
    show leaf true (.slti (flag wd 31) (fld wd 21 4) (fld wd 17 4) (fld wd 0 13)) = _
    rw [s31, s21, s17, s0]
    exact leaf_ok rfl hwf

theorem sltui (sw : Bool) (d : BitVec 4) (a : BitVec 4) (imm : BitVec 13) : Statement (.sltui sw d a imm) := by
  intro hwf _
  refine roundtrip (l := [⟨13, imm⟩, ⟨4, 8#4⟩, ⟨4, a⟩, ⟨4, d⟩, ⟨6, 3#6⟩, ⟨1, BitVec.ofBool sw⟩]) ?_ rfl ?_
  · show encSltui sw d a imm = _
    simp only [encSltui, mixB, b2n_eq, BitVec.toNat_ofNat, Nat.reducePow, Nat.reduceMod]; omega
  · intro wd hwd
    obtain ⟨s0, s13, s17, s21, s25, s31⟩ := lay4 hwd
    rw [atMajor03 wd s25]; unfold decMajor03
    rw [s13]
    show leaf true (.sltui (flag wd 31) (fld wd 21 4) (fld wd 17 4) (fld wd 0 13)) = _
    rw [s31, s21, s17, s0]
    exact leaf_ok rfl hwf

theorem seqi (sw : Bool) (d : BitVec 4) (a : BitVec 4) (imm : BitVec 13) : Statement (.seqi sw d a imm) := by
  intro hwf _
  refine roundtrip (l := [⟨13, imm⟩, ⟨4, 9#4⟩, ⟨4, a⟩, ⟨4, d⟩, ⟨6, 3#6⟩, ⟨1, BitVec.ofBool sw⟩]) ?_ rfl ?_
  · show encSeqi sw d a imm = _
    simp only [encSeqi, mixB, b2n_eq, BitVec.toNat_ofNat, Nat.reducePow, Nat.reduceMod]; omega
  · intro wd hwd
    obtain ⟨s0, s13, s17, s21, s25, s31⟩ := lay4 hwd
    rw [atMajor03 wd s25]; unfold decMajor03
    rw [s13]
    show leaf true (.seqi (flag wd 31) (fld wd 21 4) (fld wd 17 4) (fld wd 0 13)) = _
    rw [s31, s21, s17, s0]
    exact leaf_ok rfl hwf

theorem muli (sw : Bool) (d : BitVec 4) (a : BitVec 4) (imm : BitVec 13) : Statement (.muli sw d a imm) := by
  intro hwf _
  refine roundtrip (l := [⟨13, imm⟩, ⟨4, 10#4⟩, ⟨4, a⟩, ⟨4, d⟩, ⟨6, 3#6⟩, ⟨1, BitVec.ofBool sw⟩]) ?_ rfl ?_
  · show encMuli sw d a imm = _
    simp only [encMuli, mixB, b2n_eq, BitVec.toNat_ofNat, Nat.reducePow, Nat.reduceMod]; omega
  · intro wd hwd
    obtain ⟨s0, s13, s17, s21, s25, s31⟩ := lay4 hwd
    rw [atMajor03 wd s25]; unfold decMajor03
    rw [s13]
    show leaf true (.muli (flag wd 31) (fld wd 21 4) (fld wd 17 4) (fld wd 0 13)) = _
    rw [s31, s21, s17, s0]
    exact leaf_ok rfl hwf

theorem lim (sw : Bool) (d : BitVec 4) (imm : BitVec 21) : Statement (.lim sw d imm) := by
  intro hwf _
  refine roundtrip (l := [⟨21, imm⟩, ⟨4, d⟩, ⟨6, 4#6⟩, ⟨1, BitVec.ofBool sw⟩]) ?_ rfl ?_
  · show encLim sw d imm = _
    simp only [encLim, mixB, b2n_eq, BitVec.toNat_ofNat, Nat.reducePow, Nat.reduceMod]; omega
  · intro wd hwd
    obtain ⟨s0, s21, s25, s31⟩ := lay5 hwd
    rw [atMajor04 wd s25]; unfold decMajor04
    show leaf true (.lim (flag wd 31) (fld wd 21 4) (fld wd 0 21)) = _
    rw [s31, s21, s0]
    exact leaf_ok rfl hwf

theorem limt (sw : Bool) (d : BitVec 4) (imm : BitVec 21) : Statement (.limt sw d imm) := by
  intro hwf _
  refine roundtrip (l := [⟨21, imm⟩, ⟨4, d⟩, ⟨6, 5#6⟩, ⟨1, BitVec.ofBool sw⟩]) ?_ rfl ?_
  · show encLimt sw d imm = _
    simp only [encLimt, mixB, b2n_eq, BitVec.toNat_ofNat, Nat.reducePow, Nat.reduceMod]; omega
  · intro wd hwd
    obtain ⟨s0, s21, s25, s31⟩ := lay5 hwd
    rw [atMajor05 wd s25]; unfold decMajor05
    show leaf true (.limt (flag wd 31) (fld wd 21 4) (fld wd 0 21)) = _
    rw [s31, s21, s0]
    exact leaf_ok rfl hwf

theorem lea (sw : Bool) (d : BitVec 4) (a : BitVec 4) (b : BitVec 4) (h : BitVec 5) : Statement (.lea sw d a b h) := by
  intro hwf _
  refine roundtrip (l := [⟨5, h⟩, ⟨8, 0#8⟩, ⟨4, b⟩, ⟨4, a⟩, ⟨4, d⟩, ⟨6, 6#6⟩, ⟨1, BitVec.ofBool sw⟩]) ?_ rfl ?_
  · show encLea sw d a b h = _
    simp only [encLea, mixB, b2n_eq, BitVec.toNat_ofNat, Nat.reducePow, Nat.reduceMod]; omega
  · intro wd hwd
    obtain ⟨s0, s5, s13, s17, s21, s25, s31⟩ := lay6 hwd
    rw [atMajor06 wd s25]; unfold decMajor06
    rw [s5]
    show leaf true (.lea (flag wd 31) (fld wd 21 4) (fld wd 17 4) (fld wd 13 4) (fld wd 0 5)) = _
    rw [s31, s21, s17, s13, s0]
    exact leaf_ok rfl hwf

theorem bfx (sw : Bool) (d : BitVec 4) (a : BitVec 4) (l : BitVec 6) (p : BitVec 6) : Statement (.bfx sw d a l p) := by
  intro hwf _
  refine roundtrip (l := [⟨6, p⟩, ⟨6, l⟩, ⟨1, 0#1⟩, ⟨4, 0#4⟩, ⟨4, a⟩, ⟨4, d⟩, ⟨6, 7#6⟩, ⟨1, BitVec.ofBool sw⟩]) ?_ rfl ?_
  · show encBfx sw d a l p = _
    simp only [encBfx, mixB, b2n_eq, BitVec.toNat_ofNat, Nat.reducePow, Nat.reduceMod]; omega
  · intro wd hwd
    obtain ⟨s0, s6, s12, s13, s17, s21, s25, s31⟩ := lay7 hwd
    rw [atMajor07 wd s25]; unfold decMajor07
    rw [s13]
    show leaf (seg wd 12 1 == 0) (.bfx (flag wd 31) (fld wd 21 4) (fld wd 17 4) (fld wd 6 6) (fld wd 0 6)) = _
    rw [s12, s31, s21, s17, s6, s0]
    exact leaf_ok rfl hwf

theorem bfxS (sw : Bool) (d : BitVec 4) (a : BitVec 4) (l : BitVec 6) (p : BitVec 6) : Statement (.bfxS sw d a l p) := by
  intro hwf _
  refine roundtrip (l := [⟨6, p⟩, ⟨6, l⟩, ⟨1, 0#1⟩, ⟨4, 1#4⟩, ⟨4, a⟩, ⟨4, d⟩, ⟨6, 7#6⟩, ⟨1, BitVec.ofBool sw⟩]) ?_ rfl ?_
  · show encBfxS sw d a l p = _
    simp only [encBfxS, mixB, b2n_eq, BitVec.toNat_ofNat, Nat.reducePow, Nat.reduceMod]; omega
  · intro wd hwd
    obtain ⟨s0, s6, s12, s13, s17, s21, s25, s31⟩ := lay7 hwd
    rw [atMajor07 wd s25]; unfold decMajor07
    rw [s13]
    show leaf (seg wd 12 1 == 0) (.bfxS (flag wd 31) (fld wd 21 4) (fld wd 17 4) (fld wd 6 6) (fld wd 0 6)) = _
    rw [s12, s31, s21, s17, s6, s0]
    exact leaf_ok rfl hwf

theorem bfi (sw : Bool) (d : BitVec 4) (a : BitVec 4) (l : BitVec 6) (p : BitVec 6) : Statement (.bfi sw d a l p) := by
  intro hwf _
  refine roundtrip (l := [⟨6, p⟩, ⟨6, l⟩, ⟨1, 0#1⟩, ⟨4, 2#4⟩, ⟨4, a⟩, ⟨4, d⟩, ⟨6, 7#6⟩, ⟨1, BitVec.ofBool sw⟩]) ?_ rfl ?_
  · show encBfi sw d a l p = _
    simp only [encBfi, mixB, b2n_eq, BitVec.toNat_ofNat, Nat.reducePow, Nat.reduceMod]; omega
  · intro wd hwd
    obtain ⟨s0, s6, s12, s13, s17, s21, s25, s31⟩ := lay7 hwd
    rw [atMajor07 wd s25]; unfold decMajor07
    rw [s13]
    show leaf (seg wd 12 1 == 0) (.bfi (flag wd 31) (fld wd 21 4) (fld wd 17 4) (fld wd 6 6) (fld wd 0 6)) = _
    rw [s12, s31, s21, s17, s6, s0]
    exact leaf_ok rfl hwf

theorem beq (sw : Bool) (a : BitVec 4) (b : BitVec 4) (o : BitVec 14) : Statement (.beq sw a b o) := by
  intro hwf _
  refine roundtrip (l := [⟨14, o⟩, ⟨4, b⟩, ⟨4, a⟩, ⟨3, 0#3⟩, ⟨6, 8#6⟩, ⟨1, BitVec.ofBool sw⟩]) ?_ rfl ?_
  · show encBeq sw a b o = _
    simp only [encBeq, mixB, b2n_eq, BitVec.toNat_ofNat, Nat.reducePow, Nat.reduceMod]; omega
  · intro wd hwd
    obtain ⟨s0, s14, s18, s22, s25, s31⟩ := lay8 hwd
    rw [atMajor08 wd s25]; unfold decMajor08
    rw [s22]
    show leaf true (.beq (flag wd 31) (fld wd 18 4) (fld wd 14 4) (fld wd 0 14)) = _
    rw [s31, s18, s14, s0]
    exact leaf_ok rfl hwf

theorem bne (sw : Bool) (a : BitVec 4) (b : BitVec 4) (o : BitVec 14) : Statement (.bne sw a b o) := by
  intro hwf _
  refine roundtrip (l := [⟨14, o⟩, ⟨4, b⟩, ⟨4, a⟩, ⟨3, 1#3⟩, ⟨6, 8#6⟩, ⟨1, BitVec.ofBool sw⟩]) ?_ rfl ?_
  · show encBne sw a b o = _
    simp only [encBne, mixB, b2n_eq, BitVec.toNat_ofNat, Nat.reducePow, Nat.reduceMod]; omega
  · intro wd hwd
    obtain ⟨s0, s14, s18, s22, s25, s31⟩ := lay8 hwd
    rw [atMajor08 wd s25]; unfold decMajor08
    rw [s22]
    show leaf true (.bne (flag wd 31) (fld wd 18 4) (fld wd 14 4) (fld wd 0 14)) = _
    rw [s31, s18, s14, s0]
    exact leaf_ok rfl hwf

theorem blt (sw : Bool) (a : BitVec 4) (b : BitVec 4) (o : BitVec 14) : Statement (.blt sw a b o) := by
  intro hwf _
  refine roundtrip (l := [⟨14, o⟩, ⟨4, b⟩, ⟨4, a⟩, ⟨3, 2#3⟩, ⟨6, 8#6⟩, ⟨1, BitVec.ofBool sw⟩]) ?_ rfl ?_
  · show encBlt sw a b o = _
    simp only [encBlt, mixB, b2n_eq, BitVec.toNat_ofNat, Nat.reducePow, Nat.reduceMod]; omega
  · intro wd hwd
    obtain ⟨s0, s14, s18, s22, s25, s31⟩ := lay8 hwd
    rw [atMajor08 wd s25]; unfold decMajor08
    rw [s22]
    show leaf true (.blt (flag wd 31) (fld wd 18 4) (fld wd 14 4) (fld wd 0 14)) = _
    rw [s31, s18, s14, s0]
    exact leaf_ok rfl hwf

theorem bge (sw : Bool) (a : BitVec 4) (b : BitVec 4) (o : BitVec 14) : Statement (.bge sw a b o) := by
  intro hwf _
  refine roundtrip (l := [⟨14, o⟩, ⟨4, b⟩, ⟨4, a⟩, ⟨3, 3#3⟩, ⟨6, 8#6⟩, ⟨1, BitVec.ofBool sw⟩]) ?_ rfl ?_
  · show encBge sw a b o = _
    simp only [encBge, mixB, b2n_eq, BitVec.toNat_ofNat, Nat.reducePow, Nat.reduceMod]; omega
  · intro wd hwd
    obtain ⟨s0, s14, s18, s22, s25, s31⟩ := lay8 hwd
    rw [atMajor08 wd s25]; unfold decMajor08
    rw [s22]
    show leaf true (.bge (flag wd 31) (fld wd 18 4) (fld wd 14 4) (fld wd 0 14)) = _
    rw [s31, s18, s14, s0]
    exact leaf_ok rfl hwf

theorem bltu (sw : Bool) (a : BitVec 4) (b : BitVec 4) (o : BitVec 14) : Statement (.bltu sw a b o) := by
  intro hwf _
  refine roundtrip (l := [⟨14, o⟩, ⟨4, b⟩, ⟨4, a⟩, ⟨3, 4#3⟩, ⟨6, 8#6⟩, ⟨1, BitVec.ofBool sw⟩]) ?_ rfl ?_
  · show encBltu sw a b o = _
    simp only [encBltu, mixB, b2n_eq, BitVec.toNat_ofNat, Nat.reducePow, Nat.reduceMod]; omega
  · intro wd hwd
    obtain ⟨s0, s14, s18, s22, s25, s31⟩ := lay8 hwd
    rw [atMajor08 wd s25]; unfold decMajor08
    rw [s22]
    show leaf true (.bltu (flag wd 31) (fld wd 18 4) (fld wd 14 4) (fld wd 0 14)) = _
    rw [s31, s18, s14, s0]
    exact leaf_ok rfl hwf

theorem bgeu (sw : Bool) (a : BitVec 4) (b : BitVec 4) (o : BitVec 14) : Statement (.bgeu sw a b o) := by
  intro hwf _
  refine roundtrip (l := [⟨14, o⟩, ⟨4, b⟩, ⟨4, a⟩, ⟨3, 5#3⟩, ⟨6, 8#6⟩, ⟨1, BitVec.ofBool sw⟩]) ?_ rfl ?_
  · show encBgeu sw a b o = _
    simp only [encBgeu, mixB, b2n_eq, BitVec.toNat_ofNat, Nat.reducePow, Nat.reduceMod]; omega
  · intro wd hwd
    obtain ⟨s0, s14, s18, s22, s25, s31⟩ := lay8 hwd
    rw [atMajor08 wd s25]; unfold decMajor08
    rw [s22]
    show leaf true (.bgeu (flag wd 31) (fld wd 18 4) (fld wd 14 4) (fld wd 0 14)) = _
    rw [s31, s18, s14, s0]
    exact leaf_ok rfl hwf

theorem beqz (sw : Bool) (a : BitVec 4) (o : BitVec 14) : Statement (.beqz sw a o) := by
  intro hwf _
  refine roundtrip (l := [⟨14, o⟩, ⟨4, 0#4⟩, ⟨4, a⟩, ⟨3, 6#3⟩, ⟨6, 8#6⟩, ⟨1, BitVec.ofBool sw⟩]) ?_ rfl ?_
  · show encBeqz sw a o = _
    simp only [encBeqz, mixB, b2n_eq, BitVec.toNat_ofNat, Nat.reducePow, Nat.reduceMod]; omega
  · intro wd hwd
    obtain ⟨s0, s14, s18, s22, s25, s31⟩ := lay9 hwd
    rw [atMajor08 wd s25]; unfold decMajor08
    rw [s22]
    show leaf (seg wd 14 4 == 0) (.beqz (flag wd 31) (fld wd 18 4) (fld wd 0 14)) = _
    rw [s14, s31, s18, s0]
    exact leaf_ok rfl hwf

theorem bnez (sw : Bool) (a : BitVec 4) (o : BitVec 14) : Statement (.bnez sw a o) := by
  intro hwf _
  refine roundtrip (l := [⟨14, o⟩, ⟨4, 0#4⟩, ⟨4, a⟩, ⟨3, 7#3⟩, ⟨6, 8#6⟩, ⟨1, BitVec.ofBool sw⟩]) ?_ rfl ?_
  · show encBnez sw a o = _
    simp only [encBnez, mixB, b2n_eq, BitVec.toNat_ofNat, Nat.reducePow, Nat.reduceMod]; omega
  · intro wd hwd
    obtain ⟨s0, s14, s18, s22, s25, s31⟩ := lay9 hwd
    rw [atMajor08 wd s25]; unfold decMajor08
    rw [s22]
    show leaf (seg wd 14 4 == 0) (.bnez (flag wd 31) (fld wd 18 4) (fld wd 0 14)) = _
    rw [s14, s31, s18, s0]
    exact leaf_ok rfl hwf

theorem jump (sw : Bool) (o : BitVec 25) : Statement (.jump sw o) := by
  intro hwf _
  refine roundtrip (l := [⟨25, o⟩, ⟨6, 9#6⟩, ⟨1, BitVec.ofBool sw⟩]) ?_ rfl ?_
  · show encJump sw o = _
    simp only [encJump, mixB, b2n_eq, BitVec.toNat_ofNat, Nat.reducePow, Nat.reduceMod]; omega
  · intro wd hwd
    obtain ⟨s0, s25, s31⟩ := lay10 hwd
    rw [atMajor09 wd s25]; unfold decMajor09
    show leaf true (.jump (flag wd 31) (fld wd 0 25)) = _
    rw [s31, s0]
    exact leaf_ok rfl hwf

theorem call (sw : Bool) (o : BitVec 25) : Statement (.call sw o) := by
  intro hwf _
  refine roundtrip (l := [⟨25, o⟩, ⟨6, 10#6⟩, ⟨1, BitVec.ofBool sw⟩]) ?_ rfl ?_
  · show encCall sw o = _
    simp only [encCall, mixB, b2n_eq, BitVec.toNat_ofNat, Nat.reducePow, Nat.reduceMod]; omega
  · intro wd hwd
    obtain ⟨s0, s25, s31⟩ := lay10 hwd
    rw [atMajor0A wd s25]; unfold decMajor0A
    show leaf true (.call (flag wd 31) (fld wd 0 25)) = _
    rw [s31, s0]
    exact leaf_ok rfl hwf

theorem nop (sw : Bool) : Statement (.nop sw) := by
  intro hwf _
  refine roundtrip (l := [⟨5, 0#5⟩, ⟨8, 0#8⟩, ⟨12, 0#12⟩, ⟨6, 11#6⟩, ⟨1, BitVec.ofBool sw⟩]) ?_ rfl ?_
  · show encNop sw = _
    simp only [encNop, mixB, b2n_eq, BitVec.toNat_ofNat, Nat.reducePow, Nat.reduceMod]; omega
  · intro wd hwd
    obtain ⟨s0, s5, s13, s25, s31⟩ := lay11 hwd
    rw [atMajor0B wd s25]; unfold decMajor0B
    rw [s5]
    show leaf (seg wd 13 12 == 0 && seg wd 0 5 == 0) (.nop (flag wd 31)) = _
    rw [s13, s0, s31]
    exact leaf_ok rfl hwf

theorem endAct (sw : Bool) : Statement (.endAct sw) := by
  intro hwf _
  refine roundtrip (l := [⟨5, 0#5⟩, ⟨8, 1#8⟩, ⟨12, 0#12⟩, ⟨6, 11#6⟩, ⟨1, BitVec.ofBool sw⟩]) ?_ rfl ?_
  · show encEndAct sw = _
    simp only [encEndAct, mixB, b2n_eq, BitVec.toNat_ofNat, Nat.reducePow, Nat.reduceMod]; omega
  · intro wd hwd
    obtain ⟨s0, s5, s13, s25, s31⟩ := lay11 hwd
    rw [atMajor0B wd s25]; unfold decMajor0B
    rw [s5]
    show leaf (seg wd 13 12 == 0 && seg wd 0 5 == 0) (.endAct (flag wd 31)) = _
    rw [s13, s0, s31]
    exact leaf_ok rfl hwf

theorem jr (sw : Bool) (a : BitVec 4) : Statement (.jr sw a) := by
  intro hwf _
  refine roundtrip (l := [⟨5, 0#5⟩, ⟨8, 2#8⟩, ⟨4, 0#4⟩, ⟨4, a⟩, ⟨4, 0#4⟩, ⟨6, 11#6⟩, ⟨1, BitVec.ofBool sw⟩]) ?_ rfl ?_
  · show encJr sw a = _
    simp only [encJr, mixB, b2n_eq, BitVec.toNat_ofNat, Nat.reducePow, Nat.reduceMod]; omega
  · intro wd hwd
    obtain ⟨s0, s5, s13, s17, s21, s25, s31⟩ := lay12 hwd
    rw [atMajor0B wd s25]; unfold decMajor0B
    rw [s5]
    show leaf (seg wd 21 4 == 0 && seg wd 13 4 == 0 && seg wd 0 5 == 0) (.jr (flag wd 31) (fld wd 17 4)) = _
    rw [s21, s13, s0, s31, s17]
    exact leaf_ok rfl hwf

theorem callr (sw : Bool) (a : BitVec 4) : Statement (.callr sw a) := by
  intro hwf _
  refine roundtrip (l := [⟨5, 0#5⟩, ⟨8, 3#8⟩, ⟨4, 0#4⟩, ⟨4, a⟩, ⟨4, 0#4⟩, ⟨6, 11#6⟩, ⟨1, BitVec.ofBool sw⟩]) ?_ rfl ?_
  · show encCallr sw a = _
    simp only [encCallr, mixB, b2n_eq, BitVec.toNat_ofNat, Nat.reducePow, Nat.reduceMod]; omega
  · intro wd hwd
    obtain ⟨s0, s5, s13, s17, s21, s25, s31⟩ := lay12 hwd
    rw [atMajor0B wd s25]; unfold decMajor0B
    rw [s5]
    show leaf (seg wd 21 4 == 0 && seg wd 13 4 == 0 && seg wd 0 5 == 0) (.callr (flag wd 31) (fld wd 17 4)) = _
    rw [s21, s13, s0, s31, s17]
    exact leaf_ok rfl hwf

theorem ret (sw : Bool) : Statement (.ret sw) := by
  intro hwf _
  refine roundtrip (l := [⟨5, 0#5⟩, ⟨8, 4#8⟩, ⟨12, 0#12⟩, ⟨6, 11#6⟩, ⟨1, BitVec.ofBool sw⟩]) ?_ rfl ?_
  · show encRet sw = _
    simp only [encRet, mixB, b2n_eq, BitVec.toNat_ofNat, Nat.reducePow, Nat.reduceMod]; omega
  · intro wd hwd
    obtain ⟨s0, s5, s13, s25, s31⟩ := lay11 hwd
    rw [atMajor0B wd s25]; unfold decMajor0B
    rw [s5]
    show leaf (seg wd 13 12 == 0 && seg wd 0 5 == 0) (.ret (flag wd 31)) = _
    rw [s13, s0, s31]
    exact leaf_ok rfl hwf

theorem mfs (sw : Bool) (d : BitVec 4) (r : BitVec 8) : Statement (.mfs sw d r) := by
  intro hwf _
  refine roundtrip (l := [⟨13, 0#13⟩, ⟨8, r⟩, ⟨4, d⟩, ⟨6, 12#6⟩, ⟨1, BitVec.ofBool sw⟩]) ?_ rfl ?_
  · show encMfs sw d r = _
    simp only [encMfs, mixB, b2n_eq, BitVec.toNat_ofNat, Nat.reducePow, Nat.reduceMod]; omega
  · intro wd hwd
    obtain ⟨s0, s13, s21, s25, s31⟩ := lay13 hwd
    rw [atMajor0C wd s25]; unfold decMajor0C
    rw [s0]
    show leaf true (.mfs (flag wd 31) (fld wd 21 4) (fld wd 13 8)) = _
    rw [s31, s21, s13]
    exact leaf_ok rfl hwf

theorem mts (sw : Bool) (d : BitVec 4) (r : BitVec 8) : Statement (.mts sw d r) := by
  intro hwf _
  refine roundtrip (l := [⟨13, 1#13⟩, ⟨8, r⟩, ⟨4, d⟩, ⟨6, 12#6⟩, ⟨1, BitVec.ofBool sw⟩]) ?_ rfl ?_
  · show encMts sw d r = _
    simp only [encMts, mixB, b2n_eq, BitVec.toNat_ofNat, Nat.reducePow, Nat.reduceMod]; omega
  · intro wd hwd
    obtain ⟨s0, s13, s21, s25, s31⟩ := lay13 hwd
    rw [atMajor0C wd s25]; unfold decMajor0C
    rw [s0]
    show leaf true (.mts (flag wd 31) (fld wd 21 4) (fld wd 13 8)) = _
    rw [s31, s21, s13]
    exact leaf_ok rfl hwf

theorem hxImm (v : BitVec 21) : Statement (.hxImm v) := by
  intro hwf _
  refine roundtrip (l := [⟨21, v⟩, ⟨4, 0#4⟩, ⟨6, 63#6⟩, ⟨1, 0#1⟩]) ?_ rfl ?_
  · show encHxImm v = _
    simp only [encHxImm, mixB, BitVec.toNat_ofNat, Nat.reducePow, Nat.reduceMod]
  · intro wd hwd
    obtain ⟨s0, s21, s25, s31⟩ := lay14 hwd
    rw [atMajor3F wd s25]; unfold decMajor3F
    rw [s21]
    show leaf (seg wd 31 1 == 0) (.hxImm (fld wd 0 21)) = _
    rw [s31, s0]
    exact leaf_ok rfl hwf

theorem hxRnd (m : BitVec 3) : Statement (.hxRnd m) := by
  intro hwf _
  refine roundtrip (l := [⟨3, m⟩, ⟨18, 0#18⟩, ⟨4, 1#4⟩, ⟨6, 63#6⟩, ⟨1, 0#1⟩]) ?_ rfl ?_
  · show encHxRnd m = _
    simp only [encHxRnd, mixB, BitVec.toNat_ofNat, Nat.reducePow, Nat.reduceMod]
  · intro wd hwd
    obtain ⟨s0, s3, s21, s25, s31⟩ := lay15 hwd
    rw [atMajor3F wd s25]; unfold decMajor3F
    rw [s21]
    show leaf (seg wd 31 1 == 0 && seg wd 3 18 == 0) (.hxRnd (fld wd 0 3)) = _
    rw [s31, s3, s0]
    exact leaf_ok rfl hwf

theorem hxReuse (k : BitVec 3) : Statement (.hxReuse k) := by
  intro hwf _
  refine roundtrip (l := [⟨3, k⟩, ⟨18, 0#18⟩, ⟨4, 2#4⟩, ⟨6, 63#6⟩, ⟨1, 0#1⟩]) ?_ rfl ?_
  · show encHxReuse k = _
    simp only [encHxReuse, mixB, BitVec.toNat_ofNat, Nat.reducePow, Nat.reduceMod]
  · intro wd hwd
    obtain ⟨s0, s3, s21, s25, s31⟩ := lay15 hwd
    rw [atMajor3F wd s25]; unfold decMajor3F
    rw [s21]
    show leaf (seg wd 31 1 == 0 && seg wd 3 18 == 0) (.hxReuse (fld wd 0 3)) = _
    rw [s31, s3, s0]
    exact leaf_ok rfl hwf

theorem hxNt : Statement .hxNt := by
  intro hwf _
  refine roundtrip (l := [⟨21, 1#21⟩, ⟨4, 3#4⟩, ⟨6, 63#6⟩, ⟨1, 0#1⟩]) ?_ rfl ?_
  · show encHxNt = _
    simp only [encHxNt, mixB, BitVec.toNat_ofNat, Nat.reducePow, Nat.reduceMod]
  · intro wd hwd
    obtain ⟨s0, s21, s25, s31⟩ := lay16 hwd
    rw [atMajor3F wd s25]; unfold decMajor3F
    rw [s21]
    show leaf (seg wd 31 1 == 0 && seg wd 0 21 == 1) .hxNt = _
    rw [s31, s0]
    exact leaf_ok rfl hwf

theorem hxPri (p : BitVec 1) : Statement (.hxPri p) := by
  intro hwf _
  refine roundtrip (l := [⟨1, p⟩, ⟨20, 0#20⟩, ⟨4, 4#4⟩, ⟨6, 63#6⟩, ⟨1, 0#1⟩]) ?_ rfl ?_
  · show encHxPri p = _
    simp only [encHxPri, mixB, BitVec.toNat_ofNat, Nat.reducePow, Nat.reduceMod]
  · intro wd hwd
    obtain ⟨s0, s1, s21, s25, s31⟩ := lay17 hwd
    rw [atMajor3F wd s25]; unfold decMajor3F
    rw [s21]
    show leaf (seg wd 31 1 == 0 && seg wd 1 20 == 0) (.hxPri (fld wd 0 1)) = _
    rw [s31, s1, s0]
    exact leaf_ok rfl hwf

theorem send (sw : Bool) (d : BitVec 4) (a : BitVec 4) (b : BitVec 4) (n : BitVec 5) : Statement (.send sw d a b n) := by
  intro hwf _
  refine roundtrip (l := [⟨8, 0#8⟩, ⟨5, n⟩, ⟨4, b⟩, ⟨4, a⟩, ⟨4, d⟩, ⟨6, 16#6⟩, ⟨1, BitVec.ofBool sw⟩]) ?_ rfl ?_
  · show encSend sw d a b n = _
    simp only [encSend, mixB, b2n_eq, BitVec.toNat_ofNat, Nat.reducePow, Nat.reduceMod]; omega
  · intro wd hwd
    obtain ⟨s0, s8, s13, s17, s21, s25, s31⟩ := lay18 hwd
    rw [atMajor10 wd s25]; unfold decMajor10
    rw [s0]
    show leaf true (.send (flag wd 31) (fld wd 21 4) (fld wd 17 4) (fld wd 13 4) (fld wd 8 5)) = _
    rw [s31, s21, s17, s13, s8]
    exact leaf_ok rfl hwf

theorem sendRq (sw : Bool) (d : BitVec 4) (a : BitVec 4) (b : BitVec 4) (n : BitVec 5) : Statement (.sendRq sw d a b n) := by
  intro hwf _
  refine roundtrip (l := [⟨8, 1#8⟩, ⟨5, n⟩, ⟨4, b⟩, ⟨4, a⟩, ⟨4, d⟩, ⟨6, 16#6⟩, ⟨1, BitVec.ofBool sw⟩]) ?_ rfl ?_
  · show encSendRq sw d a b n = _
    simp only [encSendRq, mixB, b2n_eq, BitVec.toNat_ofNat, Nat.reducePow, Nat.reduceMod]; omega
  · intro wd hwd
    obtain ⟨s0, s8, s13, s17, s21, s25, s31⟩ := lay18 hwd
    rw [atMajor10 wd s25]; unfold decMajor10
    rw [s0]
    show leaf true (.sendRq (flag wd 31) (fld wd 21 4) (fld wd 17 4) (fld wd 13 4) (fld wd 8 5)) = _
    rw [s31, s21, s17, s13, s8]
    exact leaf_ok rfl hwf

theorem sendb (sw : Bool) (d : BitVec 4) (a : BitVec 4) (b : BitVec 4) : Statement (.sendb sw d a b) := by
  intro hwf _
  refine roundtrip (l := [⟨8, 2#8⟩, ⟨5, 0#5⟩, ⟨4, b⟩, ⟨4, a⟩, ⟨4, d⟩, ⟨6, 16#6⟩, ⟨1, BitVec.ofBool sw⟩]) ?_ rfl ?_
  · show encSendb sw d a b = _
    simp only [encSendb, mixB, b2n_eq, BitVec.toNat_ofNat, Nat.reducePow, Nat.reduceMod]; omega
  · intro wd hwd
    obtain ⟨s0, s8, s13, s17, s21, s25, s31⟩ := lay19 hwd
    rw [atMajor10 wd s25]; unfold decMajor10
    rw [s0]
    show leaf (seg wd 8 5 == 0) (.sendb (flag wd 31) (fld wd 21 4) (fld wd 17 4) (fld wd 13 4)) = _
    rw [s8, s31, s21, s17, s13]
    exact leaf_ok rfl hwf

theorem sendbRq (sw : Bool) (d : BitVec 4) (a : BitVec 4) (b : BitVec 4) : Statement (.sendbRq sw d a b) := by
  intro hwf _
  refine roundtrip (l := [⟨8, 3#8⟩, ⟨5, 0#5⟩, ⟨4, b⟩, ⟨4, a⟩, ⟨4, d⟩, ⟨6, 16#6⟩, ⟨1, BitVec.ofBool sw⟩]) ?_ rfl ?_
  · show encSendbRq sw d a b = _
    simp only [encSendbRq, mixB, b2n_eq, BitVec.toNat_ofNat, Nat.reducePow, Nat.reduceMod]; omega
  · intro wd hwd
    obtain ⟨s0, s8, s13, s17, s21, s25, s31⟩ := lay19 hwd
    rw [atMajor10 wd s25]; unfold decMajor10
    rw [s0]
    show leaf (seg wd 8 5 == 0) (.sendbRq (flag wd 31) (fld wd 21 4) (fld wd 17 4) (fld wd 13 4)) = _
    rw [s8, s31, s21, s17, s13]
    exact leaf_ok rfl hwf

theorem reply (sw : Bool) (b : BitVec 4) (n : BitVec 5) : Statement (.reply sw b n) := by
  intro hwf _
  refine roundtrip (l := [⟨8, 0#8⟩, ⟨5, n⟩, ⟨4, b⟩, ⟨8, 0#8⟩, ⟨6, 17#6⟩, ⟨1, BitVec.ofBool sw⟩]) ?_ rfl ?_
  · show encReply sw b n = _
    simp only [encReply, mixB, b2n_eq, BitVec.toNat_ofNat, Nat.reducePow, Nat.reduceMod]; omega
  · intro wd hwd
    obtain ⟨s0, s8, s13, s17, s25, s31⟩ := lay20 hwd
    rw [atMajor11 wd s25]; unfold decMajor11
    rw [s0]
    show leaf (seg wd 17 8 == 0) (.reply (flag wd 31) (fld wd 13 4) (fld wd 8 5)) = _
    rw [s17, s31, s13, s8]
    exact leaf_ok rfl hwf

theorem replyb (sw : Bool) (b : BitVec 4) : Statement (.replyb sw b) := by
  intro hwf _
  refine roundtrip (l := [⟨8, 1#8⟩, ⟨5, 0#5⟩, ⟨4, b⟩, ⟨8, 0#8⟩, ⟨6, 17#6⟩, ⟨1, BitVec.ofBool sw⟩]) ?_ rfl ?_
  · show encReplyb sw b = _
    simp only [encReplyb, mixB, b2n_eq, BitVec.toNat_ofNat, Nat.reducePow, Nat.reduceMod]; omega
  · intro wd hwd
    obtain ⟨s0, s8, s13, s17, s25, s31⟩ := lay21 hwd
    rw [atMajor11 wd s25]; unfold decMajor11
    rw [s0]
    show leaf (seg wd 17 8 == 0 && seg wd 8 5 == 0) (.replyb (flag wd 31) (fld wd 13 4)) = _
    rw [s17, s8, s31, s13]
    exact leaf_ok rfl hwf

theorem migr (a : BitVec 4) : Statement (.migr a) := by
  intro hwf _
  refine roundtrip (l := [⟨8, 0#8⟩, ⟨9, 0#9⟩, ⟨4, a⟩, ⟨4, 0#4⟩, ⟨6, 18#6⟩, ⟨1, 1#1⟩]) ?_ rfl ?_
  · show encMigr a = _
    simp only [encMigr, mixB, BitVec.toNat_ofNat, Nat.reducePow, Nat.reduceMod]; omega
  · intro wd hwd
    obtain ⟨s0, s8, s17, s21, s25, s31⟩ := lay22 hwd
    rw [atMajor12 wd s25]; unfold decMajor12
    rw [s0]
    show leaf (seg wd 31 1 == 1 && seg wd 21 4 == 0 && seg wd 8 9 == 0) (.migr (fld wd 17 4)) = _
    rw [s31, s21, s8, s17]
    exact leaf_ok rfl hwf

theorem migrx (d : BitVec 4) : Statement (.migrx d) := by
  intro hwf _
  refine roundtrip (l := [⟨8, 1#8⟩, ⟨13, 0#13⟩, ⟨4, d⟩, ⟨6, 18#6⟩, ⟨1, 1#1⟩]) ?_ rfl ?_
  · show encMigrx d = _
    simp only [encMigrx, mixB, BitVec.toNat_ofNat, Nat.reducePow, Nat.reduceMod]; omega
  · intro wd hwd
    obtain ⟨s0, s8, s21, s25, s31⟩ := lay23 hwd
    rw [atMajor12 wd s25]; unfold decMajor12
    rw [s0]
    show leaf (seg wd 31 1 == 1 && seg wd 8 13 == 0) (.migrx (fld wd 21 4)) = _
    rw [s31, s8, s21]
    exact leaf_ok rfl hwf

theorem recvw (sw : Bool) (d : BitVec 4) : Statement (.recvw sw d) := by
  intro hwf _
  refine roundtrip (l := [⟨8, 0#8⟩, ⟨13, 0#13⟩, ⟨4, d⟩, ⟨6, 19#6⟩, ⟨1, BitVec.ofBool sw⟩]) ?_ rfl ?_
  · show encRecvw sw d = _
    simp only [encRecvw, mixB, b2n_eq, BitVec.toNat_ofNat, Nat.reducePow, Nat.reduceMod]; omega
  · intro wd hwd
    obtain ⟨s0, s8, s21, s25, s31⟩ := lay24 hwd
    rw [atMajor13 wd s25]; unfold decMajor13
    rw [s0]
    show leaf (seg wd 8 13 == 0) (.recvw (flag wd 31) (fld wd 21 4)) = _
    rw [s8, s31, s21]
    exact leaf_ok rfl hwf

theorem homexy (sw : Bool) (d : BitVec 4) (a : BitVec 4) : Statement (.homexy sw d a) := by
  intro hwf _
  refine roundtrip (l := [⟨8, 1#8⟩, ⟨9, 0#9⟩, ⟨4, a⟩, ⟨4, d⟩, ⟨6, 19#6⟩, ⟨1, BitVec.ofBool sw⟩]) ?_ rfl ?_
  · show encHomexy sw d a = _
    simp only [encHomexy, mixB, b2n_eq, BitVec.toNat_ofNat, Nat.reducePow, Nat.reduceMod]; omega
  · intro wd hwd
    obtain ⟨s0, s8, s17, s21, s25, s31⟩ := lay25 hwd
    rw [atMajor13 wd s25]; unfold decMajor13
    rw [s0]
    show leaf (seg wd 8 9 == 0) (.homexy (flag wd 31) (fld wd 21 4) (fld wd 17 4)) = _
    rw [s8, s31, s21, s17]
    exact leaf_ok rfl hwf

theorem evarm (sw : Bool) (a : BitVec 4) (b : BitVec 4) : Statement (.evarm sw a b) := by
  intro hwf _
  refine roundtrip (l := [⟨5, 0#5⟩, ⟨8, 0#8⟩, ⟨4, b⟩, ⟨4, a⟩, ⟨4, 0#4⟩, ⟨6, 20#6⟩, ⟨1, BitVec.ofBool sw⟩]) ?_ rfl ?_
  · show encEvarm sw a b = _
    simp only [encEvarm, mixB, b2n_eq, BitVec.toNat_ofNat, Nat.reducePow, Nat.reduceMod]; omega
  · intro wd hwd
    obtain ⟨s0, s5, s13, s17, s21, s25, s31⟩ := lay26 hwd
    rw [atMajor14 wd s25]; unfold decMajor14
    rw [s5]
    show leaf (seg wd 21 4 == 0 && seg wd 0 5 == 0) (.evarm (flag wd 31) (fld wd 17 4) (fld wd 13 4)) = _
    rw [s21, s0, s31, s17, s13]
    exact leaf_ok rfl hwf

theorem evsend (sw : Bool) (d : BitVec 4) (a : BitVec 4) (b : BitVec 4) (e : BitVec 4) : Statement (.evsend sw d a b e) := by
  intro hwf _
  refine roundtrip (l := [⟨4, e⟩, ⟨1, 0#1⟩, ⟨8, 1#8⟩, ⟨4, b⟩, ⟨4, a⟩, ⟨4, d⟩, ⟨6, 20#6⟩, ⟨1, BitVec.ofBool sw⟩]) ?_ rfl ?_
  · show encEvsend sw d a b e = _
    simp only [encEvsend, mixB, b2n_eq, BitVec.toNat_ofNat, Nat.reducePow, Nat.reduceMod]; omega
  · intro wd hwd
    obtain ⟨s0, s4, s5, s13, s17, s21, s25, s31⟩ := lay3 hwd
    rw [atMajor14 wd s25]; unfold decMajor14
    rw [s5]
    show leaf (seg wd 4 1 == 0) (.evsend (flag wd 31) (fld wd 21 4) (fld wd 17 4) (fld wd 13 4) (fld wd 0 4)) = _
    rw [s4, s31, s21, s17, s13, s0]
    exact leaf_ok rfl hwf

theorem evread (sw : Bool) (d : BitVec 4) (a : BitVec 4) : Statement (.evread sw d a) := by
  intro hwf _
  refine roundtrip (l := [⟨5, 0#5⟩, ⟨8, 2#8⟩, ⟨4, 0#4⟩, ⟨4, a⟩, ⟨4, d⟩, ⟨6, 20#6⟩, ⟨1, BitVec.ofBool sw⟩]) ?_ rfl ?_
  · show encEvread sw d a = _
    simp only [encEvread, mixB, b2n_eq, BitVec.toNat_ofNat, Nat.reducePow, Nat.reduceMod]; omega
  · intro wd hwd
    obtain ⟨s0, s5, s13, s17, s21, s25, s31⟩ := lay2 hwd
    rw [atMajor14 wd s25]; unfold decMajor14
    rw [s5]
    show leaf (seg wd 13 4 == 0 && seg wd 0 5 == 0) (.evread (flag wd 31) (fld wd 21 4) (fld wd 17 4)) = _
    rw [s13, s0, s31, s21, s17]
    exact leaf_ok rfl hwf

theorem pushw (sw : Bool) (b : BitVec 4) : Statement (.pushw sw b) := by
  intro hwf _
  refine roundtrip (l := [⟨5, 0#5⟩, ⟨8, 8#8⟩, ⟨4, b⟩, ⟨8, 0#8⟩, ⟨6, 20#6⟩, ⟨1, BitVec.ofBool sw⟩]) ?_ rfl ?_
  · show encPushw sw b = _
    simp only [encPushw, mixB, b2n_eq, BitVec.toNat_ofNat, Nat.reducePow, Nat.reduceMod]; omega
  · intro wd hwd
    obtain ⟨s0, s5, s13, s17, s25, s31⟩ := lay27 hwd
    rw [atMajor14 wd s25]; unfold decMajor14
    rw [s5]
    show leaf (seg wd 17 8 == 0 && seg wd 0 5 == 0) (.pushw (flag wd 31) (fld wd 13 4)) = _
    rw [s17, s0, s31, s13]
    exact leaf_ok rfl hwf

theorem popw (sw : Bool) (d : BitVec 4) : Statement (.popw sw d) := by
  intro hwf _
  refine roundtrip (l := [⟨5, 0#5⟩, ⟨8, 9#8⟩, ⟨8, 0#8⟩, ⟨4, d⟩, ⟨6, 20#6⟩, ⟨1, BitVec.ofBool sw⟩]) ?_ rfl ?_
  · show encPopw sw d = _
    simp only [encPopw, mixB, b2n_eq, BitVec.toNat_ofNat, Nat.reducePow, Nat.reduceMod]; omega
  · intro wd hwd
    obtain ⟨s0, s5, s13, s21, s25, s31⟩ := lay28 hwd
    rw [atMajor14 wd s25]; unfold decMajor14
    rw [s5]
    show leaf (seg wd 13 8 == 0 && seg wd 0 5 == 0) (.popw (flag wd 31) (fld wd 21 4)) = _
    rw [s13, s0, s31, s21]
    exact leaf_ok rfl hwf

theorem steal (sw : Bool) : Statement (.steal sw) := by
  intro hwf _
  refine roundtrip (l := [⟨5, 0#5⟩, ⟨8, 10#8⟩, ⟨12, 0#12⟩, ⟨6, 20#6⟩, ⟨1, BitVec.ofBool sw⟩]) ?_ rfl ?_
  · show encSteal sw = _
    simp only [encSteal, mixB, b2n_eq, BitVec.toNat_ofNat, Nat.reducePow, Nat.reduceMod]; omega
  · intro wd hwd
    obtain ⟨s0, s5, s13, s25, s31⟩ := lay11 hwd
    rw [atMajor14 wd s25]; unfold decMajor14
    rw [s5]
    show leaf (seg wd 13 12 == 0 && seg wd 0 5 == 0) (.steal (flag wd 31)) = _
    rw [s13, s0, s31]
    exact leaf_ok rfl hwf

theorem dqlen (sw : Bool) (d : BitVec 4) : Statement (.dqlen sw d) := by
  intro hwf _
  refine roundtrip (l := [⟨5, 0#5⟩, ⟨8, 11#8⟩, ⟨8, 0#8⟩, ⟨4, d⟩, ⟨6, 20#6⟩, ⟨1, BitVec.ofBool sw⟩]) ?_ rfl ?_
  · show encDqlen sw d = _
    simp only [encDqlen, mixB, b2n_eq, BitVec.toNat_ofNat, Nat.reducePow, Nat.reduceMod]; omega
  · intro wd hwd
    obtain ⟨s0, s5, s13, s21, s25, s31⟩ := lay28 hwd
    rw [atMajor14 wd s25]; unfold decMajor14
    rw [s5]
    show leaf (seg wd 13 8 == 0 && seg wd 0 5 == 0) (.dqlen (flag wd 31) (fld wd 21 4)) = _
    rw [s13, s0, s31, s21]
    exact leaf_ok rfl hwf

theorem launch (sw : Bool) (d : BitVec 4) (a : BitVec 4) : Statement (.launch sw d a) := by
  intro hwf _
  refine roundtrip (l := [⟨5, 0#5⟩, ⟨8, 16#8⟩, ⟨4, 0#4⟩, ⟨4, a⟩, ⟨4, d⟩, ⟨6, 20#6⟩, ⟨1, BitVec.ofBool sw⟩]) ?_ rfl ?_
  · show encLaunch sw d a = _
    simp only [encLaunch, mixB, b2n_eq, BitVec.toNat_ofNat, Nat.reducePow, Nat.reduceMod]; omega
  · intro wd hwd
    obtain ⟨s0, s5, s13, s17, s21, s25, s31⟩ := lay2 hwd
    rw [atMajor14 wd s25]; unfold decMajor14
    rw [s5]
    show leaf (seg wd 13 4 == 0 && seg wd 0 5 == 0) (.launch (flag wd 31) (fld wd 21 4) (fld wd 17 4)) = _
    rw [s13, s0, s31, s21, s17]
    exact leaf_ok rfl hwf

theorem kill (sw : Bool) (a : BitVec 4) : Statement (.kill sw a) := by
  intro hwf _
  refine roundtrip (l := [⟨5, 0#5⟩, ⟨8, 17#8⟩, ⟨4, 0#4⟩, ⟨4, a⟩, ⟨4, 0#4⟩, ⟨6, 20#6⟩, ⟨1, BitVec.ofBool sw⟩]) ?_ rfl ?_
  · show encKill sw a = _
    simp only [encKill, mixB, b2n_eq, BitVec.toNat_ofNat, Nat.reducePow, Nat.reduceMod]; omega
  · intro wd hwd
    obtain ⟨s0, s5, s13, s17, s21, s25, s31⟩ := lay12 hwd
    rw [atMajor14 wd s25]; unfold decMajor14
    rw [s5]
    show leaf (seg wd 21 4 == 0 && seg wd 13 4 == 0 && seg wd 0 5 == 0) (.kill (flag wd 31) (fld wd 17 4)) = _
    rw [s21, s13, s0, s31, s17]
    exact leaf_ok rfl hwf

theorem evsig (sw : Bool) (a : BitVec 4) (imm : BitVec 13) : Statement (.evsig sw a imm) := by
  intro hwf _
  refine roundtrip (l := [⟨13, imm⟩, ⟨4, 0#4⟩, ⟨4, a⟩, ⟨4, 0#4⟩, ⟨6, 21#6⟩, ⟨1, BitVec.ofBool sw⟩]) ?_ rfl ?_
  · show encEvsig sw a imm = _
    simp only [encEvsig, mixB, b2n_eq, BitVec.toNat_ofNat, Nat.reducePow, Nat.reduceMod]; omega
  · intro wd hwd
    obtain ⟨s0, s13, s17, s21, s25, s31⟩ := lay29 hwd
    rw [atMajor15 wd s25]; unfold decMajor15
    rw [s13]
    show leaf (seg wd 21 4 == 0) (.evsig (flag wd 31) (fld wd 17 4) (fld wd 0 13)) = _
    rw [s21, s31, s17, s0]
    exact leaf_ok rfl hwf

theorem sgrp (sw : Bool) (d : BitVec 4) (l : BitVec 13) : Statement (.sgrp sw d l) := by
  intro hwf _
  refine roundtrip (l := [⟨13, l⟩, ⟨4, 1#4⟩, ⟨4, 0#4⟩, ⟨4, d⟩, ⟨6, 21#6⟩, ⟨1, BitVec.ofBool sw⟩]) ?_ rfl ?_
  · show encSgrp sw d l = _
    simp only [encSgrp, mixB, b2n_eq, BitVec.toNat_ofNat, Nat.reducePow, Nat.reduceMod]; omega
  · intro wd hwd
    obtain ⟨s0, s13, s17, s21, s25, s31⟩ := lay30 hwd
    rw [atMajor15 wd s25]; unfold decMajor15
    rw [s13]
    show leaf (seg wd 17 4 == 0) (.sgrp (flag wd 31) (fld wd 21 4) (fld wd 0 13)) = _
    rw [s17, s31, s21, s0]
    exact leaf_ok rfl hwf

theorem garrAnd (sw : Bool) (d : BitVec 4) (a : BitVec 4) (k : BitVec 11) : Statement (.garrAnd sw d a k) := by
  intro hwf _
  refine roundtrip (l := [⟨11, k⟩, ⟨2, 0#2⟩, ⟨4, 0#4⟩, ⟨4, a⟩, ⟨4, d⟩, ⟨6, 22#6⟩, ⟨1, BitVec.ofBool sw⟩]) ?_ rfl ?_
  · show encGarrAnd sw d a k = _
    simp only [encGarrAnd, mixB, b2n_eq, BitVec.toNat_ofNat, Nat.reducePow, Nat.reduceMod]; omega
  · intro wd hwd
    obtain ⟨s0, s11, s13, s17, s21, s25, s31⟩ := lay31 hwd
    rw [atMajor16 wd s25]; unfold decMajor16
    rw [s13]
    show leaf (seg wd 11 2 == 0) (.garrAnd (flag wd 31) (fld wd 21 4) (fld wd 17 4) (fld wd 0 11)) = _
    rw [s11, s31, s21, s17, s0]
    exact leaf_ok rfl hwf

theorem garrOr (sw : Bool) (d : BitVec 4) (a : BitVec 4) (k : BitVec 11) : Statement (.garrOr sw d a k) := by
  intro hwf _
  refine roundtrip (l := [⟨11, k⟩, ⟨2, 0#2⟩, ⟨4, 1#4⟩, ⟨4, a⟩, ⟨4, d⟩, ⟨6, 22#6⟩, ⟨1, BitVec.ofBool sw⟩]) ?_ rfl ?_
  · show encGarrOr sw d a k = _
    simp only [encGarrOr, mixB, b2n_eq, BitVec.toNat_ofNat, Nat.reducePow, Nat.reduceMod]; omega
  · intro wd hwd
    obtain ⟨s0, s11, s13, s17, s21, s25, s31⟩ := lay31 hwd
    rw [atMajor16 wd s25]; unfold decMajor16
    rw [s13]
    show leaf (seg wd 11 2 == 0) (.garrOr (flag wd 31) (fld wd 21 4) (fld wd 17 4) (fld wd 0 11)) = _
    rw [s11, s31, s21, s17, s0]
    exact leaf_ok rfl hwf

theorem garrAdd (sw : Bool) (d : BitVec 4) (a : BitVec 4) (k : BitVec 11) : Statement (.garrAdd sw d a k) := by
  intro hwf _
  refine roundtrip (l := [⟨11, k⟩, ⟨2, 0#2⟩, ⟨4, 2#4⟩, ⟨4, a⟩, ⟨4, d⟩, ⟨6, 22#6⟩, ⟨1, BitVec.ofBool sw⟩]) ?_ rfl ?_
  · show encGarrAdd sw d a k = _
    simp only [encGarrAdd, mixB, b2n_eq, BitVec.toNat_ofNat, Nat.reducePow, Nat.reduceMod]; omega
  · intro wd hwd
    obtain ⟨s0, s11, s13, s17, s21, s25, s31⟩ := lay31 hwd
    rw [atMajor16 wd s25]; unfold decMajor16
    rw [s13]
    show leaf (seg wd 11 2 == 0) (.garrAdd (flag wd 31) (fld wd 21 4) (fld wd 17 4) (fld wd 0 11)) = _
    rw [s11, s31, s21, s17, s0]
    exact leaf_ok rfl hwf

theorem garrMaxu (sw : Bool) (d : BitVec 4) (a : BitVec 4) (k : BitVec 11) : Statement (.garrMaxu sw d a k) := by
  intro hwf _
  refine roundtrip (l := [⟨11, k⟩, ⟨2, 0#2⟩, ⟨4, 3#4⟩, ⟨4, a⟩, ⟨4, d⟩, ⟨6, 22#6⟩, ⟨1, BitVec.ofBool sw⟩]) ?_ rfl ?_
  · show encGarrMaxu sw d a k = _
    simp only [encGarrMaxu, mixB, b2n_eq, BitVec.toNat_ofNat, Nat.reducePow, Nat.reduceMod]; omega
  · intro wd hwd
    obtain ⟨s0, s11, s13, s17, s21, s25, s31⟩ := lay31 hwd
    rw [atMajor16 wd s25]; unfold decMajor16
    rw [s13]
    show leaf (seg wd 11 2 == 0) (.garrMaxu (flag wd 31) (fld wd 21 4) (fld wd 17 4) (fld wd 0 11)) = _
    rw [s11, s31, s21, s17, s0]
    exact leaf_ok rfl hwf

theorem garrFmax (sw : Bool) (d : BitVec 4) (a : BitVec 4) (k : BitVec 11) : Statement (.garrFmax sw d a k) := by
  intro hwf _
  refine roundtrip (l := [⟨11, k⟩, ⟨2, 0#2⟩, ⟨4, 4#4⟩, ⟨4, a⟩, ⟨4, d⟩, ⟨6, 22#6⟩, ⟨1, BitVec.ofBool sw⟩]) ?_ rfl ?_
  · show encGarrFmax sw d a k = _
    simp only [encGarrFmax, mixB, b2n_eq, BitVec.toNat_ofNat, Nat.reducePow, Nat.reduceMod]; omega
  · intro wd hwd
    obtain ⟨s0, s11, s13, s17, s21, s25, s31⟩ := lay31 hwd
    rw [atMajor16 wd s25]; unfold decMajor16
    rw [s13]
    show leaf (seg wd 11 2 == 0) (.garrFmax (flag wd 31) (fld wd 21 4) (fld wd 17 4) (fld wd 0 11)) = _
    rw [s11, s31, s21, s17, s0]
    exact leaf_ok rfl hwf

theorem garrFmin (sw : Bool) (d : BitVec 4) (a : BitVec 4) (k : BitVec 11) : Statement (.garrFmin sw d a k) := by
  intro hwf _
  refine roundtrip (l := [⟨11, k⟩, ⟨2, 0#2⟩, ⟨4, 5#4⟩, ⟨4, a⟩, ⟨4, d⟩, ⟨6, 22#6⟩, ⟨1, BitVec.ofBool sw⟩]) ?_ rfl ?_
  · show encGarrFmin sw d a k = _
    simp only [encGarrFmin, mixB, b2n_eq, BitVec.toNat_ofNat, Nat.reducePow, Nat.reduceMod]; omega
  · intro wd hwd
    obtain ⟨s0, s11, s13, s17, s21, s25, s31⟩ := lay31 hwd
    rw [atMajor16 wd s25]; unfold decMajor16
    rw [s13]
    show leaf (seg wd 11 2 == 0) (.garrFmin (flag wd 31) (fld wd 21 4) (fld wd 17 4) (fld wd 0 11)) = _
    rw [s11, s31, s21, s17, s0]
    exact leaf_ok rfl hwf

theorem garrwAnd (sw : Bool) (d : BitVec 4) (a : BitVec 4) (k : BitVec 11) : Statement (.garrwAnd sw d a k) := by
  intro hwf _
  refine roundtrip (l := [⟨11, k⟩, ⟨2, 0#2⟩, ⟨4, 0#4⟩, ⟨4, a⟩, ⟨4, d⟩, ⟨6, 23#6⟩, ⟨1, BitVec.ofBool sw⟩]) ?_ rfl ?_
  · show encGarrwAnd sw d a k = _
    simp only [encGarrwAnd, mixB, b2n_eq, BitVec.toNat_ofNat, Nat.reducePow, Nat.reduceMod]; omega
  · intro wd hwd
    obtain ⟨s0, s11, s13, s17, s21, s25, s31⟩ := lay31 hwd
    rw [atMajor17 wd s25]; unfold decMajor17
    rw [s13]
    show leaf (seg wd 11 2 == 0) (.garrwAnd (flag wd 31) (fld wd 21 4) (fld wd 17 4) (fld wd 0 11)) = _
    rw [s11, s31, s21, s17, s0]
    exact leaf_ok rfl hwf

theorem garrwOr (sw : Bool) (d : BitVec 4) (a : BitVec 4) (k : BitVec 11) : Statement (.garrwOr sw d a k) := by
  intro hwf _
  refine roundtrip (l := [⟨11, k⟩, ⟨2, 0#2⟩, ⟨4, 1#4⟩, ⟨4, a⟩, ⟨4, d⟩, ⟨6, 23#6⟩, ⟨1, BitVec.ofBool sw⟩]) ?_ rfl ?_
  · show encGarrwOr sw d a k = _
    simp only [encGarrwOr, mixB, b2n_eq, BitVec.toNat_ofNat, Nat.reducePow, Nat.reduceMod]; omega
  · intro wd hwd
    obtain ⟨s0, s11, s13, s17, s21, s25, s31⟩ := lay31 hwd
    rw [atMajor17 wd s25]; unfold decMajor17
    rw [s13]
    show leaf (seg wd 11 2 == 0) (.garrwOr (flag wd 31) (fld wd 21 4) (fld wd 17 4) (fld wd 0 11)) = _
    rw [s11, s31, s21, s17, s0]
    exact leaf_ok rfl hwf

theorem garrwAdd (sw : Bool) (d : BitVec 4) (a : BitVec 4) (k : BitVec 11) : Statement (.garrwAdd sw d a k) := by
  intro hwf _
  refine roundtrip (l := [⟨11, k⟩, ⟨2, 0#2⟩, ⟨4, 2#4⟩, ⟨4, a⟩, ⟨4, d⟩, ⟨6, 23#6⟩, ⟨1, BitVec.ofBool sw⟩]) ?_ rfl ?_
  · show encGarrwAdd sw d a k = _
    simp only [encGarrwAdd, mixB, b2n_eq, BitVec.toNat_ofNat, Nat.reducePow, Nat.reduceMod]; omega
  · intro wd hwd
    obtain ⟨s0, s11, s13, s17, s21, s25, s31⟩ := lay31 hwd
    rw [atMajor17 wd s25]; unfold decMajor17
    rw [s13]
    show leaf (seg wd 11 2 == 0) (.garrwAdd (flag wd 31) (fld wd 21 4) (fld wd 17 4) (fld wd 0 11)) = _
    rw [s11, s31, s21, s17, s0]
    exact leaf_ok rfl hwf

theorem garrwMaxu (sw : Bool) (d : BitVec 4) (a : BitVec 4) (k : BitVec 11) : Statement (.garrwMaxu sw d a k) := by
  intro hwf _
  refine roundtrip (l := [⟨11, k⟩, ⟨2, 0#2⟩, ⟨4, 3#4⟩, ⟨4, a⟩, ⟨4, d⟩, ⟨6, 23#6⟩, ⟨1, BitVec.ofBool sw⟩]) ?_ rfl ?_
  · show encGarrwMaxu sw d a k = _
    simp only [encGarrwMaxu, mixB, b2n_eq, BitVec.toNat_ofNat, Nat.reducePow, Nat.reduceMod]; omega
  · intro wd hwd
    obtain ⟨s0, s11, s13, s17, s21, s25, s31⟩ := lay31 hwd
    rw [atMajor17 wd s25]; unfold decMajor17
    rw [s13]
    show leaf (seg wd 11 2 == 0) (.garrwMaxu (flag wd 31) (fld wd 21 4) (fld wd 17 4) (fld wd 0 11)) = _
    rw [s11, s31, s21, s17, s0]
    exact leaf_ok rfl hwf

theorem garrwFmax (sw : Bool) (d : BitVec 4) (a : BitVec 4) (k : BitVec 11) : Statement (.garrwFmax sw d a k) := by
  intro hwf _
  refine roundtrip (l := [⟨11, k⟩, ⟨2, 0#2⟩, ⟨4, 4#4⟩, ⟨4, a⟩, ⟨4, d⟩, ⟨6, 23#6⟩, ⟨1, BitVec.ofBool sw⟩]) ?_ rfl ?_
  · show encGarrwFmax sw d a k = _
    simp only [encGarrwFmax, mixB, b2n_eq, BitVec.toNat_ofNat, Nat.reducePow, Nat.reduceMod]; omega
  · intro wd hwd
    obtain ⟨s0, s11, s13, s17, s21, s25, s31⟩ := lay31 hwd
    rw [atMajor17 wd s25]; unfold decMajor17
    rw [s13]
    show leaf (seg wd 11 2 == 0) (.garrwFmax (flag wd 31) (fld wd 21 4) (fld wd 17 4) (fld wd 0 11)) = _
    rw [s11, s31, s21, s17, s0]
    exact leaf_ok rfl hwf

theorem garrwFmin (sw : Bool) (d : BitVec 4) (a : BitVec 4) (k : BitVec 11) : Statement (.garrwFmin sw d a k) := by
  intro hwf _
  refine roundtrip (l := [⟨11, k⟩, ⟨2, 0#2⟩, ⟨4, 5#4⟩, ⟨4, a⟩, ⟨4, d⟩, ⟨6, 23#6⟩, ⟨1, BitVec.ofBool sw⟩]) ?_ rfl ?_
  · show encGarrwFmin sw d a k = _
    simp only [encGarrwFmin, mixB, b2n_eq, BitVec.toNat_ofNat, Nat.reducePow, Nat.reduceMod]; omega
  · intro wd hwd
    obtain ⟨s0, s11, s13, s17, s21, s25, s31⟩ := lay31 hwd
    rw [atMajor17 wd s25]; unfold decMajor17
    rw [s13]
    show leaf (seg wd 11 2 == 0) (.garrwFmin (flag wd 31) (fld wd 21 4) (fld wd 17 4) (fld wd 0 11)) = _
    rw [s11, s31, s21, s17, s0]
    exact leaf_ok rfl hwf

theorem ldgB (sw : Bool) (d : BitVec 4) (a : BitVec 4) (imm : BitVec 13) : Statement (.ldgB sw d a imm) := by
  intro hwf _
  refine roundtrip (l := [⟨13, imm⟩, ⟨4, 0#4⟩, ⟨4, a⟩, ⟨4, d⟩, ⟨6, 24#6⟩, ⟨1, BitVec.ofBool sw⟩]) ?_ rfl ?_
  · show encLdgB sw d a imm = _
    simp only [encLdgB, mixB, b2n_eq, BitVec.toNat_ofNat, Nat.reducePow, Nat.reduceMod]; omega
  · intro wd hwd
    obtain ⟨s0, s13, s17, s21, s25, s31⟩ := lay4 hwd
    rw [atMajor18 wd s25]; unfold decMajor18
    rw [s13]
    show leaf true (.ldgB (flag wd 31) (fld wd 21 4) (fld wd 17 4) (fld wd 0 13)) = _
    rw [s31, s21, s17, s0]
    exact leaf_ok rfl hwf

theorem ldgBu (sw : Bool) (d : BitVec 4) (a : BitVec 4) (imm : BitVec 13) : Statement (.ldgBu sw d a imm) := by
  intro hwf _
  refine roundtrip (l := [⟨13, imm⟩, ⟨4, 1#4⟩, ⟨4, a⟩, ⟨4, d⟩, ⟨6, 24#6⟩, ⟨1, BitVec.ofBool sw⟩]) ?_ rfl ?_
  · show encLdgBu sw d a imm = _
    simp only [encLdgBu, mixB, b2n_eq, BitVec.toNat_ofNat, Nat.reducePow, Nat.reduceMod]; omega
  · intro wd hwd
    obtain ⟨s0, s13, s17, s21, s25, s31⟩ := lay4 hwd
    rw [atMajor18 wd s25]; unfold decMajor18
    rw [s13]
    show leaf true (.ldgBu (flag wd 31) (fld wd 21 4) (fld wd 17 4) (fld wd 0 13)) = _
    rw [s31, s21, s17, s0]
    exact leaf_ok rfl hwf

theorem ldgH (sw : Bool) (d : BitVec 4) (a : BitVec 4) (imm : BitVec 13) : Statement (.ldgH sw d a imm) := by
  intro hwf _
  refine roundtrip (l := [⟨13, imm⟩, ⟨4, 2#4⟩, ⟨4, a⟩, ⟨4, d⟩, ⟨6, 24#6⟩, ⟨1, BitVec.ofBool sw⟩]) ?_ rfl ?_
  · show encLdgH sw d a imm = _
    simp only [encLdgH, mixB, b2n_eq, BitVec.toNat_ofNat, Nat.reducePow, Nat.reduceMod]; omega
  · intro wd hwd
    obtain ⟨s0, s13, s17, s21, s25, s31⟩ := lay4 hwd
    rw [atMajor18 wd s25]; unfold decMajor18
    rw [s13]
    show leaf true (.ldgH (flag wd 31) (fld wd 21 4) (fld wd 17 4) (fld wd 0 13)) = _
    rw [s31, s21, s17, s0]
    exact leaf_ok rfl hwf

theorem ldgHu (sw : Bool) (d : BitVec 4) (a : BitVec 4) (imm : BitVec 13) : Statement (.ldgHu sw d a imm) := by
  intro hwf _
  refine roundtrip (l := [⟨13, imm⟩, ⟨4, 3#4⟩, ⟨4, a⟩, ⟨4, d⟩, ⟨6, 24#6⟩, ⟨1, BitVec.ofBool sw⟩]) ?_ rfl ?_
  · show encLdgHu sw d a imm = _
    simp only [encLdgHu, mixB, b2n_eq, BitVec.toNat_ofNat, Nat.reducePow, Nat.reduceMod]; omega
  · intro wd hwd
    obtain ⟨s0, s13, s17, s21, s25, s31⟩ := lay4 hwd
    rw [atMajor18 wd s25]; unfold decMajor18
    rw [s13]
    show leaf true (.ldgHu (flag wd 31) (fld wd 21 4) (fld wd 17 4) (fld wd 0 13)) = _
    rw [s31, s21, s17, s0]
    exact leaf_ok rfl hwf

theorem ldgW (sw : Bool) (d : BitVec 4) (a : BitVec 4) (imm : BitVec 13) : Statement (.ldgW sw d a imm) := by
  intro hwf _
  refine roundtrip (l := [⟨13, imm⟩, ⟨4, 4#4⟩, ⟨4, a⟩, ⟨4, d⟩, ⟨6, 24#6⟩, ⟨1, BitVec.ofBool sw⟩]) ?_ rfl ?_
  · show encLdgW sw d a imm = _
    simp only [encLdgW, mixB, b2n_eq, BitVec.toNat_ofNat, Nat.reducePow, Nat.reduceMod]; omega
  · intro wd hwd
    obtain ⟨s0, s13, s17, s21, s25, s31⟩ := lay4 hwd
    rw [atMajor18 wd s25]; unfold decMajor18
    rw [s13]
    show leaf true (.ldgW (flag wd 31) (fld wd 21 4) (fld wd 17 4) (fld wd 0 13)) = _
    rw [s31, s21, s17, s0]
    exact leaf_ok rfl hwf

theorem ldgWu (sw : Bool) (d : BitVec 4) (a : BitVec 4) (imm : BitVec 13) : Statement (.ldgWu sw d a imm) := by
  intro hwf _
  refine roundtrip (l := [⟨13, imm⟩, ⟨4, 5#4⟩, ⟨4, a⟩, ⟨4, d⟩, ⟨6, 24#6⟩, ⟨1, BitVec.ofBool sw⟩]) ?_ rfl ?_
  · show encLdgWu sw d a imm = _
    simp only [encLdgWu, mixB, b2n_eq, BitVec.toNat_ofNat, Nat.reducePow, Nat.reduceMod]; omega
  · intro wd hwd
    obtain ⟨s0, s13, s17, s21, s25, s31⟩ := lay4 hwd
    rw [atMajor18 wd s25]; unfold decMajor18
    rw [s13]
    show leaf true (.ldgWu (flag wd 31) (fld wd 21 4) (fld wd 17 4) (fld wd 0 13)) = _
    rw [s31, s21, s17, s0]
    exact leaf_ok rfl hwf

theorem ldgD (sw : Bool) (d : BitVec 4) (a : BitVec 4) (imm : BitVec 13) : Statement (.ldgD sw d a imm) := by
  intro hwf _
  refine roundtrip (l := [⟨13, imm⟩, ⟨4, 6#4⟩, ⟨4, a⟩, ⟨4, d⟩, ⟨6, 24#6⟩, ⟨1, BitVec.ofBool sw⟩]) ?_ rfl ?_
  · show encLdgD sw d a imm = _
    simp only [encLdgD, mixB, b2n_eq, BitVec.toNat_ofNat, Nat.reducePow, Nat.reduceMod]; omega
  · intro wd hwd
    obtain ⟨s0, s13, s17, s21, s25, s31⟩ := lay4 hwd
    rw [atMajor18 wd s25]; unfold decMajor18
    rw [s13]
    show leaf true (.ldgD (flag wd 31) (fld wd 21 4) (fld wd 17 4) (fld wd 0 13)) = _
    rw [s31, s21, s17, s0]
    exact leaf_ok rfl hwf

theorem ldgAcq (sw : Bool) (d : BitVec 4) (a : BitVec 4) (imm : BitVec 13) : Statement (.ldgAcq sw d a imm) := by
  intro hwf _
  refine roundtrip (l := [⟨13, imm⟩, ⟨4, 7#4⟩, ⟨4, a⟩, ⟨4, d⟩, ⟨6, 24#6⟩, ⟨1, BitVec.ofBool sw⟩]) ?_ rfl ?_
  · show encLdgAcq sw d a imm = _
    simp only [encLdgAcq, mixB, b2n_eq, BitVec.toNat_ofNat, Nat.reducePow, Nat.reduceMod]; omega
  · intro wd hwd
    obtain ⟨s0, s13, s17, s21, s25, s31⟩ := lay4 hwd
    rw [atMajor18 wd s25]; unfold decMajor18
    rw [s13]
    show leaf true (.ldgAcq (flag wd 31) (fld wd 21 4) (fld wd 17 4) (fld wd 0 13)) = _
    rw [s31, s21, s17, s0]
    exact leaf_ok rfl hwf

theorem stgB (sw : Bool) (d : BitVec 4) (a : BitVec 4) (imm : BitVec 13) : Statement (.stgB sw d a imm) := by
  intro hwf _
  refine roundtrip (l := [⟨13, imm⟩, ⟨4, 8#4⟩, ⟨4, a⟩, ⟨4, d⟩, ⟨6, 24#6⟩, ⟨1, BitVec.ofBool sw⟩]) ?_ rfl ?_
  · show encStgB sw d a imm = _
    simp only [encStgB, mixB, b2n_eq, BitVec.toNat_ofNat, Nat.reducePow, Nat.reduceMod]; omega
  · intro wd hwd
    obtain ⟨s0, s13, s17, s21, s25, s31⟩ := lay4 hwd
    rw [atMajor18 wd s25]; unfold decMajor18
    rw [s13]
    show leaf true (.stgB (flag wd 31) (fld wd 21 4) (fld wd 17 4) (fld wd 0 13)) = _
    rw [s31, s21, s17, s0]
    exact leaf_ok rfl hwf

theorem stgH (sw : Bool) (d : BitVec 4) (a : BitVec 4) (imm : BitVec 13) : Statement (.stgH sw d a imm) := by
  intro hwf _
  refine roundtrip (l := [⟨13, imm⟩, ⟨4, 9#4⟩, ⟨4, a⟩, ⟨4, d⟩, ⟨6, 24#6⟩, ⟨1, BitVec.ofBool sw⟩]) ?_ rfl ?_
  · show encStgH sw d a imm = _
    simp only [encStgH, mixB, b2n_eq, BitVec.toNat_ofNat, Nat.reducePow, Nat.reduceMod]; omega
  · intro wd hwd
    obtain ⟨s0, s13, s17, s21, s25, s31⟩ := lay4 hwd
    rw [atMajor18 wd s25]; unfold decMajor18
    rw [s13]
    show leaf true (.stgH (flag wd 31) (fld wd 21 4) (fld wd 17 4) (fld wd 0 13)) = _
    rw [s31, s21, s17, s0]
    exact leaf_ok rfl hwf

theorem stgW (sw : Bool) (d : BitVec 4) (a : BitVec 4) (imm : BitVec 13) : Statement (.stgW sw d a imm) := by
  intro hwf _
  refine roundtrip (l := [⟨13, imm⟩, ⟨4, 10#4⟩, ⟨4, a⟩, ⟨4, d⟩, ⟨6, 24#6⟩, ⟨1, BitVec.ofBool sw⟩]) ?_ rfl ?_
  · show encStgW sw d a imm = _
    simp only [encStgW, mixB, b2n_eq, BitVec.toNat_ofNat, Nat.reducePow, Nat.reduceMod]; omega
  · intro wd hwd
    obtain ⟨s0, s13, s17, s21, s25, s31⟩ := lay4 hwd
    rw [atMajor18 wd s25]; unfold decMajor18
    rw [s13]
    show leaf true (.stgW (flag wd 31) (fld wd 21 4) (fld wd 17 4) (fld wd 0 13)) = _
    rw [s31, s21, s17, s0]
    exact leaf_ok rfl hwf

theorem stgD (sw : Bool) (d : BitVec 4) (a : BitVec 4) (imm : BitVec 13) : Statement (.stgD sw d a imm) := by
  intro hwf _
  refine roundtrip (l := [⟨13, imm⟩, ⟨4, 11#4⟩, ⟨4, a⟩, ⟨4, d⟩, ⟨6, 24#6⟩, ⟨1, BitVec.ofBool sw⟩]) ?_ rfl ?_
  · show encStgD sw d a imm = _
    simp only [encStgD, mixB, b2n_eq, BitVec.toNat_ofNat, Nat.reducePow, Nat.reduceMod]; omega
  · intro wd hwd
    obtain ⟨s0, s13, s17, s21, s25, s31⟩ := lay4 hwd
    rw [atMajor18 wd s25]; unfold decMajor18
    rw [s13]
    show leaf true (.stgD (flag wd 31) (fld wd 21 4) (fld wd 17 4) (fld wd 0 13)) = _
    rw [s31, s21, s17, s0]
    exact leaf_ok rfl hwf

theorem stgRel (sw : Bool) (d : BitVec 4) (a : BitVec 4) (imm : BitVec 13) : Statement (.stgRel sw d a imm) := by
  intro hwf _
  refine roundtrip (l := [⟨13, imm⟩, ⟨4, 12#4⟩, ⟨4, a⟩, ⟨4, d⟩, ⟨6, 24#6⟩, ⟨1, BitVec.ofBool sw⟩]) ?_ rfl ?_
  · show encStgRel sw d a imm = _
    simp only [encStgRel, mixB, b2n_eq, BitVec.toNat_ofNat, Nat.reducePow, Nat.reduceMod]; omega
  · intro wd hwd
    obtain ⟨s0, s13, s17, s21, s25, s31⟩ := lay4 hwd
    rw [atMajor18 wd s25]; unfold decMajor18
    rw [s13]
    show leaf true (.stgRel (flag wd 31) (fld wd 21 4) (fld wd 17 4) (fld wd 0 13)) = _
    rw [s31, s21, s17, s0]
    exact leaf_ok rfl hwf

theorem ldgAcqW (sw : Bool) (d : BitVec 4) (a : BitVec 4) (imm : BitVec 13) : Statement (.ldgAcqW sw d a imm) := by
  intro hwf _
  refine roundtrip (l := [⟨13, imm⟩, ⟨4, 13#4⟩, ⟨4, a⟩, ⟨4, d⟩, ⟨6, 24#6⟩, ⟨1, BitVec.ofBool sw⟩]) ?_ rfl ?_
  · show encLdgAcqW sw d a imm = _
    simp only [encLdgAcqW, mixB, b2n_eq, BitVec.toNat_ofNat, Nat.reducePow, Nat.reduceMod]; omega
  · intro wd hwd
    obtain ⟨s0, s13, s17, s21, s25, s31⟩ := lay4 hwd
    rw [atMajor18 wd s25]; unfold decMajor18
    rw [s13]
    show leaf true (.ldgAcqW (flag wd 31) (fld wd 21 4) (fld wd 17 4) (fld wd 0 13)) = _
    rw [s31, s21, s17, s0]
    exact leaf_ok rfl hwf

theorem stgRelW (sw : Bool) (d : BitVec 4) (a : BitVec 4) (imm : BitVec 13) : Statement (.stgRelW sw d a imm) := by
  intro hwf _
  refine roundtrip (l := [⟨13, imm⟩, ⟨4, 14#4⟩, ⟨4, a⟩, ⟨4, d⟩, ⟨6, 24#6⟩, ⟨1, BitVec.ofBool sw⟩]) ?_ rfl ?_
  · show encStgRelW sw d a imm = _
    simp only [encStgRelW, mixB, b2n_eq, BitVec.toNat_ofNat, Nat.reducePow, Nat.reduceMod]; omega
  · intro wd hwd
    obtain ⟨s0, s13, s17, s21, s25, s31⟩ := lay4 hwd
    rw [atMajor18 wd s25]; unfold decMajor18
    rw [s13]
    show leaf true (.stgRelW (flag wd 31) (fld wd 21 4) (fld wd 17 4) (fld wd 0 13)) = _
    rw [s31, s21, s17, s0]
    exact leaf_ok rfl hwf

theorem pref (sw : Bool) (a : BitVec 4) (imm : BitVec 13) : Statement (.pref sw a imm) := by
  intro hwf _
  refine roundtrip (l := [⟨13, imm⟩, ⟨4, 15#4⟩, ⟨4, a⟩, ⟨4, 0#4⟩, ⟨6, 24#6⟩, ⟨1, BitVec.ofBool sw⟩]) ?_ rfl ?_
  · show encPref sw a imm = _
    simp only [encPref, mixB, b2n_eq, BitVec.toNat_ofNat, Nat.reducePow, Nat.reduceMod]; omega
  · intro wd hwd
    obtain ⟨s0, s13, s17, s21, s25, s31⟩ := lay29 hwd
    rw [atMajor18 wd s25]; unfold decMajor18
    rw [s13]
    show leaf (seg wd 21 4 == 0) (.pref (flag wd 31) (fld wd 17 4) (fld wd 0 13)) = _
    rw [s21, s31, s17, s0]
    exact leaf_ok rfl hwf

theorem ldlB (sw : Bool) (d : BitVec 4) (a : BitVec 4) (imm : BitVec 13) : Statement (.ldlB sw d a imm) := by
  intro hwf _
  refine roundtrip (l := [⟨13, imm⟩, ⟨4, 0#4⟩, ⟨4, a⟩, ⟨4, d⟩, ⟨6, 25#6⟩, ⟨1, BitVec.ofBool sw⟩]) ?_ rfl ?_
  · show encLdlB sw d a imm = _
    simp only [encLdlB, mixB, b2n_eq, BitVec.toNat_ofNat, Nat.reducePow, Nat.reduceMod]; omega
  · intro wd hwd
    obtain ⟨s0, s13, s17, s21, s25, s31⟩ := lay4 hwd
    rw [atMajor19 wd s25]; unfold decMajor19
    rw [s13]
    show leaf true (.ldlB (flag wd 31) (fld wd 21 4) (fld wd 17 4) (fld wd 0 13)) = _
    rw [s31, s21, s17, s0]
    exact leaf_ok rfl hwf

theorem ldlBu (sw : Bool) (d : BitVec 4) (a : BitVec 4) (imm : BitVec 13) : Statement (.ldlBu sw d a imm) := by
  intro hwf _
  refine roundtrip (l := [⟨13, imm⟩, ⟨4, 1#4⟩, ⟨4, a⟩, ⟨4, d⟩, ⟨6, 25#6⟩, ⟨1, BitVec.ofBool sw⟩]) ?_ rfl ?_
  · show encLdlBu sw d a imm = _
    simp only [encLdlBu, mixB, b2n_eq, BitVec.toNat_ofNat, Nat.reducePow, Nat.reduceMod]; omega
  · intro wd hwd
    obtain ⟨s0, s13, s17, s21, s25, s31⟩ := lay4 hwd
    rw [atMajor19 wd s25]; unfold decMajor19
    rw [s13]
    show leaf true (.ldlBu (flag wd 31) (fld wd 21 4) (fld wd 17 4) (fld wd 0 13)) = _
    rw [s31, s21, s17, s0]
    exact leaf_ok rfl hwf

theorem ldlH (sw : Bool) (d : BitVec 4) (a : BitVec 4) (imm : BitVec 13) : Statement (.ldlH sw d a imm) := by
  intro hwf _
  refine roundtrip (l := [⟨13, imm⟩, ⟨4, 2#4⟩, ⟨4, a⟩, ⟨4, d⟩, ⟨6, 25#6⟩, ⟨1, BitVec.ofBool sw⟩]) ?_ rfl ?_
  · show encLdlH sw d a imm = _
    simp only [encLdlH, mixB, b2n_eq, BitVec.toNat_ofNat, Nat.reducePow, Nat.reduceMod]; omega
  · intro wd hwd
    obtain ⟨s0, s13, s17, s21, s25, s31⟩ := lay4 hwd
    rw [atMajor19 wd s25]; unfold decMajor19
    rw [s13]
    show leaf true (.ldlH (flag wd 31) (fld wd 21 4) (fld wd 17 4) (fld wd 0 13)) = _
    rw [s31, s21, s17, s0]
    exact leaf_ok rfl hwf

theorem ldlHu (sw : Bool) (d : BitVec 4) (a : BitVec 4) (imm : BitVec 13) : Statement (.ldlHu sw d a imm) := by
  intro hwf _
  refine roundtrip (l := [⟨13, imm⟩, ⟨4, 3#4⟩, ⟨4, a⟩, ⟨4, d⟩, ⟨6, 25#6⟩, ⟨1, BitVec.ofBool sw⟩]) ?_ rfl ?_
  · show encLdlHu sw d a imm = _
    simp only [encLdlHu, mixB, b2n_eq, BitVec.toNat_ofNat, Nat.reducePow, Nat.reduceMod]; omega
  · intro wd hwd
    obtain ⟨s0, s13, s17, s21, s25, s31⟩ := lay4 hwd
    rw [atMajor19 wd s25]; unfold decMajor19
    rw [s13]
    show leaf true (.ldlHu (flag wd 31) (fld wd 21 4) (fld wd 17 4) (fld wd 0 13)) = _
    rw [s31, s21, s17, s0]
    exact leaf_ok rfl hwf

theorem ldlW (sw : Bool) (d : BitVec 4) (a : BitVec 4) (imm : BitVec 13) : Statement (.ldlW sw d a imm) := by
  intro hwf _
  refine roundtrip (l := [⟨13, imm⟩, ⟨4, 4#4⟩, ⟨4, a⟩, ⟨4, d⟩, ⟨6, 25#6⟩, ⟨1, BitVec.ofBool sw⟩]) ?_ rfl ?_
  · show encLdlW sw d a imm = _
    simp only [encLdlW, mixB, b2n_eq, BitVec.toNat_ofNat, Nat.reducePow, Nat.reduceMod]; omega
  · intro wd hwd
    obtain ⟨s0, s13, s17, s21, s25, s31⟩ := lay4 hwd
    rw [atMajor19 wd s25]; unfold decMajor19
    rw [s13]
    show leaf true (.ldlW (flag wd 31) (fld wd 21 4) (fld wd 17 4) (fld wd 0 13)) = _
    rw [s31, s21, s17, s0]
    exact leaf_ok rfl hwf

theorem ldlWu (sw : Bool) (d : BitVec 4) (a : BitVec 4) (imm : BitVec 13) : Statement (.ldlWu sw d a imm) := by
  intro hwf _
  refine roundtrip (l := [⟨13, imm⟩, ⟨4, 5#4⟩, ⟨4, a⟩, ⟨4, d⟩, ⟨6, 25#6⟩, ⟨1, BitVec.ofBool sw⟩]) ?_ rfl ?_
  · show encLdlWu sw d a imm = _
    simp only [encLdlWu, mixB, b2n_eq, BitVec.toNat_ofNat, Nat.reducePow, Nat.reduceMod]; omega
  · intro wd hwd
    obtain ⟨s0, s13, s17, s21, s25, s31⟩ := lay4 hwd
    rw [atMajor19 wd s25]; unfold decMajor19
    rw [s13]
    show leaf true (.ldlWu (flag wd 31) (fld wd 21 4) (fld wd 17 4) (fld wd 0 13)) = _
    rw [s31, s21, s17, s0]
    exact leaf_ok rfl hwf

theorem ldlD (sw : Bool) (d : BitVec 4) (a : BitVec 4) (imm : BitVec 13) : Statement (.ldlD sw d a imm) := by
  intro hwf _
  refine roundtrip (l := [⟨13, imm⟩, ⟨4, 6#4⟩, ⟨4, a⟩, ⟨4, d⟩, ⟨6, 25#6⟩, ⟨1, BitVec.ofBool sw⟩]) ?_ rfl ?_
  · show encLdlD sw d a imm = _
    simp only [encLdlD, mixB, b2n_eq, BitVec.toNat_ofNat, Nat.reducePow, Nat.reduceMod]; omega
  · intro wd hwd
    obtain ⟨s0, s13, s17, s21, s25, s31⟩ := lay4 hwd
    rw [atMajor19 wd s25]; unfold decMajor19
    rw [s13]
    show leaf true (.ldlD (flag wd 31) (fld wd 21 4) (fld wd 17 4) (fld wd 0 13)) = _
    rw [s31, s21, s17, s0]
    exact leaf_ok rfl hwf

theorem stlB (sw : Bool) (d : BitVec 4) (a : BitVec 4) (imm : BitVec 13) : Statement (.stlB sw d a imm) := by
  intro hwf _
  refine roundtrip (l := [⟨13, imm⟩, ⟨4, 8#4⟩, ⟨4, a⟩, ⟨4, d⟩, ⟨6, 25#6⟩, ⟨1, BitVec.ofBool sw⟩]) ?_ rfl ?_
  · show encStlB sw d a imm = _
    simp only [encStlB, mixB, b2n_eq, BitVec.toNat_ofNat, Nat.reducePow, Nat.reduceMod]; omega
  · intro wd hwd
    obtain ⟨s0, s13, s17, s21, s25, s31⟩ := lay4 hwd
    rw [atMajor19 wd s25]; unfold decMajor19
    rw [s13]
    show leaf true (.stlB (flag wd 31) (fld wd 21 4) (fld wd 17 4) (fld wd 0 13)) = _
    rw [s31, s21, s17, s0]
    exact leaf_ok rfl hwf

theorem stlH (sw : Bool) (d : BitVec 4) (a : BitVec 4) (imm : BitVec 13) : Statement (.stlH sw d a imm) := by
  intro hwf _
  refine roundtrip (l := [⟨13, imm⟩, ⟨4, 9#4⟩, ⟨4, a⟩, ⟨4, d⟩, ⟨6, 25#6⟩, ⟨1, BitVec.ofBool sw⟩]) ?_ rfl ?_
  · show encStlH sw d a imm = _
    simp only [encStlH, mixB, b2n_eq, BitVec.toNat_ofNat, Nat.reducePow, Nat.reduceMod]; omega
  · intro wd hwd
    obtain ⟨s0, s13, s17, s21, s25, s31⟩ := lay4 hwd
    rw [atMajor19 wd s25]; unfold decMajor19
    rw [s13]
    show leaf true (.stlH (flag wd 31) (fld wd 21 4) (fld wd 17 4) (fld wd 0 13)) = _
    rw [s31, s21, s17, s0]
    exact leaf_ok rfl hwf

theorem stlW (sw : Bool) (d : BitVec 4) (a : BitVec 4) (imm : BitVec 13) : Statement (.stlW sw d a imm) := by
  intro hwf _
  refine roundtrip (l := [⟨13, imm⟩, ⟨4, 10#4⟩, ⟨4, a⟩, ⟨4, d⟩, ⟨6, 25#6⟩, ⟨1, BitVec.ofBool sw⟩]) ?_ rfl ?_
  · show encStlW sw d a imm = _
    simp only [encStlW, mixB, b2n_eq, BitVec.toNat_ofNat, Nat.reducePow, Nat.reduceMod]; omega
  · intro wd hwd
    obtain ⟨s0, s13, s17, s21, s25, s31⟩ := lay4 hwd
    rw [atMajor19 wd s25]; unfold decMajor19
    rw [s13]
    show leaf true (.stlW (flag wd 31) (fld wd 21 4) (fld wd 17 4) (fld wd 0 13)) = _
    rw [s31, s21, s17, s0]
    exact leaf_ok rfl hwf

theorem stlD (sw : Bool) (d : BitVec 4) (a : BitVec 4) (imm : BitVec 13) : Statement (.stlD sw d a imm) := by
  intro hwf _
  refine roundtrip (l := [⟨13, imm⟩, ⟨4, 11#4⟩, ⟨4, a⟩, ⟨4, d⟩, ⟨6, 25#6⟩, ⟨1, BitVec.ofBool sw⟩]) ?_ rfl ?_
  · show encStlD sw d a imm = _
    simp only [encStlD, mixB, b2n_eq, BitVec.toNat_ofNat, Nat.reducePow, Nat.reduceMod]; omega
  · intro wd hwd
    obtain ⟨s0, s13, s17, s21, s25, s31⟩ := lay4 hwd
    rw [atMajor19 wd s25]; unfold decMajor19
    rw [s13]
    show leaf true (.stlD (flag wd 31) (fld wd 21 4) (fld wd 17 4) (fld wd 0 13)) = _
    rw [s31, s21, s17, s0]
    exact leaf_ok rfl hwf

theorem vldg (sw : Bool) (v : BitVec 5) (g : BitVec 4) (m : BitVec 3) (o : BitVec 8) : Statement (.vldg sw v g m o) := by
  intro hwf _
  refine roundtrip (l := [⟨8, o⟩, ⟨5, 0#5⟩, ⟨3, m⟩, ⟨4, g⟩, ⟨5, v⟩, ⟨6, 26#6⟩, ⟨1, BitVec.ofBool sw⟩]) ?_ rfl ?_
  · show encVldg sw v g m o = _
    simp only [encVldg, mixB, b2n_eq, BitVec.toNat_ofNat, Nat.reducePow, Nat.reduceMod]; omega
  · intro wd hwd
    obtain ⟨s0, s8, s13, s16, s20, s25, s31⟩ := lay32 hwd
    rw [atMajor1A wd s25]; unfold decMajor1A
    rw [s8]
    show leaf true (.vldg (flag wd 31) (fld wd 20 5) (fld wd 16 4) (fld wd 13 3) (fld wd 0 8)) = _
    rw [s31, s20, s16, s13, s0]
    exact leaf_ok rfl hwf

theorem vstg (sw : Bool) (v : BitVec 5) (g : BitVec 4) (m : BitVec 3) (o : BitVec 8) : Statement (.vstg sw v g m o) := by
  intro hwf _
  refine roundtrip (l := [⟨8, o⟩, ⟨5, 1#5⟩, ⟨3, m⟩, ⟨4, g⟩, ⟨5, v⟩, ⟨6, 26#6⟩, ⟨1, BitVec.ofBool sw⟩]) ?_ rfl ?_
  · show encVstg sw v g m o = _
    simp only [encVstg, mixB, b2n_eq, BitVec.toNat_ofNat, Nat.reducePow, Nat.reduceMod]; omega
  · intro wd hwd
    obtain ⟨s0, s8, s13, s16, s20, s25, s31⟩ := lay32 hwd
    rw [atMajor1A wd s25]; unfold decMajor1A
    rw [s8]
    show leaf true (.vstg (flag wd 31) (fld wd 20 5) (fld wd 16 4) (fld wd 13 3) (fld wd 0 8)) = _
    rw [s31, s20, s16, s13, s0]
    exact leaf_ok rfl hwf

theorem vldl (sw : Bool) (v : BitVec 5) (g : BitVec 4) (m : BitVec 3) (o : BitVec 8) : Statement (.vldl sw v g m o) := by
  intro hwf _
  refine roundtrip (l := [⟨8, o⟩, ⟨5, 2#5⟩, ⟨3, m⟩, ⟨4, g⟩, ⟨5, v⟩, ⟨6, 26#6⟩, ⟨1, BitVec.ofBool sw⟩]) ?_ rfl ?_
  · show encVldl sw v g m o = _
    simp only [encVldl, mixB, b2n_eq, BitVec.toNat_ofNat, Nat.reducePow, Nat.reduceMod]; omega
  · intro wd hwd
    obtain ⟨s0, s8, s13, s16, s20, s25, s31⟩ := lay32 hwd
    rw [atMajor1A wd s25]; unfold decMajor1A
    rw [s8]
    show leaf true (.vldl (flag wd 31) (fld wd 20 5) (fld wd 16 4) (fld wd 13 3) (fld wd 0 8)) = _
    rw [s31, s20, s16, s13, s0]
    exact leaf_ok rfl hwf

theorem vstl (sw : Bool) (v : BitVec 5) (g : BitVec 4) (m : BitVec 3) (o : BitVec 8) : Statement (.vstl sw v g m o) := by
  intro hwf _
  refine roundtrip (l := [⟨8, o⟩, ⟨5, 3#5⟩, ⟨3, m⟩, ⟨4, g⟩, ⟨5, v⟩, ⟨6, 26#6⟩, ⟨1, BitVec.ofBool sw⟩]) ?_ rfl ?_
  · show encVstl sw v g m o = _
    simp only [encVstl, mixB, b2n_eq, BitVec.toNat_ofNat, Nat.reducePow, Nat.reduceMod]; omega
  · intro wd hwd
    obtain ⟨s0, s8, s13, s16, s20, s25, s31⟩ := lay32 hwd
    rw [atMajor1A wd s25]; unfold decMajor1A
    rw [s8]
    show leaf true (.vstl (flag wd 31) (fld wd 20 5) (fld wd 16 4) (fld wd 13 3) (fld wd 0 8)) = _
    rw [s31, s20, s16, s13, s0]
    exact leaf_ok rfl hwf

theorem vldls (sw : Bool) (v : BitVec 5) (a : BitVec 4) (g : BitVec 4) (m : BitVec 3) : Statement (.vldls sw v a g m) := by
  intro hwf _
  refine roundtrip (l := [⟨8, 0#8⟩, ⟨3, m⟩, ⟨4, g⟩, ⟨4, a⟩, ⟨1, 0#1⟩, ⟨5, v⟩, ⟨6, 27#6⟩, ⟨1, BitVec.ofBool sw⟩]) ?_ rfl ?_
  · show encVldls sw v a g m = _
    simp only [encVldls, mixB, b2n_eq, BitVec.toNat_ofNat, Nat.reducePow, Nat.reduceMod]; omega
  · intro wd hwd
    obtain ⟨s0, s8, s11, s15, s19, s20, s25, s31⟩ := lay33 hwd
    rw [atMajor1B wd s25]; unfold decMajor1B
    rw [s0]
    show leaf (seg wd 19 1 == 0) (.vldls (flag wd 31) (fld wd 20 5) (fld wd 15 4) (fld wd 11 4) (fld wd 8 3)) = _
    rw [s19, s31, s20, s15, s11, s8]
    exact leaf_ok rfl hwf

theorem vstls (sw : Bool) (v : BitVec 5) (a : BitVec 4) (g : BitVec 4) (m : BitVec 3) : Statement (.vstls sw v a g m) := by
  intro hwf _
  refine roundtrip (l := [⟨8, 1#8⟩, ⟨3, m⟩, ⟨4, g⟩, ⟨4, a⟩, ⟨1, 0#1⟩, ⟨5, v⟩, ⟨6, 27#6⟩, ⟨1, BitVec.ofBool sw⟩]) ?_ rfl ?_
  · show encVstls sw v a g m = _
    simp only [encVstls, mixB, b2n_eq, BitVec.toNat_ofNat, Nat.reducePow, Nat.reduceMod]; omega
  · intro wd hwd
    obtain ⟨s0, s8, s11, s15, s19, s20, s25, s31⟩ := lay33 hwd
    rw [atMajor1B wd s25]; unfold decMajor1B
    rw [s0]
    show leaf (seg wd 19 1 == 0) (.vstls (flag wd 31) (fld wd 20 5) (fld wd 15 4) (fld wd 11 4) (fld wd 8 3)) = _
    rw [s19, s31, s20, s15, s11, s8]
    exact leaf_ok rfl hwf

theorem tldgF32 (sw : Bool) (v : BitVec 5) (g : BitVec 4) : Statement (.tldgF32 sw v g) := by
  intro hwf _
  refine roundtrip (l := [⟨8, 2#8⟩, ⟨3, 0#3⟩, ⟨4, g⟩, ⟨5, 0#5⟩, ⟨5, v⟩, ⟨6, 27#6⟩, ⟨1, BitVec.ofBool sw⟩]) ?_ rfl ?_
  · show encTldgF32 sw v g = _
    simp only [encTldgF32, mixB, b2n_eq, BitVec.toNat_ofNat, Nat.reducePow, Nat.reduceMod]; omega
  · intro wd hwd
    obtain ⟨s0, s8, s11, s15, s20, s25, s31⟩ := lay34 hwd
    rw [atMajor1B wd s25]; unfold decMajor1B
    rw [s0]
    show leaf (seg wd 15 5 == 0 && seg wd 8 3 == 0) (.tldgF32 (flag wd 31) (fld wd 20 5) (fld wd 11 4)) = _
    rw [s15, s8, s31, s20, s11]
    exact leaf_ok rfl hwf

theorem tldgBf16 (sw : Bool) (v : BitVec 5) (g : BitVec 4) : Statement (.tldgBf16 sw v g) := by
  intro hwf _
  refine roundtrip (l := [⟨8, 3#8⟩, ⟨3, 0#3⟩, ⟨4, g⟩, ⟨5, 0#5⟩, ⟨5, v⟩, ⟨6, 27#6⟩, ⟨1, BitVec.ofBool sw⟩]) ?_ rfl ?_
  · show encTldgBf16 sw v g = _
    simp only [encTldgBf16, mixB, b2n_eq, BitVec.toNat_ofNat, Nat.reducePow, Nat.reduceMod]; omega
  · intro wd hwd
    obtain ⟨s0, s8, s11, s15, s20, s25, s31⟩ := lay34 hwd
    rw [atMajor1B wd s25]; unfold decMajor1B
    rw [s0]
    show leaf (seg wd 15 5 == 0 && seg wd 8 3 == 0) (.tldgBf16 (flag wd 31) (fld wd 20 5) (fld wd 11 4)) = _
    rw [s15, s8, s31, s20, s11]
    exact leaf_ok rfl hwf

theorem tstgF32 (sw : Bool) (v : BitVec 5) (g : BitVec 4) : Statement (.tstgF32 sw v g) := by
  intro hwf _
  refine roundtrip (l := [⟨8, 4#8⟩, ⟨3, 0#3⟩, ⟨4, g⟩, ⟨5, 0#5⟩, ⟨5, v⟩, ⟨6, 27#6⟩, ⟨1, BitVec.ofBool sw⟩]) ?_ rfl ?_
  · show encTstgF32 sw v g = _
    simp only [encTstgF32, mixB, b2n_eq, BitVec.toNat_ofNat, Nat.reducePow, Nat.reduceMod]; omega
  · intro wd hwd
    obtain ⟨s0, s8, s11, s15, s20, s25, s31⟩ := lay34 hwd
    rw [atMajor1B wd s25]; unfold decMajor1B
    rw [s0]
    show leaf (seg wd 15 5 == 0 && seg wd 8 3 == 0) (.tstgF32 (flag wd 31) (fld wd 20 5) (fld wd 11 4)) = _
    rw [s15, s8, s31, s20, s11]
    exact leaf_ok rfl hwf

theorem tstgBf16 (sw : Bool) (v : BitVec 5) (g : BitVec 4) : Statement (.tstgBf16 sw v g) := by
  intro hwf _
  refine roundtrip (l := [⟨8, 5#8⟩, ⟨3, 0#3⟩, ⟨4, g⟩, ⟨5, 0#5⟩, ⟨5, v⟩, ⟨6, 27#6⟩, ⟨1, BitVec.ofBool sw⟩]) ?_ rfl ?_
  · show encTstgBf16 sw v g = _
    simp only [encTstgBf16, mixB, b2n_eq, BitVec.toNat_ofNat, Nat.reducePow, Nat.reduceMod]; omega
  · intro wd hwd
    obtain ⟨s0, s8, s11, s15, s20, s25, s31⟩ := lay34 hwd
    rw [atMajor1B wd s25]; unfold decMajor1B
    rw [s0]
    show leaf (seg wd 15 5 == 0 && seg wd 8 3 == 0) (.tstgBf16 (flag wd 31) (fld wd 20 5) (fld wd 11 4)) = _
    rw [s15, s8, s31, s20, s11]
    exact leaf_ok rfl hwf

theorem bmovG2l (d : BitVec 4) (a : BitVec 4) (b : BitVec 4) : Statement (.bmovG2l d a b) := by
  intro hwf _
  refine roundtrip (l := [⟨5, 0#5⟩, ⟨8, 0#8⟩, ⟨4, b⟩, ⟨4, a⟩, ⟨4, d⟩, ⟨6, 28#6⟩, ⟨1, 1#1⟩]) ?_ rfl ?_
  · show encBmovG2l d a b = _
    simp only [encBmovG2l, mixB, BitVec.toNat_ofNat, Nat.reducePow, Nat.reduceMod]; omega
  · intro wd hwd
    obtain ⟨s0, s5, s13, s17, s21, s25, s31⟩ := lay35 hwd
    rw [atMajor1C wd s25]; unfold decMajor1C
    rw [s5]
    show leaf (seg wd 31 1 == 1 && seg wd 0 5 == 0) (.bmovG2l (fld wd 21 4) (fld wd 17 4) (fld wd 13 4)) = _
    rw [s31, s0, s21, s17, s13]
    exact leaf_ok rfl hwf

theorem bmovL2g (d : BitVec 4) (a : BitVec 4) (b : BitVec 4) : Statement (.bmovL2g d a b) := by
  intro hwf _
  refine roundtrip (l := [⟨5, 0#5⟩, ⟨8, 1#8⟩, ⟨4, b⟩, ⟨4, a⟩, ⟨4, d⟩, ⟨6, 28#6⟩, ⟨1, 1#1⟩]) ?_ rfl ?_
  · show encBmovL2g d a b = _
    simp only [encBmovL2g, mixB, BitVec.toNat_ofNat, Nat.reducePow, Nat.reduceMod]; omega
  · intro wd hwd
    obtain ⟨s0, s5, s13, s17, s21, s25, s31⟩ := lay35 hwd
    rw [atMajor1C wd s25]; unfold decMajor1C
    rw [s5]
    show leaf (seg wd 31 1 == 1 && seg wd 0 5 == 0) (.bmovL2g (fld wd 21 4) (fld wd 17 4) (fld wd 13 4)) = _
    rw [s31, s0, s21, s17, s13]
    exact leaf_ok rfl hwf

theorem bfillG (d : BitVec 4) (a : BitVec 4) (b : BitVec 4) : Statement (.bfillG d a b) := by
  intro hwf _
  refine roundtrip (l := [⟨5, 0#5⟩, ⟨8, 2#8⟩, ⟨4, b⟩, ⟨4, a⟩, ⟨4, d⟩, ⟨6, 28#6⟩, ⟨1, 1#1⟩]) ?_ rfl ?_
  · show encBfillG d a b = _
    simp only [encBfillG, mixB, BitVec.toNat_ofNat, Nat.reducePow, Nat.reduceMod]; omega
  · intro wd hwd
    obtain ⟨s0, s5, s13, s17, s21, s25, s31⟩ := lay35 hwd
    rw [atMajor1C wd s25]; unfold decMajor1C
    rw [s5]
    show leaf (seg wd 31 1 == 1 && seg wd 0 5 == 0) (.bfillG (fld wd 21 4) (fld wd 17 4) (fld wd 13 4)) = _
    rw [s31, s0, s21, s17, s13]
    exact leaf_ok rfl hwf

theorem bfillL (d : BitVec 4) (a : BitVec 4) (b : BitVec 4) : Statement (.bfillL d a b) := by
  intro hwf _
  refine roundtrip (l := [⟨5, 0#5⟩, ⟨8, 3#8⟩, ⟨4, b⟩, ⟨4, a⟩, ⟨4, d⟩, ⟨6, 28#6⟩, ⟨1, 1#1⟩]) ?_ rfl ?_
  · show encBfillL d a b = _
    simp only [encBfillL, mixB, BitVec.toNat_ofNat, Nat.reducePow, Nat.reduceMod]; omega
  · intro wd hwd
    obtain ⟨s0, s5, s13, s17, s21, s25, s31⟩ := lay35 hwd
    rw [atMajor1C wd s25]; unfold decMajor1C
    rw [s5]
    show leaf (seg wd 31 1 == 1 && seg wd 0 5 == 0) (.bfillL (fld wd 21 4) (fld wd 17 4) (fld wd 13 4)) = _
    rw [s31, s0, s21, s17, s13]
    exact leaf_ok rfl hwf

theorem amogAdd (sw : Bool) (d : BitVec 4) (a : BitVec 4) (b : BitVec 4) (z : BitVec 1) : Statement (.amogAdd sw d a b z) := by
  intro hwf _
  refine roundtrip (l := [⟨5, 0#5⟩, ⟨4, 0#4⟩, ⟨1, z⟩, ⟨3, 0#3⟩, ⟨4, b⟩, ⟨4, a⟩, ⟨4, d⟩, ⟨6, 29#6⟩, ⟨1, BitVec.ofBool sw⟩]) ?_ rfl ?_
  · show encAmogAdd sw d a b z = _
    simp only [encAmogAdd, mixB, b2n_eq, BitVec.toNat_ofNat, Nat.reducePow, Nat.reduceMod]; omega
  · intro wd hwd
    obtain ⟨s0, s5, s9, s10, s13, s17, s21, s25, s31⟩ := lay36 hwd
    rw [atMajor1D wd s25]; unfold decMajor1D
    rw [s10]
    rw [s5]
    show leaf (seg wd 0 5 == 0) (.amogAdd (flag wd 31) (fld wd 21 4) (fld wd 17 4) (fld wd 13 4) (fld wd 9 1)) = _
    rw [s0, s31, s21, s17, s13, s9]
    exact leaf_ok rfl hwf

theorem amogAnd (sw : Bool) (d : BitVec 4) (a : BitVec 4) (b : BitVec 4) (z : BitVec 1) : Statement (.amogAnd sw d a b z) := by
  intro hwf _
  refine roundtrip (l := [⟨5, 0#5⟩, ⟨4, 1#4⟩, ⟨1, z⟩, ⟨3, 0#3⟩, ⟨4, b⟩, ⟨4, a⟩, ⟨4, d⟩, ⟨6, 29#6⟩, ⟨1, BitVec.ofBool sw⟩]) ?_ rfl ?_
  · show encAmogAnd sw d a b z = _
    simp only [encAmogAnd, mixB, b2n_eq, BitVec.toNat_ofNat, Nat.reducePow, Nat.reduceMod]; omega
  · intro wd hwd
    obtain ⟨s0, s5, s9, s10, s13, s17, s21, s25, s31⟩ := lay36 hwd
    rw [atMajor1D wd s25]; unfold decMajor1D
    rw [s10]
    rw [s5]
    show leaf (seg wd 0 5 == 0) (.amogAnd (flag wd 31) (fld wd 21 4) (fld wd 17 4) (fld wd 13 4) (fld wd 9 1)) = _
    rw [s0, s31, s21, s17, s13, s9]
    exact leaf_ok rfl hwf

theorem amogOr (sw : Bool) (d : BitVec 4) (a : BitVec 4) (b : BitVec 4) (z : BitVec 1) : Statement (.amogOr sw d a b z) := by
  intro hwf _
  refine roundtrip (l := [⟨5, 0#5⟩, ⟨4, 2#4⟩, ⟨1, z⟩, ⟨3, 0#3⟩, ⟨4, b⟩, ⟨4, a⟩, ⟨4, d⟩, ⟨6, 29#6⟩, ⟨1, BitVec.ofBool sw⟩]) ?_ rfl ?_
  · show encAmogOr sw d a b z = _
    simp only [encAmogOr, mixB, b2n_eq, BitVec.toNat_ofNat, Nat.reducePow, Nat.reduceMod]; omega
  · intro wd hwd
    obtain ⟨s0, s5, s9, s10, s13, s17, s21, s25, s31⟩ := lay36 hwd
    rw [atMajor1D wd s25]; unfold decMajor1D
    rw [s10]
    rw [s5]
    show leaf (seg wd 0 5 == 0) (.amogOr (flag wd 31) (fld wd 21 4) (fld wd 17 4) (fld wd 13 4) (fld wd 9 1)) = _
    rw [s0, s31, s21, s17, s13, s9]
    exact leaf_ok rfl hwf

theorem amogXor (sw : Bool) (d : BitVec 4) (a : BitVec 4) (b : BitVec 4) (z : BitVec 1) : Statement (.amogXor sw d a b z) := by
  intro hwf _
  refine roundtrip (l := [⟨5, 0#5⟩, ⟨4, 3#4⟩, ⟨1, z⟩, ⟨3, 0#3⟩, ⟨4, b⟩, ⟨4, a⟩, ⟨4, d⟩, ⟨6, 29#6⟩, ⟨1, BitVec.ofBool sw⟩]) ?_ rfl ?_
  · show encAmogXor sw d a b z = _
    simp only [encAmogXor, mixB, b2n_eq, BitVec.toNat_ofNat, Nat.reducePow, Nat.reduceMod]; omega
  · intro wd hwd
    obtain ⟨s0, s5, s9, s10, s13, s17, s21, s25, s31⟩ := lay36 hwd
    rw [atMajor1D wd s25]; unfold decMajor1D
    rw [s10]
    rw [s5]
    show leaf (seg wd 0 5 == 0) (.amogXor (flag wd 31) (fld wd 21 4) (fld wd 17 4) (fld wd 13 4) (fld wd 9 1)) = _
    rw [s0, s31, s21, s17, s13, s9]
    exact leaf_ok rfl hwf

theorem amogMin (sw : Bool) (d : BitVec 4) (a : BitVec 4) (b : BitVec 4) (z : BitVec 1) : Statement (.amogMin sw d a b z) := by
  intro hwf _
  refine roundtrip (l := [⟨5, 0#5⟩, ⟨4, 4#4⟩, ⟨1, z⟩, ⟨3, 0#3⟩, ⟨4, b⟩, ⟨4, a⟩, ⟨4, d⟩, ⟨6, 29#6⟩, ⟨1, BitVec.ofBool sw⟩]) ?_ rfl ?_
  · show encAmogMin sw d a b z = _
    simp only [encAmogMin, mixB, b2n_eq, BitVec.toNat_ofNat, Nat.reducePow, Nat.reduceMod]; omega
  · intro wd hwd
    obtain ⟨s0, s5, s9, s10, s13, s17, s21, s25, s31⟩ := lay36 hwd
    rw [atMajor1D wd s25]; unfold decMajor1D
    rw [s10]
    rw [s5]
    show leaf (seg wd 0 5 == 0) (.amogMin (flag wd 31) (fld wd 21 4) (fld wd 17 4) (fld wd 13 4) (fld wd 9 1)) = _
    rw [s0, s31, s21, s17, s13, s9]
    exact leaf_ok rfl hwf

theorem amogMax (sw : Bool) (d : BitVec 4) (a : BitVec 4) (b : BitVec 4) (z : BitVec 1) : Statement (.amogMax sw d a b z) := by
  intro hwf _
  refine roundtrip (l := [⟨5, 0#5⟩, ⟨4, 5#4⟩, ⟨1, z⟩, ⟨3, 0#3⟩, ⟨4, b⟩, ⟨4, a⟩, ⟨4, d⟩, ⟨6, 29#6⟩, ⟨1, BitVec.ofBool sw⟩]) ?_ rfl ?_
  · show encAmogMax sw d a b z = _
    simp only [encAmogMax, mixB, b2n_eq, BitVec.toNat_ofNat, Nat.reducePow, Nat.reduceMod]; omega
  · intro wd hwd
    obtain ⟨s0, s5, s9, s10, s13, s17, s21, s25, s31⟩ := lay36 hwd
    rw [atMajor1D wd s25]; unfold decMajor1D
    rw [s10]
    rw [s5]
    show leaf (seg wd 0 5 == 0) (.amogMax (flag wd 31) (fld wd 21 4) (fld wd 17 4) (fld wd 13 4) (fld wd 9 1)) = _
    rw [s0, s31, s21, s17, s13, s9]
    exact leaf_ok rfl hwf

theorem amogMinu (sw : Bool) (d : BitVec 4) (a : BitVec 4) (b : BitVec 4) (z : BitVec 1) : Statement (.amogMinu sw d a b z) := by
  intro hwf _
  refine roundtrip (l := [⟨5, 0#5⟩, ⟨4, 6#4⟩, ⟨1, z⟩, ⟨3, 0#3⟩, ⟨4, b⟩, ⟨4, a⟩, ⟨4, d⟩, ⟨6, 29#6⟩, ⟨1, BitVec.ofBool sw⟩]) ?_ rfl ?_
  · show encAmogMinu sw d a b z = _
    simp only [encAmogMinu, mixB, b2n_eq, BitVec.toNat_ofNat, Nat.reducePow, Nat.reduceMod]; omega
  · intro wd hwd
    obtain ⟨s0, s5, s9, s10, s13, s17, s21, s25, s31⟩ := lay36 hwd
    rw [atMajor1D wd s25]; unfold decMajor1D
    rw [s10]
    rw [s5]
    show leaf (seg wd 0 5 == 0) (.amogMinu (flag wd 31) (fld wd 21 4) (fld wd 17 4) (fld wd 13 4) (fld wd 9 1)) = _
    rw [s0, s31, s21, s17, s13, s9]
    exact leaf_ok rfl hwf

theorem amogMaxu (sw : Bool) (d : BitVec 4) (a : BitVec 4) (b : BitVec 4) (z : BitVec 1) : Statement (.amogMaxu sw d a b z) := by
  intro hwf _
  refine roundtrip (l := [⟨5, 0#5⟩, ⟨4, 7#4⟩, ⟨1, z⟩, ⟨3, 0#3⟩, ⟨4, b⟩, ⟨4, a⟩, ⟨4, d⟩, ⟨6, 29#6⟩, ⟨1, BitVec.ofBool sw⟩]) ?_ rfl ?_
  · show encAmogMaxu sw d a b z = _
    simp only [encAmogMaxu, mixB, b2n_eq, BitVec.toNat_ofNat, Nat.reducePow, Nat.reduceMod]; omega
  · intro wd hwd
    obtain ⟨s0, s5, s9, s10, s13, s17, s21, s25, s31⟩ := lay36 hwd
    rw [atMajor1D wd s25]; unfold decMajor1D
    rw [s10]
    rw [s5]
    show leaf (seg wd 0 5 == 0) (.amogMaxu (flag wd 31) (fld wd 21 4) (fld wd 17 4) (fld wd 13 4) (fld wd 9 1)) = _
    rw [s0, s31, s21, s17, s13, s9]
    exact leaf_ok rfl hwf

theorem amogSwap (sw : Bool) (d : BitVec 4) (a : BitVec 4) (b : BitVec 4) (z : BitVec 1) : Statement (.amogSwap sw d a b z) := by
  intro hwf _
  refine roundtrip (l := [⟨5, 0#5⟩, ⟨4, 8#4⟩, ⟨1, z⟩, ⟨3, 0#3⟩, ⟨4, b⟩, ⟨4, a⟩, ⟨4, d⟩, ⟨6, 29#6⟩, ⟨1, BitVec.ofBool sw⟩]) ?_ rfl ?_
  · show encAmogSwap sw d a b z = _
    simp only [encAmogSwap, mixB, b2n_eq, BitVec.toNat_ofNat, Nat.reducePow, Nat.reduceMod]; omega
  · intro wd hwd
    obtain ⟨s0, s5, s9, s10, s13, s17, s21, s25, s31⟩ := lay36 hwd
    rw [atMajor1D wd s25]; unfold decMajor1D
    rw [s10]
    rw [s5]
    show leaf (seg wd 0 5 == 0) (.amogSwap (flag wd 31) (fld wd 21 4) (fld wd 17 4) (fld wd 13 4) (fld wd 9 1)) = _
    rw [s0, s31, s21, s17, s13, s9]
    exact leaf_ok rfl hwf

theorem amogFadd (sw : Bool) (d : BitVec 4) (a : BitVec 4) (b : BitVec 4) : Statement (.amogFadd sw d a b) := by
  intro hwf _
  refine roundtrip (l := [⟨5, 0#5⟩, ⟨4, 9#4⟩, ⟨1, 0#1⟩, ⟨3, 0#3⟩, ⟨4, b⟩, ⟨4, a⟩, ⟨4, d⟩, ⟨6, 29#6⟩, ⟨1, BitVec.ofBool sw⟩]) ?_ rfl ?_
  · show encAmogFadd sw d a b = _
    simp only [encAmogFadd, mixB, b2n_eq, BitVec.toNat_ofNat, Nat.reducePow, Nat.reduceMod]; omega
  · intro wd hwd
    obtain ⟨s0, s5, s9, s10, s13, s17, s21, s25, s31⟩ := lay37 hwd
    rw [atMajor1D wd s25]; unfold decMajor1D
    rw [s10]
    rw [s5]
    show leaf (seg wd 9 1 == 0 && seg wd 0 5 == 0) (.amogFadd (flag wd 31) (fld wd 21 4) (fld wd 17 4) (fld wd 13 4)) = _
    rw [s9, s0, s31, s21, s17, s13]
    exact leaf_ok rfl hwf

theorem amolAdd (sw : Bool) (d : BitVec 4) (a : BitVec 4) (b : BitVec 4) (z : BitVec 1) : Statement (.amolAdd sw d a b z) := by
  intro hwf _
  refine roundtrip (l := [⟨5, 0#5⟩, ⟨4, 0#4⟩, ⟨1, z⟩, ⟨3, 2#3⟩, ⟨4, b⟩, ⟨4, a⟩, ⟨4, d⟩, ⟨6, 29#6⟩, ⟨1, BitVec.ofBool sw⟩]) ?_ rfl ?_
  · show encAmolAdd sw d a b z = _
    simp only [encAmolAdd, mixB, b2n_eq, BitVec.toNat_ofNat, Nat.reducePow, Nat.reduceMod]; omega
  · intro wd hwd
    obtain ⟨s0, s5, s9, s10, s13, s17, s21, s25, s31⟩ := lay36 hwd
    rw [atMajor1D wd s25]; unfold decMajor1D
    rw [s10]
    rw [s5]
    show leaf (seg wd 0 5 == 0) (.amolAdd (flag wd 31) (fld wd 21 4) (fld wd 17 4) (fld wd 13 4) (fld wd 9 1)) = _
    rw [s0, s31, s21, s17, s13, s9]
    exact leaf_ok rfl hwf

theorem amolAnd (sw : Bool) (d : BitVec 4) (a : BitVec 4) (b : BitVec 4) (z : BitVec 1) : Statement (.amolAnd sw d a b z) := by
  intro hwf _
  refine roundtrip (l := [⟨5, 0#5⟩, ⟨4, 1#4⟩, ⟨1, z⟩, ⟨3, 2#3⟩, ⟨4, b⟩, ⟨4, a⟩, ⟨4, d⟩, ⟨6, 29#6⟩, ⟨1, BitVec.ofBool sw⟩]) ?_ rfl ?_
  · show encAmolAnd sw d a b z = _
    simp only [encAmolAnd, mixB, b2n_eq, BitVec.toNat_ofNat, Nat.reducePow, Nat.reduceMod]; omega
  · intro wd hwd
    obtain ⟨s0, s5, s9, s10, s13, s17, s21, s25, s31⟩ := lay36 hwd
    rw [atMajor1D wd s25]; unfold decMajor1D
    rw [s10]
    rw [s5]
    show leaf (seg wd 0 5 == 0) (.amolAnd (flag wd 31) (fld wd 21 4) (fld wd 17 4) (fld wd 13 4) (fld wd 9 1)) = _
    rw [s0, s31, s21, s17, s13, s9]
    exact leaf_ok rfl hwf

theorem amolOr (sw : Bool) (d : BitVec 4) (a : BitVec 4) (b : BitVec 4) (z : BitVec 1) : Statement (.amolOr sw d a b z) := by
  intro hwf _
  refine roundtrip (l := [⟨5, 0#5⟩, ⟨4, 2#4⟩, ⟨1, z⟩, ⟨3, 2#3⟩, ⟨4, b⟩, ⟨4, a⟩, ⟨4, d⟩, ⟨6, 29#6⟩, ⟨1, BitVec.ofBool sw⟩]) ?_ rfl ?_
  · show encAmolOr sw d a b z = _
    simp only [encAmolOr, mixB, b2n_eq, BitVec.toNat_ofNat, Nat.reducePow, Nat.reduceMod]; omega
  · intro wd hwd
    obtain ⟨s0, s5, s9, s10, s13, s17, s21, s25, s31⟩ := lay36 hwd
    rw [atMajor1D wd s25]; unfold decMajor1D
    rw [s10]
    rw [s5]
    show leaf (seg wd 0 5 == 0) (.amolOr (flag wd 31) (fld wd 21 4) (fld wd 17 4) (fld wd 13 4) (fld wd 9 1)) = _
    rw [s0, s31, s21, s17, s13, s9]
    exact leaf_ok rfl hwf

theorem amolXor (sw : Bool) (d : BitVec 4) (a : BitVec 4) (b : BitVec 4) (z : BitVec 1) : Statement (.amolXor sw d a b z) := by
  intro hwf _
  refine roundtrip (l := [⟨5, 0#5⟩, ⟨4, 3#4⟩, ⟨1, z⟩, ⟨3, 2#3⟩, ⟨4, b⟩, ⟨4, a⟩, ⟨4, d⟩, ⟨6, 29#6⟩, ⟨1, BitVec.ofBool sw⟩]) ?_ rfl ?_
  · show encAmolXor sw d a b z = _
    simp only [encAmolXor, mixB, b2n_eq, BitVec.toNat_ofNat, Nat.reducePow, Nat.reduceMod]; omega
  · intro wd hwd
    obtain ⟨s0, s5, s9, s10, s13, s17, s21, s25, s31⟩ := lay36 hwd
    rw [atMajor1D wd s25]; unfold decMajor1D
    rw [s10]
    rw [s5]
    show leaf (seg wd 0 5 == 0) (.amolXor (flag wd 31) (fld wd 21 4) (fld wd 17 4) (fld wd 13 4) (fld wd 9 1)) = _
    rw [s0, s31, s21, s17, s13, s9]
    exact leaf_ok rfl hwf

theorem amolMin (sw : Bool) (d : BitVec 4) (a : BitVec 4) (b : BitVec 4) (z : BitVec 1) : Statement (.amolMin sw d a b z) := by
  intro hwf _
  refine roundtrip (l := [⟨5, 0#5⟩, ⟨4, 4#4⟩, ⟨1, z⟩, ⟨3, 2#3⟩, ⟨4, b⟩, ⟨4, a⟩, ⟨4, d⟩, ⟨6, 29#6⟩, ⟨1, BitVec.ofBool sw⟩]) ?_ rfl ?_
  · show encAmolMin sw d a b z = _
    simp only [encAmolMin, mixB, b2n_eq, BitVec.toNat_ofNat, Nat.reducePow, Nat.reduceMod]; omega
  · intro wd hwd
    obtain ⟨s0, s5, s9, s10, s13, s17, s21, s25, s31⟩ := lay36 hwd
    rw [atMajor1D wd s25]; unfold decMajor1D
    rw [s10]
    rw [s5]
    show leaf (seg wd 0 5 == 0) (.amolMin (flag wd 31) (fld wd 21 4) (fld wd 17 4) (fld wd 13 4) (fld wd 9 1)) = _
    rw [s0, s31, s21, s17, s13, s9]
    exact leaf_ok rfl hwf

theorem amolMax (sw : Bool) (d : BitVec 4) (a : BitVec 4) (b : BitVec 4) (z : BitVec 1) : Statement (.amolMax sw d a b z) := by
  intro hwf _
  refine roundtrip (l := [⟨5, 0#5⟩, ⟨4, 5#4⟩, ⟨1, z⟩, ⟨3, 2#3⟩, ⟨4, b⟩, ⟨4, a⟩, ⟨4, d⟩, ⟨6, 29#6⟩, ⟨1, BitVec.ofBool sw⟩]) ?_ rfl ?_
  · show encAmolMax sw d a b z = _
    simp only [encAmolMax, mixB, b2n_eq, BitVec.toNat_ofNat, Nat.reducePow, Nat.reduceMod]; omega
  · intro wd hwd
    obtain ⟨s0, s5, s9, s10, s13, s17, s21, s25, s31⟩ := lay36 hwd
    rw [atMajor1D wd s25]; unfold decMajor1D
    rw [s10]
    rw [s5]
    show leaf (seg wd 0 5 == 0) (.amolMax (flag wd 31) (fld wd 21 4) (fld wd 17 4) (fld wd 13 4) (fld wd 9 1)) = _
    rw [s0, s31, s21, s17, s13, s9]
    exact leaf_ok rfl hwf

theorem amolMinu (sw : Bool) (d : BitVec 4) (a : BitVec 4) (b : BitVec 4) (z : BitVec 1) : Statement (.amolMinu sw d a b z) := by
  intro hwf _
  refine roundtrip (l := [⟨5, 0#5⟩, ⟨4, 6#4⟩, ⟨1, z⟩, ⟨3, 2#3⟩, ⟨4, b⟩, ⟨4, a⟩, ⟨4, d⟩, ⟨6, 29#6⟩, ⟨1, BitVec.ofBool sw⟩]) ?_ rfl ?_
  · show encAmolMinu sw d a b z = _
    simp only [encAmolMinu, mixB, b2n_eq, BitVec.toNat_ofNat, Nat.reducePow, Nat.reduceMod]; omega
  · intro wd hwd
    obtain ⟨s0, s5, s9, s10, s13, s17, s21, s25, s31⟩ := lay36 hwd
    rw [atMajor1D wd s25]; unfold decMajor1D
    rw [s10]
    rw [s5]
    show leaf (seg wd 0 5 == 0) (.amolMinu (flag wd 31) (fld wd 21 4) (fld wd 17 4) (fld wd 13 4) (fld wd 9 1)) = _
    rw [s0, s31, s21, s17, s13, s9]
    exact leaf_ok rfl hwf

theorem amolMaxu (sw : Bool) (d : BitVec 4) (a : BitVec 4) (b : BitVec 4) (z : BitVec 1) : Statement (.amolMaxu sw d a b z) := by
  intro hwf _
  refine roundtrip (l := [⟨5, 0#5⟩, ⟨4, 7#4⟩, ⟨1, z⟩, ⟨3, 2#3⟩, ⟨4, b⟩, ⟨4, a⟩, ⟨4, d⟩, ⟨6, 29#6⟩, ⟨1, BitVec.ofBool sw⟩]) ?_ rfl ?_
  · show encAmolMaxu sw d a b z = _
    simp only [encAmolMaxu, mixB, b2n_eq, BitVec.toNat_ofNat, Nat.reducePow, Nat.reduceMod]; omega
  · intro wd hwd
    obtain ⟨s0, s5, s9, s10, s13, s17, s21, s25, s31⟩ := lay36 hwd
    rw [atMajor1D wd s25]; unfold decMajor1D
    rw [s10]
    rw [s5]
    show leaf (seg wd 0 5 == 0) (.amolMaxu (flag wd 31) (fld wd 21 4) (fld wd 17 4) (fld wd 13 4) (fld wd 9 1)) = _
    rw [s0, s31, s21, s17, s13, s9]
    exact leaf_ok rfl hwf

theorem amolSwap (sw : Bool) (d : BitVec 4) (a : BitVec 4) (b : BitVec 4) (z : BitVec 1) : Statement (.amolSwap sw d a b z) := by
  intro hwf _
  refine roundtrip (l := [⟨5, 0#5⟩, ⟨4, 8#4⟩, ⟨1, z⟩, ⟨3, 2#3⟩, ⟨4, b⟩, ⟨4, a⟩, ⟨4, d⟩, ⟨6, 29#6⟩, ⟨1, BitVec.ofBool sw⟩]) ?_ rfl ?_
  · show encAmolSwap sw d a b z = _
    simp only [encAmolSwap, mixB, b2n_eq, BitVec.toNat_ofNat, Nat.reducePow, Nat.reduceMod]; omega
  · intro wd hwd
    obtain ⟨s0, s5, s9, s10, s13, s17, s21, s25, s31⟩ := lay36 hwd
    rw [atMajor1D wd s25]; unfold decMajor1D
    rw [s10]
    rw [s5]
    show leaf (seg wd 0 5 == 0) (.amolSwap (flag wd 31) (fld wd 21 4) (fld wd 17 4) (fld wd 13 4) (fld wd 9 1)) = _
    rw [s0, s31, s21, s17, s13, s9]
    exact leaf_ok rfl hwf

theorem amolFadd (sw : Bool) (d : BitVec 4) (a : BitVec 4) (b : BitVec 4) : Statement (.amolFadd sw d a b) := by
  intro hwf _
  refine roundtrip (l := [⟨5, 0#5⟩, ⟨4, 9#4⟩, ⟨1, 0#1⟩, ⟨3, 2#3⟩, ⟨4, b⟩, ⟨4, a⟩, ⟨4, d⟩, ⟨6, 29#6⟩, ⟨1, BitVec.ofBool sw⟩]) ?_ rfl ?_
  · show encAmolFadd sw d a b = _
    simp only [encAmolFadd, mixB, b2n_eq, BitVec.toNat_ofNat, Nat.reducePow, Nat.reduceMod]; omega
  · intro wd hwd
    obtain ⟨s0, s5, s9, s10, s13, s17, s21, s25, s31⟩ := lay37 hwd
    rw [atMajor1D wd s25]; unfold decMajor1D
    rw [s10]
    rw [s5]
    show leaf (seg wd 9 1 == 0 && seg wd 0 5 == 0) (.amolFadd (flag wd 31) (fld wd 21 4) (fld wd 17 4) (fld wd 13 4)) = _
    rw [s9, s0, s31, s21, s17, s13]
    exact leaf_ok rfl hwf

theorem casg (sw : Bool) (d : BitVec 4) (a : BitVec 4) (b : BitVec 4) (z : BitVec 1) : Statement (.casg sw d a b z) := by
  intro hwf _
  refine roundtrip (l := [⟨9, 0#9⟩, ⟨1, z⟩, ⟨3, 4#3⟩, ⟨4, b⟩, ⟨4, a⟩, ⟨4, d⟩, ⟨6, 29#6⟩, ⟨1, BitVec.ofBool sw⟩]) ?_ rfl ?_
  · show encCasg sw d a b z = _
    simp only [encCasg, mixB, b2n_eq, BitVec.toNat_ofNat, Nat.reducePow, Nat.reduceMod]; omega
  · intro wd hwd
    obtain ⟨s0, s9, s10, s13, s17, s21, s25, s31⟩ := lay38 hwd
    rw [atMajor1D wd s25]; unfold decMajor1D
    rw [s10]
    show leaf (seg wd 0 9 == 0) (.casg (flag wd 31) (fld wd 21 4) (fld wd 17 4) (fld wd 13 4) (fld wd 9 1)) = _
    rw [s0, s31, s21, s17, s13, s9]
    exact leaf_ok rfl hwf

theorem casl (sw : Bool) (d : BitVec 4) (a : BitVec 4) (b : BitVec 4) (z : BitVec 1) : Statement (.casl sw d a b z) := by
  intro hwf _
  refine roundtrip (l := [⟨9, 0#9⟩, ⟨1, z⟩, ⟨3, 5#3⟩, ⟨4, b⟩, ⟨4, a⟩, ⟨4, d⟩, ⟨6, 29#6⟩, ⟨1, BitVec.ofBool sw⟩]) ?_ rfl ?_
  · show encCasl sw d a b z = _
    simp only [encCasl, mixB, b2n_eq, BitVec.toNat_ofNat, Nat.reducePow, Nat.reduceMod]; omega
  · intro wd hwd
    obtain ⟨s0, s9, s10, s13, s17, s21, s25, s31⟩ := lay38 hwd
    rw [atMajor1D wd s25]; unfold decMajor1D
    rw [s10]
    show leaf (seg wd 0 9 == 0) (.casl (flag wd 31) (fld wd 21 4) (fld wd 17 4) (fld wd 13 4) (fld wd 9 1)) = _
    rw [s0, s31, s21, s17, s13, s9]
    exact leaf_ok rfl hwf

theorem waitwG (sw : Bool) (d : BitVec 4) (a : BitVec 4) (b : BitVec 4) (c : BitVec 2) : Statement (.waitwG sw d a b c) := by
  intro hwf _
  refine roundtrip (l := [⟨5, 0#5⟩, ⟨2, c⟩, ⟨3, 0#3⟩, ⟨3, 6#3⟩, ⟨4, b⟩, ⟨4, a⟩, ⟨4, d⟩, ⟨6, 29#6⟩, ⟨1, BitVec.ofBool sw⟩]) ?_ rfl ?_
  · show encWaitwG sw d a b c = _
    simp only [encWaitwG, mixB, b2n_eq, BitVec.toNat_ofNat, Nat.reducePow, Nat.reduceMod]; omega
  · intro wd hwd
    obtain ⟨s0, s5, s7, s10, s13, s17, s21, s25, s31⟩ := lay39 hwd
    rw [atMajor1D wd s25]; unfold decMajor1D
    rw [s10]
    show leaf (seg wd 7 3 == 0 && seg wd 0 5 == 0) (.waitwG (flag wd 31) (fld wd 21 4) (fld wd 17 4) (fld wd 13 4) (fld wd 5 2)) = _
    rw [s7, s0, s31, s21, s17, s13, s5]
    exact leaf_ok rfl hwf

theorem waitwL (sw : Bool) (d : BitVec 4) (a : BitVec 4) (b : BitVec 4) (c : BitVec 2) : Statement (.waitwL sw d a b c) := by
  intro hwf _
  refine roundtrip (l := [⟨5, 0#5⟩, ⟨2, c⟩, ⟨3, 0#3⟩, ⟨3, 7#3⟩, ⟨4, b⟩, ⟨4, a⟩, ⟨4, d⟩, ⟨6, 29#6⟩, ⟨1, BitVec.ofBool sw⟩]) ?_ rfl ?_
  · show encWaitwL sw d a b c = _
    simp only [encWaitwL, mixB, b2n_eq, BitVec.toNat_ofNat, Nat.reducePow, Nat.reduceMod]; omega
  · intro wd hwd
    obtain ⟨s0, s5, s7, s10, s13, s17, s21, s25, s31⟩ := lay39 hwd
    rw [atMajor1D wd s25]; unfold decMajor1D
    rw [s10]
    show leaf (seg wd 7 3 == 0 && seg wd 0 5 == 0) (.waitwL (flag wd 31) (fld wd 21 4) (fld wd 17 4) (fld wd 13 4) (fld wd 5 2)) = _
    rw [s7, s0, s31, s21, s17, s13, s5]
    exact leaf_ok rfl hwf

theorem binit (sw : Bool) (a : BitVec 4) (b : BitVec 4) : Statement (.binit sw a b) := by
  intro hwf _
  refine roundtrip (l := [⟨5, 0#5⟩, ⟨8, 0#8⟩, ⟨4, b⟩, ⟨4, a⟩, ⟨4, 0#4⟩, ⟨6, 30#6⟩, ⟨1, BitVec.ofBool sw⟩]) ?_ rfl ?_
  · show encBinit sw a b = _
    simp only [encBinit, mixB, b2n_eq, BitVec.toNat_ofNat, Nat.reducePow, Nat.reduceMod]; omega
  · intro wd hwd
    obtain ⟨s0, s5, s13, s17, s21, s25, s31⟩ := lay26 hwd
    rw [atMajor1E wd s25]; unfold decMajor1E
    rw [s5]
    show leaf (seg wd 21 4 == 0 && seg wd 0 5 == 0) (.binit (flag wd 31) (fld wd 17 4) (fld wd 13 4)) = _
    rw [s21, s0, s31, s17, s13]
    exact leaf_ok rfl hwf

theorem bexpect (sw : Bool) (a : BitVec 4) (b : BitVec 4) : Statement (.bexpect sw a b) := by
  intro hwf _
  refine roundtrip (l := [⟨5, 0#5⟩, ⟨8, 1#8⟩, ⟨4, b⟩, ⟨4, a⟩, ⟨4, 0#4⟩, ⟨6, 30#6⟩, ⟨1, BitVec.ofBool sw⟩]) ?_ rfl ?_
  · show encBexpect sw a b = _
    simp only [encBexpect, mixB, b2n_eq, BitVec.toNat_ofNat, Nat.reducePow, Nat.reduceMod]; omega
  · intro wd hwd
    obtain ⟨s0, s5, s13, s17, s21, s25, s31⟩ := lay26 hwd
    rw [atMajor1E wd s25]; unfold decMajor1E
    rw [s5]
    show leaf (seg wd 21 4 == 0 && seg wd 0 5 == 0) (.bexpect (flag wd 31) (fld wd 17 4) (fld wd 13 4)) = _
    rw [s21, s0, s31, s17, s13]
    exact leaf_ok rfl hwf

theorem barrive (sw : Bool) (a : BitVec 4) : Statement (.barrive sw a) := by
  intro hwf _
  refine roundtrip (l := [⟨5, 0#5⟩, ⟨8, 2#8⟩, ⟨4, 0#4⟩, ⟨4, a⟩, ⟨4, 0#4⟩, ⟨6, 30#6⟩, ⟨1, BitVec.ofBool sw⟩]) ?_ rfl ?_
  · show encBarrive sw a = _
    simp only [encBarrive, mixB, b2n_eq, BitVec.toNat_ofNat, Nat.reducePow, Nat.reduceMod]; omega
  · intro wd hwd
    obtain ⟨s0, s5, s13, s17, s21, s25, s31⟩ := lay12 hwd
    rw [atMajor1E wd s25]; unfold decMajor1E
    rw [s5]
    show leaf (seg wd 21 4 == 0 && seg wd 13 4 == 0 && seg wd 0 5 == 0) (.barrive (flag wd 31) (fld wd 17 4)) = _
    rw [s21, s13, s0, s31, s17]
    exact leaf_ok rfl hwf

theorem bwait (sw : Bool) (a : BitVec 4) (b : BitVec 4) : Statement (.bwait sw a b) := by
  intro hwf _
  refine roundtrip (l := [⟨5, 0#5⟩, ⟨8, 3#8⟩, ⟨4, b⟩, ⟨4, a⟩, ⟨4, 0#4⟩, ⟨6, 30#6⟩, ⟨1, BitVec.ofBool sw⟩]) ?_ rfl ?_
  · show encBwait sw a b = _
    simp only [encBwait, mixB, b2n_eq, BitVec.toNat_ofNat, Nat.reducePow, Nat.reduceMod]; omega
  · intro wd hwd
    obtain ⟨s0, s5, s13, s17, s21, s25, s31⟩ := lay26 hwd
    rw [atMajor1E wd s25]; unfold decMajor1E
    rw [s5]
    show leaf (seg wd 21 4 == 0 && seg wd 0 5 == 0) (.bwait (flag wd 31) (fld wd 17 4) (fld wd 13 4)) = _
    rw [s21, s0, s31, s17, s13]
    exact leaf_ok rfl hwf

theorem btest (sw : Bool) (d : BitVec 4) (a : BitVec 4) : Statement (.btest sw d a) := by
  intro hwf _
  refine roundtrip (l := [⟨5, 0#5⟩, ⟨8, 4#8⟩, ⟨4, 0#4⟩, ⟨4, a⟩, ⟨4, d⟩, ⟨6, 30#6⟩, ⟨1, BitVec.ofBool sw⟩]) ?_ rfl ?_
  · show encBtest sw d a = _
    simp only [encBtest, mixB, b2n_eq, BitVec.toNat_ofNat, Nat.reducePow, Nat.reduceMod]; omega
  · intro wd hwd
    obtain ⟨s0, s5, s13, s17, s21, s25, s31⟩ := lay2 hwd
    rw [atMajor1E wd s25]; unfold decMajor1E
    rw [s5]
    show leaf (seg wd 13 4 == 0 && seg wd 0 5 == 0) (.btest (flag wd 31) (fld wd 21 4) (fld wd 17 4)) = _
    rw [s13, s0, s31, s21, s17]
    exact leaf_ok rfl hwf

theorem fence (sw : Bool) (p : FenceOp) (u : Unit) : Statement (.fence sw p u) := by
  intro hwf _
  refine roundtrip (l := [⟨4, p.kinds⟩, ⟨1, 0#1⟩, ⟨2, p.scope⟩, ⟨6, 0#6⟩, ⟨12, 0#12⟩, ⟨6, 31#6⟩, ⟨1, BitVec.ofBool sw⟩]) ?_ rfl ?_
  · show encFence sw p.scope p.kinds = _
    simp only [encFence, mixB, b2n_eq, BitVec.toNat_ofNat, Nat.reducePow, Nat.reduceMod]; omega
  · intro wd hwd
    obtain ⟨s0, s4, s5, s7, s13, s25, s31⟩ := lay40 hwd
    rw [atMajor1F wd s25]; unfold decMajor1F
    rw [s7]
    show leaf (seg wd 13 12 == 0 && seg wd 4 1 == 0) (.fence (flag wd 31) { scope := fld wd 5 2, kinds := fld wd 0 4 } ()) = _
    rw [s13, s4, s31, s5, s0]
    exact leaf_ok rfl hwf

theorem tlwait (sw : Bool) (a : BitVec 4) (imm : BitVec 2) : Statement (.tlwait sw a imm) := by
  intro hwf _
  refine roundtrip (l := [⟨2, imm⟩, ⟨3, 0#3⟩, ⟨2, 0#2⟩, ⟨6, 1#6⟩, ⟨4, 0#4⟩, ⟨4, a⟩, ⟨4, 0#4⟩, ⟨6, 31#6⟩, ⟨1, BitVec.ofBool sw⟩]) ?_ rfl ?_
  · show encTlwait sw a imm = _
    simp only [encTlwait, mixB, b2n_eq, BitVec.toNat_ofNat, Nat.reducePow, Nat.reduceMod]; omega
  · intro wd hwd
    obtain ⟨s0, s2, s5, s7, s13, s17, s21, s25, s31⟩ := lay41 hwd
    rw [atMajor1F wd s25]; unfold decMajor1F
    rw [s7]
    rw [s5]
    show leaf (seg wd 21 4 == 0 && seg wd 13 4 == 0 && seg wd 2 3 == 0) (.tlwait (flag wd 31) (fld wd 17 4) (fld wd 0 2)) = _
    rw [s21, s13, s2, s31, s17, s0]
    exact leaf_ok rfl hwf

theorem tlread (sw : Bool) (d : BitVec 4) (imm : BitVec 2) : Statement (.tlread sw d imm) := by
  intro hwf _
  refine roundtrip (l := [⟨2, imm⟩, ⟨3, 0#3⟩, ⟨2, 1#2⟩, ⟨6, 1#6⟩, ⟨8, 0#8⟩, ⟨4, d⟩, ⟨6, 31#6⟩, ⟨1, BitVec.ofBool sw⟩]) ?_ rfl ?_
  · show encTlread sw d imm = _
    simp only [encTlread, mixB, b2n_eq, BitVec.toNat_ofNat, Nat.reducePow, Nat.reduceMod]; omega
  · intro wd hwd
    obtain ⟨s0, s2, s5, s7, s13, s21, s25, s31⟩ := lay42 hwd
    rw [atMajor1F wd s25]; unfold decMajor1F
    rw [s7]
    rw [s5]
    show leaf (seg wd 13 8 == 0 && seg wd 2 3 == 0) (.tlread (flag wd 31) (fld wd 21 4) (fld wd 0 2)) = _
    rw [s13, s2, s31, s21, s0]
    exact leaf_ok rfl hwf

theorem vadd (sw : Bool) (v : BitVec 5) (a : BitVec 5) (b : BitVec 5) (m : BitVec 3) (t : BitVec 2) : Statement (.vadd sw v a b m t) := by
  intro hwf _
  refine roundtrip (l := [⟨5, 0#5⟩, ⟨2, t⟩, ⟨3, m⟩, ⟨5, b⟩, ⟨5, a⟩, ⟨5, v⟩, ⟨6, 32#6⟩, ⟨1, BitVec.ofBool sw⟩]) ?_ rfl ?_
  · show encVadd sw v a b m t = _
    simp only [encVadd, mixB, b2n_eq, BitVec.toNat_ofNat, Nat.reducePow, Nat.reduceMod]; omega
  · intro wd hwd
    obtain ⟨s0, s5, s7, s10, s15, s20, s25, s31⟩ := lay43 hwd
    rw [atMajor20 wd s25]; unfold decMajor20
    rw [s0]
    show leaf true (.vadd (flag wd 31) (fld wd 20 5) (fld wd 15 5) (fld wd 10 5) (fld wd 7 3) (fld wd 5 2)) = _
    rw [s31, s20, s15, s10, s7, s5]
    exact leaf_ok rfl hwf

theorem vsub (sw : Bool) (v : BitVec 5) (a : BitVec 5) (b : BitVec 5) (m : BitVec 3) (t : BitVec 2) : Statement (.vsub sw v a b m t) := by
  intro hwf _
  refine roundtrip (l := [⟨5, 1#5⟩, ⟨2, t⟩, ⟨3, m⟩, ⟨5, b⟩, ⟨5, a⟩, ⟨5, v⟩, ⟨6, 32#6⟩, ⟨1, BitVec.ofBool sw⟩]) ?_ rfl ?_
  · show encVsub sw v a b m t = _
    simp only [encVsub, mixB, b2n_eq, BitVec.toNat_ofNat, Nat.reducePow, Nat.reduceMod]; omega
  · intro wd hwd
    obtain ⟨s0, s5, s7, s10, s15, s20, s25, s31⟩ := lay43 hwd
    rw [atMajor20 wd s25]; unfold decMajor20
    rw [s0]
    show leaf true (.vsub (flag wd 31) (fld wd 20 5) (fld wd 15 5) (fld wd 10 5) (fld wd 7 3) (fld wd 5 2)) = _
    rw [s31, s20, s15, s10, s7, s5]
    exact leaf_ok rfl hwf

theorem vmul (sw : Bool) (v : BitVec 5) (a : BitVec 5) (b : BitVec 5) (m : BitVec 3) (t : BitVec 2) : Statement (.vmul sw v a b m t) := by
  intro hwf _
  refine roundtrip (l := [⟨5, 2#5⟩, ⟨2, t⟩, ⟨3, m⟩, ⟨5, b⟩, ⟨5, a⟩, ⟨5, v⟩, ⟨6, 32#6⟩, ⟨1, BitVec.ofBool sw⟩]) ?_ rfl ?_
  · show encVmul sw v a b m t = _
    simp only [encVmul, mixB, b2n_eq, BitVec.toNat_ofNat, Nat.reducePow, Nat.reduceMod]; omega
  · intro wd hwd
    obtain ⟨s0, s5, s7, s10, s15, s20, s25, s31⟩ := lay43 hwd
    rw [atMajor20 wd s25]; unfold decMajor20
    rw [s0]
    show leaf true (.vmul (flag wd 31) (fld wd 20 5) (fld wd 15 5) (fld wd 10 5) (fld wd 7 3) (fld wd 5 2)) = _
    rw [s31, s20, s15, s10, s7, s5]
    exact leaf_ok rfl hwf

theorem vdiv (sw : Bool) (v : BitVec 5) (a : BitVec 5) (b : BitVec 5) (m : BitVec 3) (t : BitVec 2) : Statement (.vdiv sw v a b m t) := by
  intro hwf _
  refine roundtrip (l := [⟨5, 3#5⟩, ⟨2, t⟩, ⟨3, m⟩, ⟨5, b⟩, ⟨5, a⟩, ⟨5, v⟩, ⟨6, 32#6⟩, ⟨1, BitVec.ofBool sw⟩]) ?_ rfl ?_
  · show encVdiv sw v a b m t = _
    simp only [encVdiv, mixB, b2n_eq, BitVec.toNat_ofNat, Nat.reducePow, Nat.reduceMod]; omega
  · intro wd hwd
    obtain ⟨s0, s5, s7, s10, s15, s20, s25, s31⟩ := lay43 hwd
    rw [atMajor20 wd s25]; unfold decMajor20
    rw [s0]
    show leaf true (.vdiv (flag wd 31) (fld wd 20 5) (fld wd 15 5) (fld wd 10 5) (fld wd 7 3) (fld wd 5 2)) = _
    rw [s31, s20, s15, s10, s7, s5]
    exact leaf_ok rfl hwf

theorem vmin (sw : Bool) (v : BitVec 5) (a : BitVec 5) (b : BitVec 5) (m : BitVec 3) (t : BitVec 2) : Statement (.vmin sw v a b m t) := by
  intro hwf _
  refine roundtrip (l := [⟨5, 4#5⟩, ⟨2, t⟩, ⟨3, m⟩, ⟨5, b⟩, ⟨5, a⟩, ⟨5, v⟩, ⟨6, 32#6⟩, ⟨1, BitVec.ofBool sw⟩]) ?_ rfl ?_
  · show encVmin sw v a b m t = _
    simp only [encVmin, mixB, b2n_eq, BitVec.toNat_ofNat, Nat.reducePow, Nat.reduceMod]; omega
  · intro wd hwd
    obtain ⟨s0, s5, s7, s10, s15, s20, s25, s31⟩ := lay43 hwd
    rw [atMajor20 wd s25]; unfold decMajor20
    rw [s0]
    show leaf true (.vmin (flag wd 31) (fld wd 20 5) (fld wd 15 5) (fld wd 10 5) (fld wd 7 3) (fld wd 5 2)) = _
    rw [s31, s20, s15, s10, s7, s5]
    exact leaf_ok rfl hwf

theorem vmax (sw : Bool) (v : BitVec 5) (a : BitVec 5) (b : BitVec 5) (m : BitVec 3) (t : BitVec 2) : Statement (.vmax sw v a b m t) := by
  intro hwf _
  refine roundtrip (l := [⟨5, 5#5⟩, ⟨2, t⟩, ⟨3, m⟩, ⟨5, b⟩, ⟨5, a⟩, ⟨5, v⟩, ⟨6, 32#6⟩, ⟨1, BitVec.ofBool sw⟩]) ?_ rfl ?_
  · show encVmax sw v a b m t = _
    simp only [encVmax, mixB, b2n_eq, BitVec.toNat_ofNat, Nat.reducePow, Nat.reduceMod]; omega
  · intro wd hwd
    obtain ⟨s0, s5, s7, s10, s15, s20, s25, s31⟩ := lay43 hwd
    rw [atMajor20 wd s25]; unfold decMajor20
    rw [s0]
    show leaf true (.vmax (flag wd 31) (fld wd 20 5) (fld wd 15 5) (fld wd 10 5) (fld wd 7 3) (fld wd 5 2)) = _
    rw [s31, s20, s15, s10, s7, s5]
    exact leaf_ok rfl hwf

theorem vfma (sw : Bool) (v : BitVec 5) (a : BitVec 5) (b : BitVec 5) (m : BitVec 3) (t : BitVec 2) : Statement (.vfma sw v a b m t) := by
  intro hwf _
  refine roundtrip (l := [⟨5, 6#5⟩, ⟨2, t⟩, ⟨3, m⟩, ⟨5, b⟩, ⟨5, a⟩, ⟨5, v⟩, ⟨6, 32#6⟩, ⟨1, BitVec.ofBool sw⟩]) ?_ rfl ?_
  · show encVfma sw v a b m t = _
    simp only [encVfma, mixB, b2n_eq, BitVec.toNat_ofNat, Nat.reducePow, Nat.reduceMod]; omega
  · intro wd hwd
    obtain ⟨s0, s5, s7, s10, s15, s20, s25, s31⟩ := lay43 hwd
    rw [atMajor20 wd s25]; unfold decMajor20
    rw [s0]
    show leaf true (.vfma (flag wd 31) (fld wd 20 5) (fld wd 15 5) (fld wd 10 5) (fld wd 7 3) (fld wd 5 2)) = _
    rw [s31, s20, s15, s10, s7, s5]
    exact leaf_ok rfl hwf

theorem vfms (sw : Bool) (v : BitVec 5) (a : BitVec 5) (b : BitVec 5) (m : BitVec 3) (t : BitVec 2) : Statement (.vfms sw v a b m t) := by
  intro hwf _
  refine roundtrip (l := [⟨5, 7#5⟩, ⟨2, t⟩, ⟨3, m⟩, ⟨5, b⟩, ⟨5, a⟩, ⟨5, v⟩, ⟨6, 32#6⟩, ⟨1, BitVec.ofBool sw⟩]) ?_ rfl ?_
  · show encVfms sw v a b m t = _
    simp only [encVfms, mixB, b2n_eq, BitVec.toNat_ofNat, Nat.reducePow, Nat.reduceMod]; omega
  · intro wd hwd
    obtain ⟨s0, s5, s7, s10, s15, s20, s25, s31⟩ := lay43 hwd
    rw [atMajor20 wd s25]; unfold decMajor20
    rw [s0]
    show leaf true (.vfms (flag wd 31) (fld wd 20 5) (fld wd 15 5) (fld wd 10 5) (fld wd 7 3) (fld wd 5 2)) = _
    rw [s31, s20, s15, s10, s7, s5]
    exact leaf_ok rfl hwf

theorem vfnma (sw : Bool) (v : BitVec 5) (a : BitVec 5) (b : BitVec 5) (m : BitVec 3) (t : BitVec 2) : Statement (.vfnma sw v a b m t) := by
  intro hwf _
  refine roundtrip (l := [⟨5, 8#5⟩, ⟨2, t⟩, ⟨3, m⟩, ⟨5, b⟩, ⟨5, a⟩, ⟨5, v⟩, ⟨6, 32#6⟩, ⟨1, BitVec.ofBool sw⟩]) ?_ rfl ?_
  · show encVfnma sw v a b m t = _
    simp only [encVfnma, mixB, b2n_eq, BitVec.toNat_ofNat, Nat.reducePow, Nat.reduceMod]; omega
  · intro wd hwd
    obtain ⟨s0, s5, s7, s10, s15, s20, s25, s31⟩ := lay43 hwd
    rw [atMajor20 wd s25]; unfold decMajor20
    rw [s0]
    show leaf true (.vfnma (flag wd 31) (fld wd 20 5) (fld wd 15 5) (fld wd 10 5) (fld wd 7 3) (fld wd 5 2)) = _
    rw [s31, s20, s15, s10, s7, s5]
    exact leaf_ok rfl hwf

theorem vabs (sw : Bool) (v : BitVec 5) (a : BitVec 5) (m : BitVec 3) (t : BitVec 2) : Statement (.vabs sw v a m t) := by
  intro hwf _
  refine roundtrip (l := [⟨5, 9#5⟩, ⟨2, t⟩, ⟨3, m⟩, ⟨5, 0#5⟩, ⟨5, a⟩, ⟨5, v⟩, ⟨6, 32#6⟩, ⟨1, BitVec.ofBool sw⟩]) ?_ rfl ?_
  · show encVabs sw v a m t = _
    simp only [encVabs, mixB, b2n_eq, BitVec.toNat_ofNat, Nat.reducePow, Nat.reduceMod]; omega
  · intro wd hwd
    obtain ⟨s0, s5, s7, s10, s15, s20, s25, s31⟩ := lay44 hwd
    rw [atMajor20 wd s25]; unfold decMajor20
    rw [s0]
    show leaf (seg wd 10 5 == 0) (.vabs (flag wd 31) (fld wd 20 5) (fld wd 15 5) (fld wd 7 3) (fld wd 5 2)) = _
    rw [s10, s31, s20, s15, s7, s5]
    exact leaf_ok rfl hwf

theorem vneg (sw : Bool) (v : BitVec 5) (a : BitVec 5) (m : BitVec 3) (t : BitVec 2) : Statement (.vneg sw v a m t) := by
  intro hwf _
  refine roundtrip (l := [⟨5, 10#5⟩, ⟨2, t⟩, ⟨3, m⟩, ⟨5, 0#5⟩, ⟨5, a⟩, ⟨5, v⟩, ⟨6, 32#6⟩, ⟨1, BitVec.ofBool sw⟩]) ?_ rfl ?_
  · show encVneg sw v a m t = _
    simp only [encVneg, mixB, b2n_eq, BitVec.toNat_ofNat, Nat.reducePow, Nat.reduceMod]; omega
  · intro wd hwd
    obtain ⟨s0, s5, s7, s10, s15, s20, s25, s31⟩ := lay44 hwd
    rw [atMajor20 wd s25]; unfold decMajor20
    rw [s0]
    show leaf (seg wd 10 5 == 0) (.vneg (flag wd 31) (fld wd 20 5) (fld wd 15 5) (fld wd 7 3) (fld wd 5 2)) = _
    rw [s10, s31, s20, s15, s7, s5]
    exact leaf_ok rfl hwf

theorem vsqrt (sw : Bool) (v : BitVec 5) (a : BitVec 5) (m : BitVec 3) (t : BitVec 2) : Statement (.vsqrt sw v a m t) := by
  intro hwf _
  refine roundtrip (l := [⟨5, 11#5⟩, ⟨2, t⟩, ⟨3, m⟩, ⟨5, 0#5⟩, ⟨5, a⟩, ⟨5, v⟩, ⟨6, 32#6⟩, ⟨1, BitVec.ofBool sw⟩]) ?_ rfl ?_
  · show encVsqrt sw v a m t = _
    simp only [encVsqrt, mixB, b2n_eq, BitVec.toNat_ofNat, Nat.reducePow, Nat.reduceMod]; omega
  · intro wd hwd
    obtain ⟨s0, s5, s7, s10, s15, s20, s25, s31⟩ := lay44 hwd
    rw [atMajor20 wd s25]; unfold decMajor20
    rw [s0]
    show leaf (seg wd 10 5 == 0) (.vsqrt (flag wd 31) (fld wd 20 5) (fld wd 15 5) (fld wd 7 3) (fld wd 5 2)) = _
    rw [s10, s31, s20, s15, s7, s5]
    exact leaf_ok rfl hwf

theorem vexp2 (sw : Bool) (v : BitVec 5) (a : BitVec 5) (m : BitVec 3) (t : BitVec 2) : Statement (.vexp2 sw v a m t) := by
  intro hwf _
  refine roundtrip (l := [⟨5, 12#5⟩, ⟨2, t⟩, ⟨3, m⟩, ⟨5, 0#5⟩, ⟨5, a⟩, ⟨5, v⟩, ⟨6, 32#6⟩, ⟨1, BitVec.ofBool sw⟩]) ?_ rfl ?_
  · show encVexp2 sw v a m t = _
    simp only [encVexp2, mixB, b2n_eq, BitVec.toNat_ofNat, Nat.reducePow, Nat.reduceMod]; omega
  · intro wd hwd
    obtain ⟨s0, s5, s7, s10, s15, s20, s25, s31⟩ := lay44 hwd
    rw [atMajor20 wd s25]; unfold decMajor20
    rw [s0]
    show leaf (seg wd 10 5 == 0) (.vexp2 (flag wd 31) (fld wd 20 5) (fld wd 15 5) (fld wd 7 3) (fld wd 5 2)) = _
    rw [s10, s31, s20, s15, s7, s5]
    exact leaf_ok rfl hwf

theorem vlog2 (sw : Bool) (v : BitVec 5) (a : BitVec 5) (m : BitVec 3) (t : BitVec 2) : Statement (.vlog2 sw v a m t) := by
  intro hwf _
  refine roundtrip (l := [⟨5, 13#5⟩, ⟨2, t⟩, ⟨3, m⟩, ⟨5, 0#5⟩, ⟨5, a⟩, ⟨5, v⟩, ⟨6, 32#6⟩, ⟨1, BitVec.ofBool sw⟩]) ?_ rfl ?_
  · show encVlog2 sw v a m t = _
    simp only [encVlog2, mixB, b2n_eq, BitVec.toNat_ofNat, Nat.reducePow, Nat.reduceMod]; omega
  · intro wd hwd
    obtain ⟨s0, s5, s7, s10, s15, s20, s25, s31⟩ := lay44 hwd
    rw [atMajor20 wd s25]; unfold decMajor20
    rw [s0]
    show leaf (seg wd 10 5 == 0) (.vlog2 (flag wd 31) (fld wd 20 5) (fld wd 15 5) (fld wd 7 3) (fld wd 5 2)) = _
    rw [s10, s31, s20, s15, s7, s5]
    exact leaf_ok rfl hwf

theorem viadd (sw : Bool) (v : BitVec 5) (a : BitVec 5) (b : BitVec 5) (m : BitVec 3) (w : BitVec 2) : Statement (.viadd sw v a b m w) := by
  intro hwf _
  refine roundtrip (l := [⟨5, 0#5⟩, ⟨2, w⟩, ⟨3, m⟩, ⟨5, b⟩, ⟨5, a⟩, ⟨5, v⟩, ⟨6, 33#6⟩, ⟨1, BitVec.ofBool sw⟩]) ?_ rfl ?_
  · show encViadd sw v a b m w = _
    simp only [encViadd, mixB, b2n_eq, BitVec.toNat_ofNat, Nat.reducePow, Nat.reduceMod]; omega
  · intro wd hwd
    obtain ⟨s0, s5, s7, s10, s15, s20, s25, s31⟩ := lay43 hwd
    rw [atMajor21 wd s25]; unfold decMajor21
    rw [s0]
    show leaf true (.viadd (flag wd 31) (fld wd 20 5) (fld wd 15 5) (fld wd 10 5) (fld wd 7 3) (fld wd 5 2)) = _
    rw [s31, s20, s15, s10, s7, s5]
    exact leaf_ok rfl hwf

theorem visub (sw : Bool) (v : BitVec 5) (a : BitVec 5) (b : BitVec 5) (m : BitVec 3) (w : BitVec 2) : Statement (.visub sw v a b m w) := by
  intro hwf _
  refine roundtrip (l := [⟨5, 1#5⟩, ⟨2, w⟩, ⟨3, m⟩, ⟨5, b⟩, ⟨5, a⟩, ⟨5, v⟩, ⟨6, 33#6⟩, ⟨1, BitVec.ofBool sw⟩]) ?_ rfl ?_
  · show encVisub sw v a b m w = _
    simp only [encVisub, mixB, b2n_eq, BitVec.toNat_ofNat, Nat.reducePow, Nat.reduceMod]; omega
  · intro wd hwd
    obtain ⟨s0, s5, s7, s10, s15, s20, s25, s31⟩ := lay43 hwd
    rw [atMajor21 wd s25]; unfold decMajor21
    rw [s0]
    show leaf true (.visub (flag wd 31) (fld wd 20 5) (fld wd 15 5) (fld wd 10 5) (fld wd 7 3) (fld wd 5 2)) = _
    rw [s31, s20, s15, s10, s7, s5]
    exact leaf_ok rfl hwf

theorem vimul (sw : Bool) (v : BitVec 5) (a : BitVec 5) (b : BitVec 5) (m : BitVec 3) (w : BitVec 2) : Statement (.vimul sw v a b m w) := by
  intro hwf _
  refine roundtrip (l := [⟨5, 2#5⟩, ⟨2, w⟩, ⟨3, m⟩, ⟨5, b⟩, ⟨5, a⟩, ⟨5, v⟩, ⟨6, 33#6⟩, ⟨1, BitVec.ofBool sw⟩]) ?_ rfl ?_
  · show encVimul sw v a b m w = _
    simp only [encVimul, mixB, b2n_eq, BitVec.toNat_ofNat, Nat.reducePow, Nat.reduceMod]; omega
  · intro wd hwd
    obtain ⟨s0, s5, s7, s10, s15, s20, s25, s31⟩ := lay43 hwd
    rw [atMajor21 wd s25]; unfold decMajor21
    rw [s0]
    show leaf true (.vimul (flag wd 31) (fld wd 20 5) (fld wd 15 5) (fld wd 10 5) (fld wd 7 3) (fld wd 5 2)) = _
    rw [s31, s20, s15, s10, s7, s5]
    exact leaf_ok rfl hwf

theorem vimulh (sw : Bool) (v : BitVec 5) (a : BitVec 5) (b : BitVec 5) (m : BitVec 3) (w : BitVec 2) : Statement (.vimulh sw v a b m w) := by
  intro hwf _
  refine roundtrip (l := [⟨5, 3#5⟩, ⟨2, w⟩, ⟨3, m⟩, ⟨5, b⟩, ⟨5, a⟩, ⟨5, v⟩, ⟨6, 33#6⟩, ⟨1, BitVec.ofBool sw⟩]) ?_ rfl ?_
  · show encVimulh sw v a b m w = _
    simp only [encVimulh, mixB, b2n_eq, BitVec.toNat_ofNat, Nat.reducePow, Nat.reduceMod]; omega
  · intro wd hwd
    obtain ⟨s0, s5, s7, s10, s15, s20, s25, s31⟩ := lay43 hwd
    rw [atMajor21 wd s25]; unfold decMajor21
    rw [s0]
    show leaf true (.vimulh (flag wd 31) (fld wd 20 5) (fld wd 15 5) (fld wd 10 5) (fld wd 7 3) (fld wd 5 2)) = _
    rw [s31, s20, s15, s10, s7, s5]
    exact leaf_ok rfl hwf

theorem vimin (sw : Bool) (v : BitVec 5) (a : BitVec 5) (b : BitVec 5) (m : BitVec 3) (w : BitVec 2) : Statement (.vimin sw v a b m w) := by
  intro hwf _
  refine roundtrip (l := [⟨5, 4#5⟩, ⟨2, w⟩, ⟨3, m⟩, ⟨5, b⟩, ⟨5, a⟩, ⟨5, v⟩, ⟨6, 33#6⟩, ⟨1, BitVec.ofBool sw⟩]) ?_ rfl ?_
  · show encVimin sw v a b m w = _
    simp only [encVimin, mixB, b2n_eq, BitVec.toNat_ofNat, Nat.reducePow, Nat.reduceMod]; omega
  · intro wd hwd
    obtain ⟨s0, s5, s7, s10, s15, s20, s25, s31⟩ := lay43 hwd
    rw [atMajor21 wd s25]; unfold decMajor21
    rw [s0]
    show leaf true (.vimin (flag wd 31) (fld wd 20 5) (fld wd 15 5) (fld wd 10 5) (fld wd 7 3) (fld wd 5 2)) = _
    rw [s31, s20, s15, s10, s7, s5]
    exact leaf_ok rfl hwf

theorem vimax (sw : Bool) (v : BitVec 5) (a : BitVec 5) (b : BitVec 5) (m : BitVec 3) (w : BitVec 2) : Statement (.vimax sw v a b m w) := by
  intro hwf _
  refine roundtrip (l := [⟨5, 5#5⟩, ⟨2, w⟩, ⟨3, m⟩, ⟨5, b⟩, ⟨5, a⟩, ⟨5, v⟩, ⟨6, 33#6⟩, ⟨1, BitVec.ofBool sw⟩]) ?_ rfl ?_
  · show encVimax sw v a b m w = _
    simp only [encVimax, mixB, b2n_eq, BitVec.toNat_ofNat, Nat.reducePow, Nat.reduceMod]; omega
  · intro wd hwd
    obtain ⟨s0, s5, s7, s10, s15, s20, s25, s31⟩ := lay43 hwd
    rw [atMajor21 wd s25]; unfold decMajor21
    rw [s0]
    show leaf true (.vimax (flag wd 31) (fld wd 20 5) (fld wd 15 5) (fld wd 10 5) (fld wd 7 3) (fld wd 5 2)) = _
    rw [s31, s20, s15, s10, s7, s5]
    exact leaf_ok rfl hwf

theorem vand (sw : Bool) (v : BitVec 5) (a : BitVec 5) (b : BitVec 5) (m : BitVec 3) (w : BitVec 2) : Statement (.vand sw v a b m w) := by
  intro hwf _
  refine roundtrip (l := [⟨5, 6#5⟩, ⟨2, w⟩, ⟨3, m⟩, ⟨5, b⟩, ⟨5, a⟩, ⟨5, v⟩, ⟨6, 33#6⟩, ⟨1, BitVec.ofBool sw⟩]) ?_ rfl ?_
  · show encVand sw v a b m w = _
    simp only [encVand, mixB, b2n_eq, BitVec.toNat_ofNat, Nat.reducePow, Nat.reduceMod]; omega
  · intro wd hwd
    obtain ⟨s0, s5, s7, s10, s15, s20, s25, s31⟩ := lay43 hwd
    rw [atMajor21 wd s25]; unfold decMajor21
    rw [s0]
    show leaf true (.vand (flag wd 31) (fld wd 20 5) (fld wd 15 5) (fld wd 10 5) (fld wd 7 3) (fld wd 5 2)) = _
    rw [s31, s20, s15, s10, s7, s5]
    exact leaf_ok rfl hwf

theorem vor (sw : Bool) (v : BitVec 5) (a : BitVec 5) (b : BitVec 5) (m : BitVec 3) (w : BitVec 2) : Statement (.vor sw v a b m w) := by
  intro hwf _
  refine roundtrip (l := [⟨5, 7#5⟩, ⟨2, w⟩, ⟨3, m⟩, ⟨5, b⟩, ⟨5, a⟩, ⟨5, v⟩, ⟨6, 33#6⟩, ⟨1, BitVec.ofBool sw⟩]) ?_ rfl ?_
  · show encVor sw v a b m w = _
    simp only [encVor, mixB, b2n_eq, BitVec.toNat_ofNat, Nat.reducePow, Nat.reduceMod]; omega
  · intro wd hwd
    obtain ⟨s0, s5, s7, s10, s15, s20, s25, s31⟩ := lay43 hwd
    rw [atMajor21 wd s25]; unfold decMajor21
    rw [s0]
    show leaf true (.vor (flag wd 31) (fld wd 20 5) (fld wd 15 5) (fld wd 10 5) (fld wd 7 3) (fld wd 5 2)) = _
    rw [s31, s20, s15, s10, s7, s5]
    exact leaf_ok rfl hwf

theorem vxor (sw : Bool) (v : BitVec 5) (a : BitVec 5) (b : BitVec 5) (m : BitVec 3) (w : BitVec 2) : Statement (.vxor sw v a b m w) := by
  intro hwf _
  refine roundtrip (l := [⟨5, 8#5⟩, ⟨2, w⟩, ⟨3, m⟩, ⟨5, b⟩, ⟨5, a⟩, ⟨5, v⟩, ⟨6, 33#6⟩, ⟨1, BitVec.ofBool sw⟩]) ?_ rfl ?_
  · show encVxor sw v a b m w = _
    simp only [encVxor, mixB, b2n_eq, BitVec.toNat_ofNat, Nat.reducePow, Nat.reduceMod]; omega
  · intro wd hwd
    obtain ⟨s0, s5, s7, s10, s15, s20, s25, s31⟩ := lay43 hwd
    rw [atMajor21 wd s25]; unfold decMajor21
    rw [s0]
    show leaf true (.vxor (flag wd 31) (fld wd 20 5) (fld wd 15 5) (fld wd 10 5) (fld wd 7 3) (fld wd 5 2)) = _
    rw [s31, s20, s15, s10, s7, s5]
    exact leaf_ok rfl hwf

theorem vshl (sw : Bool) (v : BitVec 5) (a : BitVec 5) (b : BitVec 5) (m : BitVec 3) (w : BitVec 2) : Statement (.vshl sw v a b m w) := by
  intro hwf _
  refine roundtrip (l := [⟨5, 9#5⟩, ⟨2, w⟩, ⟨3, m⟩, ⟨5, b⟩, ⟨5, a⟩, ⟨5, v⟩, ⟨6, 33#6⟩, ⟨1, BitVec.ofBool sw⟩]) ?_ rfl ?_
  · show encVshl sw v a b m w = _
    simp only [encVshl, mixB, b2n_eq, BitVec.toNat_ofNat, Nat.reducePow, Nat.reduceMod]; omega
  · intro wd hwd
    obtain ⟨s0, s5, s7, s10, s15, s20, s25, s31⟩ := lay43 hwd
    rw [atMajor21 wd s25]; unfold decMajor21
    rw [s0]
    show leaf true (.vshl (flag wd 31) (fld wd 20 5) (fld wd 15 5) (fld wd 10 5) (fld wd 7 3) (fld wd 5 2)) = _
    rw [s31, s20, s15, s10, s7, s5]
    exact leaf_ok rfl hwf

theorem vshr (sw : Bool) (v : BitVec 5) (a : BitVec 5) (b : BitVec 5) (m : BitVec 3) (w : BitVec 2) : Statement (.vshr sw v a b m w) := by
  intro hwf _
  refine roundtrip (l := [⟨5, 10#5⟩, ⟨2, w⟩, ⟨3, m⟩, ⟨5, b⟩, ⟨5, a⟩, ⟨5, v⟩, ⟨6, 33#6⟩, ⟨1, BitVec.ofBool sw⟩]) ?_ rfl ?_
  · show encVshr sw v a b m w = _
    simp only [encVshr, mixB, b2n_eq, BitVec.toNat_ofNat, Nat.reducePow, Nat.reduceMod]; omega
  · intro wd hwd
    obtain ⟨s0, s5, s7, s10, s15, s20, s25, s31⟩ := lay43 hwd
    rw [atMajor21 wd s25]; unfold decMajor21
    rw [s0]
    show leaf true (.vshr (flag wd 31) (fld wd 20 5) (fld wd 15 5) (fld wd 10 5) (fld wd 7 3) (fld wd 5 2)) = _
    rw [s31, s20, s15, s10, s7, s5]
    exact leaf_ok rfl hwf

theorem vsar (sw : Bool) (v : BitVec 5) (a : BitVec 5) (b : BitVec 5) (m : BitVec 3) (w : BitVec 2) : Statement (.vsar sw v a b m w) := by
  intro hwf _
  refine roundtrip (l := [⟨5, 11#5⟩, ⟨2, w⟩, ⟨3, m⟩, ⟨5, b⟩, ⟨5, a⟩, ⟨5, v⟩, ⟨6, 33#6⟩, ⟨1, BitVec.ofBool sw⟩]) ?_ rfl ?_
  · show encVsar sw v a b m w = _
    simp only [encVsar, mixB, b2n_eq, BitVec.toNat_ofNat, Nat.reducePow, Nat.reduceMod]; omega
  · intro wd hwd
    obtain ⟨s0, s5, s7, s10, s15, s20, s25, s31⟩ := lay43 hwd
    rw [atMajor21 wd s25]; unfold decMajor21
    rw [s0]
    show leaf true (.vsar (flag wd 31) (fld wd 20 5) (fld wd 15 5) (fld wd 10 5) (fld wd 7 3) (fld wd 5 2)) = _
    rw [s31, s20, s15, s10, s7, s5]
    exact leaf_ok rfl hwf

theorem vidot4 (sw : Bool) (v : BitVec 5) (a : BitVec 5) (b : BitVec 5) (m : BitVec 3) : Statement (.vidot4 sw v a b m) := by
  intro hwf _
  refine roundtrip (l := [⟨5, 12#5⟩, ⟨2, 0#2⟩, ⟨3, m⟩, ⟨5, b⟩, ⟨5, a⟩, ⟨5, v⟩, ⟨6, 33#6⟩, ⟨1, BitVec.ofBool sw⟩]) ?_ rfl ?_
  · show encVidot4 sw v a b m = _
    simp only [encVidot4, mixB, b2n_eq, BitVec.toNat_ofNat, Nat.reducePow, Nat.reduceMod]; omega
  · intro wd hwd
    obtain ⟨s0, s5, s7, s10, s15, s20, s25, s31⟩ := lay45 hwd
    rw [atMajor21 wd s25]; unfold decMajor21
    rw [s0]
    show leaf (seg wd 5 2 == 0) (.vidot4 (flag wd 31) (fld wd 20 5) (fld wd 15 5) (fld wd 10 5) (fld wd 7 3)) = _
    rw [s5, s31, s20, s15, s10, s7]
    exact leaf_ok rfl hwf

theorem vcvt (sw : Bool) (v : BitVec 5) (a : BitVec 5) (c : BitVec 4) (m : BitVec 3) (e : BitVec 4) (p : BitVec 2) : Statement (.vcvt sw v a c m e p) := by
  intro hwf _
  refine roundtrip (l := [⟨1, 0#1⟩, ⟨2, p⟩, ⟨4, e⟩, ⟨3, m⟩, ⟨4, c⟩, ⟨1, 0#1⟩, ⟨5, a⟩, ⟨5, v⟩, ⟨6, 34#6⟩, ⟨1, BitVec.ofBool sw⟩]) ?_ rfl ?_
  · show encVcvt sw v a c m e p = _
    simp only [encVcvt, mixB, b2n_eq, BitVec.toNat_ofNat, Nat.reducePow, Nat.reduceMod]; omega
  · intro wd hwd
    obtain ⟨s0, s1, s3, s7, s10, s14, s15, s20, s25, s31⟩ := lay46 hwd
    rw [atMajor22 wd s25]; unfold decMajor22
    show leaf (seg wd 14 1 == 0 && seg wd 0 1 == 0) (.vcvt (flag wd 31) (fld wd 20 5) (fld wd 15 5) (fld wd 10 4) (fld wd 7 3) (fld wd 3 4) (fld wd 1 2)) = _
    rw [s14, s0, s31, s20, s15, s10, s7, s3, s1]
    exact leaf_ok rfl hwf

theorem vquant (sw : Bool) (v : BitVec 5) (a : BitVec 5) (g : BitVec 4) (m : BitVec 3) (f : BitVec 4) (e : BitVec 2) (p : BitVec 2) : Statement (.vquant sw v a g m f e p) := by
  intro hwf _
  refine roundtrip (l := [⟨2, p⟩, ⟨2, e⟩, ⟨4, f⟩, ⟨3, m⟩, ⟨4, g⟩, ⟨5, a⟩, ⟨5, v⟩, ⟨6, 35#6⟩, ⟨1, BitVec.ofBool sw⟩]) ?_ rfl ?_
  · show encVquant sw v a g m f e p = _
    simp only [encVquant, mixB, b2n_eq, BitVec.toNat_ofNat, Nat.reducePow, Nat.reduceMod]; omega
  · intro wd hwd
    obtain ⟨s0, s2, s4, s8, s11, s15, s20, s25, s31⟩ := lay47 hwd
    rw [atMajor23 wd s25]; unfold decMajor23
    show leaf true (.vquant (flag wd 31) (fld wd 20 5) (fld wd 15 5) (fld wd 11 4) (fld wd 8 3) (fld wd 4 4) (fld wd 2 2) (fld wd 0 2)) = _
    rw [s31, s20, s15, s11, s8, s4, s2, s0]
    exact leaf_ok rfl hwf

theorem vquantFix (sw : Bool) (v : BitVec 5) (a : BitVec 5) (g : BitVec 4) (m : BitVec 3) (f : BitVec 4) (e : BitVec 2) (p : BitVec 2) : Statement (.vquantFix sw v a g m f e p) := by
  intro hwf _
  refine roundtrip (l := [⟨2, p⟩, ⟨2, e⟩, ⟨4, f⟩, ⟨3, m⟩, ⟨4, g⟩, ⟨5, a⟩, ⟨5, v⟩, ⟨6, 36#6⟩, ⟨1, BitVec.ofBool sw⟩]) ?_ rfl ?_
  · show encVquantFix sw v a g m f e p = _
    simp only [encVquantFix, mixB, b2n_eq, BitVec.toNat_ofNat, Nat.reducePow, Nat.reduceMod]; omega
  · intro wd hwd
    obtain ⟨s0, s2, s4, s8, s11, s15, s20, s25, s31⟩ := lay47 hwd
    rw [atMajor24 wd s25]; unfold decMajor24
    show leaf true (.vquantFix (flag wd 31) (fld wd 20 5) (fld wd 15 5) (fld wd 11 4) (fld wd 8 3) (fld wd 4 4) (fld wd 2 2) (fld wd 0 2)) = _
    rw [s31, s20, s15, s11, s8, s4, s2, s0]
    exact leaf_ok rfl hwf

theorem vdeq (sw : Bool) (v : BitVec 5) (a : BitVec 5) (g : BitVec 4) (m : BitVec 3) (f : BitVec 4) (e : BitVec 2) (p : BitVec 2) : Statement (.vdeq sw v a g m f e p) := by
  intro hwf _
  refine roundtrip (l := [⟨2, p⟩, ⟨2, e⟩, ⟨4, f⟩, ⟨3, m⟩, ⟨4, g⟩, ⟨5, a⟩, ⟨5, v⟩, ⟨6, 37#6⟩, ⟨1, BitVec.ofBool sw⟩]) ?_ rfl ?_
  · show encVdeq sw v a g m f e p = _
    simp only [encVdeq, mixB, b2n_eq, BitVec.toNat_ofNat, Nat.reducePow, Nat.reduceMod]; omega
  · intro wd hwd
    obtain ⟨s0, s2, s4, s8, s11, s15, s20, s25, s31⟩ := lay47 hwd
    rw [atMajor25 wd s25]; unfold decMajor25
    show leaf true (.vdeq (flag wd 31) (fld wd 20 5) (fld wd 15 5) (fld wd 11 4) (fld wd 8 3) (fld wd 4 4) (fld wd 2 2) (fld wd 0 2)) = _
    rw [s31, s20, s15, s11, s8, s4, s2, s0]
    exact leaf_ok rfl hwf

theorem mand (sw : Bool) (d : BitVec 3) (a : BitVec 3) (b : BitVec 3) : Statement (.mand sw d a b) := by
  intro hwf _
  refine roundtrip (l := [⟨2, 0#2⟩, ⟨4, 0#4⟩, ⟨1, 0#1⟩, ⟨3, 0#3⟩, ⟨3, b⟩, ⟨2, 0#2⟩, ⟨3, a⟩, ⟨2, 0#2⟩, ⟨3, d⟩, ⟨2, 0#2⟩, ⟨6, 38#6⟩, ⟨1, BitVec.ofBool sw⟩]) ?_ rfl ?_
  · show encMand sw d a b = _
    simp only [encMand, mixB, b2n_eq, BitVec.toNat_ofNat, Nat.reducePow, Nat.reduceMod]; omega
  · intro wd hwd
    obtain ⟨s0, s2, s6, s7, s10, s13, s15, s18, s20, s23, s25, s31⟩ := lay48 hwd
    rw [atMajor26 wd s25]; unfold decMajor26
    rw [s6]
    rw [s2]
    rw [s0]
    show leaf (seg wd 23 2 == 0 && seg wd 18 2 == 0 && seg wd 13 2 == 0 && seg wd 7 3 == 0) (.mand (flag wd 31) (fld wd 20 3) (fld wd 15 3) (fld wd 10 3)) = _
    rw [s23, s18, s13, s7, s31, s20, s15, s10]
    exact leaf_ok rfl hwf

theorem mor (sw : Bool) (d : BitVec 3) (a : BitVec 3) (b : BitVec 3) : Statement (.mor sw d a b) := by
  intro hwf _
  refine roundtrip (l := [⟨2, 1#2⟩, ⟨4, 0#4⟩, ⟨1, 0#1⟩, ⟨3, 0#3⟩, ⟨3, b⟩, ⟨2, 0#2⟩, ⟨3, a⟩, ⟨2, 0#2⟩, ⟨3, d⟩, ⟨2, 0#2⟩, ⟨6, 38#6⟩, ⟨1, BitVec.ofBool sw⟩]) ?_ rfl ?_
  · show encMor sw d a b = _
    simp only [encMor, mixB, b2n_eq, BitVec.toNat_ofNat, Nat.reducePow, Nat.reduceMod]; omega
  · intro wd hwd
    obtain ⟨s0, s2, s6, s7, s10, s13, s15, s18, s20, s23, s25, s31⟩ := lay48 hwd
    rw [atMajor26 wd s25]; unfold decMajor26
    rw [s6]
    rw [s2]
    rw [s0]
    show leaf (seg wd 23 2 == 0 && seg wd 18 2 == 0 && seg wd 13 2 == 0 && seg wd 7 3 == 0) (.mor (flag wd 31) (fld wd 20 3) (fld wd 15 3) (fld wd 10 3)) = _
    rw [s23, s18, s13, s7, s31, s20, s15, s10]
    exact leaf_ok rfl hwf

theorem mnot (sw : Bool) (d : BitVec 3) (a : BitVec 3) : Statement (.mnot sw d a) := by
  intro hwf _
  refine roundtrip (l := [⟨2, 2#2⟩, ⟨4, 0#4⟩, ⟨1, 0#1⟩, ⟨8, 0#8⟩, ⟨3, a⟩, ⟨2, 0#2⟩, ⟨3, d⟩, ⟨2, 0#2⟩, ⟨6, 38#6⟩, ⟨1, BitVec.ofBool sw⟩]) ?_ rfl ?_
  · show encMnot sw d a = _
    simp only [encMnot, mixB, b2n_eq, BitVec.toNat_ofNat, Nat.reducePow, Nat.reduceMod]; omega
  · intro wd hwd
    obtain ⟨s0, s2, s6, s7, s15, s18, s20, s23, s25, s31⟩ := lay49 hwd
    rw [atMajor26 wd s25]; unfold decMajor26
    rw [s6]
    rw [s2]
    rw [s0]
    show leaf (seg wd 23 2 == 0 && seg wd 18 2 == 0 && seg wd 7 8 == 0) (.mnot (flag wd 31) (fld wd 20 3) (fld wd 15 3)) = _
    rw [s23, s18, s7, s31, s20, s15]
    exact leaf_ok rfl hwf

theorem vselm (sw : Bool) (v : BitVec 5) (a : BitVec 5) (b : BitVec 5) (m : BitVec 3) : Statement (.vselm sw v a b m) := by
  intro hwf _
  refine roundtrip (l := [⟨2, 3#2⟩, ⟨4, 0#4⟩, ⟨1, 0#1⟩, ⟨3, m⟩, ⟨5, b⟩, ⟨5, a⟩, ⟨5, v⟩, ⟨6, 38#6⟩, ⟨1, BitVec.ofBool sw⟩]) ?_ rfl ?_
  · show encVselm sw v a b m = _
    simp only [encVselm, mixB, b2n_eq, BitVec.toNat_ofNat, Nat.reducePow, Nat.reduceMod]; omega
  · intro wd hwd
    obtain ⟨s0, s2, s6, s7, s10, s15, s20, s25, s31⟩ := lay50 hwd
    rw [atMajor26 wd s25]; unfold decMajor26
    rw [s6]
    rw [s2]
    rw [s0]
    show leaf true (.vselm (flag wd 31) (fld wd 20 5) (fld wd 15 5) (fld wd 10 5) (fld wd 7 3)) = _
    rw [s31, s20, s15, s10, s7]
    exact leaf_ok rfl hwf

theorem vperm (sw : Bool) (v : BitVec 5) (a : BitVec 5) (b : BitVec 5) (m : BitVec 3) : Statement (.vperm sw v a b m) := by
  intro hwf _
  refine roundtrip (l := [⟨2, 0#2⟩, ⟨4, 1#4⟩, ⟨1, 0#1⟩, ⟨3, m⟩, ⟨5, b⟩, ⟨5, a⟩, ⟨5, v⟩, ⟨6, 38#6⟩, ⟨1, BitVec.ofBool sw⟩]) ?_ rfl ?_
  · show encVperm sw v a b m = _
    simp only [encVperm, mixB, b2n_eq, BitVec.toNat_ofNat, Nat.reducePow, Nat.reduceMod]; omega
  · intro wd hwd
    obtain ⟨s0, s2, s6, s7, s10, s15, s20, s25, s31⟩ := lay50 hwd
    rw [atMajor26 wd s25]; unfold decMajor26
    rw [s6]
    rw [s2]
    show leaf (seg wd 0 2 == 0) (.vperm (flag wd 31) (fld wd 20 5) (fld wd 15 5) (fld wd 10 5) (fld wd 7 3)) = _
    rw [s0, s31, s20, s15, s10, s7]
    exact leaf_ok rfl hwf

theorem vredAdd (sw : Bool) (v : BitVec 5) (a : BitVec 5) (m : BitVec 3) (t : BitVec 2) : Statement (.vredAdd sw v a m t) := by
  intro hwf _
  refine roundtrip (l := [⟨2, t⟩, ⟨4, 2#4⟩, ⟨1, 0#1⟩, ⟨3, m⟩, ⟨5, 0#5⟩, ⟨5, a⟩, ⟨5, v⟩, ⟨6, 38#6⟩, ⟨1, BitVec.ofBool sw⟩]) ?_ rfl ?_
  · show encVredAdd sw v a m t = _
    simp only [encVredAdd, mixB, b2n_eq, BitVec.toNat_ofNat, Nat.reducePow, Nat.reduceMod]; omega
  · intro wd hwd
    obtain ⟨s0, s2, s6, s7, s10, s15, s20, s25, s31⟩ := lay51 hwd
    rw [atMajor26 wd s25]; unfold decMajor26
    rw [s6]
    rw [s2]
    show leaf (seg wd 10 5 == 0) (.vredAdd (flag wd 31) (fld wd 20 5) (fld wd 15 5) (fld wd 7 3) (fld wd 0 2)) = _
    rw [s10, s31, s20, s15, s7, s0]
    exact leaf_ok rfl hwf

theorem vredMax (sw : Bool) (v : BitVec 5) (a : BitVec 5) (m : BitVec 3) (t : BitVec 2) : Statement (.vredMax sw v a m t) := by
  intro hwf _
  refine roundtrip (l := [⟨2, t⟩, ⟨4, 3#4⟩, ⟨1, 0#1⟩, ⟨3, m⟩, ⟨5, 0#5⟩, ⟨5, a⟩, ⟨5, v⟩, ⟨6, 38#6⟩, ⟨1, BitVec.ofBool sw⟩]) ?_ rfl ?_
  · show encVredMax sw v a m t = _
    simp only [encVredMax, mixB, b2n_eq, BitVec.toNat_ofNat, Nat.reducePow, Nat.reduceMod]; omega
  · intro wd hwd
    obtain ⟨s0, s2, s6, s7, s10, s15, s20, s25, s31⟩ := lay51 hwd
    rw [atMajor26 wd s25]; unfold decMajor26
    rw [s6]
    rw [s2]
    show leaf (seg wd 10 5 == 0) (.vredMax (flag wd 31) (fld wd 20 5) (fld wd 15 5) (fld wd 7 3) (fld wd 0 2)) = _
    rw [s10, s31, s20, s15, s7, s0]
    exact leaf_ok rfl hwf

theorem vredMin (sw : Bool) (v : BitVec 5) (a : BitVec 5) (m : BitVec 3) (t : BitVec 2) : Statement (.vredMin sw v a m t) := by
  intro hwf _
  refine roundtrip (l := [⟨2, t⟩, ⟨4, 4#4⟩, ⟨1, 0#1⟩, ⟨3, m⟩, ⟨5, 0#5⟩, ⟨5, a⟩, ⟨5, v⟩, ⟨6, 38#6⟩, ⟨1, BitVec.ofBool sw⟩]) ?_ rfl ?_
  · show encVredMin sw v a m t = _
    simp only [encVredMin, mixB, b2n_eq, BitVec.toNat_ofNat, Nat.reducePow, Nat.reduceMod]; omega
  · intro wd hwd
    obtain ⟨s0, s2, s6, s7, s10, s15, s20, s25, s31⟩ := lay51 hwd
    rw [atMajor26 wd s25]; unfold decMajor26
    rw [s6]
    rw [s2]
    show leaf (seg wd 10 5 == 0) (.vredMin (flag wd 31) (fld wd 20 5) (fld wd 15 5) (fld wd 7 3) (fld wd 0 2)) = _
    rw [s10, s31, s20, s15, s7, s0]
    exact leaf_ok rfl hwf

theorem vscanAdd (sw : Bool) (v : BitVec 5) (a : BitVec 5) (m : BitVec 3) (t : BitVec 2) : Statement (.vscanAdd sw v a m t) := by
  intro hwf _
  refine roundtrip (l := [⟨2, t⟩, ⟨4, 5#4⟩, ⟨1, 0#1⟩, ⟨3, m⟩, ⟨5, 0#5⟩, ⟨5, a⟩, ⟨5, v⟩, ⟨6, 38#6⟩, ⟨1, BitVec.ofBool sw⟩]) ?_ rfl ?_
  · show encVscanAdd sw v a m t = _
    simp only [encVscanAdd, mixB, b2n_eq, BitVec.toNat_ofNat, Nat.reducePow, Nat.reduceMod]; omega
  · intro wd hwd
    obtain ⟨s0, s2, s6, s7, s10, s15, s20, s25, s31⟩ := lay51 hwd
    rw [atMajor26 wd s25]; unfold decMajor26
    rw [s6]
    rw [s2]
    show leaf (seg wd 10 5 == 0) (.vscanAdd (flag wd 31) (fld wd 20 5) (fld wd 15 5) (fld wd 7 3) (fld wd 0 2)) = _
    rw [s10, s31, s20, s15, s7, s0]
    exact leaf_ok rfl hwf

theorem vcmp (sw : Bool) (d : BitVec 3) (a : BitVec 5) (b : BitVec 5) (m : BitVec 3) (y : BitVec 3) (c : BitVec 3) : Statement (.vcmp sw d a b m y c) := by
  intro hwf _
  refine roundtrip (l := [⟨3, c⟩, ⟨3, y⟩, ⟨1, 1#1⟩, ⟨3, m⟩, ⟨5, b⟩, ⟨5, a⟩, ⟨3, d⟩, ⟨2, 0#2⟩, ⟨6, 38#6⟩, ⟨1, BitVec.ofBool sw⟩]) ?_ rfl ?_
  · show encVcmp sw d a b m y c = _
    simp only [encVcmp, mixB, b2n_eq, BitVec.toNat_ofNat, Nat.reducePow, Nat.reduceMod]; omega
  · intro wd hwd
    obtain ⟨s0, s3, s6, s7, s10, s15, s20, s23, s25, s31⟩ := lay52 hwd
    rw [atMajor26 wd s25]; unfold decMajor26
    rw [s6]
    show leaf (seg wd 23 2 == 0) (.vcmp (flag wd 31) (fld wd 20 3) (fld wd 15 5) (fld wd 10 5) (fld wd 7 3) (fld wd 3 3) (fld wd 0 3)) = _
    rw [s23, s31, s20, s15, s10, s7, s3, s0]
    exact leaf_ok rfl hwf

theorem mpop (sw : Bool) (a : BitVec 3) (g : BitVec 4) (m : BitVec 3) : Statement (.mpop sw a g m) := by
  intro hwf _
  refine roundtrip (l := [⟨2, 0#2⟩, ⟨4, 0#4⟩, ⟨2, 0#2⟩, ⟨3, m⟩, ⟨4, g⟩, ⟨3, a⟩, ⟨7, 0#7⟩, ⟨6, 39#6⟩, ⟨1, BitVec.ofBool sw⟩]) ?_ rfl ?_
  · show encMpop sw a g m = _
    simp only [encMpop, mixB, b2n_eq, BitVec.toNat_ofNat, Nat.reducePow, Nat.reduceMod]; omega
  · intro wd hwd
    obtain ⟨s0, s2, s6, s8, s11, s15, s18, s25, s31⟩ := lay53 hwd
    rw [atMajor27 wd s25]; unfold decMajor27
    rw [s6]
    rw [s2]
    rw [s0]
    show leaf (seg wd 18 7 == 0) (.mpop (flag wd 31) (fld wd 15 3) (fld wd 11 4) (fld wd 8 3)) = _
    rw [s18, s31, s15, s11, s8]
    exact leaf_ok rfl hwf

theorem vbcst (sw : Bool) (v : BitVec 5) (g : BitVec 4) (m : BitVec 3) : Statement (.vbcst sw v g m) := by
  intro hwf _
  refine roundtrip (l := [⟨2, 1#2⟩, ⟨4, 0#4⟩, ⟨2, 0#2⟩, ⟨3, m⟩, ⟨4, g⟩, ⟨5, 0#5⟩, ⟨5, v⟩, ⟨6, 39#6⟩, ⟨1, BitVec.ofBool sw⟩]) ?_ rfl ?_
  · show encVbcst sw v g m = _
    simp only [encVbcst, mixB, b2n_eq, BitVec.toNat_ofNat, Nat.reducePow, Nat.reduceMod]; omega
  · intro wd hwd
    obtain ⟨s0, s2, s6, s8, s11, s15, s20, s25, s31⟩ := lay54 hwd
    rw [atMajor27 wd s25]; unfold decMajor27
    rw [s6]
    rw [s2]
    rw [s0]
    show leaf (seg wd 15 5 == 0) (.vbcst (flag wd 31) (fld wd 20 5) (fld wd 11 4) (fld wd 8 3)) = _
    rw [s15, s31, s20, s11, s8]
    exact leaf_ok rfl hwf

theorem vbcstH (sw : Bool) (v : BitVec 5) (g : BitVec 4) (m : BitVec 3) : Statement (.vbcstH sw v g m) := by
  intro hwf _
  refine roundtrip (l := [⟨2, 2#2⟩, ⟨4, 0#4⟩, ⟨2, 0#2⟩, ⟨3, m⟩, ⟨4, g⟩, ⟨5, 0#5⟩, ⟨5, v⟩, ⟨6, 39#6⟩, ⟨1, BitVec.ofBool sw⟩]) ?_ rfl ?_
  · show encVbcstH sw v g m = _
    simp only [encVbcstH, mixB, b2n_eq, BitVec.toNat_ofNat, Nat.reducePow, Nat.reduceMod]; omega
  · intro wd hwd
    obtain ⟨s0, s2, s6, s8, s11, s15, s20, s25, s31⟩ := lay54 hwd
    rw [atMajor27 wd s25]; unfold decMajor27
    rw [s6]
    rw [s2]
    rw [s0]
    show leaf (seg wd 15 5 == 0) (.vbcstH (flag wd 31) (fld wd 20 5) (fld wd 11 4) (fld wd 8 3)) = _
    rw [s15, s31, s20, s11, s8]
    exact leaf_ok rfl hwf

theorem vbcstB (sw : Bool) (v : BitVec 5) (g : BitVec 4) (m : BitVec 3) : Statement (.vbcstB sw v g m) := by
  intro hwf _
  refine roundtrip (l := [⟨2, 3#2⟩, ⟨4, 0#4⟩, ⟨2, 0#2⟩, ⟨3, m⟩, ⟨4, g⟩, ⟨5, 0#5⟩, ⟨5, v⟩, ⟨6, 39#6⟩, ⟨1, BitVec.ofBool sw⟩]) ?_ rfl ?_
  · show encVbcstB sw v g m = _
    simp only [encVbcstB, mixB, b2n_eq, BitVec.toNat_ofNat, Nat.reducePow, Nat.reduceMod]; omega
  · intro wd hwd
    obtain ⟨s0, s2, s6, s8, s11, s15, s20, s25, s31⟩ := lay54 hwd
    rw [atMajor27 wd s25]; unfold decMajor27
    rw [s6]
    rw [s2]
    rw [s0]
    show leaf (seg wd 15 5 == 0) (.vbcstB (flag wd 31) (fld wd 20 5) (fld wd 11 4) (fld wd 8 3)) = _
    rw [s15, s31, s20, s11, s8]
    exact leaf_ok rfl hwf

theorem vslide (sw : Bool) (v : BitVec 5) (a : BitVec 5) (g : BitVec 4) (m : BitVec 3) : Statement (.vslide sw v a g m) := by
  intro hwf _
  refine roundtrip (l := [⟨2, 0#2⟩, ⟨4, 1#4⟩, ⟨2, 0#2⟩, ⟨3, m⟩, ⟨4, g⟩, ⟨5, a⟩, ⟨5, v⟩, ⟨6, 39#6⟩, ⟨1, BitVec.ofBool sw⟩]) ?_ rfl ?_
  · show encVslide sw v a g m = _
    simp only [encVslide, mixB, b2n_eq, BitVec.toNat_ofNat, Nat.reducePow, Nat.reduceMod]; omega
  · intro wd hwd
    obtain ⟨s0, s2, s6, s8, s11, s15, s20, s25, s31⟩ := lay55 hwd
    rw [atMajor27 wd s25]; unfold decMajor27
    rw [s6]
    rw [s2]
    rw [s0]
    show leaf true (.vslide (flag wd 31) (fld wd 20 5) (fld wd 15 5) (fld wd 11 4) (fld wd 8 3)) = _
    rw [s31, s20, s15, s11, s8]
    exact leaf_ok rfl hwf

theorem viota (sw : Bool) (v : BitVec 5) (g : BitVec 4) (m : BitVec 3) : Statement (.viota sw v g m) := by
  intro hwf _
  refine roundtrip (l := [⟨2, 1#2⟩, ⟨4, 1#4⟩, ⟨2, 0#2⟩, ⟨3, m⟩, ⟨4, g⟩, ⟨5, 0#5⟩, ⟨5, v⟩, ⟨6, 39#6⟩, ⟨1, BitVec.ofBool sw⟩]) ?_ rfl ?_
  · show encViota sw v g m = _
    simp only [encViota, mixB, b2n_eq, BitVec.toNat_ofNat, Nat.reducePow, Nat.reduceMod]; omega
  · intro wd hwd
    obtain ⟨s0, s2, s6, s8, s11, s15, s20, s25, s31⟩ := lay54 hwd
    rw [atMajor27 wd s25]; unfold decMajor27
    rw [s6]
    rw [s2]
    rw [s0]
    show leaf (seg wd 15 5 == 0) (.viota (flag wd 31) (fld wd 20 5) (fld wd 11 4) (fld wd 8 3)) = _
    rw [s15, s31, s20, s11, s8]
    exact leaf_ok rfl hwf

theorem vgathl (sw : Bool) (v : BitVec 5) (a : BitVec 5) (g : BitVec 4) (m : BitVec 3) : Statement (.vgathl sw v a g m) := by
  intro hwf _
  refine roundtrip (l := [⟨2, 2#2⟩, ⟨4, 1#4⟩, ⟨2, 0#2⟩, ⟨3, m⟩, ⟨4, g⟩, ⟨5, a⟩, ⟨5, v⟩, ⟨6, 39#6⟩, ⟨1, BitVec.ofBool sw⟩]) ?_ rfl ?_
  · show encVgathl sw v a g m = _
    simp only [encVgathl, mixB, b2n_eq, BitVec.toNat_ofNat, Nat.reducePow, Nat.reduceMod]; omega
  · intro wd hwd
    obtain ⟨s0, s2, s6, s8, s11, s15, s20, s25, s31⟩ := lay55 hwd
    rw [atMajor27 wd s25]; unfold decMajor27
    rw [s6]
    rw [s2]
    rw [s0]
    show leaf true (.vgathl (flag wd 31) (fld wd 20 5) (fld wd 15 5) (fld wd 11 4) (fld wd 8 3)) = _
    rw [s31, s20, s15, s11, s8]
    exact leaf_ok rfl hwf

theorem vscatl (sw : Bool) (v : BitVec 5) (a : BitVec 5) (g : BitVec 4) (m : BitVec 3) : Statement (.vscatl sw v a g m) := by
  intro hwf _
  refine roundtrip (l := [⟨2, 3#2⟩, ⟨4, 1#4⟩, ⟨2, 0#2⟩, ⟨3, m⟩, ⟨4, g⟩, ⟨5, a⟩, ⟨5, v⟩, ⟨6, 39#6⟩, ⟨1, BitVec.ofBool sw⟩]) ?_ rfl ?_
  · show encVscatl sw v a g m = _
    simp only [encVscatl, mixB, b2n_eq, BitVec.toNat_ofNat, Nat.reducePow, Nat.reduceMod]; omega
  · intro wd hwd
    obtain ⟨s0, s2, s6, s8, s11, s15, s20, s25, s31⟩ := lay55 hwd
    rw [atMajor27 wd s25]; unfold decMajor27
    rw [s6]
    rw [s2]
    rw [s0]
    show leaf true (.vscatl (flag wd 31) (fld wd 20 5) (fld wd 15 5) (fld wd 11 4) (fld wd 8 3)) = _
    rw [s31, s20, s15, s11, s8]
    exact leaf_ok rfl hwf

theorem vdistIp (sw : Bool) (v : BitVec 5) (a : BitVec 5) (g : BitVec 4) (m : BitVec 3) : Statement (.vdistIp sw v a g m) := by
  intro hwf _
  refine roundtrip (l := [⟨2, 0#2⟩, ⟨4, 2#4⟩, ⟨2, 0#2⟩, ⟨3, m⟩, ⟨4, g⟩, ⟨5, a⟩, ⟨5, v⟩, ⟨6, 39#6⟩, ⟨1, BitVec.ofBool sw⟩]) ?_ rfl ?_
  · show encVdistIp sw v a g m = _
    simp only [encVdistIp, mixB, b2n_eq, BitVec.toNat_ofNat, Nat.reducePow, Nat.reduceMod]; omega
  · intro wd hwd
    obtain ⟨s0, s2, s6, s8, s11, s15, s20, s25, s31⟩ := lay55 hwd
    rw [atMajor27 wd s25]; unfold decMajor27
    rw [s6]
    rw [s2]
    rw [s0]
    show leaf true (.vdistIp (flag wd 31) (fld wd 20 5) (fld wd 15 5) (fld wd 11 4) (fld wd 8 3)) = _
    rw [s31, s20, s15, s11, s8]
    exact leaf_ok rfl hwf

theorem vdistL2 (sw : Bool) (v : BitVec 5) (a : BitVec 5) (g : BitVec 4) (m : BitVec 3) : Statement (.vdistL2 sw v a g m) := by
  intro hwf _
  refine roundtrip (l := [⟨2, 1#2⟩, ⟨4, 2#4⟩, ⟨2, 0#2⟩, ⟨3, m⟩, ⟨4, g⟩, ⟨5, a⟩, ⟨5, v⟩, ⟨6, 39#6⟩, ⟨1, BitVec.ofBool sw⟩]) ?_ rfl ?_
  · show encVdistL2 sw v a g m = _
    simp only [encVdistL2, mixB, b2n_eq, BitVec.toNat_ofNat, Nat.reducePow, Nat.reduceMod]; omega
  · intro wd hwd
    obtain ⟨s0, s2, s6, s8, s11, s15, s20, s25, s31⟩ := lay55 hwd
    rw [atMajor27 wd s25]; unfold decMajor27
    rw [s6]
    rw [s2]
    rw [s0]
    show leaf true (.vdistL2 (flag wd 31) (fld wd 20 5) (fld wd 15 5) (fld wd 11 4) (fld wd 8 3)) = _
    rw [s31, s20, s15, s11, s8]
    exact leaf_ok rfl hwf

theorem vdistCos (sw : Bool) (v : BitVec 5) (a : BitVec 5) (g : BitVec 4) (m : BitVec 3) : Statement (.vdistCos sw v a g m) := by
  intro hwf _
  refine roundtrip (l := [⟨2, 2#2⟩, ⟨4, 2#4⟩, ⟨2, 0#2⟩, ⟨3, m⟩, ⟨4, g⟩, ⟨5, a⟩, ⟨5, v⟩, ⟨6, 39#6⟩, ⟨1, BitVec.ofBool sw⟩]) ?_ rfl ?_
  · show encVdistCos sw v a g m = _
    simp only [encVdistCos, mixB, b2n_eq, BitVec.toNat_ofNat, Nat.reducePow, Nat.reduceMod]; omega
  · intro wd hwd
    obtain ⟨s0, s2, s6, s8, s11, s15, s20, s25, s31⟩ := lay55 hwd
    rw [atMajor27 wd s25]; unfold decMajor27
    rw [s6]
    rw [s2]
    rw [s0]
    show leaf true (.vdistCos (flag wd 31) (fld wd 20 5) (fld wd 15 5) (fld wd 11 4) (fld wd 8 3)) = _
    rw [s31, s20, s15, s11, s8]
    exact leaf_ok rfl hwf

theorem vbmax (sw : Bool) (v : BitVec 5) (a : BitVec 5) (m : BitVec 3) (e : BitVec 2) : Statement (.vbmax sw v a m e) := by
  intro hwf _
  refine roundtrip (l := [⟨2, e⟩, ⟨4, 3#4⟩, ⟨2, 0#2⟩, ⟨3, m⟩, ⟨4, 0#4⟩, ⟨5, a⟩, ⟨5, v⟩, ⟨6, 39#6⟩, ⟨1, BitVec.ofBool sw⟩]) ?_ rfl ?_
  · show encVbmax sw v a m e = _
    simp only [encVbmax, mixB, b2n_eq, BitVec.toNat_ofNat, Nat.reducePow, Nat.reduceMod]; omega
  · intro wd hwd
    obtain ⟨s0, s2, s6, s8, s11, s15, s20, s25, s31⟩ := lay56 hwd
    rw [atMajor27 wd s25]; unfold decMajor27
    rw [s6]
    rw [s2]
    show leaf (seg wd 11 4 == 0) (.vbmax (flag wd 31) (fld wd 20 5) (fld wd 15 5) (fld wd 8 3) (fld wd 0 2)) = _
    rw [s11, s31, s20, s15, s8, s0]
    exact leaf_ok rfl hwf

theorem vscale (sw : Bool) (a : BitVec 5) (g : BitVec 4) (f : BitVec 4) (e : BitVec 2) : Statement (.vscale sw a g f e) := by
  intro hwf _
  refine roundtrip (l := [⟨2, e⟩, ⟨4, f⟩, ⟨2, 1#2⟩, ⟨3, 0#3⟩, ⟨4, g⟩, ⟨5, a⟩, ⟨5, 0#5⟩, ⟨6, 39#6⟩, ⟨1, BitVec.ofBool sw⟩]) ?_ rfl ?_
  · show encVscale sw a g f e = _
    simp only [encVscale, mixB, b2n_eq, BitVec.toNat_ofNat, Nat.reducePow, Nat.reduceMod]; omega
  · intro wd hwd
    obtain ⟨s0, s2, s6, s8, s11, s15, s20, s25, s31⟩ := lay57 hwd
    rw [atMajor27 wd s25]; unfold decMajor27
    rw [s6]
    show leaf (seg wd 20 5 == 0 && seg wd 8 3 == 0) (.vscale (flag wd 31) (fld wd 15 5) (fld wd 11 4) (fld wd 2 4) (fld wd 0 2)) = _
    rw [s20, s8, s31, s15, s11, s2, s0]
    exact leaf_ok rfl hwf

theorem vins (sw : Bool) (v : BitVec 5) (l : BitVec 5) (g : BitVec 4) (k : BitVec 2) : Statement (.vins sw v l g k) := by
  intro hwf _
  refine roundtrip (l := [⟨2, k⟩, ⟨4, 0#4⟩, ⟨2, 2#2⟩, ⟨3, 0#3⟩, ⟨4, g⟩, ⟨5, l⟩, ⟨5, v⟩, ⟨6, 39#6⟩, ⟨1, BitVec.ofBool sw⟩]) ?_ rfl ?_
  · show encVins sw v l g k = _
    simp only [encVins, mixB, b2n_eq, BitVec.toNat_ofNat, Nat.reducePow, Nat.reduceMod]; omega
  · intro wd hwd
    obtain ⟨s0, s2, s6, s8, s11, s15, s20, s25, s31⟩ := lay58 hwd
    rw [atMajor27 wd s25]; unfold decMajor27
    rw [s6]
    rw [s2]
    show leaf (seg wd 8 3 == 0) (.vins (flag wd 31) (fld wd 20 5) (fld wd 15 5) (fld wd 11 4) (fld wd 0 2)) = _
    rw [s8, s31, s20, s15, s11, s0]
    exact leaf_ok rfl hwf

theorem vext (sw : Bool) (v : BitVec 5) (l : BitVec 5) (g : BitVec 4) (k : BitVec 2) : Statement (.vext sw v l g k) := by
  intro hwf _
  refine roundtrip (l := [⟨2, k⟩, ⟨4, 1#4⟩, ⟨2, 2#2⟩, ⟨3, 0#3⟩, ⟨4, g⟩, ⟨5, l⟩, ⟨5, v⟩, ⟨6, 39#6⟩, ⟨1, BitVec.ofBool sw⟩]) ?_ rfl ?_
  · show encVext sw v l g k = _
    simp only [encVext, mixB, b2n_eq, BitVec.toNat_ofNat, Nat.reducePow, Nat.reduceMod]; omega
  · intro wd hwd
    obtain ⟨s0, s2, s6, s8, s11, s15, s20, s25, s31⟩ := lay58 hwd
    rw [atMajor27 wd s25]; unfold decMajor27
    rw [s6]
    rw [s2]
    show leaf (seg wd 8 3 == 0) (.vext (flag wd 31) (fld wd 20 5) (fld wd 15 5) (fld wd 11 4) (fld wd 0 2)) = _
    rw [s8, s31, s20, s15, s11, s0]
    exact leaf_ok rfl hwf

theorem rlins (sw : Bool) (l : BitVec 2) (a : BitVec 5) (b : BitVec 4) (m : BitVec 3) : Statement (.rlins sw l a b m) := by
  intro hwf _
  refine roundtrip (l := [⟨7, 0#7⟩, ⟨3, m⟩, ⟨4, b⟩, ⟨1, 0#1⟩, ⟨5, a⟩, ⟨2, l⟩, ⟨3, 0#3⟩, ⟨6, 40#6⟩, ⟨1, BitVec.ofBool sw⟩]) ?_ rfl ?_
  · show encRlins sw l a b m = _
    simp only [encRlins, mixB, b2n_eq, BitVec.toNat_ofNat, Nat.reducePow, Nat.reduceMod]; omega
  · intro wd hwd
    obtain ⟨s0, s7, s10, s14, s15, s20, s22, s25, s31⟩ := lay59 hwd
    rw [atMajor28 wd s25]; unfold decMajor28
    rw [s0]
    show leaf (seg wd 22 3 == 0 && seg wd 14 1 == 0) (.rlins (flag wd 31) (fld wd 20 2) (fld wd 15 5) (fld wd 10 4) (fld wd 7 3)) = _
    rw [s22, s14, s31, s20, s15, s10, s7]
    exact leaf_ok rfl hwf

theorem rlinsx (sw : Bool) (l : BitVec 2) (a : BitVec 5) (b : BitVec 5) (m : BitVec 3) : Statement (.rlinsx sw l a b m) := by
  intro hwf _
  refine roundtrip (l := [⟨7, 1#7⟩, ⟨3, m⟩, ⟨5, b⟩, ⟨5, a⟩, ⟨2, l⟩, ⟨3, 0#3⟩, ⟨6, 40#6⟩, ⟨1, BitVec.ofBool sw⟩]) ?_ rfl ?_
  · show encRlinsx sw l a b m = _
    simp only [encRlinsx, mixB, b2n_eq, BitVec.toNat_ofNat, Nat.reducePow, Nat.reduceMod]; omega
  · intro wd hwd
    obtain ⟨s0, s7, s10, s15, s20, s22, s25, s31⟩ := lay60 hwd
    rw [atMajor28 wd s25]; unfold decMajor28
    rw [s0]
    show leaf (seg wd 22 3 == 0) (.rlinsx (flag wd 31) (fld wd 20 2) (fld wd 15 5) (fld wd 10 5) (fld wd 7 3)) = _
    rw [s22, s31, s20, s15, s10, s7]
    exact leaf_ok rfl hwf

theorem rlprune (sw : Bool) (d : BitVec 3) (a : BitVec 5) (l : BitVec 2) (m : BitVec 3) : Statement (.rlprune sw d a l m) := by
  intro hwf _
  refine roundtrip (l := [⟨7, 2#7⟩, ⟨3, m⟩, ⟨2, l⟩, ⟨3, 0#3⟩, ⟨5, a⟩, ⟨3, d⟩, ⟨2, 0#2⟩, ⟨6, 40#6⟩, ⟨1, BitVec.ofBool sw⟩]) ?_ rfl ?_
  · show encRlprune sw d a l m = _
    simp only [encRlprune, mixB, b2n_eq, BitVec.toNat_ofNat, Nat.reducePow, Nat.reduceMod]; omega
  · intro wd hwd
    obtain ⟨s0, s7, s10, s12, s15, s20, s23, s25, s31⟩ := lay61 hwd
    rw [atMajor28 wd s25]; unfold decMajor28
    rw [s0]
    show leaf (seg wd 23 2 == 0 && seg wd 12 3 == 0) (.rlprune (flag wd 31) (fld wd 20 3) (fld wd 15 5) (fld wd 10 2) (fld wd 7 3)) = _
    rw [s23, s12, s31, s20, s15, s10, s7]
    exact leaf_ok rfl hwf

theorem rlmerge (sw : Bool) (l : BitVec 2) (k : BitVec 2) : Statement (.rlmerge sw l k) := by
  intro hwf _
  refine roundtrip (l := [⟨7, 3#7⟩, ⟨8, 0#8⟩, ⟨2, k⟩, ⟨3, 0#3⟩, ⟨2, l⟩, ⟨3, 0#3⟩, ⟨6, 40#6⟩, ⟨1, BitVec.ofBool sw⟩]) ?_ rfl ?_
  · show encRlmerge sw l k = _
    simp only [encRlmerge, mixB, b2n_eq, BitVec.toNat_ofNat, Nat.reducePow, Nat.reduceMod]; omega
  · intro wd hwd
    obtain ⟨s0, s7, s15, s17, s20, s22, s25, s31⟩ := lay62 hwd
    rw [atMajor28 wd s25]; unfold decMajor28
    rw [s0]
    show leaf (seg wd 22 3 == 0 && seg wd 17 3 == 0 && seg wd 7 8 == 0) (.rlmerge (flag wd 31) (fld wd 20 2) (fld wd 15 2)) = _
    rw [s22, s17, s7, s31, s20, s15]
    exact leaf_ok rfl hwf

theorem rlclr (sw : Bool) (l : BitVec 2) : Statement (.rlclr sw l) := by
  intro hwf _
  refine roundtrip (l := [⟨7, 4#7⟩, ⟨13, 0#13⟩, ⟨2, l⟩, ⟨3, 0#3⟩, ⟨6, 40#6⟩, ⟨1, BitVec.ofBool sw⟩]) ?_ rfl ?_
  · show encRlclr sw l = _
    simp only [encRlclr, mixB, b2n_eq, BitVec.toNat_ofNat, Nat.reducePow, Nat.reduceMod]; omega
  · intro wd hwd
    obtain ⟨s0, s7, s20, s22, s25, s31⟩ := lay63 hwd
    rw [atMajor28 wd s25]; unfold decMajor28
    rw [s0]
    show leaf (seg wd 22 3 == 0 && seg wd 7 13 == 0) (.rlclr (flag wd 31) (fld wd 20 2)) = _
    rw [s22, s7, s31, s20]
    exact leaf_ok rfl hwf

theorem rlinit (sw : Bool) (k : BitVec 7) (l : BitVec 2) : Statement (.rlinit sw k l) := by
  intro hwf _
  refine roundtrip (l := [⟨2, l⟩, ⟨7, k⟩, ⟨4, 0#4⟩, ⟨4, 0#4⟩, ⟨8, 0#8⟩, ⟨6, 41#6⟩, ⟨1, BitVec.ofBool sw⟩]) ?_ rfl ?_
  · show encRlinit sw k l = _
    simp only [encRlinit, mixB, b2n_eq, BitVec.toNat_ofNat, Nat.reducePow, Nat.reduceMod]; omega
  · intro wd hwd
    obtain ⟨s0, s2, s9, s13, s17, s25, s31⟩ := lay64 hwd
    rw [atMajor29 wd s25]; unfold decMajor29
    rw [s13]
    show leaf (seg wd 17 8 == 0 && seg wd 9 4 == 0) (.rlinit (flag wd 31) (fld wd 2 7) (fld wd 0 2)) = _
    rw [s17, s9, s31, s2, s0]
    exact leaf_ok rfl hwf

theorem rlthr (sw : Bool) (d : BitVec 4) (l : BitVec 2) : Statement (.rlthr sw d l) := by
  intro hwf _
  refine roundtrip (l := [⟨2, l⟩, ⟨11, 0#11⟩, ⟨4, 1#4⟩, ⟨4, 0#4⟩, ⟨4, d⟩, ⟨6, 41#6⟩, ⟨1, BitVec.ofBool sw⟩]) ?_ rfl ?_
  · show encRlthr sw d l = _
    simp only [encRlthr, mixB, b2n_eq, BitVec.toNat_ofNat, Nat.reducePow, Nat.reduceMod]; omega
  · intro wd hwd
    obtain ⟨s0, s2, s13, s17, s21, s25, s31⟩ := lay65 hwd
    rw [atMajor29 wd s25]; unfold decMajor29
    rw [s13]
    show leaf (seg wd 17 4 == 0 && seg wd 2 11 == 0) (.rlthr (flag wd 31) (fld wd 21 4) (fld wd 0 2)) = _
    rw [s17, s2, s31, s21, s0]
    exact leaf_ok rfl hwf

theorem rllen (sw : Bool) (d : BitVec 4) (l : BitVec 2) : Statement (.rllen sw d l) := by
  intro hwf _
  refine roundtrip (l := [⟨2, l⟩, ⟨11, 0#11⟩, ⟨4, 2#4⟩, ⟨4, 0#4⟩, ⟨4, d⟩, ⟨6, 41#6⟩, ⟨1, BitVec.ofBool sw⟩]) ?_ rfl ?_
  · show encRllen sw d l = _
    simp only [encRllen, mixB, b2n_eq, BitVec.toNat_ofNat, Nat.reducePow, Nat.reduceMod]; omega
  · intro wd hwd
    obtain ⟨s0, s2, s13, s17, s21, s25, s31⟩ := lay65 hwd
    rw [atMajor29 wd s25]; unfold decMajor29
    rw [s13]
    show leaf (seg wd 17 4 == 0 && seg wd 2 11 == 0) (.rllen (flag wd 31) (fld wd 21 4) (fld wd 0 2)) = _
    rw [s17, s2, s31, s21, s0]
    exact leaf_ok rfl hwf

theorem rlget (sw : Bool) (d : BitVec 4) (a : BitVec 4) (l : BitVec 2) : Statement (.rlget sw d a l) := by
  intro hwf _
  refine roundtrip (l := [⟨2, l⟩, ⟨11, 0#11⟩, ⟨4, 3#4⟩, ⟨4, a⟩, ⟨4, d⟩, ⟨6, 41#6⟩, ⟨1, BitVec.ofBool sw⟩]) ?_ rfl ?_
  · show encRlget sw d a l = _
    simp only [encRlget, mixB, b2n_eq, BitVec.toNat_ofNat, Nat.reducePow, Nat.reduceMod]; omega
  · intro wd hwd
    obtain ⟨s0, s2, s13, s17, s21, s25, s31⟩ := lay66 hwd
    rw [atMajor29 wd s25]; unfold decMajor29
    rw [s13]
    show leaf (seg wd 2 11 == 0) (.rlget (flag wd 31) (fld wd 21 4) (fld wd 17 4) (fld wd 0 2)) = _
    rw [s2, s31, s21, s17, s0]
    exact leaf_ok rfl hwf

theorem rlst (sw : Bool) (a : BitVec 4) (l : BitVec 2) : Statement (.rlst sw a l) := by
  intro hwf _
  refine roundtrip (l := [⟨2, l⟩, ⟨11, 0#11⟩, ⟨4, 4#4⟩, ⟨4, a⟩, ⟨4, 0#4⟩, ⟨6, 41#6⟩, ⟨1, BitVec.ofBool sw⟩]) ?_ rfl ?_
  · show encRlst sw a l = _
    simp only [encRlst, mixB, b2n_eq, BitVec.toNat_ofNat, Nat.reducePow, Nat.reduceMod]; omega
  · intro wd hwd
    obtain ⟨s0, s2, s13, s17, s21, s25, s31⟩ := lay67 hwd
    rw [atMajor29 wd s25]; unfold decMajor29
    rw [s13]
    show leaf (seg wd 21 4 == 0 && seg wd 2 11 == 0) (.rlst (flag wd 31) (fld wd 17 4) (fld wd 0 2)) = _
    rw [s21, s2, s31, s17, s0]
    exact leaf_ok rfl hwf

theorem rlld (sw : Bool) (a : BitVec 4) (l : BitVec 2) : Statement (.rlld sw a l) := by
  intro hwf _
  refine roundtrip (l := [⟨2, l⟩, ⟨11, 0#11⟩, ⟨4, 5#4⟩, ⟨4, a⟩, ⟨4, 0#4⟩, ⟨6, 41#6⟩, ⟨1, BitVec.ofBool sw⟩]) ?_ rfl ?_
  · show encRlld sw a l = _
    simp only [encRlld, mixB, b2n_eq, BitVec.toNat_ofNat, Nat.reducePow, Nat.reduceMod]; omega
  · intro wd hwd
    obtain ⟨s0, s2, s13, s17, s21, s25, s31⟩ := lay67 hwd
    rw [atMajor29 wd s25]; unfold decMajor29
    rw [s13]
    show leaf (seg wd 21 4 == 0 && seg wd 2 11 == 0) (.rlld (flag wd 31) (fld wd 17 4) (fld wd 0 2)) = _
    rw [s21, s2, s31, s17, s0]
    exact leaf_ok rfl hwf

theorem rlsend (sw : Bool) (d : BitVec 4) (a : BitVec 4) (l : BitVec 2) : Statement (.rlsend sw d a l) := by
  intro hwf _
  refine roundtrip (l := [⟨2, l⟩, ⟨11, 0#11⟩, ⟨4, 6#4⟩, ⟨4, a⟩, ⟨4, d⟩, ⟨6, 41#6⟩, ⟨1, BitVec.ofBool sw⟩]) ?_ rfl ?_
  · show encRlsend sw d a l = _
    simp only [encRlsend, mixB, b2n_eq, BitVec.toNat_ofNat, Nat.reducePow, Nat.reduceMod]; omega
  · intro wd hwd
    obtain ⟨s0, s2, s13, s17, s21, s25, s31⟩ := lay66 hwd
    rw [atMajor29 wd s25]; unfold decMajor29
    rw [s13]
    show leaf (seg wd 2 11 == 0) (.rlsend (flag wd 31) (fld wd 21 4) (fld wd 17 4) (fld wd 0 2)) = _
    rw [s2, s31, s21, s17, s0]
    exact leaf_ok rfl hwf

theorem rlfloor (sw : Bool) (a : BitVec 4) (l : BitVec 2) : Statement (.rlfloor sw a l) := by
  intro hwf _
  refine roundtrip (l := [⟨2, l⟩, ⟨11, 0#11⟩, ⟨4, 7#4⟩, ⟨4, a⟩, ⟨4, 0#4⟩, ⟨6, 41#6⟩, ⟨1, BitVec.ofBool sw⟩]) ?_ rfl ?_
  · show encRlfloor sw a l = _
    simp only [encRlfloor, mixB, b2n_eq, BitVec.toNat_ofNat, Nat.reducePow, Nat.reduceMod]; omega
  · intro wd hwd
    obtain ⟨s0, s2, s13, s17, s21, s25, s31⟩ := lay67 hwd
    rw [atMajor29 wd s25]; unfold decMajor29
    rw [s13]
    show leaf (seg wd 21 4 == 0 && seg wd 2 11 == 0) (.rlfloor (flag wd 31) (fld wd 17 4) (fld wd 0 2)) = _
    rw [s21, s2, s31, s17, s0]
    exact leaf_ok rfl hwf

theorem mma (sw : Bool) (d : BitVec 4) (a : BitVec 4) (b : BitVec 4) (c : BitVec 4) (q : BitVec 1) (h : BitVec 1) (f : BitVec 1) (n : BitVec 2) : Statement (.mma sw d a b c q h f n) := by
  intro hwf _
  refine roundtrip (l := [⟨2, n⟩, ⟨1, 0#1⟩, ⟨1, f⟩, ⟨1, h⟩, ⟨1, q⟩, ⟨3, 0#3⟩, ⟨4, c⟩, ⟨4, b⟩, ⟨4, a⟩, ⟨4, d⟩, ⟨6, 44#6⟩, ⟨1, BitVec.ofBool sw⟩]) ?_ rfl ?_
  · show encMma sw d a b c q h f n = _
    simp only [encMma, mixB, b2n_eq, BitVec.toNat_ofNat, Nat.reducePow, Nat.reduceMod]; omega
  · intro wd hwd
    obtain ⟨s0, s2, s3, s4, s5, s6, s9, s13, s17, s21, s25, s31⟩ := lay68 hwd
    rw [atMajor2C wd s25]; unfold decMajor2C
    rw [s2]
    show leaf (seg wd 6 3 == 0) (.mma (flag wd 31) (fld wd 21 4) (fld wd 17 4) (fld wd 13 4) (fld wd 9 4) (fld wd 5 1) (fld wd 4 1) (fld wd 3 1) (fld wd 0 2)) = _
    rw [s6, s31, s21, s17, s13, s9, s5, s4, s3, s0]
    exact leaf_ok rfl hwf

theorem mmag (sw : Bool) (d : BitVec 4) (a : BitVec 4) (b : BitVec 4) (c : BitVec 4) (q : BitVec 1) (h : BitVec 1) (f : BitVec 1) (n : BitVec 2) : Statement (.mmag sw d a b c q h f n) := by
  intro hwf _
  refine roundtrip (l := [⟨2, n⟩, ⟨1, 1#1⟩, ⟨1, f⟩, ⟨1, h⟩, ⟨1, q⟩, ⟨3, 0#3⟩, ⟨4, c⟩, ⟨4, b⟩, ⟨4, a⟩, ⟨4, d⟩, ⟨6, 44#6⟩, ⟨1, BitVec.ofBool sw⟩]) ?_ rfl ?_
  · show encMmag sw d a b c q h f n = _
    simp only [encMmag, mixB, b2n_eq, BitVec.toNat_ofNat, Nat.reducePow, Nat.reduceMod]; omega
  · intro wd hwd
    obtain ⟨s0, s2, s3, s4, s5, s6, s9, s13, s17, s21, s25, s31⟩ := lay68 hwd
    rw [atMajor2C wd s25]; unfold decMajor2C
    rw [s2]
    show leaf (seg wd 6 3 == 0) (.mmag (flag wd 31) (fld wd 21 4) (fld wd 17 4) (fld wd 13 4) (fld wd 9 4) (fld wd 5 1) (fld wd 4 1) (fld wd 3 1) (fld wd 0 2)) = _
    rw [s6, s31, s21, s17, s13, s9, s5, s4, s3, s0]
    exact leaf_ok rfl hwf

theorem mmr (sw : Bool) (d : BitVec 4) (a : BitVec 4) (c : BitVec 4) (z : BitVec 1) (k : BitVec 1) (n : BitVec 2) : Statement (.mmr sw d a c z k n) := by
  intro hwf _
  refine roundtrip (l := [⟨2, n⟩, ⟨1, 0#1⟩, ⟨1, k⟩, ⟨1, z⟩, ⟨4, 0#4⟩, ⟨4, c⟩, ⟨4, 0#4⟩, ⟨4, a⟩, ⟨4, d⟩, ⟨6, 45#6⟩, ⟨1, BitVec.ofBool sw⟩]) ?_ rfl ?_
  · show encMmr sw d a c z k n = _
    simp only [encMmr, mixB, b2n_eq, BitVec.toNat_ofNat, Nat.reducePow, Nat.reduceMod]; omega
  · intro wd hwd
    obtain ⟨s0, s2, s3, s4, s5, s9, s13, s17, s21, s25, s31⟩ := lay69 hwd
    rw [atMajor2D wd s25]; unfold decMajor2D
    rw [s2]
    show leaf (seg wd 13 4 == 0 && seg wd 5 4 == 0) (.mmr (flag wd 31) (fld wd 21 4) (fld wd 17 4) (fld wd 9 4) (fld wd 4 1) (fld wd 3 1) (fld wd 0 2)) = _
    rw [s13, s5, s31, s21, s17, s9, s4, s3, s0]
    exact leaf_ok rfl hwf

theorem mmrl (sw : Bool) (d : BitVec 4) (a : BitVec 4) (c : BitVec 4) (z : BitVec 1) (k : BitVec 1) (n : BitVec 2) : Statement (.mmrl sw d a c z k n) := by
  intro hwf _
  refine roundtrip (l := [⟨2, n⟩, ⟨1, 1#1⟩, ⟨1, k⟩, ⟨1, z⟩, ⟨4, 0#4⟩, ⟨4, c⟩, ⟨4, 0#4⟩, ⟨4, a⟩, ⟨4, d⟩, ⟨6, 45#6⟩, ⟨1, BitVec.ofBool sw⟩]) ?_ rfl ?_
  · show encMmrl sw d a c z k n = _
    simp only [encMmrl, mixB, b2n_eq, BitVec.toNat_ofNat, Nat.reducePow, Nat.reduceMod]; omega
  · intro wd hwd
    obtain ⟨s0, s2, s3, s4, s5, s9, s13, s17, s21, s25, s31⟩ := lay69 hwd
    rw [atMajor2D wd s25]; unfold decMajor2D
    rw [s2]
    show leaf (seg wd 13 4 == 0 && seg wd 5 4 == 0) (.mmrl (flag wd 31) (fld wd 21 4) (fld wd 17 4) (fld wd 9 4) (fld wd 4 1) (fld wd 3 1) (fld wd 0 2)) = _
    rw [s13, s5, s31, s21, s17, s9, s4, s3, s0]
    exact leaf_ok rfl hwf

theorem mmz (sw : Bool) (n : BitVec 2) : Statement (.mmz sw n) := by
  intro hwf _
  refine roundtrip (l := [⟨2, n⟩, ⟨1, 0#1⟩, ⟨22, 0#22⟩, ⟨6, 46#6⟩, ⟨1, BitVec.ofBool sw⟩]) ?_ rfl ?_
  · show encMmz sw n = _
    simp only [encMmz, mixB, b2n_eq, BitVec.toNat_ofNat, Nat.reducePow, Nat.reduceMod]; omega
  · intro wd hwd
    obtain ⟨s0, s2, s3, s25, s31⟩ := lay70 hwd
    rw [atMajor2E wd s25]; unfold decMajor2E
    rw [s2]
    show leaf (seg wd 3 22 == 0) (.mmz (flag wd 31) (fld wd 0 2)) = _
    rw [s3, s31, s0]
    exact leaf_ok rfl hwf

theorem mmrank (sw : Bool) (k : BitVec 4) (n : BitVec 2) : Statement (.mmrank sw k n) := by
  intro hwf _
  refine roundtrip (l := [⟨2, n⟩, ⟨1, 1#1⟩, ⟨4, k⟩, ⟨18, 0#18⟩, ⟨6, 46#6⟩, ⟨1, BitVec.ofBool sw⟩]) ?_ rfl ?_
  · show encMmrank sw k n = _
    simp only [encMmrank, mixB, b2n_eq, BitVec.toNat_ofNat, Nat.reducePow, Nat.reduceMod]; omega
  · intro wd hwd
    obtain ⟨s0, s2, s3, s7, s25, s31⟩ := lay71 hwd
    rw [atMajor2E wd s25]; unfold decMajor2E
    rw [s2]
    show leaf (seg wd 7 18 == 0) (.mmrank (flag wd 31) (fld wd 3 4) (fld wd 0 2)) = _
    rw [s7, s31, s3, s0]
    exact leaf_ok rfl hwf

theorem tilexy (sw : Bool) (d : BitVec 4) : Statement (.tilexy sw d) := by
  intro hwf _
  refine roundtrip (l := [⟨5, 0#5⟩, ⟨8, 0#8⟩, ⟨8, 0#8⟩, ⟨4, d⟩, ⟨6, 47#6⟩, ⟨1, BitVec.ofBool sw⟩]) ?_ rfl ?_
  · show encTilexy sw d = _
    simp only [encTilexy, mixB, b2n_eq, BitVec.toNat_ofNat, Nat.reducePow, Nat.reduceMod]; omega
  · intro wd hwd
    obtain ⟨s0, s5, s13, s21, s25, s31⟩ := lay28 hwd
    rw [atMajor2F wd s25]; unfold decMajor2F
    rw [s5]
    show leaf (seg wd 13 8 == 0 && seg wd 0 5 == 0) (.tilexy (flag wd 31) (fld wd 21 4)) = _
    rw [s13, s0, s31, s21]
    exact leaf_ok rfl hwf

theorem edgem (sw : Bool) (d : BitVec 4) : Statement (.edgem sw d) := by
  intro hwf _
  refine roundtrip (l := [⟨5, 0#5⟩, ⟨8, 1#8⟩, ⟨8, 0#8⟩, ⟨4, d⟩, ⟨6, 47#6⟩, ⟨1, BitVec.ofBool sw⟩]) ?_ rfl ?_
  · show encEdgem sw d = _
    simp only [encEdgem, mixB, b2n_eq, BitVec.toNat_ofNat, Nat.reducePow, Nat.reduceMod]; omega
  · intro wd hwd
    obtain ⟨s0, s5, s13, s21, s25, s31⟩ := lay28 hwd
    rw [atMajor2F wd s25]; unfold decMajor2F
    rw [s5]
    show leaf (seg wd 13 8 == 0 && seg wd 0 5 == 0) (.edgem (flag wd 31) (fld wd 21 4)) = _
    rw [s13, s0, s31, s21]
    exact leaf_ok rfl hwf

theorem sete (sw : Bool) (a : BitVec 4) (e : BitVec 3) : Statement (.sete sw a e) := by
  intro hwf _
  refine roundtrip (l := [⟨3, e⟩, ⟨2, 0#2⟩, ⟨8, 2#8⟩, ⟨4, 0#4⟩, ⟨4, a⟩, ⟨4, 0#4⟩, ⟨6, 47#6⟩, ⟨1, BitVec.ofBool sw⟩]) ?_ rfl ?_
  · show encSete sw a e = _
    simp only [encSete, mixB, b2n_eq, BitVec.toNat_ofNat, Nat.reducePow, Nat.reduceMod]; omega
  · intro wd hwd
    obtain ⟨s0, s3, s5, s13, s17, s21, s25, s31⟩ := lay72 hwd
    rw [atMajor2F wd s25]; unfold decMajor2F
    rw [s5]
    show leaf (seg wd 21 4 == 0 && seg wd 13 4 == 0 && seg wd 3 2 == 0) (.sete (flag wd 31) (fld wd 17 4) (fld wd 0 3)) = _
    rw [s21, s13, s3, s31, s17, s0]
    exact leaf_ok rfl hwf

theorem gete (sw : Bool) (d : BitVec 4) (e : BitVec 3) : Statement (.gete sw d e) := by
  intro hwf _
  refine roundtrip (l := [⟨3, e⟩, ⟨2, 0#2⟩, ⟨8, 3#8⟩, ⟨8, 0#8⟩, ⟨4, d⟩, ⟨6, 47#6⟩, ⟨1, BitVec.ofBool sw⟩]) ?_ rfl ?_
  · show encGete sw d e = _
    simp only [encGete, mixB, b2n_eq, BitVec.toNat_ofNat, Nat.reducePow, Nat.reduceMod]; omega
  · intro wd hwd
    obtain ⟨s0, s3, s5, s13, s21, s25, s31⟩ := lay73 hwd
    rw [atMajor2F wd s25]; unfold decMajor2F
    rw [s5]
    show leaf (seg wd 13 8 == 0 && seg wd 3 2 == 0) (.gete (flag wd 31) (fld wd 21 4) (fld wd 0 3)) = _
    rw [s13, s3, s31, s21, s0]
    exact leaf_ok rfl hwf

theorem cpyG2l (sw : Bool) (d : BitVec 4) (a : BitVec 4) (b : BitVec 4) (c : BitVec 4) : Statement (.cpyG2l sw d a b c) := by
  intro hwf _
  refine roundtrip (l := [⟨9, 0#9⟩, ⟨4, c⟩, ⟨4, b⟩, ⟨4, a⟩, ⟨4, d⟩, ⟨6, 50#6⟩, ⟨1, BitVec.ofBool sw⟩]) ?_ rfl ?_
  · show encCpyG2l sw d a b c = _
    simp only [encCpyG2l, mixB, b2n_eq, BitVec.toNat_ofNat, Nat.reducePow, Nat.reduceMod]; omega
  · intro wd hwd
    obtain ⟨s0, s9, s13, s17, s21, s25, s31⟩ := lay74 hwd
    rw [atMajor32 wd s25]; unfold decMajor32
    rw [s0]
    show leaf true (.cpyG2l (flag wd 31) (fld wd 21 4) (fld wd 17 4) (fld wd 13 4) (fld wd 9 4)) = _
    rw [s31, s21, s17, s13, s9]
    exact leaf_ok rfl hwf

theorem cpyL2g (sw : Bool) (d : BitVec 4) (a : BitVec 4) (b : BitVec 4) (c : BitVec 4) : Statement (.cpyL2g sw d a b c) := by
  intro hwf _
  refine roundtrip (l := [⟨9, 1#9⟩, ⟨4, c⟩, ⟨4, b⟩, ⟨4, a⟩, ⟨4, d⟩, ⟨6, 50#6⟩, ⟨1, BitVec.ofBool sw⟩]) ?_ rfl ?_
  · show encCpyL2g sw d a b c = _
    simp only [encCpyL2g, mixB, b2n_eq, BitVec.toNat_ofNat, Nat.reducePow, Nat.reduceMod]; omega
  · intro wd hwd
    obtain ⟨s0, s9, s13, s17, s21, s25, s31⟩ := lay74 hwd
    rw [atMajor32 wd s25]; unfold decMajor32
    rw [s0]
    show leaf true (.cpyL2g (flag wd 31) (fld wd 21 4) (fld wd 17 4) (fld wd 13 4) (fld wd 9 4)) = _
    rw [s31, s21, s17, s13, s9]
    exact leaf_ok rfl hwf

theorem cpyG2g (sw : Bool) (d : BitVec 4) (a : BitVec 4) (b : BitVec 4) (c : BitVec 4) : Statement (.cpyG2g sw d a b c) := by
  intro hwf _
  refine roundtrip (l := [⟨9, 2#9⟩, ⟨4, c⟩, ⟨4, b⟩, ⟨4, a⟩, ⟨4, d⟩, ⟨6, 50#6⟩, ⟨1, BitVec.ofBool sw⟩]) ?_ rfl ?_
  · show encCpyG2g sw d a b c = _
    simp only [encCpyG2g, mixB, b2n_eq, BitVec.toNat_ofNat, Nat.reducePow, Nat.reduceMod]; omega
  · intro wd hwd
    obtain ⟨s0, s9, s13, s17, s21, s25, s31⟩ := lay74 hwd
    rw [atMajor32 wd s25]; unfold decMajor32
    rw [s0]
    show leaf true (.cpyG2g (flag wd 31) (fld wd 21 4) (fld wd 17 4) (fld wd 13 4) (fld wd 9 4)) = _
    rw [s31, s21, s17, s13, s9]
    exact leaf_ok rfl hwf

theorem cpyrL (sw : Bool) (d : BitVec 4) (a : BitVec 4) (b : BitVec 4) (c : BitVec 4) : Statement (.cpyrL sw d a b c) := by
  intro hwf _
  refine roundtrip (l := [⟨9, 4#9⟩, ⟨4, c⟩, ⟨4, b⟩, ⟨4, a⟩, ⟨4, d⟩, ⟨6, 50#6⟩, ⟨1, BitVec.ofBool sw⟩]) ?_ rfl ?_
  · show encCpyrL sw d a b c = _
    simp only [encCpyrL, mixB, b2n_eq, BitVec.toNat_ofNat, Nat.reducePow, Nat.reduceMod]; omega
  · intro wd hwd
    obtain ⟨s0, s9, s13, s17, s21, s25, s31⟩ := lay74 hwd
    rw [atMajor32 wd s25]; unfold decMajor32
    rw [s0]
    show leaf true (.cpyrL (flag wd 31) (fld wd 21 4) (fld wd 17 4) (fld wd 13 4) (fld wd 9 4)) = _
    rw [s31, s21, s17, s13, s9]
    exact leaf_ok rfl hwf

theorem cpyrG (sw : Bool) (d : BitVec 4) (a : BitVec 4) (b : BitVec 4) (c : BitVec 4) : Statement (.cpyrG sw d a b c) := by
  intro hwf _
  refine roundtrip (l := [⟨9, 5#9⟩, ⟨4, c⟩, ⟨4, b⟩, ⟨4, a⟩, ⟨4, d⟩, ⟨6, 50#6⟩, ⟨1, BitVec.ofBool sw⟩]) ?_ rfl ?_
  · show encCpyrG sw d a b c = _
    simp only [encCpyrG, mixB, b2n_eq, BitVec.toNat_ofNat, Nat.reducePow, Nat.reduceMod]; omega
  · intro wd hwd
    obtain ⟨s0, s9, s13, s17, s21, s25, s31⟩ := lay74 hwd
    rw [atMajor32 wd s25]; unfold decMajor32
    rw [s0]
    show leaf true (.cpyrG (flag wd 31) (fld wd 21 4) (fld wd 17 4) (fld wd 13 4) (fld wd 9 4)) = _
    rw [s31, s21, s17, s13, s9]
    exact leaf_ok rfl hwf

theorem cpywL (sw : Bool) (d : BitVec 4) (a : BitVec 4) (b : BitVec 4) (c : BitVec 4) : Statement (.cpywL sw d a b c) := by
  intro hwf _
  refine roundtrip (l := [⟨9, 6#9⟩, ⟨4, c⟩, ⟨4, b⟩, ⟨4, a⟩, ⟨4, d⟩, ⟨6, 50#6⟩, ⟨1, BitVec.ofBool sw⟩]) ?_ rfl ?_
  · show encCpywL sw d a b c = _
    simp only [encCpywL, mixB, b2n_eq, BitVec.toNat_ofNat, Nat.reducePow, Nat.reduceMod]; omega
  · intro wd hwd
    obtain ⟨s0, s9, s13, s17, s21, s25, s31⟩ := lay74 hwd
    rw [atMajor32 wd s25]; unfold decMajor32
    rw [s0]
    show leaf true (.cpywL (flag wd 31) (fld wd 21 4) (fld wd 17 4) (fld wd 13 4) (fld wd 9 4)) = _
    rw [s31, s21, s17, s13, s9]
    exact leaf_ok rfl hwf

theorem cpywG (sw : Bool) (d : BitVec 4) (a : BitVec 4) (b : BitVec 4) (c : BitVec 4) : Statement (.cpywG sw d a b c) := by
  intro hwf _
  refine roundtrip (l := [⟨9, 7#9⟩, ⟨4, c⟩, ⟨4, b⟩, ⟨4, a⟩, ⟨4, d⟩, ⟨6, 50#6⟩, ⟨1, BitVec.ofBool sw⟩]) ?_ rfl ?_
  · show encCpywG sw d a b c = _
    simp only [encCpywG, mixB, b2n_eq, BitVec.toNat_ofNat, Nat.reducePow, Nat.reduceMod]; omega
  · intro wd hwd
    obtain ⟨s0, s9, s13, s17, s21, s25, s31⟩ := lay74 hwd
    rw [atMajor32 wd s25]; unfold decMajor32
    rw [s0]
    show leaf true (.cpywG (flag wd 31) (fld wd 21 4) (fld wd 17 4) (fld wd 13 4) (fld wd 9 4)) = _
    rw [s31, s21, s17, s13, s9]
    exact leaf_ok rfl hwf

theorem credAdd (sw : Bool) (d : BitVec 4) (a : BitVec 4) (b : BitVec 4) (c : BitVec 4) : Statement (.credAdd sw d a b c) := by
  intro hwf _
  refine roundtrip (l := [⟨9, 0#9⟩, ⟨4, c⟩, ⟨4, b⟩, ⟨4, a⟩, ⟨4, d⟩, ⟨6, 51#6⟩, ⟨1, BitVec.ofBool sw⟩]) ?_ rfl ?_
  · show encCredAdd sw d a b c = _
    simp only [encCredAdd, mixB, b2n_eq, BitVec.toNat_ofNat, Nat.reducePow, Nat.reduceMod]; omega
  · intro wd hwd
    obtain ⟨s0, s9, s13, s17, s21, s25, s31⟩ := lay74 hwd
    rw [atMajor33 wd s25]; unfold decMajor33
    rw [s0]
    show leaf true (.credAdd (flag wd 31) (fld wd 21 4) (fld wd 17 4) (fld wd 13 4) (fld wd 9 4)) = _
    rw [s31, s21, s17, s13, s9]
    exact leaf_ok rfl hwf

theorem credMax (sw : Bool) (d : BitVec 4) (a : BitVec 4) (b : BitVec 4) (c : BitVec 4) : Statement (.credMax sw d a b c) := by
  intro hwf _
  refine roundtrip (l := [⟨9, 1#9⟩, ⟨4, c⟩, ⟨4, b⟩, ⟨4, a⟩, ⟨4, d⟩, ⟨6, 51#6⟩, ⟨1, BitVec.ofBool sw⟩]) ?_ rfl ?_
  · show encCredMax sw d a b c = _
    simp only [encCredMax, mixB, b2n_eq, BitVec.toNat_ofNat, Nat.reducePow, Nat.reduceMod]; omega
  · intro wd hwd
    obtain ⟨s0, s9, s13, s17, s21, s25, s31⟩ := lay74 hwd
    rw [atMajor33 wd s25]; unfold decMajor33
    rw [s0]
    show leaf true (.credMax (flag wd 31) (fld wd 21 4) (fld wd 17 4) (fld wd 13 4) (fld wd 9 4)) = _
    rw [s31, s21, s17, s13, s9]
    exact leaf_ok rfl hwf

theorem credAddSlice (sw : Bool) (d : BitVec 4) (a : BitVec 4) (b : BitVec 4) (c : BitVec 4) : Statement (.credAddSlice sw d a b c) := by
  intro hwf _
  refine roundtrip (l := [⟨9, 2#9⟩, ⟨4, c⟩, ⟨4, b⟩, ⟨4, a⟩, ⟨4, d⟩, ⟨6, 51#6⟩, ⟨1, BitVec.ofBool sw⟩]) ?_ rfl ?_
  · show encCredAddSlice sw d a b c = _
    simp only [encCredAddSlice, mixB, b2n_eq, BitVec.toNat_ofNat, Nat.reducePow, Nat.reduceMod]; omega
  · intro wd hwd
    obtain ⟨s0, s9, s13, s17, s21, s25, s31⟩ := lay74 hwd
    rw [atMajor33 wd s25]; unfold decMajor33
    rw [s0]
    show leaf true (.credAddSlice (flag wd 31) (fld wd 21 4) (fld wd 17 4) (fld wd 13 4) (fld wd 9 4)) = _
    rw [s31, s21, s17, s13, s9]
    exact leaf_ok rfl hwf

theorem credMaxSlice (sw : Bool) (d : BitVec 4) (a : BitVec 4) (b : BitVec 4) (c : BitVec 4) : Statement (.credMaxSlice sw d a b c) := by
  intro hwf _
  refine roundtrip (l := [⟨9, 3#9⟩, ⟨4, c⟩, ⟨4, b⟩, ⟨4, a⟩, ⟨4, d⟩, ⟨6, 51#6⟩, ⟨1, BitVec.ofBool sw⟩]) ?_ rfl ?_
  · show encCredMaxSlice sw d a b c = _
    simp only [encCredMaxSlice, mixB, b2n_eq, BitVec.toNat_ofNat, Nat.reducePow, Nat.reduceMod]; omega
  · intro wd hwd
    obtain ⟨s0, s9, s13, s17, s21, s25, s31⟩ := lay74 hwd
    rw [atMajor33 wd s25]; unfold decMajor33
    rw [s0]
    show leaf true (.credMaxSlice (flag wd 31) (fld wd 21 4) (fld wd 17 4) (fld wd 13 4) (fld wd 9 4)) = _
    rw [s31, s21, s17, s13, s9]
    exact leaf_ok rfl hwf

theorem catomAdd (sw : Bool) (d : BitVec 4) (a : BitVec 4) (b : BitVec 4) (c : BitVec 4) (z : BitVec 1) : Statement (.catomAdd sw d a b c z) := by
  intro hwf _
  refine roundtrip (l := [⟨4, 0#4⟩, ⟨1, z⟩, ⟨4, 0#4⟩, ⟨4, c⟩, ⟨4, b⟩, ⟨4, a⟩, ⟨4, d⟩, ⟨6, 52#6⟩, ⟨1, BitVec.ofBool sw⟩]) ?_ rfl ?_
  · show encCatomAdd sw d a b c z = _
    simp only [encCatomAdd, mixB, b2n_eq, BitVec.toNat_ofNat, Nat.reducePow, Nat.reduceMod]; omega
  · intro wd hwd
    obtain ⟨s0, s4, s5, s9, s13, s17, s21, s25, s31⟩ := lay75 hwd
    rw [atMajor34 wd s25]; unfold decMajor34
    rw [s0]
    show leaf (seg wd 5 4 == 0) (.catomAdd (flag wd 31) (fld wd 21 4) (fld wd 17 4) (fld wd 13 4) (fld wd 9 4) (fld wd 4 1)) = _
    rw [s5, s31, s21, s17, s13, s9, s4]
    exact leaf_ok rfl hwf

theorem catomAnd (sw : Bool) (d : BitVec 4) (a : BitVec 4) (b : BitVec 4) (c : BitVec 4) (z : BitVec 1) : Statement (.catomAnd sw d a b c z) := by
  intro hwf _
  refine roundtrip (l := [⟨4, 1#4⟩, ⟨1, z⟩, ⟨4, 0#4⟩, ⟨4, c⟩, ⟨4, b⟩, ⟨4, a⟩, ⟨4, d⟩, ⟨6, 52#6⟩, ⟨1, BitVec.ofBool sw⟩]) ?_ rfl ?_
  · show encCatomAnd sw d a b c z = _
    simp only [encCatomAnd, mixB, b2n_eq, BitVec.toNat_ofNat, Nat.reducePow, Nat.reduceMod]; omega
  · intro wd hwd
    obtain ⟨s0, s4, s5, s9, s13, s17, s21, s25, s31⟩ := lay75 hwd
    rw [atMajor34 wd s25]; unfold decMajor34
    rw [s0]
    show leaf (seg wd 5 4 == 0) (.catomAnd (flag wd 31) (fld wd 21 4) (fld wd 17 4) (fld wd 13 4) (fld wd 9 4) (fld wd 4 1)) = _
    rw [s5, s31, s21, s17, s13, s9, s4]
    exact leaf_ok rfl hwf

theorem catomOr (sw : Bool) (d : BitVec 4) (a : BitVec 4) (b : BitVec 4) (c : BitVec 4) (z : BitVec 1) : Statement (.catomOr sw d a b c z) := by
  intro hwf _
  refine roundtrip (l := [⟨4, 2#4⟩, ⟨1, z⟩, ⟨4, 0#4⟩, ⟨4, c⟩, ⟨4, b⟩, ⟨4, a⟩, ⟨4, d⟩, ⟨6, 52#6⟩, ⟨1, BitVec.ofBool sw⟩]) ?_ rfl ?_
  · show encCatomOr sw d a b c z = _
    simp only [encCatomOr, mixB, b2n_eq, BitVec.toNat_ofNat, Nat.reducePow, Nat.reduceMod]; omega
  · intro wd hwd
    obtain ⟨s0, s4, s5, s9, s13, s17, s21, s25, s31⟩ := lay75 hwd
    rw [atMajor34 wd s25]; unfold decMajor34
    rw [s0]
    show leaf (seg wd 5 4 == 0) (.catomOr (flag wd 31) (fld wd 21 4) (fld wd 17 4) (fld wd 13 4) (fld wd 9 4) (fld wd 4 1)) = _
    rw [s5, s31, s21, s17, s13, s9, s4]
    exact leaf_ok rfl hwf

theorem catomXor (sw : Bool) (d : BitVec 4) (a : BitVec 4) (b : BitVec 4) (c : BitVec 4) (z : BitVec 1) : Statement (.catomXor sw d a b c z) := by
  intro hwf _
  refine roundtrip (l := [⟨4, 3#4⟩, ⟨1, z⟩, ⟨4, 0#4⟩, ⟨4, c⟩, ⟨4, b⟩, ⟨4, a⟩, ⟨4, d⟩, ⟨6, 52#6⟩, ⟨1, BitVec.ofBool sw⟩]) ?_ rfl ?_
  · show encCatomXor sw d a b c z = _
    simp only [encCatomXor, mixB, b2n_eq, BitVec.toNat_ofNat, Nat.reducePow, Nat.reduceMod]; omega
  · intro wd hwd
    obtain ⟨s0, s4, s5, s9, s13, s17, s21, s25, s31⟩ := lay75 hwd
    rw [atMajor34 wd s25]; unfold decMajor34
    rw [s0]
    show leaf (seg wd 5 4 == 0) (.catomXor (flag wd 31) (fld wd 21 4) (fld wd 17 4) (fld wd 13 4) (fld wd 9 4) (fld wd 4 1)) = _
    rw [s5, s31, s21, s17, s13, s9, s4]
    exact leaf_ok rfl hwf

theorem catomMin (sw : Bool) (d : BitVec 4) (a : BitVec 4) (b : BitVec 4) (c : BitVec 4) (z : BitVec 1) : Statement (.catomMin sw d a b c z) := by
  intro hwf _
  refine roundtrip (l := [⟨4, 4#4⟩, ⟨1, z⟩, ⟨4, 0#4⟩, ⟨4, c⟩, ⟨4, b⟩, ⟨4, a⟩, ⟨4, d⟩, ⟨6, 52#6⟩, ⟨1, BitVec.ofBool sw⟩]) ?_ rfl ?_
  · show encCatomMin sw d a b c z = _
    simp only [encCatomMin, mixB, b2n_eq, BitVec.toNat_ofNat, Nat.reducePow, Nat.reduceMod]; omega
  · intro wd hwd
    obtain ⟨s0, s4, s5, s9, s13, s17, s21, s25, s31⟩ := lay75 hwd
    rw [atMajor34 wd s25]; unfold decMajor34
    rw [s0]
    show leaf (seg wd 5 4 == 0) (.catomMin (flag wd 31) (fld wd 21 4) (fld wd 17 4) (fld wd 13 4) (fld wd 9 4) (fld wd 4 1)) = _
    rw [s5, s31, s21, s17, s13, s9, s4]
    exact leaf_ok rfl hwf

theorem catomMax (sw : Bool) (d : BitVec 4) (a : BitVec 4) (b : BitVec 4) (c : BitVec 4) (z : BitVec 1) : Statement (.catomMax sw d a b c z) := by
  intro hwf _
  refine roundtrip (l := [⟨4, 5#4⟩, ⟨1, z⟩, ⟨4, 0#4⟩, ⟨4, c⟩, ⟨4, b⟩, ⟨4, a⟩, ⟨4, d⟩, ⟨6, 52#6⟩, ⟨1, BitVec.ofBool sw⟩]) ?_ rfl ?_
  · show encCatomMax sw d a b c z = _
    simp only [encCatomMax, mixB, b2n_eq, BitVec.toNat_ofNat, Nat.reducePow, Nat.reduceMod]; omega
  · intro wd hwd
    obtain ⟨s0, s4, s5, s9, s13, s17, s21, s25, s31⟩ := lay75 hwd
    rw [atMajor34 wd s25]; unfold decMajor34
    rw [s0]
    show leaf (seg wd 5 4 == 0) (.catomMax (flag wd 31) (fld wd 21 4) (fld wd 17 4) (fld wd 13 4) (fld wd 9 4) (fld wd 4 1)) = _
    rw [s5, s31, s21, s17, s13, s9, s4]
    exact leaf_ok rfl hwf

theorem catomMinu (sw : Bool) (d : BitVec 4) (a : BitVec 4) (b : BitVec 4) (c : BitVec 4) (z : BitVec 1) : Statement (.catomMinu sw d a b c z) := by
  intro hwf _
  refine roundtrip (l := [⟨4, 6#4⟩, ⟨1, z⟩, ⟨4, 0#4⟩, ⟨4, c⟩, ⟨4, b⟩, ⟨4, a⟩, ⟨4, d⟩, ⟨6, 52#6⟩, ⟨1, BitVec.ofBool sw⟩]) ?_ rfl ?_
  · show encCatomMinu sw d a b c z = _
    simp only [encCatomMinu, mixB, b2n_eq, BitVec.toNat_ofNat, Nat.reducePow, Nat.reduceMod]; omega
  · intro wd hwd
    obtain ⟨s0, s4, s5, s9, s13, s17, s21, s25, s31⟩ := lay75 hwd
    rw [atMajor34 wd s25]; unfold decMajor34
    rw [s0]
    show leaf (seg wd 5 4 == 0) (.catomMinu (flag wd 31) (fld wd 21 4) (fld wd 17 4) (fld wd 13 4) (fld wd 9 4) (fld wd 4 1)) = _
    rw [s5, s31, s21, s17, s13, s9, s4]
    exact leaf_ok rfl hwf

theorem catomMaxu (sw : Bool) (d : BitVec 4) (a : BitVec 4) (b : BitVec 4) (c : BitVec 4) (z : BitVec 1) : Statement (.catomMaxu sw d a b c z) := by
  intro hwf _
  refine roundtrip (l := [⟨4, 7#4⟩, ⟨1, z⟩, ⟨4, 0#4⟩, ⟨4, c⟩, ⟨4, b⟩, ⟨4, a⟩, ⟨4, d⟩, ⟨6, 52#6⟩, ⟨1, BitVec.ofBool sw⟩]) ?_ rfl ?_
  · show encCatomMaxu sw d a b c z = _
    simp only [encCatomMaxu, mixB, b2n_eq, BitVec.toNat_ofNat, Nat.reducePow, Nat.reduceMod]; omega
  · intro wd hwd
    obtain ⟨s0, s4, s5, s9, s13, s17, s21, s25, s31⟩ := lay75 hwd
    rw [atMajor34 wd s25]; unfold decMajor34
    rw [s0]
    show leaf (seg wd 5 4 == 0) (.catomMaxu (flag wd 31) (fld wd 21 4) (fld wd 17 4) (fld wd 13 4) (fld wd 9 4) (fld wd 4 1)) = _
    rw [s5, s31, s21, s17, s13, s9, s4]
    exact leaf_ok rfl hwf

theorem catomSwap (sw : Bool) (d : BitVec 4) (a : BitVec 4) (b : BitVec 4) (c : BitVec 4) (z : BitVec 1) : Statement (.catomSwap sw d a b c z) := by
  intro hwf _
  refine roundtrip (l := [⟨4, 8#4⟩, ⟨1, z⟩, ⟨4, 0#4⟩, ⟨4, c⟩, ⟨4, b⟩, ⟨4, a⟩, ⟨4, d⟩, ⟨6, 52#6⟩, ⟨1, BitVec.ofBool sw⟩]) ?_ rfl ?_
  · show encCatomSwap sw d a b c z = _
    simp only [encCatomSwap, mixB, b2n_eq, BitVec.toNat_ofNat, Nat.reducePow, Nat.reduceMod]; omega
  · intro wd hwd
    obtain ⟨s0, s4, s5, s9, s13, s17, s21, s25, s31⟩ := lay75 hwd
    rw [atMajor34 wd s25]; unfold decMajor34
    rw [s0]
    show leaf (seg wd 5 4 == 0) (.catomSwap (flag wd 31) (fld wd 21 4) (fld wd 17 4) (fld wd 13 4) (fld wd 9 4) (fld wd 4 1)) = _
    rw [s5, s31, s21, s17, s13, s9, s4]
    exact leaf_ok rfl hwf

theorem catomFadd (sw : Bool) (d : BitVec 4) (a : BitVec 4) (b : BitVec 4) (c : BitVec 4) : Statement (.catomFadd sw d a b c) := by
  intro hwf _
  refine roundtrip (l := [⟨4, 9#4⟩, ⟨5, 0#5⟩, ⟨4, c⟩, ⟨4, b⟩, ⟨4, a⟩, ⟨4, d⟩, ⟨6, 52#6⟩, ⟨1, BitVec.ofBool sw⟩]) ?_ rfl ?_
  · show encCatomFadd sw d a b c = _
    simp only [encCatomFadd, mixB, b2n_eq, BitVec.toNat_ofNat, Nat.reducePow, Nat.reduceMod]; omega
  · intro wd hwd
    obtain ⟨s0, s4, s9, s13, s17, s21, s25, s31⟩ := lay76 hwd
    rw [atMajor34 wd s25]; unfold decMajor34
    rw [s0]
    show leaf (seg wd 4 5 == 0) (.catomFadd (flag wd 31) (fld wd 21 4) (fld wd 17 4) (fld wd 13 4) (fld wd 9 4)) = _
    rw [s4, s31, s21, s17, s13, s9]
    exact leaf_ok rfl hwf

theorem catomCas (sw : Bool) (d : BitVec 4) (a : BitVec 4) (b : BitVec 4) (c : BitVec 4) (z : BitVec 1) : Statement (.catomCas sw d a b c z) := by
  intro hwf _
  refine roundtrip (l := [⟨4, 10#4⟩, ⟨1, z⟩, ⟨4, 0#4⟩, ⟨4, c⟩, ⟨4, b⟩, ⟨4, a⟩, ⟨4, d⟩, ⟨6, 52#6⟩, ⟨1, BitVec.ofBool sw⟩]) ?_ rfl ?_
  · show encCatomCas sw d a b c z = _
    simp only [encCatomCas, mixB, b2n_eq, BitVec.toNat_ofNat, Nat.reducePow, Nat.reduceMod]; omega
  · intro wd hwd
    obtain ⟨s0, s4, s5, s9, s13, s17, s21, s25, s31⟩ := lay75 hwd
    rw [atMajor34 wd s25]; unfold decMajor34
    rw [s0]
    show leaf (seg wd 5 4 == 0) (.catomCas (flag wd 31) (fld wd 21 4) (fld wd 17 4) (fld wd 13 4) (fld wd 9 4) (fld wd 4 1)) = _
    rw [s5, s31, s21, s17, s13, s9, s4]
    exact leaf_ok rfl hwf

theorem cmc (sw : Bool) (d : BitVec 4) (a : BitVec 4) (b : BitVec 4) (c : BitVec 4) : Statement (.cmc sw d a b c) := by
  intro hwf _
  refine roundtrip (l := [⟨9, 0#9⟩, ⟨4, c⟩, ⟨4, b⟩, ⟨4, a⟩, ⟨4, d⟩, ⟨6, 53#6⟩, ⟨1, BitVec.ofBool sw⟩]) ?_ rfl ?_
  · show encCmc sw d a b c = _
    simp only [encCmc, mixB, b2n_eq, BitVec.toNat_ofNat, Nat.reducePow, Nat.reduceMod]; omega
  · intro wd hwd
    obtain ⟨s0, s9, s13, s17, s21, s25, s31⟩ := lay74 hwd
    rw [atMajor35 wd s25]; unfold decMajor35
    rw [s0]
    show leaf true (.cmc (flag wd 31) (fld wd 21 4) (fld wd 17 4) (fld wd 13 4) (fld wd 9 4)) = _
    rw [s31, s21, s17, s13, s9]
    exact leaf_ok rfl hwf

theorem cstorL (sw : Bool) (d : BitVec 4) (a : BitVec 4) (b : BitVec 4) (c : BitVec 4) : Statement (.cstorL sw d a b c) := by
  intro hwf _
  refine roundtrip (l := [⟨9, 1#9⟩, ⟨4, c⟩, ⟨4, b⟩, ⟨4, a⟩, ⟨4, d⟩, ⟨6, 53#6⟩, ⟨1, BitVec.ofBool sw⟩]) ?_ rfl ?_
  · show encCstorL sw d a b c = _
    simp only [encCstorL, mixB, b2n_eq, BitVec.toNat_ofNat, Nat.reducePow, Nat.reduceMod]; omega
  · intro wd hwd
    obtain ⟨s0, s9, s13, s17, s21, s25, s31⟩ := lay74 hwd
    rw [atMajor35 wd s25]; unfold decMajor35
    rw [s0]
    show leaf true (.cstorL (flag wd 31) (fld wd 21 4) (fld wd 17 4) (fld wd 13 4) (fld wd 9 4)) = _
    rw [s31, s21, s17, s13, s9]
    exact leaf_ok rfl hwf

theorem cstorG (sw : Bool) (d : BitVec 4) (a : BitVec 4) (b : BitVec 4) (c : BitVec 4) : Statement (.cstorG sw d a b c) := by
  intro hwf _
  refine roundtrip (l := [⟨9, 2#9⟩, ⟨4, c⟩, ⟨4, b⟩, ⟨4, a⟩, ⟨4, d⟩, ⟨6, 53#6⟩, ⟨1, BitVec.ofBool sw⟩]) ?_ rfl ?_
  · show encCstorG sw d a b c = _
    simp only [encCstorG, mixB, b2n_eq, BitVec.toNat_ofNat, Nat.reducePow, Nat.reduceMod]; omega
  · intro wd hwd
    obtain ⟨s0, s9, s13, s17, s21, s25, s31⟩ := lay74 hwd
    rw [atMajor35 wd s25]; unfold decMajor35
    rw [s0]
    show leaf true (.cstorG (flag wd 31) (fld wd 21 4) (fld wd 17 4) (fld wd 13 4) (fld wd 9 4)) = _
    rw [s31, s21, s17, s13, s9]
    exact leaf_ok rfl hwf

theorem cdec (sw : Bool) (d : BitVec 4) (a : BitVec 4) (b : BitVec 4) (c : BitVec 4) : Statement (.cdec sw d a b c) := by
  intro hwf _
  refine roundtrip (l := [⟨9, 0#9⟩, ⟨4, c⟩, ⟨4, b⟩, ⟨4, a⟩, ⟨4, d⟩, ⟨6, 54#6⟩, ⟨1, BitVec.ofBool sw⟩]) ?_ rfl ?_
  · show encCdec sw d a b c = _
    simp only [encCdec, mixB, b2n_eq, BitVec.toNat_ofNat, Nat.reducePow, Nat.reduceMod]; omega
  · intro wd hwd
    obtain ⟨s0, s9, s13, s17, s21, s25, s31⟩ := lay74 hwd
    rw [atMajor36 wd s25]; unfold decMajor36
    rw [s0]
    show leaf true (.cdec (flag wd 31) (fld wd 21 4) (fld wd 17 4) (fld wd 13 4) (fld wd 9 4)) = _
    rw [s31, s21, s17, s13, s9]
    exact leaf_ok rfl hwf

theorem cdtab (sw : Bool) (d : BitVec 4) (a : BitVec 4) (c : BitVec 4) : Statement (.cdtab sw d a c) := by
  intro hwf _
  refine roundtrip (l := [⟨9, 1#9⟩, ⟨4, c⟩, ⟨4, 0#4⟩, ⟨4, a⟩, ⟨4, d⟩, ⟨6, 54#6⟩, ⟨1, BitVec.ofBool sw⟩]) ?_ rfl ?_
  · show encCdtab sw d a c = _
    simp only [encCdtab, mixB, b2n_eq, BitVec.toNat_ofNat, Nat.reducePow, Nat.reduceMod]; omega
  · intro wd hwd
    obtain ⟨s0, s9, s13, s17, s21, s25, s31⟩ := lay77 hwd
    rw [atMajor36 wd s25]; unfold decMajor36
    rw [s0]
    show leaf (seg wd 13 4 == 0) (.cdtab (flag wd 31) (fld wd 21 4) (fld wd 17 4) (fld wd 9 4)) = _
    rw [s13, s31, s21, s17, s9]
    exact leaf_ok rfl hwf

theorem schadv (sw : Bool) (imm : BitVec 13) : Statement (.schadv sw imm) := by
  intro hwf _
  refine roundtrip (l := [⟨13, imm⟩, ⟨4, 0#4⟩, ⟨8, 0#8⟩, ⟨6, 55#6⟩, ⟨1, BitVec.ofBool sw⟩]) ?_ rfl ?_
  · show encSchadv sw imm = _
    simp only [encSchadv, mixB, b2n_eq, BitVec.toNat_ofNat, Nat.reducePow, Nat.reduceMod]; omega
  · intro wd hwd
    obtain ⟨s0, s13, s17, s25, s31⟩ := lay78 hwd
    rw [atMajor37 wd s25]; unfold decMajor37
    rw [s13]
    show leaf (seg wd 17 8 == 0) (.schadv (flag wd 31) (fld wd 0 13)) = _
    rw [s17, s31, s0]
    exact leaf_ok rfl hwf

theorem schrd (sw : Bool) (d : BitVec 4) : Statement (.schrd sw d) := by
  intro hwf _
  refine roundtrip (l := [⟨13, 0#13⟩, ⟨4, 1#4⟩, ⟨4, 0#4⟩, ⟨4, d⟩, ⟨6, 55#6⟩, ⟨1, BitVec.ofBool sw⟩]) ?_ rfl ?_
  · show encSchrd sw d = _
    simp only [encSchrd, mixB, b2n_eq, BitVec.toNat_ofNat, Nat.reducePow, Nat.reduceMod]; omega
  · intro wd hwd
    obtain ⟨s0, s13, s17, s21, s25, s31⟩ := lay79 hwd
    rw [atMajor37 wd s25]; unfold decMajor37
    rw [s13]
    show leaf (seg wd 17 4 == 0 && seg wd 0 13 == 0) (.schrd (flag wd 31) (fld wd 21 4)) = _
    rw [s17, s0, s31, s21]
    exact leaf_ok rfl hwf

theorem cseal (sw : Bool) (d : BitVec 4) : Statement (.cseal sw d) := by
  intro hwf _
  refine roundtrip (l := [⟨13, 0#13⟩, ⟨4, 2#4⟩, ⟨4, 0#4⟩, ⟨4, d⟩, ⟨6, 55#6⟩, ⟨1, BitVec.ofBool sw⟩]) ?_ rfl ?_
  · show encCseal sw d = _
    simp only [encCseal, mixB, b2n_eq, BitVec.toNat_ofNat, Nat.reducePow, Nat.reduceMod]; omega
  · intro wd hwd
    obtain ⟨s0, s13, s17, s21, s25, s31⟩ := lay79 hwd
    rw [atMajor37 wd s25]; unfold decMajor37
    rw [s13]
    show leaf (seg wd 17 4 == 0 && seg wd 0 13 == 0) (.cseal (flag wd 31) (fld wd 21 4)) = _
    rw [s17, s0, s31, s21]
    exact leaf_ok rfl hwf

theorem cwaitn (sw : Bool) (imm : BitVec 13) : Statement (.cwaitn sw imm) := by
  intro hwf _
  refine roundtrip (l := [⟨13, imm⟩, ⟨4, 3#4⟩, ⟨8, 0#8⟩, ⟨6, 55#6⟩, ⟨1, BitVec.ofBool sw⟩]) ?_ rfl ?_
  · show encCwaitn sw imm = _
    simp only [encCwaitn, mixB, b2n_eq, BitVec.toNat_ofNat, Nat.reducePow, Nat.reduceMod]; omega
  · intro wd hwd
    obtain ⟨s0, s13, s17, s25, s31⟩ := lay78 hwd
    rw [atMajor37 wd s25]; unfold decMajor37
    rw [s13]
    show leaf (seg wd 17 8 == 0) (.cwaitn (flag wd 31) (fld wd 0 13)) = _
    rw [s17, s31, s0]
    exact leaf_ok rfl hwf

theorem nsendG (sw : Bool) (d : BitVec 4) (a : BitVec 4) (b : BitVec 4) (c : BitVec 4) : Statement (.nsendG sw d a b c) := by
  intro hwf _
  refine roundtrip (l := [⟨9, 0#9⟩, ⟨4, c⟩, ⟨4, b⟩, ⟨4, a⟩, ⟨4, d⟩, ⟨6, 56#6⟩, ⟨1, BitVec.ofBool sw⟩]) ?_ rfl ?_
  · show encNsendG sw d a b c = _
    simp only [encNsendG, mixB, b2n_eq, BitVec.toNat_ofNat, Nat.reducePow, Nat.reduceMod]; omega
  · intro wd hwd
    obtain ⟨s0, s9, s13, s17, s21, s25, s31⟩ := lay74 hwd
    rw [atMajor38 wd s25]; unfold decMajor38
    rw [s0]
    show leaf true (.nsendG (flag wd 31) (fld wd 21 4) (fld wd 17 4) (fld wd 13 4) (fld wd 9 4)) = _
    rw [s31, s21, s17, s13, s9]
    exact leaf_ok rfl hwf

theorem nsendL (sw : Bool) (d : BitVec 4) (a : BitVec 4) (b : BitVec 4) (c : BitVec 4) : Statement (.nsendL sw d a b c) := by
  intro hwf _
  refine roundtrip (l := [⟨9, 1#9⟩, ⟨4, c⟩, ⟨4, b⟩, ⟨4, a⟩, ⟨4, d⟩, ⟨6, 56#6⟩, ⟨1, BitVec.ofBool sw⟩]) ?_ rfl ?_
  · show encNsendL sw d a b c = _
    simp only [encNsendL, mixB, b2n_eq, BitVec.toNat_ofNat, Nat.reducePow, Nat.reduceMod]; omega
  · intro wd hwd
    obtain ⟨s0, s9, s13, s17, s21, s25, s31⟩ := lay74 hwd
    rw [atMajor38 wd s25]; unfold decMajor38
    rw [s0]
    show leaf true (.nsendL (flag wd 31) (fld wd 21 4) (fld wd 17 4) (fld wd 13 4) (fld wd 9 4)) = _
    rw [s31, s21, s17, s13, s9]
    exact leaf_ok rfl hwf

theorem npost (sw : Bool) (a : BitVec 4) (c : BitVec 4) (r : BitVec 8) : Statement (.npost sw a c r) := by
  intro hwf _
  refine roundtrip (l := [⟨8, r⟩, ⟨1, 0#1⟩, ⟨4, c⟩, ⟨4, 0#4⟩, ⟨4, a⟩, ⟨4, 0#4⟩, ⟨6, 57#6⟩, ⟨1, BitVec.ofBool sw⟩]) ?_ rfl ?_
  · show encNpost sw a c r = _
    simp only [encNpost, mixB, b2n_eq, BitVec.toNat_ofNat, Nat.reducePow, Nat.reduceMod]; omega
  · intro wd hwd
    obtain ⟨s0, s8, s9, s13, s17, s21, s25, s31⟩ := lay80 hwd
    rw [atMajor39 wd s25]; unfold decMajor39
    show leaf (seg wd 21 4 == 0 && seg wd 13 4 == 0 && seg wd 8 1 == 0) (.npost (flag wd 31) (fld wd 17 4) (fld wd 9 4) (fld wd 0 8)) = _
    rw [s21, s13, s8, s31, s17, s9, s0]
    exact leaf_ok rfl hwf

theorem nrqstat (sw : Bool) (d : BitVec 4) (r : BitVec 8) : Statement (.nrqstat sw d r) := by
  intro hwf _
  refine roundtrip (l := [⟨8, r⟩, ⟨5, 0#5⟩, ⟨4, 0#4⟩, ⟨4, 0#4⟩, ⟨4, d⟩, ⟨6, 58#6⟩, ⟨1, BitVec.ofBool sw⟩]) ?_ rfl ?_
  · show encNrqstat sw d r = _
    simp only [encNrqstat, mixB, b2n_eq, BitVec.toNat_ofNat, Nat.reducePow, Nat.reduceMod]; omega
  · intro wd hwd
    obtain ⟨s0, s8, s13, s17, s21, s25, s31⟩ := lay81 hwd
    rw [atMajor3A wd s25]; unfold decMajor3A
    rw [s13]
    show leaf (seg wd 17 4 == 0 && seg wd 8 5 == 0) (.nrqstat (flag wd 31) (fld wd 21 4) (fld wd 0 8)) = _
    rw [s17, s8, s31, s21, s0]
    exact leaf_ok rfl hwf

theorem grpset (sw : Bool) (d : BitVec 4) (a : BitVec 4) : Statement (.grpset sw d a) := by
  intro hwf _
  refine roundtrip (l := [⟨13, 0#13⟩, ⟨4, 1#4⟩, ⟨4, a⟩, ⟨4, d⟩, ⟨6, 58#6⟩, ⟨1, BitVec.ofBool sw⟩]) ?_ rfl ?_
  · show encGrpset sw d a = _
    simp only [encGrpset, mixB, b2n_eq, BitVec.toNat_ofNat, Nat.reducePow, Nat.reduceMod]; omega
  · intro wd hwd
    obtain ⟨s0, s13, s17, s21, s25, s31⟩ := lay82 hwd
    rw [atMajor3A wd s25]; unfold decMajor3A
    rw [s13]
    show leaf (seg wd 0 13 == 0) (.grpset (flag wd 31) (fld wd 21 4) (fld wd 17 4)) = _
    rw [s0, s31, s21, s17]
    exact leaf_ok rfl hwf

theorem grpsetOwn (sw : Bool) (d : BitVec 4) (a : BitVec 4) : Statement (.grpsetOwn sw d a) := by
  intro hwf _
  refine roundtrip (l := [⟨13, 0#13⟩, ⟨4, 2#4⟩, ⟨4, a⟩, ⟨4, d⟩, ⟨6, 58#6⟩, ⟨1, BitVec.ofBool sw⟩]) ?_ rfl ?_
  · show encGrpsetOwn sw d a = _
    simp only [encGrpsetOwn, mixB, b2n_eq, BitVec.toNat_ofNat, Nat.reducePow, Nat.reduceMod]; omega
  · intro wd hwd
    obtain ⟨s0, s13, s17, s21, s25, s31⟩ := lay82 hwd
    rw [atMajor3A wd s25]; unfold decMajor3A
    rw [s13]
    show leaf (seg wd 0 13 == 0) (.grpsetOwn (flag wd 31) (fld wd 21 4) (fld wd 17 4)) = _
    rw [s0, s31, s21, s17]
    exact leaf_ok rfl hwf

theorem grpget (sw : Bool) (d : BitVec 4) (a : BitVec 4) : Statement (.grpget sw d a) := by
  intro hwf _
  refine roundtrip (l := [⟨13, 0#13⟩, ⟨4, 3#4⟩, ⟨4, a⟩, ⟨4, d⟩, ⟨6, 58#6⟩, ⟨1, BitVec.ofBool sw⟩]) ?_ rfl ?_
  · show encGrpget sw d a = _
    simp only [encGrpget, mixB, b2n_eq, BitVec.toNat_ofNat, Nat.reducePow, Nat.reduceMod]; omega
  · intro wd hwd
    obtain ⟨s0, s13, s17, s21, s25, s31⟩ := lay82 hwd
    rw [atMajor3A wd s25]; unfold decMajor3A
    rw [s13]
    show leaf (seg wd 0 13 == 0) (.grpget (flag wd 31) (fld wd 21 4) (fld wd 17 4)) = _
    rw [s0, s31, s21, s17]
    exact leaf_ok rfl hwf

theorem rtgate (sw : Bool) (a : BitVec 4) (b : BitVec 4) : Statement (.rtgate sw a b) := by
  intro hwf _
  refine roundtrip (l := [⟨5, 0#5⟩, ⟨8, 0#8⟩, ⟨4, b⟩, ⟨4, a⟩, ⟨4, 0#4⟩, ⟨6, 59#6⟩, ⟨1, BitVec.ofBool sw⟩]) ?_ rfl ?_
  · show encRtgate sw a b = _
    simp only [encRtgate, mixB, b2n_eq, BitVec.toNat_ofNat, Nat.reducePow, Nat.reduceMod]; omega
  · intro wd hwd
    obtain ⟨s0, s5, s13, s17, s21, s25, s31⟩ := lay26 hwd
    rw [atMajor3B wd s25]; unfold decMajor3B
    rw [s5]
    show leaf (seg wd 21 4 == 0 && seg wd 0 5 == 0) (.rtgate (flag wd 31) (fld wd 17 4) (fld wd 13 4)) = _
    rw [s21, s0, s31, s17, s13]
    exact leaf_ok rfl hwf

theorem rtflush (sw : Bool) : Statement (.rtflush sw) := by
  intro hwf _
  refine roundtrip (l := [⟨5, 0#5⟩, ⟨8, 1#8⟩, ⟨12, 0#12⟩, ⟨6, 59#6⟩, ⟨1, BitVec.ofBool sw⟩]) ?_ rfl ?_
  · show encRtflush sw = _
    simp only [encRtflush, mixB, b2n_eq, BitVec.toNat_ofNat, Nat.reducePow, Nat.reduceMod]; omega
  · intro wd hwd
    obtain ⟨s0, s5, s13, s25, s31⟩ := lay11 hwd
    rw [atMajor3B wd s25]; unfold decMajor3B
    rw [s5]
    show leaf (seg wd 13 12 == 0 && seg wd 0 5 == 0) (.rtflush (flag wd 31)) = _
    rw [s13, s0, s31]
    exact leaf_ok rfl hwf

theorem rtcfg (sw : Bool) (a : BitVec 4) : Statement (.rtcfg sw a) := by
  intro hwf _
  refine roundtrip (l := [⟨5, 0#5⟩, ⟨8, 2#8⟩, ⟨4, 0#4⟩, ⟨4, a⟩, ⟨4, 0#4⟩, ⟨6, 59#6⟩, ⟨1, BitVec.ofBool sw⟩]) ?_ rfl ?_
  · show encRtcfg sw a = _
    simp only [encRtcfg, mixB, b2n_eq, BitVec.toNat_ofNat, Nat.reducePow, Nat.reduceMod]; omega
  · intro wd hwd
    obtain ⟨s0, s5, s13, s17, s21, s25, s31⟩ := lay12 hwd
    rw [atMajor3B wd s25]; unfold decMajor3B
    rw [s5]
    show leaf (seg wd 21 4 == 0 && seg wd 13 4 == 0 && seg wd 0 5 == 0) (.rtcfg (flag wd 31) (fld wd 17 4)) = _
    rw [s21, s13, s0, s31, s17]
    exact leaf_ok rfl hwf

theorem rtbuf (sw : Bool) (d : BitVec 4) : Statement (.rtbuf sw d) := by
  intro hwf _
  refine roundtrip (l := [⟨5, 0#5⟩, ⟨8, 3#8⟩, ⟨8, 0#8⟩, ⟨4, d⟩, ⟨6, 59#6⟩, ⟨1, BitVec.ofBool sw⟩]) ?_ rfl ?_
  · show encRtbuf sw d = _
    simp only [encRtbuf, mixB, b2n_eq, BitVec.toNat_ofNat, Nat.reducePow, Nat.reduceMod]; omega
  · intro wd hwd
    obtain ⟨s0, s5, s13, s21, s25, s31⟩ := lay28 hwd
    rw [atMajor3B wd s25]; unfold decMajor3B
    rw [s5]
    show leaf (seg wd 13 8 == 0 && seg wd 0 5 == 0) (.rtbuf (flag wd 31) (fld wd 21 4)) = _
    rw [s13, s0, s31, s21]
    exact leaf_ok rfl hwf

theorem ertset (sw : Bool) (a : BitVec 4) (b : BitVec 4) : Statement (.ertset sw a b) := by
  intro hwf _
  refine roundtrip (l := [⟨5, 0#5⟩, ⟨8, 0#8⟩, ⟨4, b⟩, ⟨4, a⟩, ⟨4, 0#4⟩, ⟨6, 60#6⟩, ⟨1, BitVec.ofBool sw⟩]) ?_ rfl ?_
  · show encErtset sw a b = _
    simp only [encErtset, mixB, b2n_eq, BitVec.toNat_ofNat, Nat.reducePow, Nat.reduceMod]; omega
  · intro wd hwd
    obtain ⟨s0, s5, s13, s17, s21, s25, s31⟩ := lay26 hwd
    rw [atMajor3C wd s25]; unfold decMajor3C
    rw [s5]
    show leaf (seg wd 21 4 == 0 && seg wd 0 5 == 0) (.ertset (flag wd 31) (fld wd 17 4) (fld wd 13 4)) = _
    rw [s21, s0, s31, s17, s13]
    exact leaf_ok rfl hwf

theorem ertpin (sw : Bool) (a : BitVec 4) : Statement (.ertpin sw a) := by
  intro hwf _
  refine roundtrip (l := [⟨5, 0#5⟩, ⟨8, 1#8⟩, ⟨4, 0#4⟩, ⟨4, a⟩, ⟨4, 0#4⟩, ⟨6, 60#6⟩, ⟨1, BitVec.ofBool sw⟩]) ?_ rfl ?_
  · show encErtpin sw a = _
    simp only [encErtpin, mixB, b2n_eq, BitVec.toNat_ofNat, Nat.reducePow, Nat.reduceMod]; omega
  · intro wd hwd
    obtain ⟨s0, s5, s13, s17, s21, s25, s31⟩ := lay12 hwd
    rw [atMajor3C wd s25]; unfold decMajor3C
    rw [s5]
    show leaf (seg wd 21 4 == 0 && seg wd 13 4 == 0 && seg wd 0 5 == 0) (.ertpin (flag wd 31) (fld wd 17 4)) = _
    rw [s21, s13, s0, s31, s17]
    exact leaf_ok rfl hwf

theorem ertunpin (sw : Bool) (a : BitVec 4) : Statement (.ertunpin sw a) := by
  intro hwf _
  refine roundtrip (l := [⟨5, 0#5⟩, ⟨8, 2#8⟩, ⟨4, 0#4⟩, ⟨4, a⟩, ⟨4, 0#4⟩, ⟨6, 60#6⟩, ⟨1, BitVec.ofBool sw⟩]) ?_ rfl ?_
  · show encErtunpin sw a = _
    simp only [encErtunpin, mixB, b2n_eq, BitVec.toNat_ofNat, Nat.reducePow, Nat.reduceMod]; omega
  · intro wd hwd
    obtain ⟨s0, s5, s13, s17, s21, s25, s31⟩ := lay12 hwd
    rw [atMajor3C wd s25]; unfold decMajor3C
    rw [s5]
    show leaf (seg wd 21 4 == 0 && seg wd 13 4 == 0 && seg wd 0 5 == 0) (.ertunpin (flag wd 31) (fld wd 17 4)) = _
    rw [s21, s13, s0, s31, s17]
    exact leaf_ok rfl hwf

theorem ertq (sw : Bool) (d : BitVec 4) (a : BitVec 4) : Statement (.ertq sw d a) := by
  intro hwf _
  refine roundtrip (l := [⟨5, 0#5⟩, ⟨8, 3#8⟩, ⟨4, 0#4⟩, ⟨4, a⟩, ⟨4, d⟩, ⟨6, 60#6⟩, ⟨1, BitVec.ofBool sw⟩]) ?_ rfl ?_
  · show encErtq sw d a = _
    simp only [encErtq, mixB, b2n_eq, BitVec.toNat_ofNat, Nat.reducePow, Nat.reduceMod]; omega
  · intro wd hwd
    obtain ⟨s0, s5, s13, s17, s21, s25, s31⟩ := lay2 hwd
    rw [atMajor3C wd s25]; unfold decMajor3C
    rw [s5]
    show leaf (seg wd 13 4 == 0 && seg wd 0 5 == 0) (.ertq (flag wd 31) (fld wd 21 4) (fld wd 17 4)) = _
    rw [s13, s0, s31, s21, s17]
    exact leaf_ok rfl hwf

theorem sysc (sw : Bool) (imm : BitVec 13) : Statement (.sysc sw imm) := by
  intro hwf _
  refine roundtrip (l := [⟨13, imm⟩, ⟨4, 0#4⟩, ⟨8, 0#8⟩, ⟨6, 61#6⟩, ⟨1, BitVec.ofBool sw⟩]) ?_ rfl ?_
  · show encSysc sw imm = _
    simp only [encSysc, mixB, b2n_eq, BitVec.toNat_ofNat, Nat.reducePow, Nat.reduceMod]; omega
  · intro wd hwd
    obtain ⟨s0, s13, s17, s25, s31⟩ := lay78 hwd
    rw [atMajor3D wd s25]; unfold decMajor3D
    rw [s13]
    show leaf (seg wd 17 8 == 0) (.sysc (flag wd 31) (fld wd 0 13)) = _
    rw [s17, s31, s0]
    exact leaf_ok rfl hwf

theorem brk (sw : Bool) (imm : BitVec 13) : Statement (.brk sw imm) := by
  intro hwf _
  refine roundtrip (l := [⟨13, imm⟩, ⟨4, 1#4⟩, ⟨8, 0#8⟩, ⟨6, 61#6⟩, ⟨1, BitVec.ofBool sw⟩]) ?_ rfl ?_
  · show encBrk sw imm = _
    simp only [encBrk, mixB, b2n_eq, BitVec.toNat_ofNat, Nat.reducePow, Nat.reduceMod]; omega
  · intro wd hwd
    obtain ⟨s0, s13, s17, s25, s31⟩ := lay78 hwd
    rw [atMajor3D wd s25]; unfold decMajor3D
    rw [s13]
    show leaf (seg wd 17 8 == 0) (.brk (flag wd 31) (fld wd 0 13)) = _
    rw [s17, s31, s0]
    exact leaf_ok rfl hwf

theorem tret : Statement .tret := by
  intro hwf _
  refine roundtrip (l := [⟨13, 0#13⟩, ⟨4, 2#4⟩, ⟨8, 0#8⟩, ⟨6, 61#6⟩, ⟨1, 1#1⟩]) ?_ rfl ?_
  · show encTret = _
    simp only [encTret, mixB, BitVec.toNat_ofNat, Nat.reducePow, Nat.reduceMod]
  · intro wd hwd
    obtain ⟨s0, s13, s17, s25, s31⟩ := lay83 hwd
    rw [atMajor3D wd s25]; unfold decMajor3D
    rw [s13]
    show leaf (seg wd 31 1 == 1 && seg wd 17 8 == 0 && seg wd 0 13 == 0) .tret = _
    rw [s31, s17, s0]
    exact leaf_ok rfl hwf

theorem tlbgen (sw : Bool) (a : BitVec 4) : Statement (.tlbgen sw a) := by
  intro hwf _
  refine roundtrip (l := [⟨5, 0#5⟩, ⟨8, 0#8⟩, ⟨4, 0#4⟩, ⟨4, a⟩, ⟨4, 0#4⟩, ⟨6, 62#6⟩, ⟨1, BitVec.ofBool sw⟩]) ?_ rfl ?_
  · show encTlbgen sw a = _
    simp only [encTlbgen, mixB, b2n_eq, BitVec.toNat_ofNat, Nat.reducePow, Nat.reduceMod]; omega
  · intro wd hwd
    obtain ⟨s0, s5, s13, s17, s21, s25, s31⟩ := lay12 hwd
    rw [atMajor3E wd s25]; unfold decMajor3E
    rw [s5]
    show leaf (seg wd 21 4 == 0 && seg wd 13 4 == 0 && seg wd 0 5 == 0) (.tlbgen (flag wd 31) (fld wd 17 4)) = _
    rw [s21, s13, s0, s31, s17]
    exact leaf_ok rfl hwf

theorem tlbprobe (sw : Bool) (d : BitVec 4) (a : BitVec 4) : Statement (.tlbprobe sw d a) := by
  intro hwf _
  refine roundtrip (l := [⟨5, 0#5⟩, ⟨8, 1#8⟩, ⟨4, 0#4⟩, ⟨4, a⟩, ⟨4, d⟩, ⟨6, 62#6⟩, ⟨1, BitVec.ofBool sw⟩]) ?_ rfl ?_
  · show encTlbprobe sw d a = _
    simp only [encTlbprobe, mixB, b2n_eq, BitVec.toNat_ofNat, Nat.reducePow, Nat.reduceMod]; omega
  · intro wd hwd
    obtain ⟨s0, s5, s13, s17, s21, s25, s31⟩ := lay2 hwd
    rw [atMajor3E wd s25]; unfold decMajor3E
    rw [s5]
    show leaf (seg wd 13 4 == 0 && seg wd 0 5 == 0) (.tlbprobe (flag wd 31) (fld wd 21 4) (fld wd 17 4)) = _
    rw [s13, s0, s31, s21, s17]
    exact leaf_ok rfl hwf

theorem fltres (sw : Bool) (a : BitVec 4) : Statement (.fltres sw a) := by
  intro hwf _
  refine roundtrip (l := [⟨5, 0#5⟩, ⟨8, 2#8⟩, ⟨4, 0#4⟩, ⟨4, a⟩, ⟨4, 0#4⟩, ⟨6, 62#6⟩, ⟨1, BitVec.ofBool sw⟩]) ?_ rfl ?_
  · show encFltres sw a = _
    simp only [encFltres, mixB, b2n_eq, BitVec.toNat_ofNat, Nat.reducePow, Nat.reduceMod]; omega
  · intro wd hwd
    obtain ⟨s0, s5, s13, s17, s21, s25, s31⟩ := lay12 hwd
    rw [atMajor3E wd s25]; unfold decMajor3E
    rw [s5]
    show leaf (seg wd 21 4 == 0 && seg wd 13 4 == 0 && seg wd 0 5 == 0) (.fltres (flag wd 31) (fld wd 17 4)) = _
    rw [s21, s13, s0, s31, s17]
    exact leaf_ok rfl hwf

theorem ctxsave (sw : Bool) (a : BitVec 4) : Statement (.ctxsave sw a) := by
  intro hwf _
  refine roundtrip (l := [⟨5, 0#5⟩, ⟨8, 3#8⟩, ⟨4, 0#4⟩, ⟨4, a⟩, ⟨4, 0#4⟩, ⟨6, 62#6⟩, ⟨1, BitVec.ofBool sw⟩]) ?_ rfl ?_
  · show encCtxsave sw a = _
    simp only [encCtxsave, mixB, b2n_eq, BitVec.toNat_ofNat, Nat.reducePow, Nat.reduceMod]; omega
  · intro wd hwd
    obtain ⟨s0, s5, s13, s17, s21, s25, s31⟩ := lay12 hwd
    rw [atMajor3E wd s25]; unfold decMajor3E
    rw [s5]
    show leaf (seg wd 21 4 == 0 && seg wd 13 4 == 0 && seg wd 0 5 == 0) (.ctxsave (flag wd 31) (fld wd 17 4)) = _
    rw [s21, s13, s0, s31, s17]
    exact leaf_ok rfl hwf

theorem ctxrest (sw : Bool) (a : BitVec 4) : Statement (.ctxrest sw a) := by
  intro hwf _
  refine roundtrip (l := [⟨5, 0#5⟩, ⟨8, 4#8⟩, ⟨4, 0#4⟩, ⟨4, a⟩, ⟨4, 0#4⟩, ⟨6, 62#6⟩, ⟨1, BitVec.ofBool sw⟩]) ?_ rfl ?_
  · show encCtxrest sw a = _
    simp only [encCtxrest, mixB, b2n_eq, BitVec.toNat_ofNat, Nat.reducePow, Nat.reduceMod]; omega
  · intro wd hwd
    obtain ⟨s0, s5, s13, s17, s21, s25, s31⟩ := lay12 hwd
    rw [atMajor3E wd s25]; unfold decMajor3E
    rw [s5]
    show leaf (seg wd 21 4 == 0 && seg wd 13 4 == 0 && seg wd 0 5 == 0) (.ctxrest (flag wd 31) (fld wd 17 4)) = _
    rw [s21, s13, s0, s31, s17]
    exact leaf_ok rfl hwf

theorem groupClose (k : Nat) (c : Nat) : Statement (.groupClose k c) := fun _ h => nomatch h
theorem vectorPipeGrant (k : Nat) : Statement (.vectorPipeGrant k) := fun _ h => nomatch h
theorem admission (x : Nat) : Statement (.admission x) := fun _ h => nomatch h
theorem placedOffer (x : Nat) : Statement (.placedOffer x) := fun _ h => nomatch h
theorem ioDieIngress (m : Msg) : Statement (.ioDieIngress m) := fun _ h => nomatch h
theorem bulkPacketArrival (k : Nat) (x : BitVec 16) (p : Packet) : Statement (.bulkPacketArrival k x p) := fun _ h => nomatch h
theorem reassemblyTimeout (k : Nat) (x : Nat) : Statement (.reassemblyTimeout k x) := fun _ h => nomatch h
theorem admitMsg (t : Ctl) : Statement (.admitMsg t) := fun _ h => nomatch h
theorem retry (t : Ctl) : Statement (.retry t) := fun _ h => nomatch h
theorem nack (t : Ctl) : Statement (.nack t) := fun _ h => nomatch h
theorem outboundOffer (k : Nat) (x : Nat) : Statement (.outboundOffer k x) := fun _ h => nomatch h
theorem entryWordFill (k : Nat) (task : Nat) (pc : W64) : Statement (.entryWordFill k task pc) := fun _ h => nomatch h
theorem dispatch (k : Nat) : Statement (.dispatch k) := fun _ h => nomatch h
theorem watchdog (k : Nat) (c : Nat) : Statement (.watchdog k c) := fun _ h => nomatch h
theorem hostLaunchSubmit (va : W64) (asid : Nat) : Statement (.hostLaunchSubmit va asid) := fun _ h => nomatch h
theorem seedSend (task : Nat) : Statement (.seedSend task) := fun _ h => nomatch h
theorem autoend (task : Nat) : Statement (.autoend task) := fun _ h => nomatch h
theorem hostKill (task : Nat) : Statement (.hostKill task) := fun _ h => nomatch h
theorem scratchpadSave (k : Nat) (task : Nat) : Statement (.scratchpadSave k task) := fun _ h => nomatch h
theorem scratchpadRestore (k : Nat) (task : Nat) : Statement (.scratchpadRestore k task) := fun _ h => nomatch h
theorem eventOp (x : Nat) : Statement (.eventOp x) := fun _ h => nomatch h
theorem stealRequest (t : Steal) : Statement (.stealRequest t) := fun _ h => nomatch h
theorem stealAnswer (t : Steal) : Statement (.stealAnswer t) := fun _ h => nomatch h
theorem groupArrival (t : Arrival) : Statement (.groupArrival t) := fun _ h => nomatch h
theorem storeBufferDrain (k : Nat) (x : Nat) : Statement (.storeBufferDrain k x) := fun _ h => nomatch h
theorem memoryAgentRequest (x : Nat) : Statement (.memoryAgentRequest x) := fun _ h => nomatch h
theorem watchPeriodic (k : Nat) (c : Nat) : Statement (.watchPeriodic k c) := fun _ h => nomatch h
theorem waitwTimeout (k : Nat) (c : Nat) : Statement (.waitwTimeout k c) := fun _ h => nomatch h
theorem recvwTimeout (k : Nat) (c : Nat) : Statement (.recvwTimeout k c) := fun _ h => nomatch h
theorem walkComplete (die : Nat) (x : Nat) : Statement (.walkComplete die x) := fun _ h => nomatch h
theorem contextRestore (k : Nat) (x : Nat) : Statement (.contextRestore k x) := fun _ h => nomatch h
theorem tileStep (k : Nat) : Statement (.tileStep k) := fun _ h => nomatch h
theorem matrixReadout (k : Nat) : Statement (.matrixReadout k) := fun _ h => nomatch h
theorem matrixListReadout (k : Nat) : Statement (.matrixListReadout k) := fun _ h => nomatch h
theorem slotReset (k : Nat) : Statement (.slotReset k) := fun _ h => nomatch h
theorem gatherLatchFill (k : Nat) : Statement (.gatherLatchFill k) := fun _ h => nomatch h
theorem gbTileArrival (k : Nat) : Statement (.gbTileArrival k) := fun _ h => nomatch h
theorem completionActions (k : Nat) (eng : Nat) (num : Nat) : Statement (.completionActions k eng num) := fun _ h => nomatch h
theorem copyExecute (k : Nat) : Statement (.copyExecute k) := fun _ h => nomatch h
theorem remoteCopyExecute (k : Nat) : Statement (.remoteCopyExecute k) := fun _ h => nomatch h
theorem credExecute (k : Nat) : Statement (.credExecute k) := fun _ h => nomatch h
theorem reductionContribution (t : RedMsg) : Statement (.reductionContribution t) := fun _ h => nomatch h
theorem catomExecute (k : Nat) : Statement (.catomExecute k) := fun _ h => nomatch h
theorem cmcExecute (k : Nat) : Statement (.cmcExecute k) := fun _ h => nomatch h
theorem multicastMemberWrite (t : CmcLine) : Statement (.multicastMemberWrite t) := fun _ h => nomatch h
theorem multicastResponse (t : CmcResp) : Statement (.multicastResponse t) := fun _ h => nomatch h
theorem multicastResponseTimeout (x : Nat) : Statement (.multicastResponseTimeout x) := fun _ h => nomatch h
theorem cstorExecute (k : Nat) : Statement (.cstorExecute k) := fun _ h => nomatch h
theorem nvmeCompletion (x : Nat) (status : Nat) (data : List Byte) : Statement (.nvmeCompletion x status data) := fun _ h => nomatch h
theorem cdtabExecute (k : Nat) : Statement (.cdtabExecute k) := fun _ h => nomatch h
theorem cdecExecute (k : Nat) : Statement (.cdecExecute k) := fun _ h => nomatch h
theorem remoteTransaction (t : FabTx) : Statement (.remoteTransaction t) := fun _ h => nomatch h
theorem transactionReissue (x : Nat) : Statement (.transactionReissue x) := fun _ h => nomatch h
theorem fabricUnreachable (x : Nat) : Statement (.fabricUnreachable x) := fun _ h => nomatch h
theorem flitArrival (port : Nat) (r : FlitResult) : Statement (.flitArrival port r) := fun _ h => nomatch h
theorem healthAgeing : Statement .healthAgeing := fun _ h => nomatch h
theorem portRetrainComplete (port : Nat) (ok : Bool) : Statement (.portRetrainComplete port ok) := fun _ h => nomatch h
theorem netSendExecute (k : Nat) : Statement (.netSendExecute k) := fun _ h => nomatch h
theorem ueOmfPacket (u : UeUnit) : Statement (.ueOmfPacket u) := fun _ h => nomatch h
theorem ueSendData (u : UeUnit) : Statement (.ueSendData u) := fun _ h => nomatch h
theorem ueAcknowledgement (u : UeUnit) : Statement (.ueAcknowledgement u) := fun _ h => nomatch h
theorem ueReceiverNotReady (u : UeUnit) : Statement (.ueReceiverNotReady u) := fun _ h => nomatch h
theorem ueClose (u : UeUnit) : Statement (.ueClose u) := fun _ h => nomatch h
theorem ueCloseAnswer (u : UeUnit) : Statement (.ueCloseAnswer u) := fun _ h => nomatch h
theorem ueRetransmit (x : Nat) : Statement (.ueRetransmit x) := fun _ h => nomatch h
theorem ueRnrReoffer (x : Nat) : Statement (.ueRnrReoffer x) := fun _ h => nomatch h
theorem ueNobufTimeout (x : Nat) : Statement (.ueNobufTimeout x) := fun _ h => nomatch h
theorem routeGateExecute (k : Nat) : Statement (.routeGateExecute k) := fun _ h => nomatch h
theorem sendListTimeout (die : Nat) (x : Nat) : Statement (.sendListTimeout die x) := fun _ h => nomatch h
theorem routeFlushExecute (k : Nat) : Statement (.routeFlushExecute k) := fun _ h => nomatch h
theorem ingressTransfer (die : Nat) : Statement (.ingressTransfer die) := fun _ h => nomatch h
theorem bufferTimeout (die : Nat) (e : Nat) : Statement (.bufferTimeout die e) := fun _ h => nomatch h
theorem fetchComplete (die : Nat) (e : Nat) : Statement (.fetchComplete die e) := fun _ h => nomatch h
theorem fetchFail (die : Nat) (e : Nat) : Statement (.fetchFail die e) := fun _ h => nomatch h
theorem freqAgeing (die : Nat) : Statement (.freqAgeing die) := fun _ h => nomatch h
theorem dbgHalt (k : Nat) : Statement (.dbgHalt k) := fun _ h => nomatch h
theorem dbgDrain (k : Nat) (task : Nat) : Statement (.dbgDrain k task) := fun _ h => nomatch h
theorem drainComplete (k : Nat) : Statement (.drainComplete k) := fun _ h => nomatch h
theorem hostApertureAccess (ap : Nat) (off : Nat) (write : Bool) (data : List Byte) : Statement (.hostApertureAccess ap off write data) := fun _ h => nomatch h
theorem watchTableArm (x : Nat) (w2 : W64) : Statement (.watchTableArm x w2) := fun _ h => nomatch h
theorem hostRegisterWrite (r : HostReg) : Statement (.hostRegisterWrite r) := fun _ h => nomatch h
theorem driveGrant (h : Nat) (block : Namespace) : Statement (.driveGrant h block) := fun _ h => nomatch h
theorem driveRevoke (h : Nat) : Statement (.driveRevoke h) := fun _ h => nomatch h
theorem deviceReset : Statement .deviceReset := fun _ h => nomatch h
theorem powerOn (r : BootReport) : Statement (.powerOn r) := fun _ h => nomatch h
theorem recoveryImageWrite (image : List Byte) (r : BootReport) : Statement (.recoveryImageWrite image r) := fun _ h => nomatch h
theorem spdmGetMeasurements (x : Nat) : Statement (.spdmGetMeasurements x) := fun _ h => nomatch h
theorem thermalLimit (die : Nat) : Statement (.thermalLimit die) := fun _ h => nomatch h
theorem monitorSample (die : Nat) (x : Nat) (value : Nat) : Statement (.monitorSample die x value) := fun _ h => nomatch h
theorem illegalWord (w : W32) (held : Bool) : Statement (.illegalWord w held) := fun _ h => nomatch h
theorem linkLoss (port : Nat) : Statement (.linkLoss port) := fun _ h => nomatch h
theorem switchTierDeparture (x : Nat) : Statement (.switchTierDeparture x) := fun _ h => nomatch h
theorem temperatureFallsBack (die : Nat) : Statement (.temperatureFallsBack die) := fun _ h => nomatch h
theorem powerLoss (step : Nat) : Statement (.powerLoss step) := fun _ h => nomatch h

end Sys2Proof.Laws.Roundtrip
end

