-- ==== Sys2Proof/Laws/Post.lean ====
section
/-! SUPPORT. What the shared post of an engine command can do, and the status of an instruction (05 R117, 12 R270). -/
set_option Elab.async false
namespace Sys2Proof.Machine

/-- An instruction that only reports a status. -/
theorem status_issued (sw : Bool) (code : Nat) (s : State) : status sw code s = issued sw [.slast code] s := rfl

/-- An instruction that writes wd and reports a status. -/
theorem status_writeW (sw : Bool) (code : Nat) (d : BitVec 4) (v : W64) (s : State) :
    status sw code (writeW d v s) = issued sw [.gpr d v, .slast code] s := finish_put_put sw (.gpr d v) (.slast code) s

/-- A credit taken leaves the context alone. -/
@[simp] theorem takeCredit_ctx (n : Nat) (s : State) : (takeCredit n s).ctx = s.ctx := rfl

/-- A command that enters a queue leaves the context, memory and scratchpad alone. -/
theorem pushCmd_frame (k eng : Nat) (q : Cmd) (s : State) :
    (pushCmd k eng q s).ctx = s.ctx ∧ (pushCmd k eng q s).mem = s.mem ∧ (pushCmd k eng q s).launches = s.launches :=
  have h := updCore_frame k (fun c =>
    { c.setQueue eng (c.queue eng ++ [q]) with
      tls := c.tls.set (tlIx eng).val { c.tls.get (tlIx eng) with issued := q.num } (tlIx eng).isLt }) s
  ⟨h.1, h.2.1, h.2.2.1⟩

/-- Replacing a queue replaces that queue. -/
@[simp] theorem queue_setQueue (c : Core) (eng : Nat) (q : List Cmd) : (c.setQueue eng q).queue eng = q := by
  unfold Core.setQueue Core.queue
  split <;> simp_all

/-- The post: a window that is short refuses it, a full queue holds it, and otherwise the command enters (12 R270). -/
theorem postEngine_short (sw : Bool) (d : BitVec 4) (eng : Nat) (op : CmdOp) (wc wc1 : W64) (cr : Nat)
    (b : Option (Nat × W64)) (s : State) (hr : wcReply wc = true) (hw : myOwe s + 1 > (myLaunch s).window) :
    postEngine sw d eng op wc wc1 cr b s = issued sw [.gpr d 0, .slast stWindow] s := by
  unfold postEngine
  rw [if_pos (by simp [hr, hw])]
  exact status_writeW _ _ _ _ _

theorem postEngine_full (sw : Bool) (d : BitVec 4) (eng : Nat) (op : CmdOp) (wc wc1 : W64) (cr : Nat)
    (b : Option (Nat × W64)) (s : State) (hr : ¬ (wcReply wc = true ∧ myOwe s + 1 > (myLaunch s).window))
    (hq : 16 ≤ (s.core.queue eng).length) : postEngine sw d eng op wc wc1 cr b s = wait (.queue eng) s := by
  unfold postEngine
  rw [if_neg (by simpa using hr), if_pos hq]

theorem postEngine_enters (sw : Bool) (d : BitVec 4) (eng : Nat) (op : CmdOp) (wc wc1 : W64) (cr : Nat)
    (b : Option (Nat × W64)) (s : State) (hr : ¬ (wcReply wc = true ∧ myOwe s + 1 > (myLaunch s).window))
    (hq : (s.core.queue eng).length < 16) :
    postEngine sw d eng op wc wc1 cr b s =
      issued sw [.gpr d (w64 (nextNum s.core eng)), .slast stOk]
        (let e := pushCmd s.core.id eng (mkCmd s op wc wc1 cr (nextNum s.core eng) b) s
         if wcReply wc = true then takeCredit 1 e else e) := by
  unfold postEngine
  rw [if_neg (by simpa using hr), if_neg (by omega)]
  exact status_writeW _ _ _ _ _

/-- The checks of a completion descriptor pass, or name the trap. -/
theorem wcChecked_ok (wc : W64) (k : State → State) (s : State) (hl : wcLegal wc = true) (hb : wcBoff wc % 16 = 0)
    (hs : wcSoff wc % 8 = 0) : wcChecked wc k s = k s := by
  have lt : ∀ n m, (w64 (bits wc n m)).toNat = bits wc n m := by
    intro n m
    simp only [w64, BitVec.toNat_ofNat]
    exact Nat.mod_eq_of_lt (Nat.lt_of_le_of_lt (Nat.mod_le _ _) (Nat.lt_of_le_of_lt (Nat.div_le_self _ _) wc.isLt))
  unfold wcChecked
  rw [hl, legal_true, aligned_ok _ _ _ _ (by rw [wcBoff, lt]; exact hb), aligned_ok _ _ _ _ (by rw [wcSoff, lt]; exact hs)]

end Sys2Proof.Machine
end

