-- ==== Sys2Proof/Laws/Step.lean ====
section
/-! SUPPORT. What a step can do, said once; the clk behind it; what placing an instruction leaves. -/
set_option Elab.async false
namespace Sys2Proof.Machine

/-- What an instruction and the clk behind it answer. -/
theorem after_next (f : State → State) (r : Host.Outcome State Fault Refusal) (t : State) :
    after f r = .next t ↔ ∃ u, r = .next u ∧ t = tickOver (f u) := by
  cases r <;> simp [after, eq_comm]

/-- A turn of a core: a state as the issue left it, or an instruction carried out. -/
theorem turn_next (x : Turn) (t : State) : turn x = .next t ↔
    (∃ u, x = .rest u ∧ t = tickOver u) ∨ ∃ i u v, x = .run i u ∧ exec i u = .next v ∧ t = tickOver v := by
  cases x with
  | rest u => simp [turn, eq_comm]
  | run i u =>
    simp only [turn, after_next, id]
    constructor
    · rintro ⟨v, hv, ht⟩; exact .inr ⟨i, u, v, rfl, hv, ht⟩
    · rintro (⟨v, hv, _⟩ | ⟨j, v, x, hv, hx, ht⟩)
      · cases hv
      · cases hv; exact ⟨x, hx, ht⟩

/-- A step is what its choice comes to, with the choices that it passed over noted. -/
theorem step_next (s t : State) : step s = .next t ↔ ∃ u, act (chosen s) s = .next u ∧ t = noteWaits (chosen s) u := by
  unfold step noted
  cases act (chosen s) s <;> simp [eq_comm]

/-- Noting them changes nothing else. -/
theorem noteWaits_frame (c : Choice) (s : State) : ∃ ws, noteWaits c s = { s with waits := ws } := by
  unfold noteWaits
  split
  · exact ⟨s.waits, rfl⟩
  · exact ⟨_, rfl⟩

/-- Noting them keeps memories canonical. -/
theorem noteWaits_canonical (c : Choice) (s : State) (h : Canonical s) : Canonical (noteWaits c s) := by
  obtain ⟨ws, e⟩ := noteWaits_frame c s
  rw [e]; exact h

/-- Everything that a choice can come to: an input is lost on a device that does not take it, an input lands, an agent moves, a core
issues, or a clk passes. -/
theorem act_cases (c : Choice) (s t : State) (h : act c s = .next t) :
    (∃ n i, c = .input n i ∧ takesInput s i = false ∧ t = tickOver { s with inputs := s.inputs.eraseIdx n }) ∨
    (∃ n i u, c = .input n i ∧ takesInput s i = true ∧ exec i { s with inputs := s.inputs.eraseIdx n } = .next u ∧
      t = tickOver (if inputStays u i then { u with inputs := u.inputs.insertIdx n i } else u)) ∨
    (∃ i u, c = .agent i ∧ exec i s = .next u ∧ t = tickOver u) ∨
    (∃ k u, c = .core k ∧ coreTurn k s = .rest u ∧ t = tickOver u) ∨
    (∃ k i u v, c = .core k ∧ coreTurn k s = .run i u ∧ exec i u = .next v ∧ t = tickOver v) ∨
    (c = .idle ∧ t = tickOver s) := by
  unfold act at h
  split at h
  · rename_i n i
    unfold land at h
    split at h
    · rename_i hl
      exact .inl ⟨n, i, rfl, by simpa using hl, by simpa [eq_comm] using h⟩
    · rename_i hl
      obtain ⟨u, hu, ht⟩ := (after_next _ _ _).1 h
      exact .inr (.inl ⟨n, i, u, rfl, by simpa using hl, hu, ht⟩)
  · rename_i i
    obtain ⟨u, hu, ht⟩ := (after_next _ _ _).1 h
    exact .inr (.inr (.inl ⟨i, u, rfl, hu, ht⟩))
  · rename_i k
    rcases (turn_next _ _).1 h with ⟨u, hu, ht⟩ | ⟨i, u, v, hu, hv, ht⟩
    · exact .inr (.inr (.inr (.inl ⟨k, u, rfl, hu, ht⟩)))
    · exact .inr (.inr (.inr (.inr (.inl ⟨k, i, u, v, rfl, hu, hv, ht⟩))))
  · exact .inr (.inr (.inr (.inr (.inr ⟨rfl, by simpa [eq_comm] using h⟩))))

/-- The scratchpad and the number of every core are those before the clk. -/
theorem shiftCore_same (s : State) (c : Core) : (shiftCore s c).spad = c.spad ∧ (shiftCore s c).id = c.id := by
  unfold shiftCore; split <;> exact ⟨rfl, rfl⟩

/-- Samples of the monitors change the host's side alone. -/
theorem sample_frame (src die : Nat) (core : Option Nat) (v : Nat) (s : State) :
    ∃ h, sample src die core v s = { s with host := h } := by
  unfold sample
  split
  · exact ⟨s.host, rfl⟩
  · exact ⟨_, rfl⟩

theorem sampleOccupancy_frame (s : State) : ∃ h, sampleOccupancy s = { s with host := h } := by
  have go : ∀ (l : List Nat) (u : State), ∃ h, l.foldl sampleCore u = { u with host := h } := by
    intro l
    induction l with
    | nil => exact fun u => ⟨u.host, rfl⟩
    | cons k r ih =>
      intro u
      obtain ⟨h1, e1⟩ := sample_frame 2 (coreDie k) (some k) (lowCount (coreOf u k) true) u
      obtain ⟨h2, e2⟩ := sample_frame 3 (coreDie k) (some k) (highCount (coreOf u k) true) { u with host := h1 }
      obtain ⟨h, e⟩ := ih (sampleCore u k)
      refine ⟨h, ?_⟩
      rw [List.foldl_cons, e]
      simp only [sampleCore, e1, e2]
  unfold sampleOccupancy
  split
  · exact go _ s
  · exact ⟨s.host, rfl⟩

/-- The clk behind a step changes no memory, no scratchpad and no queue. -/
theorem tickOver_frame (s : State) :
    (tickOver s).mem = s.mem ∧ (tickOver s).core.spad = s.core.spad ∧ (tickOver s).core.id = s.core.id ∧
    (tickOver s).launches = s.launches ∧ (tickOver s).retorts = s.retorts ∧ (tickOver s).inputs = s.inputs ∧
    (tickOver s).egress = s.egress ∧ (tickOver s).clk = s.clk + 1 ∧ (tickOver s).tick = s.tick + 1 := by
  obtain ⟨h, e⟩ := sampleOccupancy_frame s
  simp only [tickOver, e]
  split
  · exact ⟨rfl, (shiftCore_same _ _).1, (shiftCore_same _ _).2, rfl, rfl, rfl, rfl, rfl, rfl⟩
  · exact ⟨rfl, rfl, rfl, rfl, rfl, rfl, rfl, rfl, rfl⟩

/-- The clk keeps memories canonical. -/
theorem tickOver_canonical (s : State) (h : Canonical s) : Canonical (tickOver s) := by
  obtain ⟨h1, h2, h3⟩ := h
  have f := tickOver_frame s
  refine ⟨f.1 ▸ h1, f.2.1 ▸ h2, ?_⟩
  have go : ∀ (u : State) (l : List (Nat × Core)), (∀ p ∈ l, Memory.wf p.2.spad = true) →
      ∀ p ∈ l.map (fun p => (p.1, shiftCore u p.2)), Memory.wf p.2.spad = true := by
    intro u l hl p hp
    obtain ⟨q, hq, rfl⟩ := List.mem_map.1 hp
    show Memory.wf (shiftCore u q.2).spad = true
    rw [(shiftCore_same u q.2).1]; exact hl q hq
  obtain ⟨h, e⟩ := sampleOccupancy_frame s
  simp only [tickOver, e]
  split
  · exact go _ _ h3
  · exact go _ _ h3

/-- Placing an instruction keeps memory canonical. -/
theorem placeWord_canonical (w : W32) (s : State) (h : Memory.wf s.mem = true) : Memory.wf (placeWord w s).mem = true :=
  memWrite_wf _ _ _ h

/-- Placing an instruction leaves the pc and the registers of the context. -/
theorem placeWord_frame (w : W32) (s : State) :
    (placeWord w s).ctx.pc = s.ctx.pc ∧ (placeWord w s).ctx.stack = s.ctx.stack ∧ (placeWord w s).ctx.trap = s.ctx.trap ∧
    (placeWord w s).ctx.status = .ready ∧ (placeWord w s).launches = s.launches ∧
    (placeWord w s).core.spad = s.core.spad := ⟨rfl, rfl, rfl, rfl, rfl, rfl⟩

end Sys2Proof.Machine
end

