-- ==== Sys2Proof/Tests/Slice0.lean ====
section
/-! SUPPORT. Tests. The expected words are written out from the encoding tables of the class chapters; the expected results
are worked by hand from the rules. The `hyp` tests show that the hypotheses of a statement can be met. -/
namespace Sys2Proof.Tests
open Sys2Proof Sys2Proof.Machine
set_option Elab.async false

/-! ## Ill-formed instructions: a term for each check of WellFormed, refused -/

theorem test_wf_shift_amount :
    (Instr.shli false 1 2 64).wf = false ∧ (Instr.shri false 1 2 64).wf = false ∧ (Instr.sari false 1 2 64).wf = false := by
  decide
theorem test_wf_bit_field :
    (Instr.bfx false 1 2 1 63).wf = false ∧ (Instr.bfxS false 1 2 63 1).wf = false ∧ (Instr.bfi false 1 2 32 32).wf = false := by
  decide
theorem test_wf_special_register : (Instr.mfs false 1 0x11).wf = false ∧ (Instr.mts false 1 0xAF).wf = false := by decide
theorem test_wf_rounding_mode : (Instr.hxRnd 5).wf = false := by decide
theorem test_wf_message_words :
    (Instr.send false 1 2 4 13).wf = false ∧ (Instr.sendRq false 1 2 0 17).wf = false ∧ (Instr.reply false 3 0).wf = false := by
  decide
theorem test_wf_event_words :
    (Instr.evsend false 1 2 9 3).wf = false ∧ (Instr.pushw false 13).wf = false ∧ (Instr.popw false 13).wf = false ∧
    (Instr.sgrp false 1 12).wf = false := by decide
theorem test_wf_block_moves :
    (Instr.bmovG2l 1 1 2).wf = false ∧ (Instr.bmovL2g 1 2 1).wf = false ∧ (Instr.bfillG 2 1 1).wf = false ∧
    (Instr.bfillL 3 3 3).wf = false := by decide
theorem test_wf_fence_kinds : (Instr.fence false ⟨1, 0⟩ ()).wf = false := by decide
theorem test_wf_vector_type :
    (Instr.vadd false 1 2 3 0 3).wf = false ∧ (Instr.vsub false 1 2 3 0 3).wf = false ∧ (Instr.vmul false 1 2 3 0 3).wf = false ∧
    (Instr.vdiv false 1 2 3 0 3).wf = false ∧ (Instr.vmin false 1 2 3 0 3).wf = false ∧ (Instr.vmax false 1 2 3 0 3).wf = false ∧
    (Instr.vfma false 1 2 3 0 3).wf = false ∧ (Instr.vfms false 1 2 3 0 3).wf = false ∧ (Instr.vfnma false 1 2 3 0 3).wf = false ∧
    (Instr.vabs false 1 2 0 3).wf = false ∧ (Instr.vneg false 1 2 0 3).wf = false ∧ (Instr.vsqrt false 1 2 0 3).wf = false ∧
    (Instr.vexp2 false 1 2 0 3).wf = false ∧ (Instr.vlog2 false 1 2 0 3).wf = false := by decide
theorem test_wf_vector_width :
    (Instr.viadd false 1 2 3 0 3).wf = false ∧ (Instr.visub false 1 2 3 0 3).wf = false ∧ (Instr.vimul false 1 2 3 0 3).wf = false ∧
    (Instr.vimulh false 1 2 3 0 3).wf = false ∧ (Instr.vimin false 1 2 3 0 3).wf = false ∧ (Instr.vimax false 1 2 3 0 3).wf = false ∧
    (Instr.vand false 1 2 3 0 3).wf = false ∧ (Instr.vor false 1 2 3 0 3).wf = false ∧ (Instr.vxor false 1 2 3 0 3).wf = false ∧
    (Instr.vshl false 1 2 3 0 3).wf = false ∧ (Instr.vshr false 1 2 3 0 3).wf = false ∧ (Instr.vsar false 1 2 3 0 3).wf = false := by
  decide
theorem test_wf_conversions :
    (Instr.vcvt false 1 2 0 0 1 0).wf = false ∧ (Instr.vcvt false 1 2 1 0 1 1).wf = false ∧
    (Instr.vquant false 1 2 0 0 1 1 0).wf = false ∧ (Instr.vquantFix false 1 2 3 0 4 0 0).wf = false ∧
    (Instr.vdeq false 1 2 0 0 2 1 2).wf = false ∧ (Instr.vbmax false 1 2 0 0).wf = false ∧
    (Instr.vscale false 1 2 2 0).wf = false := by decide
theorem test_wf_masks :
    (Instr.mand false 0 1 2).wf = false ∧ (Instr.mor false 0 1 2).wf = false ∧ (Instr.mnot false 0 1).wf = false ∧
    (Instr.vcmp false 0 1 2 0 0 0).wf = false ∧ (Instr.vcmp false 1 1 2 0 6 0).wf = false ∧
    (Instr.vcmp false 1 1 2 0 3 6).wf = false ∧ (Instr.rlprune false 0 1 2 0).wf = false := by decide
theorem test_wf_reductions :
    (Instr.vredAdd false 1 2 0 3).wf = false ∧ (Instr.vredMax false 1 2 0 3).wf = false ∧ (Instr.vredMin false 1 2 0 3).wf = false ∧
    (Instr.vscanAdd false 1 2 0 3).wf = false := by decide
theorem test_wf_ranked_lists :
    (Instr.rlmerge false 1 1).wf = false ∧ (Instr.rlinit false 0 0).wf = false ∧ (Instr.rlinit false 65 0).wf = false ∧
    (Instr.rlsend false 1 15 0).wf = false := by decide
theorem test_wf_pairs :
    (Instr.mma false 1 2 3 5 0 0 0 0).wf = false ∧ (Instr.mma false 1 2 15 4 0 0 1 0).wf = false ∧
    (Instr.cpyG2l false 1 2 3 5).wf = false ∧ (Instr.credAdd false 1 2 3 5).wf = false ∧ (Instr.catomAdd false 1 2 3 5 0).wf = false ∧
    (Instr.catomCas false 1 2 15 4 0).wf = false ∧ (Instr.cdec false 1 2 3 5).wf = false ∧ (Instr.nsendG false 1 2 3 5).wf = false ∧
    (Instr.npost false 1 4 0).wf = false ∧ (Instr.npost false 2 5 0).wf = false := by decide
theorem test_wf_batches : (Instr.cwaitn false 65).wf = false := by decide

/-! ## Words written out from the encodings decode to their instructions, family by family -/

theorem test_decode_alu : decode 0x02266000 = .ok (.add false 1 3 3) := rfl
theorem test_decode_immediate : decode 0x07040000 = .ok (.addi false 8 2 0) := rfl
theorem test_decode_call : decode 0x14000003 = .ok (.call false 3) := rfl
theorem test_decode_send_rq : decode 0xA08A0101 = .ok (.sendRq true 4 5 0 1) := rfl
theorem test_decode_load : decode 0xB040C000 = .ok (.ldgD true 2 0 0) := rfl
theorem test_decode_store : decode 0x30416000 = .ok (.stgD false 2 0 0) := rfl
theorem test_decode_vector_load : decode 0x34320202 = .ok (.vldl false 3 2 0 2) := rfl
theorem test_decode_block_move : decode 0xB88AC000 = .ok (.bmovG2l 4 5 6) := rfl
theorem test_decode_atomic : decode 0x3A68A200 = .ok (.amogAdd false 3 4 5 1) := rfl
theorem test_decode_fence_sys : decode 0x3E00006F = .ok (.fence false ⟨3, 15⟩ ()) := rfl
theorem test_decode_fence_die_store_load : decode 0x3E000024 = .ok (.fence false ⟨1, 4⟩ ()) := rfl
theorem test_decode_tlwait : decode 0x3E0A0081 = .ok (.tlwait false 5 1) := rfl
theorem test_decode_barrive : decode 0xBC060040 = .ok (.barrive true 3) := rfl
theorem test_decode_bwait : decode 0xBC068060 = .ok (.bwait true 3 4) := rfl
theorem test_decode_fma : decode 0x40200406 = .ok (.vfma false 2 0 1 0 0) := rfl
theorem test_decode_vadd_bf16 : decode 0xC03214A0 = .ok (.vadd true 3 4 5 1 1) := rfl
theorem test_decode_vcmp : decode 0x4C119042 = .ok (.vcmp false 1 3 4 0 0 2) := rfl
theorem test_decode_vdist : decode 0x4E60A008 = .ok (.vdistIp false 6 1 4 0) := rfl
theorem test_decode_rlinit : decode 0xD2000010 = .ok (.rlinit true 4 0) := rfl
theorem test_decode_rlins : decode 0xD0008880 = .ok (.rlins true 0 1 2 1) := rfl
theorem test_decode_rlmerge : decode 0xD0008003 = .ok (.rlmerge true 0 1) := rfl
theorem test_decode_mmrank : decode 0xDC00000D = .ok (.mmrank true 1 1) := rfl
theorem test_decode_mma : decode 0xD868D019 = .ok (.mma true 3 4 6 8 0 1 1 1) := rfl
theorem test_decode_mmr : decode 0xDA4E0C10 = .ok (.mmr true 2 7 6 1 0 0) := rfl
theorem test_decode_sete : decode 0x5E0A0042 = .ok (.sete false 5 2) := rfl
theorem test_decode_tilexy : decode 0xDE600000 = .ok (.tilexy true 3) := rfl
theorem test_decode_cpy : decode 0xE48AD000 = .ok (.cpyG2l true 4 5 6 8) := rfl
theorem test_decode_cdtab : decode 0x6C8A1001 = .ok (.cdtab false 4 5 8) := rfl
theorem test_decode_cdec : decode 0xECCF3400 = .ok (.cdec true 6 7 9 10) := rfl
theorem test_decode_cseal : decode 0x6E604000 = .ok (.cseal false 3) := rfl
theorem test_decode_cwaitn : decode 0xEE006000 = .ok (.cwaitn true 0) := rfl
theorem test_decode_schadv : decode 0x6E000001 = .ok (.schadv false 1) := rfl
theorem test_decode_nsend : decode 0xF08AD000 = .ok (.nsendG true 4 5 6 8) := rfl
theorem test_decode_npost : decode 0x720C1403 = .ok (.npost false 6 10 3) := rfl
theorem test_decode_nrqstat : decode 0x74400003 = .ok (.nrqstat false 2 3) := rfl
theorem test_decode_grpset : decode 0x74A82000 = .ok (.grpset false 5 4) := rfl
theorem test_decode_grpget : decode 0x74686000 = .ok (.grpget false 3 4) := rfl
theorem test_decode_rtgate : decode 0x7608A000 = .ok (.rtgate false 4 5) := rfl
theorem test_decode_rtflush : decode 0xF6000020 = .ok (.rtflush true) := rfl
theorem test_decode_rtcfg : decode 0x76040040 = .ok (.rtcfg false 2) := rfl
theorem test_decode_rtbuf : decode 0xF6200060 = .ok (.rtbuf true 1) := rfl
theorem test_decode_ertset : decode 0x7808A000 = .ok (.ertset false 4 5) := rfl
theorem test_decode_ertpin : decode 0x78080020 = .ok (.ertpin false 4) := rfl
theorem test_decode_ertq : decode 0x78680060 = .ok (.ertq false 3 4) := rfl
theorem test_decode_sysc : decode 0x7A000005 = .ok (.sysc false 5) := rfl
theorem test_decode_brk : decode 0x7A002003 = .ok (.brk false 3) := rfl
theorem test_decode_tret : decode 0xFA004000 = .ok (.tret) := rfl
theorem test_decode_tlbgen : decode 0x7C080000 = .ok (.tlbgen false 4) := rfl
theorem test_decode_tlbprobe : decode 0x7C680020 = .ok (.tlbprobe false 3 4) := rfl
theorem test_decode_fltres : decode 0x7C080040 = .ok (.fltres false 4) := rfl
theorem test_decode_ctxsave : decode 0x7C080060 = .ok (.ctxsave false 4) := rfl
theorem test_decode_ctxrest : decode 0x7C080080 = .ok (.ctxrest false 4) := rfl

/-! ## Words that no row has are refused by name -/

theorem test_decode_reserved_major : decode 0x00000000 = .error .reservedMajor := rfl
theorem test_decode_reserved_field : decode 0x02266001 = .error .reservedField := rfl
theorem test_decode_reserved_bit : decode 0x02266010 = .error .reservedField := rfl
theorem test_decode_unassigned : decode 0x02266380 = .error .unassigned := rfl

/-! ## Small states -/

/-- A launch of task 5 on core (0, 0), with a window of 4. -/
def launch5 : Launch :=
  { task := 5, cls := 2, ox := 0, oy := 0, logw := 0, logh := 0, limit := 30, image := 0, logspad := 12, lowq := 1,
    window := 4, inbase := 0x4000, inlog := 10, outlog := 10, stack := 0x8000, events := 0xC000, eventlog := 8, seeds := 0,
    seedn := 0, errq := 0, asid := 0, autoend := false, firmware := false, order := 0, seedNext := 0, seedWait := false,
    errSeq := 0, errPend := [], sched := [], doomed := none, ending := false, setup := true, hinting := false }

/-- Its share of the core. -/
def share5 : Resident :=
  { task := 5, base := 0, logspad := 12, saved := false, blank := false, drained := false, signals := [], owe := 0, low := [], high := [],
    cur := 0, turns := 0, hcount := 0, force := false, reserved := none, stage := 0, posted := 0, postedIdx := 0,
    mwt := 1, skips := 0, geomA := 0, geomB := 0 }

/-- Page 0 of die 0 mapped onto itself for every access. -/
def tlb0 : TlbEnt := { asid := 0, gen := 0, sub := false, die := 0, page := 0, leaf := 0x1F }

/-- Context 0 of core 0 runs an activation of task 5 at user level, with every register declared, a trap vector, a region of
4 KiB of scratchpad, and page 0 mapped. -/
def st : State :=
  { State.reset with
    ctx := { Ctx.reset 0 with status := .ready, task := 5, nv := 32, nl := 4, na := 4, slots := [0, 1, 2, 3], sb := 4, depth := 4,
                              logspad := 12 },
    core := { Core.reset 0 with regs := { CoreRegs.reset with tvec := 0x1000 }, res := [share5] },
    launches := [launch5],
    retorts := Vector.replicate 6 { Retort.reset with cache := [tlb0] } }

/-- A state with other values in its window. -/
def withRegs (l : List (BitVec 4 × W64)) (s : State) : State :=
  { s with ctx := l.foldl (fun c p => c.setReg p.1 p.2) s.ctx }

/-- A state with another status of the context in focus. -/
def withStatus (x : CtxSt) (s : State) : State := { s with ctx := { s.ctx with status := x } }

/-- A state that holds writes for the close. -/
def withPend (ws : List RegWrite) (s : State) : State := { s with ctx := { s.ctx with pend := ws } }

/-- At system level. -/
def sys (s : State) : State := { s with ctx := { s.ctx with trap := { s.ctx.trap with level := true } } }

/-- In a trap. -/
def inTrap (s : State) : State := { s with ctx := { s.ctx with trap := { s.ctx.trap with intrap := true } } }

/-- With a store that has not been performed. -/
def withStore (s : State) : State := buffered [] 0 [(64, 1)] 64 s

/-- With bytes of scratchpad. -/
def withSpad (a : Nat) (bs : List Byte) (s : State) : State :=
  { s with core := { s.core with spad := memWrite s.core.spad a bs } }

/-- With bytes of memory. -/
def withMem (a : Nat) (bs : List Byte) (s : State) : State := { s with mem := memWrite s.mem a bs }

/-- The state that an outcome holds. -/
def out? (o : Host.Outcome State Fault Refusal) : Option State :=
  match o with
  | .next t => some t
  | _ => none

/-! ## Instructions in one step -/

/-- 04 R82: the carry leaves the register. -/
theorem test_add_wraps : (out? (exec (.add false 3 1 2) (withRegs [(1, 0xFFFFFFFFFFFFFFFF), (2, 2)] st))).map
    (fun t => t.ctx.pend) = some [.gpr 3 1] := by decide +kernel

/-- 04 R82: the quotient of the most negative number by −1 wraps, and its remainder is 0. -/
theorem test_div_overflow : (out? (exec (.div false 3 1 2) (withRegs [(1, 0x8000000000000000), (2, 0xFFFFFFFFFFFFFFFF)] st))).map
    (fun t => t.ctx.pend) = some [.gpr 3 0x8000000000000000] := by decide +kernel

/-- 04 R82: division by zero gives all ones. -/
theorem test_div_by_zero : (out? (exec (.divW false 3 1 2) (withRegs [(1, 7), (2, 0)] st))).map
    (fun t => t.ctx.pend) = some [.gpr 3 0xFFFFFFFFFFFFFFFF] := by decide +kernel

/-- 04 R82: a shift amount counts modulo the width. -/
theorem test_shift_modulo : (out? (exec (.shl false 3 1 2) (withRegs [(1, 1), (2, 65)] st))).map
    (fun t => t.ctx.pend) = some [.gpr 3 2] := by decide +kernel

/-- 04 R81: the .W result is sign-extended. -/
theorem test_add_word_sign : (out? (exec (.addW false 3 1 2) (withRegs [(1, 0x7FFFFFFF), (2, 1)] st))).map
    (fun t => t.ctx.pend) = some [.gpr 3 0xFFFFFFFF80000000] := by decide +kernel

/-- 04 R87: a field of ones, sign-extended. -/
theorem test_bit_field_sign : (out? (exec (.bfxS false 3 1 3 4) (withRegs [(1, 0xF5)] st))).map
    (fun t => t.ctx.pend) = some [.gpr 3 0xFFFFFFFFFFFFFFFF] := by decide +kernel

/-- 04 R85: LIMT keeps bits [42:0]. -/
theorem test_limt : (out? (exec (.limt false 3 1) (withRegs [(3, 0xFFFFFFFFFFFFFFFF)] st))).map
    (fun t => t.ctx.pend) = some [.gpr 3 0x00000FFFFFFFFFFF] := by decide +kernel

/-- 04 R76: a call whose callee would have no block raises SPILL with cause 0x05 before any effect. -/
theorem test_call_spill : (out? (exec (.call false 4) { st with ctx := { st.ctx with depth := 10 } })).map
    (fun t => (t.ctx.pc, t.ctx.trap.trapc, t.ctx.depth)) = some (0x1000, 5, 10) := by decide +kernel

/-- 07 R159: a store is seen by the core's own load (08 R174). -/
theorem test_store_forwards : ((out? (exec (.stgD false 2 1 0) (withRegs [(1, 64), (2, 0x0102)] st))).map
    (fun t => (viewByte t 64, viewByte t 65, memGet t.mem 64))) = some (2, 1, 0) := by decide +kernel

/-- 07 R151: a misaligned doubleword raises MISALIGN with its address in TRAPV. -/
theorem test_misaligned_load : (out? (exec (.ldgD false 2 1 4) (withRegs [(1, 64)] st))).map
    (fun t => (t.ctx.trap.trapc, t.ctx.trap.trapv)) = some (3, 68) := by decide +kernel

/-- 07 R149: a scratchpad offset wraps in the region of the launch. -/
theorem test_scratchpad_wraps : (out? (exec (.stlB false 2 1 0) (withRegs [(1, 4096), (2, 9)] st))).map
    (fun t => memGet t.core.spad 0) = some 9 := by decide +kernel

/-- 15 R369: outside a trap TRET raises ILLEGAL with its word. -/
theorem test_tret_outside : (out? (exec .tret (sys st))).map (fun t => (t.ctx.trap.trapc, t.ctx.trap.trapv)) =
    some (1, 0xFA004000) := by decide +kernel

/-- 03 R46: the close delivers the writes in order. -/
theorem test_close_delivers :
    (out? (exec (.groupClose 0 0) (withStatus (.closing .next) (withPend [.gpr 3 1, .gpr 3 2] st)))).map
      (fun t => (t.ctx.reg 3, t.ctx.pend)) = some (2, []) := by decide +kernel

/-- 04 R74: the close of a call puts the return address into w15 of the callee. -/
theorem test_close_calls :
    (out? (exec (.groupClose 0 0) (withStatus (.closing (.call 0x40 8)) st))).map (fun t => (t.ctx.pc, t.ctx.depth, t.ctx.reg 15)) =
      some (0x40, 5, 8) := by decide +kernel

/-! ## The instruction placed where the next step fetches -/

/-- The first instruction after reset runs, and the pc goes on. -/
theorem test_first_instruction :
    (out? (step (State.reset.withFetchWord 32 0x07040000))).map (fun t => (t.ctx.pc, t.ctx.pend)) = some (4, [.gpr 8 0]) := by
  decide +kernel

/-- A word of no row raises ILLEGAL; with no vector set the activation is killed (15 R348). -/
theorem test_first_illegal :
    (out? (step (State.reset.withFetchWord 32 0))).map (fun t => t.ctx.status) = some .free := by decide +kernel

/-! ## The hypotheses of the statements can be met -/

theorem test_hyp_decode_encode : (Instr.addi false 8 2 0x1FFF).wf = true ∧ (Instr.addi false 8 2 0x1FFF).encoded = true ∧
    decode 0x07040000 = .ok (.addi false 8 2 0) := ⟨rfl, rfl, rfl⟩

/-- The core whose turn it is. -/
def coreTurnOf : Choice → Option Nat
  | .core k => some k
  | _ => none

/-- The agent whose turn it is. -/
noncomputable def agentTurnOf : Choice → Option Instr
  | .agent i => some i
  | _ => none

/-- A placed ADDI w8, w2, 0. -/
noncomputable def placed : State := State.reset.withFetchWord 32 0x07040000

/-- The placed state with its core's turn begun. -/
noncomputable def begun : State :=
  let f := focus 0 0 placed
  { f with core := { f.core with rr := 0 }, ctx := { f.ctx with status := .ready } }

theorem test_hyp_step_core : coreTurnOf (chosen placed) = some 0 ∧
    nextIssuer (coreOf placed 0).rr (issuers placed 0) = some 0 ∧ begun.ctx.xfail = none ∧
    vaAccel begun.ctx.pc = begun.accel.toNat ∧ dieAbsent begun (vaDie begun.ctx.pc) = false ∧
    cachedKey begun (fetchReq begun begun.ctx.pc) = some 0 ∧ anyPoison begun.poison 0 4 = false ∧
    alGet? begun.core.icache 0 = none ∧ isHx (w32 (ofBytes (memRead begun.mem 0 4))) = false ∧
    runOffence true [] begun.ctx.run = none := by decide +kernel

theorem test_hyp_step_decodes : decodeBytes (memRead begun.mem 0 4) = .ok (.addi false 8 2 0, []) := rfl

theorem test_hyp_step_agent :
    (match chosen { st with ctx := { st.ctx with status := .closing .next } } with
     | .agent (.groupClose k c) => k == 0 && c == 0
     | _ => false) = true := by decide +kernel

theorem test_hyp_step_safe : Fed State.reset := by intro i h; cases h
theorem test_hyp_step_canonical : Canonical placed := by
  refine ⟨by decide +kernel, by decide +kernel, ?_⟩
  intro p hp; cases hp

theorem test_hyp_return_fill : 1 ≤ st.ctx.depth ∧ st.ctx.sb = st.ctx.depth ∧ State.reset.ctx.depth = 0 := by decide

/-- A run of one HX.IMM with the value 1, and of two. -/
noncomputable def prefixed : State := { st with ctx := { st.ctx with run := [encode (.hxImm 1)] } }
noncomputable def prefixed2 : State := { st with ctx := { st.ctx with run := [encode (.hxImm 1), encode (.hxImm 2)] } }

theorem test_hyp_extended : ExtendedBy prefixed [1] ∧ ExtendedBy prefixed2 [1, 2] ∧ ExtendedBy st [] ∧ Unprefixed st :=
  ⟨rfl, rfl, rfl, rfl⟩

/-- Shift amounts at both ends of the range and one outside, bit fields that end at bit 63 and one that leaves it. -/
theorem test_hyp_immediate_limits : (wide [] (63 : BitVec 13)).toNat < 64 ∧ ¬ (wide [] (64 : BitVec 13)).toNat < 64 ∧
    ¬ (wide [1] (0 : BitVec 13)).toNat < 64 ∧ (0 : BitVec 6).toNat + ((63 : BitVec 6).toNat + 1) ≤ 64 ∧
    ¬ (1 : BitVec 6).toNat + ((63 : BitVec 6).toNat + 1) ≤ 64 := by decide

theorem test_hyp_branches : vaAccel (st.ctx.pc + 4 * wide [] (3 : BitVec 14)) = st.accel.toNat ∧ st.ctx.pc.toNat % 4 = 0 := by
  decide +kernel

/-- A call with room, one without at a window of 16 blocks, returns at depth 0, without a resident block, and with one. -/
theorem test_hyp_calls : st.ctx.depth + 3 ≤ 8 + st.ctx.sb ∧
    ¬ ({ st with ctx := { st.ctx with depth := 22, sb := 16 } }).ctx.depth + 3 ≤ 8 + 16 ∧ State.reset.ctx.depth = 0 ∧
    st.ctx.depth ≠ 0 ∧ st.ctx.sb = st.ctx.depth ∧ ({ st with ctx := { st.ctx with sb := 0 } }).ctx.sb ≠ st.ctx.depth ∧
    vaAccel (readW st 15) = st.accel.toNat ∧ (readW st 15).toNat % 4 = 0 := by decide +kernel

theorem test_hyp_special_registers : (srSystemOnly 0xA0 = true ∧ st.ctx.trap.level = false) ∧
    ¬ (srSystemOnly 0x9F = true ∧ st.ctx.trap.level = false) ∧ ¬ (srSystemOnly 0xAE = true ∧ (sys st).ctx.trap.level = false) ∧
    (sys st).ctx.trap.level = true := by decide

/-- A closing state that holds these writes. -/
def closingWith (ws : List RegWrite) : State := withStatus (.closing .next) (withPend ws st)

theorem test_hyp_group_close : Focused (closingWith [.gpr 3 7]) 0 0 ∧
    (closingWith [.gpr 3 7]).ctx.status = .closing .next ∧
    (closingWith [.gpr 3 7]).ctx.pend = [((3 : BitVec 4), (7 : W64))].map (fun w => .gpr w.1 w.2) ∧
    Closable (closingWith [.gpr 3 7]) ∧
    (closingWith [.vec 3 7]).ctx.pend = [.vec 3 7] ∧ (closingWith [.mask 3 7]).ctx.pend = [.mask 3 7] ∧
    (closingWith [.rlist 3 .fresh]).ctx.pend = [.rlist 3 .fresh] ∧ (closingWith [.ereg 3 7]).ctx.pend = [.ereg 3 7] :=
  ⟨⟨rfl, rfl⟩, rfl, rfl, ⟨by decide, by decide +kernel⟩, rfl, rfl, rfl, rfl⟩

/-- A write by MTS at both levels, a depth that WDEPTH takes and one that it refuses, and STKDAT. -/
theorem test_hyp_close_special : (closingWith [.sreg 0x0A 0x3F0]).ctx.pend = [.sreg 0x0A 0x3F0] ∧
    (sys (closingWith [.sreg 0xA4 7])).ctx.trap.level = true ∧ (closingWith [.sreg 0xA4 7]).ctx.trap.level = false ∧
    Closable (sys (closingWith [.sreg 0xA4 7])) ∧ (closingWith [.stk 63 7]).ctx.pend = [.stk 63 7] ∧
    (((0x0416 : W64).extractLsb' 8 5).toNat ≤ ((0x0416 : W64).extractLsb' 0 5).toNat ∧ ((0x0416 : W64).extractLsb' 0 5).toNat ≤ 22) ∧
    ¬ ((0x17 : W64).extractLsb' 0 5).toNat ≤ 22 ∧ (4 : W64).extractLsb' 0 3 = 4 ∧ Focused (sys (closingWith [])) 0 0 := by
  unfold Closable Focused; decide +kernel

/-- An END that still owes a reply; migrations to the core itself, to another module, over too far an entry word, with no window and
with no storage. -/
theorem test_hyp_close_retires :
    let e := withStatus (.closing .retire) { st with ctx := { st.ctx with msg := { st.ctx.msg with hstat := 4 } } }
    let m (v entry : W64) (s : State) : State := withStatus (.closing (.migr false 1 none)) { withRegs [(1, v)] s with
      ctx := { (withRegs [(1, v)] s).ctx with entry := entry } }
    let far := m 0x40 (w64 (2 ^ 40)) st
    let short := m 0x40 0 { st with launches := [{ launch5 with window := 0 }] }
    let high := withStatus (.closing (.migr false 1 (some true))) short
    e.ctx.pend = [] ∧ Closable e ∧ e.ctx.trap.intrap = false ∧ e.ctx.msg.hstat.getLsbD 2 = true ∧ e.ctx.msg.hstat.getLsbD 3 = false ∧
    hAcc e.ctx.msg.hdr2 = e.accel.toNat ∧ bits e.ctx.msg.hstat 16 16 = 0 ∧
    (migrDest false 1 none (m 0x40 0 st)).isSome = true ∧ (migrDest false 1 none (m (w64 (2 ^ 54)) 0 st)).isNone = true ∧
    ((0 - 4 : W64).setWidth 32).signExtend 64 = (0 - 4 : W64) ∧
    ((far.ctx.entry - 4).setWidth 32).signExtend 64 ≠ far.ctx.entry - 4 ∧
    myOwe (m 0x40 0 st) + 1 ≤ (myLaunch (m 0x40 0 st)).window ∧ outChipFree (m 0x40 0 st).core false = true ∧
    (migrDest false 1 (some true) high).any mPri = true ∧ myOwe high + 1 > (myLaunch high).window ∧
    (m 0x40 0 st).core.held = [] ∧ (m 0x40 0 st).core.pulls = [] := by
  unfold Closable; decide +kernel

theorem test_hyp_window_close : Focused st 0 0 ∧ (withStatus (.closing (.call 8 4)) st).ctx.pend = [] ∧
    (withStatus (.closing (.call 8 4)) st).ctx.status = .closing (.call 8 4) ∧
    (withStatus (.closing (.ret 8)) st).ctx.status = .closing (.ret 8) ∧ (withStatus (.closing (.ret 8)) st).ctx.depth ≠ 0 ∧
    (withStatus (.closing (.go 8)) st).ctx.status = .closing (.go 8) ∧ Closable st :=
  ⟨⟨rfl, rfl⟩, rfl, rfl, rfl, by decide, rfl, ⟨by decide, by decide +kernel⟩⟩

theorem test_hyp_traps : st.ctx.trap.intrap = false ∧ st.core.regs.tvec ≠ 0 ∧ st.ctx.pend = [] ∧
    ((inTrap st).ctx.trap.intrap = true ∨ (inTrap st).core.regs.tvec = 0) ∧ (inTrap st).ctx.pend = [] ∧
    State.reset.core.regs.tvec = 0 := by decide

theorem test_hyp_trap_return : st.ctx.trap.level = false ∧ (sys st).ctx.trap.level = true ∧
    (sys st).ctx.trap.intrap = false ∧ (sys (inTrap st)).ctx.trap.intrap = true ∧ (sys (inTrap st)).ctx.trap.trappc.toNat % 4 = 0 ∧
    (withStatus (.closing (.tret 8)) (sys (inTrap st))).ctx.status = .closing (.tret 8) ∧
    (withStatus (.closing (.tret 8)) (sys (inTrap st))).ctx.pend = [] ∧ Closable (withStatus (.closing (.tret 8)) (sys (inTrap st))) := by
  unfold Closable; decide +kernel

/-- Addresses and targets that break each limit. -/
theorem test_hyp_trap_conditions : st.ctx.trap.level = false ∧ Unprefixed st ∧
    (readW (withRegs [(1, 0xFFFF)] st) 1).toNat < 2 ^ 16 ∧ (readW (withRegs [(1, 0x1FFFF)] st) 1).toNat < 2 ^ 17 ∧
    bits (readW (withRegs [(1, 1)] st) 1) 4 6 = 0 ∧ bits (readW (withRegs [(1, 1)] st) 1) 0 4 ≠ st.ctx.num.toNat ∧
    (readW (withRegs [(1, 1)] st) 1 + (0 : BitVec 13).signExtend 64).toNat % 2 ≠ 0 ∧
    (readW (withRegs [(1, 60)] st) 1 + (0 : BitVec 13).signExtend 64).toNat % 8 ≠ 0 ∧
    (readW (withRegs [(1, 4)] st) 1).toNat % 64 ≠ 0 ∧ (readW (withRegs [(1, 2)] st) 1).toNat % 4 ≠ 0 ∧
    (readW (withRegs [(1, 0x0040000000000000)] st) 1).toNat % 4 = 0 ∧
    vaAccel (readW (withRegs [(1, 0x0040000000000000)] st) 1) ≠ st.accel.toNat ∧ st.ctx.depth + 3 ≤ 8 + st.ctx.sb := by
  refine ⟨rfl, rfl, ?_⟩
  decide +kernel

/-- Page 0 is reached by reads and by writes, at its last doubleword too. -/
theorem test_hyp_reaches : Reaches st 0x1FFFF8 8 true false 0x1FFFF8 ∧ Reaches st 64 8 false true 64 ∧
    Reaches st 64 8 true true 64 := by
  refine ⟨⟨by decide, ⟨by decide +kernel, by decide +kernel⟩, fun _ => ?_⟩, ⟨by decide, ⟨by decide +kernel, by decide +kernel⟩, ?_⟩,
    ⟨by decide, ⟨by decide +kernel, by decide +kernel⟩, fun _ => ?_⟩⟩
  · show viewPoison st 0x1FFFF8 8 = false; decide +kernel
  · intro h; cases h
  · show viewPoison st 64 8 = false; decide +kernel

theorem test_hyp_stores : mineOut st = [] ∧ mineOut (withStore st) = [0] ∧
    atomicAfter (withStore st) [64] = [0] ∧ atomicAfter (withStore st) [72] = [0] ∧ st.host.watches = [] := by decide +kernel

/-- Scratchpad offsets at the end of the region and behind it. -/
theorem test_hyp_scratchpad : (wrapped st 4095).toNat % 1 = 0 ∧ (wrapped st 4088).toNat % 8 = 0 ∧ (wrapped st 4096).toNat % 16 = 0 ∧
    spPoison st 4088 8 = false ∧ 8 ≤ st.ctx.logspad := by decide +kernel

/-- No lane of m1 is active in `st`; every lane of m0 is. -/
theorem test_hyp_vector_memory : (31 : BitVec 5).toNat < st.ctx.nv ∧ Unprefixed st ∧
    (readW st 0 + 64 * (63 : BitVec 8).zeroExtend 64).toNat % 64 = 0 ∧
    (wrapped st (readW st 0 + 64 * (63 : BitVec 8).zeroExtend 64)).toNat % 64 = 0 ∧
    (wrapped st (readW st 0)).toNat % 4 = 0 ∧ (readW (withRegs [(1, 4)] st) 1).toNat % 4 = 0 ∧
    (∀ i < 128, spPoison st (4 * BitVec.ofNat 64 i) 4 = false) ∧
    (∀ i < 128, cachedKey st (dataReq st (4 * BitVec.ofNat 64 i) true false) = some (4 * i)) ∧
    (∀ i < 128, cachedKey st (dataReq st (4 * BitVec.ofNat 64 i) false true) = some (4 * i)) ∧
    (∀ i < 128, vaAccel (4 * BitVec.ofNat 64 i) = st.accel.toNat ∧ viewPoison st (4 * i) 4 = false) := by
  refine ⟨by decide, rfl, ?_⟩
  decide +kernel

theorem test_hyp_block_moves : readW st 4 = 0 ∧ readW (withRegs [(4, 300)] st) 4 ≠ 0 ∧
    Maps st 0 true false 0 ∧ Maps st 0 false true 0 ∧ CleanAt st 0 256 ∧ spPoison st 0 256 = false ∧ 8 ≤ st.ctx.logspad := by
  refine ⟨by decide +kernel, by decide +kernel, ⟨by decide +kernel, by decide +kernel⟩, ⟨by decide +kernel, by decide +kernel⟩, ?_,
    by decide +kernel, by decide⟩
  show viewPoison st 0 256 = false; decide +kernel

/-- Conditions that hold and that do not, at equal values. -/
theorem test_hyp_waits : le64 (viewByte st) 64 = readW st 2 ∧ ¬ le64 (viewByte st) 64 ≠ readW st 2 ∧
    le64 (fun i => spByte st (64 + i)) 0 = readW st 2 ∧ ¬ (le64 (fun i => spByte st (64 + i)) 0).slt (readW st 2) ∧ st.ctx.wto = 0 := by
  decide +kernel

/-- A wait whose timeout has run out, and one whose has not. -/
theorem test_hyp_wait_over :
    let s (clk : Nat) : State := { st with ctx := { st.ctx with wto := 4096, since := some 0 }, clk := clk }
    (s 4096).ctx.wto ≠ 0 ∧ (s 4096).ctx.wto.toNat ≤ (s 4096).clk - (s 4096).ctx.since.getD (s 4096).clk ∧
    ¬ (s 4095).ctx.wto.toNat ≤ (s 4095).clk - (s 4095).ctx.since.getD (s 4095).clk := by decide +kernel

/-- A page whose bytes load as they stand. -/
theorem test_hyp_typed : (3 : BitVec 5).toNat < st.ctx.nv ∧ cachedLeaf st (dataReq st 512 true false) = some 0x1F ∧
    bits 0x1F 6 4 = 0 ∧ bits 0x1F 48 2 = 0 ∧ (512 : W64).toNat % 512 = 0 ∧ Maps st 512 true false 512 ∧ Maps st 512 false true 512 ∧
    CleanAt st 512 512 := by
  refine ⟨by decide, by decide +kernel, by decide, by decide, by decide, ⟨by decide +kernel, by decide +kernel⟩,
    ⟨by decide +kernel, by decide +kernel⟩, ?_⟩
  show viewPoison st 512 512 = false; decide +kernel

/-- A page whose leaf names BF16 for FP32 registers: 256 bytes. -/
def leafBf16 : W64 := 0x9F
def stBf16 : State := { st with retorts := Vector.replicate 6 { Retort.reset with cache := [{ tlb0 with leaf := leafBf16 }] } }

theorem test_hyp_typed_converts : cachedLeaf stBf16 (dataReq stBf16 256 true false) = some leafBf16 ∧ bits leafBf16 6 4 = 2 ∧
    bits leafBf16 48 2 = 0 ∧ (256 : W64).toNat % (4096 / 32 * 2) = 0 ∧ Maps stBf16 256 true false 256 ∧ Maps stBf16 256 false true 256 ∧
    CleanAt stBf16 256 256 := by
  refine ⟨by decide +kernel, by decide, by decide, by decide, ⟨by decide +kernel, by decide +kernel⟩,
    ⟨by decide +kernel, by decide +kernel⟩, ?_⟩
  show viewPoison stBf16 256 256 = false; decide +kernel

/-- A barrier whose phase ends with this arrival, one that is expected, and the waits on both sides of DONE. -/
theorem test_hyp_ordering : (wrapped st (readW (withRegs [(1, 4080)] st) 1)).toNat % 16 = 0 ∧ 4 ≤ st.ctx.logspad ∧
    mineOut st = [] ∧ (readW st 2).toNat ≤ (le64 (fun i => spByte st (8 + i)) 0).toNat ∧
    (le64 (fun i => spByte st (8 + i)) 0).toNat < (readW (withRegs [(2, 1)] st) 2).toNat ∧
    mineOut (withStore st) ≠ [] ∧ (1 : BitVec 2) ≠ 0 ∧
    (readW st 1).toNat ≤ (st.core.tls.get 3).mark ∧ (st.core.tls.get 3).mark < (readW (withRegs [(1, 1)] st) 1).toNat := by
  decide +kernel

/-- A store that a load of the context has returned from the buffer. -/
theorem test_hyp_fences :
    let s := withStore { st with ctx := { st.ctx with saw := [0] } }
    sawOut s = [0] ∧ mineOut s = [0] ∧ sawOut (withStore st) = [] ∧ (4 : BitVec 4).getLsbD 2 = true := by decide +kernel

theorem test_hyp_rounding : fp32 ∈ [fp32, bf16, fp16, e4m3, e5m2] ∧ 0x7F800000 < 2 ^ fp32.width ∧
    decodeFp fp32 0x7F800000 ≠ .nan ∧ decodeFp e4m3 0x7E ≠ .nan := by decide +kernel

theorem test_hyp_vectors : VecReady st [31, 0, 1] ∧ VecReady st [31, 0] ∧ (2 : BitVec 2) ≠ 3 := by
  refine ⟨⟨by decide, by decide⟩, ⟨by decide, by decide⟩, by decide⟩

theorem test_hyp_conversions : vcvtFits 1 4 3 = true ∧ vcvtFits 4 1 0 = true ∧ quantFits 4 2 = true ∧ partFits 4 3 = true ∧
    quantFits 3 1 = true ∧ partFits 3 1 = true := by decide

/-- A descriptor that R221 forbids, one whose offset is not aligned, and one that reads plain FP32 rows. -/
theorem test_hyp_distances :
    distOk false (readW (withRegs [(1, 0xFFFFFFFFFFFFFFFF)] st) 1) = false ∧ distOk false 0x0000000100400000 = true ∧
    tdOffset 0x0000000100400000 % 64 = 0 ∧ distOk false 0x0000000100400020 = true ∧ tdOffset 0x0000000100400020 % 64 ≠ 0 ∧
    distBad st 0x0000000100400000 128 ((List.range 128).filter (fun j => (readM st 1).getLsbD j)) = none := by decide +kernel

theorem test_hyp_lane_moves : (∀ j < 128, (wrapped st (readW st 1 + (lane 32 (readV st 2) j).zeroExtend 64)).toNat % 4 = 0) ∧
    (∀ j < 128, spPoison st (readW st 1 + (lane 32 (readV st 2) j).zeroExtend 64) 4 = false) ∧ 2 ≤ st.ctx.logspad ∧
    (∀ i < 128, (readM st 1).getLsbD i = false) := by decide +kernel

/-! ### Messages, events, groups and launches -/

/-- `st` with word 0 of a destination of mode `m`, PRI as given, in w1, and an entry address in w2. -/
def sending (w : W64) : State := withRegs [(1, w), (2, 0x40)] st

/-- Destinations that pass and that fail, full windows and full storage. -/
theorem test_hyp_sends : Unprefixed st ∧ st.ctx.status = .ready ∧
    ¬ (mMode 0 = 4 ∧ noSubgroup (myLaunch st) (mCode 0) = true) ∧ (mMode (w64 (4 * 2 ^ 57)) = 4 ∧
      noSubgroup (myLaunch st) (mCode (w64 (4 * 2 ^ 57))) = true) ∧
    destOk (sending 0) (myLaunch st) 0 0x40 1 false false 0 = true ∧ destOk (sending 0) (myLaunch st) 0 0x40 1 true true 0 = true ∧
    destOk (sending 0) (myLaunch st) 0 0x41 1 false false 0 = false ∧ destOk (sending 0) (myLaunch st) (w64 (2 ^ 61)) 0x40 1 true false 0 = false ∧
    descOk 0x400000 = true ∧ descOk 0 = false ∧ (sending 0).ctx.msg.rfall = 0 ∧ myOwe st + toBit true ≤ (myLaunch st).window ∧
    myOwe { st with core := { st.core with res := [{ share5 with owe := 4 }] } } + toBit true > (myLaunch st).window ∧
    outChipFree st.core false = true ∧ outChipFree st.core true = true := by
  refine ⟨rfl, rfl, ?_⟩
  decide +kernel

/-- Low storage that is full: the on-chip entries are taken and the region has too few slots. -/
def fullOut : State :=
  { st with
    core := { st.core with out := (List.range 64).map (fun n =>
      { num := n, task := 5, ctx := 0, inc := 0, msg := unitMsg 0 0 0 [], slots := if n < 32 then [] else [n], after := [], seq := 0,
        st := .ready, left := 1, sent := 0 }) },
    launches := [{ launch5 with outlog := 0 }] }

theorem test_hyp_close_migr_full : outRoom fullOut fullOut.core 5 false 0 = none ∧ (migrDest false 1 none fullOut).any mPri = false := by
  decide +kernel

theorem test_hyp_sends_full : outRoom fullOut fullOut.core fullOut.ctx.task (mPri 0) 0 = none ∧
    outRoom fullOut fullOut.core fullOut.ctx.task true 0 = none := by decide +kernel

/-- A request to answer, and one answered already. -/
def answering : State := { st with ctx := { st.ctx with msg := { st.ctx.msg with hstat := 4 } } }

/-- A message held for the activation. -/
def holding (cls : Nat) (bulk : Bool) (owed : Owed) : State :=
  let m : Msg := { unitMsg (w64 (cls * 2 ^ 61)) 0 0 [7, 8] with w3 := hdr3 16 2 false bulk 0 }
  { st with core := { st.core with held := [{ task := 5, ctx := 0, inc := 0, q :=
      { msg := m, store := .chip, skipped := 0, demoted := false, stale := false, owed := owed, route := none, stamp := 0 } }] } }

theorem test_hyp_replies : (bit answering.ctx.msg.hstat 2 = true ∧ bit answering.ctx.msg.hstat 3 = false) ∧
    ¬ (bit st.ctx.msg.hstat 2 = true ∧ bit st.ctx.msg.hstat 3 = false) ∧ outChipFree answering.core true = true ∧
    heldFor st.core st.ctx false = [] ∧ (st.ctx.rqOwed = 0 ∧ st.ctx.m2wait = 0) ∧
    (heldFor (holding 2 false .none).core st.ctx false).length = 1 ∧ State.reset.ctx.depth = 0 ∧ st.ctx.depth ≠ 0 ∧
    homeCore st (w64 (7 * 2 ^ 51)) = none ∧ (homeCore st 0).isSome = true := by decide +kernel

/-- An event operation, an empty and a full deque, one of another launch, and the room of a steal. -/
def dequeOf (q : Deque) : State := { st with core := { st.core with deque := q } }
def deque0 : Deque := { task := 5, recs := [], pend := false, thief := 0, room := 0, last := 0, dir := 0 }

theorem test_hyp_events : st.ctx.got = none ∧ mMode (readW (sending 0) 1) = 0 ∧ mPri (readW (sending 0) 1) = false ∧
    destOk (sending 0) (myLaunch st) 0 0x40 8 false false 0 = true ∧ (reserveSlot st).isSome = true ∧ reserveSlot fullOut = none ∧
    (dequeOf deque0).core.deque.task = st.ctx.task ∧ deque0.recs.length + deque0.room < 64 ∧
    64 ≤ { deque0 with recs := List.replicate 63 [], room := 1 }.recs.length + 1 ∧ { deque0 with task := 6, recs := [[]] }.recs ≠ [] ∧
    (6 : BitVec 12) ≠ st.ctx.task ∧ victimFrom st (myLaunch st) 0 = none := by decide +kernel

/-- A launch of two cores, whose other core can be asked. -/
def pairOf : State :=
  { st with launches := [{ launch5 with logw := 1 }], cores := [(1, { Core.reset 1 with res := [share5] })] }

theorem test_hyp_steal : (victimFrom pairOf (myLaunch pairOf) 0).isSome = true ∧ myOwe pairOf + 1 ≤ (myLaunch pairOf).window ∧
    (if ¬ (pairOf.core.deque.task = pairOf.ctx.task) ∧ pairOf.core.deque.recs ≠ [] then 0 else 64 - pairOf.core.deque.recs.length) ≠ 0 := by
  decide +kernel

/-- Code 1 is the whole launch; code 2047 names none. -/
theorem test_hyp_groups : st.core.id ∈ subCores (myLaunch st) (1 : BitVec 11).toNat ∧
    st.core.id ∉ subCores (myLaunch st) (2047 : BitVec 11).toNat ∧ myOwe st + 1 ≤ (myLaunch st).window ∧ st.ctx.got = none ∧
    (heldFor (holding 0 false .reply).core st.ctx true).length = 1 ∧ (subAt (myLaunch st) st.core.id 0).isSome = true ∧
    subAt (myLaunch st) st.core.id 11 = none := by decide +kernel

/-- Keys of a range that translates. -/
def keysOf (s : State) (rd wr : Bool) (va : W64) (n : Nat) : List Nat :=
  match pieceKeys s rd wr (pieces va n) with
  | .ok ks => ks
  | .error _ => []

theorem test_hyp_launch_record : (readW (withRegs [(1, 0x40)] st) 1).toNat % 64 = 0 ∧ mineOut st = [] ∧
    (keysOf st true false 0x40 128).length = 128 ∧ (∀ k ∈ keysOf st true false 0x40 128, viewPoison st k 1 = false) ∧
    launchOf st 6 = none ∧ launchOf st 5 = some launch5 ∧ launch5.ending = false ∧ launch5.asid = st.ctx.trap.asid.toNat ∧
    (sys st).ctx.trap.level = true ∧ mineOut (withStore st) ≠ [] := by decide +kernel

/-- A record of sixteen words: TASK in use, and one that breaks a rule. -/
theorem test_hyp_launch_status : (launchOfRecord (List.replicate 16 0)).task ≠ launch5.task ∧
    recordOk st (List.replicate 16 (w64 (2 ^ 64 - 1))) (launchOfRecord (List.replicate 16 (w64 (2 ^ 64 - 1)))) = false ∧
    (launchOfRecord (List.replicate 16 0)).asid = st.ctx.trap.asid.toNat := by decide +kernel

/-- A record of task 6 on core (0, 0) that passes every check, also with a schedule of one entry; a fenced core, one whose
scratchpad is taken, and a schedule on a page without a leaf. -/
def goodWords (sched n : Nat) : List W64 :=
  [w64 (6 + 10 * 2 ^ 48), 0x40, w64 (10 + 2 ^ 8), 0x40, w64 (8 * 2 ^ 8), 0x400, 0, 0, 0, 0, w64 sched, w64 n, 0, 0, 0x40, 0]
theorem test_hyp_launch_accepted :
    let l := launchOfRecord (goodWords 0 0)
    let full : State := { st with core := { st.core with res := [{ share5 with logspad := 19 }] } }
    recordOk st (goodWords 0 0) l = true ∧ l.task = 6 ∧ launchOf st 6 = none ∧ l.asid = st.ctx.trap.asid.toNat ∧ l.cls.toNat ≤ st.ctx.cls.toNat ∧
    wordAt (goodWords 0 0) 11 = 0 ∧ holdOf st (.launch 0 0) = none ∧ (launchCores l).all (fun k => !coreFenced st k) = true ∧
    (launchCores l).all (fun k => (allocBase st k l).isSome) = true ∧ coreFenced { st with fenced := [(0, 0)] } 0 = true ∧ 0 ∈ launchCores l ∧
    allocBase full 0 l = none := by decide +kernel

theorem test_hyp_launch_waits :
    (match submit (.launch 0 0) { sys := true, asid := 0, cls := 0 } (goodWords 0x200000 1) st with
     | .waits _ => true
     | _ => false) = true ∧
    (match submit (.launch 0 0) { sys := true, asid := 0, cls := 0 } (goodWords 0 1) st with
     | .status n _ => n == 0
     | _ => false) = true := by decide +kernel

/-! ### Ranked lists and engines -/

/-- A list of two entries with room for one more, one without K, and one above its declared count. -/
def list2 : RList := { RList.fresh with k := 3, ents := [(0x40000000, 1), (0x3F800000, 2)] }
def stList : State := { st with ctx := { st.ctx with lists := st.ctx.lists.set 0 list2 } }

theorem test_hyp_lists : (0 : BitVec 2).toNat < stList.ctx.nl ∧ (31 : BitVec 5).toNat < stList.ctx.nv ∧ (readL stList 1).k = 0 ∧
    (readL stList 0).k ≠ 0 ∧ rankSorted (readL stList 0).ents = true ∧ (readL stList 0).ents.length ≤ (readL stList 0).k ∧
    (readL stList 0).ents[(1 : W64).toNat]? = some (0x3F800000, 2) ∧ (readL stList 0).ents.length ≤ (2 : W64).toNat ∧
    isNan32 0x7FC00000 = true ∧ isNan32 0 = false ∧ ¬ (3 : BitVec 2).toNat < ({ st with ctx := { st.ctx with nl := 3 } }).ctx.nl := by
  decide +kernel

/-- An image that was stored reads back; a header of ones is refused. -/
theorem test_hyp_images : (wrapped st 8).toNat % 8 = 0 ∧ (wrapped st 4).toNat % 8 ≠ 0 ∧ (bytesOf (listImage list2)).length ≤ 2 ^ st.ctx.logspad ∧
    headOk (wordsOf 4 (bytesOf (listImage list2))) = true ∧ headOk (List.replicate 4 (w64 (2 ^ 64 - 1))) = false ∧
    (listOfImage (wordsOf 4 (bytesOf (listImage list2))) (wordsOf 2 ((bytesOf (listImage list2)).drop 32))).isSome = true ∧
    spPoison st 8 32 = false := by decide +kernel

/-- Tile descriptors of FP32 rows and of a list image, a gathered operand, and descriptors that are refused. -/
theorem test_hyp_matrix : (3 : BitVec 2).toNat < st.ctx.na ∧ stepOk false false 0x100400000 0x100400000 = true ∧
    stepOk true false 0x1000000100400000 0x100400000 = true ∧ stepOk false true 0x100400000 0 = true ∧
    stepOk true true 0x1000000100400000 0 = true ∧ mmrOk 0x100400000 = true ∧ mmrlOk 0x180000 = true ∧ stepOk false false 0 0 = false ∧
    mmrOk 0 = false ∧ mmrlOk 0 = false ∧ st.core.matq.length < 16 ∧ ¬ st.ctx.na ≤ (3 : BitVec 2).toNat := by decide +kernel

theorem test_hyp_descriptors : DescOk st 8 ∧ TileAligned 0x100400000 ∧ TileAligned 0x1000000100400000 ∧
    NamesBarrier (withRegs [(1, 0x7FFFF)] st) 1 none ∧ NamesBarrier st 1 (some (0, doneAt st 0)) := by
  refine ⟨⟨by decide +kernel, by decide +kernel, by decide +kernel⟩, ⟨by decide +kernel, fun _ => by decide +kernel⟩,
    ⟨by decide +kernel, fun _ => by decide +kernel⟩, .inl ⟨by decide +kernel, rfl⟩, .inr ⟨by decide +kernel, by decide +kernel, rfl⟩⟩

/-- Control words of each copy instruction, legal and not. -/
theorem test_hyp_copies : cpyCtlOk 0 0x10000020 = true ∧ cpyCtlOk 1 32 = true ∧ cpyCtlOk 2 32 = true ∧ cpyCtlOk 3 32 = true ∧
    cpyCtlOk 0 (w64 (2 ^ 30)) = false ∧ cpyCtlOk 1 0x10000020 = false ∧ credOk false 1 = true ∧ credOk true 0x4001 = true ∧ credOk false 0x4001 = false ∧
    (zeroIn 0x10000 [(12, 4), (25, 7), (51, 13)] = true ∧ 1 ≤ cmcLen 0x10000 ∧ cmcLen 0x1000000 ≤ 256) ∧ cstorOk 0 = true ∧
    cstorOk 64 = false ∧ hasDecomp st = true ∧ hasDecomp { st with feat := 0 } = false ∧ cdecCtlOk 0x80000 = true ∧ cdecCtlOk 0 = false ∧
    vaAccel 0 = st.accel.toNat ∧ vaAccel (w64 (2 ^ 54)) ≠ st.accel.toNat ∧ (0 : W64).toNat % 4096 = 0 ∧ st.core.copyq.length < 16 := by
  decide +kernel

/-- A copy schedule with an entry that is due and one that is not. -/
theorem test_hyp_schedule : st.ctx.got = none ∧ (myLaunch st).sched = [] ∧ dueLeft st st.core.id st.ctx.task = false ∧
    (resOf st.core st.ctx.task).isSome = true ∧ st.core.batches.length < 64 ∧ st.core.batches.length ≤ (0 : BitVec 13).toNat ∧
    (0 : BitVec 13).toNat < ({ st with core := { st.core with batches := [1] } }).core.batches.length := by decide +kernel

/-- Sixteen posted entries fill the channel, and a seventeenth is due. -/
def dueState : State :=
  { st with launches := [{ launch5 with sched := List.replicate 17 [w64 (2 ^ 11), 0, 0, 0, 0, 0, 0, 0] }] }

theorem test_hyp_schedule_waits : dueLeft (postDue 0 5 (updRes 5 (fun r => { r with stage := min (r.stage + 1) 0xFFFF }) dueState)) 0 5 = true := by
  decide +kernel

/-- Sends to another module, and to this one; receive buffers; the group image of an empty group. -/
theorem test_hyp_network : hasNet st = true ∧ hasNet { st with feat := 0x10 } = false ∧ nsendDest st 0x10000 = true ∧ nsendDest st 0 = false ∧
    bits (0 : W64) 27 37 = 0 ∧ npostOk 64 = true ∧ vaDie 0 ≤ 5 ∧ (recvQueue st 3).bound = none ∧ (recvQueue st 3).bufs.length < 64 ∧
    imageOk 0 (List.replicate 20 0) = true ∧ imageOk 1 (List.replicate 20 0) = false ∧ (groupOf st 0).owner = st.ctx.trap.asid.toNat ∧
    ¬ ((sys st).ctx.trap.level = false) ∧ spPoison st 0 160 = false ∧ st.core.netq.length < 16 := by decide +kernel

/-- A group that another ASID owns. -/
theorem test_hyp_group_owner :
    let s := setGroup 0 { groupOf st 0 with owner := 9 } st
    ¬ (s.ctx.trap.level = true ∨ (groupOf s 0).owner = s.ctx.trap.asid.toNat) := by decide +kernel

/-! ### Routing -/

/-- A routing configuration of one group, whose experts 0 to 7 live on die 0. -/
def cfgWords : List W64 :=
  [w64 (1 + 2 ^ 10 + 2 ^ 14 + 3 * 2 ^ 17 + 8 * 2 ^ 23 + 5 * 2 ^ 28), w64 (1 + 8 * 2 ^ 10 + 2 ^ 19 + 2 ^ 32), w64 (1 + 2 ^ 32), 0x2000, 0, 0,
   0x3000, 0x4000, 0x5000, 0x6000, 0x7000, 0, 0, 0, 0, 0]
def cfg0 : RouteCfg := { words := cfgWords, task := 5, asid := 0, gmap := [0x8000], homed := [0, 1, 2, 3, 4, 5, 6, 7] }

/-- Its record at 0x1000, its group map at 0x2000, the entries of its residency table at 0x3000, and its handler's entry word at
0x7000. -/
def stRecord : State :=
  withMem 0x1000 (bytesOf cfgWords) (withMem 0x2000 [0, 0x80] (withMem 0x3000
    (bytesOf [0, 0, 1, 0, 2, 0, 3, 0, 4, 0, 5, 0, 6, 0, 7, 0]) (withMem 0x7000 (toBytes 8 0xF1E0000400000000) st)))

/-- The configured engine, with a buffer of expert 0 that the activation holds. -/
def stRoute : State :=
  { stRecord with
    routes := st.routes.set 0 { Route.reset with
      cfg := some cfg0, bufs := [(0, { round := 0, count := 1, out := true, holder := some (0, 0, 0), since := 0, flags := 0 })] } }

def ing0 : Ing := { d := 0, cfg := cfg0, l := launch5 }

theorem test_hyp_routing : hasRouting st = true ∧ bits (0 : W64) 34 30 = 0 ∧ bits (w64 (2 ^ 34)) 34 30 ≠ 0 ∧ routesMine st = false ∧
    routesMine stRoute = true ∧ stRoute.core.routeq.length < 16 ∧ ingOf stRoute 0 = some ing0 ∧ ingOf st 0 = none ∧ 0 ∈ cfg0.homed ∧ 8 ∉ cfg0.homed ∧
    (routeOf stRoute 0).pend = [] ∧ holdOf stRoute (.place 0) = none ∧ heldDie stRoute 0 0 = some 0 ∧ heldDie stRoute 1 0 = none := by
  decide +kernel

theorem test_hyp_routing_record : (0x1000 : W64).toNat % 64 = 0 ∧ (keysOf stRecord true false 0x1000 128).length = 128 ∧
    (∀ q ∈ keysOf stRecord true false 0x1000 128, viewPoison stRecord q 1 = false) ∧
    wordsOf 16 ((keysOf stRecord true false 0x1000 128).map (viewByte stRecord)) = cfgWords ∧
    cfgFieldsOk st 0 (List.replicate 16 0) = false ∧ (routeOf stRecord 0).cfg = none := by decide +kernel

theorem test_hyp_routing_config :
    (runRegion (.place 0) launch5 none 3 (checkCfg launch5 0 cfgWords) stRecord).2 = some (some cfg0) := by decide +kernel
theorem test_hyp_routing_refuses :
    (runRegion (.place 0) launch5 none 3 (checkCfg launch5 0 cfgWords) (withMem 0x7000 (toBytes 8 1) stRecord)).2 = some none ∧
    cfgFieldsOk stRecord 0 cfgWords = true ∧
    entryFailed { stRecord with holds := [{ key := .place 0, walking := false, die := 0, fid := 0, va := 0x7000, ended := some true }] } 0 0x7000 =
      true := by decide +kernel
theorem test_hyp_routing_pins : (runRegion (.place 0) launch5 none 3 (pinOp 0 ing0) stRoute).2 = some 0 ∧
    (runRegion (.place 0) launch5 none 3 (unpinOp 0 ing0) stRoute).2 = some 0 ∧
    (runRegion (.place 0) launch5 none 3 (ertRead ing0 0) stRoute).2 = some 0 ∧
    (runRegion (.place 0) launch5 none 3 (releaseBuf ing0 0) stRoute).2 = some 0 := by decide +kernel

/-! ### The steps of the agents -/

/-- A watch of context 0 on the doubleword at 64, evaluated again from clk 4096 on; the store of `withStore`. -/
def watch0 : Watch := { core := 0, ctx := 0, addr := 64, cc := 0, arg := 5, next := 4096, hit := none }
def store0 : StoreEnt :=
  { num := 0, core := 0, ctx := 0, inc := 0, task := 5, die := 0, cells := [(64, 1)], needs := [], scope := 0, rmw := false }

/-- A context that waits since clk 0, in a state at clk 4096, with a timeout of 4096. -/
def waitingOn (w : Wait) : State :=
  { st with ctx := { st.ctx with status := .waiting w, since := some 0, wto := 4096 }, clk := 4096 }

theorem test_hyp_core_events : ({ st with core := { st.core with vecq := [(0, 0)] } }).core.vecq ≠ [] ∧ pipeFor { st with core := { st.core with vecq := [(0, 0)] } } 0 = some 0 ∧
    st.ctx.status ≠ .free ∧ stopped st st.core st.ctx = false ∧
    2 ^ st.ctx.limit ≤ cycOf { st with clk := 1 } st.ctx ∧
    (waitingOn (.recvw 0 false)).ctx.wto ≠ 0 ∧ (0 : Nat) + (waitingOn (.recvw 0 false)).ctx.wto.toNat ≤ (waitingOn (.recvw 0 false)).clk ∧
    stopped (waitingOn (.recvw 0 false)) (waitingOn (.recvw 0 false)).core (waitingOn (.recvw 0 false)).ctx = false ∧
    heldFor (waitingOn (.recvw 0 false)).core (waitingOn (.recvw 0 false)).ctx false = [] ∧
    watch0 ∈ ({ waitingOn (.word true 64) with watches := [watch0] }).watches ∧ watch0.core = 0 ∧ watch0.ctx.toNat = 0 ∧ watch0.hit = none ∧
    watch0.next ≤ (waitingOn (.word true 64)).clk ∧ (withStore st).core.stores.map (fun e => (e.num, e.die)) = [(0, coreDie 0)] ∧
    mayPerform (withStore st) (withStore st).core store0 = true ∧ (withStore st).core.stores = [store0] := by decide +kernel

/-- A store in transit, a parked activation whose frame can come back, and a walk that reaches a leaf and one that cannot. -/
def inTransit : State := { st with transit := [{ store0 with core := 1 }], lag := [{ core := 1, num := 0, die := 1, cells := [(64, 1)], seen := none }] }
def parkedOf : State :=
  { st with
    ctx := { st.ctx with status := .free }, core := { st.core with
      parked := [{ frame := 0, ctx := 0, inc := 0, task := 5, die := 0, fid := 0, fails := false, ready := true, since := 0, saved := st.ctx }] } }

theorem test_hyp_core_restore : (parkedOf.core.parked.find? (fun p => p.frame == 0)).isSome = true ∧
    parkedOf.core.parked.all (fun p => restorable parkedOf 0 p) = true := by decide +kernel

theorem test_hyp_core_transit : inTransit.transit[0]? = some { store0 with core := 1 } ∧
    (inTransit.transit.take 0).any (sameByte { store0 with core := 1 }) = false ∧
    mayPerform inTransit (coreOf inTransit 1) { store0 with core := 1 } = true ∧ inTransit.transit.length ≤ 1 ∧
    (lagOn inTransit (1 - inTransit.transit.length)).isSome = true := by decide +kernel

/-- A request of context 0 for page 1, for which the Retort holds no leaf. -/
def req1 : Req := { va := 0x200000, asid := 0, sub := false, rd := true, wr := false, fetch := false, user := true }
def walk1 : Walk := { num := 0, req := req1, gen := 0, since := 0, who := [.ctx 0 0] }

/-- The tables of ASID 0: three directories and the leaf of page 1, or a directory entry that is not lawful. -/
def walkingOf (leaf : W64) : State :=
  withMem 0x10000 (toBytes 8 0x12001) (withMem 0x12000 (toBytes 8 0x14001) (withMem 0x14000 (toBytes 8 0x16001)
    (withMem 0x16008 (toBytes 8 leaf.toNat)
      { withStatus (.walking req1) st with
        retorts := Vector.replicate 6 { Retort.reset with dir := 0x10000, walks := [walk1], walkNum := 1 } })))

theorem test_hyp_core_walks :
    walkEnd (walkingOf 0x20001F) walk1 = .leaf 0x20001F ∧ permFault req1 0x20001F = none ∧ walkEnd (walkingOf 0x201) walk1 = .bad ∧
    walkersOf (walkingOf 0x20001F) walk1 = [(.ctx 0 0, req1)] ∧ walk1 ∈ (retortOf (walkingOf 0x20001F) 0).walks.take 256 ∧
    vaDie walk1.req.va = 0 ∧ judge (walkEnd (walkingOf 0) walk1) req1 = .fault 0 ∧ canFault (walkingOf 0) req1 0 = true ∧
    freeFrame (walkingOf 0).core = none ∧ walkEnd (walkingOf 0x20001F) { walk1 with gen := 1 } = .again ∧
    (∀ d < 4, (routeOf (walkingOf 0) d).pend = []) ∧ (∀ l ∈ (walkingOf 0).launches, l.errPend = []) ∧ (walkingOf 0).tails = [] := by
  decide +kernel

/-- Another walk that faulted earlier waits for a record. -/
theorem test_hyp_core_record :
    let s := walkingOf 0
    let s1 := setRetort s 0 { retortOf s 0 with faultq := [7] }
    lacksRecord s1 walk1 = true ∧ walk1.num ∉ (retortOf s1 0).faultq := by decide +kernel

/-- A message of task 5 that has reached its core, one that walks, one for a launch that the core has not, and one held. -/
def flightOf5 (mode : Nat) (walks : Bool) (at_ hint : Nat) (task : Nat) : Flight :=
  { num := 0, msg := { unitMsg (w64 (mode * 2 ^ 57)) 0x40 (w64 (task * 2 ^ 52)) [7] with w3 := hdr3 8 1 false false 0 }, at_ := at_, walks := walks,
    hint := hint, org := .outside, owed := false, hold := 0, arrived := false }
def withFlight (f : Flight) : State := { st with flights := [f] }

theorem test_hyp_message_events :
    flightOf (withFlight (flightOf5 0 false 0 0 5)) 0 = some (flightOf5 0 false 0 0 5) ∧
    (flightOf5 0 false 0 0 5).hold ≤ (withFlight (flightOf5 0 false 0 0 5)).clk ∧ launchOf st 5 = some launch5 ∧ resAt st 0 5 = some share5 ∧
    resAt st 0 6 = none ∧ mMode (flightOf5 0 false 0 0 5).msg.w0 ≠ 2 ∧ hTask (flightOf5 0 false 0 0 5).msg.w2 = 5 ∧
    (storeFor (coreOf st 0) launch5 (owedKind (flightOf5 0 false 0 0 5) != .none) false false).map (fun p => p.1) = some .chip ∧
    accepts (withFlight (flightOf5 1 true 0 0 5)) 0 (flightOf5 1 true 0 0 5) = true ∧
    accepts (withFlight (flightOf5 1 true 1 0 5)) 1 (flightOf5 1 true 1 0 5) = false := by decide +kernel

/-- A message that the ingress refuses and one that it takes; a pull whose packets come in; an offer of a posted message. -/
def pull1 : Pull :=
  { num := 0, q := { msg := { unitMsg (w64 (2 ^ 61)) 0 1 [] with w3 := hdr3 300 0 false true 0, bulk := List.replicate 300 0 }, store := .chip,
                     skipped := 0, demoted := false, stale := false, owed := .none, route := none, stamp := 0 },
    ctx := 0, inc := 0, reply := false, since := 0, got := [] }
def pulling : State :=
  { withStatus (.pulling 0) st with core := { st.core with pulls := [pull1] }, clk := 2 ^ 20 }
def packet1 (i n : Nat) : Packet := packetWith pull1.q.msg i (List.replicate n 0)

theorem test_hyp_message_pulls : pullFor (coreOf pulling 0) 0 (packet1 0 256) = some pull1 ∧ pullOf (coreOf pulling 0) 0 = some pull1 ∧
    packetOk pull1.q.msg (packet1 0 256) = true ∧ packetOk pull1.q.msg (packet1 1 44) = true ∧ packetOk pull1.q.msg (packet1 1 43) = false ∧
    pullHalted pulling 0 pull1 = false ∧ hPidx (packet1 1 44).w2 = 1 ∧ hPcnt pull1.q.msg.w2 = 1 ∧
    (setInsert 0 pull1.got).length ≠ hPcnt pull1.q.msg.w2 + 1 ∧ (setInsert 1 [0]).length = hPcnt pull1.q.msg.w2 + 1 ∧
    pull1.since + 2 ^ 20 ≤ pulling.clk ∧ pullFor (coreOf st 0) 0 (packet1 0 256) = none ∧
    ingressRefused pull1.q.msg = true ∧ ingressRefused (flightOf5 0 false 0 0 5).msg = false := by decide +kernel

/-- The first packet of a bulk message of another site, and one whose length does not agree with it. -/
theorem test_hyp_ingress_packets :
    let m (n : Nat) : Msg := { unitMsg 0 0x40 1 [] with w3 := hdr3 300 0 false true 0, bulk := List.replicate n 0, ssite := 3 }
    ingressRefused (m 256) = false ∧ hBulk (m 256).w3 = true ∧ partOf st (m 256) = none ∧ firstOk (m 256) = true ∧ firstOk (m 44) = false := by
  decide +kernel

def outEnt1 : OutEnt :=
  { num := 0, task := 5, ctx := 0, inc := 0, msg := unitMsg 0 0x40 0 [7], slots := [], after := [], seq := 0, st := .ready, left := 1,
    sent := 0 }
def offering : State := { st with core := { st.core with out := [outEnt1] } }

theorem test_hyp_message_offers : outOf (coreOf offering 0) 0 = some outEnt1 ∧ heldOn offering (.out 0 0) = false ∧
    storesDone offering (coreOf offering 0) outEnt1.after = true ∧ upPorts offering ≠ [] ∧ (coreOf offering 0).out.any (blocks offering outEnt1) = false ∧
    leavesSite offering outEnt1.msg.w0 = false ∧ leavesPod offering outEnt1.msg.w0 = false ∧
    hAcc (w64 (2 ^ 42)) ≠ st.accel.toNat ∧ hBulk (unitMsg 0 0 0 [7]).w3 = false := by decide +kernel

/-- A low message of the launch on a core with a free context. -/
def qmsg5 : QMsg :=
  { msg := { unitMsg 0 0x40 (w64 (5 * 2 ^ 52)) [7] with w3 := hdr3 8 1 false false 0 }, store := .chip, skipped := 0, demoted := false, stale := false,
    owed := .none, route := none, stamp := 0 }
def queued (w : W64) : State :=
  let r := { share5 with low := [qmsg5] }
  { withStatus .free st with core := { st.core with res := [r], ecache := [(5, 0x40, w)] } }

theorem test_hyp_dispatch : restorePending (queued 0xF1E0000400000000) 0 = false ∧
    (∀ a ∈ (queued 0xF1E0000400000000).core.res, badHead (queued 0xF1E0000400000000) 0 a = none) ∧
    (nextResident (queued 0xF1E0000400000000) 0).isSome = true ∧
    ((nextResident (queued 0xF1E0000400000000) 0).bind (fun r => pickAt (queued 0xF1E0000400000000) 0 r)).isSome = true ∧
    ((ctxsOf (queued 0) 0).find? (fun y => y.status == .free)).isSome = true ∧ hBulk qmsg5.msg.w3 = false ∧
    ((queued 0).core.res.findSome? (fun a => (badHead (queued 0) 0 a).map (fun b => (a.task, b)))).isSome = true := by
  decide +kernel

theorem test_hyp_entry_fill :
    let s := { queued 0 with core := { (queued 0).core with ecache := [] } }
    (resOf (coreOf s 0) 5).isSome = true ∧ entryCached (coreOf s 0) 5 0x40 = none ∧ holdOf s (.entry 0 0x40 5) = none ∧
    taskHeld s 0 5 = false ∧ vaAccel 0x40 = s.accel.toNat ∧
    (match rangeKeys s (entryReq s launch5 (some 0)) [(0x40, 8)] with
     | .ok ks => ks.length == 8
     | _ => false) = true ∧ (coreOf s 0).ecache.length ≤ 63 := by decide +kernel

/-! ### The system instructions and the launch events -/

/-- At system level with a second context: held by the core's halt, or free. -/
def pairOfCtx (x : CtxSt) : State :=
  { sys st with core := { st.core with
      regs := { st.core.regs with halt := true }, ctxs := [(1, { st.ctx with num := 1, status := x, nv := 0 })] } }

theorem test_hyp_system : (sys st).ctx.trap.level = true ∧ st.ctx.got = none ∧ allStoresDone st = true ∧ allStoresDone (withStore st) = false ∧
    (2 ^ 16 ≤ (readW (withRegs [(1, 0x10000)] st) 1).toNat) ∧ (bits (0 : W64) 21 43 = 0 ∧ bits (0 : W64) 16 2 ≤ 1 ∧ bits (0 : W64) 18 3 ≤ 5) ∧
    mineOut st = [] ∧ (∀ f ∈ (retortOf st 0).faults, f.fid ≠ 0) ∧ bits (1 : W64) 4 6 = 0 ∧ 1 ≠ st.ctx.num.toNat ∧
    ctxHeld (pairOfCtx .ready) 1 = true ∧ (ctxOf (pairOfCtx .ready) 0 1).status ≠ .free ∧
    (pairOfCtx .free).core.ctxs.map (fun p => p.2.status) = [.free] ∧
    ctxHeld { pairOfCtx .ready with core := { (pairOfCtx .ready).core with regs := CoreRegs.reset } } 1 = false := by decide +kernel

theorem test_hyp_frames : (keysOf (pairOfCtx .free) false true 0 1024).length = 1024 ∧
    (keysOf (pairOfCtx .ready) true false 0 (frameLen (ctxOf (pairOfCtx .ready) 0 1))).length = 1024 ∧
    (∀ k ∈ keysOf (pairOfCtx .ready) true false 0 1024, viewPoison (pairOfCtx .ready) k 1 = false) ∧
    frameMatches (List.replicate 1024 0) (ctxOf (pairOfCtx .ready) 0 1) = false := by decide +kernel

def fault0 : OpenFault := { idx := 0, fid := 0, asid := 0, gen := 0, sub := false, page := 1, since := 0, core := 0 }
theorem test_hyp_fltres : ∃ f ∈ ({ Retort.reset with faults := [fault0] }).faults, f.fid = 0 := ⟨fault0, by decide, rfl⟩

/-- Keys of a range that an agent reads or writes. -/
def keysBy (s : State) (req : W64 → Req) (l : List (W64 × Nat)) : List Nat :=
  match rangeKeys s req l with
  | .ok ks => ks
  | .error _ => []

theorem test_hyp_launch_submit : holdOf st (.submit 0x40 0) = none ∧ (keysBy st (recordReq 0) (pieces 0x40 128)).length = 128 ∧
    (0 : Nat) = (launchOfRecord (List.replicate 16 0)).asid ∧ (1 : Nat) ≠ (launchOfRecord (List.replicate 16 0)).asid ∧
    (∃ y ∈ ({ st with launches := [{ launch5 with task := 0 }] }).launches, y.task = (launchOfRecord (List.replicate 16 0)).task) ∧
    (∀ y ∈ st.launches, y.task ≠ (launchOfRecord (List.replicate 16 0)).task) := by decide +kernel

/-- Launches that can end: doomed, quiescent, and ended with nothing left. -/
theorem test_hyp_launch_ends : launchOf st 6 = none ∧ ({ launch5 with doomed := some (0x0F, 0) }).doomed.isSome = true ∧
    (let l := { launch5 with autoend := true }
     let s := { withStatus .free st with launches := [l] }
     launchOf s 5 = some l ∧ quiescent s l = true) ∧
    cmdsLeft st { launch5 with ending := true } = false := by decide +kernel

/-- A seed for the launch's own core, at 0x100. -/
def seedWords : List W64 := [0, 0x40, 0, 0, 0, 0, 0, 0, 0, 0, 0, 0, 0, 0, 0, 0, 0, 0, 0, 0]
def seeding : Launch := { launch5 with seeds := 0x100, seedn := 1 }
theorem test_hyp_seed : seeding.seedNext < seeding.seedn ∧ holdOf st (.seed 5) = none ∧
    (keysBy st (seedReq seeding) (pieces 0x100 160)).length = 160 ∧ seedOk st seeding seedWords = true ∧
    wordsOf 20 ((keysBy (withMem 0x100 (bytesOf seedWords) st) (seedReq seeding) (pieces 0x100 160)).map
      (memGet (withMem 0x100 (bytesOf seedWords) st).mem)) = seedWords ∧
    leavesSite st (seedMsg st seeding seedWords).w0 = false ∧ leavesPod st (seedMsg st seeding seedWords).w0 = false := by decide +kernel

/-- Two launches whose regions overlap; the later one has a message that could start. -/
def clash : State :=
  let l := { launch5 with task := 6, order := 1 }
  let s := withStatus .free st
  { s with launches := [launch5, l], core := { s.core with
      res := [share5, { share5 with task := 6, saved := true, low := [{ qmsg5 with msg := { qmsg5.msg with w2 := w64 (6 * 2 ^ 52) } }] }],
      ecache := [(6, 0x40, 0xF1E0000400000000)] } }
theorem test_hyp_region_save : (resAt clash 0 5).isSome = true ∧ victimIdle clash 0 5 = true ∧
    (coreOf clash 0).res.any (fun y => meets share5 y && wants clash 0 y) = true ∧ holdOf clash (.region 0 5) = none ∧
    (keysBy clash (regionReq clash launch5 (some 0) false true) (pieces (saveVa launch5 0) (2 ^ 12))).length = 2 ^ 12 := by decide +kernel

theorem test_hyp_region_restore :
    let s := queued 0xF1E0000400000000
    let s1 := { s with core := { s.core with res := [{ share5 with low := [qmsg5], saved := true }] } }
    scratchpadRestoreOn s1 0 5 = true ∧ (resAt s1 0 5).isSome = true ∧ launchOf s1 5 = some launch5 ∧
    (keysBy s1 (regionReq s1 launch5 (some 0) true false) (pieces (saveVa launch5 0) (2 ^ 12))).length = 2 ^ 12 := by decide +kernel

/-- A signal on its way to event 1, a steal, its answer, and arrivals at the launch's own group. -/
def evReq1 : EvReq := { num := 0, task := 5, id := 1, core := 0, ctx := 0, inc := 0, after := [], op := .sig 1 }
def signalling : State := { st with evq := [evReq1] }
theorem test_hyp_event_op : eventOpOn signalling 0 = true ∧ signalling.evq.find? (fun y => y.num == 0) = some evReq1 ∧
    launchOf signalling 5 = some launch5 ∧ eventOk signalling launch5 1 = true ∧ eventOk signalling launch5 0x100 = false ∧
    ((runRegion (.event 0) launch5 none 0 (evRun launch5 evReq1) signalling).2.map (fun r => r.1)) = some [] := by decide +kernel

def steal1 : Steal := { thief := 0, victim := 0, task := 5, room := 4, recs := [[]] }
def arrival1 : Arrival := { task := 5, code := 1, op := 0, rank := 0, value := 0, pc := 0, wait := false, core := 0, ctx := 0, inc := 0 }
/-- An answer without records that waits at the thief, and the step that takes it. -/
def answer1 : QMsg :=
  { msg := stealMsg st steal1 [], store := .chip, skipped := 0, demoted := false, stale := false, owed := .reply, route := none, stamp := 0 }
def steal2 : Steal := { steal1 with room := 0, recs := [] }
def answered : State := { st with core := { st.core with answers := [answer1] } }
theorem test_hyp_steals_and_groups : steal1 ∈ ({ st with steals := [steal1] }).steals ∧ answerOf answered steal2 = some answer1 ∧
    (st.core.deque.task = steal1.task ∨ st.core.deque.recs = []) ∧ arrival1 ∈ firstArrivals { st with arrivals := [arrival1] } ∧
    (joinRound arrival1 st).2.arr.length = (subCores launch5 1).length ∧
    (joinRound arrival1 st).2.arr.length ≠ (subCores { launch5 with logw := 1 } 1).length := by decide +kernel

theorem test_hyp_drain :
    let s := { withStatus .free st with core := { st.core with res := [], regs := { st.core.regs with drain := true, dtask := 5 } } }
    s.core.regs.drained = false ∧ victimIdle s 0 5 = true ∧ heldOn s (.region 0 5) = false ∧ resAt s 0 5 = none := by decide +kernel

theorem test_hyp_drain_saves :
    let s := { withStatus .free st with core := { st.core with regs := { st.core.regs with drain := true, dtask := 5 } } }
    victimIdle s 0 5 = true ∧ holdOf s (.region 0 5) = none ∧ resAt s 0 5 = some share5 ∧ launchOf s 5 = some launch5 ∧
    (keysBy s (regionReq s launch5 (some 0) false true) (pieces (saveVa launch5 0) (2 ^ 12))).length = 2 ^ 12 := by decide +kernel

/-! ### The engines -/

/-- A command of task 5. -/
def cmdFor (op : CmdOp) : Cmd :=
  { num := 1, op := op, wc := 0, wc1 := 0, ctx := 0, inc := 0, task := 5, asid := 0, user := true, spa := [0, 0, 0, 0], spbase := 0, logspad := 12,
    wait := none, after := [], latch := none, xfer := 0, status := 0, credit := 0, w2 := 0, w3 := 0, done := 0, st := .queued }
def matrixOf (op : CmdOp) : State := { st with core := { st.core with matq := [cmdFor op] } }
def stepOf (gather gb fin bnd : Bool) (a b : W64) : CmdOp := .mma gather gb fin bnd 0 a b 0 0x3F800000 0x3F800000
def matHeads (op : CmdOp) : Bool := headCmd (matrixOf op) 0 0 == some (cmdFor op) && cmdFree (matrixOf op) 0 0 (cmdFor op)
def matTurns (op : CmdOp) : Bool := matTurn (matrixOf op) 0 == some (cmdFor op)

theorem test_hyp_matrix_heads : matHeads (stepOf false true false false 0x100400000 0) = true ∧
    matHeads (stepOf true false false false 0x1000000100400000 0x100400000) = true ∧
    (∀ op ∈ [stepOf false false false false 0x100400000 0x100400000, .mmr false false 0 0x100400000 0x3F800000 0,
             .mmrl false false 0 0x180000 0, .mmz 0, .mmrank 0 3], matTurns op = true) ∧
    cmdFailed st 0 0 (cmdFor (.mmz 0)) = false := by decide +kernel

theorem test_hyp_matrix_depths :
    stepDepth st (cmdFor (stepOf true false false false 0x1000000100400000 0x100400000)) false 0x1000000100400000 0x100400000 = some 32 := by
  decide +kernel

theorem test_hyp_matrix_steps : stepShape (tdFmt 0x100400000) (tdFmt 0x100400000) = some (32, false) ∧
    stepSkips false 0 { Slot.reset with mark := true } = true ∧ stepSkips false 0 Slot.reset = false ∧ (false && Slot.reset.ranked) = false ∧
    Slot.reset.ranked = false ∧ (match gbTile st (cmdFor (.mmz 0)) 3 0 with | .error .badfmt => true | _ => false) = true ∧
    (match gbTile { st with retorts := Vector.replicate 6 { Retort.reset with cache := [{ tlb0 with leaf := 0x5F }] } } (cmdFor (.mmz 0)) 1 0 with
     | .ok _ => true
     | _ => false) = true := by decide +kernel

theorem test_hyp_completion :
    let q := { cmdFor (.mmz 0) with st := .done, wc := 2 }
    let s : State := { matrixOf (.mmz 0) with launches := [], core := { st.core with matq := [q] } }
    (s.core.queue 0).find? (fun p => p.num == 1) = some q ∧ wcSignal q.wc = true ∧ wcCredit q.wc = false ∧ 3 ≤ q.logspad ∧
    wcSignal (cmdFor (.mmz 0)).wc = false := by decide +kernel

def channelOf (op : CmdOp) : State := { st with core := { st.core with copyq := [cmdFor op] } }
def copyTurns (k : CmdOp → Bool) (op : CmdOp) : Bool := copyTurn (channelOf op) 0 k == some (cmdFor op)
/-- An address on another module, and an address of page 0. -/
def farVa : W64 := w64 (2 ^ 54)

theorem test_hyp_copy_turns : copyTurns isCpy (.cpy 0 0 0 32) = true ∧ copyTurns isRemote (.cpyr false 0 farVa 32) = true ∧
    copyTurns isCstor (.cstor true 0x100 0 0) = true ∧ copyTurns isCdtab (.cdtab 0 0) = true ∧ copyTurns isCdec (.cdec 0 0 0) = true ∧
    copyTurns isCred (.cred false false 0x100 0 1) = true ∧ copyTurns isCred (.cred false true 0x100 0 1) = true ∧
    copyTurns isCatom (.catom 0 true 0 0x100 1 0) = true ∧ copyTurns isCmc (.cmc 0 0 1) = true ∧
    cmdFailed st 0 1 (cmdFor (.mmz 0)) = false := by decide +kernel

/-- A drive with its queue pair at 64 KiB of die 0. -/
def drive0 : Drive := { handle := 0, block := 512, most := 4096, die := 0, queue := 0x10000, tail := 255, head := 0 }

theorem test_hyp_copy_events : ctlDec 32 = 0 ∧ (0 < ctlLen 32 ∧ bits (0 : W64) 0 19 % 32 + ctlLen 32 ≤ 32 ∧ (cmdFor (.mmz 0)).done = 0) ∧ ctlLen 0 = 0 ∧
    (keysBy st (cmdReq (cmdFor (.mmz 0)) true false) (pieces 0 32)).length = 32 ∧ (keysBy st (cmdReq (cmdFor (.mmz 0)) false true) (pieces 0 32)).length = 32 ∧
    (∀ x ∈ keysBy st (cmdReq (cmdFor (.mmz 0)) true false) (pieces 0 32), anyPoison st.poison (x / 32 * 32) 32 = false) ∧ st.host.watches = [] ∧
    vaAccel farVa ≠ st.accel.toNat ∧ txsOf st 0 1 = [] ∧ 0 < cuts 128 (bits (0 : W64) 0 19) 32 ∧ st.fab.txs.length < 2 ^ 15 ∧
    remoteReady st 0 (cmdFor (.cpyr false 0 farVa 32)) true = none ∧ driveOf st (cstorDrive 0) = none ∧
    driveOf { st with host := { st.host with drives := [drive0] } } (cstorDrive 0) = some drive0 ∧
    st.core.tabs.get ⟨bits (0 : W64) 20 2 % 4, Nat.mod_lt _ (by decide)⟩ = none ∧ holdOf st (.cmd 0 1 1) = none := by decide +kernel

/-- No byte of the sector is uncorrectable. The list is evaluated as a list: the instance for all pairs is a large search. -/
theorem test_hyp_copy_sector : ∀ b ∈ spadSector st.core (cmdFor (.mmz 0)) 0 288, b.2 = false := by
  have h : (spadSector st.core (cmdFor (.mmz 0)) 0 288).all (fun b => !b.2) = true := by decide +kernel
  intro b hb
  simpa using List.all_eq_true.mp h b hb

/-- A table that decodes an empty stream. -/
def table0 : Table := { counts := [], symbols := [] }
theorem test_hyp_decompression : (decodeAll table0 (fun o n => readSpot st 0 (cmdFor (.mmz 0)) (.glob 0) o n) 0).fault = none ∧
    ({ st.core with tabs := st.core.tabs.set 0 (some table0) }).tabs.get ⟨bits (0 : W64) 20 2 % 4, Nat.mod_lt _ (by decide)⟩ = some table0 := by
  decide +kernel

/-- A contribution to a record of two slices, one that does not match it, and a multicast of two members. -/
def slice1 (n : Nat) : RedMsg :=
  { va := 0x100, asid := 0, sub := false, task := 5, nel := 1, stype := 0, dtype := 0, isMax := false, cnt := 2, slice := n, data := [0], bad := [],
    num := 0, first := 0, behind := [], src := .here 0 1 }
def rec1 : RedRec := { va := 0x100, task := 5, first := slice1 0, parts := [slice1 0] }
def cast1 : Multicast := { num := 3, core := 0, cmd := 1, group := 1, members := [0, 1], noAck := false, pos := [], neg := [], since := 0 }
def line1 : CmcLine := 
  { src := 0, tag := 3, swid := 0, va := 0x100, asid := 0, sub := false, poison := false, ack := true, data := List.replicate 32 7, begun := false }

theorem test_hyp_reductions : (vaAccel 0x100 = st.accel.toNat ∧ vaAccel farVa ≠ st.accel.toNat) ∧ redNel 1 = 1 ∧
    (redElems st.core (cmdFor (.mmz 0)) 0 (redNel 1) (redStype 1)).any (fun e => e.2) = false ∧
    (redElems st.core (cmdFor (.mmz 0)) 0 (redNel 1) (redStype 1)).length = 1 ∧
    (keysBy st (cmdReq (cmdFor (.mmz 0)) true true) [(0x100, 4)]).length = 4 ∧ (keysBy st (cmdReq (cmdFor (.mmz 0)) true true) [(0x100, 8)]).length = 8 ∧
    heldOn st (.red 0x100 5) = false ∧ [rec1].find? (recIs (slice1 1)) = some rec1 ∧ redMatches { slice1 1 with nel := 2 } rec1 = false ∧
    redMatches (slice1 1) rec1 = true ∧ rec1.first.cnt + 1 ≤ (slice1 3).slice ∧ (slice1 1).slice < rec1.first.cnt + 1 ∧
    (∃ p ∈ rec1.parts, p.slice = (slice1 0).slice) ∧ (∀ p ∈ rec1.parts, p.slice ≠ (slice1 1).slice) ∧ rec1.parts.length + 1 ≠ rec1.first.cnt + 1 := by
  decide +kernel

theorem test_hyp_multicast : grpValid (groupOf st (cmcGroup 1)) = false ∧
    grpValid (groupOf { st with fab := { st.fab with groups := [(0, ⟨[w64 (2 ^ 64 - 1)], 0⟩)] } } (cmcGroup 0)) = true ∧
    line1 ∈ ({ st.fab with lines := [line1] }).lines ∧ (keysBy st (agentReq 0 false false true) (pieces 0x100 32)).length = 32 ∧
    (keysBy st (agentReq 0 false false true) (pieces 0x200000 32)).length = 0 ∧ line1.src = st.accel.toNat ∧
    (cast1.num = 3 ∧ cast1.noAck = false ∧ 1 ∈ cast1.members ∧ 1 ∉ cast1.pos ∧ ∀ p ∈ cast1.neg, p.1 ≠ 1) ∧ cast1.num ≠ 4 ∧
    cast1.pos.length + cast1.neg.length + 1 ≠ cast1.members.length ∧
    ({ cast1 with pos := [0] }).pos.length + cast1.neg.length + 1 = cast1.members.length ∧ cast1.since + 2 ^ 22 ≤ 2 ^ 22 ∧
    [{ cast1 with noAck := true }].find? (fun c => c.num == 3) = some { cast1 with noAck := true } := by decide +kernel

theorem test_hyp_reductions_end :
    (∃ l, launchOf { st with launches := [{ launch5 with ending := true }] } (slice1 0).task = some l ∧ l.ending = true) ∧
    (∀ l, launchOf st (slice1 0).task = some l → l.ending = false) ∧ 0 < (slice1 0).cnt ∧
    64 ≤ (List.replicate 64 rec1).countP (fun x => vaDie x.va == vaDie (slice1 0).va) := by
  refine ⟨⟨{ launch5 with ending := true }, by decide +kernel⟩, ?_, by decide +kernel⟩
  intro l h; have e : launchOf st (slice1 0).task = some launch5 := by decide +kernel
  rw [e] at h; cases h; rfl

/-- A line of 24 bytes in a sector that holds an uncorrectable byte besides, one with sectors written, and one whose walk failed. -/
theorem test_hyp_multicast_lines :
    let ks := keysBy st (agentReq 0 false false true) (pieces 0x100 24)
    mergeBad { st with poison := [0x11F] } ks = true ∧ mergeBad st ks = false ∧ lineCut line1 = 32 ∧
    lineCut { line1 with data := List.replicate 64 7 } < 64 ∧
    holdFailed { st with holds := [{ key := .line 0 3, walking := false, die := 0, fid := 0, va := 0x100, ended := some true }] } (.line 0 3) = true ∧
    heldOn st (.line 0 3) = false := by decide +kernel

/-! ### The fabric and the network -/

def tx1 : Tx := { tag := 2, accel := 1, op := .read farVa 0 false 32, port := 0, since := 0, first := 0, core := 0, eng := 1, cmd := 1, off := 0 }
/-- A read of another module that has been silent since clk 0. -/
def silent (clk : Nat) : State := { channelOf (.cpyr false 0 farVa 32) with fab := { st.fab with txs := [tx1] }, clk := clk }

theorem test_hyp_fabric : holdOf st (.fabric 1 2) = none ∧ (keysBy st (agentReq 0 false true false) (pieces 0x100 32)).length = 32 ∧ st.poison = [] ∧
    openTx st 2 = none ∧ openTx (silent 0) 2 = some tx1 ∧ tx1.since + 2 ^ 20 ≤ (silent (2 ^ 20)).clk ∧ unreachable (silent (2 ^ 20)) tx1 = false ∧
    unreachable (silent (2 ^ 22)) tx1 = true ∧ (∃ q ∈ (coreOf (silent 0) tx1.core).copyq, q.num = tx1.cmd) ∧
    ((portAt st 63).up = true ∧ (portAt st 63).score + flitScore .replayed < 0x4000) ∧ st.fab.aged + 2 ^ 24 ≤ 2 ^ 24 := by
  decide +kernel
/-- A transfer that goes on, one that has performed its first sector, and one that has been refused. -/
theorem test_hyp_fabric_transfers :
    let s (next : Nat) (refused : Bool) : State := { st with fab := { st.fab with xfers := [{ accel := 1, num := 4, next := next, refused := refused }] } }
    (xferOf st 1 4).next = 0 ∧ (xferOf st 1 4).refused = false ∧ 0 < (xferOf (s 1 false) 1 4).next ∧ (xferOf (s 1 false) 1 4).next < 2 ∧
    (xferOf (s 1 true) 1 4).refused = true := by decide +kernel
theorem test_hyp_fabric_ports : upPorts st ≠ [] ∧
    (let s := setPort 0 { score := 0x4000, rate := 0, was := 0, up := true, retrain := false } st
     (portAt s 0).up = true ∧ 0x4000 ≤ (portAt s 0).score + flitScore .clean) ∧
    (portAt (setPort 0 { score := 0, rate := 2, was := 1, up := false, retrain := true } st) 0).retrain = true ∧ (portAt st 0).retrain = false ∧
    (portAt (setPort 0 { score := 0, rate := 2, was := 1, up := false, retrain := true } st) 0).up = false := by decide +kernel

/-- Units from accelerator 1, and a peer that has taken number 4 from it. -/
def unit1 (ty seq : Nat) : UeUnit :=
  { ty := ty, refuse := false, seq := seq, ssite := 0, dsite := 0, sacc := 1, dacc := 0, rq := 3, off := 0, total := 8, sendid := 9, stask := 5,
    data := List.replicate 8 1, omf := none, bad := 0, news := [], echo := 0, path := 0 }
def unacked1 (tries : Nat) : Unacked := { seq := 7, pkt := unit1 1 7, sent := 0, tries := tries, core := 0, cmd := 1 }
def peer1 (us : List Unacked) (c : Option (Nat × Nat)) : Peer :=
  { Peer.fresh 0 1 0 with h := 4, next := 8, unacked := us, closing := c }
def send1 : Sending :=
  { core := 0, cmd := 1, site := 0, accel := 1, id := 9, seq := 7, left := 1, rnr := some 0, first := some 0, landNum := 0, landed := 0, trunc := false, fault := false }
def talking (p : Peer) : State := { st with net := { st.net with peers := [p] } }
def buf1 : RecvBuf :=
  { va := 0x100, len := 64, ptask := 0xFFF, wc := 0, wc1 := 0, core := 0, ctx := 0, inc := 0, task := 5, asid := 0, user := true, spa := [0, 0, 0, 0],
    spbase := 0, logspad := 12, after := [] }

theorem test_hyp_sends_of_the_net :
    let s := { talking (peer1 [] none) with core := { st.core with netq := [cmdFor (.nsend false 0x10000 0 8)] } }
    netHead s 0 = some (cmdFor (.nsend false 0x10000 0 8)) ∧ (sendParts s (.nsend false 0x10000 0 8)).map (fun p => (p.accel, p.len, p.src)) = some (1, 8, .spad 0) ∧
    (sendParts s (.nsend false 0x700010000 0 8)).map (fun p => p.site) = some 7 ∧ bits (0 : W64) 28 4 = 0 ∧ bits st.feat 28 4 ≠ 0 ∧
    sendingOf s 0 1 = none ∧ peerRoom s 0 1 = true ∧ cmdFailed s 0 2 (cmdFor (.nsend false 0x10000 0 8)) = false := by decide +kernel

theorem test_hyp_units : (∀ ty ∈ [0, 1, 2, 3, 4, 5], unitFor st ty (unit1 ty 5) = true) ∧ unitFor st 0 (unit1 1 5) = false ∧
    peerOf (talking (peer1 [] none)) 0 1 = some (peer1 [] none) ∧ peerOf st 0 1 = none ∧ arrivedAs (peer1 [] none) 4 = .again ∧
    arrivedAs (peer1 [] none) 5 = .fresh ∧ ((peer1 [] none).h + 1) % 2 ^ 24 = 5 ∧ (peer1 [] none).unacked = [] ∧ (peer1 [] none).got = [] ∧
    ¬ (((peer1 [] none).h + 1) % 2 ^ 24 = 6 ∧ (peer1 [] none).unacked = []) ∧ (peer1 [] (some (0, 0))).closing.isSome = true ∧
    landingOf st (unit1 1 5) = none ∧ holdOf st (.unit 0 1 5) = none ∧
    (keysBy st (landReq buf1) (pieces (buf1.va + w64 0) (min (buf1.len - 0) 8))).length = 8 ∧
    (recvQueue (setRecvQueue 3 ⟨some 5, [buf1], 0⟩ st) 3).bound.isSome = true ∧ (recvQueue (setRecvQueue 3 ⟨some 5, [], 0⟩ st) 3).bufs = [] := by
  decide +kernel

theorem test_hyp_net_timers :
    let s := { talking (peer1 [unacked1 3] (some (0, 2))) with net := { st.net with peers := [peer1 [unacked1 3] (some (0, 2))] }, clk := 2 ^ 24 }
    let s1 := { talking (peer1 [unacked1 16] none) with net := { st.net with peers := [peer1 [unacked1 16] none], sends := [{ send1 with rnr := none }] }, clk := 2 ^ 24 }
    let s2 := { talking (peer1 [] none) with net := { st.net with peers := [peer1 [] none], sends := [send1] }, clk := 2 ^ 24 }
    (waitingUnits s)[0]? = some (peer1 [unacked1 3] (some (0, 2)), some (unacked1 3)) ∧ unitDue s (peer1 [unacked1 3] (some (0, 2))) (some (unacked1 3)) = true ∧
    (unacked1 3).tries < 16 ∧ (waitingUnits s)[1]? = some (peer1 [unacked1 3] (some (0, 2)), none) ∧
    0 + retryAfter (peer1 [unacked1 3] (some (0, 2))) ≤ s.clk ∧
    (waitingUnits s1)[0]? = some (peer1 [unacked1 16] none, some (unacked1 16)) ∧ unitDue s1 (peer1 [unacked1 16] none) (some (unacked1 16)) = true ∧
    (sendOfPacket s1 (unacked1 16)).isSome = true ∧ s2.net.sends[0]? = some send1 ∧ (peerOf s2 send1.site send1.accel).isSome = true ∧
    send1.rnr = some 0 ∧ send1.first = some 0 ∧ 0 + 2 ^ 24 ≤ s2.clk := by decide +kernel

/-! ### Routing and the host -/

def rt0 (r : Route) : State := { stRecord with routes := st.routes.set 0 { r with cfg := some cfg0 } }
/-- A record of a token for group 0, a list and a transfer that hold it. -/
def rec0 : TokRec := { w0 := 0, arow := 0x40, rrow := 0x40, prob := List.replicate 8 0, spa := [], row := [] }
def list0 : SendList := { accel := 0, die := 0, recs := [rec0], since := 0 }
def transfer0 (recs : List TokRec) : Transfer := { sacc := 0, sdie := 0, dacc := 0, ddie := 0, task := 5, flush := none, tag := 0, sent := 0, recs := recs }
def gating (op : CmdOp) (x : CmdSt) (s : State) : State := { s with core := { s.core with routeq := [{ cmdFor op with st := x }] } }

theorem test_hyp_route_source :
    let s := gating (.rtgate 0 0) .queued (rt0 Route.reset)
    let b := rt0 { Route.reset with lists := [list0] }
    let d := rt0 { Route.reset with outgoing := [transfer0 [{ rec0 with row := [0] }]] }
    let u := rt0 { Route.reset with outgoing := [transfer0 [rec0]] }
    let far := rt0 { Route.reset with outgoing := [transfer0 [{ rec0 with arow := farVa }]] }
    routeHead s 0 = some (cmdFor (.rtgate 0 0)) ∧ cmdFree s 0 3 (cmdFor (.rtgate 0 0)) = true ∧ ingOf st 0 = none ∧ ingOf s 0 = some ing0 ∧
    chooseGroups cfg0 (gateRow s 0 (cmdFor (.rtgate 0 0)) 0 (bits (cfgW cfg0 0) 0 10)) = [0] ∧ (routeOf s 0).lists = [] ∧
    canDepart b 0 0 = false ∧ (routeOf b 0).lists.find? (fun l => destNo l.accel l.die == 0) = some list0 ∧
    list0.since + bits (cfgW cfg0 2) 0 32 ≤ 1 ∧ canDepart d 0 0 = true ∧ waitingTransfer d 0 0 = some (transfer0 [{ rec0 with row := [0] }]) ∧
    canRead b 0 0 = false ∧ canRead d 0 0 = false ∧ canRead u 0 0 = true ∧ unreadRec u 0 0 = some rec0 ∧ unreadCount u 0 0 = 1 ∧
    (match rowNow u 0 0 (cfgRow cfg0) 0 rec0.spa rec0.arow with | .row bs 0 => bs.length == cfgRow cfg0 | _ => false) = true ∧
    rowNow far 0 0 (cfgRow cfg0) 0 [] farVa = .ask ∧ 0 < cfgRow cfg0 ∧
    (match rowNow u 0 0 (cfgRow cfg0) 0 [] 0x200000 with | .miss _ => true | _ => false) = true ∧
    flushOver (gating .rtflush (.away 0) (rt0 Route.reset)) 0 1 = true ∧
    routeHead (gating .rtflush (.away 0) (rt0 Route.reset)) 0 = some { cmdFor .rtflush with st := .away 0 } := by decide +kernel

theorem test_hyp_route_full : 1 < bits (cfgW { cfg0 with words := [cfgW cfg0 0, w64 (4 * 2 ^ 10)] } 1) 10 9 := by decide +kernel

theorem test_hyp_ingress :
    let s := rt0 { Route.reset with incoming := [transfer0 [rec0]] }
    heldOn s (.place 0) = false ∧ (routeOf s 0).agings = 0 ∧ (routeOf s 0).pend = [] ∧ (routeOf s 0).intake = none ∧
    (servesJob s 0 (transfer0 [])).isSome = true ∧ servesJob s 0 { transfer0 [] with task := 6 } = none ∧
    servesJob s 0 (transfer0 [rec0]) = some ing0 ∧ homedHere s ing0 (recGroup { rec0 with w0 := w64 (2 ^ 45) }) = false := by decide +kernel

def heldBuf : ExpBuf := { round := 0, count := 1, out := false, holder := none, since := 0, flags := 0 }
/-- A placement for an expert that is absent and whose wait queue is full. -/
theorem test_hyp_ingress_full :
    let q : WaitQ := { head := 0, ents := List.replicate (cfgWq cfg0) (0, rec0) }
    let s := rt0 { Route.reset with intake := some (transfer0 [rec0], 0, 0, []), waitq := [(0, q)] }
    homedHere s ing0 (recGroup rec0) = true ∧ (placementOf cfg0 rec0 0).map (fun p => p.1) = some 0 ∧
    (match ertRead ing0 0 s with | .ok r => ertState r.1 != 2 && r.2.routes == s.routes | .error _ => false) = true ∧
    (match ertWrite ing0 0 (setBits 0 32 16 1) s with | .ok _ => true | .error _ => false) = true ∧
    cfgWq cfg0 ≤ (wqOf (routeOf s 0) 0).ents.length := by decide +kernel

theorem test_hyp_buffers :
    let s := { rt0 { Route.reset with bufs := [(0, heldBuf)], agings := 1 } with clk := 2 ^ 32 }
    ingOf s 0 = some ing0 ∧ bufOf (routeOf s 0) 0 = heldBuf ∧ heldBuf.since + bits (cfgW cfg0 2) 32 32 ≤ s.clk ∧
    (match ertRead ing0 0 s with | .ok r => r.1 == 0 | .error _ => false) = true ∧
    (match ageAll ing0 cfg0.homed s with | .ok _ => true | .error _ => false) = true := by decide +kernel

/-- The buffer of a resident expert whose time has come. -/
theorem test_hyp_buffer_due :
    let s0 := rt0 { Route.reset with bufs := [(0, { ExpBuf.mk 0 1 false none 0 0 with count := 1 })] }
    let s := { s0 with mem := memWrite s0.mem 0x3000 (toBytes 8 0x20000), clk := 2 ^ 32 }
    (match ertRead ing0 0 s with | .ok r => ertState r.1 == 2 | .error _ => false) = true ∧ (routeOf s 0).requests = [] ∧
    (routeOf s 0).fetching = [] ∧ (bufOf (routeOf s 0) 0).out = false ∧ 0 < (bufOf (routeOf s 0) 0).count := by decide +kernel

/-- Fetches of a launch that has ended, from memory and from a drive that is not granted. -/
def oldFetch (home : W64) : Route := { Route.reset with old := [{ e := 0, home := home, cfg := cfg0, l := launch5 }] }
theorem test_hyp_fetches :
    readyFetch (rt0 (oldFetch 0)) 0 0 = some { x := ing0, e := 0, home := 0, old := true } ∧ holdOf (rt0 (oldFetch 0)) (.fetch 0 0) = none ∧
    bit (0 : W64) 63 = false ∧ bit (w64 (2 ^ 63)) 63 = true ∧ (readyFetch (rt0 (oldFetch (w64 (2 ^ 63)))) 0 0).isSome = true ∧
    fetchReads (rt0 (oldFetch (w64 (2 ^ 63)))) 0 0 = false := by decide +kernel

def read1 : DriveRead := { num := 7, handle := 0, lba := 0, bytes := 512, off := 0, sent := true, core := 0, cmd := 1, die := 0, expert := none, pre := [] }
theorem test_hyp_drive_reads :
    let s := { channelOf (.cstor false 0 0 0) with host := { st.host with reads := [read1] } }
    s.host.reads.find? (fun r => r.num == 7) = some read1 ∧ s.host.reads.find? (fun r => r.num == 8) = none ∧
    (coreOf s read1.core).copyq.find? (fun p => p.num == read1.cmd) = some (cmdFor (.cstor false 0 0 0)) ∧
    cmdFailed s 0 1 (cmdFor (.cstor false 0 0 0)) = false ∧ (List.replicate 32 (0 : Byte)).length ≤ read1.bytes ∧
    bits (0 : W64) 0 19 % 32 + 32 ≤ 32 := by decide +kernel

theorem test_hyp_host :
    apertureOf st 0 = { va := 0, asid := 0 } ∧ (keysBy st (apertureReq (apertureOf st 0) false) (pieces ((apertureOf st 0).va + w64 0x40) 8)).length = 8 ∧
    (keysBy st (apertureReq (apertureOf st 0) true) (pieces ((apertureOf st 0).va + w64 0x40) 8)).length = 8 ∧ st.host.watches = [] ∧
    holdFailed st (.aperture 0) = false ∧ 0x40 + 8 ≤ 2 ^ 32 ∧
    (match rangeKeys st (apertureReq (apertureOf st 0) false) (pieces 0x200000 8) with | .error (_, .miss) => true | _ => false) = true ∧
    bit (4 : W64) 2 = true ∧ watchPlace st 1 4 = .invalid ∧ watchPlace st 64 4 = .ok 64 0x1F ∧ watchPlace st 0x200000 4 = .miss ∧
    condHolds 1 (dwordAt st 64) 0 = false ∧ holdFailed st (.watch 255) = false ∧ holdOf st (.watch 255) = none ∧
    failedStep st 1 = false ∧ st.host.recovery = false ∧ st.host.journal = [] ∧ st.host.reports = [] := by decide +kernel

theorem test_hyp_samples :
    let s (n : Nat) : State := { st with host := { st.host with samples := [{ die := 0, mon := 3, src := n, value := 9 }] } }
    (s 0).host.samples.find? (fun p => p.die == 0 && p.mon == 3 && p.value == 9) = some { die := 0, mon := 3, src := 0, value := 9 } ∧
    bits (monAt (s 0) (monNo 0 3)).ctl 0 4 = 0 ∧ (s 2).host.samples.map (fun p => p.src) = [2] ∧ monOutside st 0 3 = false ∧
    monOutside { st with host := { st.host with monitors := [(monNo 0 3, { ctl := 0x14, mmin := 0, mmax := 0, bins := [] })] } } 0 3 = true := by
  decide +kernel

theorem test_hyp_starts :
    let failed (n : Nat) : State := { st with host := { st.host with journal := [⟨n, 0, 0, some false⟩] } }
    failedStep (failed 1) 1 = true ∧ failedStep (failed 2) 1 = false ∧ failedStep (failed 2) 2 = true ∧ failedStep (failed 8) 8 = true ∧
    failedStep st 1 = false ∧ failedStep st 2 = false ∧ failedStep st 8 = false ∧ ({ st.host with recovery := true }).recovery = true := by
  decide +kernel

theorem test_hyp_monitors :
    let s := { st with host := { st.host with monitors := [(0, { ctl := 0x10, mmin := 0, mmax := 0, bins := [] })] } }
    (bit (monAt s (monNo 0 0)).ctl 4 = true ∧ bits (monAt s (monNo 0 0)).ctl 0 4 < 8) ∧ ¬ bit (monAt st (monNo 0 0)).ctl 4 = true := by decide +kernel

/-! ## More hypotheses that can be met, clause by clause -/

/-- An HX.IMM word of value 0 extends a field by nothing; HX.PRI of either value stands before a send. -/
noncomputable def prefixed0 : State := { st with ctx := { st.ctx with run := [encode (.hxImm 0)] } }
noncomputable def prioritised : State := { st with ctx := { st.ctx with run := [encode (.hxPri 1)] } }
theorem test_hyp_runs : ExtendedBy prefixed0 [0] ∧ PriRun st none ∧ PriRun prioritised (some 1) ∧
    (0 : BitVec 6).toNat + ((7 : BitVec 6).toNat + 1) ≤ 64 := ⟨rfl, rfl, rfl, by decide⟩

/-- The bounds under which a special register shows its numbers in full. -/
theorem test_hyp_special_reads : st.core.id < 2048 ∧ st.ctx.rank < 2048 ∧ lowCount st.core true < 2 ^ 16 ∧
    lowCount st.core false < 2 ^ 32 ∧ highCount st.core true < 2 ^ 6 ∧ highCount st.core false < 2 ^ 32 ∧
    st.core.out.countP (fun e => e.slots.isEmpty) < 2 ^ 6 ∧
    (st.core.out.map (fun e => e.slots.length)).sum + st.core.reserve.length < 2 ^ 32 ∧ myOwe st < 2 ^ 8 ∧ st.ctx.depth < 32 ∧
    st.ctx.sb < 32 ∧ st.ctx.status = .ready ∧ (st.clk : Int) = st.ctx.start + (0 : Nat) ∧ st.ctx.limit < 32 ∧
    resOf st.core st.ctx.task = some share5 ∧ share5.stage < 2 ^ 16 ∧ share5.posted < 2 ^ 17 := by decide +kernel
theorem test_hyp_special_engines : st.core.matq.length < 2 ^ 5 ∧ st.core.matq.find? (fun q => q.st != .done) = none ∧
    st.core.batches.length < 2 ^ 7 ∧ st.core.netq.length < 2 ^ 5 ∧ (upPorts st).length < 2 ^ 7 ∧ inflight (sys st) < 2 ^ 16 ∧
    (sys st).ctx.trap.level = true := by decide +kernel

/-- The last lane has no lane above it, and a region of four bytes takes a word. -/
theorem test_hyp_highest_lane : 2 ≤ st.ctx.logspad ∧ (readM st 0).getLsbD 127 = true ∧ ¬ ∃ j, j < 128 ∧ 127 < j := by
  refine ⟨by decide, by decide +kernel, ?_⟩
  rintro ⟨j, h1, h2⟩; omega

/-- A page of BF16 blocks of 32 elements, whose scales stand in the 4 KiB behind its first 4 KiB. -/
def leafBlocks : W64 := 0x9F + 1 * 2 ^ 48 + 1 * 2 ^ 54
def stBlocks : State := { st with retorts := Vector.replicate 6 { Retort.reset with cache := [{ tlb0 with leaf := leafBlocks }] } }
theorem test_hyp_typed_blocks : cachedLeaf stBlocks (dataReq stBlocks 256 true false) = some leafBlocks ∧ bits leafBlocks 6 4 = 2 ∧
    bits leafBlocks 48 2 = 1 ∧ (256 : W64).toNat % (4096 / 32 * 2) = 0 ∧
    (∀ j < 4096 / 32 / blockSize 1, Maps stBlocks (4096 + w64 (256 / 2 / blockSize 1 + j)) true false (4096 + 256 / 2 / blockSize 1 + j) ∧
      CleanAt stBlocks (4096 + 256 / 2 / blockSize 1 + j) 1) := by
  refine ⟨by decide +kernel, by decide, by decide, by decide, ?_⟩
  unfold Maps CleanAt; decide +kernel
theorem test_hyp_typed_scales : (0 : W64) + (leafBlocks.extractLsb' 54 10).signExtend 64 * 4096 = 4096 ∧
    (∀ i < 4096 / 32 / blockSize 1, ∀ j < 4096 / 32 / blockSize 1, i ≠ j → 4096 + i ≠ 4096 + j) := by
  refine ⟨by decide, fun i _ j _ h => by omega⟩

/-- FENCE with nothing outstanding and with a store outstanding, at each scope. -/
theorem test_hyp_fence_scopes : (∀ p : BitVec 2, p = 1 → ¬ 2 ≤ p.toNat) ∧ 2 ≤ (2 : BitVec 2).toNat ∧ 2 ≤ (3 : BitVec 2).toNat ∧
    mineOut st ++ sawOut st = [] ∧ mineOut (withStore st) ++ sawOut (withStore st) ≠ [] := by decide +kernel

/-- The on-chip entries are taken and the region has room: for a message with a payload too, and whatever its priority. -/
def overflowing : State := { fullOut with launches := [{ launch5 with outlog := 12 }] }
theorem test_hyp_sends_overflow : outChipFree overflowing.core false = false ∧ outChipFree overflowing.core true = false ∧
    (outRoom overflowing overflowing.core 5 false 0).isSome = true ∧ (outRoom overflowing overflowing.core 5 true (descLen 0x400000)).isSome = true ∧
    (bit ({ overflowing with ctx := answering.ctx }).ctx.msg.hstat 2 = true) ∧ outRoom fullOut fullOut.core 5 true 300 = none := by
  decide +kernel
theorem test_hyp_lists_overflow : (outRoom overflowing overflowing.core 5 false (bytesOf (listImage list2)).length).isSome = true ∧
    overflowing.ctx.status = .ready ∧ destOk overflowing (myLaunch overflowing) 0 0x40 0 false true 0 = true ∧
    outRoom fullOut fullOut.core 5 false (bytesOf (listImage list2)).length = none := by decide +kernel

/-- A prioritised event message with a credit and without one. -/
theorem test_hyp_event_credit : mPri (withPriority (some 1) 0) = true ∧ mPri (withPriority (some 0) (w64 (2 ^ 60))) = false ∧
    myOwe st + 1 ≤ (myLaunch st).window ∧
    myOwe { st with core := { st.core with res := [{ share5 with owe := 4 }] } } + 1 > (myLaunch st).window := by decide +kernel

/-- A legal completion descriptor beside an illegal operand, and an illegal one beside legal operands. -/
theorem test_hyp_completion_words : wcLegal (readW st 3) = true ∧ stepOk false false 0 0 = false ∧ cpyCtlOk 0 (w64 (2 ^ 30)) = false ∧
    wcLegal (readW (withRegs [(3, w64 (2 ^ 64 - 1))] st) 3) = false ∧ mmrOk 0x100400000 = true ∧ cpyCtlOk 3 32 = true ∧
    credOk false 1 = true ∧ hasDecomp { st with feat := 0 } = false := by decide +kernel

/-- RTCFG with a store outstanding; an entry word on this module; a wait barrier's buffer behind the stores. -/
theorem test_hyp_routing_waits : mineOut (withStore stRecord) ≠ [] ∧ entryFailed stRecord 0 (wordAt cfgWords 10) = false ∧
    (routeOf stRecord 0).pend = [] ∧ holdOf stRecord (.place 0) = none := by decide +kernel

/-- A context that still runs and looks at its own walk for the second time; a message that no slot walk is behind. -/
theorem test_hyp_second_look : expired (walkingOf 0) (walkingOf 0).ctx = false ∧ firstLook (walkingOf 0) walk1 (.ctx 0 0) = false ∧
    behindSlot (withFlight (flightOf5 0 false 0 0 5)) (flightOf5 0 false 0 0 5) = false ∧
    behindSlot (withFlight (flightOf5 1 true 0 0 5)) (flightOf5 1 true 0 0 5) = false := by decide +kernel

/-- A clash that can still save, the answer's message on chip, and what an event operation gives. -/
theorem test_hyp_launch_parts : victimStill clash 0 5 = true ∧ (storeRead launch5 0 true answer1 answered).2 = some answer1.msg ∧
    ((runRegion (.event 0) launch5 none 0 (evRun launch5 evReq1) (releaseFrom 0 signalling)).2.map (fun r => r.1)) = some [] := by
  decide +kernel

/-- A step's context lives on or stands in a frame; a step that is not skipped has its latch to fill. -/
theorem test_hyp_matrix_saturates : st.ctx.status ≠ .free ∧ st.ctx.inc = (cmdFor (.mmz 0)).inc ∧
    (ctxOf parkedOf 0 0).status = .free ∧ (parkedOf.core.parked.find? (fun p => p.ctx == 0 && p.inc == 0)).isSome = true ∧
    parkedOf.host.watches = [] ∧ stepSkips true (w32 0) Slot.reset = false ∧ (cmdFor (.mmz 0)).latch = none := by decide +kernel

/-- An answer to the first piece of a remote read, and a remote write with one piece to send. -/
def answeredRead : State :=
  let s := silent 0
  { s with fab := { s.fab with txs := [{ tx1 with op := .answer (List.replicate 32 9) 0 0 }] } }
theorem test_hyp_copy_answers : remoteReady answeredRead 0 (cmdFor (.cpyr false 0 farVa 32)) true =
      some { tx1 with op := .answer (List.replicate 32 9) 0 0 } ∧
    copyTurns isRemote (.cpyw false farVa 0 32) = true ∧ remoteReady st 0 (cmdFor (.cpyw false farVa 0 32)) false = none ∧
    0 < cuts 32 farVa.toNat 32 ∧ 0 < cstorBlocks 0 * drive0.block ∧ cstorBlocks 0 * drive0.block ≤ driveMost drive0 ∧
    2 ^ 8 < cstorBlocks 0 * drive0.block := by decide +kernel

/-- Slices that are due: alone, and behind none of another address; a contribution that ends its record. -/
theorem test_hyp_reduction_order : slice1 0 ∈ ({ st with redq := [slice1 0] }).redq ∧ sliceDue { st with redq := [slice1 0] } (slice1 0) = true ∧
    st.reds.find? (recIs (slice1 0)) = none ∧ (slice1 0).slice < (slice1 0).cnt + 1 ∧ (slice1 3).cnt + 1 ≤ (slice1 3).slice ∧
    ({ slice1 0 with cnt := 0 }).cnt = 0 ∧ 0 < (slice1 0).cnt ∧ holdOf st (.red 0x100 5) = none ∧
    (keysBy st (agentReq 0 false false true) (pieces 0x100 (redDstBytes 0 0 * 1))).length = redDstBytes 0 0 ∧
    ({ rec1 with parts := [slice1 0, slice1 1] }).parts.length + 1 = rec1.first.cnt + 1 ∧ st.fab.casts = [] ∧ upPorts st ≠ [] := by
  decide +kernel
theorem test_hyp_multicast_turns : copyTurns isCmc (.cmc 0 0 0) = true ∧ (∃ m ∈ cast1.members, m ≠ st.accel.toNat) ∧
    st.accel.toNat ∈ cast1.members ∧ line1.begun = false ∧ ({ line1 with begun := true }).begun = true := by decide +kernel

/-- Parts of a slice that come over the fabric, a transfer that found no way out, and a port that comes back slower. -/
def podSlice (nel : Nat) : RedMsg := { slice1 0 with nel := nel, data := List.replicate 32 0, src := .pod 1 [] }
def piece1 (nel : Nat) : FabTx := { accel := 1, tag := 6, op := .slice (podSlice nel) }
theorem test_hyp_fabric_slices : seenAnswer st (piece1 64) = none ∧ sliceHere st 1 6 = false ∧ slicesOf st 1 (podSlice 64).num = [] ∧
    (podSlice 64).first = 0 ∧ (podSlice 64).data.length < (podSlice 64).nel ∧ (podSlice 32).nel ≤ (podSlice 32).data.length ∧
    0 < (podSlice 32).nel ∧ (podSlice 32).nel ≤ 32 := by decide +kernel
theorem test_hyp_fabric_tokens :
    let z : Tx := { tx1 with op := .tokens (transfer0 [rec0]) 4 0 1 0 1 }
    let s := { silent (2 ^ 22) with fab := { st.fab with txs := [z] } }
    openTx s 2 = some z ∧ unreachable s z = true ∧ ofTransfer 4 z.op = true ∧ st.host.eventRing = 0 := by decide +kernel

/-- A head buffer whose stores are done, and a landing within one sector of it. -/
theorem test_hyp_landings :
    let s := setRecvQueue 3 ⟨some 5, [buf1], 0⟩ st
    headBehind s 3 = false ∧ min (unitLen (unit1 1 5)) (min (unit1 1 5).total buf1.len) = 8 ∧ (unit1 1 5).off = 0 ∧ (unit1 1 5).bad = 0 ∧
    8 ≤ (unit1 1 5).data.length ∧ buf1.va.toNat % 32 + 8 ≤ 32 ∧ (keysBy s (landReq buf1) [(buf1.va, 8)]).length = 8 ∧
    8 = min (unit1 1 5).total buf1.len ∧ wcSignal buf1.wc = false ∧ wcCredit buf1.wc = false ∧ s.fab.pieces = [] ∧
    headBehind (setRecvQueue 3 ⟨some 5, [{ buf1 with after := [0] }], 0⟩ (withStore st)) 3 = true := by decide +kernel
theorem test_hyp_net_reoffers :
    let s2 := { talking (peer1 [] none) with net := { st.net with peers := [peer1 [] none], sends := [send1] }, clk := 4096 }
    0 + 4096 ≤ s2.clk ∧ (∀ v ∈ unackedOf s2 send1, v.pkt.dsite ≠ s2.site.toNat) ∧ unitLen (unacked1 0).pkt ≤ 256 := by decide +kernel

/-- The parts of a transfer, and the buffer of a resident expert with room for one more record. -/
theorem test_hyp_route_parts : (partsOf (transfer0 [rec0])).length ≤ 1024 ∧ (transfer0 [rec0]).sent = 0 ∧ (transfer0 [rec0]).flush = none ∧
    (partsOf (transfer0 [])).length = 1 := by decide +kernel

def resident0 (w : Nat) (r : Route) : State := { rt0 r with mem := memWrite (rt0 r).mem 0x3000 (toBytes 8 w) }
def recRow : TokRec := { rec0 with row := List.replicate 64 3 }
/-- The entry that the first expert of `recRow` gets, and the state after its FREQ has been raised. -/
noncomputable def placed0 : State :=
  resident0 (0x20000 + 2 ^ 48) { Route.reset with intake := some (transfer0 [recRow], 0, 0, []), bufs := [(0, { heldBuf with count := 1 })] }
theorem test_hyp_route_placement :
    homedHere placed0 ing0 (recGroup recRow) = true ∧ (routeOf placed0 0).paused = none ∧ (placementOf cfg0 recRow 0).isSome = true ∧
    (bufOf (routeOf placed0 0) 0).out = false ∧ (bufOf (routeOf placed0 0) 0).count + 1 < cfgC cfg0 ∧
    (match (do
        let w ← ertRead ing0 0
        ertWrite ing0 0 (setBits w 32 16 (satAdd 16 (ertFreq w) 1))
        rWrite launch5 none (bufVa cfg0 0 + 64) (List.replicate 64 1)
        rWrite launch5 none (bufVa cfg0 0 + w64 (64 * cfgC cfg0 + 8)) (List.replicate 8 1)
        rWrite launch5 none (bufVa cfg0 0 + w64 (72 * cfgC cfg0 + cfgRow cfg0)) (recRow.row.take (cfgRow cfg0))
        ertRead ing0 0 : RegM W64) placed0 with
     | .ok (v, _) => ertState v == 2 && ertRef v
     | .error _ => false) = true := by decide +kernel

/-- Fetches of the live configuration: one that completes, with an empty buffer and with a full one, and one that fails. -/
def fetching0 (home : W64) : Route := { Route.reset with fetching := [(0, home)] }
noncomputable def loading (w : Nat) (b : Nat) (home : W64) : State :=
  resident0 w { fetching0 home with bufs := [(0, { heldBuf with count := b })] }
theorem test_hyp_live_fetches :
    readyFetch (loading 0x10000 0 0) 0 0 = some { x := ing0, e := 0, home := 0, old := false } ∧
    holdOf (loading 0x10000 0 0) (.fetch 0 0) = none ∧ (wqOf (routeOf (loading 0x10000 0 0) 0) 0).ents = [] ∧
    alGet (routeOf (loading 0x10000 0 0) 0).failing 0 0 = 0 ∧ cfgC cfg0 ≠ 0 ∧
    (match ertRead ing0 0 (loading 0x10000 0 0) with | .ok (w, _) => ertState w == 1 && !ertRef w | _ => false) = true ∧
    (bufOf (routeOf (loading 0x10000 0 0) 0) 0).count = 0 ∧
    0 < (bufOf (routeOf (loading (0x10000 + 2 ^ 48) 8 0) 0) 0).count ∧ (bufOf (routeOf (loading (0x10000 + 2 ^ 48) 8 0) 0) 0).count = cfgC cfg0 ∧
    (readyFetch (loading 0x10000 0 (w64 (2 ^ 63))) 0 0).isSome = true ∧ fetchReads (loading 0x10000 0 (w64 (2 ^ 63))) 0 0 = false ∧
    (routeOf (loading 0x10000 0 (w64 (2 ^ 63))) 0).requests = [] := by decide +kernel
theorem test_hyp_live_fetch_result :
    (match fetchResult (loading 0x10000 0 0x100000) { x := ing0, e := 0, home := 0x100000, old := false } with
     | .ok bs => bs.length == 4096 | _ => false) = true ∧
    (match (do ertWrite ing0 0 (setBits 0x10000 16 2 2); ertRead ing0 0 : RegM W64) (loading 0x10000 0 0) with
     | .ok (v, _) => ertState v == 2 && !ertRef v | .error _ => false) = true ∧
    (match (rWrite launch5 none (slotVa cfg0 0) (List.replicate 4096 0) : RegM Unit) (loading 0x10000 0 0) with
     | .ok _ => true | .error _ => false) = true ∧
    (match (ertWrite ing0 0 (setBits (setBits (setBits 0x10000 16 2 0) 20 12 0) 48 16 0) : RegM Unit) (loading 0x10000 0 0) with
     | .ok _ => true | .error _ => false) = true := by decide +kernel
theorem test_hyp_drive_queue : driveOf { st with host := { st.host with drives := [drive0] } } 0 = some drive0 ∧ drive0.head < 256 ∧
    drive0.tail < 256 ∧ (cmdFor (.cstor false 0 0 0)).status &&& csFault = 0 := by decide +kernel

/-- Reads to revoke, and steps of a bring-up that failed, broke off, or stand in a short journal. -/
theorem test_hyp_bring_up :
    let h (ok : Option Bool) (n : Nat) : State := { st with host := { st.host with journal := [⟨n, 0, 0, ok⟩] } }
    { read1 with sent := false } ∈ ({ st.host with reads := [{ read1 with sent := false }] }).reads ∧ read1.handle = 0 ∧
    ({ read1 with sent := false }).sent = false ∧ read1.expert = none ∧ brokenOff (h none 3) 3 = true ∧ brokenOff (h (some true) 3) 3 = false ∧
    failedStep (h none 3) 1 = false ∧ failedStep (h none 3) 2 = false ∧ failedStep (h none 3) 8 = false ∧ alGet st.host.defects.hbm 0 0 < 3 ∧
    failedStep (h (some false) 7) 7 = true ∧ (h (some false) 7).host.journal.length ≤ 240 ∧ failedStep (h (some false) 7) 1 = false := by
  decide +kernel
theorem test_hyp_monitor_stale :
    let s : State := { st with host := { st.host with monitors := [(monNo 0 3, { ctl := 0x1F, mmin := 0, mmax := 0, bins := [] })] } }
    8 ≤ bits (monAt s (monNo 0 3)).ctl 0 4 ∧ (∀ p ∈ s.host.samples, p.src < 8) := by decide +kernel

end Sys2Proof.Tests
end

section
/-! The machine after reset (04 R79, 15 R358): nothing is listed apart from the core and the context in focus, so every accessor
answers the reset value of what it names, whatever the core, context or die. -/
namespace Sys2Proof.Machine

@[simp] theorem alGet_nil {α : Type} (i : Nat) (d : α) : alGet [] i d = d := rfl

@[simp] theorem coreOf_reset (k : Nat) : coreOf State.reset k = Core.reset k := by
  unfold coreOf
  split
  next hk =>
    obtain rfl : 0 = k := by simpa [State.reset, Core.reset] using hk
    rfl
  next => rfl

@[simp] theorem ctxOf_reset (k c : Nat) : ctxOf State.reset k c = Ctx.reset (BitVec.ofNat 4 c) := by
  unfold ctxOf
  split
  next hkc =>
    obtain rfl : 0 = c := by simpa [State.reset, Ctx.reset] using (Bool.and_eq_true_iff.mp hkc).2
    rfl
  next => simp [Core.reset]

@[simp] theorem retortOf_reset (d : Nat) : retortOf State.reset d = Retort.reset :=
  Vector.getElem_replicate (retortIx d).isLt

@[simp] theorem Ctx.reset_reg (n r : BitVec 4) : (Ctx.reset n).reg r = 0 :=
  Vector.getElem_replicate (winIx _ _).isLt

@[simp] theorem Ctx.reset_eregs_get (n : BitVec 4) (r : Fin 8) : (Ctx.reset n).eregs.get r = 0x3F800000 :=
  Vector.getElem_replicate r.isLt

/-- No core is listed apart from the one in focus, and its scratchpad and memory list nothing. -/
theorem canonical_reset : Canonical State.reset := ⟨rfl, rfl, fun _ h => nomatch h⟩

end Sys2Proof.Machine

open Sys2Proof.Machine

/-- Settles O6: each accessor at reset answers the reset value of its context, core or Retort, whose fields are read off. -/
theorem resetLeaves : Obligations.ResetLeaves := by
  unfold Obligations.ResetLeaves
  refine ⟨fun k c _ => ?contexts, fun k => ?cores, fun d asid => ?generations, rfl, rfl, rfl, canonical_reset⟩
  case contexts =>
    rw [ctxOf_reset]
    exact ⟨rfl, rfl, rfl, rfl, rfl, rfl, rfl, rfl, rfl, rfl, Ctx.reset_eregs_get _, Ctx.reset_reg _, rfl⟩
  case cores =>
    rw [coreOf_reset]
    exact ⟨rfl, rfl, rfl, rfl, rfl, rfl, rfl, rfl⟩
  case generations =>
    rw [retortOf_reset]
    rfl
end

section
/-! Encodings of the floating-point formats (02 R15) and their way through a rounding into their own format (02 R17, R27). -/
set_option Elab.async false
namespace Sys2Proof.Machine

/-- The sign, the exponent field and the fraction field of an encoding (02 R15). -/
def encSign (f : Fmt) (n : Nat) : Bool := n / 2 ^ (f.ebits + f.fbits) % 2 == 1
def encExp (f : Fmt) (n : Nat) : Nat := n / 2 ^ f.fbits % 2 ^ f.ebits
def encFrac (f : Fmt) (n : Nat) : Nat := n % 2 ^ f.fbits

/-- The encoding with an exponent field and a fraction field is a NaN or an infinity. -/
def special (f : Fmt) (e m : Nat) : Prop := e = 2 ^ f.ebits - 1 ∧ (f.hasInf = true ∨ m = 2 ^ f.fbits - 1)

/-- What the table of 02 R15 has in common for every format: the largest finite encoding is the one below +∞, or the one below
the NaN with all bits set where the format has no infinities. -/
structure Fmt.Regular (f : Fmt) : Prop where
  maxBelowInf : f.hasInf = true → f.maxEnc + 1 = infEnc f
  maxBelowNan : f.hasInf = false → f.maxEnc + 2 = 2 ^ (f.ebits + f.fbits)
  nanFits : f.nanEnc < 2 ^ f.width

/-- The formats of 02 R15 are regular. -/
theorem regular_formats : ∀ f ∈ [fp32, bf16, fp16, e4m3, e5m2], f.Regular := by
  simp only [List.forall_mem_cons]
  refine ⟨?_, ?_, ?_, ?_, ?_, nofun⟩ <;> exact ⟨by decide, by decide, by decide⟩

theorem encExp_lt (f : Fmt) (n : Nat) : encExp f n < 2 ^ f.ebits := Nat.mod_lt _ (Nat.two_pow_pos _)
theorem encFrac_lt (f : Fmt) (n : Nat) : encFrac f n < 2 ^ f.fbits := Nat.mod_lt _ (Nat.two_pow_pos _)

/-- An encoding is its sign, its exponent field and its fraction field, from the highest. -/
theorem enc_eq_fields (f : Fmt) (n : Nat) (h : n < 2 ^ f.width) :
    n = signEnc f (encSign f n) + (encExp f n * 2 ^ f.fbits + encFrac f n) := by
  have hsign : n / 2 ^ (f.ebits + f.fbits) < 2 := by
    rw [Nat.div_lt_iff_lt_mul (Nat.two_pow_pos _), ← Nat.pow_succ']
    exact Nat.lt_of_lt_of_eq h (by rw [Fmt.width]; congr 1; omega)
  have hlow : n % 2 ^ (f.ebits + f.fbits) = encExp f n * 2 ^ f.fbits + encFrac f n := by
    rw [Nat.add_comm f.ebits, Nat.pow_add, Nat.mod_mul, Nat.mul_comm, Nat.add_comm]; rfl
  have hhigh : signEnc f (encSign f n) = 2 ^ (f.ebits + f.fbits) * (n / 2 ^ (f.ebits + f.fbits)) := by
    obtain h0 | h1 := Nat.le_one_iff_eq_zero_or_eq_one.1 (Nat.le_of_lt_succ hsign)
    · simp [signEnc, encSign, h0]
    · simp [signEnc, encSign, h1]
  rw [← hlow, hhigh, Nat.div_add_mod]

/-- The finite values: a subnormal has the exponent of field 1 and no leading one. -/
theorem decodeFp_finite (f : Fmt) (n : Nat) (h : ¬ special f (encExp f n) (encFrac f n)) :
    decodeFp f n = if encExp f n = 0 then .fin (encSign f n) (encFrac f n) (1 - (f.bias : Int) - f.fbits)
      else .fin (encSign f n) (2 ^ f.fbits + encFrac f n) ((encExp f n : Int) - f.bias - f.fbits) := by
  have hinf : ¬ ((encExp f n == 2 ^ f.ebits - 1 && f.hasInf) = true) := by
    simpa using fun he hi => h ⟨he, .inl hi⟩
  have hnan : ¬ ((encExp f n == 2 ^ f.ebits - 1 && encFrac f n == 2 ^ f.fbits - 1) = true) := by
    simpa using fun he hm => h ⟨he, .inr hm⟩
  simp only [← beq_iff_eq (b := 0)]
  exact (if_neg hinf).trans (if_neg hnan)

/-- The encodings that are no finite value and no NaN are the infinities. -/
theorem decodeFp_special (f : Fmt) (n : Nat) (h : special f (encExp f n) (encFrac f n)) (hn : decodeFp f n ≠ .nan) :
    f.hasInf = true ∧ encFrac f n = 0 ∧ decodeFp f n = .inf (encSign f n) := by
  obtain ⟨he, hs⟩ := h
  have hd : decodeFp f n = if f.hasInf = true ∧ encFrac f n = 0 then .inf (encSign f n) else .nan := by
    unfold decodeFp
    dsimp only
    rw [← encExp, ← encFrac, ← encSign, he]
    cases hi : f.hasInf with
    | true => simp
    | false => simp [hs.resolve_left (by simp [hi])]
  rw [hd] at hn ⊢
  split at hn
  next hc => exact ⟨hc.1, hc.2, if_pos hc⟩
  next => exact absurd rfl hn

/-- A finite encoding, its sign aside, is at most the largest. -/
theorem finite_le_maxEnc (f : Fmt) (hf : f.Regular) (e m : Nat) (he : e < 2 ^ f.ebits) (hm : m < 2 ^ f.fbits)
    (h : ¬ special f e m) : e * 2 ^ f.fbits + m ≤ f.maxEnc := by
  have hstep : e * 2 ^ f.fbits + m + 1 ≤ (e + 1) * 2 ^ f.fbits := by rw [Nat.succ_mul]; omega
  cases hi : f.hasInf with
  | true =>
    have htop : e ≠ 2 ^ f.ebits - 1 := fun h' => h ⟨h', .inl hi⟩
    have hinf : (e + 1) * 2 ^ f.fbits ≤ infEnc f := Nat.mul_le_mul_right _ (by omega)
    have := hf.maxBelowInf hi
    omega
  | false =>
    have hall : (e + 1) * 2 ^ f.fbits ≤ 2 ^ (f.ebits + f.fbits) := by
      rw [Nat.pow_add]; exact Nat.mul_le_mul_right _ he
    have := hf.maxBelowNan hi
    by_cases htop : e = 2 ^ f.ebits - 1
    · have hfrac : m ≠ 2 ^ f.fbits - 1 := fun h' => h ⟨htop, .inr h'⟩
      rw [Nat.succ_mul] at hall
      omega
    · have hbelow : (e + 2) * 2 ^ f.fbits ≤ 2 ^ (f.ebits + f.fbits) := by
        rw [Nat.pow_add]; exact Nat.mul_le_mul_right _ (by omega)
      have := Nat.two_pow_pos f.fbits
      rw [Nat.succ_mul] at hbelow
      omega

/-- An infinity of a format that has it keeps its encoding. -/
theorem roundFp_inf (f : Fmt) (mode : Nat) (neg : Bool) (h : f.hasInf = true) :
    roundFp f mode (.inf neg) = (signEnc f neg + infEnc f, 0) := if_pos h

/-- A value that is a multiple of the unit `2 ^ e` of its own binade needs no rounding: its multiple stands in the encoding above
the units of the lower binades. -/
theorem roundFp_onGrid (f : Fmt) (mode : Nat) (neg : Bool) (m : Nat) (e : Int) (hm : m ≠ 0)
    (hunit : max ((Nat.log2 m : Int) + e) (1 - (f.bias : Int)) - f.fbits = e)
    (hmax : (e - (1 - (f.bias : Int) - f.fbits)).toNat * 2 ^ f.fbits + m ≤ f.maxEnc) :
    roundFp f mode (.fin neg m e) = (signEnc f neg + ((e - (1 - (f.bias : Int) - f.fbits)).toNat * 2 ^ f.fbits + m), 0) := by
  have hround : roundTo mode neg m e e = (m, false) := by simp [roundTo]
  obtain ⟨k, rfl⟩ := Nat.exists_eq_succ_of_ne_zero hm
  simp only [roundFp, hunit, hround]
  rw [if_neg (by omega)]
  simp

/-- A subnormal value keeps its encoding. -/
theorem roundFp_subnormal (f : Fmt) (mode : Nat) (neg : Bool) (m : Nat) (hm : m < 2 ^ f.fbits) (hmax : m ≤ f.maxEnc) :
    roundFp f mode (.fin neg m (1 - (f.bias : Int) - f.fbits)) = (signEnc f neg + m, 0) := by
  by_cases h0 : m = 0
  · subst h0; rfl
  · have hlog : Nat.log2 m < f.fbits := (Nat.log2_lt h0).2 hm
    rw [roundFp_onGrid f mode neg m _ h0 (by omega) (by simpa using hmax)]
    simp

/-- A normal value with exponent field `e` keeps its encoding. -/
theorem roundFp_normal (f : Fmt) (mode : Nat) (neg : Bool) (e m : Nat) (he : e ≠ 0) (hm : m < 2 ^ f.fbits)
    (hmax : e * 2 ^ f.fbits + m ≤ f.maxEnc) :
    roundFp f mode (.fin neg (2 ^ f.fbits + m) ((e : Int) - f.bias - f.fbits)) =
      (signEnc f neg + (e * 2 ^ f.fbits + m), 0) := by
  have hpos : 2 ^ f.fbits + m ≠ 0 := by omega
  have hlog : Nat.log2 (2 ^ f.fbits + m) = f.fbits := (Nat.log2_eq_iff hpos).2 ⟨by omega, by rw [Nat.pow_succ]; omega⟩
  have hexp : ((e : Int) - f.bias - f.fbits - (1 - (f.bias : Int) - f.fbits)).toNat = e - 1 := by omega
  have henc : (e - 1) * 2 ^ f.fbits + (2 ^ f.fbits + m) = e * 2 ^ f.fbits + m := by
    obtain ⟨k, rfl⟩ := Nat.exists_eq_succ_of_ne_zero he
    rw [Nat.succ_mul, Nat.succ_sub_one, Nat.add_assoc]
  rw [roundFp_onGrid f mode neg _ _ hpos (by rw [hlog]; omega) (by rw [hexp, henc]; exact hmax), hexp, henc]

/-- Rounding a decoded encoding into its own format gives the encoding back. -/
theorem roundFp_decodeFp (f : Fmt) (hf : f.Regular) (mode n : Nat) (h : n < 2 ^ f.width) (hn : decodeFp f n ≠ .nan) :
    roundFp f mode (decodeFp f n) = (n, 0) := by
  have hfields := enc_eq_fields f n h
  by_cases hs : special f (encExp f n) (encFrac f n)
  · obtain ⟨hi, hm, hd⟩ := decodeFp_special f n hs hn
    rw [hm, hs.1] at hfields
    rw [hd, roundFp_inf f mode _ hi]
    exact congrArg (·, 0) hfields.symm
  · have hmax := finite_le_maxEnc f hf _ _ (encExp_lt f n) (encFrac_lt f n) hs
    rw [decodeFp_finite f n hs]
    split
    next h0 =>
      rw [h0, Nat.zero_mul, Nat.zero_add] at hmax hfields
      rw [roundFp_subnormal f mode _ _ (encFrac_lt f n) hmax, ← hfields]
    next h0 => rw [roundFp_normal f mode _ _ _ h0 (encFrac_lt f n) hmax, ← hfields]

end Sys2Proof.Machine

open Sys2Proof.Machine

/-- Settles O31: every format of the list is regular, and a regular format's encodings lie on its own grid. -/
theorem roundingKeepsEncodings : Obligations.RoundingKeepsEncodings := by
  intro mode n f hf h hn
  exact roundFp_decodeFp f (regular_formats f hf) mode n h hn
end

section
/-! Vector instructions that pass their checks (09 R196 to R200): what they hold, said by elements. -/
set_option Elab.async false
namespace Sys2Proof.Machine

/-! ## Joining the dispatch queue -/

/-- The state in which a vector instruction computes: its context has joined the core's dispatch queue (09 R199, R200). -/
def joined (srcs : List (Nat × Src)) (s : State) : State :=
  { s with core := { s.core with vecq := s.core.vecq ++ [(s.ctx.num, s.ctx.inc)], reuse := keepSlots s srcs } }

@[simp] theorem readV_joined (srcs : List (Nat × Src)) (s : State) (r : BitVec 5) : readV (joined srcs s) r = readV s r := rfl
@[simp] theorem readM_joined (srcs : List (Nat × Src)) (s : State) (r : BitVec 3) : readM (joined srcs s) r = readM s r := rfl
@[simp] theorem readW_joined (srcs : List (Nat × Src)) (s : State) (r : BitVec 4) : readW (joined srcs s) r = readW s r := rfl
@[simp] theorem rndOf_joined (srcs : List (Nat × Src)) (s : State) : rndOf (joined srcs s) = rndOf s := rfl

/-- Registers are ready when all of a longer list are. -/
theorem VecReady.of_subset {s : State} {vs us : List (BitVec 5)} (h : VecReady s vs) (hu : us ⊆ vs) : VecReady s us :=
  ⟨h.1, fun v hv => h.2 v (hu hv)⟩

theorem vecDeclared_of_ready {s : State} {vs : List (BitVec 5)} (h : VecReady s vs) : vecDeclared s vs = true := by
  simpa [vecDeclared] using h.2

/-- A ready vector instruction computes and goes on. -/
theorem vop_ready {s : State} {vs : List (BitVec 5)} (h : VecReady s vs) (word : Nat) (srcs : List (Nat × Src)) (sw : Bool)
    (k : State → State) : vop word vs srcs sw k s = finish sw (k (joined srcs s)) := by
  rw [vop, vecDeclared_of_ready h, declared_true, vecIssue_joins _ _ _ h.1]; rfl

/-- The same of an instruction that comes to it. -/
theorem exec_of_vop {i : Instr} {s t : State} {vs : List (BitVec 5)} {word : Nat} {srcs : List (Nat × Src)} {sw : Bool}
    {k : State → State} (hr : VecReady s vs) (hx : exec i s = .next (vop word vs srcs sw k s))
    (ht : finish sw (k (joined srcs s)) = t) : exec i s = .next t := by
  rw [hx, vop_ready hr, ht]

/-- The result that it holds, with its flags, is the statement's `vecIssued`. -/
theorem finish_writeV_joined (sw : Bool) (srcs : List (Nat × Src)) (v : BitVec 5) (r : VReg × BitVec 6) (s : State) :
    finish sw (writeV v r (joined srcs s)) = vecIssued sw srcs [.vec v r.1] r.2 s := rfl

/-! ## Elements -/

theorem toNat_lane (w : Nat) (v : VReg) (j : Nat) : (lane w v j).toNat = elem v w j := by
  rw [lane_elem, BitVec.toNat_ofNat]; exact Nat.mod_mod _ _

/-- The elements that the meanings read are the statement's lanes. -/
theorem ev_eq_lane (s : State) (w : Nat) (r : BitVec 5) (i : Nat) : ev s w r i = (lane w (readV s r) i).toNat :=
  (toNat_lane w _ i).symm

theorem w32_ev (s : State) (r : BitVec 5) (i : Nat) : w32 (ev s 32 r i) = lane 32 (readV s r) i := (lane_elem 32 _ i).symm

theorem laneOn_32 (s : State) (m : BitVec 3) (j : Nat) : laneOn s m 32 j = (readM s m).getLsbD j := by
  rw [laneOn, Nat.mul_div_cancel_left j (by omega)]

/-- The instruction completes in the vector unit and holds for `v` a register whose elements of width `w` follow `f`, the old
ones where `f` gives none, and behind it the writes `more`; the flags are those of the new elements together. -/
def HoldsLanes (i : Instr) (s : State) (sw : Bool) (srcs : List (Nat × Src)) (v : BitVec 5) (w : Nat)
    (f : Nat → Option (Nat × BitVec 6)) (more : List RegWrite) : Prop :=
  ∃ r fl, exec i s = .next (vecIssued sw srcs (.vec v r :: more) fl s) ∧
    (∀ k < 4096 / w, lane w r k = match f k with
      | some p => BitVec.ofNat w p.1
      | none => lane w (readV s v) k) ∧
    ∀ b < 6, fl.getLsbD b = (List.range (4096 / w)).any (fun k => (f k).any (fun p => p.2.getLsbD b))

theorem any_range_congr {n : Nat} {p q : Nat → Bool} (h : ∀ k < n, p k = q k) : (List.range n).any p = (List.range n).any q := by
  rw [Bool.eq_iff_iff, List.any_eq_true, List.any_eq_true]
  exact exists_congr fun k => and_congr_right fun hk => by rw [h k (List.mem_range.1 hk)]

/-- A register built by elements over the old one holds them. -/
theorem holdsLanes_buildLanes {i : Instr} {s : State} {sw : Bool} {srcs : List (Nat × Src)} {v : BitVec 5} {w : Nat}
    {f g : Nat → Option (Nat × BitVec 6)} {more : List RegWrite}
    (hx : exec i s = .next (vecIssued sw srcs (.vec v (buildLanes w (readV s v) g).1 :: more) (buildLanes w (readV s v) g).2 s))
    (hg : ∀ k < 4096 / w, g k = f k) : HoldsLanes i s sw srcs v w f more := by
  refine ⟨_, _, hx, fun k hk => ?lanes, fun b _ => ?flags⟩
  case lanes =>
    have hlane := lane_buildLanes w (readV s v) g k hk
    rw [hg k hk] at hlane
    exact hlane
  case flags =>
    rw [buildLanes_flags]
    refine any_range_congr fun k hk => ?_
    rw [hg k hk]
    cases f k <;> rfl

/-- Where the active elements, and they alone, are new, that is the statement's `VecResult`. -/
theorem HoldsLanes.vecResult {i : Instr} {s : State} {sw : Bool} {srcs : List (Nat × Src)} {v : BitVec 5} {w : Nat}
    {m : BitVec 3} {f : Nat → Nat × BitVec 6}
    (h : HoldsLanes i s sw srcs v w (fun j => if laneOn s m w j then some (f j) else none) []) :
    VecResult i s sw srcs v w m f := by
  obtain ⟨r, fl, hx, hl, hf⟩ := h
  refine ⟨r, fl, hx, fun j hj => (hl j hj).trans ?lanes, fun b hb => (hf b hb).trans (any_range_congr fun j _ => ?flags)⟩
  case lanes => dsimp only; cases laneOn s m w j <;> rfl
  case flags => dsimp only; cases laneOn s m w j <;> rfl

/-- A ready instruction that builds a register by elements from the state in which it computes. -/
theorem holdsLanes_of_vop {i : Instr} {s : State} {vs : List (BitVec 5)} {word : Nat} {srcs : List (Nat × Src)} {sw : Bool}
    {v : BitVec 5} {w : Nat} {g : State → Nat → Option (Nat × BitVec 6)} {f : Nat → Option (Nat × BitVec 6)}
    (hr : VecReady s vs)
    (hx : exec i s = .next (vop word vs srcs sw (fun u => writeV v (buildLanes w (readV u v) (g u)) u) s))
    (hg : ∀ k < 4096 / w, g (joined srcs s) k = f k) : HoldsLanes i s sw srcs v w f [] :=
  holdsLanes_buildLanes (exec_of_vop hr hx (finish_writeV_joined sw srcs v _ s)) hg

/-- The same of one whose active elements follow `g`. -/
theorem vecResult_of_vmap {i : Instr} {s : State} {vs : List (BitVec 5)} {word : Nat} {srcs : List (Nat × Src)} {sw : Bool}
    {v : BitVec 5} {w : Nat} {m : BitVec 3} {g : State → Nat → Nat × BitVec 6} {f : Nat → Nat × BitVec 6}
    (hr : VecReady s vs) (hx : exec i s = .next (vop word vs srcs sw (fun u => vmap w v m (g u) u) s))
    (hg : ∀ j, g (joined srcs s) j = f j) : VecResult i s sw srcs v w m f :=
  (holdsLanes_of_vop hr hx (fun j _ => by rw [hg j]; rfl)).vecResult

/-! ## The formats of a type field -/

theorem typeFmt_eq (t : BitVec 2) : typeFmt t = if t = 0 then fp32 else if t = 1 then bf16 else fp16 := by
  simp only [typeFmt, beq_iff_eq]

theorem typeFmt_mem (t : BitVec 2) : typeFmt t ∈ [fp32, bf16, fp16] := by
  rw [typeFmt_eq]
  split
  · exact List.mem_cons_self
  · split
    · exact List.mem_cons_of_mem _ List.mem_cons_self
    · exact List.mem_cons_of_mem _ (List.mem_cons_of_mem _ List.mem_cons_self)

end Sys2Proof.Machine
end

section
/-! Vector floating-point operations (09 R202 to R205): each shape's result, element by element. -/
set_option Elab.async false
namespace Sys2Proof.Machine

/-! ## Operations on the sign bit, as numbers -/

/-- The low bits of an element: its sign bit cleared. -/
theorem toNat_and_allOnes_shift {w : Nat} (hw : 0 < w) (x : BitVec w) :
    (x &&& (BitVec.allOnes w >>> 1)).toNat = x.toNat % 2 ^ (w - 1) := by
  obtain ⟨k, rfl⟩ := Nat.exists_eq_add_of_lt hw
  have hones : (2 ^ (k + 1) - 1) / 2 = 2 ^ k - 1 := by rw [Nat.pow_succ]; omega
  simp [BitVec.toNat_and, Nat.shiftRight_eq_div_pow, hones, Nat.and_two_pow_sub_one_eq_mod]

/-- The sign bit changed. -/
theorem toNat_xor_signBit {w : Nat} (hw : 0 < w) (x : BitVec w) :
    (x ^^^ (1#w <<< (w - 1))).toNat =
      if x.toNat ≥ 2 ^ (w - 1) then x.toNat - 2 ^ (w - 1) else x.toNat + 2 ^ (w - 1) := by
  have hbit : (1#w <<< (w - 1)).toNat = 2 ^ (w - 1) := by
    rw [← BitVec.twoPow_eq, BitVec.toNat_twoPow_of_lt (by omega)]
  have hlow : (x.toNat ^^^ 2 ^ (w - 1)) % 2 ^ (w - 1) = x.toNat % 2 ^ (w - 1) := by simp [Nat.xor_mod_two_pow]
  have hhigh : (x.toNat ^^^ 2 ^ (w - 1)) / 2 ^ (w - 1) = x.toNat / 2 ^ (w - 1) ^^^ 1 := by
    rw [Nat.xor_div_two_pow, Nat.div_self (Nat.two_pow_pos _)]
  have hx : x.toNat / 2 ^ (w - 1) < 2 := by
    rw [Nat.div_lt_iff_lt_mul (Nat.two_pow_pos _), ← Nat.pow_succ', Nat.succ_eq_add_one, Nat.sub_add_cancel hw]
    exact x.isLt
  rw [BitVec.toNat_xor, hbit, ← Nat.div_add_mod (x.toNat ^^^ 2 ^ (w - 1)) (2 ^ (w - 1)), hlow, hhigh]
  have hdm := Nat.div_add_mod x.toNat (2 ^ (w - 1))
  have hlt := Nat.mod_lt x.toNat (Nat.two_pow_pos (w - 1))
  obtain h | h := Nat.le_one_iff_eq_zero_or_eq_one.1 (Nat.le_of_lt_succ hx)
  · rw [h] at hdm ⊢
    rw [if_neg (by omega)]
    simp only [Nat.zero_xor]; omega
  · rw [h] at hdm ⊢
    rw [if_pos (by omega)]
    simp only [Nat.xor_self]; omega

/-! ## The shapes -/

section
variable {i : Instr} {s : State} {word : Nat} {sw : Bool} {v a b : BitVec 5} {m : BitVec 3} {t : BitVec 2}

/-- A binary operation on exact values, rounded. -/
theorem vecResult_vbin {op : Nat → Fp → Fp → Fp × BitVec 6} (hr : VecReady s [v, a, b])
    (hx : exec i s = .next (vbin op word sw v a b m t s)) :
    VecResult i s sw [(1, .v a), (2, .v b), (3, .rest v m)] v (typeFmt t).width m (fun j =>
      rounded (typeFmt t) (rndOf s) (op (rndOf s) (decodeFp (typeFmt t) (lane (typeFmt t).width (readV s a) j).toNat)
        (decodeFp (typeFmt t) (lane (typeFmt t).width (readV s b) j).toNat))) :=
  vecResult_of_vmap hr hx (fun j => by simp only [ev_eq_lane, readV_joined, rndOf_joined])

/-- A unary operation on exact values, rounded. -/
theorem vecResult_vun {op : Fp → Fp × BitVec 6} (hr : VecReady s [v, a]) (hx : exec i s = .next (vun op word sw v a m t s)) :
    VecResult i s sw [(1, .v a), (3, .rest v m)] v (typeFmt t).width m (fun j =>
      rounded (typeFmt t) (rndOf s) (op (decodeFp (typeFmt t) (lane (typeFmt t).width (readV s a) j).toNat))) :=
  vecResult_of_vmap hr hx (fun j => by simp only [ev_eq_lane, readV_joined, rndOf_joined])

/-- A product and a sum, rounded once. -/
theorem vecResult_vfused {negP negD : Bool} (hr : VecReady s [v, a, b])
    (hx : exec i s = .next (vfused negP negD word sw v a b m t s)) :
    VecResult i s sw [(1, .v a), (2, .v b), (3, .v v)] v (typeFmt t).width m (fun j =>
      let p := mulFp (decodeFp (typeFmt t) (lane (typeFmt t).width (readV s a) j).toNat)
        (decodeFp (typeFmt t) (lane (typeFmt t).width (readV s b) j).toNat)
      let d := decodeFp (typeFmt t) (lane (typeFmt t).width (readV s v) j).toNat
      let r := addFp (rndOf s) (if negP then negFp p.1 else p.1) (if negD then negFp d else d)
      rounded (typeFmt t) (rndOf s) (r.1, p.2 ||| r.2)) :=
  vecResult_of_vmap hr hx (fun j => by simp only [ev_eq_lane, readV_joined, rndOf_joined])

/-- The smaller or the larger element, as it stands. -/
theorem vecResult_vminmax {isMax : Bool} (hr : VecReady s [v, a, b])
    (hx : exec i s = .next (vminmax isMax word sw v a b m t s)) :
    VecResult i s sw [(1, .v a), (2, .v b), (3, .rest v m)] v (typeFmt t).width m (fun j =>
      minmaxF (typeFmt t) isMax (lane (typeFmt t).width (readV s a) j).toNat (lane (typeFmt t).width (readV s b) j).toNat) :=
  vecResult_of_vmap hr hx (fun j => by simp only [ev_eq_lane, readV_joined])

/-- An operation on the sign bit, whatever bits it is written with. -/
theorem vecResult_vsign {g : Nat → Nat → Nat} {G : BitVec (typeFmt t).width → BitVec (typeFmt t).width}
    (hr : VecReady s [v, a]) (hx : exec i s = .next (vsign g word sw v a m t s))
    (hg : ∀ x, g (2 ^ ((typeFmt t).width - 1)) x.toNat = (G x).toNat) :
    VecResult i s sw [(1, .v a), (3, .rest v m)] v (typeFmt t).width m (fun j =>
      ((G (lane (typeFmt t).width (readV s a) j)).toNat, 0)) :=
  vecResult_of_vmap hr hx (fun j => by simp only [ev_eq_lane, readV_joined, hg])

end

end Sys2Proof.Machine

open Sys2Proof.Machine

/-- Settles O32: each operation has one of five shapes, and each shape's elements are those of the statement. -/
theorem vectorFloatResults : Obligations.VectorFloatResults := by
  intro s sw v a b m t _ hr
  rw [← typeFmt_eq t]
  have hr2 : VecReady s [v, a] := hr.of_subset (by simp)
  have hw : 0 < (typeFmt t).width := by rw [Fmt.width]; omega
  exact ⟨vecResult_vbin hr rfl, vecResult_vbin (op := fun md x y => addFp md x (negFp y)) hr rfl,
    vecResult_vbin (op := fun _ => mulFp) hr rfl, vecResult_vbin (op := fun _ => divFp) hr rfl,
    vecResult_vfused (negP := false) (negD := false) hr rfl, vecResult_vfused (negP := false) (negD := true) hr rfl,
    vecResult_vfused (negP := true) (negD := false) hr rfl,
    vecResult_vminmax hr rfl, vecResult_vminmax hr rfl,
    vecResult_vun hr2 rfl, vecResult_vun (op := fun x => (exp2Fp x, 0)) hr2 rfl, vecResult_vun hr2 rfl,
    vecResult_vsign (G := fun x => x &&& (BitVec.allOnes _ >>> 1)) hr2 rfl (fun x => (toNat_and_allOnes_shift hw x).symm),
    vecResult_vsign (G := fun x => x ^^^ (1#_ <<< (_ - 1))) hr2 rfl (fun x => (toNat_xor_signBit hw x).symm)⟩
end

section
/-! Conversions, quantisation and its inverse (09 R207 to R213): the elements that each instruction makes. -/
set_option Elab.async false
namespace Sys2Proof.Machine

/-! ## Conversion (09 R207, R208) -/

theorem convElem_eq (c e : BitVec 4) (mode x : Nat) :
    convElem c.toNat e.toNat mode x = if c = e then (x, 0) else encodeElem e.toNat mode (decodeElem c.toNat x) := by
  simp only [convElem, beq_iff_eq, BitVec.toNat_inj]

/-- Element `k` of the source converted, under the mask bit of the `i`th of `n` converted elements. -/
def convLane (s : State) (a : BitVec 5) (m : BitVec 3) (c e : BitVec 4) (n i k : Nat) : Option (Nat × BitVec 6) :=
  let z := (lane (fmtBits c.toNat) (readV s a) k).toNat
  if (readM s m).getLsbD (128 * i / n) then
    some (if c = e then (z, 0) else encodeElem e.toNat (rndOf s) (decodeElem c.toNat z))
  else none

/-- Element `k` of a conversion: a narrower destination takes part `p` of the source, a wider one is filled in part `p`. -/
def vcvtElem (s : State) (a : BitVec 5) (m : BitVec 3) (c e : BitVec 4) (p k : Nat) : Option (Nat × BitVec 6) :=
  let nS := lanesOf (fmtBits c.toNat)
  let nD := lanesOf (fmtBits e.toNat)
  let n := min nS nD
  if nD ≤ nS then convLane s a m c e n k (if nD < nS then p * n + k else k)
  else if p * n ≤ k ∧ k < p * n + n then convLane s a m c e n (k - p * n) (k - p * n) else none

/-! ## Scales (09 R210, R211) -/

theorem lane32_eq (s : State) (a : BitVec 5) (i : Nat) : lane32 s a i = dec32 (lane 32 (readV s a) i) := by
  rw [lane32, w32_ev]

theorem blockScales_eq (s : State) (a : BitVec 5) (mk : MaskReg) (fmt geom : Nat) :
    blockScales s a mk fmt geom = (List.range (128 / blockSize geom)).map (fun q => sharedScale fmt
      (((List.range (blockSize geom)).filter (fun j => mk.getLsbD (blockSize geom * q + j))).map
        (fun j => dec32 (lane 32 (readV s a) (blockSize geom * q + j))))) := by
  simp only [blockScales, lane32_eq]

/-- A block has at least 16 elements, so a register of 128 has at most 8 blocks (02 R24). -/
theorem div_blockSize_lt (geom i : Nat) (h : i < 128) : i / blockSize geom < 8 := by
  unfold blockSize
  split
  · omega
  · split <;> omega

/-- Scale byte `b` of a general register. -/
theorem scalesIn_getD (s : State) (g : BitVec 4) (b d : Nat) (h : b < 8) :
    (scalesIn s g).getD b d = ((readW s g).extractLsb' (8 * b) 8).toNat := by
  simp [scalesIn, h, bits, Nat.shiftRight_eq_div_pow]

/-- The scale of a lane: that of its block, 1.0 without geometry. -/
theorem scaleOfLane_eq (xs : List Nat) (e : BitVec 2) (i : Nat) :
    scaleOfLane xs e.toNat i = if e = 0 then 127 else xs.getD (i / blockSize e.toNat) 127 := by
  by_cases he : e = 0
  · subst he; rfl
  · have hn : e.toNat ≠ 0 := fun h => he (BitVec.eq_of_toNat_eq h)
    rw [scaleOfLane, if_neg (by simpa using hn), if_neg he]

theorem scaleOfLane_scalesIn (s : State) (g : BitVec 4) (e : BitVec 2) (i : Nat) (h : i < 128) :
    scaleOfLane (scalesIn s g) e.toNat i =
      if e = 0 then 127 else ((readW s g).extractLsb' (8 * (i / blockSize e.toNat)) 8).toNat := by
  rw [scaleOfLane_eq, scalesIn_getD _ _ _ _ (div_blockSize_lt _ i h)]

/-! ## Quantisation (09 R211) -/

/-- Element `k` of a quantisation of `va` into part `p` with the scale `sc` of each lane: none outside of the part and where the
lane is inactive. -/
def quantElem (s : State) (a : BitVec 5) (m : BitVec 3) (fmt p : Nat) (sc : Nat → Nat) (k : Nat) : Option (Nat × BitVec 6) :=
  let i := k - 128 * p
  if 128 * p ≤ k ∧ i < 128 ∧ (readM s m).getLsbD i then
    some (encodeElem fmt (rndOf s) (unscaleFp (dec32 (lane 32 (readV s a) i)) (sc i)))
  else none

/-- The register that a quantisation builds holds these elements. -/
theorem quantLanes_eq (s : State) (v a : BitVec 5) (m : BitVec 3) (fmt geom p : Nat) (xs : List Nat) (sc : Nat → Nat)
    (h : ∀ i < 128, scaleOfLane xs geom i = sc i) :
    quantLanes s v a (readM s m) fmt geom p xs = buildLanes (fmtBits fmt) (readV s v) (quantElem s a m fmt p sc) := by
  refine congrArg (buildLanes _ _) (funext fun k => ?_)
  simp only [quantElem, Bool.and_eq_true, decide_eq_true_eq, and_assoc, lane32_eq]
  by_cases hk : 128 * p ≤ k ∧ k - 128 * p < 128 ∧ (readM s m).getLsbD (k - 128 * p) = true
  · rw [if_pos hk, if_pos hk, h _ hk.2.1]
  · rw [if_neg hk, if_neg hk]

/-- A general register held behind the vector result. -/
theorem finish_writeW_writeV_joined (sw : Bool) (srcs : List (Nat × Src)) (v : BitVec 5) (g : BitVec 4) (x : W64)
    (r : VReg × BitVec 6) (s : State) :
    finish sw (writeW g x (writeV v r (joined srcs s))) = vecIssued sw srcs [.vec v r.1, .gpr g x] r.2 s := by
  simp [finish, writeW, writeV, flagFp, put, vecIssued, issued, Ctx.advance, joined]

/-- A general register held alone. -/
theorem finish_writeW_joined (sw : Bool) (srcs : List (Nat × Src)) (g : BitVec 4) (x : W64) (s : State) :
    finish sw (writeW g x (joined srcs s)) = vecIssued sw srcs [.gpr g x] 0 s := by
  simp [finish, writeW, put, vecIssued, issued, Ctx.advance, joined]

/-! ## The instructions -/

section
variable (s : State) (sw : Bool) (v a : BitVec 5) (g : BitVec 4) (m : BitVec 3)

/-- VCVT: the elements that fit both registers; a part names which (09 R207, R208). -/
theorem vcvt_holdsLanes (c e : BitVec 4) (p : BitVec 2) (hr : VecReady s [v, a]) :
    HoldsLanes (.vcvt sw v a c m e p) s sw
      [(1, .v a), (3, if lanesOf (fmtBits c.toNat) < lanesOf (fmtBits e.toNat) then .v v else .rest v m)] v (fmtBits e.toNat)
      (vcvtElem s a m c e p.toNat) [] := by
  refine holdsLanes_of_vop hr rfl (fun k _ => ?_)
  simp only [vcvtElem, convLane, readM_joined, rndOf_joined, ev_eq_lane, readV_joined, convElem_eq, Bool.and_eq_true,
    decide_eq_true_eq]
  by_cases hw : lanesOf (fmtBits e.toNat) ≤ lanesOf (fmtBits c.toNat)
  · rw [if_neg (Nat.not_lt.2 hw), if_pos hw]
  · rw [if_pos (Nat.lt_of_not_le hw), if_neg hw, if_neg (Nat.not_lt.2 (Nat.le_of_not_le hw))]

/-- VQUANT: the elements under the scales of the blocks, and the scales in wg (09 R210, R211). -/
theorem vquant_holdsLanes (f : BitVec 4) (e p : BitVec 2) (hr : VecReady s [v, a]) :
    HoldsLanes (.vquant sw v a g m f e p) s sw [(1, .v a), (3, .v v)] v (fmtBits f.toNat)
      (quantElem s a m f.toNat p.toNat (fun i => if e = 0 then 127
        else (blockScales s a (readM s m) f.toNat e.toNat).getD (i / blockSize e.toNat) 127))
      (if e = 0 then [] else [.gpr g (packScales (blockScales s a (readM s m) f.toNat e.toNat))]) := by
  refine holdsLanes_buildLanes (exec_of_vop hr rfl ?_) (fun _ _ => rfl)
  by_cases he : e = 0
  · rw [← quantLanes_eq s v a m f.toNat e.toNat p.toNat [] _ (fun i _ => by rw [scaleOfLane_eq, if_pos he, if_pos he])]
    subst he
    rfl
  · rw [← quantLanes_eq s v a m f.toNat e.toNat p.toNat _ _ (fun i _ => scaleOfLane_eq _ e i), if_neg he]
    dsimp only
    rw [if_neg (by simpa using he), if_neg (by simpa using he)]
    exact finish_writeW_writeV_joined sw _ v g _ _ s

/-- VQUANT.FIX: the elements under the scales that wg holds (09 R211). -/
theorem vquantFix_holdsLanes (f : BitVec 4) (e p : BitVec 2) (hr : VecReady s [v, a]) :
    HoldsLanes (.vquantFix sw v a g m f e p) s sw [(1, .v a), (2, .g g), (3, .v v)] v (fmtBits f.toNat)
      (quantElem s a m f.toNat p.toNat (fun i => if e = 0 then 127
        else ((readW s g).extractLsb' (8 * (i / blockSize e.toNat)) 8).toNat)) [] := by
  refine holdsLanes_buildLanes (exec_of_vop hr rfl ?_) (fun _ _ => rfl)
  rw [← quantLanes_eq s v a m f.toNat e.toNat p.toNat _ _ (fun i hi => scaleOfLane_scalesIn s g e i hi)]
  rfl

/-- VDEQ: the active elements of the part under the scales that wg holds, rounded into FP32 (09 R212). -/
theorem vdeq_holdsLanes (f : BitVec 4) (e p : BitVec 2) (hr : VecReady s [v, a]) :
    HoldsLanes (.vdeq sw v a g m f e p) s sw [(1, .v a), (2, .g g), (3, .rest v m)] v 32 (fun i => if (readM s m).getLsbD i then
      some (roundFp fp32 (rndOf s) (scaleFp (decodeElem f.toNat
        (lane (fmtBits f.toNat) (readV s a) (128 * p.toNat + i)).toNat)
        (if e = 0 then 127 else ((readW s g).extractLsb' (8 * (i / blockSize e.toNat)) 8).toNat))) else none) [] := by
  refine holdsLanes_of_vop hr rfl (fun i hi => ?_)
  have hact : active (readM s m) 32 i = (readM s m).getLsbD i := laneOn_32 s m i
  simp only [readM_joined, rndOf_joined, ev_eq_lane, readV_joined, hact, ← scaleOfLane_scalesIn s g e i hi]
  rfl

/-- VSCALE: the scales of the lanes of a block maximum (09 R213). -/
theorem exec_vscale (f : BitVec 4) (e : BitVec 2) (hr : VecReady s [a]) :
    exec (.vscale sw a g f e) s = .next (vecIssued sw [(1, .v a)] [.gpr g (packScales
      ((List.range (128 / blockSize e.toNat)).map (fun j => sharedScale f.toNat [dec32 (lane 32 (readV s a) j)])))] 0 s) := by
  refine exec_of_vop hr rfl ?_
  rw [finish_writeW_joined]
  simp only [lane32_eq, readV_joined]

/-- VBMAX: one element for each block, the others are 0 (09 R213). -/
theorem exec_vbmax (e : BitVec 2) (hr : VecReady s [v, a]) :
    ∃ r fl, exec (.vbmax sw v a m e) s = .next (vecIssued sw [(1, .v a)] [.vec v r] fl s) ∧
      ∀ j < 128, 128 / blockSize e.toNat ≤ j → lane 32 r j = 0 := by
  refine ⟨_, _, exec_of_vop hr rfl (finish_writeV_joined sw _ v _ s), fun j hj hb => ?_⟩
  rw [lane_buildLanes _ _ _ _ hj, if_neg (Nat.not_lt.2 hb)]
  rfl

end

end Sys2Proof.Machine

open Sys2Proof.Machine

/-- Settles O34, instruction by instruction. -/
theorem vectorConversions : Obligations.VectorConversions := by
  intro s sw v a g m hr
  refine ⟨fun c e p _ => vcvt_holdsLanes s sw v a m c e p hr, fun f e p _ _ => ⟨?_, vquantFix_holdsLanes s sw v a g m f e p hr,
    vdeq_holdsLanes s sw v a g m f e p hr, fun _ => exec_vscale s sw a g f e (hr.of_subset (by simp)),
    fun _ => exec_vbmax s sw v a m e hr⟩⟩
  have h := vquant_holdsLanes s sw v a g m f e p hr
  rw [blockScales_eq] at h
  exact h
end

section
/-! Reductions and scans (02 R35 to R37, 09 R217): element 0 by the tree, and the running sums. -/
set_option Elab.async false
namespace Sys2Proof.Machine

/-! ## Rounded results fit their format -/

theorem Fmt.Regular.maxEnc_lt {f : Fmt} (hf : f.Regular) : f.maxEnc < 2 ^ (f.ebits + f.fbits) := by
  cases hi : f.hasInf with
  | true =>
    have hinf : infEnc f ≤ 2 ^ (f.ebits + f.fbits) := by
      rw [infEnc, Nat.pow_add]; exact Nat.mul_le_mul_right _ (Nat.sub_le _ _)
    have := hf.maxBelowInf hi
    omega
  | false =>
    have := hf.maxBelowNan hi
    omega

/-- A magnitude with a sign is an encoding. -/
theorem signEnc_add_lt (f : Fmt) (neg : Bool) {n : Nat} (h : n < 2 ^ (f.ebits + f.fbits)) : signEnc f neg + n < 2 ^ f.width := by
  have hw : 2 ^ f.width = 2 ^ (f.ebits + f.fbits) + 2 ^ (f.ebits + f.fbits) := by
    rw [Fmt.width, Nat.add_assoc, Nat.add_comm, Nat.pow_succ]; omega
  rw [hw, signEnc]
  split <;> omega

theorem infEnc_lt (f : Fmt) : infEnc f < 2 ^ (f.ebits + f.fbits) := by
  rw [infEnc, Nat.pow_add]
  exact Nat.mul_lt_mul_of_pos_right (Nat.sub_lt (Nat.two_pow_pos _) Nat.one_pos) (Nat.two_pow_pos _)

theorem overflowEnc_lt {f : Fmt} (hf : f.Regular) (mode : Nat) (neg : Bool) :
    overflowEnc f mode neg < 2 ^ (f.ebits + f.fbits) := by
  have hm := hf.maxEnc_lt
  have hi := infEnc_lt f
  unfold overflowEnc
  repeat' split
  all_goals assumption

/-- A rounded value is an encoding of its format. -/
theorem roundFp_lt {f : Fmt} (hf : f.Regular) (mode : Nat) (x : Fp) : (roundFp f mode x).1 < 2 ^ f.width := by
  cases x with
  | nan => exact hf.nanFits
  | inf neg =>
    rw [roundFp]
    split
    · exact signEnc_add_lt f neg (infEnc_lt f)
    · exact signEnc_add_lt f neg hf.maxEnc_lt
  | fin neg m e =>
    cases m with
    | zero => exact signEnc_add_lt f neg (Nat.two_pow_pos _)
    | succ m =>
      simp only [roundFp]
      split
      · exact signEnc_add_lt f neg (overflowEnc_lt hf mode neg)
      next h => exact signEnc_add_lt f neg (Nat.lt_of_le_of_lt (Nat.not_lt.1 h) hf.maxEnc_lt)

theorem typeFmt_regular (t : BitVec 2) : (typeFmt t).Regular :=
  regular_formats _ (List.mem_append_left [e4m3, e5m2] (typeFmt_mem t))

/-- A register holds elements of every type. -/
theorem lanesOf_typeFmt_pos (t : BitVec 2) : 0 < lanesOf (typeFmt t).width := by
  rw [typeFmt_eq]
  split
  · decide
  · split <;> decide

/-! ## Running sums -/

/-- The encodings of a scan: each is the rounded sum of the one before and its own element (02 R36). -/
def scanSums (f : Fmt) (mode acc : Nat) (xs : List Nat) : List Nat := acc :: (scanGo f mode acc xs).map (fun p => p.1)

theorem scanSums_cons (f : Fmt) (mode acc x : Nat) (xs : List Nat) :
    scanSums f mode acc (x :: xs) = acc :: scanSums f mode (addEnc f mode acc x).1 xs := rfl

@[simp] theorem scanSums_length (f : Fmt) (mode acc : Nat) (xs : List Nat) : (scanSums f mode acc xs).length = xs.length + 1 := by
  induction xs generalizing acc with
  | nil => rfl
  | cons x xs ih => rw [scanSums_cons, List.length_cons, ih, List.length_cons]

theorem scanSums_succ (f : Fmt) (mode acc : Nat) (xs : List Nat) (j : Nat) (h : j < xs.length) :
    (scanSums f mode acc xs)[j + 1]'(by simpa using h) =
      (addEnc f mode ((scanSums f mode acc xs)[j]'(by simp; omega)) xs[j]).1 := by
  induction xs generalizing acc j with
  | nil => simp at h
  | cons x xs ih =>
    cases j with
    | zero => rfl
    | succ j => exact ih _ j (Nat.lt_of_succ_lt_succ h)

/-- Each of them is an encoding when the first is. -/
theorem scanSums_lt {f : Fmt} (hf : f.Regular) (mode acc : Nat) (hacc : acc < 2 ^ f.width) (xs : List Nat) :
    ∀ y ∈ scanSums f mode acc xs, y < 2 ^ f.width := by
  induction xs generalizing acc with
  | nil => simpa [scanSums, scanGo] using hacc
  | cons x xs ih =>
    rw [scanSums_cons, List.forall_mem_cons]
    exact ⟨hacc, ih _ (roundFp_lt hf mode _)⟩

/-- The register of the running sums of `x` over all lanes. -/
theorem lane_scanSums {f : Fmt} (hf : f.Regular) (mode : Nat) (x : Nat → Nat) (hpos : 0 < lanesOf f.width)
    (hx0 : x 0 < 2 ^ f.width) :
    let xs := (List.range (lanesOf f.width)).map x
    let r := ofElems f.width (scanSums f mode (xs.headD 0) xs.tail)
    lane f.width r 0 = BitVec.ofNat f.width (x 0) ∧
      ∀ j, j + 1 < lanesOf f.width →
        lane f.width r (j + 1) = BitVec.ofNat f.width (addEnc f mode (lane f.width r j).toNat (x (j + 1))).1 := by
  intro xs r
  obtain ⟨n, hn⟩ := Nat.exists_eq_succ_of_ne_zero (Nat.ne_of_gt hpos)
  have hxs : xs = x 0 :: (List.range n).map (fun j => x (j + 1)) := by
    simp [xs, hn, List.range_succ_eq_map, Function.comp_def]
  simp only [r, hxs, List.headD_cons, List.tail_cons]
  generalize hys : scanSums f mode (x 0) ((List.range n).map (fun j => x (j + 1))) = ys
  have hlen : ys.length = lanesOf f.width := by simp [← hys, hn]
  have hlane (j : Nat) (hj : j < ys.length) : lane f.width (ofElems f.width ys) j = BitVec.ofNat f.width ys[j] :=
    lane_ofElems _ ys j hj (hlen ▸ Nat.mul_div_le 4096 f.width)
  refine ⟨(hlane 0 (by omega)).trans (by simp [← hys, scanSums]), fun j hj => ?_⟩
  have hlt := scanSums_lt hf mode _ hx0 ((List.range n).map (fun j => x (j + 1)))
  rw [hys] at hlt
  have hprev : (lane f.width (ofElems f.width ys) j).toNat = ys[j] := by
    rw [hlane j (by omega), BitVec.toNat_ofNat]
    exact Nat.mod_eq_of_lt (hlt _ (List.getElem_mem _))
  rw [hlane (j + 1) (by omega), hprev]
  subst hys
  rw [scanSums_succ _ _ _ _ j (by simp; omega)]
  simp

/-! ## The instructions -/

section
variable {i : Instr} {s : State} {word : Nat} {sw : Bool} {v a : BitVec 5} {m : BitVec 3} {t : BitVec 2}

/-- Element `j` of a reduction's operand: `idn` where it is inactive. -/
def redElem (s : State) (a : BitVec 5) (m : BitVec 3) (w idn j : Nat) : Nat :=
  if laneOn s m w j then (lane w (readV s a) j).toNat else idn

/-- The elements that a reduction or a scan computes with. -/
theorem operand_eq (srcs : List (Nat × Src)) (s : State) (a : BitVec 5) (m : BitVec 3) (w idn : Nat) :
    (fun j => if active (readM (joined srcs s) m) w j then ev (joined srcs s) w a j else idn) = redElem s a m w idn := by
  funext j
  simp only [ev_eq_lane, readV_joined, readM_joined]
  rfl

/-- A reduction writes element 0 alone, by the tree over the elements. -/
theorem vred_holds {idn : Fmt → Nat} {op : Fmt → Nat → Nat → Nat → Nat × BitVec 6} (hr : VecReady s [v, a])
    (hx : exec i s = .next (vred idn op word sw v a m t s)) :
    let w := (typeFmt t).width
    ∃ r fl, exec i s = .next (vecIssued sw [(1, .v a), (3, .v v)] [.vec v r] fl s) ∧
      (∀ j < 4096 / w, j ≠ 0 → lane w r j = lane w (readV s v) j) ∧
      lane w r 0 = BitVec.ofNat w ((treeGo (op (typeFmt t) (rndOf s)) (Nat.log2 (4096 / w))
        ((List.range (4096 / w)).map (redElem s a m w (idn (typeFmt t))), 0)).1.headD 0) := by
  intro w
  have hpos : 0 < 4096 / w := lanesOf_typeFmt_pos t
  obtain ⟨r, fl, he, hl, _⟩ := holdsLanes_of_vop hr hx (fun _ _ => rfl)
  refine ⟨r, fl, he, fun j hj hj0 => ?others, ?first⟩
  case others =>
    exact (hl j hj).trans (by dsimp only; rw [if_neg (by simpa using hj0)])
  case first =>
    rw [hl 0 hpos, operand_eq]
    rfl

/-- A scan holds a register of the running sums of its operand. -/
theorem exec_vscanAdd (hr : VecReady s [v, a]) :
    let w := (typeFmt t).width
    let xs := (List.range (lanesOf w)).map (redElem s a m w (signEnc (typeFmt t) true))
    ∃ fl, exec (.vscanAdd sw v a m t) s =
      .next (vecIssued sw [(1, .v a)] [.vec v (ofElems w (scanSums (typeFmt t) (rndOf s) (xs.headD 0) xs.tail))] fl s) := by
  intro w xs
  simp only [xs, ← operand_eq [(1, .v a)]]
  exact ⟨_, exec_of_vop hr rfl (finish_writeV_joined sw _ v _ s)⟩

/-- A scan writes every element: the first as it stands, each other the rounded sum of the one before and its own. -/
theorem vscanAdd_holds (hr : VecReady s [v, a]) :
    let w := (typeFmt t).width
    let x := redElem s a m w (signEnc (typeFmt t) true)
    ∃ r fl, exec (.vscanAdd sw v a m t) s = .next (vecIssued sw [(1, .v a)] [.vec v r] fl s) ∧
      lane w r 0 = BitVec.ofNat w (x 0) ∧
      ∀ j, j + 1 < 4096 / w →
        lane w r (j + 1) = BitVec.ofNat w (addEnc (typeFmt t) (rndOf s) (lane w r j).toNat (x (j + 1))).1 := by
  intro w x
  obtain ⟨fl, hx⟩ := exec_vscanAdd (sw := sw) (m := m) (t := t) hr
  have hx0 : x 0 < 2 ^ w := by
    simp only [x, redElem]
    split
    · exact (lane w (readV s a) 0).isLt
    · exact signEnc_add_lt (typeFmt t) true (Nat.two_pow_pos _)
  exact ⟨_, fl, hx, lane_scanSums (typeFmt_regular t) (rndOf s) x (lanesOf_typeFmt_pos t) hx0⟩

end

end Sys2Proof.Machine
end

section
/-! Distances (09 R221 to R223): the checks of a descriptor, and the scores of the active lanes. -/
set_option Elab.async false
namespace Sys2Proof.Machine

/-- An offset of a descriptor as TRAPV and the alignment check see it. -/
theorem toNat_w64_tdOffset (d : W64) : (w64 (tdOffset d)).toNat = tdOffset d := by
  rw [w64, BitVec.toNat_ofNat]
  exact Nat.mod_eq_of_lt (Nat.lt_of_lt_of_le (Nat.mod_lt _ (Nat.two_pow_pos 19)) (by decide))

theorem queryFmt_eq (fmt : Nat) : queryFmt fmt = if fmt = 7 then 4 else fmt := by
  simp only [queryFmt, beq_iff_eq]

/-- The format of the query, E4M3 beside T2P8 candidates, and its elements in a register (09 R221). -/
def distFmt (d : W64) : Nat := if tdFmt d = 7 then 4 else tdFmt d
def distDepth (d : W64) : Nat := lanesOf (fmtBits (distFmt d))

/-- The score of lane `j` with its flags: the query in `q` against the candidate row of the lane, continued from the lane of `v`
(09 R222, R223). -/
def distScore (s : State) (kind : Nat) (v q : BitVec 5) (d : W64) (j : Nat) : Nat × BitVec 6 :=
  let query := rowOf (distFmt d) 0 (distDepth d) (vregBytes (readV s q)) []
  let r := distLane kind (tdFmt d) query (distCand s d (distDepth d) (distRowIx s d j)) (lane 32 (readV s v) j)
  (r.1.toNat, r.2)

section
variable {i : Instr} {s : State} {sw : Bool} {v q : BitVec 5} {g : BitVec 4} {m : BitVec 3} {kind : Nat}

/-- Behind its checks VDIST is a vector instruction whose active elements are the scores. -/
theorem vdist_ready (word : Nat) (hr : VecReady s [v, q]) (hd : distOk (kind == 2) (readW s g) = true)
    (ho : tdOffset (readW s g) % 64 = 0) (hb : distBad s (readW s g) (distDepth (readW s g)) (activeLanes (readM s m)) = none) :
    vdist kind word sw v q g m s =
      vop word [v, q] [(1, .v q), (2, .g g), (3, if kind == 2 then .rest v m else .v v)] sw
        (fun u => vmap 32 v m (distScore u kind v q (readW s g)) u) s := by
  rw [distDepth, distFmt, ← queryFmt_eq] at hb
  rw [vdist, vop, vecDeclared_of_ready hr, hd, legal_true, declared_true, declared_true,
    aligned_ok _ _ _ _ (by rwa [toNat_w64_tdOffset])]
  unfold distScore distDepth distFmt
  simp only [hb, ← queryFmt_eq, w32_ev]

/-- What VDIST does: a forbidden descriptor raises ILLEGAL, an offset that is not 64-byte aligned MISALIGN, and otherwise the
active lanes hold their scores, unless a byte that they read is uncorrectable. -/
theorem vdist_scores (hr : VecReady s [v, q]) (hi : encodeNat i < 2 ^ 32)
    (hx : exec i s = .next (vdist kind (encodeNat i) sw v q g m s)) :
    (distOk (kind == 2) (readW s g) = false → Traps i s 0x01 (wordOf i)) ∧
    (distOk (kind == 2) (readW s g) = true → tdOffset (readW s g) % 64 ≠ 0 → Traps i s 0x03 (w64 (tdOffset (readW s g)))) ∧
    (distOk (kind == 2) (readW s g) = true → tdOffset (readW s g) % 64 = 0 →
      distBad s (readW s g) (distDepth (readW s g)) (activeLanes (readM s m)) = none →
      VecResult i s sw [(1, .v q), (2, .g g), (3, if kind == 2 then .rest v m else .v v)] v 32 m
        (distScore s kind v q (readW s g))) := by
  refine ⟨fun hd => ?illegal, fun hd ho => ?misaligned, fun hd ho hb => ?scores⟩
  case illegal => rw [Traps, hx, vdist, hd, legal_false, wordOf_insn i hi]
  case misaligned =>
    rw [Traps, hx, vdist, hd, legal_true, vecDeclared_of_ready hr, declared_true, aligned_bad]
    rwa [toNat_w64_tdOffset]
  case scores =>
    rw [vdist_ready _ hr hd ho hb] at hx
    exact vecResult_of_vmap hr hx (fun _ => rfl)

end

/-- The words of VDIST have 32 bits, whatever their operation field `k`. -/
theorem vdistWord_lt (sw : Bool) (v q : BitVec 5) (g : BitVec 4) (m : BitVec 3) (k : Nat) (hk : k + 2 ^ 26 ≤ 2 ^ 31) :
    b2n sw * 2147483648 + v.toNat * 1048576 + q.toNat * 32768 + g.toNat * 2048 + m.toNat * 256 + k < 2 ^ 32 := by
  have := v.isLt
  have := q.isLt
  have := g.isLt
  have := m.isLt
  have : b2n sw ≤ 1 := by cases sw <;> decide
  omega

end Sys2Proof.Machine

open Sys2Proof.Machine

/-- Settles O36: the three reductions are one tree, the scan's elements are the running sums, and the three distances make the
same checks and differ in their scores. -/
theorem vectorReductionsAndDistances : Obligations.VectorReductionsAndDistances := by
  refine ⟨fun s sw v a m t _ hr => ?reductions, fun s sw v q g m hr => ?distances⟩
  case reductions =>
    rw [← typeFmt_eq t]
    exact ⟨vred_holds (idn := fun f => signEnc f true) (op := addEnc) hr rfl,
      vred_holds (idn := fun f => signEnc f true + infEnc f) (op := fun f _ => minmaxF f true) hr rfl,
      vred_holds (idn := infEnc) (op := fun f _ => minmaxF f false) hr rfl, vscanAdd_holds hr⟩
  case distances =>
    exact ⟨vdist_scores hr (vdistWord_lt sw v q g m _ (by decide)) rfl,
      vdist_scores hr (vdistWord_lt sw v q g m _ (by decide)) rfl,
      vdist_scores hr (vdistWord_lt sw v q g m _ (by decide)) rfl⟩
end

section
/-! Register and immediate ALU instructions (04 R81 to R83): each completes and holds its operation's result, a bit vector. -/
namespace Sys2Proof.Machine

section
variable {i : Instr} {s : State} {sw : Bool} {d a b : BitVec 4} {op : AluOp}

/-- `OP wd, wa, wb` holds the operation's result (04 R82). -/
theorem exec_aluReg {v : W64} (hx : exec i s = .next (aluReg op sw d a b s))
    (hv : BitVec.ofNat 64 (alu 64 op (readW s a).toNat (readW s b).toNat) = v) :
    exec i s = .next (issued sw [.gpr d v] s) := by
  rw [hx, aluReg_issued, ← hv]
  rfl

/-- `OP.W wd, wa, wb` holds the 32-bit result on the low halves, sign-extended (04 R81). -/
theorem exec_aluRegW {v : BitVec 32} (hx : exec i s = .next (aluRegW op sw d a b s))
    (hv : BitVec.ofNat 32 (alu 32 op (low32 s a).toNat (low32 s b).toNat) = v) :
    exec i s = .next (issued sw [.gpr d (v.signExtend 64)] s) := by
  rw [hx, aluRegW_issued, hv]

variable {imm : BitVec 13} {hs : List (BitVec 21)}

/-- `OPI wd, wa, imm` holds the operation's result on the extended immediate (04 R83, 03 R61). -/
theorem exec_aluImm {v : W64} (h : ExtendedBy s hs) (hl : hs.length ≤ 2) (hx : exec i s = .next (aluImm op sw d a imm s))
    (hv : BitVec.ofNat 64 (alu 64 op (readW s a).toNat (wide hs imm).toNat) = v) :
    exec i s = .next (issued sw [.gpr d v] s) := by
  rw [hx, aluImm_issued, immS_wide s hs imm (by decide) h hl, ← hv]
  rfl

/-- The words of the shifts by an immediate have 32 bits, whatever their operation field `k`. -/
theorem shiftImmWord_lt (sw : Bool) (d a : BitVec 4) (imm : BitVec 13) (k : Nat) (hk : k < 2 ^ 30) :
    b2n sw * 2147483648 + d.toNat * 2097152 + a.toNat * 131072 + imm.toNat + k < 2 ^ 32 := by
  have := d.isLt
  have := a.isLt
  have := imm.isLt
  have : b2n sw ≤ 1 := by cases sw <;> decide
  omega

/-- A shift by an immediate of 0 to 63 holds its result; any other amount raises ILLEGAL (04 R83). -/
theorem exec_shiftImm {shift : W64 → Nat → W64} (h : ExtendedBy s hs) (hl : hs.length ≤ 2) (hi : encodeNat i < 2 ^ 32)
    (hx : exec i s = .next (shiftImm op (encodeNat i) sw d a imm s))
    (hv : ∀ A B : W64, BitVec.ofNat 64 (alu 64 op A.toNat B.toNat) = shift A (B.toNat % 64)) :
    if (wide hs imm).toNat < 64 then exec i s = .next (issued sw [.gpr d (shift (readW s a) (wide hs imm).toNat)] s)
    else Traps i s 0x01 (wordOf i) := by
  rw [shiftImm, immS_wide s hs imm (by decide) h hl] at hx
  split
  next hn =>
    rw [decide_eq_true hn, legal_true] at hx
    exact exec_aluImm h hl hx (by rw [hv, Nat.mod_eq_of_lt hn])
  next hn =>
    rw [decide_eq_false hn, legal_false] at hx
    rw [Traps, hx, wordOf_insn i hi]

end

end Sys2Proof.Machine

open Sys2Proof Sys2Proof.Machine

/-- Settles O9: each form holds the result of its operation, and `alu_<op>` says which bit vector that is. -/
theorem registerAluResults : Obligations.RegisterAluResults := by
  intro s sw d a b
  have hpos : 0 < 64 := by decide
  exact ⟨exec_aluReg rfl (alu_add _ _), exec_aluReg rfl (alu_sub _ _), exec_aluReg rfl (alu_and _ _),
    exec_aluReg rfl (alu_or _ _), exec_aluReg rfl (alu_xor _ _), exec_aluReg rfl (alu_andn _ _),
    exec_aluReg rfl (alu_shl _ _), exec_aluReg rfl (alu_shr _ _), exec_aluReg rfl (alu_sar _ _ hpos),
    exec_aluReg rfl (alu_min _ _ hpos), exec_aluReg rfl (alu_max _ _ hpos), exec_aluReg rfl (alu_minu _ _),
    exec_aluReg rfl (alu_maxu _ _), exec_aluReg rfl (alu_mul _ _), exec_aluReg rfl (alu_mulh _ _ hpos),
    exec_aluReg rfl (alu_mulhu _ _), exec_aluReg rfl (alu_div _ _ hpos), exec_aluReg rfl (alu_divu _ _),
    exec_aluReg rfl (alu_rem _ _ hpos), exec_aluReg rfl (alu_remu _ _), exec_aluReg rfl (alu_slt _ _ hpos),
    exec_aluReg rfl (alu_sltu _ _), exec_aluReg rfl (alu_seq _ _)⟩

/-- Settles O10: the same lemmas `alu_<op>` at width 32. -/
theorem wordAluResults : Obligations.WordAluResults := by
  intro s sw d a b
  have hpos : 0 < 32 := by decide
  exact ⟨exec_aluRegW rfl (alu_add _ _), exec_aluRegW rfl (alu_sub _ _), exec_aluRegW rfl (alu_and _ _),
    exec_aluRegW rfl (alu_or _ _), exec_aluRegW rfl (alu_xor _ _), exec_aluRegW rfl (alu_andn _ _),
    exec_aluRegW rfl (alu_shl _ _), exec_aluRegW rfl (alu_shr _ _), exec_aluRegW rfl (alu_sar _ _ hpos),
    exec_aluRegW rfl (alu_min _ _ hpos), exec_aluRegW rfl (alu_max _ _ hpos), exec_aluRegW rfl (alu_minu _ _),
    exec_aluRegW rfl (alu_maxu _ _), exec_aluRegW rfl (alu_mul _ _), exec_aluRegW rfl (alu_mulh _ _ hpos),
    exec_aluRegW rfl (alu_mulhu _ _), exec_aluRegW rfl (alu_div _ _ hpos), exec_aluRegW rfl (alu_divu _ _),
    exec_aluRegW rfl (alu_rem _ _ hpos), exec_aluRegW rfl (alu_remu _ _), exec_aluRegW rfl (alu_slt _ _ hpos),
    exec_aluRegW rfl (alu_sltu _ _), exec_aluRegW rfl (alu_seq _ _)⟩

/-- Settles O12: the operations of the register forms on the extended immediate; a shift first checks its amount. -/
theorem immediateFormResults : Obligations.ImmediateFormResults := by
  refine ⟨fun s sw d a imm hs h hl => ?results, fun s sw d a imm hs h hl => ?shifts⟩
  case results =>
    exact ⟨exec_aluImm h hl rfl (alu_add _ _), exec_aluImm h hl rfl (alu_and _ _), exec_aluImm h hl rfl (alu_or _ _),
      exec_aluImm h hl rfl (alu_xor _ _), exec_aluImm h hl rfl (alu_mul _ _), exec_aluImm h hl rfl (alu_slt _ _ (by decide)),
      exec_aluImm h hl rfl (alu_sltu _ _), exec_aluImm h hl rfl (alu_seq _ _)⟩
  case shifts =>
    exact ⟨exec_shiftImm h hl (shiftImmWord_lt sw d a imm _ (by decide)) rfl alu_shl,
      exec_shiftImm h hl (shiftImmWord_lt sw d a imm _ (by decide)) rfl alu_shr,
      exec_shiftImm h hl (shiftImmWord_lt sw d a imm _ (by decide)) rfl (fun A B => alu_sar A B (by decide))⟩
end

section
/-! Counts of bits, selections and bit fields (04 R82, R85 to R87) as bit-vector operations. -/
namespace Sys2Proof.Machine

/-! ## Counts -/

theorem toNat_clz_le {n : Nat} (x : BitVec n) : x.clz.toNat ≤ n := by
  simpa [BitVec.le_def, Nat.mod_eq_of_lt Nat.lt_two_pow_self] using BitVec.clz_le (x := x)

/-- CLZ counts the leading zeros; a zero operand has as many as it has bits. -/
theorem clzOf_toNat {n : Nat} (x : BitVec n) : clzOf n x.toNat = x.clz.toNat := by
  by_cases hx : x = 0
  · have hn : n < 2 ^ n := Nat.lt_two_pow_self
    rw [BitVec.clz_eq_iff_eq_zero.2 hx, hx, clzOf]
    simp [Nat.mod_eq_of_lt hn]
  · have hv : x.toNat ≠ 0 := fun h => hx (BitVec.eq_of_toNat_eq h)
    have hn : 0 < n := Nat.pos_of_ne_zero fun h => by subst h; exact hx (BitVec.eq_nil x)
    have hc : x.clz.toNat < n := by
      have := BitVec.clz_lt_iff_ne_zero.2 hx
      simpa [BitVec.lt_def, Nat.mod_eq_of_lt Nat.lt_two_pow_self] using this
    have hlog : Nat.log2 x.toNat = n - 1 - x.clz.toNat := (Nat.log2_eq_iff hv).2
      ⟨BitVec.two_pow_sub_clz_le_toNat_of_ne_zero hn hx,
        Nat.lt_of_lt_of_eq BitVec.toNat_lt_two_pow_sub_clz (congrArg (2 ^ ·) (by omega))⟩
    rw [clzOf, if_neg (by simpa using hv), hlog]
    omega

/-- CTZ answers the place of the lowest one, or the width. -/
theorem ctzGo_eq {n v k : Nat} (hk : k ≤ n) (hz : ∀ j < k, v.testBit j = false) (ho : k < n → v.testBit k = true) :
    ctzGo n v = k := by
  induction n generalizing v k with
  | zero => exact (Nat.le_zero.1 hk).symm
  | succ n ih =>
    have hodd : (v % 2 == 1) = v.testBit 0 := by rw [Nat.testBit_zero]; rfl
    rw [ctzGo, hodd]
    cases k with
    | zero => rw [ho (Nat.succ_pos n), if_pos rfl]
    | succ k =>
      have hrest : ctzGo n (v / 2) = k := ih (Nat.le_of_succ_le_succ hk)
        (fun j hj => by rw [Nat.testBit_div_two]; exact hz _ (Nat.succ_lt_succ hj))
        (fun h => by rw [Nat.testBit_div_two]; exact ho (Nat.succ_lt_succ h))
      rw [hz 0 (Nat.succ_pos k), if_neg Bool.false_ne_true, hrest, Nat.add_comm]

/-- CTZ counts the leading zeros of the operand read backwards. -/
theorem ctzOf_toNat {n : Nat} (x : BitVec n) : ctzOf n x.toNat = x.reverse.clz.toNat := by
  rw [← BitVec.ctz_eq_reverse_clz]
  refine ctzGo_eq ?le (fun j hj => ?zeros) (fun h => ?one)
  case le =>
    rw [BitVec.ctz_eq_reverse_clz]
    exact toNat_clz_le _
  case zeros => rw [BitVec.testBit_toNat, BitVec.getLsbD_false_of_lt_ctz hj]
  case one =>
    have hx : x ≠ 0 := BitVec.ctz_lt_iff_ne_zero.1 (by simpa [BitVec.lt_def, Nat.mod_eq_of_lt Nat.lt_two_pow_self] using h)
    rw [BitVec.testBit_toNat, BitVec.getLsbD_true_ctz_of_ne_zero hx]

/-- POPC counts the ones. -/
theorem popcOf_toNat {n : Nat} (x : BitVec n) : popcOf n x.toNat = x.cpop.toNat := by
  induction x using BitVec.concat_induction with
  | nil => rfl
  | concat x b ih =>
    have hb : b.toNat < 2 := Bool.toNat_lt b
    rw [BitVec.toNat_concat, BitVec.toNat_cpop_concat, popcOf, ← ih]
    congr 2 <;> omega

/-! ## Fields of a word -/

theorem toNat_eq_zero_iff {n : Nat} {x : BitVec n} : x.toNat = 0 ↔ x = 0 := BitVec.toNat_inj (y := 0)

/-- A field as a bit vector of its own. -/
theorem bits_eq_toNat (v : W64) (lo n : Nat) : bits v lo n = (v.extractLsb' lo n).toNat := by
  rw [bits, BitVec.extractLsb'_toNat, Nat.shiftRight_eq_div_pow]

/-- A word is what stands above a field, the field, and what stands below it. -/
theorem toNat_eq_fields (v : W64) (lo n : Nat) :
    v.toNat = 2 ^ lo * (2 ^ n * (v.toNat / 2 ^ (lo + n)) + bits v lo n) + v.toNat % 2 ^ lo := by
  rw [bits, Nat.pow_add, ← Nat.div_div_eq_div_mul, Nat.div_add_mod, Nat.div_add_mod]

/-- Writing a field leaves what stands above and below it. -/
theorem setBits_eq_fields (v : W64) (lo n x : Nat) :
    setBits v lo n x = w64 (2 ^ lo * (2 ^ n * (v.toNat / 2 ^ (lo + n)) + x % 2 ^ n) + v.toNat % 2 ^ lo) := by
  have hv := toNat_eq_fields v lo n
  rw [Nat.mul_add] at hv ⊢
  rw [setBits, Nat.mul_comm (bits v lo n), Nat.mul_comm (x % 2 ^ n)]
  congr 1
  omega

/-- The bits of a word behind the write of a field. -/
theorem getLsbD_setBits {v : W64} {lo n x i : Nat} (hi : i < 64) :
    (setBits v lo n x).getLsbD i = if i < lo then v.getLsbD i else if i - lo < n then x.testBit (i - lo) else v.getLsbD i := by
  rw [setBits_eq_fields, w64, BitVec.getLsbD_ofNat, decide_eq_true hi, Bool.true_and,
    Nat.testBit_two_pow_mul_add _ (Nat.mod_lt _ (Nat.two_pow_pos lo)),
    Nat.testBit_two_pow_mul_add _ (Nat.mod_lt _ (Nat.two_pow_pos n)), Nat.testBit_mod_two_pow, Nat.testBit_mod_two_pow,
    Nat.testBit_div_two_pow, BitVec.testBit_toNat, BitVec.testBit_toNat]
  split
  next h => rw [decide_eq_true h, Bool.true_and]
  next h =>
    split
    next hn => rw [decide_eq_true hn, Bool.true_and]
    next hn => rw [show i - lo - n + (lo + n) = i by omega]

/-- LIMT replaces the highest 21 bits (04 R85). -/
theorem setBits_top (v : W64) (x : BitVec 21) : setBits v 43 21 x.toNat = x ++ v.extractLsb' 0 43 := by
  apply BitVec.eq_of_getLsbD_eq
  intro i hi
  rw [getLsbD_setBits hi, BitVec.getLsbD_append, BitVec.getLsbD_extractLsb', BitVec.testBit_toNat, Nat.zero_add]
  split
  next h => rw [decide_eq_true h, Bool.true_and]
  next h => rw [if_pos (by omega)]

/-- The ones that BFX and BFI cut a field with (04 R87). -/
def fieldOnes (len : Nat) : W64 := BitVec.allOnes 64 >>> (64 - len)

theorem getLsbD_fieldOnes {len : Nat} (hl : len ≤ 64) (i : Nat) : (fieldOnes len).getLsbD i = decide (i < len) := by
  rw [fieldOnes, BitVec.getLsbD_ushiftRight, BitVec.getLsbD_allOnes]
  exact decide_eq_decide.2 (by omega)

/-- BFX: the field moved down, without what stands above it. -/
theorem bfield_eq_shift {v : W64} {pos len : Nat} (h : pos + len ≤ 64) :
    w64 (bfield v pos len) = v >>> pos &&& fieldOnes len := by
  apply BitVec.eq_of_getLsbD_eq
  intro i hi
  rw [bfield, bits_eq_toNat, w64, BitVec.ofNat_toNat, BitVec.getLsbD_setWidth, BitVec.getLsbD_extractLsb', BitVec.getLsbD_and,
    BitVec.getLsbD_ushiftRight, getLsbD_fieldOnes (by omega), decide_eq_true hi, Bool.true_and, Bool.and_comm]

/-- BFX.S: the field moved to the top and down again with its sign. -/
theorem bfieldS_eq_shifts {v : W64} {pos len : Nat} (h : pos + len ≤ 64) (h0 : 0 < len) :
    sext (bfield v pos len) len = (v <<< (64 - pos - len)).sshiftRight (64 - len) := by
  rw [bfield, bits_eq_toNat, sext_signExtend _ h0]
  apply BitVec.eq_of_getLsbD_eq
  intro i hi
  simp only [BitVec.getLsbD_signExtend, BitVec.getLsbD_sshiftRight, BitVec.getLsbD_extractLsb', BitVec.getLsbD_shiftLeft,
    BitVec.msb_eq_getLsbD_last]
  have hin : ¬ 64 ≤ i := Nat.not_le.2 hi
  by_cases hl : i < len
  · have htop : 64 - len + i < 64 := by omega
    have hmoved : ¬ 64 - len + i < 64 - pos - len := by omega
    simp only [hi, hin, hl, htop, hmoved, show 64 - len + i - (64 - pos - len) = pos + i by omega, decide_true, decide_false,
      if_true, Bool.not_false, Bool.true_and]
  · have htop : ¬ 64 - len + i < 64 := by omega
    have hmoved : ¬ 64 - 1 < 64 - pos - len := by omega
    have hlast : len - 1 < len := by omega
    simp only [hi, hin, hl, htop, hmoved, hlast, show 64 - 1 < 64 by decide,
      show 64 - 1 - (64 - pos - len) = pos + (len - 1) by omega, decide_true, decide_false, if_false, Bool.not_false,
      Bool.true_and]

/-- BFI: the field of `v` cut out, and the low bits of `x` in its place. -/
theorem binsert_eq_masks {v x : W64} {pos len : Nat} (h : pos + len ≤ 64) :
    binsert v x pos len = (v &&& ~~~(fieldOnes len <<< pos)) ||| ((x &&& fieldOnes len) <<< pos) := by
  apply BitVec.eq_of_getLsbD_eq
  intro i hi
  rw [binsert, getLsbD_setBits hi, bits_eq_toNat, BitVec.testBit_toNat]
  simp only [BitVec.getLsbD_or, BitVec.getLsbD_and, BitVec.getLsbD_not, BitVec.getLsbD_shiftLeft, BitVec.getLsbD_extractLsb',
    getLsbD_fieldOnes (show len ≤ 64 by omega), hi]
  by_cases hp : i < pos
  · simp [hp]
  · by_cases hl : i - pos < len <;> simp [hp, hl]

/-! ## The instructions -/

section
variable {i : Instr} {s : State} {sw : Bool} {d a : BitVec 4}

/-- An instruction that holds one write completes with any equal value. -/
theorem exec_writeW {v w : W64} (hx : exec i s = .next (finish sw (writeW d w s))) (hw : w = v) :
    exec i s = .next (issued sw [.gpr d v] s) := by
  rw [hx, ← hw]
  rfl

/-- CLZ, CTZ and POPC hold the count that their function makes (04 R82). -/
theorem exec_countReg {f : Nat → Nat → Nat} {count : BitVec 64 → BitVec 64} (hx : exec i s = .next (countReg f sw d a s))
    (hf : ∀ x : BitVec 64, f 64 x.toNat = (count x).toNat) : exec i s = .next (issued sw [.gpr d (count (readW s a))] s) :=
  exec_writeW hx (by rw [hf, w64, BitVec.ofNat_toNat, BitVec.setWidth_eq])

/-- The .W forms hold the count of the low half, which is never negative (04 R81, R82). -/
theorem exec_countRegW {f : Nat → Nat → Nat} {count : BitVec 32 → BitVec 32} (hx : exec i s = .next (countRegW f sw d a s))
    (hf : ∀ x : BitVec 32, f 32 x.toNat = (count x).toNat) (hle : ∀ x, (count x).toNat ≤ 32) :
    exec i s = .next (issued sw [.gpr d ((count (low32 s a)).zeroExtend 64)] s) := by
  have hmsb : (count (low32 s a)).msb = false := by
    have := hle (low32 s a)
    rw [BitVec.msb_eq_false_iff_two_mul_lt]
    omega
  exact exec_writeW hx (by rw [low32_bits, hf, sext_signExtend _ (by decide), BitVec.signExtend_eq_setWidth_of_msb_false hmsb])

variable {l p : BitVec 6} {hs : List (BitVec 21)}

/-- A bit field is legal where it lies in the register and no HX.IMM sets a bit (04 R87). -/
theorem bfOk_iff (h : ExtendedBy s hs) : bfOk s l p = true ↔ (∀ h ∈ hs, h = 0) ∧ p.toNat + (l.toNat + 1) ≤ 64 := by
  simp only [bfOk, hxOf_imms s hs h, Bool.and_eq_true, decide_eq_true_eq, List.all_map, List.all_eq_true, Function.comp_apply,
    beq_iff_eq, toNat_eq_zero_iff, Nat.add_assoc]
  exact and_comm

/-- The words of the bit-field instructions have 32 bits, whatever their operation field `k`. -/
theorem bitFieldWord_lt (sw : Bool) (d a : BitVec 4) (l p : BitVec 6) (k : Nat) (hk : k < 2 ^ 30) :
    b2n sw * 2147483648 + d.toNat * 2097152 + a.toNat * 131072 + l.toNat * 64 + p.toNat + k < 2 ^ 32 := by
  have := d.isLt
  have := a.isLt
  have := l.isLt
  have := p.isLt
  have : b2n sw ≤ 1 := by cases sw <;> decide
  omega

/-- A bit-field instruction holds its result where the field is legal and raises ILLEGAL otherwise (04 R87). -/
theorem exec_bitField {f : State → W64} {v : W64} (h : ExtendedBy s hs) (hi : encodeNat i < 2 ^ 32)
    (hx : exec i s = .next (legal (bfOk s l p) (insn (encodeNat i)) (fun s => finish sw (writeW d (f s) s)) s))
    (hf : p.toNat + (l.toNat + 1) ≤ 64 → f s = v) :
    if (∀ h ∈ hs, h = 0) ∧ p.toNat + (l.toNat + 1) ≤ 64 then exec i s = .next (issued sw [.gpr d v] s)
    else Traps i s 0x01 (wordOf i) := by
  split
  next ok =>
    rw [(bfOk_iff h).2 ok, legal_true] at hx
    exact exec_writeW hx (hf ok.2)
  next bad =>
    rw [Bool.eq_false_iff.2 (mt (bfOk_iff h).1 bad), legal_false] at hx
    rw [Traps, hx, wordOf_insn i hi]

end

end Sys2Proof.Machine

open Sys2Proof Sys2Proof.Machine

/-- Settles O8: LIM holds its extended immediate, LIMT writes a field and LEA is its formula. -/
theorem constantsAndAddresses : Obligations.ConstantsAndAddresses := by
  intro s sw d a b imm sh
  exact ⟨fun hs h hl => exec_writeW rfl (immS_wide s hs imm (by decide) h hl), exec_writeW rfl (setBits_top _ _), rfl⟩

/-- Settles O11: three counts, two selections by the third operand, and three uses of one field. -/
theorem countsSelectsAndBitFields : Obligations.CountsSelectsAndBitFields := by
  refine ⟨fun s sw d a b c => ?counts, fun s sw d a l p hs h _ => ?fields⟩
  case counts =>
    refine ⟨exec_countReg rfl clzOf_toNat, exec_countReg rfl ctzOf_toNat, exec_countReg rfl popcOf_toNat,
      exec_countRegW rfl clzOf_toNat toNat_clz_le, exec_countRegW rfl ctzOf_toNat (fun x => toNat_clz_le x.reverse),
      exec_countRegW rfl popcOf_toNat BitVec.toNat_cpop_le, exec_writeW rfl ?sel, exec_writeW rfl ?selW⟩
    case sel => simp only [bne_iff_ne, ite_not]
    case selW =>
      have hc : (bits (readW s c) 0 32 != 0) = true ↔ ¬ low32 s c = 0 := by
        rw [low32_bits, bne_iff_ne, ne_eq, toNat_eq_zero_iff]
      simp only [hc, ite_not]
      split
      all_goals rw [low32_bits, sext_signExtend _ (by decide)]
  case fields =>
    exact ⟨exec_bitField h (bitFieldWord_lt sw d a l p _ (by decide)) rfl bfield_eq_shift,
      exec_bitField h (bitFieldWord_lt sw d a l p _ (by decide)) rfl (fun hf => bfieldS_eq_shifts hf (Nat.succ_pos _)),
      exec_bitField h (bitFieldWord_lt sw d a l p _ (by decide)) rfl binsert_eq_masks⟩
end

section
/-! Control transfers (04 R74 to R77, R88 to R90): what a transfer checks before its group closes. -/
namespace Sys2Proof.Machine

section
variable {i : Instr} {s : State}

/-- A conditional branch closes its group either way: with its target where the condition holds, with the address behind itself
otherwise (04 R88). -/
theorem exec_branch {o : BitVec 14} {hs : List (BitVec 21)} {c : Bool} {taken : Prop} (h : ExtendedBy s hs)
    (hl : hs.length ≤ 2) (hv : vaAccel (s.ctx.pc + 4 * wide hs o) = s.accel.toNat) (hp : s.ctx.pc.toNat % 4 = 0)
    (hx : exec i s = .next (branch c o s)) (hc : c = true ↔ taken) :
    (taken → exec i s = .next (closes (.go (s.ctx.pc + 4 * wide hs o)) s)) ∧
    (¬ taken → exec i s = .next (closes (.go (s.ctx.pc + 4)) s)) := by
  refine ⟨fun ht => ?target, fun ht => ?behind⟩
  case target =>
    rw [hx, hc.2 ht, branch, if_pos rfl, branchTarget_wide s hs o (by decide) h hl,
      transfer_ok _ _ _ (branchTarget_aligned _ _ hp) hv]
  case behind =>
    rw [hx, branch, if_neg (mt hc.1 ht)]
    rfl

/-- A call whose callee has a resident block goes to its target at the close (04 R74). -/
theorem callTo_room {t : W64} (ht : vaAccel t = s.accel.toNat ∧ t.toNat % 4 = 0) (hr : s.ctx.depth + 3 ≤ 8 + s.ctx.sb) :
    callTo t s = closes (.call t (s.ctx.pc + 4)) s := by
  rw [callTo, if_neg (Nat.not_lt.2 hr), transfer_ok _ _ _ ht.2 ht.1]

/-- A call whose callee has no resident block raises SPILL before its target is looked at (04 R76). -/
theorem callTo_full {t : W64} (hr : ¬ s.ctx.depth + 3 ≤ 8 + s.ctx.sb) :
    callTo t s = raise 0x05 (if s.ctx.sb = 16 then 1 else 0) s := by
  rw [callTo, if_pos (Nat.lt_of_not_le hr)]
  simp only [beq_iff_eq]

/-- RET at depth 0 raises FILL with TRAPV 1 (04 R77). -/
theorem exec_ret_bottom {sw : Bool} (h : s.ctx.depth = 0) : Traps (.ret sw) s 0x06 1 :=
  congrArg Host.Outcome.next (if_pos (beq_iff_eq.2 h))

/-- RET behind which the caller's block remains checks its target as any transfer (04 R75, R77). -/
theorem exec_ret_above {sw : Bool} (h : s.ctx.depth ≠ 0) :
    exec (.ret sw) s = .next (if s.ctx.sb == s.ctx.depth then raise 0x06 0 s
      else transfer (readW s 15) (.ret (readW s 15)) s) :=
  congrArg Host.Outcome.next (if_neg (mt beq_iff_eq.1 h))

/-- RET to a caller without a resident block raises FILL with TRAPV 0 (04 R77). -/
theorem exec_ret_spilled {sw : Bool} (h : s.ctx.depth ≠ 0) (hs : s.ctx.sb = s.ctx.depth) : Traps (.ret sw) s 0x06 0 := by
  rw [Traps, exec_ret_above h, if_pos (beq_iff_eq.2 hs)]

/-- RET to a caller with a resident block goes to w15 at the close (04 R75). -/
theorem exec_ret_resident {sw : Bool} (h : s.ctx.depth ≠ 0) (hs : s.ctx.sb ≠ s.ctx.depth)
    (ht : vaAccel (readW s 15) = s.accel.toNat ∧ (readW s 15).toNat % 4 = 0) :
    exec (.ret sw) s = .next (closes (.ret (readW s 15)) s) := by
  rw [exec_ret_above h, if_neg (mt beq_iff_eq.1 hs), transfer_ok _ _ _ ht.2 ht.1]

end

/-! ## The close of a transfer's group (03 R48, 04 R74, R75) -/

/-- Depth `d + 1` names in its low half what depth `d` names in its high half (04 R72). -/
theorem winIx_succ (d j : Nat) : winIx (d + 1) j = winIx d (j + 8) :=
  Fin.ext (congrArg (· % 64) (by omega))

/-- The register that a number below 16 names. -/
theorem reg_ofNat (c : Ctx) {j : Nat} (h : j < 16) : c.reg (BitVec.ofNat 4 j) = c.stack.get (winIx c.depth j) := by
  rw [Ctx.reg, BitVec.toNat_ofNat, Nat.mod_eq_of_lt h]

/-- The low half of the window one block deeper is the high half of the window (04 R72). -/
theorem reg_deeper (x y : Ctx) (hd : y.depth = x.depth + 1) (hs : y.stack = x.stack) {j : Nat} (hj : j < 8) :
    y.reg (BitVec.ofNat 4 j) = x.reg (BitVec.ofNat 4 (j + 8)) := by
  rw [reg_ofNat y (by omega), reg_ofNat x (by omega), hd, hs, winIx_succ]

/-- The closing group of the context in focus delivers its writes and does what its last instruction asked for. -/
theorem exec_groupClose {s : State} {k c : Nat} {a : CloseAct} (hf : Focused s k c) (hc : Closable s)
    (ha : s.ctx.status = .closing a) : exec (.groupClose k c) s = .next (closeAct a (deliver s)) := by
  obtain ⟨hq, hw⟩ := hc
  have hn : BitVec.ofNat 4 c = s.ctx.num := by rw [← hf.2, BitVec.ofNat_toNat, BitVec.setWidth_eq]
  have hk : coreOf s k = s.core := by rw [← hf.1, coreOf_focused]
  have on : groupCloseOn s k c = true := by
    simp only [groupCloseOn, ctxOf_focused k c s hf, ha, hk, hn, hq, expired, Nat.not_le.2 hw, decide_false]
    rfl
  show event _ _ _ _ = _
  simp only [event, on, if_true, focus_focused k c s hf, closeGroup, ha]

/-- A group that holds no write delivers its flags alone. -/
theorem deliver_flags {s : State} (h : s.ctx.pend = []) : deliver s = applyFlags s := by
  obtain ⟨ctx⟩ := s
  obtain ⟨_⟩ := ctx
  simp_all [deliver]

/-- Flags touch none of the banks, and nothing outside the context. -/
theorem applyFlags_frame (s : State) : SameBanks s.ctx (applyFlags s).ctx ∧ (applyFlags s).rest = s.rest :=
  ⟨⟨rfl, rfl, rfl, rfl, rfl, rfl, rfl, rfl, rfl, rfl, rfl⟩, rfl⟩

end Sys2Proof.Machine

open Sys2Proof Sys2Proof.Machine

/-- Settles O7: FILL goes before the check of the target. -/
theorem returnRaisesFill : Obligations.ReturnRaisesFill :=
  fun _ _ => ⟨fun hd hs => exec_ret_spilled (Nat.one_le_iff_ne_zero.1 hd) hs, exec_ret_bottom⟩

/-- Settles O13: eight conditions of one branch. -/
theorem conditionalBranches : Obligations.ConditionalBranches := by
  intro s sw a b o hs h hl A B target hv hp goes
  have sle : (!A.slt B) = true ↔ B.sle A := by rw [BitVec.sle_eq_not_slt]
  have ult : decide (A < B) = true ↔ A.ult B := by simp only [BitVec.ult, BitVec.lt_def]
  have ule : (!decide (A < B)) = true ↔ B.ule A := by simp [BitVec.ule, BitVec.lt_def]
  exact ⟨exec_branch h hl hv hp rfl beq_iff_eq, exec_branch h hl hv hp rfl bne_iff_ne,
    exec_branch h hl hv hp rfl Iff.rfl, exec_branch h hl hv hp rfl sle,
    exec_branch h hl hv hp rfl ult, exec_branch h hl hv hp rfl ule,
    exec_branch h hl hv hp rfl beq_iff_eq, exec_branch h hl hv hp rfl bne_iff_ne⟩

/-- Settles O14: each transfer passes its checks or raises the trap of the first that fails. -/
theorem callsAndReturns : Obligations.CallsAndReturns := by
  intro s sw a o hs h hl target room fine spill
  have ht : branchTarget s 25 o.toNat = target := branchTarget_wide s hs o (by decide) h hl
  refine ⟨fun hf => congrArg Host.Outcome.next ?jump, fun hf hr => congrArg Host.Outcome.next ?call,
    fun hf => congrArg Host.Outcome.next ?jr, fun hf hr => congrArg Host.Outcome.next (callTo_room hf hr), fun hr => ?spill,
    exec_ret_bottom, exec_ret_spilled, exec_ret_resident, congrArg Host.Outcome.next (finish_issued _ _), rfl⟩
  case jump => rw [ht, transfer_ok _ _ _ hf.2 hf.1]
  case call => rw [ht, callTo_room hf hr]
  case jr => exact transfer_ok _ _ _ hf.2 hf.1
  case spill => exact ⟨congrArg Host.Outcome.next (callTo_full hr), congrArg Host.Outcome.next (callTo_full hr)⟩

/-- Settles O18: the close delivers the flags of the group, and only the window and the pc move. -/
theorem windowShiftsAtTheClose : Obligations.WindowShiftsAtTheClose := by
  intro s k c pc back hf hp hc
  have close {a : CloseAct} (ha : s.ctx.status = .closing a) :
      exec (.groupClose k c) s = .next (closeAct a (applyFlags s)) := by
    rw [exec_groupClose hf hc ha, deliver_flags hp]
  refine ⟨fun ha => ⟨_, close ha, ?call⟩, fun ha hd => ⟨_, close ha, ?ret⟩, fun ha => ⟨_, close ha, ?go⟩⟩
  case call =>
    refine ⟨rfl, rfl, rfl, reg_setReg_same _ _ _, fun j hj => ?_, applyFlags_frame s⟩
    have hne : BitVec.ofNat 4 j ≠ 15 := fun e => by
      have hj15 : j % 16 = 15 := congrArg BitVec.toNat e
      omega
    exact (reg_setReg_other _ _ hne).trans
      (reg_deeper s.ctx { (applyFlags s).ctx with depth := s.ctx.depth + 1 } rfl rfl hj)
  case ret =>
    have hd' : (closeAct (.ret pc) (applyFlags s)).ctx.depth + 1 = s.ctx.depth := Nat.succ_pred hd
    exact ⟨rfl, rfl, hd', rfl, fun j hj => (reg_deeper _ s.ctx hd'.symm rfl hj).symm, applyFlags_frame s⟩
  case go => exact ⟨rfl, rfl, rfl, rfl, applyFlags_frame s⟩
end

section
/-! Special registers (04 R91, R92): what MFS holds of each, field by field. -/
namespace Sys2Proof.Machine

section
variable {s : State} {sw : Bool} {d : BitVec 4} {r : BitVec 8}

/-- The words of MFS and MTS have 32 bits, whatever their operation field `k`. -/
theorem specialWord_lt (sw : Bool) (d : BitVec 4) (r : BitVec 8) (k : Nat) (hk : k < 2 ^ 30) :
    b2n sw * 2147483648 + d.toNat * 2097152 + r.toNat * 8192 + k < 2 ^ 32 := by
  have := d.isLt
  have := r.isLt
  have : b2n sw ≤ 1 := by cases sw <;> decide
  omega

/-- An access that only system level may make goes on at system level. -/
theorem if_system_ok {only : Bool} (w : W64) (k : State → State) (h : ¬ (only = true ∧ s.ctx.trap.level = false)) :
    (if only then system w k s else k s) = k s := by
  split
  next ho => exact system_level _ _ _ (by simpa [ho] using h)
  next => rfl

/-- At user level it raises PRIV. -/
theorem if_system_blocked {only : Bool} (w : W64) (k : State → State) (h : only = true ∧ s.ctx.trap.level = false) :
    (if only then system w k s else k s) = raise 0x02 w s := by
  rw [if_pos h.1, system_user _ _ _ h.2]

/-- MFS holds what the register reads (04 R91). -/
theorem exec_mfs (h : ¬ (srSystemOnly r.toNat = true ∧ s.ctx.trap.level = false)) :
    exec (.mfs sw d r) s = .next (issued sw [.gpr d (srRead s r.toNat)] s) :=
  congrArg Host.Outcome.next (if_system_ok _ _ h)

/-- MTS holds the write of the register, or of the entry that STKIX names (04 R91, 15 R347). -/
theorem exec_mts (h : ¬ (srSystemOnly r.toNat = true ∧ s.ctx.trap.level = false)) :
    exec (.mts sw d r) s = .next (issued sw
      [if r == 0xAD then .stk s.ctx.trap.stkix (readW s d) else .sreg r.toNat (readW s d)] s) :=
  congrArg Host.Outcome.next (if_system_ok _ _ h)

/-- A register that user level has holds for wd what it shows. -/
theorem mfs_reads {v : W64} (hu : srSystemOnly r.toNat = false) (hv : srRead s r.toNat = v) :
    exec (.mfs sw d r) s = .next (issued sw [.gpr d v] s) := by
  rw [exec_mfs (by simp [hu]), hv]

/-- At system level every register does. -/
theorem mfs_reads_system {v : W64} (hl : s.ctx.trap.level = true) (hv : srRead s r.toNat = v) :
    exec (.mfs sw d r) s = .next (issued sw [.gpr d v] s) := by
  rw [exec_mfs (by simp [hl]), hv]

end

/-! ## Registers of several fields -/

/-- A word made from a number is the one of that number. -/
theorem w64_eq_of_toNat {n : Nat} {v : W64} (h : v.toNat = n) : w64 n = v := by
  rw [← h, w64, BitVec.ofNat_toNat, BitVec.setWidth_eq]

/-- A field that is wide enough shows its number. -/
theorem toNat_ofNat_of_lt {w n : Nat} (h : n < 2 ^ w) : (BitVec.ofNat w n).toNat = n := by
  rw [BitVec.toNat_ofNat, Nat.mod_eq_of_lt h]

theorem toNat_ofBool_toBit (b : Bool) : (BitVec.ofBool b).toNat = toBit b := by cases b <;> rfl

/-- Zeros above a field add nothing. -/
theorem toNat_zero_append {m n : Nat} (x : BitVec n) : ((0 : BitVec m) ++ x).toNat = x.toNat := by
  rw [append_toNat, toNat_eq_zero_iff.2 rfl, Nat.zero_mul, Nat.zero_add]

/-- A field at the foot of a word, below zeros. -/
theorem setWidth_eq_zero_append {m n : Nat} (x : BitVec n) : x.setWidth (m + n) = (0 : BitVec m) ++ x := by
  apply BitVec.eq_of_toNat_eq
  rw [toNat_zero_append, BitVec.toNat_setWidth_of_le (Nat.le_add_left n m)]

/-- A number at the foot of a word, below zeros. -/
theorem w64_eq_zero_append {m n x : Nat} (h : x < 2 ^ n) (hw : m + n = 64) :
    w64 x = ((0 : BitVec m) ++ BitVec.ofNat n x).cast hw :=
  w64_eq_of_toNat (by rw [BitVec.toNat_cast, toNat_zero_append, toNat_ofNat_of_lt h])

/-- MYXY: the core's place, its die, the module and the site (05 R123). -/
theorem myxy_fields (s : State) (h : s.core.id < 2048) :
    myxy s = (0 : BitVec 24) ++ s.site ++ s.accel ++ BitVec.ofNat 3 (coreDie s.core.id) ++ BitVec.ofNat 5 (coreY s.core.id) ++
      BitVec.ofNat 6 (coreX s.core.id) := by
  have hx : coreX s.core.id < 2 ^ 6 := Nat.mod_lt _ (by decide)
  have hy : coreY s.core.id < 2 ^ 5 := by unfold coreY; omega
  have hd : coreDie s.core.id < 2 ^ 3 := by unfold coreDie; omega
  apply w64_eq_of_toNat
  simp only [append_toNat, BitVec.ofNat_eq_ofNat, BitVec.toNat_zero, toNat_ofNat_of_lt, hx, hy, hd]
  omega

/-- The context with its incarnation (05 R123). -/
theorem ctxWord_fields (num : BitVec 4) (inc : BitVec 6) : w64 (num.toNat + inc.toNat * 16) = (0 : BitVec 54) ++ inc ++ num := by
  apply w64_eq_of_toNat
  simp only [append_toNat, BitVec.ofNat_eq_ofNat, BitVec.toNat_zero]
  omega

/-- The task with its class and the core's rank (05 R123). -/
theorem taskWord_fields (task : BitVec 12) (cls : BitVec 2) {rank : Nat} (h : rank < 2 ^ 11) :
    w64 (task.toNat + cls.toNat * 2 ^ 12 + rank * 2 ^ 16) =
      (0 : BitVec 37) ++ BitVec.ofNat 11 rank ++ (0 : BitVec 2) ++ cls ++ task := by
  apply w64_eq_of_toNat
  simp only [append_toNat, BitVec.ofNat_eq_ofNat, BitVec.toNat_zero, toNat_ofNat_of_lt h]
  omega

/-- Low messages, on chip and in overflow (05 R123). -/
theorem lowWord_fields {x y : Nat} (hx : x < 2 ^ 16) (hy : y < 2 ^ 32) :
    w64 (x + y * 2 ^ 16) = (0 : BitVec 16) ++ BitVec.ofNat 32 y ++ BitVec.ofNat 16 x := by
  apply w64_eq_of_toNat
  simp only [append_toNat, BitVec.ofNat_eq_ofNat, BitVec.toNat_zero, toNat_ofNat_of_lt hx, toNat_ofNat_of_lt hy]
  omega

/-- High messages, on chip and in overflow (05 R123). -/
theorem highWord_fields {x y : Nat} (hx : x < 2 ^ 6) (hy : y < 2 ^ 32) :
    w64 (x + y * 2 ^ 16) = (0 : BitVec 16) ++ BitVec.ofNat 32 y ++ (0 : BitVec 10) ++ BitVec.ofNat 6 x := by
  apply w64_eq_of_toNat
  simp only [append_toNat, BitVec.ofNat_eq_ofNat, BitVec.toNat_zero, toNat_ofNat_of_lt hx, toNat_ofNat_of_lt hy]
  omega

/-- Outbound messages on chip, slots in use and credits owed (05 R123). -/
theorem outWord_fields {chip slots owe : Nat} (hc : chip < 2 ^ 6) (hs : slots < 2 ^ 32) (ho : owe < 2 ^ 8) :
    w64 (chip + slots * 2 ^ 8 + owe * 2 ^ 40) =
      (0 : BitVec 16) ++ BitVec.ofNat 8 owe ++ BitVec.ofNat 32 slots ++ (0 : BitVec 2) ++ BitVec.ofNat 6 chip := by
  apply w64_eq_of_toNat
  simp only [append_toNat, BitVec.ofNat_eq_ofNat, BitVec.toNat_zero, toNat_ofNat_of_lt hc, toNat_ofNat_of_lt hs,
    toNat_ofNat_of_lt ho]
  omega

/-- WDEPTH (04 R79). -/
theorem wdepth_fields {c : Ctx} (hd : c.depth < 2 ^ 5) (hb : c.sb < 2 ^ 5) :
    wdepth c = (0 : BitVec 51) ++ BitVec.ofNat 5 c.sb ++ (0 : BitVec 3) ++ BitVec.ofNat 5 c.depth := by
  apply w64_eq_of_toNat
  simp only [append_toNat, BitVec.ofNat_eq_ofNat, BitVec.toNat_zero, toNat_ofNat_of_lt hd, toNat_ofNat_of_lt hb]
  omega

/-- The clk that the watchdog has counted for a context that is not parked (04 R93). -/
theorem cycOf_running (s : State) {c : Ctx} {n : Nat} (hp : ∀ d f, c.status ≠ .parked d f)
    (hn : (s.clk : Int) = c.start + n) :
    cycOf s c = n := by
  unfold cycOf
  split
  next d f h => exact absurd h (hp d f)
  next => omega

/-- MSTAT of a core that runs the launch: whether the next command waits at its barrier, the commands, and the launch's skips
(11 R267). -/
theorem mstat_fields (s : State) {r : Resident} {w : Bool} (hl : s.core.matq.length < 2 ^ 5)
    (hw : w = true ↔ ∃ q, s.core.matq.find? (fun q => q.st != .done) = some q ∧ barrierOver s.core q = false) :
    mstat s (some r) =
      (0 : BitVec 23) ++ BitVec.ofBool w ++ (0 : BitVec 3) ++ BitVec.ofNat 5 s.core.matq.length ++ r.skips := by
  have waits : (s.core.matq.find? (fun q => q.st != .done)).any (fun q => !barrierOver s.core q) = w := by
    rw [Bool.eq_iff_iff, hw, Option.any_eq_true]
    simp only [Bool.not_eq_true']
  apply w64_eq_of_toNat
  simp only [append_toNat, BitVec.ofNat_eq_ofNat, BitVec.toNat_zero, toNat_ofBool_toBit, toNat_ofNat_of_lt hl, waits,
    Option.map_some, Option.getD_some]
  omega

/-- The stage and the posts of a launch's static schedule (12 R290). -/
theorem stageWord_fields {stage posts : Nat} (hs : stage < 2 ^ 16) (hp : posts < 2 ^ 17) :
    w64 (stage + posts * 2 ^ 32) = (0 : BitVec 15) ++ BitVec.ofNat 17 posts ++ (0 : BitVec 16) ++ BitVec.ofNat 16 stage := by
  apply w64_eq_of_toNat
  simp only [append_toNat, BitVec.ofNat_eq_ofNat, BitVec.toNat_zero, toNat_ofNat_of_lt hs, toNat_ofNat_of_lt hp]
  omega

/-- Batches outstanding, and the batches sealed so far modulo 2^32 (12 R291). -/
theorem batchWord_fields {batches : Nat} (sealedNo : Nat) (hb : batches < 2 ^ 7) :
    w64 (sealedNo % 2 ^ 32 + batches * 2 ^ 32) = (0 : BitVec 25) ++ BitVec.ofNat 7 batches ++ BitVec.ofNat 32 sealedNo := by
  apply w64_eq_of_toNat
  simp only [append_toNat, BitVec.ofNat_eq_ofNat, toNat_ofNat_of_lt hb, BitVec.toNat_ofNat]
  omega

/-- NSTAT (13 R314). -/
theorem nstat_fields (s : State) (hq : s.core.netq.length < 2 ^ 5) (hp : (upPorts s).length < 2 ^ 7) :
    nstat s = (0 : BitVec 34) ++ s.core.regs.lastst ++ (0 : BitVec 4) ++ s.feat.extractLsb' 28 4 ++ (0 : BitVec 1) ++
      BitVec.ofNat 7 (upPorts s).length ++ (0 : BitVec 3) ++ BitVec.ofNat 5 s.core.netq.length := by
  apply w64_eq_of_toNat
  simp only [append_toNat, BitVec.ofNat_eq_ofNat, BitVec.toNat_zero, toNat_ofNat_of_lt hq, toNat_ofNat_of_lt hp, bits_eq_toNat]
  omega

/-- PRIV (15 R347). -/
theorem privWord_fields (t : TrapRegs) :
    privWord t = (0 : BitVec 61) ++ BitVec.ofBool t.prev ++ BitVec.ofBool t.intrap ++ BitVec.ofBool t.level := by
  apply w64_eq_of_toNat
  simp only [append_toNat, BitVec.ofNat_eq_ofNat, BitVec.toNat_zero, toNat_ofBool_toBit]
  omega

/-- DBG (15 R364). -/
theorem dbgWord_fields (s : State) (hi : inflight s < 2 ^ 16) :
    dbgWord s = (0 : BitVec 16) ++ BitVec.ofNat 16 (inflight s) ++ (0 : BitVec 4) ++ s.core.regs.dtask ++ (0 : BitVec 12) ++
      BitVec.ofBool s.core.regs.drained ++ BitVec.ofBool s.core.regs.drain ++ BitVec.ofBool (haltedBit s) ++
      BitVec.ofBool s.core.regs.halt := by
  apply w64_eq_of_toNat
  simp only [append_toNat, BitVec.ofNat_eq_ofNat, BitVec.toNat_zero, toNat_ofBool_toBit, toNat_ofNat_of_lt hi]
  omega

end Sys2Proof.Machine

open Sys2Proof Sys2Proof.Machine

/-- Settles O15: both moves make one check of the level, and each register's word is made of its fields. -/
theorem specialRegisterMoves : Obligations.SpecialRegisterMoves := by
  refine ⟨fun s sw d r => ?moves, fun s sw d => ?values⟩
  case moves =>
    refine ⟨exec_mfs, fun h hr => ?plain, fun h => ?stkdat, fun h => ⟨?mfs, ?mts⟩⟩
    case plain => rw [exec_mts h, if_neg (by simpa using hr)]
    case stkdat => rw [exec_mts (by simp [h])]; rfl
    case mfs =>
      rw [wordOf_insn _ (specialWord_lt sw d r _ (by decide))]
      exact congrArg Host.Outcome.next (if_system_blocked _ _ h)
    case mts =>
      rw [wordOf_insn _ (specialWord_lt sw d r _ (by decide))]
      exact congrArg Host.Outcome.next (if_system_blocked _ _ h)
  case values =>
    intro c g k reads chip slots
    refine ⟨fun h => mfs_reads rfl (myxy_fields s h), mfs_reads rfl (ctxWord_fields _ _),
      fun h => mfs_reads rfl (taskWord_fields _ _ h), ?messages,
      fun hx hy => mfs_reads rfl (lowWord_fields hx hy), fun hx hy => mfs_reads rfl (highWord_fields hx hy),
      fun hc hs ho => mfs_reads rfl (outWord_fields hc hs ho), mfs_reads rfl (setWidth_eq_zero_append (m := 32) _),
      fun h => mfs_reads rfl (w64_eq_zero_append (m := 56) (Nat.mul_lt_mul_of_pos_left h (by decide)) rfl),
      fun hd hb => mfs_reads rfl (wdepth_fields hd hb),
      fun n hp hn => mfs_reads rfl (congrArg w64 (cycOf_running s hp hn)),
      fun h => mfs_reads rfl (w64_eq_zero_append (m := 59) h rfl),
      ?accesses, ?floats, fun r hr => ?share, mfs_reads rfl rfl,
      fun h => mfs_reads rfl (batchWord_fields _ h), fun hq hp => mfs_reads rfl (nstat_fields s hq hp),
      ?levels, fun hl => ⟨?traps, ?tsave, ?stkix, ?stkdat, fun hi => mfs_reads_system hl (dbgWord_fields s hi)⟩⟩
    case messages =>
      exact ⟨mfs_reads rfl rfl, mfs_reads rfl rfl, mfs_reads rfl rfl, mfs_reads rfl rfl, mfs_reads rfl rfl, mfs_reads rfl rfl,
        mfs_reads rfl rfl, mfs_reads rfl rfl, mfs_reads rfl rfl, mfs_reads rfl rfl⟩
    case accesses =>
      exact ⟨mfs_reads rfl rfl, mfs_reads rfl rfl, mfs_reads rfl rfl, mfs_reads rfl rfl, mfs_reads rfl rfl⟩
    case floats =>
      exact ⟨mfs_reads rfl (setWidth_eq_zero_append (m := 58) _), mfs_reads rfl (setWidth_eq_zero_append (m := 61) _),
        mfs_reads rfl rfl⟩
    case share =>
      have shown {α : Type} (f : Resident → α) (x : α) : ((resOf s.core s.ctx.task).map f).getD x = f r := by rw [hr]; rfl
      refine ⟨mfs_reads rfl (shown _ _), mfs_reads rfl (shown _ _),
        mfs_reads rfl ((shown _ _).trans (setWidth_eq_zero_append (m := 60) _)), fun hl w hw => mfs_reads rfl ?mstat,
        fun hs hp => mfs_reads rfl ((shown _ _).trans (stageWord_fields hs hp))⟩
      case mstat => exact (congrArg (mstat s) hr).trans (mstat_fields s hl hw)
    case levels =>
      exact ⟨mfs_reads rfl rfl, mfs_reads rfl (setWidth_eq_zero_append (m := 48) _), mfs_reads rfl rfl,
        mfs_reads rfl (privWord_fields _)⟩
    case traps =>
      exact ⟨mfs_reads_system hl rfl, mfs_reads_system hl rfl, mfs_reads_system hl rfl, mfs_reads_system hl rfl,
        mfs_reads_system hl rfl⟩
    case tsave =>
      intro j
      match j with
      | 0 => exact mfs_reads_system hl rfl
      | 1 => exact mfs_reads_system hl rfl
      | 2 => exact mfs_reads_system hl rfl
      | 3 => exact mfs_reads_system hl rfl
    case stkix => exact mfs_reads_system hl (setWidth_eq_zero_append (m := 58) _)
    case stkdat => exact mfs_reads_system hl rfl
end
